-- ==== Sys2Proof/Word.lean ====
section
/-!
DEFINITION. The word types of the PTD-K840 model and the sparse tables that hold its numbered registers.
-/

namespace Sys2Proof

/-- One byte (00 R4). -/
abbrev Byte := BitVec 8

/-- A 16-bit field. -/
abbrev Half := BitVec 16

/-- A 32-bit field. -/
abbrev Word := BitVec 32

/-- A 64-bit register as BAR0 shows it (00 "Registers and access codes"). -/
abbrev Reg := BitVec 64

/-- A family of numbered registers: rising keys, each with its value; a key that is not listed holds
the family's default. -/
abbrev Tab (α : Type) := List (Nat × α)

end Sys2Proof
end

