-- ==== Sys2Proof/Syntax.lean ====
section
/-!
DEFINITION. The commands of the PTD-K840, one constructor for each row of spec/opcode_table.json, and the
data that a command brings from outside the module.
-/

namespace Sys2Proof

/-- What a register write addresses (11 R349): a BAR, or the function's configuration space. BAR4 has rows of its own. -/
inductive Bar where
  | bar0
  | bar2
  | config
deriving DecidableEq, Repr

/-- What host memory answers to a read request of the module (11 R356, 07 R218). -/
inductive HostReply where
  | data (bytes : List Byte)
  | unsupportedRequest
  | completerAbort
  | poisoned
  | timeout
deriving DecidableEq, Repr

/-- The causes of a host reset (11 R350). -/
inductive HostResetCause where
  | perstN
  | hotReset
  | linkDown
  | flr
deriving DecidableEq, Repr

/-- The errors that a sweep instance may meet after dispatch (03 R91). A translation fault is met by the
model's own walk; the other two are events of the array and of the mesh. -/
inductive SweepFault where
  | arrayErr
  | meshErr
deriving DecidableEq, Repr

/-- Who waits for entropy seeds (05 R152). -/
inductive SeedWaiter where
  | operation (op : Nat)
  | boot
  | domain (x : Nat)
  | spdm
deriving DecidableEq, Repr

/-- A Hawser frame as a port receives it, or as the module sends it (10 R314, R315). The FCS verdict stands
for the FCS itself; `untagged` and tagged frames are received alike. -/
structure HwFrame where
  fcsOk : Bool
  dstMac : BitVec 48
  srcMac : BitVec 48
  vlan : Option (BitVec 16)
  etherType : BitVec 16
  version : BitVec 4
  type : BitVec 4
  kind : BitVec 8
  srcId : BitVec 12
  srcPort : BitVec 4
  dstId : BitVec 12
  psn : BitVec 24
  ackPsn : BitVec 24
  epoch : BitVec 8
  group : BitVec 4
  revision : BitVec 16
  msgId : BitVec 32
  lineOffset : BitVec 32
  msgLines : BitVec 32
  addr : BitVec 64
  remoteCounter : BitVec 16
  remoteIncrement : BitVec 16
  poison : BitVec 128
  /-- the carried lines: payload bytes and side bytes -/
  lines : List (List Byte × List Byte)
deriving DecidableEq, Repr

/-- A dictionary frame (13 R391). `reservedSet` stands for the reserved PDU fields: true when one of them is
nonzero. -/
structure MgmtFrame where
  dst : BitVec 48
  src : BitVec 48
  etherType : BitVec 16
  tagged : Bool
  version : BitVec 8
  service : BitVec 8
  tid : BitVec 16
  index : BitVec 16
  sub : BitVec 8
  status : BitVec 8
  offset : BitVec 32
  flags : BitVec 8
  total : BitVec 32
  reservedSet : Bool
  length : Nat
  data : List Byte
deriving DecidableEq, Repr

/-- The samples of the millisecond that ends with a tick (13 R407): voltage and current of the 54 V and of the auxiliary input as
binary32 words, before the manifest's calibration, one of each for every microsecond; and the 10 µs mean of P_IN. -/
structure MeterSample where
  v : List Word
  i : List Word
  vAux : List Word
  iAux : List Word
  mean10 : Word
deriving DecidableEq, Repr

/-- One reading of the hottest sensors (14 R425): the dies C0 to C3 and the quay die, the sixteen stacks, the
coolant inlet and outlet; binary32 words in degrees Celsius. -/
structure Temperatures where
  dies : List Word
  stackTemps : List Word
  inlet : Word
  outlet : Word
deriving DecidableEq, Repr

/-- The supply events of 13 R409. -/
inductive SupplyEvent where
  | dip
  | dropout
  | swell
  | overstress
  | ripple
  | auxLoss
deriving DecidableEq, Repr

/-- Why the governor's fast step comes (14 R421). -/
inductive FastLimit where
  | ceiling
  | throttle
  | burst
deriving DecidableEq, Repr

/-- The causes of a module reset (15 R437). -/
inductive ResetCause where
  | powerUp
  | modRstN
  | restart
deriving DecidableEq, Repr

/-- What the boot ROM, the loader and the self-test find while a stage completes (15 R439, R446, R447, R452):
the physical clusters that fail the stage-6 self-test, and whether the PUF read succeeded. -/
structure BootFindings where
  pufOk : Bool
  badClusters : List Nat
deriving DecidableEq, Repr

/-- A register of a stow lane (06 "Stow registers"). -/
inductive LaneReg where
  | hdrBase
  | dataBase
  | size
  | reserve
deriving DecidableEq, Repr

/-- A register of a pool (09 R303). -/
inductive PoolReg where
  | base
  | size
  | ledger
  | slice
deriving DecidableEq, Repr

/-- The DOMAIN entries that take transfers (13 R405, 15 R448, R454). -/
inductive Transfer where
  | firmware
  | repair
deriving DecidableEq, Repr

/-- The commands of the module. The operand `op` is the serial number that DISPATCH gave an operation, `inst`
an instance of a sweep (0 for every other operation), `q` a submission queue, `p` a Hawser port, `peer` a
module ID, `x` a power domain as PWR_DOM_CTL_x numbers it, `m` a master ID, `c` a mailbox channel. -/
inductive Instr where
  | doorbellWrite (q : Nat) (t : Word)
  | descriptorFetch (q : Nat) (index : Word) (bytes : List Byte)
  | fetchAbort (q : Nat) (index : Word)
  | headerCheck (q : Nat)
  | dispatch (q : Nat)
  | completionSignal (op : Nat) (inst : Nat)
  | queueEnable (q : Nat) (v : Reg)
  | queueDisable (q : Nat) (v : Reg)
  | resume (q : Nat) (v : Reg)
  | cntAdd (n : Nat) (amount : Word)
  | cntSet (n : Nat) (amount : Word)
  | faultedClear (n : Nat)
  | evtClear (off : Nat)
  | xfInfoClear
  | registerWrite (bar : Bar) (off : Nat) (size : Nat) (v : Reg)
  | mirrorRead
  | sweep (op : Nat) (inst : Nat)
  | sweepInstanceFault (op : Nat) (inst : Nat) (cause : SweepFault)
  | release (op : Nat)
  | convert (op : Nat)
  | push (op : Nat)
  | pop (op : Nat)
  | peek (op : Nat)
  | gate (op : Nat)
  | descSkipped (q : Nat)
  | clear (op : Nat)
  | laneConfigWrite (l : Nat) (r : LaneReg) (v : Reg)
  | run (op : Nat)
  | lossClear (slot : Nat)
  | sample (op : Nat)
  | checkArm (q : Nat)
  | check (op : Nat)
  | runAheadDispatch (q : Nat)
  | tunerEnable
  | tunerDisable
  | runaheadCfgWrite (n : Nat) (v : Reg)
  | fill (op : Nat)
  | save (op : Nat)
  | restore (op : Nat)
  | reseed (op : Nat)
  | stringReseed (pc : Nat) (l : Nat)
  | entropyHealthFail (repetition : Bool) (adaptive : Bool)
  | entropyReady
  | noEntropyTimeout (who : SeedWaiter)
  | fence (op : Nat)
  | storePte (op : Nat)
  | land (op : Nat) (reply : HostReply)
  | exportShard (op : Nat)
  | openSeq (op : Nat)
  | closeSeq (op : Nat)
  | append (op : Nat)
  | truncate (op : Nat)
  | reserve (op : Nat)
  | matchPrefix (op : Nat)
  | publish (op : Nat)
  | attend (op : Nat)
  | attendGrad (op : Nat)
  | query (op : Nat)
  | pageFree (stack : Nat) (page : Nat)
  | poolConfigWrite (stack : Nat) (r : PoolReg) (v : Reg)
  | prefixKeyWrite (high : Bool) (v : Reg)
  | put (op : Nat)
  | allreduce (op : Nat)
  | ferry (op : Nat)
  | regroup (op : Nat)
  | putFrame (peer : Nat) (p : Nat)
  | contribFrame (peer : Nat) (p : Nat)
  | statsFrame (peer : Nat) (p : Nat)
  | readyFrame (peer : Nat) (p : Nat)
  | closeFrame (peer : Nat) (p : Nat)
  | ferryBlock (peer : Nat) (p : Nat)
  | ferryFree (peer : Nat) (p : Nat)
  | deadlineClose (g : Nat)
  | collTimeout (op : Nat)
  | ferryWaitTimeout (op : Nat)
  | rxData (p : Nat) (f : HwFrame)
  | ack (p : Nat) (f : HwFrame)
  | ackTimer (peer : Nat) (p : Nat)
  | nak (p : Nat) (f : HwFrame)
  | busyResend (peer : Nat) (p : Nat)
  | rtoExpiry (peer : Nat) (p : Nat)
  | syncReq (p : Nat) (f : HwFrame)
  | syncRsp (p : Nat) (f : HwFrame)
  | pause (p : Nat) (priority : Option (BitVec 3)) (ns : Nat)
  | peerReset (peer : Nat)
  | hawserConfigWrite (off : Nat) (v : Reg)
  | portEnable (p : Nat)
  | portDisable (p : Nat)
  | retrain (p : Nat)
  | trainingDone (p : Nat)
  | trainingTimeout (p : Nat)
  | downTimeout (p : Nat)
  | drainDone (p : Nat)
  | linkFailure (p : Nat) (codewords : Nat)
  | degradedWindow (p : Nat) (corrected : Nat) (received : Nat)
  | mbxWordWrite (m : BitVec 8) (c : Nat) (w : Nat) (v : Reg)
  | send (m : BitVec 8) (c : Nat) (v : Reg)
  | ackMessage (m : BitVec 8) (c : Nat) (v : Reg)
  | acquire (m : BitVec 8) (c : Nat) (peer : BitVec 8)
  | lockRelease (m : BitVec 8) (c : Nat)
  | nop (op : Nat)
  | notify (op : Nat)
  | ctxSave (op : Nat)
  | ctxRestore (op : Nat)
  | bar4Read (off : Nat) (len : Nat)
  | bar4Write (off : Nat) (bytes : List Byte) (poisoned : Bool)
  | sideDataRead
  | sideDataWrite (v : Reg)
  | hostReset (cause : HostResetCause)
  | functionStateChange (d3hot : Bool) (busMaster : Bool)
  | msixUnmask (v : Nat)
  | spdmRequest (object : List Byte)
  | doeAbort
  | readReq (f : MgmtFrame)
  | broadcastReadRsp
  | writeReq (f : MgmtFrame)
  | domainSegment (f : MgmtFrame)
  | domainTimeout (t : Transfer)
  | store (src : BitVec 48) (tid : BitVec 16) (v : Byte)
  | restoreDefaults (src : BitVec 48) (tid : BitVec 16) (v : Byte)
  | clearExtremes (src : BitVec 48) (tid : BitVec 16) (v : Byte)
  | logAck (src : BitVec 48) (tid : BitVec 16) (v : Word)
  | plcaWrite (src : BitVec 48) (tid : BitVec 16) (sub : BitVec 8) (v : Byte)
  | capWrite (src : BitVec 48) (tid : BitVec 16) (sub : BitVec 8) (v : Word)
  | capReleaseStep
  | repairRecord
  | targetWrite (src : BitVec 48) (tid : BitVec 16) (v : Byte)
  | activate (src : BitVec 48) (tid : BitVec 16) (v : Byte)
  | verificationDone
  | energySave
  | supplyEventBegin (e : SupplyEvent) (mean : Word)
  | supplyEventEnd (e : SupplyEvent) (mean : Word)
  | rippleWindow (vpp : Word)
  | nvInhibitClear
  | inputOvervoltage (mean : Word)
  | overcurrent
  | supplyRestart
  | referenceLoss
  | referenceRestored
  | governorFastStep (limit : FastLimit) (mean : Word)
  | governorMsTick (m : MeterSample)
  | bursts (pIn : Word)
  | burstEnd (pIn : Word)
  | retune (die : Nat) (up : Bool) (mean : Word)
  | marginShort (die : Nat)
  | thermalRead (t : Temperatures)
  | thermalTrip (die : Nat) (temp : Word)
  | thermalKStep (die : Nat)
  | throttleChange (asserted : Bool)
  | throttleHeld
  | throttleChatter (edges : Nat)
  | chatterClear
  | domainReqOn (x : Nat)
  | domainReqSlack (x : Nat)
  | domainReqOff (x : Nat)
  | slackEntry (x : Nat)
  | slackWake (x : Nat)
  | domainPowerRemoved (x : Nat)
  | domainPoweredUp (x : Nat)
  | retrainInterface (stack : Nat) (ok : Bool)
  | scrub (line : Nat)
  | moduleReset (cause : ResetCause)
  | bootStageComplete (b : BootFindings)
  | bootHalt (reason : Nat)
  | pauseTimeExpiry (p : Nat)
  | firstEstablishmentTimeout (peer : Nat)
  | modRstNRelease
  | pcieLinkUp
  | storeDone (ok : Bool)
  | managementPowerLoss
deriving DecidableEq, Repr

end Sys2Proof
end

