-- ==== Sys2Proof/Machine/Bits.lean ====
section
/-!
DEFINITION. Bit fields, byte order and sparse tables: the helpers that every unit of the model uses.
-/

namespace Sys2Proof.Machine

/-- Bits [hi:lo] of a number (00 R3). -/
def bits (x hi lo : Nat) : Nat := (x >>> lo) % 2 ^ (hi + 1 - lo)

/-- Bit i of a number. -/
def bit (x i : Nat) : Bool := (x >>> i) % 2 == 1

/-- The number 1 or 0. -/
def b2n (b : Bool) : Nat := if b then 1 else 0

/-- The number that bytes hold, least significant first (00 R4). -/
def leNat : List Byte → Nat
  | [] => 0
  | b :: bs => b.toNat + 256 * leNat bs

/-- The n low bytes of a number, least significant first (00 R4). -/
def natLE : Nat → Nat → List Byte
  | 0, _ => []
  | n + 1, x => BitVec.ofNat 8 x :: natLE n (x / 256)

/-- len bytes from offset off; bytes past the end read as zero. -/
def slice (xs : List Byte) (off len : Nat) : List Byte :=
  let ys := (xs.drop off).take len
  ys ++ List.replicate (len - ys.length) 0

/-- The little-endian field of len bytes at offset off. -/
def field (xs : List Byte) (off len : Nat) : Nat := leNat (slice xs off len)

/-- Replaces the bytes of xs from offset off on by ys; bytes of ys past the end of xs fall away. -/
def splice (xs : List Byte) (off : Nat) (ys : List Byte) : List Byte :=
  xs.take off ++ ys.take (xs.length - off) ++ xs.drop (off + ys.length)

/-- A number with bits [hi:lo] replaced. -/
def setBits (x hi lo v : Nat) : Nat :=
  x - (bits x hi lo) * 2 ^ lo + (v % 2 ^ (hi + 1 - lo)) * 2 ^ lo

/-- ceil(a / b). -/
def ceilDiv (a b : Nat) : Nat := (a + b - 1) / b

/-- a rounded up to a multiple of b. -/
def alignUp (a b : Nat) : Nat := ceilDiv a b * b

/-- The entry of a table, or its default. -/
def tget {α : Type} (d : α) : Tab α → Nat → α
  | [], _ => d
  | (k, v) :: t, n => if n = k then v else if n < k then d else tget d t n

/-- Sets an entry of a table, keeping the keys rising. -/
def tput {α : Type} : Tab α → Nat → α → Tab α
  | [], n, x => [(n, x)]
  | (k, v) :: t, n, x =>
    if n < k then (n, x) :: (k, v) :: t
    else if n = k then (n, x) :: t
    else (k, v) :: tput t n x

/-- Removes an entry of a table: it then reads as the default. -/
def tdel {α : Type} (t : Tab α) (n : Nat) : Tab α := t.filter fun e => e.1 ≠ n

/-- Changes an entry of a table. -/
def tupd {α : Type} (d : α) (t : Tab α) (n : Nat) (f : α → α) : Tab α := tput t n (f (tget d t n))

/-- Sign extension of an n-bit two's-complement number. -/
def signed (n x : Nat) : Int := if bit x (n - 1) then (x : Int) - (2 : Int) ^ n else x

/-- Clamps a number into a range (the register clamps, for example 11 Q_CFG.SIZE_LOG2). -/
def clampN (lo hi x : Nat) : Nat := if x < lo then lo else if hi < x then hi else x

end Sys2Proof.Machine
end

