-- ==== Sys2Proof/Machine/Crypt.lean ====
section
/-!
DEFINITION. The keyed generator of 05 R142 and its outputs (R143), and SipHash-2-4 (09 R274).
-/

namespace Sys2Proof.Machine

/-- Addition modulo 2^32. -/
def add32 (a b : Nat) : Nat := (a + b) % 2 ^ 32

/-- Rotation of a 32-bit word to the left (05 R142). -/
def rotl32 (x n : Nat) : Nat := (x <<< n) % 2 ^ 32 ||| x >>> (32 - n)

/-- The quarter round of 05 R142. -/
def quarter (a b c d : Nat) : Nat × Nat × Nat × Nat :=
  let a := add32 a b
  let d := rotl32 (d ^^^ a) 16
  let c := add32 c d
  let b := rotl32 (b ^^^ c) 12
  let a := add32 a b
  let d := rotl32 (d ^^^ a) 8
  let c := add32 c d
  let b := rotl32 (b ^^^ c) 7
  (a, b, c, d)

/-- The quarter round on four places of the state. -/
def quarterAt (x : List Nat) (i j k l : Nat) : List Nat :=
  let (a, b, c, d) := quarter (x.getD i 0) (x.getD j 0) (x.getD k 0) (x.getD l 0)
  (((x.set i a).set j b).set k c).set l d

/-- One double round: columns, then diagonals (05 R142). -/
def doubleRound (x : List Nat) : List Nat :=
  let x := quarterAt x 0 4 8 12
  let x := quarterAt x 1 5 9 13
  let x := quarterAt x 2 6 10 14
  let x := quarterAt x 3 7 11 15
  let x := quarterAt x 0 5 10 15
  let x := quarterAt x 1 6 11 12
  let x := quarterAt x 2 7 8 13
  quarterAt x 3 4 9 14

/-- The initial state of 05 R142. -/
def chachaInit (key : Nat) (stream : Nat) (blk : Nat) : List Nat :=
  let k := (List.range 4).map fun i => bits key (32 * i + 31) (32 * i)
  [0x61707865, 0x3120646E, 0x79622D36, 0x6B206574] ++ k ++ k
    ++ [blk % 2 ^ 32, bits blk 63 32, stream % 2 ^ 32, 0]

/-- keyed_word(key, stream, ctr) of 05 R142. -/
def keyedWord (key : BitVec 128) (stream : Word) (ctr : BitVec 64) : Word :=
  let s := chachaInit key.toNat stream.toNat (ctr.toNat >>> 4)
  let x := doubleRound (doubleRound (doubleRound (doubleRound s)))
  let w := ctr.toNat % 16
  BitVec.ofNat 32 (x.getD w 0 + s.getD w 0)

/-- The uniform 24-bit integer of 05 R143. -/
def uniform24 (w : Word) : Nat := w.toNat >>> 8

/-- Addition modulo 2^64. -/
def add64 (a b : Nat) : Nat := (a + b) % 2 ^ 64

/-- Rotation of a 64-bit word to the left. -/
def rotl64 (x n : Nat) : Nat := (x <<< n) % 2 ^ 64 ||| x >>> (64 - n)

/-- One SipRound. PRESUMED: the designers' definition, which 09 R274 names. -/
def sipRound (v : Nat × Nat × Nat × Nat) : Nat × Nat × Nat × Nat :=
  let (v0, v1, v2, v3) := v
  let v0 := add64 v0 v1
  let v1 := rotl64 v1 13
  let v1 := v1 ^^^ v0
  let v0 := rotl64 v0 32
  let v2 := add64 v2 v3
  let v3 := rotl64 v3 16
  let v3 := v3 ^^^ v2
  let v0 := add64 v0 v3
  let v3 := rotl64 v3 21
  let v3 := v3 ^^^ v0
  let v2 := add64 v2 v1
  let v1 := rotl64 v1 17
  let v1 := v1 ^^^ v2
  let v2 := rotl64 v2 32
  (v0, v1, v2, v3)

/-- Takes in one message word. -/
def sipWord (v : Nat × Nat × Nat × Nat) (m : Nat) : Nat × Nat × Nat × Nat :=
  let (v0, v1, v2, v3) := sipRound (sipRound (v.1, v.2.1, v.2.2.1, v.2.2.2 ^^^ m))
  (v0 ^^^ m, v1, v2, v3)

/-- SipHash-2-4 with a 64-bit output (09 R274). PRESUMED: the designers' definition. -/
def sipHash24 (key : BitVec 128) (msg : List Byte) : BitVec 64 :=
  let k0 := key.toNat % 2 ^ 64
  let k1 := key.toNat >>> 64
  let v := (k0 ^^^ 0x736f6d6570736575, k1 ^^^ 0x646f72616e646f6d,
    k0 ^^^ 0x6c7967656e657261, k1 ^^^ 0x7465646279746573)
  let n := msg.length
  let v := (List.range (n / 8)).foldl (fun v i => sipWord v (field msg (8 * i) 8)) v
  let last := leNat (msg.drop (8 * (n / 8))) + (n % 256) * 2 ^ 56
  let v := sipWord v last
  let (v0, v1, v2, v3) := v
  let (v0, v1, v2, v3) := sipRound (sipRound (sipRound (sipRound (v0, v1, v2 ^^^ 0xff, v3))))
  BitVec.ofNat 64 (v0 ^^^ v1 ^^^ v2 ^^^ v3)

end Sys2Proof.Machine
end

