-- ==== Sys2Proof/Config.lean ====
section
/-!
DEFINITION. What one module fixes and the manual does not: the free values, which no proof can see, and what
a unit holds from its manufacture. Each has a log entry.
-/

namespace Sys2Proof.Config

/-- The seed that the entropy source delivers on its n-th draw (05 R149, R151). Log entry 3. -/
opaque seed : Nat → BitVec 128

/-- How far a built-in function's result lies from the exactly rounded one, in units in the last place, plus 2
(06 R183). The first argument names the function: 0 EXP2, 1 LOG2, 2 RCP, 3 RSQ. Log entry 15. -/
opaque ulpOffset : Nat → Word → Fin 5

/-- The physical string (208 d + i, lane) and the number of cycles since the operation's start at which a
free-running draw is made (05 R147): arguments are the operation and the draw's number in it. Log entry 16. -/
opaque drawPlace : Nat → Nat → Nat × Nat × Nat

/-- Whether the function's Read Completion Boundary is 128 bytes, and not 64 (08 R251). Log entry 27. -/
opaque readBoundary128 : Bool

/-- Whether a scale-history byte arrives before its line completes (04 R114). Log entry 17. -/
opaque historyArrives : Nat → Nat → Bool

/-- A byte of a line that the manual leaves open: scratch (03 R94), undo-log contents (04 R135), the engine's
working region (09 R254). Arguments: the event's number, the byte's address. Log entry 9. -/
opaque openByte : Nat → Nat → Byte

/-- A lane's receiver and transmitter readings in 0x5010 + p (13 R412): the reading's number, the port, the subindex.
Log entry 18. -/
opaque laneReading : Nat → Nat → Nat → Word

/-- The minor version and the patch of a harbourmaster object (13 0x1000:08). Log entry 14. -/
opaque firmwareMinor : List Byte → BitVec 16

/-- The path that a new frame to a peer takes among its usable paths (10 R327). Log entry 20. -/
opaque pathChoice : Nat → Nat → Nat

/-- Whether the sweeps of an ATTEND or ATTEND_GRAD run on a course, of those that its course count gives (09 R254, R284).
Arguments: the operation, the course. Log entry 31. -/
opaque attendUses : Nat → Nat → Bool

/-- The course whose sweep carried a batch entry of an ATTEND or ATTEND_GRAD that an array or mesh error strikes (09 R254).
Arguments: the operation, the entry. Log entry 70. -/
opaque attendCourse : Nat → Nat → Nat

/-- How many steps of 5 mV above the lowest of its range a die's core voltage takes when it moves to an operating
point (14 R424: the lowest value at which its monitors report margin). Arguments: the value's number, the die.
Log entry 36. -/
opaque marginSteps : Nat → Nat → Nat

/-- The P-384 signature check of a signed object under a key slot (15 R442). Log entry 21. -/
opaque ecdsaOk : Nat → List Byte → List Byte → Bool

/-- The LMS signature check of a signed object under a key slot (15 R442). Log entry 21. -/
opaque lmsOk : Nat → List Byte → List Byte → Bool

/-- SHA-384 (15 R441, R452, R453). Log entry 21. -/
opaque sha384 : List Byte → List Byte

/-- The bytes of an SPDM answer beyond what the model states, which the SPDM 1.3 standard fixes, signed with a key (15 R453).
Arguments: the alias key, the request object, the measurements, the nonce seed. Log entry 22. -/
opaque spdmAnswer : List Byte → List Byte → List Byte → BitVec 128 → List Byte

/-- The DER certificate chain that the DeviceID key signs for an alias key and measurements (15 R452). Arguments: the two public
keys, the measurements. Log entry 22. -/
opaque certificateChain : List Byte → List Byte → List Byte → List Byte

/-- The UDS that the boot ROM reconstructs from the PUF SRAM (15 R452). Log entry 14. -/
opaque uds : BitVec 256

/-- HKDF-SHA-384 of the UDS with an input (15 R449, R452). Log entry 22. -/
opaque hkdf : BitVec 256 → List Byte → List Byte

/-- The P-384 public key, in uncompressed form, of the key pair that TCG DICE layering derives from a secret (15 R452).
Log entry 22. -/
opaque publicKey : List Byte → List Byte

/-- HMAC-SHA-384 under a key (15 R449). Log entry 22. -/
opaque hmac384 : List Byte → List Byte → List Byte

/-- The HMAC of the replay-protected partition as the unit left the factory (15 R449). Log entry 14. -/
opaque factoryMac : List Byte

/-- The content of the boot ROM (15 R453, measurement 1). Log entry 14. -/
opaque bootRom : List Byte

/-- A flash slot as it left the factory: kind 0 manifest, 1 harbourmaster, 2 security controller, 3 base die;
slot 0 A, 1 B (15 R451). Log entry 14. -/
opaque factorySlot : Nat → Nat → List Byte

/-- The anti-rollback counters as the unit left the factory (15 R449). Log entry 14. -/
opaque factoryCounter : Nat → Word

end Sys2Proof.Config
end

