-- ==== Sys2Proof/Machine/Float.lean ====
section
/-!
DEFINITION. Exact values, and the roundings of BF16, binary32 and F22 (02 R28 to R36, R482; 03 R66 to R70;
06 R180, R183).
-/

namespace Sys2Proof.Machine

/-- An exact value: NaN, an infinity, or (-1)^s m 2^e. -/
inductive FV where
  | nan
  | inf (s : Bool)
  | num (s : Bool) (m : Nat) (e : Int)
deriving DecidableEq, Repr

/-- Number of significant bits of a magnitude. -/
def bitLen (m : Nat) : Nat := if m = 0 then 0 else Nat.log2 m + 1

/-- m 2^k, dropping bits below the point when k is negative. -/
def shiftBy (m : Nat) (k : Int) : Nat :=
  match k with
  | .ofNat n => m <<< n
  | .negSucc n => m >>> (n + 1)

namespace FV

/-- +0. -/
abbrev zero : FV := .num false 0 0

/-- 1.0. -/
abbrev one : FV := .num false 1 0

/-- -infinity, the start value of 09 R281. -/
abbrev negInf : FV := .inf true

def isNaN : FV → Bool
  | .nan => true
  | _ => false

def isInf : FV → Bool
  | .inf _ => true
  | _ => false

/-- Finite and nonzero. -/
def isFinNZ : FV → Bool
  | .num _ m _ => m != 0
  | _ => false

/-- A zero of either sign. -/
def isZero : FV → Bool
  | .num _ m _ => m == 0
  | _ => false

/-- The sign bit; a NaN has none (02 R33). -/
def sign : FV → Bool
  | .nan => false
  | .inf s => s
  | .num s _ _ => s

def neg : FV → FV
  | .nan => .nan
  | .inf s => .inf !s
  | .num s m e => .num (!s) m e

def abs : FV → FV
  | .nan => .nan
  | .inf _ => .inf false
  | .num _ m e => .num false m e

/-- The signed integer m 2^(e - b) for a common exponent b at or below e. -/
def scaled (s : Bool) (m : Nat) (e b : Int) : Int :=
  let n : Int := ((m <<< (e - b).toNat : Nat) : Int)
  if s then -n else n

/-- Order of two values that are not NaN: the sign of x - y. -/
def cmp (x y : FV) : Ordering :=
  match x, y with
  | .inf a, .inf b => if a == b then .eq else if a then .lt else .gt
  | .inf a, _ => if a then .lt else .gt
  | _, .inf b => if b then .gt else .lt
  | .num s m e, .num t n f =>
    let b := min e f
    compare (scaled s m e b) (scaled t n f b)
  | _, _ => .eq

/-- a < b; false when either is NaN (06 R180, CMPLT). -/
def lt (x y : FV) : Bool := !x.isNaN && !y.isNaN && cmp x y == .lt

/-- a ≤ b; false when either is NaN. -/
def le (x y : FV) : Bool := !x.isNaN && !y.isNaN && cmp x y != .gt

/-- a = b; false when either is NaN (06 R180, CMPEQ). -/
def eq (x y : FV) : Bool := !x.isNaN && !y.isNaN && cmp x y == .eq

/-- The exact product (03 R66): NaN for a NaN operand or zero times infinity; the sign is the exclusive OR. -/
def mul (x y : FV) : FV :=
  match x, y with
  | .nan, _ => .nan
  | _, .nan => .nan
  | .inf a, .inf b => .inf (a != b)
  | .inf a, .num t n _ => if n = 0 then .nan else .inf (a != t)
  | .num s m _, .inf b => if m = 0 then .nan else .inf (s != b)
  | .num s m e, .num t n f => .num (s != t) (m * n) (e + f)

/-- The exact sum (03 R67): opposite infinities give NaN; an exact zero sum of nonzero values is +0; the sum
of zeros is -0 only when both are. -/
def add (x y : FV) : FV :=
  match x, y with
  | .nan, _ => .nan
  | _, .nan => .nan
  | .inf a, .inf b => if a == b then .inf a else .nan
  | .inf a, .num .. => .inf a
  | .num .., .inf b => .inf b
  | .num s m e, .num t n f =>
    if m = 0 ∧ n = 0 then .num (s && t) 0 0
    else
      let b := min e f
      let z := scaled s m e b + scaled t n f b
      .num (decide (z < 0)) z.natAbs b

/-- x times 2^k, exactly. -/
def scale (x : FV) (k : Int) : FV :=
  match x with
  | .num s m e => .num s m (e + k)
  | v => v

/-- The value of a natural number. -/
def ofNat (n : Nat) : FV := .num false n 0

/-- The value of an integer. -/
def ofInt (z : Int) : FV := .num (decide (z < 0)) z.natAbs 0

/-- Truncation of a non-negative finite value (06 R187). -/
def trunc : FV → Nat
  | .num _ m e => shiftBy m e
  | _ => 0

end FV

/-- The result of a rounding: the value, whether it overflowed, whether it was flushed. -/
structure Rounded where
  val : FV
  ovf : Bool
  flush : Bool
deriving DecidableEq, Repr

/-- m 2^e rounded to p significant bits, to nearest, ties to even, with an unbounded exponent range. -/
def roundSig (p : Nat) (m : Nat) (e : Int) : Nat × Int :=
  let n := bitLen m
  if n ≤ p then (m, e)
  else
    let k := n - p
    let q := m >>> k
    let r := m % 2 ^ k
    let half := 2 ^ (k - 1)
    let q' := if half < r ∨ (r = half ∧ q % 2 = 1) then q + 1 else q
    (q', e + k)

/-- Rounds an exact value to a format of p significant bits with binary32's exponent range: a result that is
subnormal by 02 R482 is flushed to zero of its sign, and one that reaches 2^128 becomes infinity. -/
def roundTo (p : Nat) (x : FV) : Rounded :=
  match x with
  | .num s m e =>
    if m = 0 then ⟨.num s 0 0, false, false⟩
    else
      let (q, f) := roundSig p m e
      let top : Int := f + bitLen q      -- magnitude lies in [2^(top-1), 2^top)
      if top ≤ -126 then ⟨.num s 0 0, false, true⟩
      else if 128 < top then ⟨.inf s, true, false⟩
      else ⟨.num s q f, false, false⟩
  | v => ⟨v, false, false⟩

/-- Rounding to binary32 (02 R28: 24 significant bits). -/
def round32 (x : FV) : Rounded := roundTo 24 x

/-- Rounding to F22 (02 R28, R32: 14 significant bits). -/
def round22 (x : FV) : Rounded := roundTo 14 x

/-- Decodes a format with s sign, `ew` exponent and `fw` fraction bits whose top exponent field holds infinity
and NaN (02 R28, R31, R32). -/
def decodeIeee (ew fw bias : Nat) (w : Nat) : FV :=
  let f := w % 2 ^ fw
  let e := (w >>> fw) % 2 ^ ew
  let s := bit w (ew + fw)
  if e = 2 ^ ew - 1 then (if f = 0 then .inf s else .nan)
  else if e = 0 then .num s f (1 - (bias : Int) - fw)
  else .num s (f + 2 ^ fw) ((e : Int) - bias - fw)

/-- binary32 (02 R28, R31). -/
def decode32 (w : Nat) : FV := decodeIeee 8 23 127 w

/-- BF16 (02 R28, R31). -/
def decodeBf16 (w : Nat) : FV := decodeIeee 8 7 127 w

/-- Encodes a value that the format can hold, subnormals included; any NaN becomes the canonical one (02 R33). -/
def encodeIeee (ew fw bias : Nat) (x : FV) : Nat :=
  let top := 2 ^ ew - 1
  match x with
  | .nan => top * 2 ^ fw + 2 ^ (fw - 1)
  | .inf s => b2n s * 2 ^ (ew + fw) + top * 2 ^ fw
  | .num s m e =>
    let sg := b2n s * 2 ^ (ew + fw)
    if m = 0 then sg
    else
      let msb : Int := e + bitLen m - 1
      if msb < 1 - (bias : Int) then sg + shiftBy m (e - (1 - (bias : Int) - fw))
      else
        let sig := shiftBy m (e - (msb - fw))
        sg + (msb + bias).toNat * 2 ^ fw + (sig - 2 ^ fw)

/-- The binary32 word of a value (02 R31, R33). -/
def encode32 (x : FV) : Nat := encodeIeee 8 23 127 x

/-- The BF16 word of a value (02 R31, R33). -/
def encodeBf16 (x : FV) : Nat := encodeIeee 8 7 127 x

/-- The F22 word of a value (02 R32, R33). -/
def encode22 (x : FV) : Nat := encodeIeee 8 13 127 x

/-- Widening to binary32 (02 R59): exact, except that a magnitude above the largest finite value becomes infinity. -/
def widen32 (x : FV) : FV :=
  match x with
  | .num s m e => if m ≠ 0 ∧ 128 < e + bitLen m then .inf s else .num s m e
  | v => v

/-- binary32 addition of the long accumulator and of the strings (03 R68). -/
def f32Add (x y : FV) : FV := (round32 (x.add y)).val

/-- binary32 subtraction (06 R180 SUB). -/
def f32Sub (x y : FV) : FV := f32Add x y.neg

/-- binary32 multiplication (06 R180 MUL). -/
def f32Mul (x y : FV) : FV := (round32 (x.mul y)).val

/-- The fused multiply-add of 03 R70: one rounding. -/
def fma32 (a b c : FV) : FV := (round32 ((a.mul b).add c)).val

/-- MAX of 06 R180: NaN if either is NaN, and max(+0, -0) = +0. -/
def max32 (x y : FV) : FV :=
  if x.isNaN || y.isNaN then .nan
  else if x.isZero && y.isZero then .num (x.sign && y.sign) 0 0
  else if FV.lt x y then y else x

/-- MIN of 06 R180: min(+0, -0) = -0. -/
def min32 (x y : FV) : FV :=
  if x.isNaN || y.isNaN then .nan
  else if x.isZero && y.isZero then .num (x.sign || y.sign) 0 0
  else if FV.lt y x then y else x

/-- The result of a conversion to BF16 (02 R60): the value and the events clipped, saturated, flushed. -/
structure BfResult where
  val : FV
  clipped : Bool
  saturated : Bool
  flushed : Bool
deriving DecidableEq, Repr

/-- binary32 (or any exact value) to BF16 (02 R60). The largest finite magnitude is 0x7F7F. -/
def toBf16 (sat : Bool) (x : FV) : BfResult :=
  match x with
  | .nan => ⟨.nan, false, false, false⟩
  | .inf s => ⟨if sat then .num s 255 120 else .inf s, false, true, false⟩
  | v =>
    let r := roundTo 8 v
    if r.ovf then ⟨if sat then .num v.sign 255 120 else .inf v.sign, true, false, false⟩
    else ⟨r.val, false, false, r.flush⟩

/-! ### The built-in functions of 06 R183

The exactly rounded result is computed to far more bits than binary32 holds; the free offset of Config then
moves it by at most two units in the last place. Special inputs and exact cases follow the table of R183. -/

/-- Fraction bits of the fixed-point work below. -/
def workBits : Nat := 160

/-- x^2 for a fixed-point number with workBits fraction bits. -/
def fixSq (x : Nat) : Nat := (x * x) >>> workBits

/-- The n leading bits of log2 of a fixed-point number in [1, 2). -/
def log2Digits : Nat → Nat → Nat → Nat
  | 0, _, acc => acc
  | n + 1, x, acc =>
    let y := fixSq x
    if y < 2 ^ (workBits + 1) then log2Digits n y (2 * acc)
    else log2Digits n (y / 2) (2 * acc + 1)

/-- 2^(2^-i) for i = 1, 2, ... in fixed point: square roots of 2, of that root, and so on. -/
def exp2Roots : Nat → Nat → List Nat
  | 0, _ => []
  | n + 1, x => let r := Nat.sqrt (x <<< workBits); r :: exp2Roots n r

/-- The product of the roots that the set fraction bits choose, most significant first. -/
def exp2Product : List Nat → Nat → Nat → Nat → Nat
  | [], _, _, acc => acc
  | r :: rs, frac, n, acc =>
    exp2Product rs frac (n - 1) (if bit frac (n - 1) then (acc * r) >>> workBits else acc)

/-- The exactly rounded values stand here as exact values to be rounded. EXP2 of a finite value. -/
def exp2Exact (x : FV) : FV :=
  match x with
  | .num s m e =>
    -- clamp far outside the exponent range
    if 10 < e + bitLen m then (if s then .num false 1 (-400) else .num false 1 400)
    else
      let n : Nat := 100
      let fx : Nat := shiftBy m (e + n)            -- |x| 2^n, truncated
      let z : Int := if s then -(fx : Int) else fx
      let ip : Int := Int.fdiv z ((2 : Int) ^ n)
      let fr : Nat := (z - ip * (2 : Int) ^ n).toNat
      let p := exp2Product (exp2Roots n (2 <<< workBits)) fr n (1 <<< workBits)
      .num false p (ip - workBits)
  | v => v

/-- LOG2 of a positive finite value. -/
def log2Exact (m : Nat) (e : Int) : FV :=
  let l := bitLen m
  let x := shiftBy m ((workBits : Int) + 1 - l)     -- in [1, 2)
  let ip : Int := e + l - 1
  if x = 2 ^ workBits then FV.ofInt ip
  else
    let n : Nat := 120
    let d := log2Digits n x 0
    let z : Int := ip * (2 : Int) ^ n + d
    .num (decide (z < 0)) z.natAbs (-(n : Int))

/-- 1 / (m 2^e), to far more than 24 bits. -/
def rcpExact (s : Bool) (m : Nat) (e : Int) : FV :=
  let k := bitLen m + 200
  .num s (2 ^ k / m) (-(k : Int) - e)

/-- 1 / sqrt(m 2^e), to far more than 24 bits. -/
def rsqExact (m : Nat) (e : Int) : FV :=
  -- make the exponent even, then 1 / sqrt(m) = sqrt(2^(2k) / m) / 2^k
  let (m', e') := if e % 2 = 0 then (m, e) else (2 * m, e - 1)
  let k := bitLen m' + 200
  .num false (Nat.sqrt (2 ^ (2 * k) / m')) (-(k : Int) - e' / 2)

/-- A normal binary32 result moved by the free offset of 06 R183, staying within binary32's finite normals. -/
def nudge (fn : Nat) (x : FV) (r : FV) : FV :=
  match r with
  | .num s m e =>
    if m = 0 then r
    else
      let w := encode32 (.num s m e) % 2 ^ 31
      let o := (Config.ulpOffset fn (BitVec.ofNat 32 (encode32 x))).val
      let w' := clampN 0x0080_0000 0x7F7F_FFFF (w + o - 2)
      decode32 (w' + b2n s * 2 ^ 31)
  | v => v

/-- Whether a magnitude is a power of two. -/
def isPow2 (m : Nat) : Bool := m != 0 && m == 2 ^ (bitLen m - 1)

/-- EXP2 (06 R183). -/
def exp2 (x : FV) : FV :=
  match x with
  | .nan => .nan
  | .inf s => if s then .zero else .inf false
  | .num s m e =>
    if m = 0 then .one
    else
      -- an integer n with -126 ≤ n ≤ 127 gives 2^n exactly
      let isInt : Bool := decide (0 ≤ e) || m % 2 ^ (-e).toNat == 0
      let n : Int := (if s then -1 else 1) * (shiftBy m e : Int)
      if isInt && decide (-126 ≤ n) && decide (n ≤ 127) && decide (e + bitLen m ≤ 10) then .num false 1 n
      else nudge 0 x (round32 (exp2Exact x)).val

/-- LOG2 (06 R183). -/
def log2 (x : FV) : FV :=
  match x with
  | .nan => .nan
  | .inf s => if s then .nan else .inf false
  | .num s m e =>
    if m = 0 then .inf true
    else if s then .nan
    else if isPow2 m then FV.ofInt (e + bitLen m - 1)
    else nudge 1 x (round32 (log2Exact m e)).val

/-- RCP (06 R183). -/
def rcp (x : FV) : FV :=
  match x with
  | .nan => .nan
  | .inf s => .num s 0 0
  | .num s m e =>
    if m = 0 then .inf s
    else if isPow2 m then (round32 (.num s 1 (1 - e - bitLen m))).val
    else nudge 2 x (round32 (rcpExact s m e)).val

/-- RSQ (06 R183). -/
def rsq (x : FV) : FV :=
  match x with
  | .nan => .nan
  | .inf s => if s then .nan else .zero
  | .num s m e =>
    if m = 0 then .inf s
    else if s then .nan
    else nudge 3 x (round32 (rsqExact m e)).val

end Sys2Proof.Machine
end

