-- ==== Sys2Proof/Machine/Narrow.lean ====
section
/-!
DEFINITION. Element formats, line layouts and the block-scaled conversions (02 R28 to R62; 04 R110, R111, R115).
-/

namespace Sys2Proof.Machine

/-- The element formats that reach memory, as the sweep descriptor numbers them (02 R28, 03 R96). -/
inductive Fmt where
  | t4
  | e4m3
  | e5m2
  | bf16
  | f32
deriving DecidableEq, Repr

/-- A format code of a descriptor; codes 5 to 7 name no format. -/
def Fmt.ofCode : Nat → Option Fmt
  | 0 => some .t4
  | 1 => some .e4m3
  | 2 => some .e5m2
  | 3 => some .bf16
  | 4 => some .f32
  | _ => none

/-- The block-scaled formats. -/
def Fmt.narrow : Fmt → Bool
  | .t4 => true
  | .e4m3 => true
  | .e5m2 => true
  | .bf16 => false
  | .f32 => false

/-- Elements per line (02 R40 to R42). -/
def Fmt.perLine : Fmt → Nat
  | .t4 => 128
  | .e4m3 => 64
  | .e5m2 => 64
  | .bf16 => 32
  | .f32 => 16

/-- Blocks of 32 elements per line of a narrow format. -/
def Fmt.blocksPerLine (f : Fmt) : Nat := f.perLine / 32

/-- Lines per row of a row length (02 R45). -/
def Fmt.linesPerRow (f : Fmt) (len : Nat) : Nat := ceilDiv len f.perLine

/-- The stored code of element j of a payload (02 R40 to R42). -/
def Fmt.codeAt (f : Fmt) (payload : List Byte) (j : Nat) : Nat :=
  match f with
  | .t4 => let b := (payload.getD (j / 2) 0).toNat; if j % 2 = 0 then b % 16 else b / 16
  | .e4m3 => (payload.getD j 0).toNat
  | .e5m2 => (payload.getD j 0).toNat
  | .bf16 => field payload (2 * j) 2
  | .f32 => field payload (4 * j) 4

/-- The payload that element codes make. -/
def Fmt.pack (f : Fmt) (codes : List Nat) : List Byte :=
  match f with
  | .t4 => (List.range 64).map fun i => BitVec.ofNat 8 (codes.getD (2 * i) 0 + 16 * codes.getD (2 * i + 1) 0)
  | .e4m3 => (List.range 64).map fun i => BitVec.ofNat 8 (codes.getD i 0)
  | .e5m2 => (List.range 64).map fun i => BitVec.ofNat 8 (codes.getD i 0)
  | .bf16 => (List.range 64).map fun i => BitVec.ofNat 8 (codes.getD (i / 2) 0 >>> (8 * (i % 2)))
  | .f32 => (List.range 64).map fun i => BitVec.ofNat 8 (codes.getD (i / 4) 0 >>> (8 * (i % 4)))

/-- The value of an element code without its scale (02 R28 to R31). -/
def Fmt.value (f : Fmt) (code : Nat) : FV :=
  match f with
  | .t4 =>
    let e := bits code 2 1
    let m := code % 2
    if e = 0 then .num (bit code 3) m (-1) else .num (bit code 3) (m + 2) ((e : Int) - 2)
  | .e4m3 =>
    let m := code % 8
    let e := bits code 6 3
    if code % 128 = 0x7F then .nan
    else if e = 0 then .num (bit code 7) m (-9) else .num (bit code 7) (m + 8) ((e : Int) - 10)
  | .e5m2 => decodeIeee 5 2 15 code
  | .bf16 => decodeBf16 code
  | .f32 => decode32 code

/-- The canonical NaN code of a format (02 R33). T4 has none. -/
def Fmt.nanCode : Fmt → Nat
  | .t4 => 0
  | .e4m3 => 0x7F
  | .e5m2 => 0x7E
  | .bf16 => 0x7FC0
  | .f32 => 0x7FC0_0000

/-- Scale code of block b (02 R40, R41). -/
def scaleCode (side : List Byte) (b : Nat) : Nat := (side.getD b 0).toNat

/-- Outlier mask bit of block b (02 R40, R41). -/
def maskBit (f : Fmt) (side : List Byte) (b : Nat) : Bool :=
  match f with
  | .t4 => bit (side.getD 4 0).toNat b
  | .e4m3 => bit (side.getD 2 0).toNat b
  | .e5m2 => bit (side.getD 2 0).toNat b
  | .bf16 => false
  | .f32 => false

/-- Generation byte of a line's side bytes. -/
def sideGen (side : List Byte) : Nat := (side.getD 5 0).toNat

/-- Tag of a line's side bytes. -/
def sideTag (side : List Byte) : Nat := field side 6 2

/-- The side bytes 5 to 7 that a producing operation places (02 R44, 08 R483). -/
def sideId (gen tag : Nat) : List Byte := BitVec.ofNat 8 gen :: natLE 2 tag

/-- Element j of a narrow or wide line, no list in play (02 R37, R42). -/
def Fmt.elem (f : Fmt) (payload side : List Byte) (j : Nat) : FV :=
  if f.narrow then
    let c := scaleCode side (j / 32)
    if c = 0 then .zero
    else if c = 0xFF then .nan
    else (f.value (f.codeAt payload j)).scale ((c : Int) - 127)
  else f.value (f.codeAt payload j)

/-- A line as a reader receives it (08 R246 to R248). -/
structure LineIn where
  payload : List Byte
  side : List Byte
  poison : Bool
deriving DecidableEq, Repr

/-- A poisoned line of zeros. -/
def LineIn.bad : LineIn := ⟨List.replicate 64 0, List.replicate 8 0, true⟩

/-- What a reader finds in the slot of a masked block: the position in the line and the value. -/
abbrev EntryAt := Nat → Option (Nat × FV)

/-- The elements of a line that a reader takes, first `n` of them (02 R37, R49, R50; 03 R77; 04 R112, R113).
`checked` false makes every block poisoned (04 R113). -/
def decodeElems (f : Fmt) (l : LineIn) (checked : Bool) (entry : EntryAt) (n : Nat) : List FV :=
  (List.range n).map fun j =>
    if l.poison || (f.narrow && !checked) then .nan
    else if f.narrow && maskBit f l.side (j / 32) then
      match entry (j / 32) with
      | none => .nan
      | some (p, v) => if scaleCode l.side (j / 32) = 0xFF then .nan else if p = j then v else f.elem l.payload l.side j
    else f.elem l.payload l.side j

/-- The orphans of a line: blocks among the first `n` elements with a set mask bit and no entry (02 R50). -/
def orphanCount (f : Fmt) (l : LineIn) (checked : Bool) (entry : EntryAt) (n : Nat) : Nat :=
  if l.poison || !checked || !f.narrow then 0
  else ((List.range (ceilDiv n 32)).filter fun b => maskBit f l.side b && (entry b).isNone).length

/-! ### Conversion of a block -/

/-- The parameters of 02 R51, and the identity that the lines carry (R44). -/
structure ConvParams where
  target : Fmt
  t : Nat
  floor : Nat
  ceil : Nat
  sat : Bool
  stoch : Bool
  gen : Nat
  tag : Nat
deriving DecidableEq, Repr

/-- The counts of 02 R57 and of the tensor record, in the record's order (04 R106): moved, flushed, clipped,
saturated, nan_count, poisoned_blocks, underflow_blocks, bollard_overflow, orphan_mask, elements_converted,
blocks_converted, reconverted_lines. -/
abbrev Counts := List Nat

/-- No counts. -/
def Counts.none : Counts := List.replicate 12 0

/-- Sum of two sets of counts. -/
def Counts.add (a b : Counts) : Counts := List.zipWith (· + ·) a b

/-- One count field raised. -/
def Counts.inc (c : Counts) (i n : Nat) : Counts := c.set i (c.getD i 0 + n)

/-- Largest finite magnitude code of a narrow target (02 R29, R30). -/
def Fmt.maxCode : Fmt → Nat
  | .t4 => 7
  | .e4m3 => 0x7E
  | .e5m2 => 0x7B
  | .bf16 => 0x7F7F
  | .f32 => 0x7F7F_FFFF

/-- Exponent of the largest value, four times its significand, fraction bits and smallest normal exponent of a
narrow target (02 R54, R28). -/
def Fmt.shape : Fmt → Int × Nat × Nat × Int
  | .t4 => (2, 6, 1, 0)
  | .e4m3 => (8, 7, 3, -6)
  | .e5m2 => (15, 7, 2, -14)
  | .bf16 => (127, 7, 7, -126)
  | .f32 => (127, 7, 23, -126)

/-- Sign bit of a target's code. -/
def Fmt.signBit : Fmt → Nat
  | .t4 => 8
  | .e4m3 => 128
  | .e5m2 => 128
  | .bf16 => 0x8000
  | .f32 => 0x8000_0000

/-- select_code of 02 R54 for a nonzero magnitude m 2^e. -/
def selectCode (f : Fmt) (m : Nat) (e : Int) (lo hi : Nat) : Nat :=
  let (emax, s4, _, _) := f.shape
  let ex : Int := e + bitLen m - 1
  let k := ex - emax
  let k := if s4 * 2 ^ (bitLen m - 1) < 4 * m then k + 1 else k
  let c := k + 127
  let c : Int := if c < lo then lo else c
  let c : Int := if (hi : Int) < c then hi else c
  c.toNat

/-- The magnitude code of a finite scaled magnitude at or below the target's largest value (02 R55), or with a
random word the code that stochastic rounding takes (02 R62). -/
def roundCode (f : Fmt) (m : Nat) (e : Int) (rand : Option Nat) : Nat :=
  let (_, _, fw, emin) := f.shape
  if m = 0 then 0
  else
    let ex : Int := e + bitLen m - 1
    let eq : Int := if ex < emin then emin else ex
    let q : Int := eq - fw
    -- v = m 2^e in units of 2^q: quotient and remainder
    let base := ((eq - emin).toNat) * 2 ^ fw
    if q ≤ e then base + m <<< (e - q).toNat
    else
      let k := (q - e).toNat
      let lo := m >>> k
      let r := m % 2 ^ k
      match rand with
      | none =>
        let half := 2 ^ (k - 1)
        base + (if half < r ∨ (r = half ∧ lo % 2 = 1) then lo + 1 else lo)
      | some w => base + (if w < (r * 2 ^ 24) >>> k then lo + 1 else lo)

/-- An encoded element: its code and its events (02 R55 to R57). -/
structure Encoded where
  code : Nat
  zeroed : Bool
  clipped : Bool
  saturated : Bool
deriving DecidableEq, Repr

/-- Encodes one element under scale code c (02 R55, R56, R62). -/
def encodeElem (p : ConvParams) (c : Nat) (rand : Option Nat) (x : FV) : Encoded :=
  let f := p.target
  let sg := if x.sign then f.signBit else 0
  let top : Nat :=
    if p.sat then sg + f.maxCode
    else match f with
      | .t4 => sg + f.maxCode
      | .e4m3 => 0x7F
      | .e5m2 => sg + 0x7C
      | .bf16 => sg + 0x7F80
      | .f32 => sg + 0x7F80_0000
  match x with
  | .nan => ⟨f.nanCode, false, false, false⟩
  | .inf _ => ⟨top, false, false, true⟩
  | .num _ m e =>
    let e' := e + 127 - c
    if FV.lt (f.value f.maxCode) (.num false m e') then ⟨top, false, true, false⟩
    else
      let k := roundCode f m e' rand
      ⟨sg + k, m != 0 && k == 0, false, false⟩

/-- The index of the largest finite nonzero magnitude, lowest on a tie, and that magnitude (+0 when none). -/
def largest (xs : List FV) (skip : Option Nat) : Nat × FV :=
  (xs.zipIdx).foldl (fun (acc : Nat × FV) (xi : FV × Nat) =>
    if xi.1.isFinNZ && (skip != some xi.2) && FV.lt acc.2 xi.1.abs then (xi.2, xi.1.abs) else acc) (0, .zero)

/-- A converted block. `entry` is the position in the block and the BF16 word of a moved element. -/
structure BlockOut where
  code : Nat
  codes : List Nat
  entry : Option (Nat × Nat)
  counts : Counts
deriving DecidableEq, Repr

/-- 32 zero codes. -/
def zeroCodes : List Nat := List.replicate 32 0

/-- Converts one block of n present elements (02 R54). `hasList` false keeps the outlier rule from firing
(04 R103), `full` is bollard_full, `rand` gives each element's random word. -/
def convertBlock (p : ConvParams) (hasList full : Bool) (rand : Nat → Option Nat) (xs : List FV) : BlockOut :=
  let n := xs.length
  let c0 := (Counts.none.inc 9 n).inc 10 1
  let nans := (xs.filter FV.isNaN).length
  let infs := xs.any FV.isInf
  if nans = n ∨ (p.target = .t4 ∧ 0 < nans) then
    ⟨0xFF, zeroCodes, none, (c0.inc 4 nans).inc 5 1⟩
  else
    let (i1, m1) := largest xs none
    let (_, m2) := largest xs (some i1)
    let fires := hasList && p.t != 0 && !m2.isZero && FV.lt (m2.scale p.t) m1
    let out := fires && !full
    let c1 := if fires && full then c0.inc 7 1 else c0
    let pick : FV := if out then m2 else m1
    let code : Nat :=
      match pick with
      | .num _ m e => if m = 0 then (if infs || decide (0 < nans) then p.ceil else 0) else selectCode p.target m e p.floor p.ceil
      | _ => 0
    let moved : BfResult := toBf16 p.sat (xs.getD i1 .zero)
    let xs' := if out then xs.set i1 .zero else xs
    if m1.isZero ∧ ¬ infs ∧ nans = 0 then ⟨0, zeroCodes, none, c1⟩
    else
      let es := (xs'.zipIdx).map fun xi => encodeElem p code (rand xi.2) xi.1
      let c2 := (((c1.inc 1 (es.filter (·.zeroed)).length).inc 2 (es.filter (·.clipped)).length).inc 3
        (es.filter (·.saturated)).length).inc 4 nans
      let c3 := if out then
          (((c2.inc 0 1).inc 1 (b2n moved.flushed)).inc 2 (b2n moved.clipped)).inc 3 (b2n moved.saturated)
        else c2
      let entry := if out then some (i1, encodeBf16 moved.val) else none
      let allZero := es.all fun e => e.code % p.target.signBit == 0
      if ¬ m1.isZero ∧ ¬ infs ∧ nans = 0 ∧ allZero then ⟨0, zeroCodes, entry, c3.inc 6 1⟩
      else
        ⟨code, (es.map (·.code)) ++ List.replicate (32 - n) 0, entry, c3⟩

/-- Cuts a list into pieces of k, structurally over a length bound. -/
def chunksOf {α : Type} (k : Nat) : Nat → List α → List (List α)
  | 0, _ => []
  | _, [] => []
  | fuel + 1, xs => xs.take k :: chunksOf k fuel (xs.drop k)

/-- A line as a writer forms it. -/
structure LineOut where
  payload : List Byte
  side : List Byte
deriving DecidableEq, Repr

/-- The side bytes of a narrow line (02 R40, R41, R44). -/
def narrowSide (f : Fmt) (codes : List Nat) (mask : Nat) (gen tag : Nat) : List Byte :=
  match f with
  | .t4 => ((List.range 4).map fun b => BitVec.ofNat 8 (codes.getD b 0)) ++ [BitVec.ofNat 8 mask] ++ sideId gen tag
  | .e4m3 => ((List.range 2).map fun b => BitVec.ofNat 8 (codes.getD b 0)) ++ [BitVec.ofNat 8 mask, 0, 0] ++ sideId gen tag
  | .e5m2 => ((List.range 2).map fun b => BitVec.ofNat 8 (codes.getD b 0)) ++ [BitVec.ofNat 8 mask, 0, 0] ++ sideId gen tag
  | .bf16 => List.replicate 5 0 ++ sideId gen tag
  | .f32 => List.replicate 5 0 ++ sideId gen tag

/-- A converted row: its lines, the entry of each of its groups (none: empty), its blocks' codes, its counts. -/
structure RowOut where
  lines : List LineOut
  entries : List (Option (Nat × Nat))
  codes : List Nat
  counts : Counts
  reconverted : Nat
deriving DecidableEq, Repr

/-- Converts the blocks of a row in ascending order, tracking which groups have an entry (04 R111). The result
holds each block's outcome; `used` lists the groups already taken. -/
def convertBlocks (p : ConvParams) (g : Option Nat) (base : Nat) (rand : Nat → Option Nat) :
    List (List FV) → Nat → List Nat → List BlockOut
  | [], _, _ => []
  | xs :: rest, b, used =>
    let grp := b / 2 ^ (g.getD 0)
    let r := convertBlock p g.isSome (used.contains grp) (fun i => rand (base + 32 * b + i)) xs
    r :: convertBlocks p g base rand rest (b + 1) (if r.entry.isSome then grp :: used else used)

/-- The line of some converted blocks. -/
def lineOf (p : ConvParams) (bs : List BlockOut) : LineOut :=
  let mask := (bs.zipIdx).foldl (fun m bi => if bi.1.entry.isSome then m + 2 ^ bi.2 else m) 0
  ⟨p.target.pack (bs.flatMap (·.codes)), narrowSide p.target (bs.map (·.code)) mask p.gen p.tag⟩

/-- Converts one row (02 R54, 04 R110, R111, R115). `first` is the tensor's element index of the row's first
element, `predicted` the history's prediction of each of the row's blocks (none: no prediction in force, as
04 R114 and 16 R460 give; an inner none is a miss). -/
def convertRow (p : ConvParams) (g : Option Nat) (first : Nat) (rand : Nat → Option Nat)
    (predicted : Option (Nat → Option Nat)) (xs : List FV) : RowOut :=
  let bpl := p.target.blocksPerLine
  let bs := convertBlocks p g first rand (chunksOf 32 xs.length xs) 0 []
  let groups := chunksOf bpl bs.length bs
  let entryOf (k : Nat) : Option (Nat × Nat) :=
    (bs.zipIdx).findSome? fun bi =>
      if bi.2 / 2 ^ (g.getD 0) = k then bi.1.entry.map fun e => (first + 32 * bi.2 + e.1, e.2) else none
  let entries := match g with
    | none => []
    | some gg => (List.range (ceilDiv bs.length (2 ^ gg))).map entryOf
  let missed := match predicted with
    | none => 0
    | some pr => ((groups.zipIdx).filter fun gi =>
        (gi.1.zipIdx).any fun bi => bi.1.entry.isSome || pr (gi.2 * bpl + bi.2) != some bi.1.code).length
  ⟨groups.map (lineOf p), entries, bs.map (·.code),
    (bs.foldl (fun c b => c.add b.counts) Counts.none).inc 11 missed, missed⟩

/-- A row of zero blocks, as a ZERO_FILL row of a hand-off is written (03 R88). -/
def zeroRow (p : ConvParams) (g : Option Nat) (len : Nat) : RowOut :=
  let nb := ceilDiv len 32
  let bs : List BlockOut := (List.range nb).map fun _ => ⟨0, zeroCodes, none, Counts.none⟩
  let groups := chunksOf p.target.blocksPerLine nb bs
  ⟨groups.map (lineOf p), match g with | none => [] | some gg => List.replicate (ceilDiv nb (2 ^ gg)) none,
    List.replicate nb 0, (Counts.none.inc 9 len).inc 10 nb, 0⟩

/-- A poisoned narrow line as a fault writes it: every scale code 0xFF (03 R91, 04 R105). -/
def poisonedNarrow (f : Fmt) : LineOut := ⟨List.replicate 64 0, narrowSide f (List.replicate f.blocksPerLine 0xFF) 0 0 0⟩

/-- A poisoned wide line as a fault writes it: the canonical NaN in each element, side bytes zero (03 R91,
08 R483). -/
def poisonedWide (f : Fmt) : LineOut := ⟨f.pack (List.replicate f.perLine f.nanCode), List.replicate 8 0⟩

/-- A line of zeros with side bytes zero. -/
def zeroLine : LineOut := ⟨List.replicate 64 0, List.replicate 8 0⟩

/-- The lines of a row of wide values (03 R64, R71; 08 R483). The side bytes are given. -/
def wideRow (f : Fmt) (sat : Bool) (side : List Byte) (xs : List FV) : List LineOut :=
  (chunksOf f.perLine xs.length xs).map fun c =>
    ⟨f.pack (c.map fun x => match f with | .bf16 => encodeBf16 (toBf16 sat x).val | _ => encode32 x), side⟩

/-- The 8 bytes of a bollard slot (02 R46, 04 R110): the entry of slot s, or the empty entry. -/
def slotBytes (s : Nat) : Option (Nat × Nat) → List Byte
  | none => natLE 5 0xFF_FFFF_FFFF ++ natLE 2 0 ++ [0]
  | some (idx, v) => natLE 5 idx ++ natLE 2 v ++ [BitVec.ofNat 8 (s % 64)]

end Sys2Proof.Machine
end

