-- ==== Sys2Proof/Machine/State.lean ====
section
/-!
DEFINITION. The state of the PTD-K840: plain data, one substate for each unit, and its value right after the
power-up of the management domain. INVENTORY.md lists each field with the rule that names it.
-/

namespace Sys2Proof.Machine

/-! ### The data plane: memories, marks, translation registers, event counters, error log -/

/-- A write that an operation makes to a physical line (08 R249, R483; 04 R107). -/
inductive Wr where
  /-- a whole line with its side bytes, poisoned or not -/
  | whole (line : Nat) (out : LineOut) (poison : Bool)
  /-- payload bytes from an offset on; side bytes are kept -/
  | part (line : Nat) (off : Nat) (bytes : List Byte)
  /-- a 48-bit addition to a count field of a tensor record -/
  | count (line : Nat) (off : Nat) (amount : Nat)
  /-- an undefined content: scratch (03 R94), undo log (04 R135), working region (09 R254) -/
  | scratch (line : Nat)
deriving DecidableEq, Repr

/-- An error-log record (13 R410). -/
structure LogRec where
  tide : Reg
  code : Half
  severity : Byte
  source : Byte
  d0 : Reg
  d1 : Reg
deriving DecidableEq, Repr

/-- RUNAHEAD_CFG_n: the values written, the values in effect, the log in use (04 R141). -/
structure RaCfg where
  offset : BitVec 15
  lines : BitVec 15
  effOffset : BitVec 15
  effLines : BitVec 15
  used : Half
deriving DecidableEq, Repr

/-- RUNAHEAD_CFG_n at reset (04 registers). -/
def RaCfg.reset : RaCfg := ⟨0, 0, 0, 0, 0⟩

/-- One undo-log entry: the berth line and its 80 stored bytes (04 R135). -/
structure Undo where
  line : Nat
  slot : Nat
  bytes : List Byte
deriving DecidableEq, Repr

/-- The data plane. -/
structure Data where
  /-- memory lines, 80 bytes each: line L's byte k is cell 80 L + k; Ivorn lines first, then berth (08 R222, R229) -/
  cells : List Host.Cell
  /-- event counters of the FAB_EVT_n layout, by BAR0 offset (03 R98) -/
  evts : Tab (BitVec 48)
  /-- speculative marks: berth line to verdict slot (04 R135) -/
  marks : Tab Nat
  /-- undo logs, newest entry first (04 R135) -/
  undo : List Undo
  /-- RUNAHEAD_CFG_n (04 R141) -/
  raCfg : Tab RaCfg
  /-- GEN_ROOT as written and as in effect (08 GEN_ROOT) -/
  rootWritten : BitVec 60
  root : BitVec 60
  /-- TX_GEN (08 R239) -/
  txGen : Half
  /-- XF_INFO and XF_QUEUE (08 R235) -/
  xfValid : Bool
  xfKind : BitVec 3
  xfAddr : BitVec 60
  xfQueue : BitVec 6
  /-- MEM_ECC_CTL (08 R246, R250) -/
  correct : Bool
  scrubEn : Bool
  scrubHours : Byte
  /-- SIDE_ADDR (08 R252) -/
  sideAddr : BitVec 60
  /-- stacks in the failed state (08 R227) -/
  failed : List Nat
  /-- successive failed retrainings of each stack (08 R227) -/
  retrainFails : Tab Nat
  /-- corrected lines of each stack (13 0x5002) -/
  stackCe : Tab Reg
  /-- the error log: records by slot, records written, records replaced unread (13 R410, R411) -/
  log : Tab LogRec
  logCount : Word
  logLost : Word
  /-- the highest record count acknowledged (13 R411) -/
  ackedTo : Word
  /-- records that wait for the non-volatile write inhibit to clear (14 R414) -/
  logHeld : List LogRec
  /-- failed transfers at the interface that the next reads of stack lines meet, oldest first (08 R248; the model's own,
  log entry 69) -/
  transfers : List Nat
  /-- dictionary frames sent, newest first (13 R391; the model's record) -/
  mgmtOut : List MgmtFrame
  /-- number of free values drawn (the model's own; log entry 3) -/
  free : Nat
deriving DecidableEq, Repr

/-- The data plane at the power-up of the management domain: nothing listed, every line poisoned (log entry 7). -/
def Data.reset : Data :=
  { cells := [], evts := [], marks := [], undo := [], raCfg := [], rootWritten := 0, root := 0, txGen := 0,
    xfValid := false, xfKind := 0, xfAddr := 0, xfQueue := 0, correct := true, scrubEn := true, scrubHours := 24,
    sideAddr := 0, failed := [], retrainFails := [], stackCe := [], log := [], logCount := 0, logLost := 0,
    ackedTo := 0, logHeld := [], transfers := [], mgmtOut := [], free := 0 }

/-! ### Operations in flight -/

/-- A retained stationary tile (03 R87): its tag, the extents and formats of the B it was loaded from, whether it
held all of B, and B's decoded elements in row-major order. -/
structure Tile where
  tag : Half
  k0 : Nat
  n0 : Nat
  fmt : Fmt
  whole : Bool
  elems : List FV
deriving DecidableEq, Repr

/-- A translation fault kind (08 R233, XF_INFO.KIND). -/
inductive XfKind where
  | notPresent
  | ahead
  | writeProt
  | malformed
  | range
  | pteErr
  | off
deriving DecidableEq, Repr

/-- The effects of an instance beyond its writes: staged while it runs ahead (04 R137), applied at once else. -/
structure Effects where
  /-- event counts by BAR0 offset -/
  evts : List (Nat × Nat)
  /-- tensor-record counts and history bytes -/
  recs : List Wr
  /-- loss contributions: slot and binary32 word, in row order -/
  loss : List (Nat × Word)
  /-- the retained tiles of courses (fabric, course) after the instance -/
  tiles : List (Nat × Nat × Option Tile)
  /-- the FAULTED bit of a course (fabric, course) -/
  faulted : Option (Nat × Nat)
  /-- a demand translation fault: kind and address -/
  xf : Option (XfKind × Nat)
deriving DecidableEq, Repr

/-- No effects. -/
def Effects.none : Effects := ⟨[], [], [], [], Option.none, Option.none⟩

/-- How far an instance is. -/
inductive Phase where
  /-- dispatched; its own command has not run -/
  | running
  /-- stalled before a write that needs the verdict (04 R135) -/
  | stalled
  /-- its work is done and its completion not yet signalled -/
  | done
deriving DecidableEq, Repr

/-- One instance of an operation; every operation but an all-courses sweep has one, numbered 0. -/
structure Inst where
  n : Nat
  phase : Phase
  /-- writes still to make after a stall -/
  rest : List Wr
  /-- staged effects -/
  eff : Effects
  /-- fault code, 0 for none (11 R364), the faulting address, and the tide at the fault (11 R365) -/
  fault : Nat
  va : Nat
  at_ : Reg
deriving DecidableEq, Repr

/-- A dispatched operation (11 R360, 08 R241). -/
structure Op where
  id : Nat
  q : Nat
  /-- descriptor index: HEAD at dispatch -/
  index : Word
  desc : List Byte
  /-- pinned translation generation -/
  pin : Half
  insts : List Inst
  /-- the verdict slot under which it runs ahead -/
  ahead : Option Nat
  /-- records read at dispatch (11 R484), by label -/
  recs : Tab (List Byte)
  /-- numbers fixed at dispatch, by label -/
  nums : Tab Nat
  /-- a host reset has come since its dispatch (11 R350) -/
  orphan : Bool
  /-- the retained tiles that its REUSE hit at dispatch, by course (03 R87) -/
  tiles : Tab Tile
deriving DecidableEq, Repr

/-! ### Queues and the host block (11) -/

/-- A descriptor that a RERUN returned to its queue (04 R138). -/
structure Redo where
  index : Word
  desc : List Byte
deriving DecidableEq, Repr

/-- A submission queue (11 R354 to R357). -/
structure Queue where
  base : BitVec 52
  enable : Bool
  stopOnFault : Bool
  sizeLog2 : BitVec 5
  priority : BitVec 2
  vector : Byte
  /-- 0 disabled, 1 running, 2 stopped on fault, 3 stopped on fetch error -/
  state : BitVec 3
  head : Word
  tail : Word
  headWb : BitVec 62
  /-- HEAD changed and not yet written back (11 R356) -/
  wbDue : Bool
  /-- descriptors fetched, by index (11 R355) -/
  fetched : Tab (List Byte)
  /-- the descriptor at HEAD has passed its header check (11 R359) -/
  checked : Bool
  /-- the CHECK at HEAD has armed this verdict slot, with this gate target (04 R133) -/
  armed : Option (Nat × Word)
  /-- descriptors that squashes returned, oldest first (04 R138) -/
  redo : List Redo
  /-- a dispatched GATE that has not decided (06 R173) -/
  gate : Option Nat
  /-- descriptors still to skip, or to let run, after a GATE's decision -/
  skip : Nat
deriving DecidableEq, Repr

/-- A queue at reset (11 Q_CFG_q). -/
def Queue.reset : Queue :=
  { base := 0, enable := false, stopOnFault := false, sizeLog2 := 4, priority := 0, vector := 0, state := 0, head := 0,
    tail := 0, headWb := 0, wbDue := false, fetched := [], checked := false, armed := none, redo := [], gate := none,
    skip := 0 }

/-- A completion counter (11 R362). -/
structure Cnt where
  value : Word
  code : Half
  faulted : Bool
deriving DecidableEq, Repr

/-- A completion counter at reset. -/
def Cnt.reset : Cnt := ⟨0, 0, false⟩

/-- A request of the module to host memory that may have to wait (16 R462). -/
inductive HostReq where
  /-- a fault record for the log ring (11 R366) -/
  | faultRecord (bytes : List Byte)
  /-- an MSI-X message on a vector (11 R367) -/
  | msix (v : Nat)
deriving DecidableEq, Repr

/-- What the function sends to the host, newest first (the model's record; log entry 5). -/
inductive HostOut where
  | write (addr : Nat) (bytes : List Byte)
  | msix (v : Nat) (addr : Reg) (data : Word)
  /-- an advisory non-fatal error (11 R353) -/
  | aer
  /-- completions of a BAR4 read: offset, bytes, poisoned (08 R251) -/
  | bar4 (parts : List (Nat × List Byte × Bool))
  /-- the value of a register read -/
  | value (v : Reg)
  /-- an Unsupported Request completion (11 R351) -/
  | unsupported
  /-- a DOE data object (11 R375) -/
  | doe (object : List Byte)
  /-- a Completer Abort completion (12 R383) -/
  | abort
  /-- a bus-error completion to a master on the internal fabric (12 R377, R382, R383) -/
  | busError (master : Byte)
deriving DecidableEq, Repr

/-- An access of the host that waits, or that stands behind a write that waits (11 R352, R353; 08 R224). -/
inductive HostAccess where
  | read (off len : Nat)
  | write (off : Nat) (bytes : List Byte) (poisoned : Bool)
  | sideRead
  | register (bar : Bar) (off size : Nat) (v : Reg)
  | doorbell (q : Nat) (tail : Word)
  | mirrorRead
deriving DecidableEq, Repr

/-- An MSI-X vector (11 R367). -/
structure Msix where
  addr : Reg
  data : Word
  masked : Bool
  pending : Bool
deriving DecidableEq, Repr

/-- An MSI-X vector at reset: masked (PRESUMED, PCIe; log entry 6). -/
def Msix.reset : Msix := ⟨0, 0, true, false⟩

/-- The host block. -/
structure Hst where
  logBase : BitVec 52
  logSizeLog2 : BitVec 5
  logEnable : Bool
  logVector : Byte
  prod : Word
  cons : Word
  /-- INT_CAUSE: FAULT_RECORD, QUEUE_STOPPED, LOG_LOST -/
  causeRecord : Bool
  causeStopped : Bool
  causeLost : Bool
  /-- MIRROR_SEL -/
  mirrorIndex : Half
  mirrorSub : Byte
  mirrorChunk : Byte
  /-- the queue that each resource last served (11 R361) -/
  lastServed : Tab Nat
  /-- host-memory requests that wait (16 R462), oldest first -/
  deferred : List HostReq
deriving DecidableEq, Repr

/-- The host block at reset (11 registers). -/
def Hst.reset : Hst :=
  { logBase := 0, logSizeLog2 := 6, logEnable := false, logVector := 0, prod := 0, cons := 0, causeRecord := false,
    causeStopped := false, causeLost := false, mirrorIndex := 0, mirrorSub := 0, mirrorChunk := 0, lastServed := [],
    deferred := [] }

/-- The PCIe function (11 R348 to R350, R375; 16 R462). -/
structure Pci where
  /-- the function is held in reset: PERST_N low or the link down -/
  down : Bool
  d3hot : Bool
  busMaster : Bool
  bar4Log2 : BitVec 6
  msix : Tab Msix
  /-- DOE: the object in progress, and the DOE Error bit -/
  doePart : List Byte
  doeError : Bool
  /-- accesses of the host that wait, oldest first (11 R352, R353) -/
  held : List HostAccess
  /-- an SPDM request whose answer needs a nonce that the entropy source does not yet give (15 R453) -/
  spdmWait : Option (List Byte)
deriving DecidableEq, Repr

/-- The PCIe function at reset (11 R349; PRESUMED rest, log entry 6). -/
def Pci.reset : Pci :=
  { down := true, d3hot := false, busMaster := false, bar4Log2 := 40, msix := [], doePart := [], doeError := false,
    held := [], spdmWait := none }

/-! ### Fabrics (03), tuner and verdicts (04), random (05), stow and strings (06) -/

/-- One fabric's block. -/
structure Fabric where
  /-- course-count code in force -/
  courses : BitVec 3
  /-- the course-count code that a drain in progress leads to (03 R79) -/
  drain : Option (BitVec 3)
  faulted : Half
  /-- retained tiles by course (03 R87) -/
  tiles : Tab Tile
  /-- the operation that last changed each course's tile (the model's own; log entry 24) -/
  loaders : Tab Nat
deriving DecidableEq, Repr

/-- A fabric at reset. -/
def Fabric.reset : Fabric := ⟨0, none, 0, [], []⟩

/-- A tuner slot: key, stream and sampling exponent (04 R123). -/
structure TunerSlot where
  key : BitVec 128
  stream : Word
  k : BitVec 5
deriving DecidableEq, Repr

/-- A tuner slot at reset. -/
def TunerSlot.reset : TunerSlot := ⟨0, 0, 12⟩

/-- A verdict slot (04 R133). -/
structure Verdict where
  pending : Bool
  last : Bool
  reasons : BitVec 4
  gate : BitVec 12
  /-- gate target of the current arming -/
  target : Word
deriving DecidableEq, Repr

/-- A verdict slot at reset. -/
def Verdict.reset : Verdict := ⟨false, false, 0, 0, 0⟩

/-- The tuner block. -/
structure Tuner where
  enable : Bool
  pending : Bool
  slots : Tab TunerSlot
  verdicts : Tab Verdict
deriving DecidableEq, Repr

/-- The tuner at reset. -/
def Tuner.reset : Tuner := ⟨false, false, [], []⟩

/-- Where the counters of a cluster domain's strings come from: the counter key of the last event that set them
all, and the tenths of arithmetic cycles since then (05 R148, R149). -/
structure StrDom where
  key : BitVec 128
  tenths : Nat
deriving DecidableEq, Repr

/-- A string whose counter was set by itself: its value, and its domain's tenths at that moment. -/
structure StrCtr where
  start : Reg
  at_ : Nat
deriving DecidableEq, Repr

/-- The random block (05). -/
structure Rng where
  root : BitVec 128
  seeded : Bool
  entOk : Bool
  reseeded : Bool
  /-- seeds drawn from the entropy source so far (log entry 3) -/
  drawn : Nat
  /-- per power domain of a cluster kind (4 d + kind) -/
  doms : Tab StrDom
  /-- strings with a counter of their own: key 128 pc + l -/
  strs : Tab StrCtr
  /-- a seeding that waits for ENT_OK: the module's own at reset -/
  seedWait : Bool
  /-- the seeding at reset has waited its 100 ms (05 R152) -/
  gaveUp : Bool
  /-- domains whose power-up waits for ENT_OK -/
  domWait : List Nat
deriving DecidableEq, Repr

/-- The random block at reset (log entry 8). -/
def Rng.reset : Rng :=
  { root := 0, seeded := false, entOk := false, reseeded := false, drawn := 0, doms := [], strs := [], seedWait := false,
    gaveUp := false, domWait := [] }

/-- A stow lane (06 R161, R162, R194). -/
structure Lane where
  hdrBase : BitVec 60
  dataBase : BitVec 60
  hdrCap : BitVec 17
  dataLines : Word
  reserve : Word
  depth : BitVec 17
  dataTop : Word
  seq : Word
deriving DecidableEq, Repr

/-- A lane at reset. -/
def Lane.reset : Lane := ⟨0, 0, 0, 0, 0, 0, 0, 0⟩

/-- The stow block. -/
structure Stow where
  lanes : Tab Lane
  /-- TAB_BASS_QUEUES -/
  bassQueues : Reg
  /-- an interleave slip exists (06 R177) -/
  slip : Bool
deriving DecidableEq, Repr

/-- The stow block at reset. -/
def Stow.reset : Stow := ⟨[], 0, false⟩

/-- A loss slot (06 R192). -/
structure Loss where
  sum : Word
  comp : Word
  count : Reg
deriving DecidableEq, Repr

/-- A loss slot at reset. -/
def Loss.reset : Loss := ⟨0, 0, 0⟩

/-! ### Mailboxes (12) -/

/-- A channel (12 R376, R380, R386). Channels 48 to 63 take sender and receiver from their lock. -/
structure Chan where
  words : List Reg
  full : Bool
  vector : Byte
  irqFull : Bool
  irqEmpty : Bool
  seq : Half
  /-- the binding of a channel below 48, 0 for none -/
  sender : Byte
  receiver : Byte
  held : Bool
  owner : Byte
  peer : Byte
  /-- the party that may acknowledge the message in the buffer (12 R387) -/
  ackBy : Byte
deriving DecidableEq, Repr

/-- The fallback binding of a channel (12 R379). -/
def fallback (c : Nat) : Byte × Byte :=
  if c = 0 then (0x10, 0x11)
  else if c = 1 then (0x11, 0x10)
  else if c < 16 then (0, 0)
  else if c < 32 then (0x01, 0x10)
  else if c < 48 then (0x10, 0x01)
  else (0, 0)

/-- An empty channel under its fallback binding (12 R385). -/
def Chan.reset (c : Nat) : Chan :=
  { words := List.replicate 8 0, full := false, vector := 0, irqFull := false, irqEmpty := false, seq := 0,
    sender := (fallback c).1, receiver := (fallback c).2, held := false, owner := 0, peer := 0, ackBy := 0 }

/-- A loaded entry of the binding table (12 R378). -/
structure Bind where
  channel : BitVec 6
  sender : Byte
  receiver : Byte
deriving DecidableEq, Repr

/-- A notification of a party (12 R381): the master, the channel, FULL (true) or EMPTY (false). -/
structure Notice where
  master : Byte
  channel : Nat
  full : Bool
deriving DecidableEq, Repr

/-- The mailbox block. -/
structure Mbx where
  /-- the 64 channels -/
  chans : Tab Chan
  /-- the binding table's loaded entries -/
  binds : Tab Bind
  locked : Bool
  /-- notifications that wait for their party's domain to come on, or for D0 -/
  waiting : List Notice
  /-- events delivered to internal agents, newest first (the model's record) -/
  events : List Notice
deriving DecidableEq, Repr

/-- The mailbox block at reset. -/
def Mbx.reset : Mbx := ⟨[], [], false, [], []⟩

/-! ### Power, supply and governor (14) -/

/-- The states of a power domain, in the order of PWR_DOM_CTL_x.STATE (14). -/
inductive DomState where
  | on
  | slack
  | off
  | down
  | up
deriving DecidableEq, Repr

/-- A power domain (14 R431 to R434). -/
structure Domain where
  req : BitVec 2
  st : DomState
  pending : Bool
  pendReq : BitVec 2
deriving DecidableEq, Repr

/-- A domain at the power-up of the management domain: off, REQ ON (log entry 12). -/
def Domain.reset : Domain := ⟨1, .off, false, 0⟩

/-- What ended the 54 V supply of the domains (14 R416 to R418, R426, R430; 17 R477). -/
inductive Shutdown where
  | input
  | overstress
  | reference
  | trip
  | overcurrent
deriving DecidableEq, Repr

/-- A compute die under the governor (14 R420 to R426). -/
structure Die where
  k : BitVec 5
  point : BitVec 3
  /-- core voltage in mV (14 R424) -/
  mv : Half
  /-- raises of k forbidden by the thermal loop (14 R426) -/
  noRaise : Bool
deriving DecidableEq, Repr

/-- A compute die at reset: k = 16, P0, the lowest voltage of P0's range (log entry 13). -/
def Die.reset : Die := ⟨16, 0, 780, false⟩

/-- The power, supply and governor state. -/
structure Pwr where
  /-- PWR_CFG.IDLE_US -/
  idleUs : Half
  doms : Tab Domain
  /-- mesh and host domains (14 R431) -/
  meshOn : Bool
  hostOn : Bool
  dies : Tab Die
  /-- GOV_STATUS.LIMIT -/
  limit : BitVec 5
  armed : Bool
  burst : Bool
  /-- the tide at which P_IN was last seen above 2,900 W (14 R420) -/
  lastHigh : Option Reg
  /-- the cap that the governor uses, in watts as binary32, and whether a release runs (14 R429) -/
  capInUse : Word
  releasing : Bool
  /-- non-volatile write inhibit; an orderly shutdown holds it to the next power-up of the management domain (14 R414) -/
  nvInhibit : Bool
  nvHeld : Bool
  /-- an orderly shutdown has run, for this cause (14 R416) -/
  shut : Option Shutdown
  /-- a thermal trip, and an overcurrent disconnect, that hold the 54 V domains off until MOD_RST_N (14 R426, 17 R477) -/
  tripped : Bool
  overcurrent : Bool
  /-- a dropout or overstress awaits the conditions of 14 R418 -/
  awaits : Bool
  /-- the input protection is open (14 R417, 17 R477) -/
  inputOpen : Bool
  /-- the 54 V mean has stayed at or above 44.5 V for 100 ms (14 R418; log entry 51) -/
  goodIn : Bool
  /-- the last mean of the 54 V input that was evaluated lay below 44.0 V (13 R409) -/
  below44 : Bool
  /-- the 54 V and the 12 V auxiliary input are in range (01 R25) -/
  in54 : Bool
  in12 : Bool
  /-- the 100 MHz reference is present (14 R430) -/
  ref : Bool
  pwrOk : Bool
  /-- MOD_RST_N is low (15 R437) -/
  modRst : Bool
  /-- filtered THROTTLE_N level, state 0 to 2, tide of the assertion's begin, THROTTLE_HELD logged (14 R427, R428) -/
  filtered : Bool
  throttle : BitVec 2
  throttleAt : Reg
  heldLogged : Bool
  chatterAt : Option Reg
deriving DecidableEq, Repr

/-- Power and governor at the power-up of the management domain (log entry 13). -/
def Pwr.reset : Pwr :=
  { idleUs := 100, doms := [], meshOn := false, hostOn := false, dies := [], limit := 0, armed := false, burst := false,
    lastHigh := none, capInUse := 0x451C4000, releasing := false, nvInhibit := false, nvHeld := false, shut := none, tripped := false, overcurrent := false,
    awaits := false, inputOpen := false, goodIn := true, below44 := false, in54 := true, in12 := true, ref := true, pwrOk := false, modRst := false, filtered := false, throttle := 0,
    throttleAt := 0, heldLogged := false, chatterAt := none }

/-! ### The object dictionary (13) -/

/-- The meters (13 R407) and their extremes. -/
structure Meters where
  vIn : Word
  iIn : Word
  pIn : Word
  pIn1s : Word
  eIn : Reg
  vAux : Word
  iAux : Word
  pAux : Word
  eAux : Reg
  vMin : Word
  vMax : Word
  pPeak : Word
  /-- no sample has been taken since power-up: the extremes begin with the first one -/
  fresh : Bool
  /-- the last values of P_IN, newest first, at most 1,000 (13 R407) -/
  history : List Word
  /-- what E_IN and E_AUX have gathered below 1 mJ, in µJ (log entry 71) -/
  eInMicro : Nat
  eAuxMicro : Nat
deriving DecidableEq, Repr

/-- The meters before their first sample (log entry 14). -/
def Meters.reset : Meters := ⟨0, 0, 0, 0, 0, 0, 0, 0, 0, 0, 0, 0, true, [], 0, 0⟩

/-- A supply event in progress (13 R409): its type as SUPPLY_EVENT codes it, its begin, its extreme voltage. -/
structure SupplyEv where
  kind : Nat
  start : Reg
  extreme : Word
deriving DecidableEq, Repr

/-- A change of a supply event's record in flash that the write inhibit holds back (13 R401, 14 R414): the record's begin and type,
the type and duration that it takes. -/
structure Relog where
  start : Reg
  kind : Nat
  newKind : Nat
  dur : Reg
deriving DecidableEq, Repr

/-- The persistent configuration entries (13 R401, R412). -/
structure DicCfg where
  plcaNode : Byte
  plcaCount : Byte
  plcaBurst : Byte
  plcaTimer : Byte
  plcaTo : Byte
  notifyDest : BitVec 48
  /-- Hawser port modes, default 0 -/
  portModes : Tab Byte
  dipV : Word
  swellV : Word
  rippleVpp : Word
  alarm : Word
  powerCap : Word
  capEnable : Bool
  throttleCap : Word
  /-- LOG_ACK (13 R411, R412) -/
  logAck : Word
deriving DecidableEq, Repr

/-- The defaults of the catalogue (13 R412): 48.0, 60.0, 2.0, 95.0, 2,500 and 1,500 in binary32. -/
def DicCfg.default : DicCfg :=
  { plcaNode := 255, plcaCount := 8, plcaBurst := 0, plcaTimer := 128, plcaTo := 32, notifyDest := 0, portModes := [],
    dipV := 0x42400000, swellV := 0x42700000, rippleVpp := 0x40000000, alarm := 0x42BE0000, powerCap := 0x451C4000,
    capEnable := true, throttleCap := 0x44BB8000, logAck := 0 }

/-- An open DOMAIN transfer (13 R400, R405). -/
structure DomainXfer where
  src : BitVec 48
  total : Nat
  data : List Byte
  /-- tide of its last segment -/
  last : Reg
  /-- TARGET recorded at FIRST, for a firmware image -/
  target : Byte
deriving DecidableEq, Repr

/-- A request answered (13 R393). -/
structure Answered where
  src : BitVec 48
  tid : Half
  tide : Reg
  response : MgmtFrame
deriving DecidableEq, Repr

/-- The dictionary agent. -/
structure Dic where
  cfg : DicCfg
  /-- configuration held in flash by the last STORE (13 R401, R402) -/
  stored : DicCfg
  lastWriter : BitVec 48
  writerChanges : Word
  answered : Word
  discarded : Word
  /-- tide of the last SECOND_WRITER record (13 R403) -/
  secondAt : Option Reg
  storeStatus : Byte
  /-- what a running STORE writes (13 R402) -/
  storing : DicCfg
  /-- the last 8 requests answered, newest first (13 R393) -/
  recent : List Answered
  /-- broadcast responses that wait for their delay (13 R392) -/
  broadcast : List MgmtFrame
  meters : Meters
  /-- 0x2001:01 to 08 -/
  counts : Tab Word
  /-- 0x2003: type, start, duration, extreme -/
  evType : Byte
  evStart : Reg
  evDur : Reg
  evExt : Word
  /-- supply events in progress, and the tide at which one last ended -/
  active : List SupplyEv
  evEnd : Option Reg
  /-- changes of records that the inhibit holds back -/
  relogs : List Relog
  /-- temperatures by dictionary index and subindex: 5 dies, 16 stacks, inlet and outlet -/
  dieTemps : Tab Word
  stackTemps : Tab Word
  inlet : Word
  outlet : Word
  /-- dies whose alarm has been logged and not re-armed (14 R426): 0 to 3, 4, 0x10 + s -/
  alarmed : List Nat
  /-- Cap enable pending (14 R429) -/
  capPending : Bool
  /-- energies in flash (13 R401) -/
  eInFlash : Reg
  eAuxFlash : Reg
  /-- flash writes due during the inhibit: supply counters, energies (13 R401) -/
  flashDue : Bool
  energyDue : Bool
  countsFlash : Tab Word
  /-- firmware update (13 R405, 15 R454) -/
  target : Byte
  fwStatus : Byte
  fwResult : Byte
  fwXfer : Option DomainXfer
  image : List Byte
  imageTarget : Byte
  /-- repair transfer (15 R448) -/
  repairXfer : Option DomainXfer
  repairData : Option (List Byte)
  /-- its last segment, to be answered when the verification ends -/
  repairReq : Option MgmtFrame
  repairStatus : Byte
  repairPending : Byte
deriving DecidableEq, Repr

/-- The dictionary agent at its power-up (log entries 11, 14). -/
def Dic.reset : Dic :=
  { cfg := .default, stored := .default, lastWriter := 0, writerChanges := 0, answered := 0, discarded := 0, secondAt := none,
    storeStatus := 0, storing := .default, recent := [], broadcast := [], meters := .reset, counts := [],
    evType := 0, evStart := 0, evDur := 0, evExt := 0, active := [], evEnd := none, relogs := [], dieTemps := [], stackTemps := [], inlet := 0, outlet := 0,
    alarmed := [], capPending := false, eInFlash := 0, eAuxFlash := 0, flashDue := false, energyDue := false, countsFlash := [], target := 0,
    fwStatus := 0, fwResult := 0, fwXfer := none, image := [], imageTarget := 0, repairXfer := none, repairData := none,
    repairReq := none, repairStatus := 0, repairPending := 0 }

/-! ### Boot and trust (15) -/

/-- The boot, manifest, repair and firmware state. -/
structure Boot where
  stage : Nat
  halted : Bool
  reason : Nat
  /-- the objects loaded at the last module reset, by kind 1 to 4 (15 R451, R453) -/
  running : Tab (List Byte)
  /-- flash slots by 2 (kind - 1) + slot; an unlisted slot holds the factory's object (log entry 14) -/
  slots : Tab (List Byte)
  /-- the active slot of each kind: 0 A, 1 B -/
  active : Tab Nat
  /-- anti-rollback counters 1 to 4; unlisted: the factory's (15 R449) -/
  counters : Tab Word
  /-- raises that the inhibit delays (15 R450) -/
  raiseDue : Bool
  /-- an activation or repair that waits for the inhibit (14 R414) -/
  slotDue : Bool
  repairDue : Bool
  /-- repair records in flash, oldest first (15 R448) -/
  repairs : List (List Byte)
  /-- repair records applied at the last reset -/
  applied : Nat
  /-- the logical map: physical cluster to logical number (15 R446) -/
  map : Tab Nat
  /-- spares neither enabled nor named as failed, by 3 d + kind -/
  spares : Tab Nat
  /-- logical clusters reported absent (01 R17) -/
  absent : List Nat
  /-- HW_MAC.BASE, the management MAC and the serial number of the manifest in force -/
  hwMac : BitVec 48
  mgmtMac : BitVec 48
  serial : List Byte
  quayMv : Half
  /-- gain and offset of V and I, of the 54 V and of the auxiliary input (15 R443); empty: the identity -/
  calibration : List Word
  /-- the UDS, the DeviceID public key, CDI_1, the alias public key and the alias certificate chain (15 R452) -/
  uds : Option (BitVec 256)
  deviceKey : List Byte
  cdi : List Byte
  aliasKey : List Byte
  chain : List Byte
  /-- the replay-protected partition's write count and HMAC; none: as the unit left the factory (15 R449) -/
  partWrites : Nat
  partMac : Option (List Byte)
deriving DecidableEq, Repr

/-- Boot state at stage 0. -/
def Boot.reset : Boot :=
  { stage := 0, halted := false, reason := 0, running := [], slots := [], active := [], counters := [], raiseDue := false,
    slotDue := false, repairDue := false, repairs := [], applied := 0, map := [], spares := [], absent := [], hwMac := 0,
    mgmtMac := 0, serial := [], quayMv := 0, calibration := [], uds := none, deviceKey := [], cdi := [], aliasKey := [], chain := [],
    partWrites := 0, partMac := none }

/-! ### The sequence cache (09) -/

/-- A sequence context (09 R256). A closed context is not listed. -/
structure Ctx where
  recompute : Bool
  dropOk : Bool
  layout : BitVec 6
  prio : BitVec 2
  ns : Half
  reserved : Word
  length : BitVec 48
  fill : BitVec 48
  retained : BitVec 48
  budget : BitVec 48
  protect : Word
  sink : Word
  decay : Word
  mapped : Word
  root : BitVec 60
deriving DecidableEq, Repr

/-- The pool registers of a stack (09 R303). -/
structure PoolRegs where
  base : BitVec 60
  size : BitVec 21
  low : BitVec 21
  high : BitVec 21
  ledger : BitVec 60
  slice : BitVec 60
deriving DecidableEq, Repr

/-- The pool registers at reset. -/
def PoolRegs.reset : PoolRegs := ⟨0, 0, 0, 0, 0, 0⟩

/-- The sequence block. Page states, tables and prefix slices lie in Ivorn (09 R264, R267, R275). -/
structure Seq where
  layoutBase : BitVec 60
  attnOffset : BitVec 21
  attnSize : BitVec 12
  key : BitVec 128
  /-- open contexts by sequence ID -/
  ctxs : Tab Ctx
  pools : Tab PoolRegs
  /-- slots in use of each TABLE page, key 2^21 s + page (09 R267) -/
  slotUse : Tab (List Nat)
deriving DecidableEq, Repr

/-- The sequence block at reset (log entry 8 for the key). -/
def Seq.reset : Seq := ⟨0, 0, 0, 0, [], [], []⟩

/-! ### Hawser (10) -/

/-- The port states, in the order of HW_PORT_STATUS_p.STATE (10 R311). -/
inductive PortState where
  | off
  | training
  | up
  | drain
  | down
deriving DecidableEq, Repr

/-- A port (10 R309 to R313; 13 0x5010). -/
structure Port where
  enable : Bool
  pending : Bool
  st : PortState
  degraded : Bool
  lanes : BitVec 4
  /-- transmission is stopped by PAUSE or PFC (10 R313) -/
  paused : Bool
  corrected : Reg
  uncorrectable : Reg
  /-- the mode of its last TRAINING entry (13 0x1010) -/
  mode : Byte
  /-- trainings begun so far: transmit coefficients stay fixed from one to the next (10 R309; log entry 18) -/
  trainings : Nat
  /-- frames that wait for the end of a stop, oldest first (10 R313) -/
  held : List HwFrame
deriving DecidableEq, Repr

/-- A port at reset. -/
def Port.reset : Port := ⟨false, false, .off, false, 0, false, 0, 0, 0, 0, []⟩

/-- A peer entry (10 R323, R347). -/
structure Peer where
  mac : BitVec 48
  paths : Half
  credit : BitVec 24
  /-- 0 IDLE, 1 UP, 2 UNREACHABLE -/
  st : BitVec 2
  /-- this module was last UNREACHABLE to it (10 R323) -/
  wasLost : Bool
  nextMsg : Word
  /-- frames not yet placed on a path, oldest first -/
  queue : List HwFrame
deriving DecidableEq, Repr

/-- A peer entry at reset. -/
def Peer.reset : Peer := ⟨0, 0, 0, 0, false, 0, []⟩

/-- A path (10 R317 to R322), key 16 peer + port. -/
structure Path where
  /-- established, or a SYNC_REQ for it is out -/
  est : Bool
  syncing : Bool
  /-- lost, its acknowledged frames not yet settled (10 R322) -/
  lost : Bool
  epoch : Byte
  next : BitVec 24
  /-- frames sent and not acknowledged, oldest first -/
  unacked : List HwFrame
  timeouts : Nat
  /-- NAK BUSY received, resend of the frames after this PSN due (10 R321) -/
  busy : Option (BitVec 24)
  /-- receiving side: epoch, expected PSN, frames accepted and not yet placed in memory, frames accepted since the last
  acknowledgement, NAK SEQ sent since the last timeout -/
  rxEpoch : Byte
  expected : BitVec 24
  staged : List HwFrame
  sinceAck : Nat
  nakSent : Bool
deriving DecidableEq, Repr

/-- A path that nothing has used. -/
def Path.reset : Path :=
  { est := false, syncing := false, lost := false, epoch := 0, next := 0, unacked := [], timeouts := 0, busy := none,
    rxEpoch := 0, expected := 0, staged := [], sinceAck := 0, nakSent := false }

/-- An open incoming message (10 R326): of a PUT, or a contribution that is being discarded (R334). -/
structure InMsg where
  src : BitVec 12
  id : Word
  got : Nat
  total : Nat
  refused : Bool
  put : Bool
deriving DecidableEq, Repr

/-- What a close names (10 R332): bitmaps by rank, and the counts of the report. -/
structure Close where
  included : Nat
  carried : Nat
  lost : Nat
  newly : Nat
deriving DecidableEq, Repr

/-- A contribution held in a slot (10 R330, R334): step, rank, whether it is the CONTRIB or the STATS message,
lines received of lines expected, and the message that carries it: its source and its number. -/
structure Contrib where
  step : Word
  rank : Nat
  stats : Bool
  got : Nat
  total : Nat
  src : BitVec 12
  msg : Word
deriving DecidableEq, Repr

/-- An ALLREDUCE's step at this member (10 R329 to R337); `done` when its results are written or it has faulted. -/
structure CollStep where
  step : Word
  op : Nat
  /-- reduce record -/
  record : List Byte
  active : List Nat
  deadline : Word
  start : Reg
  /-- groups per row of the source list (10 R331) -/
  gr : Nat
  /-- READY(s) sent -/
  readySent : Bool
  close : Option Close
  done : Bool
deriving DecidableEq, Repr

/-- A FERRY in progress at this rank (10 R339 to R343). -/
structure Ferry where
  op : Nat
  number : Word
  /-- ring: active ranks and this rank's place in it -/
  ring : List Nat
  place : Nat
  round : Nat
  /-- buffers the successor has freed -/
  grants : List Nat
  /-- lines received into each buffer, and lines of the block expected there -/
  recv : Tab Nat
  want : Tab Nat
  /-- blocks by round that are complete in their buffer -/
  ready : List Nat
  forwarded : Nat
  /-- rounds whose buffer has been freed -/
  freed : Nat
  /-- the origin of a POISONED block met -/
  poisoned : Option Nat
  /-- the running state per query row: log-sum-exp and outputs as binary32 words -/
  state : List (Word × List Word)
deriving DecidableEq, Repr

/-- A collective group (10 R328 to R343). -/
structure Group where
  addr : BitVec 60
  steps : List CollStep
  contribs : List Contrib
  /-- READY frames at the leader: step, rank, whether they came before that step closed -/
  ready : List (Word × Nat × Bool)
  /-- closes issued or received, newest first -/
  closes : List (Word × Close)
  /-- FERRY_FREE frames that came before their FERRY: ferry number and buffer (10 R342) -/
  keptFree : List (Word × Nat)
  ferry : Option Ferry
deriving DecidableEq, Repr

/-- A group at reset. -/
def Group.reset : Group := ⟨0, [], [], [], [], [], none⟩

/-- The Hawser block. -/
structure Hw where
  moduleId : BitVec 12
  vlanEn : Bool
  pcp : BitVec 3
  vid : BitVec 12
  maxLines : BitVec 7
  rto : Half
  retry : Byte
  ferryWait : Half
  ports : Tab Port
  peers : Tab Peer
  paths : Tab Path
  groups : Tab Group
  /-- open incoming messages (10 R326) -/
  msgs : List InMsg
  /-- frames sent: port and frame, newest first (the model's record) -/
  tx : List (Nat × HwFrame)
deriving DecidableEq, Repr

/-- The Hawser block at reset. -/
def Hw.reset : Hw :=
  { moduleId := 0, vlanEn := false, pcp := 0, vid := 0, maxLines := 126, rto := 50, retry := 16, ferryWait := 100, ports := [],
    peers := [], paths := [], groups := [], msgs := [], tx := [] }

/-! ### The module -/

/-- Why the machine stops. -/
inductive Fault where
  /-- Raised by every command whose operand names a queue, counter, channel, port, lane, slot, stack, domain or die
  beyond those that the manual gives the module (00 R2, 01, 11, 12). Safe: no command of the module is lost. -/
  | noSuchComponent
deriving DecidableEq, Repr

/-- Why a command has no meaning. -/
inductive Refusal where
  /-- Raised by the dispatcher for a command that the model does not yet give a meaning. Safe. -/
  | notModelled (mnemonic : String)
deriving DecidableEq, Repr

/-- The state of the module. -/
structure State where
  /-- commands that wait, first in first out (the model's own) -/
  pending : List Instr
  /-- the tide counter, ns (00, 01 R22) -/
  tide : Reg
  dp : Data
  /-- operations in flight, in dispatch order, and the next serial number -/
  ops : List Op
  nextOp : Nat
  que : Tab Queue
  cnt : Tab Cnt
  hst : Hst
  pci : Pci
  /-- what the function has sent to the host, newest first -/
  out : List HostOut
  treble : Fabric
  bass : Fabric
  tun : Tuner
  rng : Rng
  stw : Stow
  los : Tab Loss
  seq : Seq
  hw : Hw
  mbx : Mbx
  dic : Dic
  pwr : Pwr
  boot : Boot
deriving DecidableEq, Repr

/-- The module right after the power-up of its management domain: boot stage 0, every 54 V domain off. -/
def State.reset : State :=
  { pending := [], tide := 0, dp := .reset, ops := [], nextOp := 0, que := [], cnt := [], hst := .reset, pci := .reset,
    out := [], treble := .reset, bass := .reset, tun := .reset, rng := .reset, stw := .reset, los := [], seq := .reset,
    hw := .reset, mbx := .reset, dic := .reset, pwr := .reset, boot := .reset }

end Sys2Proof.Machine
end

