-- ==== Sys2Proof/Machine/Flags.lean ====
section
/-!
DEFINITION. The numbers the manual gives its flags: event counters by BAR0 offset, fault codes (11 R364), error-log
codes with their severities (13 R410, 15 R455), status words, abort codes.
-/

namespace Sys2Proof.Machine

/-! ### Event counters: BAR0 offsets (03 R98) -/

/-- DESC_DISPATCHED (11). -/
abbrev Evt.descDispatched : Nat := 0x108

/-- DB_REJECT (11). -/
abbrev Evt.dbReject : Nat := 0x110

/-- FETCH_ABORT (11). -/
abbrev Evt.fetchAbort : Nat := 0x118

/-- FAULT_LOG_LOST (11). -/
abbrev Evt.faultLogLost : Nat := 0x120

/-- HOST_RESET_DISCARD (11). -/
abbrev Evt.hostResetDiscard : Nat := 0x128

/-- HOST_OFF_ACCESS (11). -/
abbrev Evt.hostOffAccess : Nat := 0x130

/-- OPS_FAULTED (11). -/
abbrev Evt.opsFaulted : Nat := 0x138

/-- LINES_CONVERTED (04). -/
abbrev Evt.linesConverted : Nat := 0x1002008

/-- RECONVERT (04). -/
abbrev Evt.reconvert : Nat := 0x1002010

/-- GEN_MISMATCH (04). -/
abbrev Evt.genMismatch : Nat := 0x1002018

/-- ORPHAN_NOLIST (04). -/
abbrev Evt.orphanNolist : Nat := 0x1002020

/-- CONVERT_FAULT (04). -/
abbrev Evt.convertFault : Nat := 0x1002028

/-- VERDICT_PASS (04). -/
abbrev Evt.verdictPass : Nat := 0x1003008

/-- VERDICT_RERUN (04). -/
abbrev Evt.verdictRerun : Nat := 0x1003010

/-- SQUASHED_OPS (04). -/
abbrev Evt.squashedOps : Nat := 0x1003018

/-- RUNAHEAD_STALL (04). -/
abbrev Evt.runaheadStall : Nat := 0x1003020

/-- SAMPLE_SKIPPED (04). -/
abbrev Evt.sampleSkipped : Nat := 0x1003028

/-- FREE_RESEED (05). -/
abbrev Evt.freeReseed : Nat := 0x1005008

/-- STRING_RESEED (05). -/
abbrev Evt.stringReseed : Nat := 0x1005010

/-- HEALTH_FAIL (05). -/
abbrev Evt.healthFail : Nat := 0x1005018

/-- RANDOM_FAULT (05). -/
abbrev Evt.randomFault : Nat := 0x1005020

/-- FRAMES_PUSHED (06). -/
abbrev Evt.framesPushed : Nat := 0x1006008

/-- FRAMES_DROPPED (06). -/
abbrev Evt.framesDropped : Nat := 0x1006010

/-- ANCHOR_DROP (06). -/
abbrev Evt.anchorDrop : Nat := 0x1006018

/-- FRAMES_POPPED (06). -/
abbrev Evt.framesPopped : Nat := 0x1006020

/-- FRAMES_CLEARED (06). -/
abbrev Evt.framesCleared : Nat := 0x1006028

/-- TAG_MISMATCH (06). -/
abbrev Evt.tagMismatch : Nat := 0x1006030

/-- DESC_SKIPPED (06). -/
abbrev Evt.descSkipped : Nat := 0x1006038

/-- CFG_REJECT (06). -/
abbrev Evt.stowCfgReject : Nat := 0x1006040

/-- INTERLEAVE_SLIP (06). -/
abbrev Evt.interleaveSlip : Nat := 0x1006048

/-- SLIP_NS (06). -/
abbrev Evt.slipNs : Nat := 0x1006050

/-- STOW_FAULT (06). -/
abbrev Evt.stowFault : Nat := 0x1006058

/-- PROGRAMS_RUN (06). -/
abbrev Evt.programsRun : Nat := 0x1007008

/-- PROGRAM_FAULT (06). -/
abbrev Evt.programFault : Nat := 0x1007010

/-- LOSS_NONFINITE (06). -/
abbrev Evt.lossNonfinite : Nat := 0x1007018

/-- LANDED_LINES (07). -/
abbrev Evt.landedLines : Nat := 0x1008008

/-- LAND_FAULT (07). -/
abbrev Evt.landFault : Nat := 0x1008010

/-- EXPORTED_LINES (07). -/
abbrev Evt.exportedLines : Nat := 0x1008018

/-- EXPORT_POISON (07). -/
abbrev Evt.exportPoison : Nat := 0x1008020

/-- EXPORT_FAULT (07). -/
abbrev Evt.exportFault : Nat := 0x1008028

/-- MEM_CE (08). -/
abbrev Evt.memCe : Nat := 0x1009108

/-- MEM_UE (08). -/
abbrev Evt.memUe : Nat := 0x1009110

/-- POISON_READ (08). -/
abbrev Evt.poisonRead : Nat := 0x1009118

/-- LINK_RETRY (08). -/
abbrev Evt.linkRetry : Nat := 0x1009120

/-- SCRUB_POISON (08). -/
abbrev Evt.scrubPoison : Nat := 0x1009128

/-- RETRAIN (08). -/
abbrev Evt.retrain : Nat := 0x1009130

/-- STACK_FAIL (08). -/
abbrev Evt.stackFail : Nat := 0x1009138

/-- XLATE_FAULTS (08). -/
abbrev Evt.xlateFaults : Nat := 0x1009140

/-- FENCES (08). -/
abbrev Evt.fences : Nat := 0x1009148

/-- FENCE_WINDOW_WAIT (08). -/
abbrev Evt.fenceWindowWait : Nat := 0x1009150

/-- SIDE_REJECT (08). -/
abbrev Evt.sideReject : Nat := 0x1009158

/-- PAGES_ALLOCATED (09). -/
abbrev Evt.pagesAllocated : Nat := 0x100A808

/-- PAGES_RETIRED (09). -/
abbrev Evt.pagesRetired : Nat := 0x100A810

/-- PAGES_DROPPED (09). -/
abbrev Evt.pagesDropped : Nat := 0x100A818

/-- SEQ_DROPS (09). -/
abbrev Evt.seqDrops : Nat := 0x100A820

/-- PREFIX_HIT (09). -/
abbrev Evt.prefixHit : Nat := 0x100A828

/-- PREFIX_MISS (09). -/
abbrev Evt.prefixMiss : Nat := 0x100A830

/-- HASH_COLLISION (09). -/
abbrev Evt.hashCollision : Nat := 0x100A838

/-- TREE_FULL (09). -/
abbrev Evt.treeFull : Nat := 0x100A840

/-- TREE_REPLACED (09). -/
abbrev Evt.treeReplaced : Nat := 0x100A848

/-- POSITIONS_EVICTED (09). -/
abbrev Evt.positionsEvicted : Nat := 0x100A850

/-- KV_CLIPPED (09). -/
abbrev Evt.kvClipped : Nat := 0x100A858

/-- KV_FLUSHED (09). -/
abbrev Evt.kvFlushed : Nat := 0x100A860

/-- SEQ_STATUS (09). -/
abbrev Evt.seqStatus : Nat := 0x100A868

/-- CFG_REJECT (09). -/
abbrev Evt.seqCfgReject : Nat := 0x100A870

/-- SEQ_FAULT (09). -/
abbrev Evt.seqFault : Nat := 0x100A878

/-- FRAMES_TX (10). -/
abbrev Evt.framesTx : Nat := 0x100B808

/-- FRAMES_RX (10). -/
abbrev Evt.framesRx : Nat := 0x100B810

/-- RETRANSMIT (10). -/
abbrev Evt.retransmit : Nat := 0x100B818

/-- RX_DUP (10). -/
abbrev Evt.rxDup : Nat := 0x100B820

/-- RX_BUSY (10). -/
abbrev Evt.rxBusy : Nat := 0x100B828

/-- RX_REJECT (10). -/
abbrev Evt.rxReject : Nat := 0x100B830

/-- RX_FOREIGN (10). -/
abbrev Evt.rxForeign : Nat := 0x100B838

/-- RX_BAD (10). -/
abbrev Evt.rxBad : Nat := 0x100B840

/-- FEC_UNCORR (10). -/
abbrev Evt.fecUncorr : Nat := 0x100B848

/-- PATH_LOST (10). -/
abbrev Evt.pathLost : Nat := 0x100B850

/-- PEER_UNREACHABLE (10). -/
abbrev Evt.peerUnreachable : Nat := 0x100B858

/-- RX_ABANDONED (10). -/
abbrev Evt.rxAbandoned : Nat := 0x100B860

/-- PAUSE_NS (10). -/
abbrev Evt.pauseNs : Nat := 0x100B868

/-- PORT_RETRAIN (10). -/
abbrev Evt.portRetrain : Nat := 0x100B870

/-- COLL_CARRIED (10). -/
abbrev Evt.collCarried : Nat := 0x100B878

/-- COLL_DROPPED (10). -/
abbrev Evt.collDropped : Nat := 0x100B880

/-- WORKERS_LOST (10). -/
abbrev Evt.workersLost : Nat := 0x100B888

/-- REV_MISMATCH (10). -/
abbrev Evt.revMismatch : Nat := 0x100B890

/-- CFG_REJECT (10). -/
abbrev Evt.hwCfgReject : Nat := 0x100B898

/-- HAWSER_FAULT (10). -/
abbrev Evt.hawserFault : Nat := 0x100B8A0

/-- MBX_SENT (12). -/
abbrev Evt.mbxSent : Nat := 0x100C108

/-- MBX_ACKED (12). -/
abbrev Evt.mbxAcked : Nat := 0x100C110

/-- MBX_REJECT_FULL (12). -/
abbrev Evt.mbxRejectFull : Nat := 0x100C118

/-- MBX_DENIED (12). -/
abbrev Evt.mbxDenied : Nat := 0x100C120

/-- MBX_OFF (12). -/
abbrev Evt.mbxOff : Nat := 0x100C128

/-- MBX_WAKE (12). -/
abbrev Evt.mbxWake : Nat := 0x100C130

/-- LOCK_CONTEND (12). -/
abbrev Evt.lockContend : Nat := 0x100C138

/-- LOCK_REFUSED (12). -/
abbrev Evt.lockRefused : Nat := 0x100C140

/-- BIND_REJECT (12). -/
abbrev Evt.bindReject : Nat := 0x100C148

/-- SLACK_ENTRY (14). -/
abbrev Evt.slackEntry : Nat := 0x100D808

/-- SLACK_WAKE (14). -/
abbrev Evt.slackWake : Nat := 0x100D810

/-- DOMAIN_PENDING (14). -/
abbrev Evt.domainPending : Nat := 0x100D818

/-- RETUNE (14). -/
abbrev Evt.retune : Nat := 0x100D820

/-- LIMITED_NS (14). -/
abbrev Evt.limitedNs : Nat := 0x100D828

/-- BURSTS (14). -/
abbrev Evt.bursts : Nat := 0x100D830

/-- The event counters of a fabric, by their offset in its block (03): the treble block lies at 0x0100_0000, the bass
block at 0x0100_1000. -/
abbrev Evt.fab (bass : Bool) (off : Nat) : Nat := (if bass then 0x1001000 else 0x1000000) + off

/-- PRODUCT_OVF, PRODUCT_FLUSH, ACC_OVF, ACC_FLUSH, MODE_SWITCH, REUSE_MISS, SWEEP_FAULT in a fabric's block (03). -/
abbrev Evt.productOvf : Nat := 0x08
abbrev Evt.productFlush : Nat := 0x10
abbrev Evt.accOvf : Nat := 0x18
abbrev Evt.accFlush : Nat := 0x20
abbrev Evt.modeSwitch : Nat := 0x28
abbrev Evt.reuseMiss : Nat := 0x30
abbrev Evt.sweepFault : Nat := 0x38

/-- The counters of tuner slot s: TILES, ELEMS, DISAGREE, NAN (04). -/
abbrev Evt.tuner (s i : Nat) : Nat := 0x1003118 + 0x40 * s + 8 * i

/-- Every event counter of the FAB_EVT_n layout, by BAR0 offset. -/
def allEvents : List Nat :=
  [0x1000008, 0x1000010, 0x1000018, 0x1000020, 0x1000028, 0x1000030, 0x1000038, 0x1001008, 0x1001010, 0x1001018,
   0x1001020, 0x1001028, 0x1001030, 0x1001038]
  ++ [Evt.descDispatched, Evt.dbReject, Evt.fetchAbort, Evt.faultLogLost, Evt.hostResetDiscard, Evt.hostOffAccess,
      Evt.opsFaulted]
  ++ [Evt.linesConverted, Evt.reconvert, Evt.genMismatch, Evt.orphanNolist, Evt.convertFault]
  ++ [Evt.verdictPass, Evt.verdictRerun, Evt.squashedOps, Evt.runaheadStall, Evt.sampleSkipped]
  ++ [Evt.freeReseed, Evt.stringReseed, Evt.healthFail, Evt.randomFault]
  ++ [Evt.framesPushed, Evt.framesDropped, Evt.anchorDrop, Evt.framesPopped, Evt.framesCleared, Evt.tagMismatch,
      Evt.descSkipped, Evt.stowCfgReject, Evt.interleaveSlip, Evt.slipNs, Evt.stowFault]
  ++ [Evt.programsRun, Evt.programFault, Evt.lossNonfinite]
  ++ [Evt.landedLines, Evt.landFault, Evt.exportedLines, Evt.exportPoison, Evt.exportFault]
  ++ [Evt.memCe, Evt.memUe, Evt.poisonRead, Evt.linkRetry, Evt.scrubPoison, Evt.retrain, Evt.stackFail,
      Evt.xlateFaults, Evt.fences, Evt.fenceWindowWait, Evt.sideReject]
  ++ [Evt.pagesAllocated, Evt.pagesRetired, Evt.pagesDropped, Evt.seqDrops, Evt.prefixHit, Evt.prefixMiss,
      Evt.hashCollision, Evt.treeFull, Evt.treeReplaced, Evt.positionsEvicted, Evt.kvClipped, Evt.kvFlushed,
      Evt.seqStatus, Evt.seqCfgReject, Evt.seqFault]
  ++ [Evt.framesTx, Evt.framesRx, Evt.retransmit, Evt.rxDup, Evt.rxBusy, Evt.rxReject, Evt.rxForeign,
      Evt.rxBad, Evt.fecUncorr, Evt.pathLost, Evt.peerUnreachable, Evt.rxAbandoned, Evt.pauseNs, Evt.portRetrain,
      Evt.collCarried, Evt.collDropped, Evt.workersLost, Evt.revMismatch, Evt.hwCfgReject, Evt.hawserFault]
  ++ [Evt.mbxSent, Evt.mbxAcked, Evt.mbxRejectFull, Evt.mbxDenied, Evt.mbxOff, Evt.mbxWake, Evt.lockContend,
      Evt.lockRefused, Evt.bindReject]
  ++ [Evt.slackEntry, Evt.slackWake, Evt.domainPending, Evt.retune, Evt.limitedNs, Evt.bursts]
  ++ (List.range 64).map fun i => Evt.tuner (i / 4) (i % 4)

/-! ### Fault codes (11 R364) -/

/-- RSVD_SET. -/
abbrev Code.rsvdSet : Nat := 0x01

/-- BAD_OPCODE. -/
abbrev Code.badOpcode : Nat := 0x02

/-- BAD_TARGET. -/
abbrev Code.badTarget : Nat := 0x03

/-- BAD_FORMAT. -/
abbrev Code.badFormat : Nat := 0x04

/-- BAD_OPTION. -/
abbrev Code.badOption : Nat := 0x05

/-- BAD_SHAPE. -/
abbrev Code.badShape : Nat := 0x06

/-- BAD_ALIGN. -/
abbrev Code.badAlign : Nat := 0x07

/-- BAD_SCALE_LIMIT. -/
abbrev Code.badScaleLimit : Nat := 0x08

/-- BAD_ROUNDING. -/
abbrev Code.badRounding : Nat := 0x09

/-- BAD_PROGRAM. -/
abbrev Code.badProgram : Nat := 0x0A

/-- CLUSTER_ABSENT. -/
abbrev Code.clusterAbsent : Nat := 0x0B

/-- DOMAIN_OFF. -/
abbrev Code.domainOff : Nat := 0x0C

/-- NO_ENTROPY. -/
abbrev Code.noEntropy : Nat := 0x0D

/-- XLATE_FAULT. -/
abbrev Code.xlateFault : Nat := 0x10

/-- ARRAY_ERR. -/
abbrev Code.arrayErr : Nat := 0x11

/-- MESH_ERR. -/
abbrev Code.meshErr : Nat := 0x12

/-- HOST_ABORT. -/
abbrev Code.hostAbort : Nat := 0x13

/-- RECORD_POISON. -/
abbrev Code.recordPoison : Nat := 0x14

/-- STOW_DEPTH. -/
abbrev Code.stowDepth : Nat := 0x18

/-- STOW_EMPTY. -/
abbrev Code.stowEmpty : Nat := 0x19

/-- STOW_TAG. -/
abbrev Code.stowTag : Nat := 0x1A

/-- STOW_LOST. -/
abbrev Code.stowLost : Nat := 0x1B

/-- PEER_LOST. -/
abbrev Code.peerLost : Nat := 0x20

/-- REMOTE_FAULT. -/
abbrev Code.remoteFault : Nat := 0x21

/-- COLL_TIMEOUT. -/
abbrev Code.collTimeout : Nat := 0x22

/-- WORKER_LOST. -/
abbrev Code.workerLost : Nat := 0x23

/-! ### Error-log codes (13 R410, 15 R455), and their severity -/

/-- ENTROPY_HEALTH. -/
abbrev Log.entropyHealth : Nat := 0x1

/-- MEM_UE. -/
abbrev Log.memUe : Nat := 0x10

/-- RETRY_FAIL. -/
abbrev Log.retryFail : Nat := 0x11

/-- SCRUB_POISON. -/
abbrev Log.scrubPoison : Nat := 0x12

/-- STACK_FAIL. -/
abbrev Log.stackFail : Nat := 0x13

/-- MBX_REJECT_FULL. -/
abbrev Log.mbxRejectFull : Nat := 0x20

/-- MBX_OFF. -/
abbrev Log.mbxOff : Nat := 0x21

/-- SUPPLY_EVENT. -/
abbrev Log.supplyEvent : Nat := 0x30

/-- THROTTLE_HELD. -/
abbrev Log.throttleHeld : Nat := 0x40

/-- THROTTLE_CHATTER. -/
abbrev Log.throttleChatter : Nat := 0x41

/-- SECOND_WRITER. -/
abbrev Log.secondWriter : Nat := 0x50

/-- THERMAL. -/
abbrev Log.thermal : Nat := 0x60

/-- BOOT_HALT. -/
abbrev Log.bootHalt : Nat := 0x100

/-- SLOT_FALLBACK. -/
abbrev Log.slotFallback : Nat := 0x101

/-- PUF_FAIL. -/
abbrev Log.pufFail : Nat := 0x102

/-- REPAIR_APPLIED. -/
abbrev Log.repairApplied : Nat := 0x120

/-- REPAIR_REJECTED. -/
abbrev Log.repairRejected : Nat := 0x121

/-- CLUSTER_BIST_FAIL. -/
abbrev Log.clusterBistFail : Nat := 0x122

/-- FW_ACTIVATED. -/
abbrev Log.fwActivated : Nat := 0x130

/-- FW_REJECTED. -/
abbrev Log.fwRejected : Nat := 0x131

/-- ROLLBACK_RAISED. -/
abbrev Log.rollbackRaised : Nat := 0x140

/-- The severity of a record; a SUPPLY_EVENT of type dropout or overstress has 2 (13 R410, 15 R455). -/
def severityOf (code d0 : Nat) : Nat :=
  if code = Log.repairApplied ∨ code = Log.fwActivated ∨ code = Log.rollbackRaised then 0
  else if code = Log.supplyEvent then (if d0 = 2 ∨ d0 = 4 then 2 else 1)
  else if code = Log.entropyHealth ∨ code = Log.memUe ∨ code = Log.retryFail ∨ code = Log.stackFail ∨ code = Log.thermal
      ∨ code = Log.bootHalt ∨ code = Log.pufFail ∨ code = Log.clusterBistFail then 2
  else 1

/-! ### Master IDs (12 R376) -/

/-- The host, the harbourmaster, the security controller and the dictionary agent. -/
abbrev Master.host : Nat := 0x01
abbrev Master.harbour : Nat := 0x10
abbrev Master.security : Nat := 0x11
abbrev Master.dictionary : Nat := 0x12

end Sys2Proof.Machine
end

