-- ==== Sys2Proof/Machine/Gf.lean ====
section
/-!
DEFINITION. The check code of a memory line: Reed-Solomon over GF(2^8), its correction, and the poison mark
(08 R245 to R247).
-/

namespace Sys2Proof.Machine

/-- One product step: shift-and-add multiplication over p(x) = 0x11D (08 R245). -/
def gfMulStep : Nat → Nat → Nat → Nat → Nat
  | 0, _, _, acc => acc
  | n + 1, a, b, acc =>
    let acc' := if b % 2 = 1 then acc ^^^ a else acc
    let a2 := 2 * a
    gfMulStep n (if 256 ≤ a2 then a2 ^^^ 0x11D else a2) (b / 2) acc'

/-- Multiplication in GF(2^8) (08 R245). -/
def gfMul (a b : Nat) : Nat := if a = 0 then 0 else if b = 0 then 0 else gfMulStep 8 a b 0

/-- a^n. -/
def gfPow (a : Nat) : Nat → Nat
  | 0 => 1
  | n + 1 => gfMul a (gfPow a n)

/-- The inverse of a nonzero element, a^254. -/
def gfInv (a : Nat) : Nat :=
  let a2 := gfMul a a
  let a4 := gfMul a2 a2
  let a8 := gfMul a4 a4
  let a16 := gfMul a8 a8
  let a32 := gfMul a16 a16
  let a64 := gfMul a32 a32
  let a128 := gfMul a64 a64
  gfMul a128 (gfMul a64 (gfMul a32 (gfMul a16 (gfMul a8 (gfMul a4 a2)))))

/-- alpha^n for n below 255. -/
def gfExp : Nat → Nat
  | 0 => 1
  | n + 1 => let a2 := 2 * gfExp n; if 256 ≤ a2 then a2 ^^^ 0x11D else a2

/-- A polynomial, constant coefficient first, times (x + r). -/
def polyMulLin (r : Nat) (p : List Nat) : List Nat :=
  List.zipWith (· ^^^ ·) (0 :: p) ((p.map (gfMul r)) ++ [0])

/-- The generator g(x) = (x + alpha^0) ... (x + alpha^7), constant coefficient first (08 R245). -/
def rsGenerator : List Nat := (List.range 8).foldl (fun p i => polyMulLin (gfExp i) p) [1]

/-- The low eight coefficients of g: x^8 = their sum modulo g. The list is evaluated once. -/
def rsLow : List Nat := [24, 200, 173, 239, 54, 81, 11, 255]

/-- One step of the division by g: the remainder (x^0 first) takes in the next byte from the top. -/
def rsStep (rem : List Nat) (b : Nat) : List Nat :=
  let top := rem.getD 7 0 ^^^ b
  List.zipWith (· ^^^ ·) (0 :: rem.take 7) (rsLow.map (gfMul top))

/-- The check bytes of 72 payload and side bytes: the remainder of the sum of b_i x^(i+8) by g (08 R245). -/
def rsCheck (data : List Byte) : List Nat :=
  data.reverse.foldl (fun r b => rsStep r b.toNat) (List.replicate 8 0)

/-- XOR of two lists of bytes. -/
def xorList (a b : List Nat) : List Nat := List.zipWith (· ^^^ ·) a b

/-- The poison pattern: each check byte XOR 0xA5 (08 R247). -/
def poisonPattern : List Nat := List.replicate 8 0xA5

/-- The value at alpha^k of the polynomial whose coefficients, constant first, are given. -/
def polyEval (p : List Nat) (x : Nat) : Nat := p.foldr (fun c acc => gfMul acc x ^^^ c) 0

/-- The eight syndromes of the coefficients c_0 to c_79 (08 R245). -/
def syndromes (c : List Nat) : List Nat := (List.range 8).map fun k => polyEval c (gfExp k)

/-- Gaussian elimination over GF(2^8): rows of n coefficients and a right side; none when singular. -/
def gfSolve : Nat → List (List Nat) → Option (List Nat)
  | 0, _ => some []
  | n + 1, rows =>
    match rows.find? (fun r => r.headD 0 != 0) with
    | none => none
    | some piv =>
      let inv := gfInv (piv.headD 0)
      let piv' := piv.map (gfMul inv)
      let others := rows.filter (fun r => r != piv)
      let red := others.map fun r => (xorList r (piv'.map (gfMul (r.headD 0)))).drop 1
      match gfSolve n red with
      | none => none
      | some xs =>
        -- x_0 = rhs - sum of the pivot's other coefficients times the later unknowns
        let tail := piv'.drop 1
        let rhs := tail.getLastD 0
        let s := (List.zipWith gfMul tail xs).foldl (· ^^^ ·) rhs
        some (s :: xs)

/-- The error locator coefficients for v errors from the syndromes (the Peterson equations). -/
def locator (v : Nat) (s : List Nat) : Option (List Nat) :=
  gfSolve v ((List.range v).map fun i =>
    ((List.range v).map fun j => s.getD (i + j) 0) ++ [s.getD (i + v) 0])

/-- The positions i of c_0 to c_79 at which alpha^i is a root of x^v + L_{v-1} x^{v-1} + ... + L_0. -/
def locatorRoots (l : List Nat) : List Nat :=
  (List.range 80).filter fun i => polyEval (l ++ [1]) (gfExp i) = 0

/-- The error values at given positions, from the first v syndromes. -/
def errorValues (pos : List Nat) (s : List Nat) : Option (List Nat) :=
  gfSolve pos.length ((List.range pos.length).map fun k =>
    (pos.map fun i => gfPow (gfExp i) k) ++ [s.getD k 0])

/-- XORs values into the coefficients at positions. -/
def applyErrors (c : List Nat) : List (Nat × Nat) → List Nat
  | [] => c
  | (i, e) :: rest => applyErrors (c.set i (c.getD i 0 ^^^ e)) rest

/-- Tries to correct exactly v erroneous bytes: the unique codeword at distance v, if there is one (08 R246). -/
def tryCorrect (c : List Nat) (s : List Nat) (v : Nat) : Option (List Nat) :=
  match locator v s with
  | none => none
  | some l =>
    let pos := locatorRoots l
    if pos.length ≠ v then none
    else
      match errorValues pos s with
      | none => none
      | some es =>
        if es.any (· == 0) then none
        else
          let c' := applyErrors c (List.zip pos es)
          if (syndromes c').all (· == 0) then some c' else none

/-- Corrects one to four erroneous bytes (08 R246). The code's distance of 9 makes the answer unique. -/
def correct4 (c : List Nat) : Option (List Nat) :=
  let s := syndromes c
  [1, 2, 3, 4].findSome? (tryCorrect c s)

/-- The decode outcomes of a stored line (08 R246, R247, R248). The bytes are the 72 payload and side bytes. -/
inductive Decoded where
  | clean (data : List Byte)
  | corrected (data : List Byte)
  | poisoned
  | poisonedCorrected (data : List Byte)
  | uncorrectable
deriving DecidableEq, Repr

/-- The line's 80 bytes as the coefficients c_0 to c_79 (08 R245). -/
def coefficients (data chk : List Byte) : List Nat := (chk ++ data).map (·.toNat)

/-- The 72 payload and side bytes of a coefficient list. -/
def dataOf (c : List Nat) : List Byte := (c.drop 8).map (BitVec.ofNat 8)

/-- Decodes a stored line under the CORRECT setting (08 R246, R247). The poison pattern is compared before any
correction; removing it and correcting comes before ordinary correction. -/
def decodeLine (correct : Bool) (data chk : List Byte) : Decoded :=
  let want := rsCheck data
  let have_ := chk.map (·.toNat)
  if have_ = want then .clean data
  else if have_ = xorList want poisonPattern then .poisoned
  else if !correct then .uncorrectable
  else
    match correct4 (coefficients data ((xorList have_ poisonPattern).map (BitVec.ofNat 8))) with
    | some c => .poisonedCorrected (dataOf c)
    | none =>
      match correct4 (coefficients data chk) with
      | some c => .corrected (dataOf c)
      | none => .uncorrectable

/-- The check bytes of a line as stored: with the poison mark or without (08 R245, R247). -/
def checkBytes (data : List Byte) (poison : Bool) : List Byte :=
  let c := rsCheck data
  (if poison then xorList c poisonPattern else c).map (BitVec.ofNat 8)

end Sys2Proof.Machine
end

