-- ==== Sys2Proof/Machine/Mem.lean ====
section
/-!
DEFINITION. The named operations over memory: the cell list in its canonical form, lines and their check code (08 R245 to
R250), event counters (03 R98), the error log (13 R410, R411), reads and writes of lines with their containment.
-/

namespace Sys2Proof.Machine

/-! ### The cell list -/

namespace Memory

/-- What an unlisted cell reads as: byte k of a poisoned line of zeros (08 R228, R247, R435; log entry 7). -/
def default (a : Nat) : Byte := if a % 80 < 72 then 0 else 0xA5

/-- The canonical form: addresses strictly rising, and no entry equal to what an unlisted address reads as. -/
def wf (m : List Host.Cell) : Bool :=
  decide (m.Pairwise fun a b => a.1 < b.1) && m.all fun c => c.2 != default c.1

/-- The byte at a cell. -/
def get (m : List Host.Cell) (a : Nat) : Byte :=
  match m.find? fun c => c.1 == a with
  | some c => c.2
  | none => default a

/-- Bytes as entries from a cell on, without those that an unlisted address reads as. -/
def entries (a : Nat) : List Byte → List Host.Cell
  | [] => []
  | b :: bs => if b = default a then entries (a + 1) bs else (a, b) :: entries (a + 1) bs

/-- Stores bytes at consecutive cells. -/
def put (m : List Host.Cell) (a : Nat) (bs : List Byte) : List Host.Cell :=
  (m.filter fun c => c.1 < a) ++ entries a bs ++ m.filter fun c => a + bs.length ≤ c.1

/-- Returns the cells from lo up to hi to what unlisted cells read as. -/
def erase (m : List Host.Cell) (lo hi : Nat) : List Host.Cell :=
  m.filter fun c => c.1 < lo || hi ≤ c.1

/-- n bytes from a cell on. -/
def read (m : List Host.Cell) (a n : Nat) : List Byte :=
  let seg := m.filter fun c => a ≤ c.1 && c.1 < a + n
  (List.range n).map fun k => get seg (a + k)

end Memory

/-! ### Lines, clusters and domains -/

/-- The number of the first berth line: the sixteen stacks' lines come before (08 R222). -/
abbrev berthBase : Nat := 2 ^ 34

/-- The power domain of a logical cluster, as PWR_DOM_CTL_x numbers it (01 R15, 14 R431). -/
def clusterDom (n : Nat) : Nat :=
  if n < 256 then 4 * (n / 64)
  else if n < 768 then 4 * ((n - 256) / 128) + 1
  else 4 * ((n - 768) / 8) + 2

/-- The cluster of a berth line. -/
def lineCluster (l : Nat) : Nat := (l - berthBase) / 2 ^ 15

/-- The power domain of a line. -/
def lineDom (l : Nat) : Nat := if l < berthBase then 16 + l / 2 ^ 30 else clusterDom (lineCluster l)

/-- Detail 0 of a memory record in the error log: the stack, or 0x100 plus the cluster (13 R410). -/
def lineUnit (l : Nat) : Nat := if l < berthBase then l / 2 ^ 30 else 0x100 + lineCluster l

/-- Detail 1: the line's number in its stack or berth memory (08 R248, 13 R410). -/
def lineNumber (l : Nat) : Nat := if l < berthBase then l % 2 ^ 30 else (l - berthBase) % 2 ^ 15

/-- The logical clusters of a power domain. -/
def domClusters (x : Nat) : List Nat :=
  if x % 4 = 0 then (List.range 64).map (64 * (x / 4) + ·)
  else if x % 4 = 1 then (List.range 128).map (256 + 128 * (x / 4) + ·)
  else if x % 4 = 2 then (List.range 8).map (768 + 8 * (x / 4) + ·)
  else []

/-! ### Counters and the error log -/

/-- Adds to an event counter, wrapping at 2^48 (03 R98). -/
def Data.bump (d : Data) (off n : Nat) : Data :=
  if n = 0 then d else { d with evts := tupd 0 d.evts off (· + BitVec.ofNat 48 n) }

/-- What the module's data plane sees of the rest of the module while a command runs. -/
structure Env where
  tide : Reg
  /-- the state of each power domain, as the command's operation meets it -/
  dom : Nat → DomState
  /-- a logical cluster that is absent (01 R17) -/
  absent : Nat → Bool
  /-- the table root of an open sequence context (08 R231, 09 R256) -/
  root : Nat → Option (BitVec 60)
  /-- NOTIFY_DEST, the management port's address, the non-volatile write inhibit -/
  dest : BitVec 48
  mac : BitVec 48
  inhibit : Bool

/-- The data bytes of a record, in subindex order (13 R411). -/
def LogRec.bytes (r : LogRec) : List Byte :=
  natLE 8 r.tide.toNat ++ natLE 2 r.code.toNat ++ [r.severity, r.source] ++ natLE 8 r.d0.toNat ++ natLE 8 r.d1.toNat

/-- The NOTIFY frame of a record in a slot, with the count it brought LOG_COUNT to (13 R411). -/
def notifyFrame (dest mac : BitVec 48) (slot : Nat) (count : Word) (r : LogRec) : MgmtFrame :=
  { dst := dest, src := mac, etherType := 0x88B5, tagged := false, version := 1, service := 7,
    tid := BitVec.ofNat 16 count.toNat, index := BitVec.ofNat 16 (0x6100 + slot), sub := 0, status := 0, offset := 0,
    flags := 0, total := 0, reservedSet := false, length := 28, data := r.bytes }

/-- Whether the record that slot n holds has been written and not acknowledged: a new one replaces it unread
(13 R410). -/
def Data.unread (d : Data) : Bool :=
  256 ≤ d.logCount.toNat && d.ackedTo.toNat ≤ d.logCount.toNat - 256

/-- Writes a record to the ring (13 R410), and sends NOTIFY when NOTIFY_DEST is nonzero (R411). -/
def Data.writeLog (d : Data) (dest mac : BitVec 48) (r : LogRec) : Data :=
  let slot := d.logCount.toNat % 256
  let n := d.logCount + 1
  { d with
    log := tput d.log slot r
    logCount := n
    logLost := if d.unread then d.logLost + 1 else d.logLost
    mgmtOut := if dest = 0 then d.mgmtOut else notifyFrame dest mac slot n r :: d.mgmtOut }

/-- Logs an event: while the inhibit holds, the record waits for flash (13 R401, 14 R414; log entry 23). -/
def Data.logEvent (d : Data) (e : Env) (code src d0 d1 : Nat) : Data :=
  let r : LogRec := ⟨e.tide, BitVec.ofNat 16 code, BitVec.ofNat 8 (severityOf code d0), BitVec.ofNat 8 src,
    BitVec.ofNat 64 d0, BitVec.ofNat 64 d1⟩
  if e.inhibit then { d with logHeld := d.logHeld ++ [r] } else d.writeLog e.dest e.mac r

/-! ### Stored lines -/

/-- The 80 stored bytes of a line (02 R39). -/
def Data.stored (d : Data) (l : Nat) : List Byte := Memory.read d.cells (80 * l) 80

/-- Stores 80 bytes as a line. -/
def Data.store (d : Data) (l : Nat) (bs : List Byte) : Data := { d with cells := Memory.put d.cells (80 * l) bs }

/-- Stores payload and side bytes with their check bytes, poisoned or not (08 R245, R247). -/
def Data.storeLine (d : Data) (l : Nat) (payload side : List Byte) (poison : Bool) : Data :=
  d.store l (payload ++ side ++ checkBytes (payload ++ side) poison)

/-- Whether a line lies in a stack in the failed state (08 R227). -/
def Data.isFailed (d : Data) (l : Nat) : Bool := decide (l < berthBase) && d.failed.contains (l / 2 ^ 30)

/-- A line of 72 bytes as a reader receives it. -/
def LineIn.of (bs : List Byte) (poison : Bool) : LineIn := ⟨bs.take 64, (bs.drop 64).take 8, poison⟩

/-- One corrected line of a stack more (13 0x5002). -/
def Data.countStackCe (d : Data) (l : Nat) : Data :=
  if l < berthBase then { d with stackCe := tupd 0 d.stackCe (l / 2 ^ 30) (· + 1) } else d

/-- What a decoded line of the memory gives, and how the event is contained (08 R246 to R248). -/
def Data.contain (d : Data) (e : Env) (l : Nat) (raw : List Byte) : Decoded → LineIn × Data
  | .clean bs => (LineIn.of bs false, d)
  | .corrected bs =>
    (LineIn.of bs false, (((d.storeLine l (bs.take 64) (bs.drop 64) false).bump Evt.memCe 1).countStackCe l))
  | .poisoned => (LineIn.of raw true, d.bump Evt.poisonRead 1)
  | .poisonedCorrected bs =>
    (LineIn.of bs true,
      ((((d.storeLine l (bs.take 64) (bs.drop 64) true).bump Evt.poisonRead 1).bump Evt.memCe 1).countStackCe l))
  | .uncorrectable =>
    (LineIn.of raw true, ((d.bump Evt.memUe 1).logEvent e Log.memUe 0 (lineUnit l) (lineNumber l)))

/-- Reads a line (08 R246 to R248). A failed stack reads every line as poisoned (R227). -/
def Data.readLine (d : Data) (e : Env) (l : Nat) : LineIn × Data :=
  if d.isFailed l then (LineIn.bad, d.bump Evt.poisonRead 1)
  else
    let bs := d.stored l
    d.contain e l (bs.take 72) (decodeLine d.correct (bs.take 72) (bs.drop 72))

/-- The failed transfers that a read of a line meets at a stack's interface, and what is left of them (08 R248, log entry 69). -/
def Data.nextTransfer (d : Data) (l : Nat) : Nat × Data :=
  if l < berthBase then (d.transfers.headD 0, { d with transfers := d.transfers.drop 1 }) else (0, d)

/-- A read of a line over its interface, with the transfer errors that it meets (08 R248): each failed transfer is repeated, up to eight
times, and counts LINK_RETRY; when the eighth repeat fails too, the line reads as uncorrectable. -/
def Data.readOver (d : Data) (e : Env) (l : Nat) : LineIn × Data :=
  let (n, d) := d.nextTransfer l
  let d := d.bump Evt.linkRetry (min n 8)
  if 8 < n then (LineIn.bad, (d.bump Evt.memUe 1).logEvent e Log.retryFail 0 (lineUnit l) (lineNumber l)) else d.readLine e l

/-- The outcome that a line would decode to, without any event: for writes of a whole payload that keep side bytes. -/
def Data.peekLine (d : Data) (l : Nat) : LineIn :=
  if d.isFailed l then LineIn.bad
  else
    let bs := d.stored l
    match decodeLine d.correct (bs.take 72) (bs.drop 72) with
    | .clean x => LineIn.of x false
    | .corrected x => LineIn.of x false
    | .poisoned => LineIn.of (bs.take 72) true
    | .poisonedCorrected x => LineIn.of x true
    | .uncorrectable => LineIn.of (bs.take 72) true

/-- n open bytes at the free index (log entry 9). -/
def openBytes (i n : Nat) : List Byte := (List.range n).map fun k => Config.openByte i k

/-- Makes one write as it stands (08 R249, R251, R483; 04 R107). A failed stack discards it (R227). -/
def Data.writeLine (d : Data) (e : Env) (w : Wr) : Data :=
  match w with
  | .whole l out poison => if d.isFailed l then d else d.storeLine l out.payload out.side poison
  | .part l off bytes =>
    if d.isFailed l then d
    else if off = 0 ∧ 64 ≤ bytes.length then
      let old := d.peekLine l
      d.storeLine l (bytes.take 64) (if old.poison then List.replicate 8 0 else old.side) false
    else
      let (old, d) := d.readLine e l
      d.storeLine l (splice old.payload off bytes) old.side old.poison
  | .count l off n =>
    if d.isFailed l then d
    else
      let (old, d) := d.readLine e l
      let v := (field old.payload off 6 + n) % 2 ^ 48
      d.storeLine l (splice old.payload off (natLE 8 v)) old.side old.poison
  | .scratch l =>
    if d.isFailed l then d
    else { d.storeLine l (openBytes d.free 64) (List.replicate 8 0) false with free := d.free + 1 }

/-- The line that a write goes to. -/
def Wr.line : Wr → Nat
  | .whole l _ _ => l
  | .part l _ _ => l
  | .count l _ _ => l
  | .scratch l => l

/-- A berth line of the log region in force of its cluster (04 R141). -/
def Data.inLog (d : Data) (l : Nat) : Bool :=
  let c := tget .reset d.raCfg (lineCluster l)
  decide (berthBase ≤ l) && decide (c.effOffset.toNat ≤ lineNumber l)
    && decide (lineNumber l < c.effOffset.toNat + c.effLines.toNat)

/-- Makes one write. In a log region nothing that is written has defined contents: the line holds open bytes (04 R141). -/
def Data.write (d : Data) (e : Env) (w : Wr) : Data :=
  if d.inLog w.line then d.writeLine e (.scratch w.line) else d.writeLine e w

end Sys2Proof.Machine
end

