-- ==== Sys2Proof/Machine/Xlate.lean ====
section
/-!
DEFINITION. The accesses of operations to memory: module-private addresses (08 R222, R224), the table walk (R231 to R233,
R238), reads and writes of virtual lines, and the events that an access may meet.
-/

namespace Sys2Proof.Machine

/-- What an operation has before it while it works: the data plane, and whether some access of it must wait (for the wake
of a domain in slack, 08 R224, or for a speculative mark to clear, 04 R136). A command whose access waits changes
nothing and may be sent again. -/
structure Io where
  d : Data
  wait : Bool

/-- A part of an operation's work: it may stop at a demand translation fault, with its kind and address (08 R235). -/
abbrev M (α : Type) : Type := ExceptT (XfKind × Nat) (StateM Io) α

/-- Who accesses: the verdict slot under which the operation runs ahead, and its pin (08 R241). -/
structure Acc where
  slot : Option Nat
  pin : Nat

/-- Changes the data plane. -/
def M.upd (f : Data → Data) : M Unit := fun io => (.ok (), { io with d := f io.d })

/-- Asks the data plane. -/
def M.ask {α : Type} (f : Data → α) : M α := fun io => (.ok (f io.d), io)

/-- The command must wait. -/
def M.block : M Unit := fun io => (.ok (), { io with wait := true })

/-- A translation fault. -/
def M.fault {α : Type} (k : XfKind) (va : Nat) : M α := fun io => (.error (k, va), io)

/-- The outcome of some work, as a value. -/
def M.attempt {α : Type} (m : M α) : M (Except (XfKind × Nat) α) := fun io =>
  let r := m io
  (.ok r.1, r.2)

/-! ### Module-private addresses -/

/-- The byte number of the Ivorn stacks and berth memories that a module-private address names, before its domain is
looked at (08 R222, R224): line numbers are byte numbers over 64. -/
def privByte (absent : Nat → Bool) (a : Nat) : Except XfKind Nat :=
  match bits a 57 48 with
  | 0 => if bits a 47 40 = 0 then .ok (bits a 39 0) else .error .range
  | 1 =>
    let n := bits a 30 21
    if bits a 47 31 = 0 ∧ n < 800 ∧ absent n = false then .ok (2 ^ 40 + bits a 30 0) else .error .range
  | _ => .error .range

/-- A physical line is about to be accessed: its domain off gives OFF, in slack it waits (08 R224; 14 R432, R433). -/
def domainGate (e : Env) (va l : Nat) : M Unit :=
  match e.dom (lineDom l) with
  | .on => pure ()
  | .slack => M.block
  | .up => M.block
  | .off => M.fault .off va
  | .down => M.fault .off va

/-! ### The walk -/

/-- The index of a walk at a level (08 R231); in sequence space level 2 has the index bits [39:30]. -/
def levelIndex (seq : Bool) (lvl va : Nat) : Nat :=
  match lvl with
  | 3 => bits va 57 44
  | 2 => if seq then bits va 39 30 else bits va 43 30
  | 1 => bits va 29 21
  | _ => bits va 20 16

/-- The bits of a page, or of the table below a level. -/
def pageBits (lvl : Nat) : Nat := if lvl = 2 then 30 else if lvl = 1 then 21 else 16

/-- The bits of the size of a table at a level (08 R231). -/
def tableBits (lvl : Nat) : Nat := if lvl = 3 ∨ lvl = 2 then 17 else if lvl = 1 then 12 else 8

/-- A generation ahead of a pin (08 R238). -/
def aheadOf (g p : Nat) : Bool :=
  let diff := (g + 2 ^ 16 - p % 2 ^ 16) % 2 ^ 16
  diff ≠ 0 && diff < 0x8000

/-- The conditions of MALFORMED on a valid entry at a level (08 R233). -/
def pteMalformed (lvl pte : Nat) : Bool :=
  let leaf := bit pte 1
  let target := bits pte 5 4
  let addr := bits pte 47 8 * 2 ^ 8
  let low := if leaf then pageBits lvl else tableBits (lvl - 1)
  bits pte 7 6 ≠ 0
    || (lvl = 3 && leaf) || (lvl = 0 && !leaf)
    || decide (2 ≤ target) || (target = 1 && !leaf)
    || addr % 2 ^ low ≠ 0
    || (target = 0 && bits addr 47 40 ≠ 0)
    || (target = 1 && (bits addr 47 31 ≠ 0 || decide (800 ≤ bits addr 30 21)))

/-- The remaining tests on a leaf, in the order of 08 R233, and the byte number that it yields. -/
def leafByte (e : Env) (a : Acc) (write : Bool) (lvl pte va : Nat) : M Nat :=
  let addr := bits pte 47 8 * 2 ^ 8 + va % 2 ^ pageBits lvl
  let berth := bits pte 5 4 = 1
  let n := bits addr 30 21
  if berth ∧ (800 ≤ n ∨ e.absent n) then M.fault .range va
  else if bit pte 3 && aheadOf (bits pte 63 48) a.pin then M.fault .ahead va
  else if write && !bit pte 2 then M.fault .writeProt va
  else do
    let x := if berth then 2 ^ 40 + addr else addr
    domainGate e va (x / 64)
    pure x

/-- The walk below a table whose byte number is given, from a level down (08 R233). -/
def walk (e : Env) (a : Acc) (write seq : Bool) (va : Nat) : Nat → Nat → M Nat
  | lvl, table => do
    let x := table + 8 * levelIndex seq lvl va
    domainGate e va (x / 64)
    let line ← fun io => let r := io.d.readOver e (x / 64); (.ok r.1, { io with d := r.2 })
    let pte := field line.payload (x % 64) 8
    if line.poison then M.fault .pteErr va
    else if !bit pte 0 then M.fault .notPresent va
    else if pteMalformed lvl pte then M.fault .malformed va
    else if bit pte 1 then leafByte e a write lvl pte va
    else match lvl with
      | 0 => M.fault .malformed va
      | l + 1 => walk e a write seq va l (bits pte 47 8 * 2 ^ 8)

/-- GEN_ROOT as a table's byte number, when it is one (08 GEN_ROOT). -/
def genRoot (root : Nat) : Option Nat :=
  if bits root 59 48 = 0xC00 ∧ bits root 47 40 = 0 ∧ root % 2 ^ 17 = 0 then some (bits root 39 0) else none

/-- Translates a virtual address into a byte number (08 R221, R222, R231, R233). A closed context maps nothing
(09 R258). -/
def translate (e : Env) (a : Acc) (write : Bool) (va : Nat) : M Nat :=
  match bits va 59 58 with
  | 0 => do
    match genRoot (← M.ask fun d => d.root.toNat) with
    | none => M.fault .malformed va
    | some t => walk e a write false va 3 t
  | 1 => M.fault .range va
  | 2 =>
    match e.root (bits va 57 40) with
    | none => M.fault .notPresent va
    | some r => walk e a write true va 2 (bits r.toNat 39 0)
  | _ =>
    match privByte e.absent va with
    | .error k => M.fault k va
    | .ok x => do
      domainGate e va (x / 64)
      pure x

/-! ### Reads and writes -/

/-- A marked line makes an access wait unless it comes from under the mark's own slot (04 R136). -/
def markGate (slot : Option Nat) (l : Nat) : M Unit := do
  let v ← M.ask fun d => (d.marks.find? fun m => m.1 == l).map (·.2)
  match v with
  | none => pure ()
  | some v => if slot = some v then pure () else M.block

/-- Reads a physical line for an operation. -/
def readPhys (e : Env) (a : Acc) (l : Nat) : M LineIn := do
  markGate a.slot l
  fun io => let r := io.d.readOver e l; (.ok r.1, { io with d := r.2 })

/-- Reads the line at a virtual address. -/
def readVirt (e : Env) (a : Acc) (va : Nat) : M LineIn := do
  let x ← translate e a false va
  readPhys e a (x / 64)

/-- Reads n consecutive lines from a virtual address on. -/
def readLines (e : Env) (a : Acc) (va : Nat) : Nat → M (List LineIn)
  | 0 => pure []
  | n + 1 => do
    let l ← readVirt e a va
    let ls ← readLines e a (va + 64) n
    pure (l :: ls)

/-- The physical lines of n consecutive lines that will be written. -/
def writeTargets (e : Env) (a : Acc) (va : Nat) : Nat → M (List Nat)
  | 0 => pure []
  | n + 1 => do
    let x ← translate e a true va
    let xs ← writeTargets e a (va + 64) n
    pure (x / 64 :: xs)

/-- Makes a write as ordinary work: a marked line makes it wait (04 R136). -/
def writeNow (e : Env) (w : Wr) : M Unit := do
  markGate none w.line
  M.upd fun d => d.write e w

/-- Makes writes in order. -/
def writeAll (e : Env) : List Wr → M Unit
  | [] => pure ()
  | w :: ws => do
    writeNow e w
    writeAll e ws

/-- Cuts bytes at a byte number into the partial writes of the lines that they cover. -/
def bytesAt : Nat → Nat → List Byte → List Wr
  | 0, _, _ => []
  | fuel + 1, x, bs =>
    if bs = [] then []
    else
      let room := 64 - x % 64
      .part (x / 64) (x % 64) (bs.take room) :: bytesAt fuel (x + room) (bs.drop room)

/-- The writes of bytes at a virtual address that does not cross a translated page: callers cut longer areas into
lines. -/
def writeBytes (e : Env) (a : Acc) (va : Nat) : Nat → List Byte → M (List Wr)
  | 0, _ => pure []
  | fuel + 1, bs =>
    if bs = [] then pure []
    else do
      let x ← translate e a true va
      let room := 64 - va % 64
      let ws ← writeBytes e a (va + room) fuel (bs.drop room)
      pure (.part (x / 64) (x % 64) (bs.take room) :: ws)

/-- n bytes at a virtual address, over as many lines as they cover, with the poison of any of those lines. -/
def readBytes (e : Env) (a : Acc) (va n : Nat) : M (List Byte × Bool) := do
  let first := va / 64 * 64
  let ls ← readLines e a first (ceilDiv (va % 64 + n) 64)
  pure (slice (ls.flatMap (·.payload)) (va % 64) n, ls.any (·.poison))

/-! ### Translation faults as the module reports them -/

/-- The code of XF_INFO.KIND (08). -/
def XfKind.code : XfKind → Nat
  | .notPresent => 1
  | .ahead => 2
  | .writeProt => 3
  | .malformed => 4
  | .range => 5
  | .pteErr => 6
  | .off => 7

/-- A demand translation fault is counted, and captured when XF_INFO.VALID is clear (08 R235). -/
def Data.xlateFault (d : Data) (q : Nat) (f : XfKind × Nat) : Data :=
  let d := d.bump Evt.xlateFaults 1
  if d.xfValid then d
  else { d with
    xfValid := true, xfKind := BitVec.ofNat 3 f.1.code, xfAddr := BitVec.ofNat 60 f.2, xfQueue := BitVec.ofNat 6 q }

end Sys2Proof.Machine
end

