-- ==== Sys2Proof/Machine/Ops.lean ====
section
/-!
DEFINITION. The named operations over the module's registers that every family uses: what the data plane sees, event
counters, requests to host memory (16 R462), interrupts (11 R367), completion counters (R362, R363), fault reports (R365,
R366) and the operations in flight.
-/

namespace Sys2Proof.Machine

/-! ### The module around the data plane -/

/-- A power domain's record. -/
def State.domain (s : State) (x : Nat) : Domain := tget .reset s.pwr.doms x

/-- A logical cluster with no healthy physical cluster behind it, or no cluster at all (01 R15, R17). -/
def State.absent (s : State) (n : Nat) : Bool := decide (800 ≤ n) || s.boot.absent.contains n

/-- The domains that an operation which dispatches now may go on using while they shut down (14 R433). -/
def State.usable (s : State) : Nat :=
  (List.range 32).foldl (fun m x =>
    match (s.domain x).st with
    | .on => m + 2 ^ x
    | .slack => m + 2 ^ x
    | .up => m + 2 ^ x
    | .off => m
    | .down => m) 0

/-- What the data plane sees; `mask` names the domains whose shutdown began after the access's operation dispatched
(14 R433). -/
def State.env (s : State) (mask : Nat) : Env :=
  { tide := s.tide
    dom := fun x => match (s.domain x).st with
      | .down => if bit mask x then .on else .down
      | st => st
    absent := s.absent
    root := fun id => match s.seq.ctxs.find? fun c => c.1 == id with
      | some c => some c.2.root
      | none => none
    dest := s.dic.cfg.notifyDest
    mac := s.boot.mgmtMac
    inhibit := s.pwr.nvInhibit }

/-- Adds to an event counter. -/
def State.bump (s : State) (off n : Nat) : State := { s with dp := s.dp.bump off n }

/-- Logs an event of the error log. -/
def State.logEvent (s : State) (code src d0 d1 : Nat) : State := { s with dp := s.dp.logEvent (s.env 0) code src d0 d1 }

/-! ### Requests to host memory and interrupts -/

/-- The function may issue requests: D0, Bus Master Enable set (16 R462), not held in reset. -/
def State.mayIssue (s : State) : Bool := !s.pci.d3hot && s.pci.busMaster && !s.pci.down

/-- A posted write of the module. -/
def State.post (s : State) (addr : Nat) (bytes : List Byte) : State := { s with out := .write addr bytes :: s.out }

/-- Sends an MSI-X message, or sets the pending bit of a masked vector (11 R367). -/
def State.sendMsix (s : State) (v : Nat) : State :=
  let m := tget .reset s.pci.msix v
  if m.masked then { s with pci := { s.pci with msix := tput s.pci.msix v { m with pending := true } } }
  else { s with out := .msix v m.addr m.data :: s.out }

/-- Sends an MSI-X message, now or when the function may (16 R462). -/
def State.msix (s : State) (v : Nat) : State :=
  if s.mayIssue then s.sendMsix v else { s with hst := { s.hst with deferred := s.hst.deferred ++ [.msix v] } }

/-- INT_CAUSE.FAULT_RECORD becomes set; a bit that becomes set sends on FAULT_LOG_CFG.VECTOR (11 R367). -/
def State.causeRecord (s : State) : State :=
  if s.hst.causeRecord then s else ({ s with hst := { s.hst with causeRecord := true } }).msix s.hst.logVector.toNat

/-- INT_CAUSE.QUEUE_STOPPED becomes set. -/
def State.causeStopped (s : State) : State :=
  if s.hst.causeStopped then s else ({ s with hst := { s.hst with causeStopped := true } }).msix s.hst.logVector.toNat

/-- INT_CAUSE.LOG_LOST becomes set. -/
def State.causeLost (s : State) : State :=
  if s.hst.causeLost then s else ({ s with hst := { s.hst with causeLost := true } }).msix s.hst.logVector.toNat

/-- Writes a fault record to the log ring (11 R366). -/
def State.logFault (s : State) (bytes : List Byte) : State :=
  let size := 2 ^ s.hst.logSizeLog2.toNat
  if (s.hst.prod - s.hst.cons).toNat = size then (s.bump Evt.faultLogLost 1).causeLost
  else
    let addr := s.hst.logBase.toNat * 4096 + 32 * (s.hst.prod.toNat % size)
    let s := s.post addr bytes
    ({ s with hst := { s.hst with prod := s.hst.prod + 1 } }).causeRecord

/-- A fault record, when the log is enabled: now or when the function may issue it (11 R365, 16 R462). -/
def State.faultRecord (s : State) (bytes : List Byte) : State :=
  if !s.hst.logEnable then s
  else if s.mayIssue then s.logFault bytes
  else { s with hst := { s.hst with deferred := s.hst.deferred ++ [.faultRecord bytes] } }

/-- The 32 bytes of a fault record (11 R365). -/
def faultBytes (tide : Reg) (q inst code : Nat) (index : Word) (opcode sig va : Nat) : List Byte :=
  natLE 8 tide.toNat ++ [BitVec.ofNat 8 (q % 64), BitVec.ofNat 8 inst] ++ natLE 2 code ++ natLE 4 index.toNat
    ++ natLE 2 opcode ++ natLE 2 sig ++ natLE 4 0 ++ natLE 8 (if code = Code.xlateFault then va else 0)

/-! ### Completion counters -/

/-- A counter. -/
def State.counter (s : State) (n : Nat) : Cnt := tget .reset s.cnt n

/-- A counter signal, with a fault code or 0 (11 R362). -/
def Cnt.signal (c : Cnt) (inc code : Nat) : Cnt :=
  { value := c.value + BitVec.ofNat 32 inc
    code := if code ≠ 0 && !c.faulted then BitVec.ofNat 16 code else c.code
    faulted := c.faulted || code ≠ 0 }

/-- Signals counter n. -/
def State.signal (s : State) (n inc code : Nat) : State := { s with cnt := tupd .reset s.cnt n (·.signal inc code) }

/-- wait_met of 11 R363. -/
def waitMet (value want : Word) : Bool := decide ((value - want).toNat < 0x80000000)

/-! ### Descriptors -/

/-- Header fields (11 R358). -/
def opcodeOf (d : List Byte) : Nat := field d 0 2
/-- The class byte. -/
def classOf (d : List Byte) : Nat := field d 1 1
/-- The operation byte. -/
def operOf (d : List Byte) : Nat := field d 0 1
/-- The flags byte. -/
def flagsOf (d : List Byte) : Nat := field d 2 1
/-- The target byte. -/
def targetOf (d : List Byte) : Nat := field d 3 1
/-- The wait counter index. -/
def waitIndex (d : List Byte) : Nat := field d 4 2
/-- The wait value. -/
def waitValue (d : List Byte) : Word := BitVec.ofNat 32 (field d 8 4)
/-- The signal counter index. -/
def signalIndex (d : List Byte) : Nat := field d 12 2
/-- The signal increment. -/
def signalIncr (d : List Byte) : Nat := field d 14 2

/-- A reserved bit of the header is set (11 R358, R359). -/
def headerReserved (d : List Byte) : Bool := bits (flagsOf d) 7 4 != 0 || bit (targetOf d) 7 || field d 6 2 != 0

/-- Bits [59:0] of an address field. -/
def addrField (d : List Byte) (off : Nat) : Nat := bits (field d off 8) 59 0

/-- Bits [63:60] of an address field. -/
def addrTop (d : List Byte) (off : Nat) : Nat := bits (field d off 8) 63 60

/-! ### Queues and operations in flight -/

/-- A submission queue. -/
def State.queue (s : State) (q : Nat) : Queue := tget .reset s.que q

/-- Changes a queue. -/
def State.updQueue (s : State) (q : Nat) (f : Queue → Queue) : State := { s with que := tupd .reset s.que q f }

/-- An operation in flight. -/
def State.findOp (s : State) (id : Nat) : Option Op := s.ops.find? fun o => o.id == id

/-- An instance of an operation. -/
def Op.findInst (o : Op) (n : Nat) : Option Inst := o.insts.find? fun i => i.n == n

/-- Changes an operation. -/
def State.updOp (s : State) (id : Nat) (f : Op → Op) : State :=
  { s with ops := s.ops.map fun o => if o.id = id then f o else o }

/-- Changes an instance. -/
def Op.updInst (o : Op) (n : Nat) (f : Inst → Inst) : Op :=
  { o with insts := o.insts.map fun i => if i.n = n then f i else i }

/-- The operation with its instance, when it is dispatched, of the given opcode, and its work not yet done. -/
def State.work (s : State) (id n opcode : Nat) : Option (Op × Inst) :=
  match s.findOp id with
  | none => none
  | some o =>
    if opcodeOf o.desc ≠ opcode then none
    else match o.findInst n with
      | none => none
      | some i => if i.phase = .running then some (o, i) else none

/-- A number fixed at dispatch. -/
def Op.num (o : Op) (label : Nat) : Nat := tget 0 o.nums label

/-- A record read at dispatch. -/
def Op.record (o : Op) (label : Nat) : List Byte := tget [] o.recs label

/-- Label of the number in which an operation keeps the domains that it may go on using (`State.usable`). -/
abbrev Lab.usable : Nat := 0

/-- What the data plane sees for an operation. -/
def State.envOf (s : State) (o : Op) : Env := s.env (o.num Lab.usable)

/-- The instance's work is done, with a fault code or 0. -/
def State.finish (s : State) (id n fault va : Nat) : State :=
  s.updOp id fun o => o.updInst n fun i => { i with phase := .done, fault := fault, va := va, at_ := s.tide }

/-- A queue whose ENABLE is clear is disabled once nothing of it runs (11 R357). -/
def State.settle (s : State) (q : Nat) : State :=
  let k := s.queue q
  if !k.enable && k.state ≠ 0 && !(s.ops.any fun o => o.q = q && !o.orphan) then
    s.updQueue q fun k => { k with state := 0 }
  else s

/-! ### Fault reports and completion -/

/-- The event counter of a class whose operations' faults it counts, at or after dispatch (03 to 10). -/
def classFault (d : List Byte) : Option Nat :=
  match classOf d with
  | 1 => some (Evt.fab (bit (targetOf d) 0) Evt.sweepFault)
  | 2 => some Evt.convertFault
  | 3 => some Evt.stowFault
  | 4 => some Evt.programFault
  | 5 => some Evt.seqFault
  | 6 => some Evt.hawserFault
  | 7 => some Evt.randomFault
  | 9 => if operOf d = 2 then some Evt.exportFault else some Evt.landFault
  | _ => none

/-- Counts a class's fault. -/
def State.countFault (s : State) (d : List Byte) : State :=
  match classFault d with
  | some off => s.bump off 1
  | none => s

/-- A discard of 11 R350. -/
def State.discard (s : State) : State := s.bump Evt.hostResetDiscard 1

/-- STOP_ON_FAULT (11 R365): the queue enters STATE 2, from STATE 3 too. -/
def State.stopOnFault (s : State) (q : Nat) : State :=
  let k := s.queue q
  if k.stopOnFault && k.state ≠ 0 then (s.updQueue q fun k => { k with state := 2 }).causeStopped else s

/-- The interrupt of an operation with flag bit 3 (11 R367). -/
def State.opInterrupt (s : State) (q : Nat) (d : List Byte) : State :=
  if bit (flagsOf d) 3 then s.msix (s.queue q).vector.toNat else s

/-- Reports a fault that was met at a tide: record, counter signal, OPS_FAULTED, STOP_ON_FAULT, interrupt (11 R365, R367). A
signal index of 0xFFFF signals nothing (R359). -/
def State.reportFaultAt (s : State) (at_ : Reg) (q : Nat) (index : Word) (d : List Byte) (inst sig code va : Nat) : State :=
  let s := s.faultRecord (faultBytes at_ q inst code index (opcodeOf d) sig va)
  let s := if sig = 0xFFFF then s else s.signal sig (signalIncr d) code
  let s := s.bump Evt.opsFaulted 1
  (s.stopOnFault q).opInterrupt q d

/-- Reports a fault that is met now. -/
def State.reportFault (s : State) (q : Nat) (index : Word) (d : List Byte) (inst sig code va : Nat) : State :=
  s.reportFaultAt s.tide q index d inst sig code va

/-- The counter that an instance signals (03 R81). -/
def sigOf (o : Op) (n : Nat) : Nat := signalIndex o.desc + n

/-- Removes a finished instance, and its operation with the last one. -/
def State.retire (s : State) (id n : Nat) : State :=
  { s with ops := s.ops.filterMap fun o =>
      if o.id = id then
        let is := o.insts.filter fun i => i.n ≠ n
        if is.isEmpty then none else some { o with insts := is }
      else some o }

/-- Signals a finished instance (11 R362, R365), or discards its report after a host reset (R350), and removes it. -/
def State.complete (s : State) (o : Op) (i : Inst) : State :=
  let s :=
    if o.orphan then
      if i.fault ≠ 0 then s.discard
      else if bit (flagsOf o.desc) 3 then s.discard.discard else s.discard
    else if i.fault ≠ 0 then s.reportFaultAt i.at_ o.q o.index o.desc i.n (sigOf o i.n) i.fault i.va
    else (s.signal (sigOf o i.n) (signalIncr o.desc) 0).opInterrupt o.q o.desc
  (s.retire o.id i.n).settle o.q

/-! ### Work on the data plane -/

/-- Runs an operation's work on the data plane: none when it must wait. -/
def State.run {α : Type} (s : State) (m : M α) : Option (Except (XfKind × Nat) α × Data) :=
  let r := m ⟨s.dp, false⟩
  if r.2.wait then none else some (r.1, r.2.d)

/-- An operation that completes in one piece and never runs ahead: its work; a translation fault is captured, counted
(08 R235) and completes the operation with XLATE_FAULT after `onFault` (the family's own containment). -/
def State.perform {α : Type} (s : State) (o : Op) (m : M α) (onFault : Data → Data) (onOk : State → α → State) : State :=
  match s.run m with
  | none => s
  | some (.ok x, d) => onOk { s with dp := d } x
  | some (.error f, d) =>
    (({ s with dp := onFault (d.xlateFault o.q f) }).countFault o.desc).finish o.id 0 Code.xlateFault f.2

end Sys2Proof.Machine
end

