-- ==== Sys2Proof/Machine/Operands.lean ====
section
/-!
DEFINITION. Operand forms: dispatch checks and the records that they read (11 R359, R484), matrices in memory (03 R64), the
reading of block-scaled lines through a bollard list (04 R109, R112, R113), and the writing of byte ranges.
-/

namespace Sys2Proof.Machine

/-! ### Dispatch checks -/

/-- Dispatch checks: they stop at the first row that fails, with its fault code and, for XLATE_FAULT, the address. -/
abbrev Chk (α : Type) : Type := ExceptT (Nat × Nat) (StateM Io) α

/-- A row of a check table: refuses with the code when its condition holds. -/
def Chk.row (cond : Bool) (code : Nat) : Chk Unit := fun io => if cond then (.error (code, 0), io) else (.ok (), io)

/-- Access to the data plane for a record that a row needs: a translation fault refuses with XLATE_FAULT, captured and
counted (11 R484, 08 R235). -/
def Chk.access {α : Type} (q : Nat) (m : M α) : Chk α := fun io =>
  match m io with
  | (.ok x, io) => (.ok x, io)
  | (.error f, io) => (.error (Code.xlateFault, f.2), { io with d := io.d.xlateFault q f })

/-- Reads a record of n bytes: a poisoned or uncorrectable line refuses with RECORD_POISON (11 R484). -/
def Chk.record (q : Nat) (e : Env) (a : Acc) (va n : Nat) : Chk (List Byte) := do
  let r ← Chk.access q (readBytes e a va n)
  Chk.row r.2 Code.recordPoison
  pure r.1

/-- The outcome of some checks, as a value. -/
def Chk.attempt {α : Type} (m : Chk α) : Chk (Except (Nat × Nat) α) := fun io =>
  let r := m io
  (.ok r.1, r.2)

/-- What the checks of a descriptor leave for its operation: records read and numbers fixed at dispatch, and its
instances, each with the code that refuses it (0: it starts) and the address of an XLATE_FAULT. -/
structure Plan where
  recs : Tab (List Byte)
  nums : Tab Nat
  insts : List (Nat × Nat × Nat)

/-- An operation of one instance. -/
def Plan.one (recs : Tab (List Byte)) (nums : Tab Nat) : Plan := ⟨recs, nums, [(0, 0, 0)]⟩

/-- Some byte of a range is nonzero. -/
def anySet (d : List Byte) (off len : Nat) : Bool := (slice d off len).any (· != 0)

/-- A clusters's domain that a dispatch check finds off: off, or shutting down (14 R433). -/
def Env.isOff (e : Env) (x : Nat) : Bool :=
  match e.dom x with
  | .off => true
  | .down => true
  | .on => false
  | .slack => false
  | .up => false

/-- A domain that a dispatch has to wait for: in slack or powering up (14 R432, R433). -/
def Env.mustWake (e : Env) (x : Nat) : Bool :=
  match e.dom x with
  | .slack => true
  | .up => true
  | .off => false
  | .down => false
  | .on => false

/-- The command must wait. -/
def Chk.block (b : Bool) : Chk Unit := fun io => (.ok (), if b then { io with wait := true } else io)

/-- The logical service clusters. -/
def serviceClusters : List Nat := (List.range 32).map (768 + ·)

/-- The check of 01 R485 and the DOMAIN_OFF row beside it, for an operation of the present service clusters: absent when
none is present, off when a present one's domain is off; it waits for a domain in slack. -/
def serviceRow (e : Env) (offRow : Bool) : Chk Unit := do
  let here := serviceClusters.filter fun n => !e.absent n
  Chk.row here.isEmpty Code.clusterAbsent
  Chk.row (offRow && here.any fun n => e.isOff (clusterDom n)) Code.domainOff
  Chk.block (here.any fun n => e.mustWake (clusterDom n))

/-! ### Byte ranges of virtual memory -/

/-- The writes of bytes at a virtual address. -/
def putBytes (e : Env) (a : Acc) (va : Nat) (bs : List Byte) : M (List Wr) := writeBytes e a va bs.length bs

/-- The whole-line writes of some lines at consecutive virtual lines. -/
def putLines (e : Env) (a : Acc) (va : Nat) (ls : List LineOut) (poison : Bool) : M (List Wr) := do
  let xs ← writeTargets e a va ls.length
  pure (List.zipWith (fun x l => .whole x l poison) xs ls)

/-! ### Bollard lists and narrow lines -/

/-- A bollard list as a reader has it from its header line (04 R109, R113). -/
structure ListRef where
  addr : Nat
  /-- the header could be read: its generation and tag are known -/
  known : Bool
  gen : Nat
  tag : Nat
  g : Nat
  groups : Nat
  record : Nat
  /-- the tensor's row that the list's first row is (10 R331) -/
  row0 : Nat
deriving Repr

/-- Reads a list's header (04 R113). -/
def readList (e : Env) (a : Acc) (addr : Nat) : M ListRef := do
  let l ← readVirt e a addr
  let p := l.payload
  pure ⟨addr, !l.poison, field p 16 4, field p 20 2, bits (field p 12 1) 2 0, field p 28 4, bits (field p 0 8) 59 0, 0⟩

/-- A line passes the generation and tag check of a list; without a list nothing is checked (04 R113). -/
def lineChecked (list : Option ListRef) (f : Fmt) (l : LineIn) : Bool :=
  match list with
  | none => true
  | some r => !f.narrow || (r.known && sideGen l.side == r.gen % 256 && sideTag l.side == r.tag)

/-- The slot of a block (04 R110). -/
def slotOf (r : ListRef) (row block : Nat) : Nat := row * r.groups + block / 2 ^ r.g

/-- The virtual address of a slot. -/
def slotAddr (r : ListRef) (s : Nat) : Nat := r.addr + 64 + 8 * s

/-- The entry of a block, in a tensor whose rows are `len` element indices apart (02 R45): its position in the line and its value (02 R46, R49; 04 R112). `lines` holds the slot lines
read, by virtual address. -/
def blockEntry (r : ListRef) (lines : Tab LineIn) (len row block inLine : Nat) : Option (Nat × FV) :=
  let va := slotAddr r (slotOf r row block)
  let l := tget LineIn.bad lines (va / 64 * 64)
  if l.poison then none
  else
    let idx := field l.payload (va % 64) 5
    let first := (r.row0 + row) * len + 32 * block
    if first ≤ idx ∧ idx < first + 32 then
      some (32 * inLine + (idx - first), decodeBf16 (field l.payload (va % 64 + 5) 2))
    else none

/-- A stored matrix: its first line, row pitch, format, rows, elements per row, bollard list. -/
structure Mat where
  addr : Nat
  pitch : Nat
  fmt : Fmt
  rows : Nat
  len : Nat
  list : Nat

/-- What reading a matrix gives: its rows of elements, its events (GEN_MISMATCH, orphans) and the tensor record in which
orphans count (0: ORPHAN_NOLIST). -/
structure MatIn where
  rows : List (List FV)
  mismatches : Nat
  orphans : Nat
  record : Nat

/-- Element indices from one row to the next: whole lines count (02 R45). -/
def Mat.rowStep (m : Mat) : Nat := m.fmt.linesPerRow m.len * m.fmt.perLine

/-- Elements on line j of a row. -/
def Mat.onLine (m : Mat) (j : Nat) : Nat := min m.fmt.perLine (m.len - j * m.fmt.perLine)

/-- Reads the lines of a row that are needed; the others stand as `none`. -/
def readRow (e : Env) (a : Acc) (m : Mat) (row : Nat) (need : Nat → Bool) : M (List (Option LineIn)) :=
  (List.range (m.fmt.linesPerRow m.len)).mapM fun j =>
    if need j then do
      let l ← readVirt e a (m.addr + row * m.pitch + 64 * j)
      pure (some l)
    else pure none

/-- The slot lines that a row's masked blocks need. -/
def slotsNeeded (m : Mat) (r : ListRef) (row : Nat) (ls : List (Option LineIn)) : List Nat :=
  (ls.zipIdx).flatMap fun lj =>
    match lj.1 with
    | none => []
    | some l =>
      if l.poison || !lineChecked (some r) m.fmt l then []
      else ((List.range (ceilDiv (m.onLine lj.2) 32)).filter fun b => maskBit m.fmt l.side b).map fun b =>
        slotAddr r (slotOf r row (lj.2 * m.fmt.blocksPerLine + b)) / 64 * 64

/-- Reads lines at virtual addresses into a table, each once. -/
def readInto (e : Env) (a : Acc) : List Nat → Tab LineIn → M (Tab LineIn)
  | [], t => pure t
  | va :: rest, t =>
    if t.any fun x => x.1 == va then readInto e a rest t
    else do
      let l ← readVirt e a va
      readInto e a rest (tput t va l)

/-- The elements of a row. -/
def rowElems (m : Mat) (list : Option ListRef) (slots : Tab LineIn) (row : Nat) (ls : List (Option LineIn)) : List FV :=
  (ls.zipIdx).flatMap fun lj =>
    let n := m.onLine lj.2
    match lj.1 with
    | none => List.replicate n .nan
    | some l =>
      let entry : EntryAt := fun b =>
        match list with
        | none => none
        | some r => blockEntry r slots m.rowStep row (lj.2 * m.fmt.blocksPerLine + b) b
      decodeElems m.fmt l (lineChecked list m.fmt l) entry n

/-- The orphans of a row (02 R50, 04 R112). -/
def rowOrphans (m : Mat) (list : Option ListRef) (slots : Tab LineIn) (row : Nat) (ls : List (Option LineIn)) : Nat :=
  ((ls.zipIdx).map fun lj =>
    match lj.1 with
    | none => 0
    | some l =>
      let entry : EntryAt := fun b =>
        match list with
        | none => none
        | some r => blockEntry r slots m.rowStep row (lj.2 * m.fmt.blocksPerLine + b) b
      orphanCount m.fmt l (lineChecked list m.fmt l) entry (m.onLine lj.2)).sum

/-- The lines of a row that fail the check of 04 R113. A line that reads poisoned has no generation to check, but under a
header that reads poisoned every line fails. -/
def rowMismatches (m : Mat) (list : Option ListRef) (ls : List (Option LineIn)) : Nat :=
  let all := match list with | none => false | some r => !r.known
  (ls.filter fun l => match l with | none => false | some l => (all || !l.poison) && !lineChecked list m.fmt l).length

/-- Reads a matrix whose first row is row `row0` of its tensor; `need` says which lines (row, line in the row) are read at
all. -/
def readMatFrom (e : Env) (a : Acc) (m : Mat) (row0 : Nat) (need : Nat → Nat → Bool) : M MatIn := do
  let list ← if m.list = 0 || !m.fmt.narrow then pure none
    else (do let r ← readList e a m.list; pure (some { r with row0 := row0 }))
  let rows ← (List.range m.rows).mapM fun i => readRow e a m i (need i)
  let slots ← match list with
    | none => pure []
    | some r => readInto e a ((rows.zipIdx).flatMap fun ri => slotsNeeded m r ri.2 ri.1) []
  pure
    { rows := (rows.zipIdx).map fun ri => rowElems m list slots ri.2 ri.1
      mismatches := ((rows.map (rowMismatches m list)).sum)
      orphans := (((rows.zipIdx).map fun ri => rowOrphans m list slots ri.2 ri.1).sum)
      record := match list with | none => 0 | some r => r.record }

/-- Reads a whole tensor's matrix. -/
def readMat (e : Env) (a : Acc) (m : Mat) (need : Nat → Nat → Bool) : M MatIn := readMatFrom e a m 0 need

/-- The element of a matrix that was read, stored row-major or transposed (03 R64). -/
def MatIn.at_ (x : MatIn) (trans : Bool) (i j : Nat) : FV :=
  if trans then (x.rows.getD j []).getD i .nan else (x.rows.getD i []).getD j .nan

/-- Event counts and record counts that reading a matrix causes (04 R106, R113). -/
def matEvents (e : Env) (a : Acc) (x : MatIn) : M (List (Nat × Nat) × List Wr) := do
  let mis := if x.mismatches = 0 then [] else [(Evt.genMismatch, x.mismatches)]
  if x.orphans = 0 then pure (mis, [])
  else if x.record = 0 then pure (mis ++ [(Evt.orphanNolist, x.orphans)], [])
  else do
    let p ← translate e a true (x.record + 64)
    pure (mis, [.count (p / 64) (p % 64) x.orphans])

end Sys2Proof.Machine
end

