-- ==== Sys2Proof/Machine/Random.lean ====
section
/-!
DEFINITION. Random bits (05): keyed draws, the free counters of the strings and their seeding, class 0x07.
-/

namespace Sys2Proof.Machine

/-! ### Physical clusters and their strings -/

/-- The kind of a physical cluster by its index on its die: 0 treble, 1 bass, 2 service (15 R443). -/
def physKind (i : Nat) : Nat := if i < 66 then 0 else if i < 198 then 1 else 2

/-- The power domain of a physical cluster (01 R25, 14 R431). -/
def physDom (pc : Nat) : Nat := 4 * (pc / 208) + physKind (pc % 208)

/-- The physical clusters of a cluster domain. -/
def domPhys (x : Nat) : List Nat := (List.range 832).filter fun pc => physDom pc = x

/-- The physical cluster behind a logical one. -/
def Boot.physOf (b : Boot) (n : Nat) : Option Nat := (b.map.find? fun m => m.2 == n).map (·.1)

/-- The free counter that a counter key gives a string (05 R149). -/
def seededCounter (kc : BitVec 128) (pc l : Nat) : Reg :=
  let st := BitVec.ofNat 32 (0x40000000 + 128 * pc + l)
  BitVec.ofNat 64 ((keyedWord kc st 1).toNat * 2 ^ 32 + (keyedWord kc st 0).toNat)

/-- A counter some cycles on: it passes 2^64 - 1 only by a string reseed, for which it waits there (05 R148; log entry 67). -/
def counterAfter (start : Reg) (cycles : Nat) : Reg := BitVec.ofNat 64 (min (start.toNat + cycles) (2 ^ 64 - 1))

/-- The free counter of a string now (05 R147, R148): from the last event that set it. -/
def Rng.counter (r : Rng) (pc l : Nat) : Reg :=
  let dom := tget ⟨0, 0⟩ r.doms (physDom pc)
  match r.strs.find? fun t => t.1 == 128 * pc + l with
  | some t => counterAfter t.2.start ((dom.tenths - t.2.at_) / 10)
  | none => counterAfter (seededCounter dom.key pc l) (dom.tenths / 10)

/-- The counter would pass 2^64 - 1 at the next cycle (05 R148). -/
def Rng.runsOut (r : Rng) (pc l : Nat) : Bool := decide ((r.counter pc l).toNat = 2 ^ 64 - 1)

/-- The cluster domains: treble, bass and service of each die. -/
def clusterDoms : List Nat := [0, 1, 2, 4, 5, 6, 8, 9, 10, 12, 13, 14]

/-- Sets every string's counter from a counter key (05 R149, R155). -/
def Rng.seedAll (r : Rng) (kc : BitVec 128) : Rng :=
  { r with doms := clusterDoms.map fun x => (x, ⟨kc, 0⟩), strs := [] }

/-- Sets the counters of a domain's strings from a counter key (05 R149). -/
def Rng.seedDomain (r : Rng) (x : Nat) (kc : BitVec 128) : Rng :=
  { r with doms := tput r.doms x ⟨kc, 0⟩, strs := r.strs.filter fun t => physDom (t.1 / 128) ≠ x }

/-- Sets one string's counter. -/
def Rng.setString (r : Rng) (pc l : Nat) (c : Reg) : Rng :=
  { r with strs := tput r.strs (128 * pc + l) ⟨c, (tget ⟨0, 0⟩ r.doms (physDom pc)).tenths⟩ }

/-- The next seed of the entropy source (05 R149; log entry 3). -/
def Rng.draw (r : Rng) : BitVec 128 × Rng := (Config.seed r.drawn, { r with drawn := r.drawn + 1 })

/-- A new root key and a new counter key, setting every string's counter; SEEDED is set (05 R149, R155). -/
def Rng.reseed (r : Rng) : Rng :=
  let (root, r) := r.draw
  let (kc, r) := r.draw
  { r.seedAll kc with root := root, seeded := true }

/-- A place moved on, cycle by cycle, until its string has not drawn in that cycle. -/
def freshPlace (used : List (Nat × Nat × Nat)) : Nat → Nat × Nat × Nat → Nat × Nat × Nat
  | 0, p => p
  | n + 1, p => if used.contains p then freshPlace used n (p.1, p.2.1, p.2.2 + 1) else p

/-- The places (cluster of the target, lane, cycle) of an operation's first free-running draws, last first: which string at
which cycle is open (`Config.drawPlace`, log entry 16), but a string draws at most one word in a cycle (05 R147). -/
def drawPlaces (op clusters : Nat) : Nat → List (Nat × Nat × Nat)
  | 0 => []
  | n + 1 =>
    let used := drawPlaces op clusters n
    let (i, l, cyc) := Config.drawPlace op n
    freshPlace used (n + 1) (i % max 1 clusters, l % 128, cyc) :: used

/-- A free-running draw of an operation on some clusters (05 R147). -/
def Rng.freeWord (r : Rng) (b : Boot) (clusters : List Nat) (op num : Nat) : Word :=
  let (i, l, cyc) := (drawPlaces op clusters.length (num + 1)).headD (0, 0, 0)
  let pc := (b.physOf (clusters.getD i 0)).getD 0
  keyedWord r.root (BitVec.ofNat 32 (0x80000000 + 128 * pc + l)) (counterAfter (r.counter pc l) cyc)

/-! ### Class 0x07: dispatch checks (05 R159) -/

/-- FILL draws in free-running mode. -/
def fillFree (d : List Byte) : Bool := operOf d == 1 && bit (field d 58 1) 1

/-- Row 1 of 05 R159. -/
def randomReserved (d : List Byte) : Bool :=
  match operOf d with
  | 1 => addrTop d 16 != 0 || bits (field d 58 1) 7 2 != 0 || anySet d 62 2
  | 2 => addrTop d 16 != 0 || anySet d 24 40
  | 3 => addrTop d 16 != 0 || anySet d 24 40
  | 4 => anySet d 16 48
  | _ => false

/-- Label of the first line of a RESTORE image. -/
abbrev Lab.image : Nat := 1

/-- The dispatch checks of class 0x07. -/
def checkRandom (s : State) (q : Nat) (e : Env) (a : Acc) (d : List Byte) : Chk Plan := do
  let o := operOf d
  Chk.row (randomReserved d) Code.rsvdSet
  Chk.row (o == 0 || decide (4 < o)) Code.badOpcode
  Chk.row (o != 4 && addrField d 16 % 64 != 0) Code.badAlign
  let img ← if o = 3 then Chk.record q e a (addrField d 16) 64 else pure []
  Chk.row (o == 3 && field img 0 2 != 1) Code.badFormat
  Chk.row (fillFree d && !s.rng.seeded) Code.noEntropy
  if o = 1 then serviceRow e false else pure ()
  pure (Plan.one [(Lab.image, img)] [])

/-! ### FILL (05 R158, R486) -/

/-- Word i of a FILL. -/
def fillWord (s : State) (o : Op) (i : Nat) : Word :=
  let d := o.desc
  if fillFree d then
    s.rng.freeWord s.boot (serviceClusters.filter fun n => !s.absent n) o.id i
  else keyedWord (BitVec.ofNat 128 (field d 24 16)) (BitVec.ofNat 32 (field d 40 4)) (BitVec.ofNat 64 (field d 44 8 + i))

/-- The binary32 word of the uniform float (05 R143). -/
def uniformFloat (w : Word) : Nat := encode32 (.num false (uniform24 w) (-24))

/-- The lines of a FILL: positions past the count are zero. -/
def fillLines (s : State) (o : Op) : List LineOut :=
  let d := o.desc
  let n := field d 52 6
  let value (i : Nat) : Nat :=
    if n ≤ i then 0
    else if bit (field d 58 1) 0 then uniformFloat (fillWord s o i) else (fillWord s o i).toNat
  (List.range (ceilDiv n 16)).map fun l =>
    ⟨Fmt.f32.pack ((List.range 16).map fun k => value (16 * l + k)),
      List.replicate 5 0 ++ sideId (field d 59 1) (field d 60 2)⟩

/-- A line that a faulted FILL poisons: side bytes zero (05 R486). -/
def poisonZero (e : Env) (a : Acc) (addr n : Nat) : M (List Wr) := do
  let ws ← (List.range n).mapM fun i => do
    match ← M.attempt (translate e a true (addr + 64 * i)) with
    | .ok x => pure [Wr.whole (x / 64) zeroLine true]
    | .error _ => pure []
  pure ws.flatten

end Sys2Proof.Machine
end

