-- ==== Sys2Proof/Machine/Lock.lean ====
section
/-!
DEFINITION. The lock units (04 R99 to R117): the conversion of a tensor's rows with its lines, bollard entries, history,
tap rows and counts; CONVERT, its dispatch checks and its faults.
-/

namespace Sys2Proof.Machine

/-- The selection of tap rows and sampled row groups: key, stream and exponent as read at dispatch (04 R123, R128). -/
structure Select where
  key : BitVec 128
  stream : Word
  k : Nat

/-- Row group g is sampled (04 R123). -/
def Select.takes (s : Select) (g : Nat) : Bool :=
  (keyedWord s.key s.stream (BitVec.ofNat 64 g)).toNat % 2 ^ s.k = 0

/-- The selection of a tuner slot. -/
def Tuner.select (t : Tuner) (slot : Nat) : Select :=
  let x := tget .reset t.slots slot
  ⟨x.key, x.stream, x.k.toNat⟩

/-- A conversion by the lock units. `bpr` blocks per row and groups per row follow from `len` and `g`. -/
structure ConvJob where
  p : ConvParams
  dest : Nat
  pitch : Nat
  list : Nat
  g : Nat
  gen32 : Nat
  record : Nat
  hist : Nat
  tap : Nat
  select : Select
  predict : Bool
  rows : Nat
  len : Nat

/-- A row handed to the lock units: its values, a ZERO_FILL row (03 R88), or a masked row that is not handed over. -/
inductive RowIn where
  | vals (xs : List FV)
  | zero
  | skip

/-- Blocks of a row. -/
def ConvJob.blocks (j : ConvJob) : Nat := ceilDiv j.len 32

/-- Groups of a row (04 R109). -/
def ConvJob.groups (j : ConvJob) : Nat := ceilDiv j.blocks (2 ^ j.g)

/-- The group size when a list is named. -/
def ConvJob.group? (j : ConvJob) : Option Nat := if j.list = 0 then none else some j.g

/-- The predicted codes of a row (04 R114): the history's bytes, a miss where the line reads poisoned or the byte has not
arrived (log entry 17). `none`: no prediction. -/
def ConvJob.predicted (e : Env) (a : Acc) (j : ConvJob) (draw row : Nat) : M (Option (Nat → Option Nat)) :=
  if !j.predict || j.hist = 0 then pure none
  else do
    let va := j.hist + row * j.blocks
    let first := va / 64 * 64
    let ls ← readLines e a first (ceilDiv (va % 64 + j.blocks) 64)
    pure (some fun b =>
      let x := va % 64 + b
      let l := ls.getD (x / 64) LineIn.bad
      if l.poison || !Config.historyArrives draw (row * j.blocks + b) then none
      else some (l.payload.getD (x % 64) 0).toNat)

/-- What one row's conversion does: writes, record writes (counts and history, 04 R107, R117) and counts. -/
structure RowDone where
  writes : List Wr
  recs : List Wr
  counts : Counts
  lines : Nat
  reconverted : Nat

/-- A row that adds nothing. -/
def RowDone.none : RowDone := ⟨[], [], Counts.none, 0, 0⟩

/-- The bollard slots of a row (04 R110). -/
def slotWrites (e : Env) (a : Acc) (j : ConvJob) (row : Nat) (entries : List (Option (Nat × Nat))) : M (List Wr) :=
  if j.list = 0 then pure []
  else putBytes e a (j.list + 64 + 8 * (row * j.groups))
    ((entries.zipIdx).flatMap fun ei => slotBytes (row * j.groups + ei.2) ei.1)

/-- The tap row (04 R128): the binary32 source. -/
def tapWrites (e : Env) (a : Acc) (j : ConvJob) (row : Nat) (xs : List FV) : M (List Wr) :=
  if j.tap = 0 || !j.select.takes (row / 16) then pure []
  else
    putLines e a (j.tap + row * alignUp (4 * j.len) 64)
      (wideRow .f32 false (List.replicate 5 0 ++ sideId j.p.gen j.p.tag) (xs.map widen32)) false

/-- The lines, slots, history bytes and counts of a converted row. -/
def rowWrites (e : Env) (a : Acc) (j : ConvJob) (row : Nat) (r : RowOut) : M (List Wr × List Wr) := do
  let ws ← putLines e a (j.dest + row * j.pitch) r.lines false
  let ss ← slotWrites e a j row r.entries
  let hs ← if j.hist = 0 then pure []
    else putBytes e a (j.hist + row * j.blocks) (r.codes.map (BitVec.ofNat 8))
  pure (ws ++ ss, hs)

/-- Converts one row. A ZERO_FILL row counts in the tensor record alone (03 R88). `rand` gives the random word of each element of the tensor (02 R62). -/
def convRow (e : Env) (a : Acc) (j : ConvJob) (rand : Nat → Option Nat) (draw row : Nat) : RowIn → M RowDone
  | .skip => pure RowDone.none
  | .zero => do
    let r := zeroRow j.p j.group? j.len
    let (ws, hs) ← rowWrites e a j row r
    pure ⟨ws, hs, r.counts, 0, 0⟩
  | .vals xs => do
    let pr ← j.predicted e a draw row
    let r := convertRow j.p j.group? (row * (j.p.target.linesPerRow j.len * j.p.target.perLine)) rand pr xs
    let (ws, hs) ← rowWrites e a j row r
    let ts ← tapWrites e a j row xs
    pure ⟨ws ++ ts, hs, r.counts, r.lines.length, r.reconverted⟩

/-- The header fields that the lock unit writes (04 R109). -/
def headerWrites (e : Env) (a : Acc) (j : ConvJob) : M (List Wr) :=
  if j.list = 0 then pure []
  else do
    let w1 ← putBytes e a (j.list + 16) (natLE 4 j.gen32 ++ natLE 2 j.p.tag)
    let w2 ← putBytes e a (j.list + 24) (natLE 4 j.rows ++ natLE 4 j.groups)
    pure (w1 ++ w2)

/-- The additions to the tensor record (04 R106, R107). -/
def countWrites (e : Env) (a : Acc) (record : Nat) (c : Counts) : M (List Wr) := do
  let x0 ← translate e a true record
  let x1 ← translate e a true (record + 64)
  pure ((c.zipIdx).filterMap fun ni =>
    if ni.1 = 0 then none
    else some (if ni.2 < 8 then .count (x0 / 64) (8 * ni.2) ni.1 else .count (x1 / 64) (8 * (ni.2 - 8)) ni.1))

/-- Converts all rows; where no row is handed over the list header stays as it is (DESIGN CHOICE, log entry 64): line, slot,
header and tap writes; record and history writes; counts of the lock block. `lock`
false keeps the conversion out of LINES_CONVERTED and RECONVERT (07). -/
def convRows (e : Env) (a : Acc) (j : ConvJob) (rand : Nat → Option Nat) (lock : Bool) (rows : List RowIn) :
    M (List Wr × List Wr × List (Nat × Nat)) := do
  let draw ← M.ask (·.free)
  M.upd fun d => { d with free := d.free + 1 }
  let done ← (rows.zipIdx).mapM fun ri => convRow e a j rand draw ri.2 ri.1
  let counts := done.foldl (fun c r => c.add r.counts) Counts.none
  let hw ← if rows.all fun r => match r with | .skip => true | .zero => false | .vals _ => false then pure []
    else headerWrites e a j
  let cw ← countWrites e a j.record counts
  let lines := (done.map (·.lines)).sum
  let rec_ := (done.map (·.reconverted)).sum
  pure (done.flatMap (·.writes) ++ hw, done.flatMap (·.recs) ++ cw,
    if lock then (if lines = 0 then [] else [(Evt.linesConverted, lines)])
      ++ (if rec_ = 0 then [] else [(Evt.reconvert, rec_)]) else [])

/-- Poisoned lines of a narrow target (04 R105; 03 R91), where their addresses still translate. -/
def poisonRows (e : Env) (a : Acc) (f : Fmt) (dest pitch len : Nat) (rows : List Nat) : M (List Wr) := do
  let ws ← rows.mapM fun r => (List.range (f.linesPerRow len)).mapM fun i => do
    let t ← M.attempt (translate e a true (dest + r * pitch + 64 * i))
    match t with
    | .ok x => pure [Wr.whole (x / 64) (poisonedNarrow f) true]
    | .error _ => pure []
  pure (ws.flatten.flatten)

/-! ### The lock conversion descriptor -/

/-- The target format of a lock conversion descriptor. -/
def lockTarget (d : List Byte) : Nat := bits (field d 54 1) 4 3

/-- Rows 1 to 7 of 04 R104. In row 6 an address, row count or row length of 0 is refused before the list header is read, so
BAD_SHAPE comes before a fault of that read (DESIGN CHOICE, log entry 64). `handoff` leaves out what a hand-off ignores (R103) and gives the sweep's M and N. -/
def lockChecks (q : Nat) (e : Env) (a : Acc) (d : List Byte) (handoff : Option (Nat × Nat)) :
    Chk (List Byte × Option (List Byte)) := do
  let conv := handoff.isNone
  let fmt := field d 54 1
  Chk.row (addrTop d 16 != 0 || (conv && addrTop d 24 != 0) || addrTop d 32 != 0 || addrTop d 40 != 0
    || bits (field d 55 1) 7 4 != 0) Code.rsvdSet
  Chk.row (operOf d != 1) Code.badOpcode
  Chk.row (bit fmt 6) Code.badRounding
  Chk.row ((conv && [3, 5, 6, 7].contains (bits fmt 2 0)) || lockTarget d == 3) Code.badFormat
  let lo := field d 56 1
  let hi := field d 57 1
  Chk.row (lo == 0 || lo == 0xFF || hi == 0xFF || hi < lo) Code.badScaleLimit
  let rows := match handoff with | some (m, _) => m | none => field d 58 3
  let len := match handoff with | some (_, n) => n | none => field d 61 3
  let rec_ := addrField d 40
  let list := addrField d 32
  Chk.row (rec_ == 0 || (conv && (rows == 0 || len == 0))) Code.badShape
  let hdr ← if list = 0 then pure none else (do let h ← Chk.record q e a list 64; pure (some h))
  match hdr with
  | none => pure ()
  | some h =>
    let g := bits (field h 12 1) 2 0
    Chk.row (6 < g) Code.badShape
    Chk.row (field h 8 4 < rows * ceilDiv (ceilDiv len 32) (2 ^ g)) Code.badShape
  Chk.row (addrField d 16 % 64 != 0 || (conv && addrField d 24 % 64 != 0) || list % 64 != 0 || rec_ % 128 != 0)
    Code.badAlign
  let r ← Chk.record q e a rec_ 128
  pure (r, hdr)

/-- Labels of the records and numbers of a conversion. -/
abbrev Lab.tensor : Nat := 1
/-- The list header. -/
abbrev Lab.header : Nat := 2
/-- The tap selection as the dispatch read it: key, stream, exponent (04 R128). -/
abbrev Lab.tapKey : Nat := 1
/-- Stream. -/
abbrev Lab.tapStream : Nat := 2
/-- Exponent. -/
abbrev Lab.tapK : Nat := 3

/-- The tap selection of a tensor record, as numbers. -/
def tapNums (t : Tuner) (r : List Byte) : Tab Nat :=
  let s := t.select (bits (field r 120 1) 3 0)
  [(Lab.tapKey, s.key.toNat), (Lab.tapStream, s.stream.toNat), (Lab.tapK, s.k)]

/-- The tap selection that an operation keeps. -/
def tapSelect (nums : Tab Nat) : Select :=
  ⟨BitVec.ofNat 128 (tget 0 nums Lab.tapKey), BitVec.ofNat 32 (tget 0 nums Lab.tapStream), tget 0 nums Lab.tapK⟩

/-- The job that a lock conversion descriptor describes, with its tensor record and list header. -/
def lockJob (d r hdr : List Byte) (sel : Select) (rows len pitch : Nat) : ConvJob :=
  { p :=
      { target := (Fmt.ofCode (lockTarget d)).getD .t4
        t := bits (field d 55 1) 3 0
        floor := field d 56 1
        ceil := field d 57 1
        sat := bit (field d 54 1) 5
        stoch := false
        gen := field d 48 1
        tag := field d 52 2 }
    dest := addrField d 16
    pitch := pitch
    list := addrField d 32
    g := bits (field hdr 12 1) 2 0
    gen32 := field d 48 4
    record := addrField d 40
    hist := bits (field r 96 8) 59 0
    tap := bits (field r 104 8) 59 0
    select := sel
    predict := bit (field d 54 1) 7
    rows := rows
    len := len }

/-- The job of a CONVERT: packed row pitches (04 R103). -/
def convertJob (o : Op) : ConvJob :=
  let d := o.desc
  let f := (Fmt.ofCode (lockTarget d)).getD .t4
  let len := field d 61 3
  lockJob d (o.record Lab.tensor) (o.record Lab.header) (tapSelect o.nums) (field d 58 3) len (64 * f.linesPerRow len)

/-- The source of a CONVERT: packed, with the list that the tensor record names for a narrow source (04 R106). -/
def convertSource (o : Op) : Mat :=
  let d := o.desc
  let f := (Fmt.ofCode (bits (field d 54 1) 2 0)).getD .f32
  let len := field d 61 3
  { addr := addrField d 24, pitch := 64 * f.linesPerRow len, fmt := f, rows := field d 58 3, len := len,
    list := if f.narrow then bits (field (o.record Lab.tensor) 112 8) 59 0 else 0 }

/-- What an instance's work comes to: its writes in order, its effects, its fault. -/
structure Work where
  writes : List Wr
  eff : Effects
  fault : Nat
  va : Nat

/-- The work of a CONVERT (04 R103, R110 to R117), and of one that meets a translation fault (R105). -/
def convertWork (e : Env) (a : Acc) (o : Op) : M Work := do
  let j := convertJob o
  let r ← M.attempt (do
    let src ← readMat e a (convertSource o) (fun _ _ => true)
    let (ev, rc) ← matEvents e a src
    let (ws, rs, ev2) ← convRows e a j (fun _ => none) true (src.rows.map .vals)
    pure (ws, rs ++ rc, ev ++ ev2))
  match r with
  | .ok (ws, rs, ev) => pure ⟨ws, { Effects.none with evts := ev, recs := rs }, 0, 0⟩
  | .error f => do
    let ws ← poisonRows e a j.p.target j.dest j.pitch j.len (List.range j.rows)
    pure ⟨ws, { Effects.none with evts := [(Evt.convertFault, 1)], xf := some f }, Code.xlateFault, f.2⟩

/-- The four lock domains. -/
def lockDoms : List Nat := [3, 7, 11, 15]

/-- The dispatch checks of class 0x02 (04 R104). A CONVERT runs on the lock units of any die (04 R101): without a lock domain that
is on it waits for one in slack, and where every one is off it is refused (16 R459; log entry 65). -/
def checkConvert (s : State) (q : Nat) (e : Env) (a : Acc) (d : List Byte) : Chk Plan := do
  let (r, hdr) ← lockChecks q e a d none
  Chk.row (lockDoms.all e.isOff) Code.domainOff
  Chk.block (lockDoms.all fun x => e.isOff x || e.mustWake x)
  pure (Plan.one [(Lab.tensor, r), (Lab.header, hdr.getD [])] (tapNums s.tun r))

end Sys2Proof.Machine
end

