-- ==== Sys2Proof/Machine/Sweep.lean ====
section
/-!
DEFINITION. Sweeps (03): the accumulation chains, the sympathetic correction (04 R118 to R122), gradient statistics
(07 R196 to R200), courses, retained tiles, dispatch checks, and the work of an instance.
-/

namespace Sys2Proof.Machine

/-! ### Accumulation (03 R66 to R70) -/

/-- Arithmetic events: product overflows and flushes, accumulator overflows and flushes (03 R98). -/
structure ArithEv where
  po : Nat
  pf : Nat
  ao : Nat
  af : Nat
deriving DecidableEq, Repr

/-- No events. -/
def ArithEv.zero : ArithEv := ⟨0, 0, 0, 0⟩

/-- Sum of events. -/
def ArithEv.add (a b : ArithEv) : ArithEv := ⟨a.po + b.po, a.pf + b.pf, a.ao + b.ao, a.af + b.af⟩

/-- Events of a product's rounding (03 R66). -/
def ArithEv.prod (r : Rounded) : ArithEv := ⟨b2n r.ovf, b2n r.flush, 0, 0⟩

/-- Events of an accumulation's rounding (03 R67, R68). -/
def ArithEv.acc (r : Rounded) : ArithEv := ⟨0, 0, b2n r.ovf, b2n r.flush⟩

/-- One short run: it starts at its first product (03 R66, R67, R69). -/
def shortRun : List (FV × FV) → Option FV → ArithEv → FV × ArithEv
  | [], s, ev => (s.getD .zero, ev)
  | (x, y) :: rest, s, ev =>
    let p := round22 (x.mul y)
    let ev := ev.add (.prod p)
    match s with
    | none => shortRun rest (some p.val) ev
    | some s =>
      let r := round22 (s.add p.val)
      shortRun rest (some r.val) (ev.add (.acc r))

/-- One addition into the long accumulator, which may be empty (03 R68, R69). -/
def accumulate (acc : Option FV) (v : FV) (ev : ArithEv) : Option FV × ArithEv :=
  match acc with
  | none => (some v, ev)
  | some a =>
    let r := round32 (a.add v)
    (some r.val, ev.add (.acc r))

/-- The narrow path's chain over the runs of an output element (03 R69). -/
def narrowChain : List (List (FV × FV)) → Option FV → ArithEv → Option FV × ArithEv
  | [], acc, ev => (acc, ev)
  | run :: rest, acc, ev =>
    let (s, ev) := shortRun run none ev
    let (acc, ev) := accumulate acc s ev
    narrowChain rest acc ev

/-- The wide path's chain (03 R70). -/
def wideChain : List (FV × FV) → Option FV → ArithEv → Option FV × ArithEv
  | [], acc, ev => (acc, ev)
  | (x, y) :: rest, acc, ev =>
    let r := match acc with
      | none => round32 (x.mul y)
      | some a => round32 ((x.mul y).add a)
    wideChain rest (some r.val) (ev.add (.acc r))

/-- The value of an output element before output conversion (03 R69, R70). `c` is C's value under ACCUMULATE, `corr` the
correction's operand pairs under SYMPATHETIC (04 R118). -/
def outputElement (narrow : Bool) (l : Nat) (pairs : List (FV × FV)) (c : Option FV) (corr : Option (List (FV × FV))) :
    FV × ArithEv :=
  let (acc, ev) := if narrow then narrowChain (chunksOf l pairs.length pairs) c ArithEv.zero
    else wideChain pairs c ArithEv.zero
  let acc := acc.getD .zero
  match corr with
  | none => (acc, ev)
  | some ps =>
    let (s, ev) := shortRun ps none ev
    let r := round32 (acc.add s)
    (r.val, ev.add (.acc r))

/-! ### Courses (03 R78; 01 R21) -/

/-- Cluster rows, cluster columns and grid columns of a course. -/
def courseShape (bass : Bool) (code : Nat) : Nat × Nat × Nat :=
  let w := if bass then 2 else 1
  match code with
  | 0 => (16, 16 * w, 1)
  | 1 => (16, 8 * w, 2)
  | 2 => (8, 8 * w, 2)
  | 3 => (8, 4 * w, 4)
  | _ => (4, 4 * w, 4)

/-- The logical cluster at a place of a fabric's grid (01 R21). -/
def clusterAt (bass : Bool) (row col : Nat) : Nat :=
  if bass then 256 + 128 * (2 * (row / 8) + col / 16) + (16 * (row % 8) + col % 16)
  else 64 * (2 * (row / 8) + col / 8) + (8 * (row % 8) + col % 8)

/-- Grid rows and columns of a course: its first row and column. -/
def courseOrigin (bass : Bool) (code course : Nat) : Nat × Nat :=
  let (h, w, g) := courseShape bass code
  (h * (course / g), w * (course % g))

/-- The clusters of a course. -/
def courseClusters (bass : Bool) (code course : Nat) : List Nat :=
  let (h, w, _) := courseShape bass code
  let (r0, c0) := courseOrigin bass code course
  (List.range h).flatMap fun r => (List.range w).map fun c => clusterAt bass (r0 + r) (c0 + c)

/-- The clusters on a course's output edge: the last row, or in the reverse orientation the last column (03 R74, R86). -/
def outputEdge (bass : Bool) (code course : Nat) (reverse : Bool) : List Nat :=
  let (h, w, _) := courseShape bass code
  let (r0, c0) := courseOrigin bass code course
  if reverse then (List.range h).map fun r => clusterAt bass (r0 + r) (c0 + w - 1)
  else (List.range w).map fun c => clusterAt bass (r0 + h - 1) (c0 + c)

/-- Products per cell and cycle in the reduction direction (03 R65). -/
def pairP (bass : Bool) (fa fb : Fmt) : Nat := if !bass && fa = .t4 && fb = .t4 then 2 else 1

/-- Kc and Nc of an orientation (03 R94). -/
def tileShape (bass : Bool) (code p : Nat) (reverse : Bool) : Nat × Nat :=
  let (h, w, _) := courseShape bass code
  if reverse then (128 * w * p, 128 * h) else (128 * h * p, 128 * w)

/-! ### The sweep descriptor (03 R96, R97) -/

/-- Descriptor fields. -/
def swM (d : List Byte) : Nat := field d 40 3
/-- N. -/
def swN (d : List Byte) : Nat := field d 43 3
/-- K. -/
def swK (d : List Byte) : Nat := field d 46 3
/-- A format code. -/
def swFa (d : List Byte) : Nat := bits (field d 49 1) 2 0
/-- B format code. -/
def swFb (d : List Byte) : Nat := bits (field d 49 1) 5 3
/-- Output code. -/
def swOut (d : List Byte) : Nat := bits (field d 49 1) 7 6
/-- Run length. -/
def swL (d : List Byte) : Nat := 16 * 2 ^ bits (field d 50 1) 1 0
/-- Course-count code. -/
def swCode (d : List Byte) : Nat := bits (field d 50 1) 4 2
/-- A flag. -/
def swFlag (d : List Byte) (i : Nat) : Bool := bit (field d 52 2) i
/-- TRANS_A. -/
def swTransA (d : List Byte) : Bool := swFlag d 0
/-- TRANS_B. -/
def swTransB (d : List Byte) : Bool := swFlag d 1
/-- ACCUMULATE. -/
def swAccum (d : List Byte) : Bool := swFlag d 2
/-- ZERO_FILL. -/
def swZero (d : List Byte) : Bool := swFlag d 3
/-- RETAIN. -/
def swRetain (d : List Byte) : Bool := swFlag d 4
/-- REUSE. -/
def swReuse (d : List Byte) : Bool := swFlag d 5
/-- SAT_OUT. -/
def swSat (d : List Byte) : Bool := swFlag d 6
/-- ROW_MASK. -/
def swMask (d : List Byte) : Bool := swFlag d 7
/-- STATS. -/
def swStats (d : List Byte) : Bool := swFlag d 8
/-- SYMPATHETIC. -/
def swSymp (d : List Byte) : Bool := swFlag d 9
/-- Stationary tag. -/
def swTag (d : List Byte) : Nat := field d 54 2
/-- The extension's address. -/
def swExt (d : List Byte) : Nat := addrField d 56
/-- The fabric that the target names. -/
def fabricOf (d : List Byte) : Nat := bits (targetOf d) 1 0
/-- The sweep's fabric is bass. -/
def swBass (d : List Byte) : Bool := bit (targetOf d) 0
/-- ALL_COURSES. -/
def allCourses (d : List Byte) : Bool := bit (targetOf d) 6
/-- The course index. -/
def courseIndex (d : List Byte) : Nat := bits (targetOf d) 5 2

/-- The courses that a class 0x01 descriptor names under a course-count code (03 R81, R96). -/
def coursesOf (d : List Byte) (code : Nat) : List Nat := if allCourses d then List.range (2 ^ code) else [courseIndex d]

/-- The course of an instance. -/
def instCourse (d : List Byte) (i : Nat) : Nat := if allCourses d then i else courseIndex d

/-- The bytes that a row of elements takes. -/
def rowBytes (f : Fmt) (len : Nat) : Nat := ceilDiv (64 * len) f.perLine

/-- A row pitch: 0 stands for the packed default (03 R97). -/
def pitchOf (p : Nat) (f : Fmt) (len : Nat) : Nat := if p = 0 then 64 * f.linesPerRow len else p

/-- The operand pair is one of 03 R65. -/
def pairListed (bass : Bool) (fa fb : Fmt) : Bool :=
  match fa, fb with
  | .bf16, .bf16 => true
  | .f32, .f32 => bass
  | .bf16, _ => false
  | .f32, _ => false
  | _, .bf16 => false
  | _, .f32 => false
  | a, b => bass || (a != .e5m2 && b != .e5m2)

/-- A retained tile serves a sweep's B: tag, extents, orientation, one tile (03 R86, R87). The format of B is not compared: a
sweep that names another one uses the tile's elements as they were decoded (DESIGN CHOICE, log entry 64). -/
def tileServes (d : List Byte) (t : Tile) : Bool :=
  let rev := swTransB d
  let (k0, n0) := if rev then (t.n0, t.k0) else (t.k0, t.n0)
  t.tag.toNat == swTag d && t.whole && !(rev && swCode d != 0) && k0 == swK d && n0 == swN d

/-- The courses on which a REUSE hits, as a mask, decided at dispatch (03 R87). -/
def reuseHits (f : Fabric) (d : List Byte) : Nat :=
  if !swReuse d || f.courses.toNat ≠ swCode d then 0
  else (coursesOf d (swCode d)).foldl (fun m c =>
    match f.tiles.find? fun t => t.1 == c with
    | some t => if tileServes d t.2 then m + 2 ^ c else m
    | none => m) 0

/-- The tile that a REUSE of an operation has hit on a course: the one that stood there at its dispatch (03 R87). -/
def Op.tileOf (o : Op) (c : Nat) : Option Tile := (o.tiles.find? fun t => t.1 == c).map (·.2)

/-- The sweep runs in the reverse orientation on a course (03 R86). -/
def swReverse (d : List Byte) (hits c : Nat) : Bool := swTransB d && swCode d = 0 && bit hits c

/-! ### Dispatch checks (03 R90, 04 R121, 07 R199) -/

/-- Labels of the records and numbers of a sweep. -/
abbrev Lab.ext : Nat := 3
/-- The auxiliary record. -/
abbrev Lab.aux : Nat := 4
/-- Hand-off descriptor of instance i. -/
abbrev Lab.handoff (i : Nat) : Nat := 16 + i
/-- Its tensor record. -/
abbrev Lab.handTensor (i : Nat) : Nat := 32 + i
/-- Its list header. -/
abbrev Lab.handHeader (i : Nat) : Nat := 48 + i
/-- The REUSE hits. -/
abbrev Lab.hits : Nat := 8
/-- The tap selection of instance i. -/
abbrev Lab.handTap (i : Nat) : Nat := 16 + 3 * i

/-- A record read when its address is nonzero: zeros otherwise. -/
def Chk.recordIf (q : Nat) (e : Env) (a : Acc) (cond : Bool) (va n : Nat) : Chk (List Byte) :=
  if cond then Chk.record q e a va n else pure (List.replicate n 0)

/-- The outcome of a read that leaves no trace. -/
def Chk.probe {α : Type} (m : M α) : Chk (Option α) := fun io =>
  match m io with
  | (.ok x, _) => (.ok (some x), io)
  | (.error _, _) => (.ok none, io)

/-- Row 1 on a SWEEP: reserved fields of descriptor, extension and auxiliary record. -/
def sweepReserved (d x y : List Byte) : Bool :=
  addrTop d 16 != 0 || addrTop d 24 != 0 || addrTop d 32 != 0 || addrTop d 56 != 0 || anySet d 51 1
    || bits (field d 50 1) 7 5 != 0 || bits (field d 52 2) 15 10 != 0
    || anySet x 52 4 || addrTop x 16 != 0 || addrTop x 24 != 0 || addrTop x 32 != 0 || addrTop x 56 != 0
    || (swSymp d && (addrTop y 0 != 0 || addrTop y 8 != 0 || bits (field y 24 1) 7 6 != 0 || anySet y 31 1))
    || (swStats d && (addrTop y 32 != 0 || addrTop y 40 != 0 || bits (field y 54 1) 7 1 != 0 || anySet y 58 6))

/-- The correction's formats (04 R119). -/
def sympFmt (y : List Byte) (v : Bool) : Nat := if v then bits (field y 24 1) 5 4 else bits (field y 24 1) 3 2

/-- The correction's rank. -/
def sympRank (y : List Byte) : Nat := 8 * 2 ^ bits (field y 24 1) 1 0

/-- Row 4 (03 R65, R90; 04 R121). -/
def sweepFormatBad (bass : Bool) (d x y : List Byte) : Bool :=
  let pairBad := match Fmt.ofCode (swFa d), Fmt.ofCode (swFb d) with
    | some fa, some fb => !pairListed bass fa fb
    | _, _ => true
  let uvBad (c : Nat) : Bool := !(c == 1 || (c == 2 && bass))
  pairBad || swOut d == 3 || (swSymp d && addrField x 56 != 0 && (uvBad (sympFmt y false) || uvBad (sympFmt y true)))

/-- The D format of a sweep: a hand-off's target when its descriptor could be read. -/
def sweepDFmt (d : List Byte) (hand : Option (List Byte)) : Option Fmt :=
  match swOut d with
  | 0 => some .f32
  | 1 => some .bf16
  | _ => match hand with
    | some h => Fmt.ofCode (lockTarget h)
    | none => none

/-- A nonzero pitch below its row's bytes. -/
def pitchShort (p : Nat) (f : Option Fmt) (len : Nat) : Bool :=
  match f with
  | some f => p != 0 && decide (p < rowBytes f len)
  | none => false

/-- Row 6 (03 R82, R83, R90, R94, R97; 04 R121; 07 R199). -/
def sweepShapeBad (bass : Bool) (d x y : List Byte) (hits : Nat) (hand : Option (List Byte)) : Bool :=
  let fa := (Fmt.ofCode (swFa d)).getD .t4
  let fb := (Fmt.ofCode (swFb d)).getD .t4
  let code := swCode d
  let ext := swExt d != 0
  let aux := addrField x 56
  let rev := (coursesOf d code).any (swReverse d hits)
  let kc := (tileShape bass code (pairP bass fa fb) rev).1
  decide (4 < code)
    || (allCourses d && code != 0 && (!ext || field x 48 4 == 0))
    || (!ext && (swMask d || decide (kc < swK d)))
    || pitchShort (field x 0 4) (some fa) (if swTransA d then swM d else swK d)
    || pitchShort (field x 4 4) (some fb) (if swTransB d then swK d else swN d)
    || pitchShort (field x 8 4) (sweepDFmt d hand) (swN d)
    || (decide (kc < swK d) && decide (2 ^ 21 < field x 12 4 + 512 * swM d))
    || ((swSymp d || swStats d) && aux == 0)
    || (swSymp d && (addrField y 0 == 0 || addrField y 8 == 0 || field y 16 4 % 64 != 0 || field y 20 4 % 64 != 0
        || pitchShort (field y 16 4) (Fmt.ofCode (sympFmt y false)) (sympRank y)
        || pitchShort (field y 20 4) (Fmt.ofCode (sympFmt y true)) (swN d)))
    || (swStats d && (addrField y 32 == 0 || addrField y 40 == 0))

/-- Row 7 (03 R90; 04 R121; 07 R199). -/
def sweepAlignBad (d x y : List Byte) : Bool :=
  let off (a : Nat) : Bool := a % 64 != 0
  off (addrField d 16) || off (addrField d 24) || off (addrField d 32) || off (swExt d)
    || off (field x 0 4) || off (field x 4 4) || off (field x 8 4)
    || off (addrField x 16) || off (addrField x 24) || off (addrField x 32) || off (addrField x 56)
    || (swSymp d && (off (addrField y 0) || off (addrField y 8)))
    || (swStats d && (off (addrField y 32) || off (addrField y 40)))

/-- The lock domains of a hand-off: those of the dies that hold the course's output-edge clusters (04 R102). -/
def handLocks (bass : Bool) (code course : Nat) (reverse : Bool) : List Nat :=
  ((outputEdge bass code course reverse).map fun c => clusterDom c / 4 * 4 + 3).eraseDups

/-- Rows 8 and 9 and the checks of a hand-off, on one instance (03 R90, 04 R104): the records and tap numbers. A hand-off needs
the lock domains of its output edge (16 R459; tested last, log entry 65). -/
def checkInstance (s : State) (q : Nat) (e : Env) (a : Acc) (d x : List Byte) (hits i : Nat) :
    Chk (Tab (List Byte) × Tab Nat) := do
  let cs := courseClusters (swBass d) (swCode d) (instCourse d i)
  Chk.row (cs.any e.absent) Code.clusterAbsent
  let doms := cs.map clusterDom
  Chk.row (doms.any e.isOff) Code.domainOff
  Chk.block (doms.any e.mustWake)
  if swOut d = 2 then do
    let h ← Chk.record q e a (addrField d 32 + 64 * i * field x 48 4) 64
    let (r, hdr) ← lockChecks q e a h (some (swM d, swN d))
    let c := instCourse d i
    let locks := handLocks (swBass d) (swCode d) c (swReverse d hits c)
    Chk.row (locks.any e.isOff) Code.domainOff
    Chk.block (locks.any e.mustWake)
    let t := tapNums s.tun r
    pure ([(Lab.handoff i, h), (Lab.handTensor i, r), (Lab.handHeader i, hdr.getD [])],
      (t.map fun kv => (Lab.handTap i + kv.1 - 1, kv.2)))
  else pure ([], [])

/-- Checks one instance after the other; a refused one keeps its code. -/
def checkInstances (s : State) (q : Nat) (e : Env) (a : Acc) (d x : List Byte) (hits : Nat) :
    List Nat → Chk (List (Nat × Nat × Nat) × Tab (List Byte) × Tab Nat)
  | [] => pure ([], [], [])
  | i :: is => do
    let r ← Chk.attempt (checkInstance s q e a d x hits i)
    let (ins, recs, nums) ← checkInstances s q e a d x hits is
    match r with
    | .ok (rs, ns) => pure ((i, 0, 0) :: ins, rs ++ recs, ns ++ nums)
    | .error c => pure ((i, c.1, c.2) :: ins, recs, nums)

/-- Sorts a table's entries by key. -/
def sortTab {α : Type} (t : Tab α) : Tab α := t.foldl (fun acc kv => tput acc kv.1 kv.2) []

/-- The fabric of a class 0x01 descriptor. -/
def State.fabric (s : State) (bass : Bool) : Fabric := if bass then s.bass else s.treble

/-- The dispatch checks of class 0x01 (03 R90, R96). Two choices of the model (DESIGN CHOICE, log entry 64): in row 3 a course
count of codes 5 to 7 is 2 to the code, so BAD_TARGET can come before row 6 refuses the code; and the D pitch of a hand-off is
held against the row length of instance 0's hand-off descriptor, read without a trace, poisoned or not. -/
def checkSweep (s : State) (q : Nat) (e : Env) (a : Acc) (d : List Byte) : Chk Plan := do
  let f := s.fabric (swBass d)
  if operOf d = 2 then do
    Chk.row (anySet d 16 48) Code.rsvdSet
    Chk.row (2 ≤ fabricOf d || (!allCourses d && 2 ^ f.courses.toNat ≤ courseIndex d)) Code.badTarget
    pure (Plan.one [] [])
  else do
    let x ← Chk.recordIf q e a (swExt d != 0) (swExt d) 64
    let y ← Chk.recordIf q e a ((swStats d || swSymp d) && addrField x 56 != 0) (addrField x 56) 64
    Chk.row (sweepReserved d x y) Code.rsvdSet
    Chk.row (operOf d != 1) Code.badOpcode
    Chk.row (2 ≤ fabricOf d || (!allCourses d && 2 ^ swCode d ≤ courseIndex d)
      || (allCourses d && 4096 < signalIndex d + 2 ^ swCode d)) Code.badTarget
    let bass := swBass d
    Chk.row (sweepFormatBad bass d x y) Code.badFormat
    Chk.row ((swStats d && !bass) || (swAccum d && swOut d == 2)) Code.badOption
    let hits := reuseHits f d
    let hand ← if swOut d = 2 then Chk.probe (readBytes e a (addrField d 32) 64) else pure none
    Chk.row (sweepShapeBad bass d x y hits (hand.map (·.1))) Code.badShape
    Chk.row (sweepAlignBad d x y) Code.badAlign
    let is := if allCourses d then List.range (2 ^ swCode d) else [0]
    let (ins, recs, nums) ← checkInstances s q e a d x hits is
    pure ⟨sortTab ((Lab.ext, x) :: (Lab.aux, y) :: recs), sortTab ((Lab.hits, hits) :: nums), ins⟩

/-! ### The work of an instance -/

/-- An instance's operands as the descriptor, the extension and the auxiliary record give them (03 R81, R97; 04 R119;
07 R197). -/
structure SweepJob where
  d : List Byte
  x : List Byte
  y : List Byte
  bass : Bool
  i : Nat
  course : Nat
  hits : Nat
  fa : Fmt
  fb : Fmt

/-- The job of an instance. -/
def sweepJob (o : Op) (i : Nat) : SweepJob :=
  { d := o.desc, x := o.record Lab.ext, y := o.record Lab.aux, bass := swBass o.desc, i := i,
    course := instCourse o.desc i, hits := o.num Lab.hits,
    fa := (Fmt.ofCode (swFa o.desc)).getD .t4, fb := (Fmt.ofCode (swFb o.desc)).getD .t4 }

namespace SweepJob

/-- Reverse orientation. -/
def reverse (j : SweepJob) : Bool := swReverse j.d j.hits j.course

/-- The REUSE hits. -/
def hit (j : SweepJob) : Bool := bit j.hits j.course

/-- A as it is stored. -/
def matA (j : SweepJob) : Mat :=
  let t := swTransA j.d
  let rows := if t then swK j.d else swM j.d
  let len := if t then swM j.d else swK j.d
  { addr := addrField j.d 16 + 64 * j.i * field j.x 40 4, pitch := pitchOf (field j.x 0 4) j.fa len, fmt := j.fa,
    rows := rows, len := len, list := addrField j.x 24 }

/-- B as it is stored. -/
def matB (j : SweepJob) : Mat :=
  let t := swTransB j.d
  let rows := if t then swN j.d else swK j.d
  let len := if t then swK j.d else swN j.d
  { addr := addrField j.d 24 + 64 * j.i * field j.x 44 4, pitch := pitchOf (field j.x 4 4) j.fb len, fmt := j.fb,
    rows := rows, len := len, list := addrField j.x 32 }

/-- D's format for output codes 0 and 1. -/
def dFmt (j : SweepJob) : Fmt := if swOut j.d = 1 then .bf16 else .f32

/-- D as it is stored, for output codes 0 and 1. -/
def matD (j : SweepJob) : Mat :=
  { addr := addrField j.d 32 + 64 * j.i * field j.x 48 4, pitch := pitchOf (field j.x 8 4) j.dFmt (swN j.d), fmt := j.dFmt,
    rows := swM j.d, len := swN j.d, list := 0 }

/-- U of the correction. -/
def matU (j : SweepJob) : Mat :=
  let f := (Fmt.ofCode (sympFmt j.y false)).getD .e4m3
  { addr := addrField j.y 0 + 64 * j.i * field j.y 25 3, pitch := pitchOf (field j.y 16 4) f (sympRank j.y), fmt := f,
    rows := swM j.d, len := sympRank j.y, list := 0 }

/-- V of the correction. -/
def matV (j : SweepJob) : Mat :=
  let f := (Fmt.ofCode (sympFmt j.y true)).getD .e4m3
  { addr := addrField j.y 8 + 64 * j.i * field j.y 28 3, pitch := pitchOf (field j.y 20 4) f (swN j.d), fmt := f,
    rows := sympRank j.y, len := swN j.d, list := 0 }

/-- The vectors of row and column statistics (07 R197). -/
def statVec (j : SweepJob) (cols : Bool) : Mat :=
  let base := if cols then addrField j.y 40 + 64 * j.i * field j.y 51 3 else addrField j.y 32 + 64 * j.i * field j.y 48 3
  let len := if cols then swN j.d else swM j.d
  { addr := base, pitch := 64 * Fmt.f32.linesPerRow len, fmt := .f32, rows := 1, len := len, list := 0 }

/-- The lock job of a hand-off, from the records read at dispatch (03 R71, 04 R103). -/
def lock (j : SweepJob) (o : Op) : ConvJob :=
  let h := o.record (Lab.handoff j.i)
  let f := (Fmt.ofCode (lockTarget h)).getD .t4
  let n := o.nums
  let sel : Select := ⟨BitVec.ofNat 128 (tget 0 n (Lab.handTap j.i)), BitVec.ofNat 32 (tget 0 n (Lab.handTap j.i + 1)),
    tget 0 n (Lab.handTap j.i + 2)⟩
  lockJob h (o.record (Lab.handTensor j.i)) (o.record (Lab.handHeader j.i)) sel (swM j.d) (swN j.d)
    (pitchOf (field j.x 8 4) f (swN j.d))

/-- K exceeds one tile (03 R94). -/
def chunked (j : SweepJob) : Bool :=
  decide ((tileShape j.bass (swCode j.d) (pairP j.bass j.fa j.fb) j.reverse).1 < swK j.d)

/-- The scratch lines (03 R94). -/
def scratchLines (j : SweepJob) : List Wr :=
  if !j.chunked then []
  else
    let off := field j.x 12 4
    let first := off / 64
    let n := ceilDiv (off % 64 + 512 * swM j.d) 64
    (outputEdge j.bass (swCode j.d) j.course j.reverse).flatMap fun c =>
      (List.range n).map fun k => .scratch (berthBase + c * 2 ^ 15 + first + k)

end SweepJob

/-- The masked rows (03 R88): a line of the vector that reads poisoned masks none of its rows. -/
def readMask (e : Env) (a : Acc) (j : SweepJob) : M (List Bool) :=
  if !swMask j.d then pure (List.replicate (swM j.d) false)
  else do
    let ls ← readLines e a (addrField j.x 16) (ceilDiv (swM j.d) 512)
    pure ((List.range (swM j.d)).map fun m =>
      let l := ls.getD (m / 512) LineIn.bad
      !l.poison && bit (l.payload.getD (m % 512 / 8) 0).toNat (m % 8))

/-- The mask, or no row masked where it cannot be read: the rows that a fault poisons. -/
def maskOr (e : Env) (a : Acc) (j : SweepJob) : M (List Bool) := do
  match ← M.attempt (readMask e a j) with
  | .ok m => pure m
  | .error _ => pure (List.replicate (swM j.d) false)

/-- A's elements by row m; a masked row is not read (03 R88). -/
def readA (e : Env) (a : Acc) (j : SweepJob) (mask : List Bool) : M (List (List FV) × MatIn) := do
  let t := swTransA j.d
  let per := j.fa.perLine
  let need : Nat → Nat → Bool := fun r l =>
    if t then (List.range (min per (swM j.d - l * per))).any fun p => !(mask.getD (l * per + p) false)
    else !(mask.getD r false)
  let x ← readMat e a j.matA need
  pure ((List.range (swM j.d)).map fun m =>
    if mask.getD m false then [] else (List.range (swK j.d)).map fun k => x.at_ t m k, x)

/-- A matrix stored as `rows` of `len`, transposed. -/
def transposed (x : List (List FV)) (rows len : Nat) : List (List FV) :=
  (List.range len).map fun c => (List.range rows).map fun r => (x.getD r []).getD c .nan

/-- The tile that a sweep leaves when it loaded B (03 R87). -/
def tileAfter (j : SweepJob) (b : List (List FV)) : Option Tile :=
  if swRetain j.d then
    let (kc, nc) := tileShape j.bass (swCode j.d) (pairP j.bass j.fa j.fb) false
    some ⟨BitVec.ofNat 16 (swTag j.d), swK j.d, swN j.d, j.fb, decide (swK j.d ≤ kc) && decide (swN j.d ≤ nc), b.flatten⟩
  else none

/-- The B elements of a retained tile, as K rows of N (03 R86). -/
def tileB (t : Tile) (trans : Bool) : List (List FV) :=
  let w := chunksOf t.n0 t.k0 t.elems
  if trans then transposed w t.k0 t.n0 else w

/-- The event counts of a fabric. -/
def arithEvents (bass : Bool) (ev : ArithEv) : List (Nat × Nat) :=
  ([(Evt.productOvf, ev.po), (Evt.productFlush, ev.pf), (Evt.accOvf, ev.ao), (Evt.accFlush, ev.af)].filter
    fun x => x.2 != 0).map fun x => (Evt.fab bass x.1, x.2)

/-- Row statistics (07 R196): the sums of squares along a list, from a start value. -/
def squares (start : FV) (xs : List FV) : FV := xs.foldl (fun r x => f32Add r (f32Mul x x)) start

/-- The statistics vectors of an instance (07 R196, R198). -/
def statWrites (e : Env) (a : Acc) (j : SweepJob) (acc : List (Option (List FV))) : M (List Wr) :=
  if !swStats j.d then pure []
  else do
    let from_ (v : Mat) : M (List FV) :=
      if bit (field j.y 54 1) 0 then (do let x ← readMat e a v (fun _ _ => true); pure (x.rows.getD 0 []))
      else pure (List.replicate v.len .zero)
    let rs0 ← from_ (j.statVec false)
    let cs0 ← from_ (j.statVec true)
    let rs := (acc.zipIdx).map fun ri => match ri.1 with
      | none => rs0.getD ri.2 .zero
      | some xs => squares (rs0.getD ri.2 .zero) xs
    let live := acc.filterMap id
    let cs := (List.range (swN j.d)).map fun n => squares (cs0.getD n .zero) (live.map fun r => r.getD n .nan)
    let side := List.replicate 5 0 ++ sideId (field j.y 55 1) (field j.y 56 2)
    let w1 ← putLines e a (j.statVec false).addr (wideRow .f32 false side rs) false
    let w2 ← putLines e a (j.statVec true).addr (wideRow .f32 false side cs) false
    pure (w1 ++ w2)

/-- The accumulators of the unmasked rows (03 R63, R69, R70), with their events. -/
def accumulators (j : SweepJob) (mask : List Bool) (am : List (List FV)) (bt : List (List FV))
    (c : Option (List (List FV))) (uv : Option (List (List FV) × List (List FV))) : List (Option (List (FV × ArithEv))) :=
  (List.range (swM j.d)).map fun m =>
    if mask.getD m false then none
    else some ((List.range (swN j.d)).map fun n =>
      outputElement j.fa.narrow (swL j.d) (List.zip (am.getD m []) (bt.getD n []))
        (c.map fun c => (c.getD m []).getD n .nan)
        (uv.map fun uv => List.zip (uv.1.getD m []) (uv.2.map fun r => r.getD n .nan)))

/-- The output of an instance: D's rows, or the hand-off to the lock units (03 R71, R88; 04 R103). -/
def outputWrites (e : Env) (a : Acc) (o : Op) (j : SweepJob) (acc : List (Option (List FV))) :
    M (List Wr × List Wr × List (Nat × Nat)) :=
  let zf := swZero j.d
  if swOut j.d = 2 then
    convRows e a (j.lock o) (fun _ => none) true (acc.map fun r => match r with
      | some xs => .vals xs
      | none => if zf then .zero else .skip)
  else do
    let d := j.matD
    let ws ← (acc.zipIdx).mapM fun ri => match ri.1 with
      | some xs => putLines e a (d.addr + ri.2 * d.pitch) (wideRow d.fmt (swSat j.d) (List.replicate 8 0) xs) false
      | none =>
        if zf then putLines e a (d.addr + ri.2 * d.pitch)
          (wideRow d.fmt false (List.replicate 8 0) (List.replicate (swN j.d) .zero)) false
        else pure []
    pure (ws.flatten, [], [])

/-- The arithmetic and the writes of an instance that meets no fault. A sweep without an unmasked row, or with M = 0, reads and
loads B all the same, with the events, faults and tile of that (DESIGN CHOICE, log entry 64). -/
def sweepCompute (e : Env) (a : Acc) (o : Op) (j : SweepJob) (tile : Option Tile) : M (List Wr × Effects) := do
  let d := j.d
  let mask ← readMask e a j
  let (am, ax) ← readA e a j mask
  let (b, bev, brec) ←
    match if j.hit then tile else none with
    | some t => pure (tileB t (swTransB d), [], [])
    | none => do
      let x ← readMat e a j.matB (fun _ _ => true)
      let (ev, rc) ← matEvents e a x
      pure (if swTransB d then transposed x.rows (swN d) (swK d) else x.rows, ev, rc)
  let (aev, arec) ← matEvents e a ax
  let live : Nat → Nat → Bool := fun r _ => !(mask.getD r false)
  let c ← if swAccum d then (do let x ← readMat e a j.matD live; pure (some x.rows)) else pure none
  let (uv, uev, urec) ←
    if swSymp d then do
      let u ← readMat e a j.matU live
      let v ← readMat e a j.matV (fun _ _ => true)
      let (e1, r1) ← matEvents e a u
      let (e2, r2) ← matEvents e a v
      pure (some (u.rows, v.rows), e1 ++ e2, r1 ++ r2)
    else pure (none, [], [])
  let acc := accumulators j mask am (transposed b (swK d) (swN d)) c uv
  let ev := acc.foldl (fun s r => match r with
    | none => s
    | some xs => xs.foldl (fun s x => s.add x.2) s) ArithEv.zero
  let vals := acc.map fun r => r.map fun xs => xs.map (·.1)
  let (ws, recs, lev) ← outputWrites e a o j vals
  let sw ← statWrites e a j vals
  let loaded := !j.hit && swK d != 0 && swN d != 0
  let bass := if j.bass then 1 else 0
  pure (j.scratchLines ++ ws ++ sw,
    { evts := arithEvents j.bass ev ++ aev ++ bev ++ uev ++ lev
        ++ (if swReuse d && !j.hit then [(Evt.fab j.bass Evt.reuseMiss, 1)] else [])
      recs := recs ++ arec ++ brec ++ urec
      loss := []
      tiles := if loaded then [(bass, j.course, tileAfter j b)] else []
      faulted := none
      xf := none })

/-- Poisoned lines of wide values at consecutive lines, where they still translate (03 R91, 07 R200). -/
def poisonWide (e : Env) (a : Acc) (f : Fmt) (addr n : Nat) : M (List Wr) := do
  let ws ← (List.range n).mapM fun i => do
    match ← M.attempt (translate e a true (addr + 64 * i)) with
    | .ok x => pure [Wr.whole (x / 64) (poisonedWide f) true]
    | .error _ => pure []
  pure ws.flatten

/-- The containment of a faulted instance (03 R91, R200). -/
def sweepPoison (e : Env) (a : Acc) (o : Op) (j : SweepJob) (code va : Nat) (xf : Option (XfKind × Nat)) : M Work := do
  let mask ← maskOr e a j
  let rows := (List.range (swM j.d)).filter fun m => !(mask.getD m false) || swZero j.d
  let ws ← if swOut j.d = 2 then
      let l := j.lock o
      poisonRows e a l.p.target l.dest l.pitch l.len rows
    else do
      let d := j.matD
      let ws ← rows.mapM fun r => poisonWide e a d.fmt (d.addr + r * d.pitch) (d.fmt.linesPerRow d.len)
      pure ws.flatten
  let sw ← if swStats j.d then do
      let w1 ← poisonWide e a .f32 (j.statVec false).addr (Fmt.f32.linesPerRow (swM j.d))
      let w2 ← poisonWide e a .f32 (j.statVec true).addr (Fmt.f32.linesPerRow (swN j.d))
      pure (w1 ++ w2)
    else pure []
  let f := if j.bass then 1 else 0
  pure ⟨j.scratchLines ++ ws ++ sw,
    { Effects.none with
      evts := [(Evt.fab j.bass Evt.sweepFault, 1)]
      tiles := [(f, j.course, none)]
      faulted := some (f, j.course)
      xf := xf }, code, va⟩

/-- The work of an instance of a SWEEP: its result, or the containment of its translation fault. -/
def sweepWork (e : Env) (a : Acc) (o : Op) (j : SweepJob) (tile : Option Tile) : M Work := do
  match ← M.attempt (sweepCompute e a o j tile) with
  | .ok (ws, eff) => pure ⟨ws, eff, 0, 0⟩
  | .error f => sweepPoison e a o j Code.xlateFault f.2 (some f)

end Sys2Proof.Machine
end

