-- ==== Sys2Proof/Machine/Strings.lean ====
section
/-!
DEFINITION. String programs (06 R178 to R193): the program image, function tables, the passes over a row with their
reductions, the epilogue, the dispatch checks, and the loss accumulator.
-/

namespace Sys2Proof.Machine

/-! ### The program image (06 R178, R180) -/

/-- A string instruction. -/
structure StrInstr where
  op : Nat
  d : Nat
  a : Nat
  b : Nat
  rsvd : Nat
  imm : Nat
deriving DecidableEq, Repr

/-- Decodes 8 bytes. -/
def StrInstr.of (w : Nat) : StrInstr :=
  ⟨bits w 7 0, bits w 12 8, bits w 17 13, bits w 22 18, bits w 31 23, bits w 63 32⟩

/-- The instruction writes d. -/
def StrInstr.writesD (i : StrInstr) : Bool := (decide (1 ≤ i.op) && decide (i.op ≤ 0x12)) || i.op == 0x1A

/-- Allowed in element passes only. -/
def StrInstr.elementOnly (i : StrInstr) : Bool := decide (0x12 ≤ i.op) && decide (i.op ≤ 0x15) || i.op == 0x18 || i.op == 0x19

/-- Allowed in the epilogue only. -/
def StrInstr.epilogueOnly (i : StrInstr) : Bool := i.op == 0x16 || i.op == 0x17

/-- A program: its element passes and its epilogue. -/
structure StrProg where
  passes : List (List StrInstr)
  epi : Option (List StrInstr)
deriving DecidableEq, Repr

/-- Cuts instructions, END excluded, into passes and epilogue. `cur` is the pass in work, reversed. -/
def cutPasses : List StrInstr → List StrInstr → List (List StrInstr) → StrProg
  | [], cur, done => ⟨done ++ [cur.reverse], none⟩
  | i :: rest, cur, done =>
    if i.op = 0x18 then cutPasses rest [] (done ++ [cur.reverse])
    else if i.op = 0x19 then ⟨done ++ [cur.reverse], some rest⟩
    else cutPasses rest (i :: cur) done

/-- The instructions before the first END; none without an END. -/
def beforeEnd : List StrInstr → Option (List StrInstr)
  | [] => none
  | i :: rest => if i.op = 0 then some [] else (beforeEnd rest).map (i :: ·)

/-- The first END itself. -/
def endOf (is : List StrInstr) : List StrInstr := (is.find? fun i => i.op == 0).toList

/-- An instruction by itself fails row 5 of 06 R191, END among them; `draws` is d of the parameter record. -/
def StrInstr.bad (draws : Nat) (table : Bool) (i : StrInstr) : Bool :=
  decide (0x1A < i.op) || i.rsvd != 0
    || (i.writesD && decide (15 < i.d)) || decide (23 < i.a) || decide (23 < i.b)
    || (i.op == 0x12 && decide (draws ≤ i.imm % 16)) || ((i.op == 0x10 || i.op == 0x11) && !table)

/-- The row register of a reduction. -/
def StrInstr.reduces (i : StrInstr) : Option Nat := if i.op = 0x13 ∨ i.op = 0x14 then some (i.imm % 8) else none

/-- Some value occurs twice. -/
def hasTwice : List Nat → Bool
  | [] => false
  | x :: xs => xs.contains x || hasTwice xs

/-- A program fails row 5 of 06 R191: all its instructions as far as END, and END itself. -/
def progBad (draws : Nat) (table : Bool) (image : List StrInstr) : Bool :=
  match beforeEnd image with
  | none => true
  | some is =>
    let p := cutPasses is [] []
    decide (255 < is.length) || (is ++ endOf image).any (StrInstr.bad draws table) || decide (4 < p.passes.length)
      || p.passes.any (fun ps => ps.any (·.epilogueOnly) || hasTwice (ps.filterMap (·.reduces)))
      || (p.epi.getD []).any (·.elementOnly)

/-! ### Function tables (06 R186, R187) -/

/-- The value of a binary32 field. -/
def f32At (bs : List Byte) (off : Nat) : FV := decode32 (field bs off 4)

/-- A table: its header line and the bytes of its entries. -/
structure FnTable where
  head : List Byte
  entries : List Byte

/-- The forward or the derivative table of an image (06 R186). -/
def fnTable (image : List Byte) (derivative : Bool) : FnTable :=
  let base := if derivative then 65 * 64 else 0
  ⟨slice image base 64, slice image (base + 64) (64 * 64)⟩

/-- A header that fails 06 R188. -/
def FnTable.bad (t : FnTable) : Bool :=
  let lo := f32At t.head 0
  let hi := f32At t.head 4
  let inv := f32At t.head 8
  let fin (x : FV) : Bool := !x.isNaN && !x.isInf
  !(fin lo && fin hi && FV.lt lo hi && fin inv && FV.lt .zero inv)

/-- The line beyond a table's end, its slope given as the table's word: an infinite x asks for the sign of whatever is not
zero (06 R187). -/
def tableEdge (x : FV) (slope : Nat) (b : FV) : FV :=
  let s := decode32 slope
  if x.isInf then if s.isZero then b else .inf (bit slope 31 != x.sign) else fma32 s x b

/-- table_eval of 06 R187. -/
def tableEval (t : FnTable) (x : FV) : FV :=
  let h := f32At t.head
  if x.isNaN then .nan
  else if FV.lt x (h 0) then tableEdge x (field t.head 12 4) (h 16)
  else if FV.le (h 4) x then tableEdge x (field t.head 20 4) (h 24)
  else
    let u := f32Mul (f32Sub x (h 0)) (h 8)
    let i := if u.isInf then 255 else min 255 u.trunc
    let v := f32Sub u (.ofNat i)
    let c (k : Nat) : FV := f32At t.entries (16 * i + 4 * k)
    fma32 (fma32 (c 2) v (c 1)) v (c 0)

/-! ### Elements, rows and reductions -/

/-- What an element's instructions have done so far: registers, reductions supplied, outputs written, row-vector output,
losses. -/
structure ElemState where
  r : List FV
  reds : List (Nat × Bool × FV)
  out0 : Option FV
  out1 : Option FV
  stq : Option FV
  losses : List FV

/-- An operand: a string register or a row register. -/
def operand (st : ElemState) (q : List FV) (c : Nat) : FV := if c < 16 then st.r.getD c .zero else q.getD (c - 16) .zero

/-- 1.0 or +0. -/
def truth (b : Bool) : FV := if b then .one else .zero

/-- One instruction (06 R180). `rand` gives the word of a RAND's ordinal. -/
def execStr (fwd der : FnTable) (q : List FV) (rand : Nat → Word) (st : ElemState) (i : StrInstr) : ElemState :=
  let a := operand st q i.a
  let b := operand st q i.b
  let set (v : FV) : ElemState := { st with r := st.r.set i.d v }
  match i.op with
  | 0x01 => set (f32Add a b)
  | 0x02 => set (f32Sub a b)
  | 0x03 => set (f32Mul a b)
  | 0x04 => set (fma32 a b (st.r.getD i.d .zero))
  | 0x05 => set (max32 a b)
  | 0x06 => set (min32 a b)
  | 0x07 => set a.neg
  | 0x08 => set a.abs
  | 0x09 => set (decode32 i.imm)
  | 0x0A => set (truth (FV.lt a b))
  | 0x0B => let d := st.r.getD i.d .zero; set (if d.isZero || d.isNaN then b else a)
  | 0x0C => set (exp2 a)
  | 0x0D => set (log2 a)
  | 0x0E => set (rcp a)
  | 0x0F => set (rsq a)
  | 0x10 => set (tableEval fwd a)
  | 0x11 => set (tableEval der a)
  | 0x12 => set (decode32 (uniformFloat (rand (i.imm % 16))))
  | 0x13 => { st with reds := st.reds ++ [(i.imm % 8, false, a)] }
  | 0x14 => { st with reds := st.reds ++ [(i.imm % 8, true, a)] }
  | 0x15 => if i.imm % 2 = 0 then { st with out0 := some a } else { st with out1 := some a }
  | 0x16 => { st with stq := some a }
  | 0x17 => if b.isZero || b.isNaN then st else { st with losses := st.losses ++ [a] }
  | 0x1A => set (truth (FV.eq a b))
  | _ => st

/-- Combines neighbours: one level of the tree of 06 R182. -/
def pairUp (op : FV → FV → FV) : List FV → List FV
  | [] => []
  | [x] => [x]
  | x :: y :: rest => op x y :: pairUp op rest

/-- The tree of 06 R182 over at most 128 values: seven levels. -/
def treeOf (op : FV → FV → FV) : Nat → List FV → List FV
  | 0, xs => xs
  | n + 1, xs => treeOf op n (pairUp op xs)

/-- A row reduction (06 R182). -/
def rowReduce (isMax : Bool) (vs : List FV) : FV :=
  let op := if isMax then max32 else f32Add
  let nodes := (chunksOf 128 vs.length vs).map fun g => (treeOf op 7 g).headD .zero
  match nodes with
  | [] => .zero
  | n :: rest => rest.foldl op n

/-- What a row's passes have done so far. -/
structure RowState where
  q : List FV
  out0 : Option (List FV)
  out1 : Option (List FV)

/-- The state of an element at the start of a pass (06 R179). -/
def elemStart (x0 x1 x2 r4 : FV) (col : Nat) : ElemState :=
  ⟨[x0, x1, x2, .ofNat col, r4] ++ List.replicate 11 .zero, [], none, none, none, []⟩

/-- The random word of a draw: row, column, place of the RAND in its program (256 × pass + instruction), ordinal. -/
abbrev Draw := Nat → Nat → Nat → Nat → Word

/-- One pass over a row. -/
def runPass (fwd der : FnTable) (x0 x1 x2 : List FV) (r4 : FV) (cols : Nat) (rand : Draw) (row pass : Nat) (rs : RowState)
    (is : List StrInstr) : RowState :=
  let es := (List.range cols).map fun c =>
    is.zipIdx.foldl (fun st i => execStr fwd der rs.q (rand row c (256 * pass + i.2)) st i.1)
      (elemStart (x0.getD c .zero) (x1.getD c .zero) (x2.getD c .zero) r4 c)
  let q := ((is.filterMap fun i => i.reduces.map fun k => (k, i.op == 0x14)).zipIdx).foldl (fun q ki =>
    q.set ki.1.1 (rowReduce ki.1.2 (es.map fun e => ((e.reds.getD ki.2 (0, false, .zero)).2.2)))) rs.q
  let writes (o : Nat) : Bool := is.any fun i => i.op == 0x15 && i.imm % 2 == o
  { q := q
    out0 := if writes 0 then some (es.map fun e => e.out0.getD .zero) else rs.out0
    out1 := if writes 1 then some (es.map fun e => e.out1.getD .zero) else rs.out1 }

/-- All passes of a row, in order. -/
def runPasses (fwd der : FnTable) (x0 x1 x2 : List FV) (r4 : FV) (cols : Nat) (rand : Draw) (row : Nat) : List (List StrInstr) → Nat → RowState → RowState
  | [], _, rs => rs
  | is :: rest, p, rs =>
    runPasses fwd der x0 x1 x2 r4 cols rand row rest (p + 1) (runPass fwd der x0 x1 x2 r4 cols rand row p rs is)

/-- The epilogue of a row. -/
def runEpilogue (fwd der : FnTable) (r4 : FV) (q : List FV) (is : List StrInstr) : ElemState :=
  is.foldl (execStr fwd der q fun _ => 0)
    ⟨(List.replicate 4 .zero) ++ [r4] ++ List.replicate 11 .zero, [], none, none, none, []⟩

/-! ### RUN: fields, checks -/

/-- Rows. -/
def runRows (d : List Byte) : Nat := field d 32 3
/-- Columns. -/
def runCols (d : List Byte) : Nat := field d 35 3
/-- Input i's address. -/
def runInput (p : List Byte) (i : Nat) : Nat := addrField p (8 * i)
/-- Output o's address. -/
def runOutput (p : List Byte) (o : Nat) : Nat := addrField p (24 + 8 * o)
/-- Row-vector input. -/
def runVecIn (p : List Byte) : Nat := addrField p 40
/-- Row-vector output. -/
def runVecOut (p : List Byte) : Nat := addrField p 48
/-- Function table. -/
def runTable (p : List Byte) : Nat := addrField p 56
/-- Bollard list of input i. -/
def runList (p : List Byte) (i : Nat) : Nat := addrField p (64 + 8 * i)
/-- A format code: inputs 0 to 2, outputs 3 and 4. -/
def runFmt (p : List Byte) (i : Nat) : Nat := bits (field p 88 2) (3 * i + 2) (3 * i)
/-- Draws per element. -/
def runDraws (p : List Byte) : Nat := bits (field p 93 1) 3 0 + 1
/-- FREE. -/
def runFree (p : List Byte) : Bool := bit (field p 93 1) 4

/-- Labels of a RUN's records: parameters, program, function tables; of its numbers: geometry and fabric's clusters. -/
abbrev Lab.params : Nat := 1
/-- Program. -/
abbrev Lab.program : Nat := 2
/-- Function tables. -/
abbrev Lab.table : Nat := 3
/-- The course-count code in force at its dispatch (16 R461). -/
abbrev Lab.geometry : Nat := 1

/-- The instructions of an image. -/
def instrsOf (image : List Byte) : List StrInstr := (List.range (image.length / 8)).map fun i => .of (field image (8 * i) 8)

/-- Reads a program image as far as its END, line by line, at most 32 lines (06 R178, R191). -/
def readProgram (q : Nat) (e : Env) (a : Acc) (va : Nat) : Nat → List Byte → Chk (List Byte)
  | 0, acc => pure acc
  | n + 1, acc => do
    let l ← Chk.record q e a (va + acc.length) 64
    let acc := acc ++ l
    if (instrsOf l).any fun i => i.op == 0 then pure acc else readProgram q e a va n acc

/-- A function-table image: a poisoned line gives NaN in every field (06 R191). -/
def readTable (q : Nat) (e : Env) (a : Acc) (va : Nat) : Chk (List Byte) := do
  let ls ← Chk.access q (readLines e a va 130)
  pure (ls.flatMap fun l => if l.poison then Fmt.f32.pack (List.replicate 16 0x7FC00000) else l.payload)

/-- Row 1 of 06 R191. -/
def runReserved (d p : List Byte) : Bool :=
  addrTop d 16 != 0 || addrTop d 24 != 0 || bits (field d 38 1) 7 5 != 0 || anySet d 39 25
    || ((List.range 11).any fun i => addrTop p (8 * i) != 0)
    || bits (field p 93 1) 7 5 != 0 || anySet p 94 2 || anySet p 124 4

/-- The clusters that a RUN's target selects under a geometry (06 R190). -/
def runClusters (d : List Byte) (code : Nat) (absent : Nat → Bool) : List Nat :=
  if 2 ≤ fabricOf d then serviceClusters.filter fun n => !absent n
  else if allCourses d then courseClusters (swBass d) 0 0
  else courseClusters (swBass d) code (courseIndex d)

/-- Row 7: an address not a multiple of 64. -/
def runAlignBad (d p : List Byte) : Bool :=
  addrField d 16 % 64 != 0 || addrField d 24 % 128 != 0 || (List.range 11).any fun i => addrField p (8 * i) % 64 != 0

/-- Row 4, formats: those of present inputs and outputs, which an absent one has not (06 R191; DEDUCED, log entry 66). -/
def runFormatBad (p : List Byte) : Bool :=
  ((List.range 3).any fun i => runInput p i != 0 && decide (4 < runFmt p i))
    || ((List.range 2).any fun o => runOutput p o != 0 && runFmt p (3 + o) != 3 && runFmt p (3 + o) != 4)

/-- A program that draws. -/
def progDraws (is : List StrInstr) : Bool := is.any fun i => i.op == 0x12

/-- The dispatch checks of class 0x04 (06 R191). -/
def checkRun (s : State) (q : Nat) (e : Env) (a : Acc) (d : List Byte) : Chk Plan := do
  let p ← Chk.record q e a (addrField d 24) 128
  Chk.row (runReserved d p) Code.rsvdSet
  Chk.row (operOf d != 1) Code.badOpcode
  let code := (s.fabric (swBass d)).courses.toNat
  Chk.row (decide (fabricOf d < 2) && !allCourses d && decide (2 ^ code ≤ courseIndex d)) Code.badTarget
  Chk.row (runFormatBad p) Code.badFormat
  let t ← if runTable p = 0 then pure [] else readTable q e a (runTable p)
  Chk.row (runTable p != 0 && ((fnTable t false).bad || (fnTable t true).bad)) Code.badFormat
  let img ← readProgram q e a (addrField d 16) 32 []
  let is := beforeEnd (instrsOf img)
  Chk.row (progBad (runDraws p) (runTable p != 0) (instrsOf img)) Code.badProgram
  Chk.row (runRows d == 0 || runCols d == 0) Code.badShape
  Chk.row (runAlignBad d p) Code.badAlign
  let cs := runClusters d code e.absent
  Chk.row (cs.isEmpty || cs.any e.absent) Code.clusterAbsent
  Chk.row (cs.any fun n => e.isOff (clusterDom n)) Code.domainOff
  Chk.block (cs.any fun n => e.mustWake (clusterDom n))
  Chk.row (runFree p && progDraws (is.getD []) && !s.rng.seeded) Code.noEntropy
  pure (Plan.one [(Lab.params, p), (Lab.program, img), (Lab.table, t)] [(Lab.geometry, code)])

/-! ### The work of a RUN -/

/-- An input as a matrix: packed rows, with its list (06 R190). -/
def runMat (o : Op) (i : Nat) : Mat :=
  let p := o.record Lab.params
  let f := (Fmt.ofCode (runFmt p i)).getD .f32
  let cols := runCols o.desc
  ⟨runInput p i, 64 * f.linesPerRow cols, f, runRows o.desc, cols, runList p i⟩

/-- The elements of an input, as binary32 (06 R179), or none when it is absent. -/
def readInput (e : Env) (a : Acc) (o : Op) (i : Nat) : M (List (List FV) × List (Nat × Nat) × List Wr) := do
  let m := runMat o i
  if m.addr = 0 then pure ([], [], [])
  else do
    let x ← readMat e a m (fun _ _ => true)
    let (ev, rc) ← matEvents e a x
    pure (x.rows.map fun r => r.map widen32, ev, rc)

/-- A row vector: packed binary32. -/
def vecMat (addr rows : Nat) : Mat := ⟨addr, 64 * Fmt.f32.linesPerRow rows, .f32, 1, rows, 0⟩

/-- The random word of a draw (06 R184, 05 R145, R147): a keyed draw goes by its ordinal, a free-running one by its place, so
that each is a draw of its own. -/
def runWord (s : State) (o : Op) (row col place j : Nat) : Word :=
  let p := o.record Lab.params
  let f := if runInput p 0 = 0 then Fmt.f32 else (Fmt.ofCode (runFmt p 0)).getD .f32
  let e := row * (f.linesPerRow (runCols o.desc) * f.perLine) + col
  if runFree p then
    s.rng.freeWord s.boot (runClusters o.desc (o.num Lab.geometry) s.absent) o.id (1024 * e + place)
  else
    keyedWord (BitVec.ofNat 128 (field p 96 16)) (BitVec.ofNat 32 (field p 112 4))
      (BitVec.ofNat 64 (field p 116 8 + e * runDraws p + j))

/-- The row outcomes of a program: outputs, row-vector value, losses. -/
def runRowsOf (s : State) (o : Op) (x0 x1 x2 : List (List FV)) (vec : List FV) : List (RowState × ElemState) :=
  let p := o.record Lab.params
  let prog := cutPasses ((beforeEnd (instrsOf (o.record Lab.program))).getD []) [] []
  let t := o.record Lab.table
  let fwd := fnTable t false
  let der := fnTable t true
  let _ := p
  (List.range (runRows o.desc)).map fun r =>
    let r4 := vec.getD r .zero
    let rs := runPasses fwd der (x0.getD r []) (x1.getD r []) (x2.getD r []) r4 (runCols o.desc) (runWord s o) r prog.passes 0
      ⟨List.replicate 8 .zero, none, none⟩
    (rs, runEpilogue fwd der r4 rs.q (prog.epi.getD []))

/-- The side bytes of output lines (06 R181). -/
def runSide (p : List Byte) : List Byte := List.replicate 5 0 ++ sideId (field p 90 1) (field p 91 2)

/-- Output o's lines. -/
def outWrites (e : Env) (a : Acc) (o : Op) (k : Nat) (rows : List (Option (List FV))) : M (List Wr) :=
  let p := o.record Lab.params
  if runOutput p k = 0 then pure []
  else do
    let f := if runFmt p (3 + k) = 3 then Fmt.bf16 else .f32
    let ws ← (rows.zipIdx).mapM fun ri =>
      putLines e a (runOutput p k + ri.2 * (64 * f.linesPerRow (runCols o.desc)))
        (wideRow f (bit (field p 88 2) 15) (runSide p) (ri.1.getD (List.replicate (runCols o.desc) .zero))) false
    pure ws.flatten

/-- A RUN that meets no fault: writes and effects (06 R181, R193). -/
def runCompute (s : State) (e : Env) (a : Acc) (o : Op) : M (List Wr × Effects) := do
  let p := o.record Lab.params
  let (x0, e0, r0) ← readInput e a o 0
  let (x1, e1, r1) ← readInput e a o 1
  let (x2, e2, r2) ← readInput e a o 2
  let vec ← if runVecIn p = 0 then pure []
    else (do let x ← readMat e a (vecMat (runVecIn p) (runRows o.desc)) (fun _ _ => true); pure (x.rows.getD 0 []))
  let rows := runRowsOf s o x0 x1 x2 vec
  let w0 ← outWrites e a o 0 (rows.map (·.1.out0))
  let w1 ← outWrites e a o 1 (rows.map (·.1.out1))
  let wv ← if runVecOut p = 0 then pure []
    else putLines e a (runVecOut p) (wideRow .f32 false (runSide p) (rows.map fun r => r.2.stq.getD .zero)) false
  let loss := if bit (field o.desc 38 1) 4 then
      rows.flatMap fun r => r.2.losses.map fun x => (bits (field o.desc 38 1) 3 0, BitVec.ofNat 32 (encode32 x))
    else []
  pure (w0 ++ w1 ++ wv,
    { Effects.none with evts := e0 ++ e1 ++ e2 ++ [(Evt.programsRun, 1)], recs := r0 ++ r1 ++ r2, loss := loss })

/-- The lines that a faulted RUN poisons (06 R191). -/
def runPoison (e : Env) (a : Acc) (o : Op) : M (List Wr) := do
  let p := o.record Lab.params
  let rows := runRows o.desc
  let out (k : Nat) : M (List Wr) :=
    let f := if runFmt p (3 + k) = 3 then Fmt.bf16 else .f32
    if runOutput p k = 0 then pure [] else poisonWide e a f (runOutput p k) (rows * f.linesPerRow (runCols o.desc))
  let w0 ← out 0
  let w1 ← out 1
  let wv ← if runVecOut p = 0 then pure [] else poisonWide e a .f32 (runVecOut p) (Fmt.f32.linesPerRow rows)
  pure (w0 ++ w1 ++ wv)

/-- The work of a RUN. -/
def runWork (s : State) (e : Env) (a : Acc) (o : Op) : M Work := do
  match ← M.attempt (runCompute s e a o) with
  | .ok (ws, eff) => pure ⟨ws, eff, 0, 0⟩
  | .error f => do
    let ws ← runPoison e a o
    pure ⟨ws, { Effects.none with evts := [(Evt.programFault, 1)], xf := some f }, Code.xlateFault, f.2⟩

/-! ### The loss accumulator (06 R192, R193) -/

/-- One contribution. -/
def Loss.contribute (l : Loss) (x : Word) : Loss :=
  let s := decode32 l.sum.toNat
  let c := decode32 l.comp.toNat
  let v := decode32 x.toNat
  let t := f32Add s v
  let c' := if FV.le v.abs s.abs then f32Add c (f32Add (f32Sub s t) v) else f32Add c (f32Add (f32Sub v t) s)
  ⟨BitVec.ofNat 32 (encode32 t), BitVec.ofNat 32 (encode32 c'), l.count + 1⟩

/-- A contribution that LOSS_NONFINITE counts. -/
def lossNonfinite (x : Word) : Bool := let v := decode32 x.toNat; v.isNaN || v.isInf

end Sys2Proof.Machine
end

