-- ==== Sys2Proof/Machine/Ahead.lean ====
section
/-!
DEFINITION. How the work of classes 0x01, 0x02 and 0x04 takes effect: as ordinary work, or running ahead with marks, undo
log and staged effects (04 R134 to R141); commit and squash; SWEEP, SWEEP_INSTANCE_FAULT, RELEASE, CONVERT and RUN.
-/

namespace Sys2Proof.Machine

/-- What a meaning answers. -/
abbrev Out : Type := Host.Outcome State Fault Refusal

/-- A command whose operand names no component of the module stops (00 R2). -/
def guarded (exists_ : Bool) (s : State) : Out := if exists_ then .next s else .fault .noSuchComponent

/-! ### RUNAHEAD_CFG_n and the undo log (04 R135, R141) -/

/-- Lines of log in use on a cluster: each logged line takes two. -/
def Data.logUsed (d : Data) (n : Nat) : Nat := 2 * (d.undo.filter fun u => lineCluster u.line = n).length

/-- RUNAHEAD_CFG_n. -/
def Data.ra (d : Data) (n : Nat) : RaCfg := tget .reset d.raCfg n

/-- Values written take effect where no log is in use (04 R141). -/
def Data.settleCfg (d : Data) : Data :=
  { d with raCfg := d.raCfg.map fun kv =>
      let used := d.logUsed kv.1
      let c := { kv.2 with used := BitVec.ofNat 16 used }
      (kv.1, if used = 0 then { c with effOffset := c.offset, effLines := c.lines } else c) }

/-- A line in the berth memory of a cluster whose LOG_LINES in force is nonzero (04 R134). -/
def Data.logged (d : Data) (l : Nat) : Bool := decide (berthBase ≤ l) && (d.ra (lineCluster l)).effLines != 0

/-- Room for one more entry in a cluster's log. -/
def Data.logRoom (d : Data) (l : Nat) : Bool :=
  decide (d.logUsed (lineCluster l) + 2 ≤ (d.ra (lineCluster l)).effLines.toNat)

/-- Copies a line to the undo log and marks it: the log's two lines hold open bytes (04 R135; log entry 9). A region that
passes the end of berth memory logs on, and its lines past the end are no lines (DESIGN CHOICE, log entry 63). -/
def Data.markLine (d : Data) (e : Env) (v l : Nat) : Data :=
  let n := lineCluster l
  let at_ := (d.ra n).effOffset.toNat + d.logUsed n
  let d := { d with undo := ⟨l, v, d.stored l⟩ :: d.undo, marks := tput d.marks l v }
  let d := d.settleCfg
  [at_, at_ + 1].foldl (fun d k => if k < 2 ^ 15 then d.write e (.scratch (berthBase + n * 2 ^ 15 + k)) else d) d

/-- Clears the marks and the log of a slot. -/
def Data.unmark (d : Data) (v : Nat) : Data :=
  { d with marks := d.marks.filter fun m => m.2 ≠ v, undo := d.undo.filter fun u => u.slot ≠ v }.settleCfg

/-- Restores the logged lines of a slot, newest entry first, and clears its marks (04 R138); a line of a log region keeps its
open bytes (R141). -/
def Data.rollBack (d : Data) (v : Nat) : Data :=
  ((d.undo.filter fun u => u.slot = v).foldl (fun d u => if d.inLog u.line then d else d.store u.line u.bytes) d).unmark v

/-- What one run-ahead write meets. -/
inductive AheadWrite where
  | made (d : Data)
  | stalls
  | waits

/-- One write of an operation running ahead (04 R135, R136). -/
def Data.writeAhead (d : Data) (e : Env) (v : Nat) (w : Wr) : AheadWrite :=
  match (d.marks.find? fun m => m.1 == w.line).map (·.2) with
  | some v' => if v' = v then .made (d.write e w) else .waits
  | none =>
    if d.logged w.line && d.logRoom w.line then .made ((d.markLine e v w.line).write e w)
    else .stalls

/-- Writes in order, until one stalls or waits: the data plane, the writes not made, and whether the next one waits. -/
def Data.writesAhead (d : Data) (e : Env) (v : Nat) : List Wr → Data × List Wr × Bool
  | [] => (d, [], false)
  | w :: ws =>
    match d.writeAhead e v w with
    | .made d => d.writesAhead e v ws
    | .stalls => (d, w :: ws, false)
    | .waits => (d, w :: ws, true)

/-! ### Effects -/

/-- Sets a fabric. -/
def State.setFabric (s : State) (bass : Bool) (f : Fabric) : State :=
  if bass then { s with bass := f } else { s with treble := f }

/-- The effect of operation `id` on the retained tile and the FAULTED bit of a course (03 R87, R91; log entry 24). -/
def Fabric.apply (f : Fabric) (id : Nat) (c : Nat) (t : Option Tile) : Fabric :=
  if id < tget 0 f.loaders c then f
  else { f with loaders := tput f.loaders c id, tiles := match t with | some t => tput f.tiles c t | none => tdel f.tiles c }

/-- One contribution to a loss slot (06 R192, R193). -/
def State.contribute (s : State) (x : Nat × Word) : State :=
  let s := { s with los := tupd .reset s.los x.1 (·.contribute x.2) }
  if lossNonfinite x.2 then s.bump Evt.lossNonfinite 1 else s

/-- The tile and FAULTED effects. -/
def State.applyCourse (s : State) (id : Nat) (eff : Effects) : State :=
  let s := eff.tiles.foldl (fun s x => s.setFabric (x.1 = 1) ((s.fabric (x.1 = 1)).apply id x.2.1 x.2.2)) s
  match eff.faulted with
  | none => s
  | some (b, c) =>
    let f := s.fabric (b = 1)
    s.setFabric (b = 1) { f with faulted := f.faulted ||| BitVec.ofNat 16 (2 ^ c) }

/-- Events, record writes, captured fault, tile and FAULTED bit of an instance; its loss contributions apply when it
completes (06 R193). -/
def State.applyEffects (s : State) (o : Op) (eff : Effects) : State :=
  let d := eff.evts.foldl (fun d x => d.bump x.1 x.2) s.dp
  let d := eff.recs.foldl (fun d w => d.write (s.envOf o) w) d
  let d := match eff.xf with
    | none => d
    | some f => d.xlateFault o.q f
  ({ s with dp := d }).applyCourse o.id eff

/-- Loss contributions. -/
def State.applyLoss (s : State) (eff : Effects) : State := eff.loss.foldl (fun s x => s.contribute x) s

/-- An earlier program that adds into the same loss slot has not applied its contributions (06 R193). -/
def State.lossBusy (s : State) (o : Op) : Bool :=
  let names (d : List Byte) : Bool := opcodeOf d == 0x0401 && bit (field d 38 1) 4
  names o.desc && s.ops.any fun p => decide (p.id < o.id) && names p.desc
    && bits (field p.desc 38 1) 3 0 == bits (field o.desc 38 1) 3 0
    && p.insts.any fun i => match i.phase with | .done => p.ahead.isSome | .running => true | .stalled => true

/-! ### The work of an operation that may run ahead -/

/-- Ordinary work: writes and record writes made, effects applied, the instance done. -/
def State.workNow (s : State) (o : Op) (n : Nat) (m : M Work) : State :=
  let e := s.envOf o
  let all : M Work := do
    let w ← m
    writeAll e (w.writes ++ w.eff.recs)
    pure w
  match s.run all with
  | none => s
  | some (.error _, _) => s
  | some (.ok w, d) =>
    let s := ({ s with dp := d }).applyEffects o { w.eff with recs := [] }
    (s.applyLoss w.eff).finish o.id n w.fault w.va

/-- Work that runs ahead under slot v: writes with marks and log, effects staged (04 R135, R137). Each instance that stalls
counts one RUNAHEAD_STALL (R140 counts operations; DESIGN CHOICE, log entry 63). -/
def State.workAhead (s : State) (o : Op) (n v : Nat) (m : M Work) : State :=
  match s.run m with
  | none => s
  | some (.error _, _) => s
  | some (.ok w, d) =>
    let (d, rest, waits) := d.writesAhead (s.envOf o) v w.writes
    if waits then s
    else
      let s := { s with dp := d }
      let ph := if rest.isEmpty then Phase.done else .stalled
      let s := if rest.isEmpty then s else s.bump Evt.runaheadStall 1
      s.updOp o.id fun o => o.updInst n fun i =>
        { i with phase := ph, rest := rest, eff := w.eff, fault := w.fault, va := w.va, at_ := s.tide }

/-- A stalled instance that a PASS made ordinary makes its remaining writes (04 R135). -/
def State.workOn (s : State) (o : Op) (i : Inst) : State :=
  match s.run (writeAll (s.envOf o) i.rest) with
  | none => s
  | some (.error _, _) => s
  | some (.ok _, d) => (({ s with dp := d }).applyLoss i.eff).finish o.id i.n i.fault i.va

/-- The command of an operation of class 0x01, 0x02 or 0x04. -/
def State.work1 (s : State) (id n opcode : Nat) (ready : Op → Bool) (work : Op → M Work) : State :=
  match s.findOp id with
  | none => s
  | some o =>
    if opcodeOf o.desc ≠ opcode then s
    else match o.findInst n with
      | none => s
      | some i =>
        match i.phase, o.ahead with
        | .done, _ => s
        | .stalled, some _ => s
        | .stalled, none => s.workOn o i
        | .running, none => if ready o then s.workNow o n (work o) else s
        | .running, some v => if ready o then s.workAhead o n v (work o) else s

/-- The access of an operation: its verdict slot and its pin. -/
def Op.acc (o : Op) : Acc := ⟨o.ahead, o.pin.toNat⟩

/-! ### Course-count changes (03 R79) -/

/-- Sweep instances that occupy their course: not the held ones of a run-ahead sweep (03 R79, R80). -/
def State.busyCourses (s : State) (bass : Bool) : List Nat :=
  s.ops.flatMap fun o =>
    if opcodeOf o.desc = 0x0101 ∧ swBass o.desc = bass then
      (o.insts.filter fun i => match i.phase with | .done => o.ahead.isNone | .running => true | .stalled => true).map
        fun i => instCourse o.desc i.n
    else []

/-- A course-count change invalidates the tiles that held sweeps have left in their courses too. -/
def Op.dropTiles (o : Op) (bass : Bool) : Op :=
  { o with insts := o.insts.map fun i => { i with eff := { i.eff with tiles := i.eff.tiles.filter fun t => t.1 ≠ b2n bass } } }

/-- The switch itself: every retained tile is invalidated, MODE_SWITCH counts. -/
def State.switchCourses (s : State) (bass : Bool) (code : BitVec 3) : State :=
  let s := { s with ops := s.ops.map fun o => Op.dropTiles o bass }
  (s.setFabric bass { s.fabric bass with courses := code, drain := none, tiles := [] }).bump (Evt.fab bass Evt.modeSwitch) 1

/-- An operation that holds a fabric's course count: attention, whose sweeps run under it (09 R254), and a RUN on the fabric's
clusters, which keeps its geometry (16 R461). -/
def Op.holdsCourses (o : Op) (bass : Bool) : Bool :=
  opcodeOf o.desc == (if bass then 0x0509 else 0x0508)
    || (opcodeOf o.desc == 0x0401 && bits (targetOf o.desc) 1 0 == b2n bass)

/-- Such an operation has not completed. -/
def State.attending (s : State) (bass : Bool) : Bool :=
  s.ops.any fun o => o.holdsCourses bass
    && o.insts.any fun i => match i.phase with | .done => o.ahead.isNone | .running => true | .stalled => true

/-- A drain that has reached its end switches. -/
def State.endDrain (s : State) (bass : Bool) : State :=
  match (s.fabric bass).drain with
  | none => s
  | some code => if (s.busyCourses bass).isEmpty && !s.attending bass then s.switchCourses bass code else s

/-- Both fabrics. -/
def State.endDrains (s : State) : State := (s.endDrain false).endDrain true

/-! ### Meanings -/

/-- SWEEP (03 R63 to R98): the instance's result, or the containment of its translation fault. -/
def execSweep (id n : Nat) (s : State) : Out :=
  .next (s.work1 id n 0x0101 (fun _ => true) fun o =>
    let j := sweepJob o n
    sweepWork (s.envOf o) o.acc o j (o.tileOf j.course))

/-- The containment of an array or mesh error of a sweep instance (03 R91). -/
def State.faultSweep (s : State) (id n : Nat) (cause : SweepFault) : State :=
  s.work1 id n 0x0101 (fun _ => true) fun o =>
    sweepPoison (s.envOf o) o.acc o (sweepJob o n) (match cause with | .arrayErr => Code.arrayErr | .meshErr => Code.meshErr) 0 none

/-- The work of a RELEASE (03 R96): the retained tile of each course that it targets is invalidated. -/
def releaseWork (s : State) (o : Op) : M Work :=
  let b := swBass o.desc
  pure ⟨[], { Effects.none with tiles := (coursesOf o.desc (s.fabric b).courses.toNat).map fun c => (b2n b, c, none) }, 0, 0⟩

/-- RELEASE (03 R96). -/
def execRelease (id : Nat) (s : State) : Out := .next (s.work1 id 0 0x0102 (fun _ => true) fun o => releaseWork s o)

/-- CONVERT (04 R103). -/
def execConvert (id : Nat) (s : State) : Out :=
  .next (s.work1 id 0 0x0201 (fun _ => true) fun o => convertWork (s.envOf o) o.acc o)

/-- RUN (06 R190): a program waits for the earlier programs that add into its loss slot (06 R193). -/
def execRun (id : Nat) (s : State) : Out :=
  .next (s.work1 id 0 0x0401 (fun o => !s.lossBusy o) fun o => runWork s (s.envOf o) o.acc o)

end Sys2Proof.Machine
end

