-- ==== Sys2Proof/Machine/Stow.lean ====
section
/-!
DEFINITION. The stow (06 R161 to R177): lanes, frames in memory, PUSH, POP, PEEK, GATE, CLEAR, the lane registers and
the interleave slip.
-/

namespace Sys2Proof.Machine

/-! ### Lanes and their memory -/

/-- A lane. -/
def State.lane (s : State) (l : Nat) : Lane := tget .reset s.stw.lanes l

/-- Changes a lane. -/
def State.updLane (s : State) (l : Nat) (f : Lane → Lane) : State :=
  { s with stw := { s.stw with lanes := tupd .reset s.stw.lanes l f } }

/-- The lane that a stow operation works on; a GATE has none (06 R174). A CLEAR's is in the low bits of its first word, as a
GATE's count is in its second's (DEDUCED, log entry 66). -/
def laneOf (d : List Byte) : Option Nat :=
  match operOf d with
  | 1 => some (bits (field d 40 1) 3 0)
  | 2 => some (bits (field d 40 1) 3 0)
  | 3 => some (bits (field d 40 1) 3 0)
  | 5 => some (bits (field d 16 1) 3 0)
  | _ => none

/-- A stow operation runs on the lane (06 R167, R194). -/
def State.laneBusy (s : State) (l : Nat) : Bool := s.ops.any fun o => classOf o.desc == 3 && laneOf o.desc == some l

/-- The stack that a module-private address lies in. -/
def stackOf (a : Nat) : Option Nat :=
  match privByte (fun _ => false) a with
  | .ok x => if x < 2 ^ 40 then some (x / 2 ^ 36) else none
  | .error _ => none

/-- The physical byte of a lane address (06 R161, 08 R224; log entry 25). -/
def laneByte (e : Env) (va : Nat) : M Nat :=
  match privByte e.absent va with
  | .error k => M.fault k va
  | .ok x => do
    domainGate e va (x / 64)
    pure x

/-- Reads a line of a lane. -/
def laneRead (e : Env) (a : Acc) (va : Nat) : M LineIn := do
  let x ← laneByte e va
  readPhys e a (x / 64)

/-- Writes a line of a lane. -/
def laneWrite (e : Env) (va : Nat) (l : LineIn) : M Unit := do
  let x ← laneByte e va
  writeNow e (.whole (x / 64) ⟨l.payload, l.side⟩ l.poison)

/-! ### Frames (06 R163) -/

/-- A frame header. -/
structure Frame where
  layer : Nat
  micro : Nat
  tag : Nat
  segment : Nat
  flags : Nat
  payload : Nat
  list : Nat
  off : Nat
  seq : Nat
deriving Repr

/-- Its 32 bytes. -/
def Frame.bytes (f : Frame) : List Byte :=
  natLE 2 f.layer ++ natLE 2 f.micro ++ natLE 2 f.tag ++ natLE 1 f.segment ++ natLE 1 f.flags ++ natLE 4 f.payload
    ++ natLE 4 f.list ++ natLE 4 f.off ++ natLE 4 f.seq ++ List.replicate 8 0

/-- The header that 32 bytes hold. -/
def Frame.of (b : List Byte) : Frame :=
  ⟨field b 0 2, field b 2 2, field b 4 2, field b 6 1, field b 7 1, field b 8 4, field b 12 4, field b 16 4, field b 20 4⟩

/-- Header flags. -/
def Frame.dropped (f : Frame) : Bool := bit f.flags 0
/-- HAS_LIST. -/
def Frame.hasList (f : Frame) : Bool := bit f.flags 2

/-- Reads frame i's header; one that reads poisoned is an open value (log entry 25). -/
def readFrame (e : Env) (a : Acc) (lane : Lane) (i : Nat) : M Frame := do
  let va := lane.hdrBase.toNat + 32 * i
  let l ← laneRead e a (va / 64 * 64)
  if l.poison then do
    let n ← M.ask (·.free)
    M.upd fun d => { d with free := d.free + 1 }
    pure (Frame.of (openBytes n 32))
  else pure (Frame.of (slice l.payload (va % 64) 32))

/-- Writes frame i's header. -/
def writeFrame (e : Env) (lane : Lane) (i : Nat) (f : Frame) : M Unit := do
  let va := lane.hdrBase.toNat + 32 * i
  let x ← laneByte e va
  writeNow e (.part (x / 64) (x % 64) f.bytes)

/-! ### Dispatch checks (06 R175) -/

/-- Row 1. -/
def stowReserved (d : List Byte) : Bool :=
  match operOf d with
  | 1 => addrTop d 16 != 0 || addrTop d 24 != 0 || anySet d 36 4 || bits (field d 40 1) 7 5 != 0 || anySet d 48 16
  | 2 => addrTop d 16 != 0 || addrTop d 24 != 0 || addrTop d 32 != 0 || bits (field d 40 1) 7 4 != 0 || anySet d 48 16
  | 3 => addrTop d 16 != 0 || addrTop d 24 != 0 || addrTop d 32 != 0 || bits (field d 40 1) 7 4 != 0 || anySet d 48 16
  | 4 => addrTop d 16 != 0 || anySet d 25 39
  | 5 => bits (field d 16 1) 7 4 != 0 || anySet d 17 47
  | _ => false

/-- The domains of row 6: the stacks that hold the lane's bases, and for PUSH the lock domain of the data base's die. -/
def stowDomains (lane : Lane) (push : Bool) : List Nat :=
  let st := (stackOf lane.hdrBase.toNat).toList ++ (stackOf lane.dataBase.toNat).toList
  st.map (16 + ·) ++ (if push then (stackOf lane.dataBase.toNat).toList.map fun x => 4 * (x / 4) + 3 else [])

/-- The dispatch checks of class 0x03. -/
def checkStow (s : State) (e : Env) (d : List Byte) : Chk Plan := do
  let o := operOf d
  Chk.row (stowReserved d) Code.rsvdSet
  Chk.row (o == 0 || decide (5 < o)) Code.badOpcode
  let lane := s.lane ((laneOf d).getD 0)
  let onLane := (laneOf d).isSome
  Chk.row (onLane && lane.hdrCap == 0) Code.badTarget
  Chk.row ((o == 1 && field d 32 4 == 0) || ((o == 2 || o == 3) && addrField d 16 == 0)
    || (o == 4 && (field d 24 1 == 0 || addrField d 16 == 0))) Code.badShape
  Chk.row (((o == 1 || o == 2 || o == 3) && (addrField d 16 % 64 != 0 || addrField d 24 % 64 != 0))
    || ((o == 2 || o == 3) && addrField d 32 % 8 != 0) || (o == 4 && addrField d 16 % 8 != 0)) Code.badAlign
  let doms := if onLane then stowDomains lane (o == 1) else []
  Chk.row (doms.any e.isOff) Code.domainOff
  Chk.block (doms.any e.mustWake)
  pure (Plan.one [] [])

/-! ### PUSH (06 R164 to R166) -/

/-- A copied line, or the poisoned line that stands for one that could not be read (06 R166). -/
def copyLine (e : Env) (a : Acc) (va : Nat) : M (LineIn × Option (XfKind × Nat)) := do
  match ← M.attempt (readVirt e a va) with
  | .ok l => pure (l, none)
  | .error f => pure (LineIn.bad, some f)

/-- Copies n lines to a lane; the first fault met is kept. -/
def copyIn (e : Env) (a : Acc) (src dst : Nat) : Nat → Option (XfKind × Nat) → M (Option (XfKind × Nat))
  | 0, f => pure f
  | n + 1, f => do
    let (l, f') ← copyLine e a src
    let r ← M.attempt (laneWrite e dst l)
    let f'' := match r with | .ok _ => none | .error x => some x
    copyIn e a (src + 64) (dst + 64) n ((f.orElse fun _ => f').orElse fun _ => f'')

/-- The list lines of a PUSH's source: 1 + ceil(8 slots / 64), from its header; a header that cannot be read stands
alone (log entry 25). -/
def listLines (e : Env) (a : Acc) (va : Nat) : M (Nat × Option (XfKind × Nat)) :=
  if va = 0 then pure (0, none)
  else do
    let (l, f) ← copyLine e a va
    if l.poison then pure (1, f) else pure (1 + ceilDiv (8 * (field l.payload 24 4 * field l.payload 28 4)) 64, f)

/-- What a PUSH leaves: the frame and the fault it met. -/
structure Pushed where
  frame : Frame
  fault : Option (XfKind × Nat)

/-- The work of a PUSH on a lane with room in its header table. A lane's first frame has push sequence 0, the count before the
push, and the header of a dropped frame names no list (06 R163; DEDUCED, log entry 68). -/
def pushWork (e : Env) (a : Acc) (d : List Byte) (lane : Lane) : M Pushed := do
  let src := addrField d 16
  let list := addrField d 24
  let payload := field d 32 4
  let anchor := bit (field d 40 1) 4
  let (ll, f0) ← listLines e a list
  let need := payload + ll
  let top := lane.dataTop.toNat
  let free : Int := (lane.dataLines.toNat : Int) - top
  let dropped : Bool := if anchor then decide (free < need) else decide (free - (lane.reserve.toNat : Int) < need)
  let data := lane.dataBase.toNat + 64 * top
  let f ← if dropped then pure f0 else do
    let f ← copyIn e a src data payload f0
    copyIn e a list (data + 64 * payload) ll f
  let frame : Frame :=
    { layer := field d 42 2, micro := field d 44 2, tag := field d 46 2, segment := field d 41 1
      flags := b2n dropped + 2 * b2n anchor + 4 * b2n (!dropped && list != 0) + 8 * b2n f.isSome
      payload := payload, list := if dropped then 0 else ll, off := top, seq := lane.seq.toNat }
  writeFrame e lane lane.depth.toNat frame
  pure ⟨frame, f⟩

/-- The lane after a frame was pushed. -/
def Lane.push (l : Lane) (f : Frame) : Lane :=
  { l with
    depth := l.depth + 1
    dataTop := if f.dropped then l.dataTop else l.dataTop + BitVec.ofNat 32 (f.payload + f.list)
    seq := l.seq + 1 }

/-- PUSH (06 R165, R166). -/
def execPush (id : Nat) (s : State) : Out :=
  .next <| match s.work id 0 0x0301 with
    | none => s
    | some (o, _) =>
      let l := (laneOf o.desc).getD 0
      let lane := s.lane l
      if lane.depth = lane.hdrCap then (s.countFault o.desc).finish id 0 Code.stowDepth 0
      else s.perform o (pushWork (s.envOf o) o.acc o.desc lane) (fun d => d) fun s p =>
        let s := (s.updLane l (·.push p.frame)).bump Evt.framesPushed 1
        let s := if p.frame.dropped then s.bump Evt.framesDropped 1 else s
        let s := if p.frame.dropped && bit p.frame.flags 1 then s.bump Evt.anchorDrop 1 else s
        match p.fault with
        | none => s.finish id 0 0 0
        | some f => (({ s with dp := s.dp.xlateFault o.q f }).countFault o.desc).finish id 0 Code.xlateFault f.2

/-! ### POP and PEEK (06 R168 to R170, R176) -/

/-- Poisons n destination lines (06 R168). -/
def poisonDest (e : Env) (xs : List Nat) : M Unit :=
  writeAll e (xs.map fun x => .whole x zeroLine true)

/-- Copies lines of a lane to destination lines. -/
def copyOut (e : Env) (a : Acc) (src : Nat) : List Nat → M Unit
  | [] => pure ()
  | x :: xs => do
    let l ← laneRead e a src
    writeNow e (.whole x ⟨l.payload, l.side⟩ l.poison)
    copyOut e a (src + 64) xs

/-- The status word (06 R169). -/
def statusWord (result : Nat) (f : Option Frame) : List Byte :=
  match f with
  | none => natLE 8 result
  | some f => natLE 1 result ++ natLE 1 f.flags ++ natLE 2 f.layer ++ natLE 2 f.micro ++ natLE 1 f.segment ++ [0]

/-- Outcomes of a POP or PEEK. -/
inductive PopOut where
  | empty
  | lost
  | mismatch
  | retained
  | dropped
deriving DecidableEq, Repr

/-- What the frame that a POP or PEEK examines comes to: POP compares four fields; PEEK has matched three (06 R168,
R170). -/
def popOutcome (peek : Bool) (d : List Byte) : Option Frame → PopOut
  | none => if peek then .lost else .empty
  | some f =>
    let id := f.layer == field d 42 2 && f.micro == field d 44 2 && f.segment == field d 41 1
    if peek then
      if f.dropped then .lost else if f.tag == field d 46 2 then .retained else .mismatch
    else if !(id && f.tag == field d 46 2) then .mismatch
    else if f.dropped then .dropped else .retained

/-- The status result of an outcome. -/
def PopOut.result : PopOut → Nat
  | .retained => 1
  | .dropped => 2
  | .mismatch => 3
  | .empty => 4
  | .lost => 5

/-- The fault of an outcome. -/
def PopOut.code : PopOut → Nat
  | .retained => 0
  | .dropped => 0
  | .mismatch => Code.stowTag
  | .empty => Code.stowEmpty
  | .lost => Code.stowLost

/-- The outcome's lines: the destination is translated before the lane is looked at (06 R176). -/
def popLines (e : Env) (a : Acc) (d : List Byte) (lane : Lane) (f : Option Frame) (out : PopOut) : M Unit := do
  let dest := addrField d 16
  let list := addrField d 24
  let st := addrField d 32
  let lines := match f with | none => 0 | some f => f.payload
  let ll := match f with | none => 0 | some f => if f.hasList then f.list else 0
  let xs ← writeTargets e a dest lines
  let ls ← if list = 0 then pure [] else writeTargets e a list (max 1 ll)
  let ws ← if st = 0 then pure []
    else putBytes e a st (statusWord out.result (match out with | .empty => none | .lost => none | _ => f))
  match f, out with
  | some f, .retained => do
    let data := lane.dataBase.toNat + 64 * f.off
    copyOut e a data xs
    if f.hasList && list != 0 then copyOut e a (data + 64 * f.payload) (ls.take f.list) else pure ()
  | some _, _ => poisonDest e xs
  | none, _ => pure ()
  writeAll e ws

/-- The frame that a PEEK finds from index i downwards (06 R170). -/
def findFrame (e : Env) (a : Acc) (d : List Byte) (lane : Lane) : Nat → M (Option Frame)
  | 0 => pure none
  | i + 1 => do
    let f ← readFrame e a lane i
    if f.layer == field d 42 2 && f.micro == field d 44 2 && f.segment == field d 41 1 then pure (some f)
    else findFrame e a d lane i

/-- The work of a POP: the frame examined and the outcome. -/
def popWork (e : Env) (a : Acc) (d : List Byte) (lane : Lane) : M (Option Frame × PopOut) := do
  let f ← if lane.depth = 0 then pure none else (do let f ← readFrame e a lane (lane.depth.toNat - 1); pure (some f))
  let out := popOutcome false d f
  popLines e a d lane f out
  pure (f, out)

/-- The work of a PEEK. -/
def peekWork (e : Env) (a : Acc) (d : List Byte) (lane : Lane) : M PopOut := do
  let f ← findFrame e a d lane lane.depth.toNat
  let out := popOutcome true d f
  popLines e a d lane f out
  pure out

/-- A removed frame (06 R162). -/
def Lane.pop (l : Lane) (f : Frame) : Lane := { l with depth := l.depth - 1, dataTop := BitVec.ofNat 32 f.off }

/-- A stow operation ends with a code, counted in STOW_FAULT when it is one. -/
def State.endStow (s : State) (o : Op) (code : Nat) : State :=
  (if code = 0 then s else s.countFault o.desc).finish o.id 0 code 0

/-- POP (06 R168). -/
def execPop (id : Nat) (s : State) : Out :=
  .next <| match s.work id 0 0x0302 with
    | none => s
    | some (o, _) =>
      let l := (laneOf o.desc).getD 0
      s.perform o (popWork (s.envOf o) o.acc o.desc (s.lane l)) (fun d => d) fun s r =>
        match r with
        | (some f, .retained) => ((s.updLane l (·.pop f)).bump Evt.framesPopped 1).endStow o 0
        | (some f, .dropped) => ((s.updLane l (·.pop f)).bump Evt.framesPopped 1).endStow o 0
        | (_, .mismatch) => (s.bump Evt.tagMismatch 1).endStow o Code.stowTag
        | (_, out) => s.endStow o out.code

/-- PEEK (06 R170): the lane is unchanged. -/
def execPeek (id : Nat) (s : State) : Out :=
  .next <| match s.work id 0 0x0303 with
    | none => s
    | some (o, _) =>
      s.perform o (peekWork (s.envOf o) o.acc o.desc (s.lane ((laneOf o.desc).getD 0))) (fun d => d) fun s out =>
        s.endStow o out.code

/-! ### GATE and CLEAR (06 R171, R173, R176) -/

/-- The GATE of a queue has decided to skip n descriptors. -/
def State.gateDecides (s : State) (o : Op) (n : Nat) : State :=
  if (s.queue o.q).gate = some o.id then s.updQueue o.q fun k => { k with gate := none, skip := n } else s

/-- The result byte at a GATE's status address; a line that reads poisoned holds no result 2 (log entry 25). -/
def gateWork (e : Env) (a : Acc) (d : List Byte) : M Nat := do
  let (b, poison) ← readBytes e a (addrField d 16) 1
  pure (if poison then 0 else leNat b)

/-- GATE (06 R173): result 2 lets the next n descriptors run; any other value, and a translation fault, skips them. -/
def execGate (id : Nat) (s : State) : Out :=
  .next <| match s.work id 0 0x0304 with
    | none => s
    | some (o, _) =>
      let n := field o.desc 24 1
      match s.run (gateWork (s.envOf o) o.acc o.desc) with
      | none => s
      | some (.error f, d) =>
        ((({ s with dp := d.xlateFault o.q f }).countFault o.desc).gateDecides o n).finish id 0 Code.xlateFault f.2
      | some (.ok r, d) => (({ s with dp := d }).gateDecides o (if r = 2 then 0 else n)).finish id 0 0 0

/-- CLEAR (06 R171). -/
def execClear (id : Nat) (s : State) : Out :=
  .next <| match s.work id 0 0x0305 with
    | none => s
    | some (o, _) =>
      let l := (laneOf o.desc).getD 0
      ((s.bump Evt.framesCleared (s.lane l).depth.toNat).updLane l fun x => { x with depth := 0, dataTop := 0 }).finish id 0 0 0

/-! ### Lane registers (06 R194) -/

/-- HDR_CAP is stored as at most 65,536. -/
def clampCap (v : Reg) : BitVec 17 := if 65536 < (v.setWidth 17).toNat then 65536 else v.setWidth 17

/-- A lane register's new value. -/
def Lane.config (x : Lane) (r : LaneReg) (v : Reg) : Lane :=
  let x := { x with seq := 0 }
  match r with
  | .hdrBase => { x with hdrBase := v.setWidth 60 }
  | .dataBase => { x with dataBase := v.setWidth 60 }
  | .size => { x with hdrCap := clampCap v, dataLines := (v >>> 32).setWidth 32 }
  | .reserve => { x with reserve := v.setWidth 32 }

/-- A write to a lane register: only while the lane is empty and idle. -/
def State.writeLane (s : State) (l : Nat) (r : LaneReg) (v : Reg) : State :=
  if (s.lane l).depth = 0 ∧ s.laneBusy l = false then s.updLane l (·.config r v) else s.bump Evt.stowCfgReject 1

/-- LANE_CONFIG_WRITE. -/
def execLaneConfigWrite (l : Nat) (r : LaneReg) (v : Reg) (s : State) : Out := guarded (l < 16) (s.writeLane l r v)

/-! ### The interleave slip (06 R177) -/

/-- The descriptor at the head of a queue, as far as it has been fetched: one that a RERUN returned comes first. -/
def Queue.headDesc (k : Queue) : Option (List Byte) :=
  match k.redo with
  | r :: _ => some r.desc
  | [] => if k.head = k.tail then none else (k.fetched.find? fun x => x.1 == k.head.toNat).map (·.2)

/-- A queue without any descriptor. -/
def Queue.isEmpty (k : Queue) : Bool := k.redo.isEmpty && k.head == k.tail

/-- The wait of a descriptor is met by committed values (11 R360, R363). -/
def State.waits (s : State) (d : List Byte) : Bool :=
  waitIndex d != 0xFFFF && !waitMet (s.counter (waitIndex d)).value (waitValue d)

/-- A slip exists. -/
def State.slipExists (s : State) : Bool :=
  let qs := (List.range 64).filter fun q => bit s.stw.bassQueues.toNat q && !(s.queue q).isEmpty
  (s.busyCourses true).isEmpty && !qs.isEmpty
    && qs.all fun q => match (s.queue q).headDesc with
      | none => false
      | some d => s.waits d

/-- Notes the begin and the end of slips; each counts when it begins. -/
def State.watchSlip (s : State) : State :=
  let now := s.slipExists
  let s := if now && !s.stw.slip then s.bump Evt.interleaveSlip 1 else s
  if now = s.stw.slip then s else { s with stw := { s.stw with slip := now } }

end Sys2Proof.Machine
end

