-- ==== Sys2Proof/Machine/Landing.lean ====
section
/-!
DEFINITION. Landing and export (07 R201 to R205, R213 to R219): class 0x09.
-/

namespace Sys2Proof.Machine

/-! ### Requests of operations to host memory (11 R350; 16 R462) -/

/-- How an operation's first host request is judged. -/
inductive HostGo where
  | waits
  | refused
  | goes
deriving DecidableEq, Repr

/-- In D3hot the operation waits; in D0 with Bus Master Enable clear, or with the function held in reset, it is refused
(16 R462, 07 R218). -/
def State.hostGo (s : State) : HostGo :=
  if s.pci.d3hot then .waits else if s.pci.busMaster && !s.pci.down then .goes else .refused

/-- A host write of an operation; after a host reset it is discarded (11 R350). -/
def State.postFor (s : State) (o : Op) (addr : Nat) (bytes : List Byte) : State :=
  if o.orphan then s.discard else s.post addr bytes

/-! ### Checks (07 R219) -/

/-- Label of the landing or export record. -/
abbrev Lab.landing : Nat := 3

/-- The die that owns a physical byte (07 R215). -/
def dieOf (x : Nat) : Nat := if x < 2 ^ 40 then x / 2 ^ 38 else clusterDom (lineCluster (x / 64)) / 4

/-- A LAND's target format. -/
def landFmt (d : List Byte) : Fmt :=
  match bits (field d 46 1) 1 0 with
  | 0 => .t4
  | 1 => .e4m3
  | 2 => .e5m2
  | _ => .bf16

/-- LAND's rows. -/
def checkLand (s : State) (q : Nat) (e : Env) (a : Acc) (d : List Byte) : Chk Plan := do
  let r ← Chk.record q e a (addrField d 32) 64
  Chk.row (addrTop d 16 != 0 || addrTop d 32 != 0 || bits (field d 46 1) 7 5 != 0 || bits (field d 47 1) 7 4 != 0
    || anySet d 56 8 || addrTop r 0 != 0 || addrTop r 8 != 0 || anySet r 36 28) Code.rsvdSet
  let f := landFmt d
  let lo := field d 48 1
  let hi := field d 49 1
  Chk.row (f.narrow && (lo == 0 || lo == 0xFF || hi == 0xFF || decide (hi < lo))) Code.badScaleLimit
  let rows := field d 40 3
  let len := field d 43 3
  let list := addrField r 0
  let tensor := addrField r 8
  Chk.row (rows == 0 || len == 0 || (f.narrow && tensor == 0) || (!f.narrow && (list != 0 || tensor != 0))) Code.badShape
  let hdr ← if list = 0 then pure [] else Chk.record q e a list 64
  let g := bits (field hdr 12 1) 2 0
  Chk.row (list != 0 && (decide (6 < g) || decide (field hdr 8 4 < rows * ceilDiv (ceilDiv len 32) (2 ^ g)))) Code.badShape
  Chk.row (addrField d 16 % 64 != 0 || field d 24 8 % 64 != 0 || addrField d 32 % 64 != 0 || list % 64 != 0
    || tensor % 128 != 0) Code.badAlign
  let x ← Chk.probe (translate e a true (addrField d 16))
  match x with
  | none => pure ()
  | some x => do
    Chk.row (e.isOff (4 * dieOf x + 3)) Code.domainOff
    Chk.block (e.mustWake (4 * dieOf x + 3))
  let t ← if f.narrow then Chk.record q e a tensor 128 else pure []
  pure (Plan.one [(Lab.tensor, t), (Lab.header, hdr), (Lab.landing, r)] (tapNums s.tun t))

/-- EXPORT's rows. -/
def checkExport (q : Nat) (e : Env) (a : Acc) (d : List Byte) : Chk Plan := do
  let r ← Chk.record q e a (addrField d 24) 64
  Chk.row (addrTop d 24 != 0 || bits (field d 38 1) 7 3 != 0 || anySet d 39 25 || addrTop r 0 != 0 || addrTop r 8 != 0
    || addrTop r 16 != 0 || addrTop r 24 != 0 || anySet r 40 24) Code.rsvdSet
  let f := bits (field d 38 1) 2 0
  Chk.row (f != 1 && f != 2 && f != 4) Code.badFormat
  Chk.row (field d 32 3 == 0 || field d 35 3 == 0 || (f == 4 && addrField r 8 != 0)) Code.badShape
  Chk.row (field d 16 8 % 64 != 0 || addrField d 24 % 64 != 0 || addrField r 0 % 64 != 0 || addrField r 8 % 64 != 0
    || addrField r 16 % 64 != 0 || addrField r 24 % 64 != 0) Code.badAlign
  pure (Plan.one [(Lab.landing, r)] [])

/-- The dispatch checks of class 0x09. -/
def checkLanding (s : State) (q : Nat) (e : Env) (a : Acc) (d : List Byte) : Chk Plan :=
  if operOf d = 1 then checkLand s q e a d
  else if operOf d = 2 then checkExport q e a d
  else do
    Chk.row true Code.badOpcode
    pure (Plan.one [] [])

/-! ### LAND (07 R213, R214, R218) -/

/-- The conversion of a narrow LAND. -/
def landJob (o : Op) : ConvJob :=
  let d := o.desc
  let r := o.record Lab.landing
  let t := o.record Lab.tensor
  let len := field d 43 3
  let f := landFmt d
  { p :=
      { target := f, t := bits (field d 47 1) 3 0, floor := field d 48 1, ceil := field d 49 1,
        sat := bit (field d 46 1) 2, stoch := bit (field d 46 1) 3, gen := field d 50 1, tag := field d 54 2 }
    dest := addrField d 16, pitch := 64 * f.linesPerRow len, list := addrField r 0,
    g := bits (field (o.record Lab.header) 12 1) 2 0, gen32 := field d 50 4, record := addrField r 8,
    hist := bits (field t 96 8) 59 0, tap := bits (field t 104 8) 59 0, select := tapSelect o.nums,
    predict := bit (field d 46 1) 4, rows := field d 40 3, len := len }

/-- The random word of element e of a stochastic LAND: its 24-bit integer (02 R62, 05 R143, R145). -/
def landRand (o : Op) (e : Nat) : Option Nat :=
  if bit (field o.desc 46 1) 3 then
    let r := o.record Lab.landing
    some (uniform24 (keyedWord (BitVec.ofNat 128 (field r 16 16)) (BitVec.ofNat 32 (field r 32 4)) (BitVec.ofNat 64 e)))
  else none

/-- Row i of the source: BF16 codes (07 R213). -/
def landRow (d data : List Byte) (i : Nat) : List Nat :=
  let len := field d 43 3
  let at_ := i * alignUp (2 * len) 64
  (List.range len).map fun j => field data (at_ + 2 * j) 2

/-- A BF16 code as LAND copies it: NaN becomes 0x7FC0, everything else stays (02 R58). -/
def copyBf16 (c : Nat) : Nat := if c / 2 ^ 7 % 2 ^ 8 = 255 ∧ c % 2 ^ 7 ≠ 0 then 0x7FC0 else c

/-- The lines of a BF16 row. -/
def landWide (d : List Byte) (cs : List Nat) : List LineOut :=
  (chunksOf 32 cs.length (cs.map copyBf16)).map fun c =>
    ⟨Fmt.bf16.pack c, List.replicate 5 0 ++ sideId (field d 50 1) (field d 54 2)⟩

/-- The work of a LAND with its source data: it leaves the number of destination lines. -/
def landWork (e : Env) (a : Acc) (o : Op) (data : List Byte) : M Nat := do
  let d := o.desc
  let j := landJob o
  let rows := (List.range j.rows).map (landRow d data)
  if j.p.target.narrow then do
    let (ws, rs, ev) ← convRows e a j (landRand o) false (rows.map fun r => .vals (r.map decodeBf16))
    writeAll e (ws ++ rs)
    M.upd fun dp => ev.foldl (fun dp x => dp.bump x.1 x.2) dp
  else do
    let ws ← (rows.zipIdx).mapM fun ri => putLines e a (j.dest + ri.2 * j.pitch) (landWide d ri.1) false
    writeAll e ws.flatten
  pure (j.rows * j.p.target.linesPerRow j.len)

/-- The destination lines of a LAND that faults (07 R218). -/
def landPoison (e : Env) (a : Acc) (o : Op) : M Unit := do
  let j := landJob o
  let ws ← if j.p.target.narrow then poisonRows e a j.p.target j.dest j.pitch j.len (List.range j.rows)
    else poisonWide e a .bf16 j.dest (j.rows * Fmt.bf16.linesPerRow j.len)
  writeAll e ws

/-- A LAND ends with a fault. -/
def State.landFails (s : State) (o : Op) (code va : Nat) : State :=
  match s.run (landPoison (s.envOf o) o.acc o) with
  | none => s
  | some (_, d) => (({ s with dp := d }).countFault o.desc).finish o.id 0 code va

/-- LAND (07 R213): `reply` is what host memory answers to the reads of its source. -/
def execLand (id : Nat) (reply : HostReply) (s : State) : Out :=
  .next <| match s.work id 0 0x0901 with
    | none => s
    | some (o, _) =>
      match s.hostGo, reply with
      | .waits, _ => s
      | .refused, _ => s.landFails o Code.hostAbort 0
      | .goes, .data bytes =>
        match s.run (landWork (s.envOf o) o.acc o bytes) with
        | none => s
        | some (.ok n, d) => (({ s with dp := d }).bump Evt.landedLines n).finish id 0 0 0
        | some (.error f, d) =>
          match ({ s with dp := d.xlateFault o.q f }).run (landPoison (s.envOf o) o.acc o) with
          | none => s
          | some (_, d) => (({ s with dp := d }).countFault o.desc).finish id 0 Code.xlateFault f.2
      | .goes, .unsupportedRequest => s.landFails o Code.hostAbort 0
      | .goes, .completerAbort => s.landFails o Code.hostAbort 0
      | .goes, .poisoned => s.landFails o Code.hostAbort 0
      | .goes, .timeout => s.landFails o Code.hostAbort 0

/-! ### EXPORT (07 R201 to R205) -/

/-- Records of n consecutive lines, each as `f` gives it: the bytes in line order, the poisoned lines, the lines read, and
the translation fault that stopped the reading. -/
structure Exported where
  bytes : List Byte
  poisoned : Nat
  lines : Nat
  fault : Option (XfKind × Nat)

/-- Reads the lines of a section. -/
def exportLines (e : Env) (a : Acc) (f : LineIn → List Byte) (va : Nat) : Nat → M Exported
  | 0 => pure ⟨[], 0, 0, none⟩
  | n + 1 => do
    match ← M.attempt (readVirt e a va) with
    | .error x => pure ⟨[], 0, 0, some x⟩
    | .ok l => do
      let r ← exportLines e a f (va + 64) n
      pure ⟨f l ++ r.bytes, b2n l.poison + r.poisoned, 1 + r.lines, r.fault⟩

/-- A gradient line's 72 bytes (07 R203, R204). -/
def gradBytes (f : Fmt) (l : LineIn) : List Byte :=
  if !l.poison then l.payload ++ l.side
  else if f.narrow then List.replicate 64 0 ++ List.replicate f.blocksPerLine 0xFF ++ l.side.drop f.blocksPerLine
  else f.pack (List.replicate f.perLine f.nanCode) ++ l.side

/-- A statistics line's 64 bytes. -/
def statBytes (l : LineIn) : List Byte := if l.poison then Fmt.f32.pack (List.replicate 16 Fmt.f32.nanCode) else l.payload

/-- A list line's 64 bytes; those of a line that reads poisoned are open (log entry 26). -/
def listBytes (open_ : List Byte) (l : LineIn) : List Byte := if l.poison then open_ else l.payload

/-- A section of the image: its offset in the image, its length in bytes and its bytes. -/
structure Section where
  off : Nat
  len : Nat
  got : Exported

/-- The offset of a section after `end_`. -/
def nextOffset (end_ : Nat) : Nat := alignUp end_ 64

/-- The four sections; after a fault the later ones are not read. -/
def exportSections (e : Env) (a : Acc) (o : Op) : M (List Section × Nat) := do
  let d := o.desc
  let r := o.record Lab.landing
  let f := (Fmt.ofCode (bits (field d 38 1) 2 0)).getD .f32
  let n := field d 32 3 * f.linesPerRow (field d 35 3)
  let open_ ← M.ask fun d => openBytes d.free 64
  M.upd fun d => { d with free := d.free + 1 }
  let g ← exportLines e a (gradBytes f) (addrField r 0) n
  let list := addrField r 8
  let hdr ← if list = 0 || g.fault.isSome then pure ⟨[], 0, 0, none⟩ else exportLines e a (listBytes open_) list 1
  let slots := if hdr.poisoned = 0 then field hdr.bytes 24 4 * field hdr.bytes 28 4 else 0
  let lb := if list = 0 then 0 else 64 + 8 * slots
  let off1 := nextOffset (64 + 72 * n)
  let l ← if list = 0 || g.fault.isSome then pure ⟨[], 0, 0, none⟩ else exportLines e a (listBytes open_) list (ceilDiv lb 64)
  let end1 := if lb = 0 then 64 + 72 * n else off1 + lb
  let rc := if addrField r 16 = 0 then 0 else field r 32 4
  let off2 := nextOffset end1
  let stop1 := g.fault.isSome || l.fault.isSome
  let rs ← if rc = 0 || stop1 then pure ⟨[], 0, 0, none⟩ else exportLines e a statBytes (addrField r 16) (ceilDiv rc 16)
  let end2 := if rc = 0 then end1 else off2 + 4 * rc
  let cc := if addrField r 24 = 0 then 0 else field r 36 4
  let off3 := nextOffset end2
  let cs ← if cc = 0 || stop1 || rs.fault.isSome then pure ⟨[], 0, 0, none⟩
    else exportLines e a statBytes (addrField r 24) (ceilDiv cc 16)
  pure ([⟨64, 72 * n, g⟩, ⟨if lb = 0 then 0 else off1, lb, { l with poisoned := 0, lines := 0 }⟩,
    ⟨if rc = 0 then 0 else off2, 4 * rc, rs⟩, ⟨if cc = 0 then 0 else off3, 4 * cc, cs⟩], f.linesPerRow (field d 35 3))

/-- The image header (07 R202). -/
def exportHeader (version : Nat) (d : List Byte) (perRow : Nat) (ss : List Section) : List Byte :=
  let at_ (i : Nat) : Section := ss.getD i ⟨0, 0, ⟨[], 0, 0, none⟩⟩
  natLE 2 version ++ [BitVec.ofNat 8 (field d 38 1), 0] ++ natLE 4 (field d 32 3) ++ natLE 4 (field d 35 3) ++ natLE 4 perRow
    ++ natLE 4 ((ss.map (·.got.poisoned)).sum) ++ natLE 4 (at_ 1).len ++ natLE 4 ((at_ 2).len / 4) ++ natLE 4 ((at_ 3).len / 4)
    ++ natLE 8 64 ++ natLE 8 (at_ 1).off ++ natLE 8 (at_ 2).off ++ natLE 8 (at_ 3).off

/-- EXPORT (07 R201, R205): the sections as far as they were read, then the header, with Version 0 after a fault. -/
def execExportShard (id : Nat) (s : State) : Out :=
  .next <| match s.work id 0 0x0902 with
    | none => s
    | some (o, _) =>
      match s.hostGo with
      | .waits => s
      | .refused => (s.countFault o.desc).finish id 0 Code.hostAbort 0
      | .goes =>
        match s.run (exportSections (s.envOf o) o.acc o) with
        | none => s
        | some (.error f, d) => (({ s with dp := d.xlateFault o.q f }).countFault o.desc).finish id 0 Code.xlateFault f.2
        | some (.ok (ss, perRow), d) =>
          let host := field o.desc 16 8
          let s := { s with dp := d }
          let s := ss.foldl (fun s x =>
            if x.got.bytes.isEmpty then s else s.postFor o (host + x.off) (x.got.bytes.take x.len)) s
          let s := (s.bump Evt.exportedLines ((ss.map (·.got.lines)).sum)).bump Evt.exportPoison ((ss.map (·.got.poisoned)).sum)
          match ss.findSome? fun x => x.got.fault with
          | none => (s.postFor o host (exportHeader 1 o.desc perRow ss)).finish id 0 0 0
          | some f =>
            let s := { s with dp := s.dp.xlateFault o.q f }
            ((s.countFault o.desc).postFor o host (exportHeader 0 o.desc perRow ss)).finish id 0 Code.xlateFault f.2

end Sys2Proof.Machine
end

