-- ==== Sys2Proof/Machine/Memops.lean ====
section
/-!
DEFINITION. Translation operations (08 R237 to R244), the BAR4 window (R225, R251, R353), the side window (R252), the patrol
scrub (R250), retraining (R227) and XF_INFO.
-/

namespace Sys2Proof.Machine

/-! ### Class 0x08: dispatch checks (08 R244) -/

/-- The dispatch checks of class 0x08. -/
def checkTranslation (d : List Byte) : Chk Plan := do
  let o := operOf d
  Chk.row ((o == 1 && anySet d 16 48) || (o == 2 && (addrTop d 16 != 0 || bits (field d 40 1) 7 1 != 0 || anySet d 41 7
    || addrTop d 48 != 0 || anySet d 56 8))) Code.rsvdSet
  Chk.row (o != 1 && o != 2) Code.badOpcode
  Chk.row (o == 2 && (bits (addrField d 16) 59 48 != 0xC00 || bits (addrField d 16) 47 40 != 0)) Code.badTarget
  Chk.row (o == 2 && (addrField d 16 % 8 != 0 || addrField d 48 % 8 != 0)) Code.badAlign
  pure (Plan.one [] [])

/-! ### FENCE and the pins (08 R239, R241) -/

/-- How far a pin lies behind TX_GEN. -/
def pinAge (gen pin : Half) : Nat := (gen - pin).toNat

/-- TX_MINPIN: the oldest pin that an operation holds, or TX_GEN. -/
def State.minPin (s : State) : Half :=
  s.ops.foldl (fun m o => if pinAge s.dp.txGen m < pinAge s.dp.txGen o.pin then o.pin else m) s.dp.txGen

/-- The pin window holds a FENCE back. -/
def State.windowShut (s : State) : Bool := s.ops.any fun o => decide (0x8000 ≤ (s.dp.txGen + 1 - o.pin).toNat)

/-- Label of the number that says a FENCE has counted its wait. -/
abbrev Lab.waited : Nat := 1

/-- FENCE: GEN_ROOT as written comes into effect, TX_GEN advances. -/
def execFence (id : Nat) (s : State) : Out :=
  .next <| match s.work id 0 0x0801 with
    | none => s
    | some (o, _) =>
      if s.windowShut then
        if o.num Lab.waited = 1 then s
        else (s.bump Evt.fenceWindowWait 1).updOp id fun o => { o with nums := tput o.nums Lab.waited 1 }
      else
        (({ s with dp := { s.dp with txGen := s.dp.txGen + 1, root := s.dp.rootWritten } }).bump Evt.fences 1).finish id 0 0 0

/-! ### STORE_PTE (08 R243) -/

/-- The work of a STORE_PTE. -/
def storePteWork (e : Env) (a : Acc) (d : List Byte) : M Unit := do
  let x ← translate e a true (addrField d 16)
  let st := addrField d 48
  let y ← if st = 0 then pure 0 else translate e a true st
  let l ← readPhys e a (x / 64)
  let prior := if l.poison then 2 ^ 64 - 1 else field l.payload (x % 64) 8
  let store := !bit (field d 40 1) 0 || (!l.poison && prior == field d 32 8)
  if store then writeNow e (.part (x / 64) (x % 64) (slice d 24 8)) else pure ()
  if st = 0 then pure () else writeNow e (.part (y / 64) (y % 64) (natLE 8 prior))

/-- An earlier STORE_PTE of the same queue has not stored: they store in queue order (08 R243). -/
def State.pteHeld (s : State) (o : Op) : Bool :=
  s.ops.any fun p => decide (p.id < o.id) && p.q == o.q && opcodeOf p.desc == 0x0802
    && p.insts.any fun i => match i.phase with | .done => false | .running => true | .stalled => true

/-- STORE_PTE. -/
def execStorePte (id : Nat) (s : State) : Out :=
  .next <| match s.work id 0 0x0802 with
    | none => s
    | some (o, _) => if s.pteHeld o then s else s.perform o (storePteWork (s.envOf o) o.acc o.desc) (fun d => d) fun s _ => s.finish id 0 0 0

/-- XF_INFO_CLEAR: writing 1 to XF_INFO.VALID (08 R235). -/
def execXfInfoClear (s : State) : Out := .next { s with dp := { s.dp with xfValid := false } }

/-! ### BAR4 (08 R225, R251; 11 R353) -/

/-- How a host access meets a physical line: it waits for a domain in slack or powering up, and a domain that is off or a
failed stack does not take it. -/
inductive LineGo where
  | goes
  | waits
  | refused
deriving DecidableEq, Repr

/-- The line's domain, its stack and its mark, as an access of the host meets them (08 R224; 04 R136; 11 R353). -/
def State.lineGo (s : State) (l : Nat) : LineGo :=
  if s.dp.isFailed l then .refused
  else match (s.domain (lineDom l)).st with
    | .on => if (s.dp.marks.find? fun m => m.1 == l).isSome then .waits else .goes
    | .slack => .waits
    | .up => .waits
    | .off => .refused
    | .down => .refused

/-- The lines that len bytes from x on cover. -/
def coveredLines (x len : Nat) : List Nat := (List.range (ceilDiv (x % 64 + len) 64)).map (x / 64 + ·)

/-- The bytes of line l that an access covers: from and to, within the line. -/
def within (x len l : Nat) : Nat × Nat := (max x (64 * l) - 64 * l, min (x + len) (64 * l + 64) - 64 * l)

/-- The lines that a BAR4 read covers: address, bytes, whether the line read poisoned or uncorrectable. -/
def bar4Lines (e : Env) (x len : Nat) : List Nat → Data → List (Nat × List Byte × Bool) × Data
  | [], d => ([], d)
  | l :: ls, d =>
    let (lo, hi) := within x len l
    let r := d.readOver e l
    let (ps, d) := bar4Lines e x len ls r.2
    ((64 * l + lo, if r.1.poison then List.replicate (hi - lo) 0xFF else slice r.1.payload lo (hi - lo), r.1.poison) :: ps, d)

/-- Neighbouring parts that lie between the same two read completion boundaries become one completion, poisoned when a byte of it
is of a bad line (08 R251). -/
def joinParts (rcb : Nat) : List (Nat × List Byte × Bool) → List (Nat × List Byte × Bool)
  | [] => []
  | p :: ps =>
    match joinParts rcb ps with
    | [] => [p]
    | q :: qs => if p.1 / rcb = q.1 / rcb then (p.1, p.2.1 ++ q.2.1, p.2.2 || q.2.2) :: qs else p :: q :: qs

/-- The Read Completion Boundary of the function: 64 or 128 bytes (PCIe; log entry 27). -/
def readBoundary : Nat := if Config.readBoundary128 then 128 else 64

/-- Completions of a BAR4 read: one for the whole of it where every line is good, else cut at the Read Completion Boundary (08 R251;
log entry 27). -/
def bar4Parts (e : Env) (x len : Nat) (ls : List Nat) (d : Data) : List (Nat × List Byte × Bool) × Data :=
  let (ps, d) := bar4Lines e x len ls d
  (if ps.any (·.2.2) then joinParts readBoundary ps else [(x, ps.flatMap (·.2.1), false)], d)

/-- An access to a stack that is off or failed counts HOST_OFF_ACCESS and reports an advisory error (11 R353). -/
def State.offAccess (s : State) : State :=
  let s := s.bump Evt.hostOffAccess 1
  { s with out := .aer :: s.out }

/-- The size of the window. -/
def State.windowSize (s : State) : Nat := 2 ^ s.pci.bar4Log2.toNat

/-- A read of the window: an offset at or above it is not claimed. -/
def State.readWindow (s : State) (off len : Nat) : State :=
  let ls := coveredLines off len
  if s.windowSize < off + len ∨ len = 0 then s
  else if ls.any fun l => s.lineGo l = .refused then
    let s := s.offAccess
    { s with out := .bar4 [(off, List.replicate len 0xFF, true)] :: s.out }
  else
    let (ps, d) := bar4Parts (s.env 0) off len ls s.dp
    { s with dp := d, out := .bar4 ps :: s.out }

/-- One line of a BAR4 write. -/
def Data.bar4Line (d : Data) (e : Env) (x : Nat) (bytes : List Byte) (poisoned : Bool) (l : Nat) : Data :=
  let (lo, hi) := within x bytes.length l
  if poisoned then d.write e (.whole l zeroLine true)
  else d.write e (.part l lo (slice bytes (64 * l + lo - x) (hi - lo)))

/-- A write of the window: the lines whose stack is on; what goes to a stack that is off or failed is discarded. -/
def State.writeWindow (s : State) (off : Nat) (bytes : List Byte) (poisoned : Bool) : State :=
  let ls := coveredLines off bytes.length
  if s.windowSize < off + bytes.length ∨ bytes = [] then s
  else
    let off_ := ls.any fun l => s.lineGo l = .refused
    let d := (ls.filter fun l => s.lineGo l = .goes).foldl (fun d l => d.bar4Line (s.env 0) off bytes poisoned l) s.dp
    let s := { s with dp := d }
    if off_ then s.offAccess else s

/-! ### The side window (08 R252) -/

/-- The line that SIDE_ADDR names. -/
def State.sideLine (s : State) : Option Nat :=
  let a := s.dp.sideAddr.toNat
  if bits a 59 58 ≠ 3 then none
  else match privByte s.absent a with
    | .error _ => none
    | .ok x => some (x / 64)

/-- What a read of SIDE_DATA answers, and the state after it: 0 where SIDE_ADDR names no line, all ones where the line reads poisoned
or cannot be read. -/
def State.sideValue (s : State) : Reg × State :=
  match s.sideLine with
  | none => (0, s)
  | some l =>
    if s.lineGo l = .refused then (BitVec.allOnes 64, s)
    else
      let r := s.dp.readOver (s.env 0) l
      (if r.1.poison then BitVec.allOnes 64 else BitVec.ofNat 64 (leNat r.1.side), { s with dp := r.2 })

/-- A read of SIDE_DATA is answered. -/
def State.readSide (s : State) : State :=
  let r := s.sideValue
  { r.2 with out := .value r.1 :: r.2.out }

/-- A write of the bits of `mask` in SIDE_DATA. -/
def State.writeSide (s : State) (v mask : Reg) : State :=
  match s.sideLine with
  | none => s
  | some l =>
    match s.lineGo l with
    | .waits => s
    | .refused => s.bump Evt.sideReject 1
    | .goes =>
      let r := s.dp.readLine (s.env 0) l
      let s := { s with dp := r.2 }
      if r.1.poison then s.bump Evt.sideReject 1
      else
        let old : Reg := BitVec.ofNat 64 (leNat r.1.side)
        { s with dp := s.dp.storeLine l r.1.payload (natLE 8 ((old &&& ~~~mask) ||| (v &&& mask)).toNat) false }

/-! ### Accesses of the host that wait (11 R352, R353; 08 R224) -/

/-- An access of some size at an offset is accepted (R351). -/
def accessOk (off size : Nat) : Bool := (size == 4 || size == 8) && off % size == 0

/-- The lines that an access of the host needs. -/
def State.accessLines (s : State) (a : HostAccess) : List Nat :=
  match a with
  | .read off len => if s.windowSize < off + len ∨ len = 0 then [] else coveredLines off len
  | .write off bytes _ => if s.windowSize < off + bytes.length ∨ bytes = [] then [] else coveredLines off bytes.length
  | .sideRead => s.sideLine.toList
  | .register b off size _ => if b = .bar0 ∧ off / 8 * 8 = 0x1009038 ∧ accessOk off size = true then s.sideLine.toList else []
  | .doorbell _ _ => []
  | .mirrorRead => []

/-- An access has to wait for a domain, or for a line's mark. -/
def State.accessWaits (s : State) (a : HostAccess) : Bool := (s.accessLines a).any fun l => s.lineGo l = .waits

/-- A posted write: what comes later stays behind it. -/
def HostAccess.posted : HostAccess → Bool
  | .read _ _ => false
  | .write _ _ _ => true
  | .sideRead => false
  | .register _ _ _ _ => true
  | .doorbell _ _ => true
  | .mirrorRead => false

/-- A posted write waits. -/
def State.writeHeld (s : State) : Bool := s.pci.held.any HostAccess.posted

/-- An access is held. -/
def State.hold (s : State) (a : HostAccess) : State := { s with pci := { s.pci with held := s.pci.held ++ [a] } }

/-! ### The patrol scrub and retraining (08 R227, R250) -/

/-- What the scrub does with a line: an uncorrectable one is rewritten poisoned, with payload and side bytes zero. A cluster scrubs
its own memory, and a base die its stack's: no interface lies between (08 R250). -/
def Data.scrubLine (d : Data) (e : Env) (l : Nat) : Data :=
  let bs := d.stored l
  match decodeLine d.correct (bs.take 72) (bs.drop 72) with
  | .uncorrectable =>
    ((d.storeLine l (List.replicate 64 0) (List.replicate 8 0) true).bump Evt.scrubPoison 1).logEvent e Log.scrubPoison 0
      (lineUnit l) (lineNumber l)
  | x => (d.contain e l (bs.take 72) x).2

/-- The lines of the module: the stacks' and the berth memories'. -/
abbrev lineCount : Nat := berthBase + 800 * 2 ^ 15

/-- SCRUB of one line, while SCRUB_EN is set and the line's domain is on. -/
def execScrub (l : Nat) (s : State) : Out :=
  guarded (l < lineCount)
    (if s.dp.scrubEn && (s.domain (lineDom l)).st == .on && !s.dp.isFailed l
        && !(decide (berthBase ≤ l) && s.absent (lineCluster l)) then
      { s with dp := s.dp.scrubLine (s.env 0) l }
    else s)

/-- One retraining of a stack whose domain is on: RETRAIN counts; three successive failures put the stack into the failed
state. -/
def State.retrainStack (s : State) (x : Nat) (ok : Bool) : State :=
  if (s.domain (16 + x)).st ≠ .on ∨ s.dp.failed.contains x then s
  else
    let s := s.bump Evt.retrain 1
    if ok then { s with dp := { s.dp with retrainFails := tdel s.dp.retrainFails x } }
    else
      let n := tget 0 s.dp.retrainFails x + 1
      let s := { s with dp := { s.dp with retrainFails := tput s.dp.retrainFails x n } }
      if n < 3 then s
      else
        let s := { s with dp := { s.dp with failed := s.dp.failed ++ [x] } }
        (s.bump Evt.stackFail 1).logEvent Log.stackFail 0 x n

/-- RETRAIN_INTERFACE. -/
def execRetrainInterface (x : Nat) (ok : Bool) (s : State) : Out := guarded (x < 16) (s.retrainStack x ok)

end Sys2Proof.Machine
end

