-- ==== Sys2Proof/Machine/Entropy.lean ====
section
/-!
DEFINITION. The work of class 0x07 (05 R153 to R159, R486), string reseeds (R148, R149) and the health tests of the entropy
source (R151).
-/

namespace Sys2Proof.Machine

/-! ### FILL -/

/-- FILL (05 R158, R486). -/
def execFill (id : Nat) (s : State) : Out :=
  .next <| match s.work id 0 0x0701 with
    | none => s
    | some (o, _) =>
      let e := s.envOf o
      let dest := addrField o.desc 16
      let ls := fillLines s o
      let m : M Unit := do
        let ws ← putLines e o.acc dest ls false
        writeAll e ws
      match s.run m with
      | none => s
      | some (.ok _, d) => ({ s with dp := d }).finish id 0 0 0
      | some (.error f, d) =>
        let p : M Unit := do
          let ws ← poisonZero e o.acc dest ls.length
          writeAll e ws
        match ({ s with dp := d.xlateFault o.q f }).run p with
        | none => s
        | some (_, d) => (({ s with dp := d }).countFault o.desc).finish id 0 Code.xlateFault f.2

/-! ### The free-running state image (05 R153) -/

/-- Present clusters (01 R17). -/
def State.present (s : State) : Nat := ((List.range 800).filter fun n => !s.absent n).length

/-- An enabled physical cluster: one that stands behind a logical cluster, whether or not its self-test failed (15 R446, R447). -/
def State.enabled (s : State) (pc : Nat) : Bool := s.boot.map.any fun m => m.1 == pc

/-- The image, 852,032 bytes. -/
def State.freeImage (s : State) : List Byte :=
  natLE 2 1 ++ natLE 2 s.present ++ List.replicate 12 0 ++ natLE 16 s.rng.root.toNat ++ List.replicate 32 0
    ++ (List.range 832).flatMap fun pc => (List.range 128).flatMap fun l =>
      if s.enabled pc then natLE 8 (s.rng.counter pc l).toNat else List.replicate 8 0xFF

/-- SAVE. -/
def execSave (id : Nat) (s : State) : Out :=
  .next <| match s.work id 0 0x0702 with
    | none => s
    | some (o, _) =>
      let e := s.envOf o
      s.perform o (do
          let ws ← putBytes e o.acc (addrField o.desc 16) s.freeImage
          writeAll e ws) (fun d => d) fun s _ => s.finish id 0 0 0

/-- Lines of an image as bytes; those of a line that reads poisoned are open (log entry 28). -/
def openRead (e : Env) (a : Acc) (va : Nat) : Nat → M (List Byte)
  | 0 => pure []
  | n + 1 => do
    let l ← readVirt e a va
    let free ← M.ask (·.free)
    M.upd fun d => if l.poison then { d with free := d.free + 1 } else d
    let rest ← openRead e a (va + 64) n
    pure ((if l.poison then openBytes free 64 else l.payload) ++ rest)

/-- The saved counter of a string in an image. -/
def imageCounter (img : List Byte) (pc l : Nat) : Nat := field img (64 + 8 * (128 * pc + l)) 8

/-- Enabled strings whose saved counter is all ones. -/
def State.unsaved (s : State) (img : List Byte) : List (Nat × Nat) :=
  (List.range 832).flatMap fun pc => if !s.enabled pc then [] else
    ((List.range 128).filter fun l => imageCounter img pc l = 2 ^ 64 - 1).map fun l => (pc, l)

/-- The entries that an image gives a cluster's strings. -/
def loadedStrings (r : Rng) (img : List Byte) (pc : Nat) : Tab StrCtr :=
  (List.range 128).map fun l =>
    (128 * pc + l, ⟨BitVec.ofNat 64 (imageCounter img pc l), (tget ⟨0, 0⟩ r.doms (physDom pc)).tenths⟩)

/-- String reseeds of one event: they share one new counter key, and each counts (05 R149). -/
def State.reseedStrings (s : State) (xs : List (Nat × Nat)) : State :=
  if xs.isEmpty then s
  else
    let (kc, r) := s.rng.draw
    let r := xs.foldl (fun (r : Rng) x => r.setString x.1 x.2 (seededCounter kc x.1 x.2)) r
    ({ s with rng := r }).bump Evt.stringReseed xs.length

/-- Loads an image whose Present field agrees (05 R154). -/
def State.loadImage (s : State) (img : List Byte) : State :=
  let r := s.rng
  let strs := (List.range 832).flatMap fun pc =>
    if s.enabled pc then loadedStrings r img pc else r.strs.filter fun t => t.1 / 128 = pc
  let s := { s with rng := { r with root := BitVec.ofNat 128 (field img 16 16), strs := strs, seeded := true } }
  s.reseedStrings (s.unsaved img)

/-- A RESTORE needs seeds: the present counts differ, or an enabled string has no saved counter (05 R152, R154). -/
def State.restoreNeeds (s : State) (img : List Byte) : Bool := field img 2 2 != s.present || !(s.unsaved img).isEmpty

/-- The effect of a RESTORE, when the seeds it needs are there (05 R154). -/
def State.restoreImage (s : State) (img : List Byte) : State :=
  if field img 2 2 = s.present then s.loadImage img
  else ({ s with rng := { s.rng.reseed with reseeded := true } }).bump Evt.freeReseed 1

/-- Lines of an image. -/
abbrev imageLines : Nat := 13313

/-- RESTORE (05 R154): it waits for entropy when it needs seeds (R152). The header line, read at dispatch, is not read again (11 R484). -/
def execRestore (id : Nat) (s : State) : Out :=
  .next <| match s.work id 0 0x0703 with
    | none => s
    | some (o, _) =>
      match s.run (openRead (s.envOf o) o.acc (addrField o.desc 16 + 64) (imageLines - 1)) with
      | none => s
      | some (.error f, d) => (({ s with dp := d.xlateFault o.q f }).countFault o.desc).finish id 0 Code.xlateFault f.2
      | some (.ok bytes, d) =>
        let img := o.record Lab.image ++ bytes
        if s.restoreNeeds img && !s.rng.entOk then s
        else (({ s with dp := d }).restoreImage img).finish id 0 0 0

/-- RESEED (05 R155): it waits while ENT_OK is clear (R152). -/
def execReseed (id : Nat) (s : State) : Out :=
  .next <| match s.work id 0 0x0704 with
    | none => s
    | some _ =>
      if s.rng.entOk then (({ s with rng := s.rng.reseed }).bump Evt.freeReseed 1).finish id 0 0 0 else s

/-- The strings of a cluster domain run: while it is on, and until it is off, since R148 lets only slack hold them (05 R148;
DEDUCED for a domain that shuts down, log entry 67). -/
def State.stringsRun (s : State) (x : Nat) : Bool :=
  match (s.domain x).st with
  | .on => true
  | .down => true
  | .slack => false
  | .off => false
  | .up => false

/-- STRING_RESEED (05 R148): the string's free counter would pass 2^64 - 1; the reseed waits for entropy. -/
def execStringReseed (pc l : Nat) (s : State) : Out :=
  guarded (pc < 832 && l < 128)
    (if s.rng.entOk && s.stringsRun (physDom pc) && s.rng.runsOut pc l then s.reseedStrings [(pc, l)] else s)

/-- ENTROPY_HEALTH_FAIL (05 R151): the repetition count test's entry comes first. -/
def execEntropyHealthFail (rep adp : Bool) (s : State) : Out :=
  .next <|
    if !rep && !adp then s
    else
      let s := ({ s with rng := { s.rng with entOk := false } }).bump Evt.healthFail (b2n rep + b2n adp)
      let s := if rep then s.logEvent Log.entropyHealth 0 0 0 else s
      if adp then s.logEvent Log.entropyHealth 0 1 0 else s

/-- An operation that waits for seeds faults after 100 ms (05 R152). -/
def State.noEntropyOp (s : State) (id : Nat) : State :=
  if s.rng.entOk then s
  else match s.work id 0 0x0704 with
    | some (o, _) => (s.countFault o.desc).finish id 0 Code.noEntropy 0
    | none =>
      match s.work id 0 0x0703 with
      | none => s
      | some (o, _) =>
        match s.run (openRead (s.envOf o) o.acc (addrField o.desc 16 + 64) (imageLines - 1)) with
        | some (.ok bytes, _) =>
          if s.restoreNeeds (o.record Lab.image ++ bytes) then (s.countFault o.desc).finish id 0 Code.noEntropy 0 else s
        | _ => s

end Sys2Proof.Machine
end

