-- ==== Sys2Proof/Machine/Pool.lean ====
section
/-!
DEFINITION. What the stack base dies keep (09 R255 to R269, R274 to R279): sequence contexts, layouts, page pools and their
ledger, table slots, window tables and the prefix tree, with the drops (R291, R292) and evictions (R288) of the base dies.
-/

namespace Sys2Proof.Machine

/-! ### Accesses of a base die (log entry 29) -/

/-- The byte number that a register with a module-private Ivorn address names. -/
def ivornByte (a : Nat) : Option Nat := if bits a 59 48 = 0xC00 ∧ bits a 47 40 = 0 then some (bits a 39 0) else none

/-- A line as a base die reads it: the bytes of a poisoned line are open. -/
def Data.dieLine (d : Data) (l : Nat) : List Byte :=
  let x := d.peekLine l
  if x.poison then (List.range 64).map fun k => Config.openByte d.free (64 * l + k) else x.payload

/-- n bytes from byte number x on. -/
def Data.dieRead (d : Data) (x n : Nat) : List Byte :=
  slice ((List.range (ceilDiv (x % 64 + n) 64)).flatMap fun k => d.dieLine (x / 64 + k)) (x % 64) n

/-- A stack that has no power: a base die neither reads nor writes it (08 R224; log entry 29). -/
def State.unpowered (s : State) (x : Nat) : Bool := (s.domain (lineDom (x / 64))).st == .off

/-- n bytes from byte number x on, as the base die of their stack reads them. -/
def State.dieRead (s : State) (x n : Nat) : List Byte :=
  if s.unpowered x then (List.range n).map fun k => Config.openByte s.dp.free (x + k) else s.dp.dieRead x n

/-- A number in memory. -/
def State.dieNum (s : State) (x n : Nat) : Nat := leNat (s.dieRead x n)

/-- Writes bytes from byte number x on (08 R249, R483). -/
def Data.dieWrite (d : Data) (e : Env) (x : Nat) (bs : List Byte) : Data :=
  (bytesAt (bs.length + 1) x bs).foldl (fun d w => d.write e w) d

/-- Writes bytes from byte number x on. -/
def State.dieWrite (s : State) (x : Nat) (bs : List Byte) : State :=
  if s.unpowered x then s else { s with dp := s.dp.dieWrite (s.env 0) x bs }

/-- n bytes of zero. -/
def zeros (n : Nat) : List Byte := List.replicate n 0

/-! ### Layouts (09 R259, R260) -/

/-- A valid layout record. -/
structure Layout where
  latent : Bool
  heads : Nat
  dim : Nat
  kf : Fmt
  vf : Fmt
  sat : Bool
  floor : Nat
  ceil : Nat
  rank : Nat
  lf : Fmt
  uk : Nat
  uv : Nat
  /-- lines of a row -/
  rl : Nat
  /-- positions of a page -/
  per : Nat

/-- A KV format code. -/
def kvFmt : Nat → Option Fmt
  | 0 => some .t4
  | 1 => some .e4m3
  | 3 => some .bf16
  | _ => none

/-- Element width in bits. -/
def Fmt.width (f : Fmt) : Nat := 512 / f.perLine

/-- The fields of a layout record, once its formats are known. -/
def layoutWith (r : List Byte) (kf vf lf : Fmt) : Layout :=
  let latent := bits (field r 0 1) 1 0 = 1
  let h := 2 ^ bits (field r 1 1) 2 0
  let dh := 2 ^ bits (field r 2 1) 3 0
  let rank := 128 * 2 ^ bits (field r 6 1) 1 0
  let rl := if latent then rank * lf.width / 512 else dh * max kf.width vf.width / 512
  { latent := latent, heads := h, dim := dh, kf := kf, vf := vf, sat := bit (field r 3 1) 6, floor := field r 4 1,
    ceil := field r 5 1, rank := rank, lf := lf, uk := addrField r 8, uv := addrField r 16, rl := rl,
    per := if rl = 0 then 0 else if latent then 1024 / rl else 1024 / (2 * h * rl) }

/-- A reserved field of a layout record is nonzero. -/
def layoutReserved (r : List Byte) (latent : Bool) : Bool :=
  bits (field r 0 1) 7 2 != 0 || bits (field r 1 1) 7 3 != 0 || bits (field r 2 1) 7 4 != 0 || bit (field r 3 1) 7
    || anySet r 7 1 || anySet r 24 40
    || (latent && (bits (field r 6 1) 7 5 != 0 || addrTop r 8 != 0 || addrTop r 16 != 0))

/-- The layout that a record gives: none when it is invalid. -/
def layoutOf (r : List Byte) : Option Layout :=
  let latent := bits (field r 0 1) 1 0 = 1
  let lfCode := bits (field r 6 1) 4 2
  let lf? := if latent then (if lfCode = 1 then some Fmt.e4m3 else if lfCode = 3 then some .bf16 else none) else some .e4m3
  match kvFmt (bits (field r 3 1) 2 0), kvFmt (bits (field r 3 1) 5 3), lf? with
  | some kf, some vf, some lf =>
    let y := layoutWith r kf vf lf
    let dh := bits (field r 2 1) 3 0
    if layoutReserved r latent || decide (1 < bits (field r 0 1) 1 0) || bits (field r 1 1) 2 0 == 7
        || decide (dh < 5) || decide (8 < dh) || y.rl == 0 || y.per == 0 || kf.narrow != vf.narrow
        || y.floor == 0 || y.floor == 0xFF || y.ceil == 0xFF || decide (y.ceil < y.floor)
        || (latent && ((lf.narrow && !kf.narrow) || y.uk == 0 || y.uv == 0 || y.uk % 64 != 0 || y.uv % 64 != 0)) then none
    else some y
  | _, _, _ => none

/-- The layout record under an index; one that cannot be read is none (log entry 29). -/
def State.layoutRecord (s : State) (i : Nat) : Option (List Byte) :=
  match ivornByte s.seq.layoutBase.toNat with
  | none => none
  | some b => if s.unpowered b || (s.dp.peekLine (b / 64 + i)).poison then none else some (s.dieRead (b + 64 * i) 64)

/-- The layout under an index. -/
def State.layout (s : State) (i : Nat) : Option Layout := (s.layoutRecord i).bind layoutOf

/-- The 64 records as an operation takes them at its dispatch (R259): one that cannot be read is all ones, which is invalid. -/
def State.layoutTable (s : State) : List Byte :=
  (List.range 64).flatMap fun i => (s.layoutRecord i).getD (List.replicate 64 0xFF)

/-- Label of the layout records of an operation on sequences. -/
abbrev Lab.layouts : Nat := 7

/-- The layout of an index for an operation: of the records that it took at dispatch (R259). -/
def State.opLayout (s : State) (o : Op) (i : Nat) : Option Layout :=
  match o.recs.find? fun r => r.1 == Lab.layouts with
  | some r => layoutOf (slice r.2 (64 * i) 64)
  | none => s.layout i

/-! ### Contexts (09 R255 to R258) -/

/-- The home stack of a sequence. -/
def homeOf (id : Nat) : Nat := bits id 17 14

/-- An open context. -/
def State.ctx (s : State) (id : Nat) : Option Ctx := (s.seq.ctxs.find? fun c => c.1 == id).map (·.2)

/-- Sets a context. -/
def State.setCtx (s : State) (id : Nat) (c : Ctx) : State := { s with seq := { s.seq with ctxs := tput s.seq.ctxs id c } }

/-- Closes a context. -/
def State.dropCtx (s : State) (id : Nat) : State := { s with seq := { s.seq with ctxs := tdel s.seq.ctxs id } }

/-- Contexts homed at a stack. -/
def State.ctxsAt (s : State) (x : Nat) : List (Nat × Ctx) := s.seq.ctxs.filter fun c => homeOf c.1 = x

/-- The layout of a context. -/
def State.layoutFor (s : State) (c : Ctx) : Option Layout := s.layout c.layout.toNat

/-- The 64 bytes of a context record. -/
def ctxRecord : Option Ctx → List Byte
  | none => zeros 64
  | some c =>
    [1, BitVec.ofNat 8 (b2n c.recompute + 2 * b2n c.dropOk), BitVec.ofNat 8 (c.layout.toNat + 64 * c.prio.toNat), 0]
      ++ natLE 2 c.ns.toNat ++ natLE 2 0 ++ natLE 4 c.reserved.toNat ++ natLE 6 c.length.toNat ++ natLE 6 c.fill.toNat
      ++ natLE 6 c.retained.toNat ++ natLE 6 c.budget.toNat ++ natLE 4 c.protect.toNat ++ natLE 4 c.sink.toNat
      ++ natLE 4 c.decay.toNat ++ natLE 4 c.mapped.toNat ++ natLE 4 0 ++ natLE 8 c.root.toNat

/-! ### Pools and the ledger (09 R263 to R265) -/

/-- The pool registers of a stack. -/
def State.pool (s : State) (x : Nat) : PoolRegs := tget .reset s.seq.pools x

/-- Page states. -/
abbrev Page.free : Nat := 0
abbrev Page.kv : Nat := 1
abbrev Page.table : Nat := 2
abbrev Page.reserved : Nat := 3
abbrev Page.retiring : Nat := 4

/-- The byte numbers of a pool and of its ledger, when its registers name Ivorn addresses. -/
def PoolRegs.where_ (p : PoolRegs) : Option (Nat × Nat) :=
  match ivornByte p.base.toNat, ivornByte p.ledger.toNat with
  | some b, some l => some (b, l)
  | _, _ => none

/-- The pages of a pool. -/
def State.poolPages (s : State) (x : Nat) : Nat := if (s.pool x).where_.isSome then (s.pool x).size.toNat else 0

/-- The byte number of page p. -/
def State.pageByte (s : State) (x p : Nat) : Nat :=
  match (s.pool x).where_ with
  | some (b, _) => b + 2 ^ 16 * p
  | none => 0

/-- The byte number of page p's ledger entry. -/
def State.ledgerByte (s : State) (x p : Nat) : Nat :=
  match (s.pool x).where_ with
  | some (_, l) => l + 4096 * p
  | none => 0

/-- The first 128 bytes of a ledger entry. -/
structure Header where
  mask : Nat
  ref : Nat
  state : Nat
  layout : Nat
  ns : Nat
  gen : Nat
  tokens : Bool
  published : Bool
deriving DecidableEq, Repr

/-- A header of zeros. -/
def Header.zero : Header := ⟨0, 0, 0, 0, 0, 0, false, false⟩

/-- The header that 128 bytes hold. -/
def Header.of (b : List Byte) : Header :=
  ⟨field b 0 64, field b 64 4, field b 68 1, field b 69 1, field b 70 2, field b 72 2, bit (field b 74 1) 0, bit (field b 74 1) 1⟩

/-- Its bytes. -/
def Header.bytes (h : Header) : List Byte :=
  natLE 64 h.mask ++ natLE 4 h.ref ++ natLE 1 h.state ++ natLE 1 h.layout ++ natLE 2 h.ns ++ natLE 2 h.gen
    ++ natLE 1 (b2n h.tokens + 2 * b2n h.published) ++ zeros 53

/-- Reads a header. -/
def State.header (s : State) (x p : Nat) : Header := .of (s.dieRead (s.ledgerByte x p) 128)

/-- Pages that exist beyond a pool stand for pages that are short while an operation's need is counted (R268). -/
abbrev ghostPage : Nat := 2 ^ 20

/-- Writes a header. -/
def State.setHeader (s : State) (x p : Nat) (h : Header) : State :=
  if ghostPage ≤ p then s else s.dieWrite (s.ledgerByte x p) h.bytes

/-- Changes a header. -/
def State.updHeader (s : State) (x p : Nat) (f : Header → Header) : State := s.setHeader x p (f (s.header x p))

/-- The number of pages in a state. -/
def State.countPages (s : State) (x st : Nat) : Nat :=
  ((List.range (s.poolPages x)).filter fun p => (s.header x p).state = st).length

/-- The lowest page in a state. -/
def State.lowestPage (s : State) (x st : Nat) : Option Nat :=
  (List.range (s.poolPages x)).find? fun p => (s.header x p).state = st

/-- A page becomes RETIRING (R265). -/
def State.retirePage (s : State) (x p : Nat) : State :=
  (s.updHeader x p fun h => { h with state := Page.retiring, ref := 0, gen := (s.dp.txGen + 1).toNat }).bump Evt.pagesRetired 1

/-- The stack and the page of a pool that a byte number lies in. -/
def State.pageAt (s : State) (b : Nat) : Option (Nat × Nat) :=
  let x := b / 2 ^ 36
  match (s.pool x).where_ with
  | some (base, _) => if base ≤ b ∧ (b - base) / 2 ^ 16 < s.poolPages x then some (x, (b - base) / 2 ^ 16) else none
  | none => none

/-- One reference of a KV page falls away (R265). -/
def State.unref (s : State) (x p : Nat) : State :=
  let h := s.header x p
  if h.ref ≤ 1 then s.retirePage x p else s.setHeader x p { h with ref := h.ref - 1 }

/-! ### Taking pages and table slots (09 R267, R268) -/

/-- Work that takes pages: the module, and how many pages are short so far. -/
structure Taking where
  s : State
  short : Nat

/-- Takes a page for a context: from its reservation, then from FREE, lowest number first. -/
def Taking.page (k : Taking) (id : Nat) : Nat × Taking :=
  let x := homeOf id
  let reserved := match k.s.ctx id with
    | some c => if c.reserved = 0 then none else (k.s.lowestPage x Page.reserved).map fun p => (c, p)
    | none => none
  match reserved with
  | some (c, p) => (p, { k with s := (k.s.setCtx id { c with reserved := c.reserved - 1 }).bump Evt.pagesAllocated 1 })
  | none =>
    match k.s.lowestPage x Page.free with
    | some p => (p, { k with s := k.s.bump Evt.pagesAllocated 1 })
    | none => (ghostPage + k.short, { k with short := k.short + 1 })

/-- The key of a TABLE page in the slot table. -/
def slotKey (x p : Nat) : Nat := 2 ^ 21 * x + p

/-- Slots in use of a TABLE page. -/
def State.slotsOf (s : State) (x p : Nat) : List Nat := tget [] s.seq.slotUse (slotKey x p)

/-- Sets the slots in use of a TABLE page. -/
def State.setSlots (s : State) (x p : Nat) (us : List Nat) : State :=
  { s with seq := { s.seq with slotUse := tput s.seq.slotUse (slotKey x p) us } }

/-- The lowest run of n free slots, aligned to n. -/
def freeRun (used : List Nat) (n : Nat) : Option Nat :=
  (List.range (256 / n)).findSome? fun i =>
    if (List.range n).any fun k => used.contains (n * i + k) then none else some (n * i)

/-- The TABLE pages of a stack, lowest first. -/
def State.tablePages (s : State) (x : Nat) : List (Nat × List Nat) :=
  (s.seq.slotUse.filter fun e => e.1 / 2 ^ 21 = x).map fun e => (e.1 % 2 ^ 21, e.2)

/-- Takes n slots of a page and clears them: their byte number. -/
def Taking.claim (k : Taking) (x p n i : Nat) : Nat × Taking :=
  let s := k.s.setSlots x p ((List.range n).map (i + ·) ++ k.s.slotsOf x p)
  let b := s.pageByte x p + 256 * i
  (b, { k with s := s.dieWrite b (zeros (256 * n)) })

/-- Takes n aligned slots: of the lowest TABLE page with room, or of a new TABLE page. -/
def Taking.slots (k : Taking) (id n : Nat) : Nat × Taking :=
  let x := homeOf id
  match (k.s.tablePages x).findSome? fun e => (freeRun e.2 n).map fun i => (e.1, i) with
  | some (p, i) => k.claim x p n i
  | none =>
    let (p, k) := k.page id
    { k with s := k.s.setHeader x p { Header.zero with state := Page.table } }.claim x p n 0

/-- Gives n slots back; a TABLE page without slots retires. -/
def State.freeSlots (s : State) (b n : Nat) : State :=
  match s.pageAt b with
  | none => s
  | some (x, p) =>
    let i := (b - s.pageByte x p) / 256
    let us := (s.slotsOf x p).filter fun u => u < i || i + n ≤ u
    if us.isEmpty then
      ({ s with seq := { s.seq with slotUse := tdel s.seq.slotUse (slotKey x p) } }).retirePage x p
    else s.setSlots x p us

/-! ### Window tables (08 R231; 09 R258, R271) -/

/-- Entry i of a table. -/
def State.entry (s : State) (t i : Nat) : Nat := s.dieNum (t + 8 * i) 8

/-- Writes entry i of a table. -/
def State.setEntry (s : State) (t i v : Nat) : State := s.dieWrite (t + 8 * i) (natLE 8 v)

/-- The table or page that a valid entry names. -/
def entryByte (v : Nat) : Nat := bits v 47 8 * 256

/-- The entry of a table below: V = 1, L = 0. -/
def tableEntry (b : Nat) : Nat := b / 256 * 256 + 1

/-- The leaf of a mapped page (R271): V = 1, L = 1, W = 1, EDIT = 0, Target 0. -/
def leafEntry (b : Nat) (gen : Half) : Nat := b / 256 * 256 + 7 + gen.toNat * 2 ^ 48

/-- A hole (R288). -/
abbrev holeEntry : Nat := 2

/-- The root table of a context. -/
def Ctx.table (c : Ctx) : Nat := bits c.root.toNat 39 0

/-- The level-0 table of page j. -/
def State.level0 (s : State) (c : Ctx) (j : Nat) : Option Nat :=
  let e2 := s.entry c.table (j / 2 ^ 14)
  if !bit e2 0 then none
  else
    let e1 := s.entry (entryByte e2) (j / 32 % 512)
    if !bit e1 0 then none else some (entryByte e1)

/-- The leaf of page j, 0 where a table is missing. -/
def State.leaf (s : State) (c : Ctx) (j : Nat) : Nat :=
  match s.level0 c j with
  | some t => s.entry t (j % 32)
  | none => 0

/-- The pool page that a leaf maps. -/
def State.leafPage (s : State) (v : Nat) : Option (Nat × Nat) := if bit v 0 then s.pageAt (entryByte v) else none

/-- The table of page j, made where it is missing. -/
def Taking.table (k : Taking) (id : Nat) (c : Ctx) (j : Nat) : Nat × Taking :=
  let e2 := k.s.entry c.table (j / 2 ^ 14)
  let (t1, k) :=
    if bit e2 0 then (entryByte e2, k)
    else
      let (t1, k) := k.slots id 16
      (t1, { k with s := k.s.setEntry c.table (j / 2 ^ 14) (tableEntry t1) })
  let e1 := k.s.entry t1 (j / 32 % 512)
  if bit e1 0 then (entryByte e1, k)
  else
    let (t0, k) := k.slots id 1
    (t0, { k with s := k.s.setEntry t1 (j / 32 % 512) (tableEntry t0) })

/-- Some entry of a table is nonzero: a hole serves (log entry 29). -/
def State.tableUsed (s : State) (t n : Nat) : Bool := (List.range n).any fun i => s.entry t i != 0

/-- Writes leaf j as 0 and frees the tables that no longer serve a page (R295). -/
def State.clearLeaf (s : State) (c : Ctx) (j : Nat) : State :=
  match s.level0 c j with
  | none => s
  | some t0 =>
    let s := s.setEntry t0 (j % 32) 0
    if s.tableUsed t0 32 then s
    else
      let t1 := entryByte (s.entry c.table (j / 2 ^ 14))
      let s := (s.setEntry t1 (j / 32 % 512) 0).freeSlots t0 1
      if s.tableUsed t1 512 then s
      else (s.setEntry c.table (j / 2 ^ 14) 0).freeSlots t1 16

/-- Frees every table of a window in which no entry is left: drops clear leaves and free no table (R291, R295). -/
def State.freeEmptyTables (s : State) (c : Ctx) : State :=
  (List.range 1024).foldl (fun s i2 =>
    let e2 := s.entry c.table i2
    if !bit e2 0 then s
    else
      let t1 := entryByte e2
      let s := (List.range 512).foldl (fun s i1 =>
        let e1 := s.entry t1 i1
        if bit e1 0 && !s.tableUsed (entryByte e1) 32 then (s.setEntry t1 i1 0).freeSlots (entryByte e1) 1 else s) s
      if s.tableUsed t1 512 then s else (s.setEntry c.table i2 0).freeSlots t1 16) s

/-- The pages with a nonzero leaf, ascending, with their leaves. -/
def State.leaves (s : State) (c : Ctx) : List (Nat × Nat) :=
  (List.range 1024).flatMap fun i2 =>
    let e2 := s.entry c.table i2
    if !bit e2 0 then []
    else (List.range 512).flatMap fun i1 =>
      let e1 := s.entry (entryByte e2) i1
      if !bit e1 0 then []
      else (List.range 32).filterMap fun i0 =>
        let v := s.entry (entryByte e1) i0
        if v = 0 then none else some (2 ^ 14 * i2 + 32 * i1 + i0, v)

/-- Unmaps page j: its leaf becomes 0, its page loses a reference. -/
def State.unmap (s : State) (c : Ctx) (j : Nat) : State :=
  let v := s.leaf c j
  let s := s.clearLeaf c j
  match s.leafPage v with
  | some (x, p) => s.unref x p
  | none => s

/-! ### Positions -/

/-- The set bits among the low n bits of a mask. -/
def popcount (mask n : Nat) : Nat := ((List.range n).filter fun t => bit mask t).length

/-- Pages below FILL. -/
def Ctx.pages (c : Ctx) (per : Nat) : Nat := ceilDiv c.fill.toNat per

/-- Positions below FILL whose valid bit is set (R256). -/
def State.retainedOf (s : State) (c : Ctx) (per : Nat) : Nat :=
  ((List.range (c.pages per)).map fun j =>
    match s.leafPage (s.leaf c j) with
    | some (x, p) => popcount (s.header x p).mask (min per (c.fill.toNat - j * per))
    | none => 0).sum

/-- KV pages mapped in the window. -/
def State.mappedOf (s : State) (c : Ctx) : Nat := ((s.leaves c).filter fun e => bit e.2 0).length

/-- A context with its RETAINED and its mapped pages counted anew. -/
def State.recount (s : State) (id : Nat) (c : Ctx) : State :=
  let per := match s.layoutFor c with | some y => y.per | none => 1
  s.setCtx id { c with retained := BitVec.ofNat 48 (s.retainedOf c per), mapped := BitVec.ofNat 32 (s.mappedOf c) }

/-! ### The prefix tree (09 R274 to R276) -/

/-- A base die whose stack is on. -/
def State.stackOn (s : State) (x : Nat) : Bool := !(s.env 0).isOff (16 + x)

/-- A prefix-tree entry. -/
structure Node where
  hash : Nat
  parent : Nat
  page : Nat
  stack : Nat
  valid : Bool
  layout : Nat
  ns : Nat
  last : Nat
deriving DecidableEq, Repr

/-- The entry that 32 bytes hold. -/
def Node.of (b : List Byte) : Node :=
  ⟨field b 0 8, field b 8 8, bits (field b 16 3) 19 0, bits (field b 16 3) 23 20, bit (field b 19 1) 7, bits (field b 19 1) 5 0,
    field b 20 2, field b 24 8⟩

/-- Its bytes. -/
def Node.bytes (n : Node) : List Byte :=
  natLE 8 n.hash ++ natLE 8 n.parent ++ natLE 3 (n.page % 2 ^ 20 + n.stack * 2 ^ 20) ++ natLE 1 (n.layout + 128 * b2n n.valid)
    ++ natLE 2 n.ns ++ natLE 2 0 ++ natLE 8 n.last

/-- Where entry i of a slice lies, when the stack is on and its register names an Ivorn address. -/
def State.nodeByte (s : State) (x i : Nat) : Option Nat :=
  if s.stackOn x then (ivornByte (s.pool x).slice.toNat).map (· + 32 * i) else none

/-- Entry i of a slice. -/
def State.node (s : State) (x i : Nat) : Option Node := (s.nodeByte x i).map fun b => .of (s.dieRead b 32)

/-- Writes entry i of a slice. -/
def State.setNode (s : State) (x i : Nat) (n : Node) : State :=
  match s.nodeByte x i with
  | some b => s.dieWrite b n.bytes
  | none => s

/-- The entries of every slice that are VALID: stack, index, entry. -/
def State.validNodes (s : State) : List (Nat × Nat × Node) :=
  (List.range 16).flatMap fun x => (List.range 65536).filterMap fun i =>
    match s.node x i with
    | some n => if n.valid then some (x, i, n) else none
    | none => none

/-- Slice x holds no valid entry. -/
def State.sliceEmpty (s : State) (x : Nat) : Bool :=
  (List.range 65536).all fun i => match s.node x i with
    | some n => !n.valid
    | none => true

/-- The hash of a page of tokens (R274). -/
def pageHash (key : BitVec 128) (parent ns layout : Nat) (tokens : List Byte) : Nat :=
  (sipHash24 key (natLE 8 parent ++ natLE 2 ns ++ natLE 1 layout ++ zeros 5 ++ tokens)).toNat

/-- The tokens that the ledger holds for a page's first rows. -/
def State.pageTokens (s : State) (x p per : Nat) : List Byte := s.dieRead (s.ledgerByte x p + 1152) (4 * per)

/-- What a lookup finds. -/
inductive Lookup where
  | hit (stack i : Nat) (n : Node)
  | collision
  | miss

/-- The tests of R276 on an entry that has passed the hash test. -/
def State.nodeMatches (s : State) (n : Node) (parent ns layout : Nat) (tokens : List Byte) : Bool :=
  n.parent == parent && n.layout == layout && n.ns == ns && s.stackOn n.stack
    && (s.header n.stack n.page).tokens && s.pageTokens n.stack n.page (tokens.length / 4) == tokens

/-- Looks a hash up in its bucket. -/
def State.lookup (s : State) (h parent ns layout : Nat) (tokens : List Byte) : Lookup :=
  let x := bits h 63 60
  let b := 4 * bits h 13 0
  match (List.range 4).findSome? fun k =>
      match s.node x (b + k) with
      | some n => if n.valid && n.hash == h then some (b + k, n) else none
      | none => none with
  | none => .miss
  | some (i, n) => if s.nodeMatches n parent ns layout tokens then .hit x i n else .collision

/-! ### Drops (09 R291, R292) -/

/-- FREE + RETIRING of a pool. -/
def State.slackPages (s : State) (x : Nat) : Nat := s.countPages x Page.free + s.countPages x Page.retiring

/-- A valid entry that names a page of pool x with no other reference: its last use, its place, and its page. -/
def State.treeOnly (s : State) (x : Nat) : List (Nat × Nat × Nat × Nat) :=
  s.validNodes.filterMap fun (y, i, n) =>
    if n.stack = x ∧ n.page < s.poolPages x ∧ (s.header x n.page).state = Page.kv ∧ (s.header x n.page).ref = 1 then
      some (n.last, y, i, n.page)
    else none

/-- Inserts into a list that a test keeps in order; equals stay in their order. -/
def insertBy {α : Type} (before : α → α → Bool) (x : α) : List α → List α
  | [] => [x]
  | y :: ys => if before x y then x :: y :: ys else y :: insertBy before x ys

/-- Sorts by a test, stably. -/
def sortBy {α : Type} (before : α → α → Bool) (xs : List α) : List α := xs.foldl (fun acc x => insertBy before x acc) []

/-- Drops pages that only the tree names, oldest last use first, until the target is reached. -/
def State.dropTree (s : State) (x target : Nat) : State :=
  (sortBy (fun (a b : Nat × Nat × Nat × Nat) => decide (a.1 < b.1)) (s.treeOnly x)).foldl (fun s (_, y, i, p) =>
    if target ≤ s.slackPages x then s
    else match s.node y i with
      | some n => ((s.setNode y i { n with valid := false }).retirePage x p).bump Evt.pagesDropped 1
      | none => s) s

/-- Drops a victim's pages from the highest downward; `low` is the lowest page dropped. -/
def State.dropPages (s : State) (x target : Nat) (c : Ctx) : List (Nat × Nat) → Option Nat → State × Option Nat
  | [], low => (s, low)
  | (j, v) :: rest, low =>
    if target ≤ s.slackPages x then (s, low)
    else match s.leafPage v with
      | none => (s, low)
      | some (y, p) =>
        if (s.header y p).ref ≠ 1 then (s, low)
        else
          let s := match s.level0 c j with
            | some t => s.setEntry t (j % 32) 0
            | none => s
          ((s.unref y p).bump Evt.pagesDropped 1).dropPages x target c rest (some j)

/-- Drops from one victim. -/
def State.dropVictim (s : State) (x target id : Nat) (c : Ctx) : State :=
  let (s, low) := s.dropPages x target c ((s.leaves c).filter fun e => bit e.2 0).reverse none
  match low with
  | none => s
  | some j =>
    let per := match s.layoutFor c with | some y => y.per | none => 1
    (s.recount id { c with fill := BitVec.ofNat 48 (min c.fill.toNat (j * per)), recompute := true }).bump Evt.seqDrops 1

/-- The victims of a drop: ascending priority, then descending sequence ID, without the allocating context. -/
def State.victims (s : State) (x except_ : Nat) : List (Nat × Ctx) :=
  sortBy (fun (a b : Nat × Ctx) => decide (a.2.prio.toNat < b.2.prio.toNat)) (((s.ctxsAt x).filter fun c =>
    c.2.dropOk && decide (c.1 ≠ except_)).reverse)

/-- The check after an allocation of context `id` from its pool (R291). -/
def State.checkDrops (s : State) (id : Nat) : State :=
  let x := homeOf id
  let m := s.pool x
  if m.low.toNat ≤ s.slackPages x then s
  else
    let target := max m.low.toNat m.high.toNat
    let s := s.dropTree x target
    (s.victims x id).foldl (fun s v => if target ≤ s.slackPages x then s else s.dropVictim x target v.1 v.2) s

/-! ### Evictions (09 R288) -/

/-- A candidate: its score, position, page and row. -/
structure Cand where
  score : FV
  pos : Nat
  j : Nat
  t : Nat

/-- The order of evictions: a NaN score first, then ascending score, then ascending position. -/
def Cand.before (a b : Cand) : Bool :=
  if a.score.isNaN != b.score.isNaN then a.score.isNaN
  else if !a.score.isNaN && FV.lt a.score b.score then true
  else if !a.score.isNaN && FV.lt b.score a.score then false
  else decide (a.pos < b.pos)

/-- The score of row t of a page. -/
def State.score (s : State) (x p t : Nat) : FV := decodeBf16 (s.dieNum (s.ledgerByte x p + 128 + 2 * t) 2)

/-- The candidates of a context. -/
def State.candidates (s : State) (c : Ctx) (per : Nat) : List Cand :=
  (List.range (c.pages per)).flatMap fun j =>
    match s.leafPage (s.leaf c j) with
    | none => []
    | some (x, p) =>
      let h := s.header x p
      if h.ref ≠ 1 then []
      else (List.range per).filterMap fun t =>
        let pos := j * per + t
        if pos < c.fill.toNat ∧ bit h.mask t ∧ c.sink.toNat ≤ pos ∧ pos + c.protect.toNat < c.fill.toNat then
          some ⟨s.score x p t, pos, j, t⟩
        else none

/-- Evicts one position: a page whose mask becomes empty gives way to a hole. -/
def State.evict (s : State) (c : Ctx) (k : Cand) : State :=
  match s.leafPage (s.leaf c k.j) with
  | none => s
  | some (x, p) =>
    let s := (s.updHeader x p fun h => { h with mask := setBits h.mask k.t k.t 0 }).bump Evt.positionsEvicted 1
    if (s.header x p).mask ≠ 0 then s
    else match s.level0 c k.j with
      | none => s
      | some t => (s.setEntry t (k.j % 32) holeEntry).unref x p

/-- Evicts from one context until RETAINED equals BUDGET or no candidate is left. -/
def State.evictCtx (s : State) (id : Nat) (c : Ctx) : State :=
  match s.layoutFor c with
  | none => s
  | some y =>
    if c.budget = 0 ∨ c.retained.toNat ≤ c.budget.toNat then s
    else
      let ks := (sortBy Cand.before (s.candidates c y.per)).take (c.retained.toNat - c.budget.toNat)
      (ks.foldl (fun s k => s.evict c k) s).recount id c

/-- The evictions of a base die. -/
def State.evictStack (s : State) (x : Nat) : State :=
  (s.ctxsAt x).foldl (fun s e => match s.ctx e.1 with
    | some c => s.evictCtx e.1 c
    | none => s) s

/-! ### The pool registers (09 R303, R304) -/

/-- The condition of R303 on a pool: no context homed there, every page FREE or RETIRING, no valid entry in its slice. -/
def State.poolIdle (s : State) (x : Nat) : Bool :=
  (s.ctxsAt x).isEmpty && s.sliceEmpty x
    && (List.range (s.poolPages x)).all fun p =>
      let st := (s.header x p).state
      st == Page.free || st == Page.retiring

/-- Reinitialises a pool and its slice, line by line: a poisoned line is written whole (08 R249). -/
def State.initPool (s : State) (x : Nat) : State :=
  let s := { s with seq := { s.seq with slotUse := s.seq.slotUse.filter fun e => e.1 / 2 ^ 21 ≠ x } }
  let s := (List.range (s.poolPages x)).foldl (fun s p => s.setHeader x p .zero) s
  match ivornByte (s.pool x).slice.toNat with
  | some b => (List.range 32768).foldl (fun s i => s.dieWrite (b + 64 * i) (zeros 64)) s
  | none => s

/-- A pool register's new value: PAGES above 1,048,576 is stored as 1,048,576. -/
def PoolRegs.write (p : PoolRegs) (r : PoolReg) (v : Reg) : PoolRegs :=
  match r with
  | .base => { p with base := v.setWidth 60 }
  | .size => { p with size := BitVec.ofNat 21 (min (bits v.toNat 20 0) (2 ^ 20)) }
  | .ledger => { p with ledger := v.setWidth 60 }
  | .slice => { p with slice := v.setWidth 60 }

/-- A write to a pool, ledger or slice base register. -/
def State.writePool (s : State) (x : Nat) (r : PoolReg) (v : Reg) : State :=
  if s.poolIdle x then
    ({ s with seq := { s.seq with pools := tupd .reset s.seq.pools x fun p => p.write r v } }).initPool x
  else s.bump Evt.seqCfgReject 1

/-- POOL_CONFIG_WRITE. -/
def execPoolConfigWrite (x : Nat) (r : PoolReg) (v : Reg) (s : State) : Out := guarded (x < 16) (s.writePool x r v)

/-- A write of a half of the prefix key, subject to the condition on slices. -/
def State.writeKey (s : State) (high : Bool) (v : Reg) : State :=
  if (List.range 16).all s.sliceEmpty then
    let k := s.seq.key.toNat
    { s with seq := { s.seq with key := BitVec.ofNat 128 (if high then setBits k 127 64 v.toNat else setBits k 63 0 v.toNat) } }
  else s.bump Evt.seqCfgReject 1

/-- PREFIX_KEY_WRITE. -/
def execPrefixKeyWrite (high : Bool) (v : Reg) (s : State) : Out := .next (s.writeKey high v)

/-- A RETIRING page becomes FREE when its generation is no longer ahead of TX_MINPIN (R265). -/
def State.freePage (s : State) (x p : Nat) : State :=
  let h := s.header x p
  if p < s.poolPages x ∧ h.state = Page.retiring ∧ aheadOf h.gen s.minPin.toNat = false then
    s.updHeader x p fun h => { h with state := Page.free }
  else s

/-- PAGE_FREE. -/
def execPageFree (x p : Nat) (s : State) : Out := guarded (x < 16) (s.freePage x p)

end Sys2Proof.Machine
end

