-- ==== Sys2Proof/Machine/Seq.lean ====
section
/-!
DEFINITION. The single-sequence operations of class 0x05 (09 R256 to R258, R268 to R279, R293 to R302): dispatch checks,
OPEN, CLOSE, APPEND, TRUNCATE, RESERVE, MATCH, PUBLISH, QUERY.
-/

namespace Sys2Proof.Machine

/-! ### Dispatch checks (09 R298) -/

/-- The sequence ID of a single-sequence operation. -/
def seqId (d : List Byte) : Nat := bits (field d 16 3) 17 0

/-- An attention operation. -/
def isAttend (d : List Byte) : Bool := operOf d == 8 || operOf d == 9

/-- Row 1. The ID's bits [23:18] and APPEND's source format stand in rows 3 and 4 (log entry 30). -/
def seqReserved (d : List Byte) : Bool :=
  let single := anySet d 19 5 || addrTop d 24 != 0
  match operOf d with
  | 1 => single || bits (field d 33 1) 7 2 != 0 || bit (field d 33 1) 0 || anySet d 54 10
  | 2 => single || anySet d 32 32
  | 3 => single || addrTop d 32 != 0 || addrTop d 40 != 0 || addrTop d 48 != 0 || anySet d 60 4
  | 4 => single || anySet d 38 26
  | 5 => single || anySet d 36 28
  | 6 => single || addrTop d 32 != 0 || anySet d 46 18
  | 7 => single || anySet d 32 32
  | 8 => addrTop d 16 != 0 || bit (field d 36 1) 7 || bits (field d 37 1) 7 2 != 0 || bits (field d 39 1) 7 5 != 0
      || anySet d 44 20
  | 9 => addrTop d 16 != 0 || bits (field d 37 1) 7 2 != 0 || bits (field d 39 1) 7 5 != 0 || anySet d 44 20
  | 10 => single || addrTop d 32 != 0 || anySet d 40 24
  | _ => false

/-- Attention descriptor fields: Q and O format codes. -/
def atQ (d : List Byte) : Nat := bits (field d 36 1) 2 0
/-- O format code. -/
def atO (d : List Byte) : Nat := bits (field d 36 1) 5 3
/-- Group. -/
def atG (d : List Byte) : Nat := field d 38 1
/-- Course-count code. -/
def atCode (d : List Byte) : Nat := bits (field d 39 1) 4 2
/-- Run length. -/
def atL (d : List Byte) : Nat := 16 * 2 ^ bits (field d 39 1) 1 0

/-- The V source of an APPEND does not suit the layout. -/
def vSourceBad (y : Layout) (d : List Byte) : Bool := y.latent != (addrField d 40 == 0)

/-- Row 5 for the engine's working region. -/
def berthBad (s : State) : Bool :=
  let size := 1024 * s.seq.attnSize.toNat
  decide (size < 2 ^ 18) || decide (2 ^ 21 < s.seq.attnOffset.toNat + size)

/-- The logical clusters of a fabric. -/
def fabricClusters (bass : Bool) : List Nat := if bass then (List.range 512).map (256 + ·) else List.range 256

/-- The cluster domains that an attention operation uses: its fabric's and those of the present service clusters. -/
def attendDomains (e : Env) (bass : Bool) : List Nat :=
  (List.range 4).map (fun i => 4 * i + b2n bass) ++ ((serviceClusters.filter fun n => !e.absent n).map clusterDom)

/-- The dispatch checks of class 0x05. -/
def checkSeq (s : State) (e : Env) (d : List Byte) : Chk Plan := do
  let o := operOf d
  Chk.row (seqReserved d) Code.rsvdSet
  Chk.row (o == 0 || decide (10 < o)) Code.badOpcode
  let at_ := isAttend d
  Chk.row (!at_ && decide (2 ^ 18 ≤ field d 16 3)) Code.badTarget
  Chk.row ((o == 1 && (s.layout (bits (field d 32 1) 5 0)).isNone) || (o == 3 && decide (1 < field d 59 1))
    || (at_ && ((kvFmt (atQ d)).isNone || (atO d != 3 && atO d != 4)))) Code.badFormat
  let vBad := match s.ctx (seqId d) with
    | some c => match s.layoutFor c with | some y => vSourceBad y d | none => false
    | none => false
  Chk.row ((o == 3 && (field d 56 3 == 0 || vBad))
    || (at_ && (field d 24 4 == 0 || ! [1, 2, 4, 8, 16, 32, 64].contains (atG d) || decide (4 < atCode d) || berthBad s)))
    Code.badShape
  let off (x : Nat) : Bool := addrField d x % 64 != 0
  Chk.row ((at_ && off 16) || (!at_ && addrField d 24 % 8 != 0) || (o == 3 && (off 32 || off 40 || off 48))
    || ((o == 6 || o == 10) && off 32)) Code.badAlign
  Chk.row (at_ && (fabricClusters (o == 9)).any e.absent) Code.clusterAbsent
  Chk.row (serviceClusters.all e.absent) Code.clusterAbsent
  let doms := if at_ then attendDomains e (o == 9) else [16 + homeOf (seqId d)]
  Chk.row (doms.any e.isOff) Code.domainOff
  Chk.block (doms.any e.mustWake)
  pure (Plan.one [(Lab.layouts, s.layoutTable)] [])

/-! ### The order of operations on a sequence (09 R257) -/

/-- The sequences of the batch entries, as far as they can be read. -/
def batchIds (e : Env) (a : Acc) (va : Nat) : Nat → M (List Nat)
  | 0 => pure []
  | n + 1 => do
    match ← M.attempt (readVirt e a va) with
    | .error _ => pure []
    | .ok l => do
      let ids ← batchIds e a (va + 128) n
      pure (bits (field l.payload 32 3) 17 0 :: ids)

/-- Labels of a FERRY: its ATTEND descriptor, and the number that says that its command has packed the local context
(10 R340). -/
abbrev Lab.ferryAttend : Nat := 1
/-- An operation of class 0x06 has sent its messages, or packed its block. -/
abbrev Lab.sent : Nat := 1

/-- The attention descriptor that names an operation's batch: its own, or the one that a FERRY names. -/
def attendDesc (o : Op) : List Byte := if opcodeOf o.desc = 0x0603 then o.record Lab.ferryAttend else o.desc

/-- The sequences that an operation works on. -/
def State.sequencesOf (s : State) (o : Op) : List Nat :=
  let d := attendDesc o
  if isAttend d then
    match (batchIds (s.envOf o) ⟨o.ahead, o.pin.toNat⟩ (addrField d 16) (field d 24 4) ⟨s.dp, false⟩).1 with
    | .ok ids => ids
    | .error _ => []
  else [seqId d]

/-- An operation that works on a sequence and has not taken effect: of class 0x05, or a FERRY that has not packed its
local context. -/
def Op.holdsSeq (o : Op) : Bool :=
  (classOf o.desc == 5 || (opcodeOf o.desc == 0x0603 && o.num Lab.sent == 0))
    && o.insts.any fun i => match i.phase with | .done => false | .running => true | .stalled => true

/-- An earlier operation on one of its sequences has not taken effect. -/
def State.seqHeld (s : State) (o : Op) : Bool :=
  let mine := s.sequencesOf o
  s.ops.any fun p => decide (p.id < o.id) && p.holdsSeq && (s.sequencesOf p).any fun i => mine.contains i

/-! ### Status words (09 R293) -/

/-- Status results. -/
abbrev Seq.ok : Nat := 0
abbrev Seq.droppedResult : Nat := 1
abbrev Seq.edited : Nat := 2
abbrev Seq.nospace : Nat := 3
abbrev Seq.notOpen : Nat := 4
abbrev Seq.alreadyOpen : Nat := 5
abbrev Seq.xlate : Nat := 6
abbrev Seq.badState : Nat := 7

/-- The 8 bytes of a status word. -/
def seqStatus (result detail value : Nat) : List Byte := natLE 1 result ++ natLE 1 detail ++ natLE 6 value

/-- What a single-sequence operation comes to. -/
inductive SeqEnd where
  /-- status result and value, after its effects -/
  | status (s : State) (result value : Nat)
  /-- a translation fault of its reads or of its destination -/
  | fault (s : State) (f : XfKind × Nat)
  /-- it must wait -/
  | waits

/-- XLATE_FAULT of a class 0x05 operation. -/
def State.seqFault (s : State) (o : Op) (f : XfKind × Nat) : State :=
  (({ s with dp := s.dp.xlateFault o.q f }).countFault o.desc).finish o.id 0 Code.xlateFault f.2

/-- Ends with a status: its word is written where an address is given; a fault there leaves the other effects (R299). -/
def State.endSeq (s : State) (o : Op) (result value : Nat) : Option State :=
  let s := if result = Seq.ok then s else s.bump Evt.seqStatus 1
  let st := addrField o.desc 24
  if st = 0 then some (s.finish o.id 0 0 0)
  else
    match s.run (do
        let ws ← putBytes (s.envOf o) ⟨none, o.pin.toNat⟩ st (seqStatus result 0 value)
        writeAll (s.envOf o) ws) with
    | none => none
    | some (.ok _, d) => some (({ s with dp := d }).finish o.id 0 0 0)
    | some (.error f, d) => some (({ s with dp := d }).seqFault o f)

/-- The command of a single-sequence operation: it waits for the earlier operations on its sequence. -/
def State.seqOp (s : State) (id opcode : Nat) (body : State → Op → SeqEnd) : State :=
  match s.work id 0 opcode with
  | none => s
  | some (o, _) =>
    if s.seqHeld o then s
    else match body s o with
      | .waits => s
      | .fault s f => s.seqFault o f
      | .status s' r v => (s'.endSeq o r v).getD s

/-- The body of an operation that needs an open context (R300). -/
def State.onOpen (s : State) (o : Op) (body : Ctx → SeqEnd) : SeqEnd :=
  match s.ctx (seqId o.desc) with
  | none => .status s Seq.notOpen 0
  | some c => body c

/-- The body of an operation that needs an open context with a valid layout. -/
def State.onLayout (s : State) (o : Op) (body : Ctx → Layout → SeqEnd) : SeqEnd :=
  s.onOpen o fun c => match s.opLayout o c.layout.toNat with
    | none => .status s Seq.badState 0
    | some y => body c y

/-- The drop check of an operation that took pages (R291). -/
def State.afterTaking (s old : State) (id : Nat) : State :=
  if tget 0 s.dp.evts Evt.pagesAllocated = tget 0 old.dp.evts Evt.pagesAllocated then s else s.checkDrops id

/-! ### OPEN and CLOSE (09 R258, R296) -/

/-- The context that an OPEN makes, without its root. -/
def openCtx (d : List Byte) : Ctx :=
  { recompute := false, dropOk := bit (field d 33 1) 1, layout := BitVec.ofNat 6 (field d 32 1),
    prio := BitVec.ofNat 2 (field d 32 1 / 64), ns := BitVec.ofNat 16 (field d 34 2), reserved := 0, length := 0, fill := 0,
    retained := 0, budget := BitVec.ofNat 48 (field d 36 6), protect := BitVec.ofNat 32 (field d 42 4),
    sink := BitVec.ofNat 32 (field d 46 4), decay := BitVec.ofNat 32 (field d 50 4), mapped := 0, root := 0 }

/-- The module-private address of an Ivorn byte. -/
def privAddr (b : Nat) : Nat := 0xC00 * 2 ^ 48 + b

/-- The work of an OPEN. -/
def openBody (s : State) (o : Op) : SeqEnd :=
  let id := seqId o.desc
  match s.ctx id with
  | some _ => .status s Seq.alreadyOpen 0
  | none =>
    let (b, k) := (Taking.mk s 0).slots id 32
    if k.short ≠ 0 then .status s Seq.nospace k.short
    else .status ((k.s.setCtx id { openCtx o.desc with root := BitVec.ofNat 60 (privAddr b) }).afterTaking s id) Seq.ok 0

/-- OPEN. -/
def execOpenSeq (id : Nat) (s : State) : Out := .next (s.seqOp id 0x0501 openBody)

/-- Reserved pages retire, lowest first. -/
def State.unreserve (s : State) (x n : Nat) : State :=
  (((List.range (s.poolPages x)).filter fun p => (s.header x p).state = Page.reserved).take n).foldl
    (fun s p => s.retirePage x p) s

/-- Every table of a context gives its slots back. -/
def State.freeTables (s : State) (c : Ctx) : State :=
  let s := (List.range 1024).foldl (fun s i2 =>
    let e2 := s.entry c.table i2
    if !bit e2 0 then s
    else
      let t1 := entryByte e2
      let s := (List.range 512).foldl (fun s i1 =>
        let e1 := s.entry t1 i1
        if bit e1 0 then s.freeSlots (entryByte e1) 1 else s) s
      s.freeSlots t1 16) s
  s.freeSlots c.table 32

/-- The work of a CLOSE: its value is the number of pages unmapped. -/
def closeBody (s : State) (o : Op) : SeqEnd :=
  let id := seqId o.desc
  s.onOpen o fun c =>
    let pages := (s.leaves c).filterMap fun e => s.leafPage e.2
    let s := pages.foldl (fun s xp => s.unref xp.1 xp.2) s
    let s := (s.freeTables c).unreserve (homeOf id) c.reserved.toNat
    .status (s.dropCtx id) Seq.ok pages.length

/-- CLOSE. -/
def execCloseSeq (id : Nat) (s : State) : Out := .next (s.seqOp id 0x0502 closeBody)

/-! ### APPEND (09 R270 to R273) -/

/-- A source of an APPEND: t packed rows. -/
def appendMat (d : List Byte) (addr len : Nat) : Mat :=
  let f : Fmt := if bit (field d 59 1) 0 then .bf16 else .f32
  ⟨addr, 64 * f.linesPerRow len, f, field d 56 3, len, 0⟩

/-- What an APPEND reads: rows of its K or latent source, rows of its V source, token bytes. -/
structure Sources where
  k : List (List FV)
  v : List (List FV)
  tokens : List Byte

/-- Reads every source line and token. -/
def appendRead (e : Env) (a : Acc) (d : List Byte) (y : Layout) : M Sources := do
  let t := field d 56 3
  let len := if y.latent then y.rank else y.heads * y.dim
  let k ← readMat e a (appendMat d (addrField d 32) len) fun _ _ => true
  let v ← if y.latent then pure [] else (do
    let x ← readMat e a (appendMat d (addrField d 40) len) fun _ _ => true
    pure x.rows)
  let tok ← if addrField d 48 = 0 then pure [] else openRead e a (addrField d 48) (ceilDiv (4 * t) 64)
  pure ⟨k.rows, v, tok.take (4 * t)⟩

/-- The conversion parameters of a layout (R262: no list, side bytes 5 to 7 zero). -/
def Layout.params (y : Layout) (f : Fmt) : ConvParams :=
  { target := f, t := 0, floor := y.floor, ceil := y.ceil, sat := y.sat, stoch := false, gen := 0, tag := 0 }

/-- A converted row: its lines, its clipped or saturated elements, its flushed elements. -/
structure KvRow where
  lines : List LineOut
  clipped : Nat
  flushed : Nat

/-- Converts a row for the cache: R54 to R56, or R58 and R60 for BF16; a BF16 source is copied. -/
def kvRow (y : Layout) (f : Fmt) (fromBf16 : Bool) (xs : List FV) : KvRow :=
  if f.narrow then
    let r := convertRow (y.params f) none 0 (fun _ => none) none xs
    ⟨r.lines, r.counts.getD 2 0 + r.counts.getD 3 0, r.counts.getD 1 0⟩
  else if fromBf16 then
    ⟨(chunksOf 32 xs.length xs).map fun c => ⟨Fmt.bf16.pack (c.map encodeBf16), zeros 8⟩, 0, 0⟩
  else
    let rs := xs.map (toBf16 y.sat)
    ⟨wideRow .bf16 y.sat (zeros 8) xs, (rs.filter fun r => r.clipped || r.saturated).length, (rs.filter (·.flushed)).length⟩

/-- Elements i·n to i·n + n - 1 of a row. -/
def part (xs : List FV) (i n : Nat) : List FV := (xs.drop (i * n)).take n

/-- The rows of one position, with the line in its page at which each begins (R261). -/
def kvRows (y : Layout) (d : List Byte) (src : Sources) (i t : Nat) : List (Nat × KvRow) :=
  let b := bit (field d 59 1) 0
  if y.latent then [(t * y.rl, kvRow y y.lf b (src.k.getD i []))]
  else (List.range y.heads).flatMap fun h =>
    [(2 * h * y.per * y.rl + t * y.rl, kvRow y y.kf b (part (src.k.getD i []) h y.dim)),
     ((2 * h + 1) * y.per * y.rl + t * y.rl, kvRow y y.vf b (part (src.v.getD i []) h y.dim))]

/-- A new KV page: its ledger entry written whole, with the tokens flag of the APPEND. -/
def State.newPage (s : State) (c : Ctx) (x p : Nat) (tokens : Bool) : State :=
  if ghostPage ≤ p then s
  else s.dieWrite (s.ledgerByte x p)
    (({ Header.zero with ref := 1, state := Page.kv, layout := c.layout.toNat, ns := c.ns.toNat, tokens := tokens }).bytes
      ++ zeros 3968)

/-- Allocates and maps the pages of some page numbers that have no mapped page (R271). -/
def Taking.pages (k : Taking) (id : Nat) (c : Ctx) (tokens : Bool) : List Nat → Taking
  | [] => k
  | j :: js =>
    if bit (k.s.leaf c j) 0 then k.pages id c tokens js
    else
      let (t, k) := k.table id c j
      let (p, k) := k.page id
      let x := homeOf id
      let s := (k.s.newPage c x p tokens).setEntry t (j % 32) (leafEntry (k.s.pageByte x p) k.s.dp.txGen)
      { k with s := s }.pages id c tokens js

/-- Writes position number i of an APPEND: lines, valid bit, score, token. -/
def State.appendAt (s : State) (c : Ctx) (y : Layout) (d : List Byte) (src : Sources) (i : Nat) : State :=
  let pos := c.fill.toNat + i
  let t := pos % y.per
  match s.leafPage (s.leaf c (pos / y.per)) with
  | none => s
  | some (x, p) =>
    let first := s.pageByte x p / 64
    let rows := kvRows y d src i t
    let s := rows.foldl (fun s r => (r.2.lines.zipIdx).foldl (fun s l =>
      { s with dp := s.dp.write (s.env 0) (.whole (first + r.1 + l.2) l.1 false) }) s) s
    let s := (s.bump Evt.kvClipped ((rows.map (·.2.clipped)).sum)).bump Evt.kvFlushed ((rows.map (·.2.flushed)).sum)
    let tok := addrField d 48 != 0
    let s := s.updHeader x p fun h => { h with mask := setBits h.mask t t 1, tokens := h.tokens && tok }
    let s := s.dieWrite (s.ledgerByte x p + 128 + 2 * t) (zeros 2)
    if tok then s.dieWrite (s.ledgerByte x p + 1152 + 4 * t) (slice src.tokens (4 * i) 4) else s

/-- The context after t positions more. -/
def Ctx.append (c : Ctx) (t : Nat) : Ctx :=
  let fill := c.fill.toNat + t
  { c with
    fill := BitVec.ofNat 48 fill
    length := BitVec.ofNat 48 (max c.length.toNat fill)
    retained := c.retained + BitVec.ofNat 48 t
    recompute := c.recompute && decide (fill < c.length.toNat) }

/-- Pages of a window. -/
abbrev windowPages : Nat := 2 ^ 24

/-- The effects of an APPEND whose sources have been read. -/
def State.appendWith (s : State) (id : Nat) (d : List Byte) (c : Ctx) (y : Layout) (src : Sources) : SeqEnd :=
  let t := field d 56 3
  let first := c.fill.toNat / y.per
  let end_ := ceilDiv (c.fill.toNat + t) y.per
  if windowPages < end_ then .status s Seq.nospace (end_ - windowPages)
  else
    let k := (Taking.mk s 0).pages id c (addrField d 48 != 0) ((List.range (end_ - first)).map (first + ·))
    if k.short ≠ 0 then .status s Seq.nospace k.short
    else
      let s' := (List.range t).foldl (fun s i => s.appendAt c y d src i) k.s
      let c' := ((s'.ctx id).getD c).append t
      let s' := s'.setCtx id { c' with mapped := BitVec.ofNat 32 (s'.mappedOf c') }
      .status ((s'.afterTaking s id).evictStack (homeOf id)) Seq.ok c'.fill.toNat

/-- The work of an APPEND. -/
def appendBody (s : State) (o : Op) : SeqEnd :=
  let d := o.desc
  s.onLayout o fun c y =>
    if vSourceBad y d then .status s Seq.badState 0
    else match s.run (appendRead (s.envOf o) ⟨none, o.pin.toNat⟩ d y) with
      | none => .waits
      | some (.error f, dp) => .fault { s with dp := dp } f
      | some (.ok src, dp) => ({ s with dp := dp }).appendWith (seqId d) d c y src

/-- APPEND. -/
def execAppend (id : Nat) (s : State) : Out := .next (s.seqOp id 0x0503 appendBody)

/-! ### TRUNCATE and RESERVE (09 R269, R295) -/

/-- The page that holds the new FILL: its rows at or above it become invalid, or the page is unmapped when it is shared. -/
def State.trimPage (s : State) (c : Ctx) (y : Layout) : State × Ctx :=
  let j := c.fill.toNat / y.per
  let t := c.fill.toNat % y.per
  if t = 0 then (s, c)
  else match s.leafPage (s.leaf c j) with
    | none => (s, c)
    | some (x, p) =>
      if 1 < (s.header x p).ref then (s.unmap c j, { c with fill := BitVec.ofNat 48 (j * y.per), recompute := true })
      else (s.updHeader x p fun h => { h with mask := h.mask % 2 ^ t }, c)

/-- The work of a TRUNCATE. -/
def truncateBody (s : State) (o : Op) : SeqEnd :=
  let id := seqId o.desc
  let n := field o.desc 32 6
  s.onLayout o fun c y =>
    let fill := min c.fill.toNat n
    let length := min c.length.toNat n
    let c := { c with fill := BitVec.ofNat 48 fill, length := BitVec.ofNat 48 length,
                      recompute := c.recompute && decide (fill < length) }
    let gone := (s.leaves c).filter fun e => decide (fill ≤ e.1 * y.per)
    let s := gone.foldl (fun s e => s.unmap c e.1) s
    let (s, c) := s.trimPage c y
    let s := s.freeEmptyTables c
    .status (s.recount id c) Seq.ok c.fill.toNat

/-- TRUNCATE. -/
def execTruncate (id : Nat) (s : State) : Out := .next (s.seqOp id 0x0504 truncateBody)

/-- Takes n FREE pages into RESERVED, lowest first. -/
def State.reservePages (s : State) (x n : Nat) : State :=
  (((List.range (s.poolPages x)).filter fun p => (s.header x p).state = Page.free).take n).foldl
    (fun s p => (s.setHeader x p { Header.zero with state := Page.reserved }).bump Evt.pagesAllocated 1) s

/-- The work of a RESERVE. -/
def reserveBody (s : State) (o : Op) : SeqEnd :=
  let id := seqId o.desc
  let x := homeOf id
  let n := field o.desc 32 4
  s.onOpen o fun c =>
    let old := c.reserved.toNat
    let free := s.countPages x Page.free
    if old + free < n then .status s Seq.nospace (n - old - free)
    else
      let s' := if old < n then s.reservePages x (n - old) else s.unreserve x (old - n)
      .status ((s'.setCtx id { c with reserved := BitVec.ofNat 32 n }).afterTaking s id) Seq.ok n

/-- RESERVE. -/
def execReserve (id : Nat) (s : State) : Out := .next (s.seqOp id 0x0505 reserveBody)

/-! ### MATCH and PUBLISH (09 R277 to R279) -/

/-- What a MATCH has done: pages matched, pages short when a table slot was missing. -/
structure Matched where
  s : State
  pages : Nat
  short : Nat

/-- Matches pages from number i on, their tokens given; `parent` is the hash of the page before. -/
def matchPages (id : Nat) (c : Ctx) (y : Layout) : List (List Byte) → Nat → Nat → State → Matched
  | [], i, _, s => ⟨s, i, 0⟩
  | tok :: rest, i, parent, s =>
    let h := pageHash s.seq.key parent c.ns.toNat c.layout.toNat tok
    match s.lookup h parent c.ns.toNat c.layout.toNat tok with
    | .collision => ⟨(s.bump Evt.hashCollision 1).bump Evt.prefixMiss 1, i, 0⟩
    | .miss => ⟨s.bump Evt.prefixMiss 1, i, 0⟩
    | .hit x k n =>
      let (t, taking) := (Taking.mk s 0).table id c i
      if taking.short ≠ 0 then ⟨s, i, taking.short⟩
      else
        let s := taking.s.setEntry t (i % 32) (leafEntry (s.pageByte n.stack n.page) s.dp.txGen)
        let s := s.updHeader n.stack n.page fun h => { h with ref := h.ref + 1 }
        let s := (s.setNode x k { n with last := s.tide.toNat }).bump Evt.prefixHit 1
        matchPages id c y rest (i + 1) h s

/-- The work of a MATCH. -/
def matchBody (s : State) (o : Op) : SeqEnd :=
  let d := o.desc
  let id := seqId d
  s.onLayout o fun c y =>
    if c.length ≠ 0 then .status s Seq.badState 0
    else
      let n := min (field d 40 6 / y.per) windowPages
      let bytes := 4 * y.per
      match s.run (openRead (s.envOf o) ⟨none, o.pin.toNat⟩ (addrField d 32) (ceilDiv (n * bytes) 64)) with
      | none => .waits
      | some (.error f, dp) => .fault { s with dp := dp } f
      | some (.ok tok, dp) =>
        let m := matchPages id c y ((List.range n).map fun i => slice tok (i * bytes) bytes) 0 0 { s with dp := dp }
        let pos := m.pages * y.per
        let c' := (m.s.ctx id).getD c
        let v : BitVec 48 := BitVec.ofNat 48 pos
        let s' := m.s.setCtx id { c' with length := v, fill := v, retained := v, mapped := BitVec.ofNat 32 m.pages }
        let s' := s'.afterTaking s id
        if m.short ≠ 0 then .status s' Seq.nospace m.short else .status s' Seq.ok pos

/-- MATCH. -/
def execMatchPrefix (id : Nat) (s : State) : Out := .next (s.seqOp id 0x0506 matchBody)

/-- The entry that an insertion takes: the lowest invalid one, or the one with the oldest last use whose page has one
reference; with the entry that it replaces. -/
def State.place (s : State) (h : Nat) : Option (Nat × Option Node) :=
  let x := bits h 63 60
  let b := 4 * bits h 13 0
  let ns := (List.range 4).filterMap fun k => (s.node x (b + k)).map fun n => (b + k, n)
  match ns.find? fun n => !n.2.valid with
  | some (i, _) => some (i, none)
  | none =>
    let old := ns.filter fun n => (s.header n.2.stack n.2.page).ref = 1
    match sortBy (fun (a b : Nat × Node) => decide (a.2.last < b.2.last)) old with
    | [] => none
    | (i, n) :: _ => some (i, some n)

/-- Inserts an entry for a page (R279): none when no entry of the bucket qualifies. -/
def State.insertNode (s : State) (h : Nat) (n : Node) : Option State :=
  match s.place h with
  | none => none
  | some (i, out) =>
    let s := match out with
      | none => s
      | some o => (s.unref o.stack o.page).bump Evt.treeReplaced 1
    let s := s.setNode (bits h 63 60) i n
    some (s.updHeader n.stack n.page fun h => { h with ref := h.ref + 1, published := true })

/-- Publishes page i and those after it; `parent` is the hash of the page before. -/
def publishPages (c : Ctx) (y : Layout) : Nat → Nat → Nat → Nat → State → State × Nat
  | 0, _, _, done, s => (s, done)
  | fuel + 1, i, parent, done, s =>
    if c.fill.toNat < (i + 1) * y.per then (s, done)
    else match s.leafPage (s.leaf c i) with
      | none => (s, done)
      | some (x, p) =>
        let hd := s.header x p
        if popcount hd.mask y.per ≠ y.per ∨ hd.tokens = false then (s, done)
        else
          let tok := s.pageTokens x p y.per
          let h := pageHash s.seq.key parent c.ns.toNat c.layout.toNat tok
          match s.lookup h parent c.ns.toNat c.layout.toNat tok with
          | .hit _ _ _ => publishPages c y fuel (i + 1) h done s
          | .collision => (s.bump Evt.hashCollision 1, done)
          | .miss =>
            match s.insertNode h ⟨h, parent, p, x, true, c.layout.toNat, c.ns.toNat, s.tide.toNat⟩ with
            | none => (s.bump Evt.treeFull 1, done)
            | some s => publishPages c y fuel (i + 1) h (done + 1) s

/-- The work of a PUBLISH. -/
def publishBody (s : State) (o : Op) : SeqEnd :=
  s.onLayout o fun c y =>
    let (s, n) := publishPages c y (c.pages y.per) 0 0 0 s
    .status s Seq.ok n

/-- PUBLISH. -/
def execPublish (id : Nat) (s : State) : Out := .next (s.seqOp id 0x0507 publishBody)

/-! ### QUERY (09 R256) -/

/-- The work of a QUERY. -/
def queryBody (s : State) (o : Op) : SeqEnd :=
  s.onOpen o fun c =>
    match s.run (do
        let ws ← putBytes (s.envOf o) ⟨none, o.pin.toNat⟩ (addrField o.desc 32) (ctxRecord (some c))
        writeAll (s.envOf o) ws) with
    | none => .waits
    | some (.error f, dp) => .fault { s with dp := dp } f
    | some (.ok _, dp) => .status { s with dp := dp } Seq.ok 0

/-- QUERY. -/
def execQuery (id : Nat) (s : State) : Out := .next (s.seqOp id 0x050A queryBody)

end Sys2Proof.Machine
end

