-- ==== Sys2Proof/Machine/Attend.lean ====
section
/-!
DEFINITION. Attention (09 R280 to R290): the arithmetic of ATTEND and ATTEND_GRAD, the reading of pages, batch entries and
their statuses.
-/

namespace Sys2Proof.Machine

/-! ### Arithmetic on rows -/

/-- One level of the tree of 06 R182 over nodes that may be empty. -/
def pairNodes (op : FV → FV → FV) : List (Option FV) → List (Option FV)
  | [] => []
  | [x] => [x]
  | x :: y :: rest =>
    (match x, y with
      | some a, some b => some (op a b)
      | some a, none => some a
      | none, b => b) :: pairNodes op rest

/-- Some levels of the tree. -/
def treeNodes (op : FV → FV → FV) : Nat → List (Option FV) → List (Option FV)
  | 0, xs => xs
  | n + 1, xs => treeNodes op n (pairNodes op xs)

/-- A row reduction with empty nodes (R281): groups of 128 in order, an empty group left out. -/
def reduceNodes (op : FV → FV → FV) (xs : List (Option FV)) : Option FV :=
  let groups := (chunksOf 128 xs.length xs).map fun g => (treeNodes op 7 g).headD none
  groups.foldl (fun acc g => match acc, g with
    | some a, some b => some (op a b)
    | some a, none => some a
    | none, b => b) none

/-- A row converted to a narrow format under default parameters, and decoded again. -/
def throughNarrow (p : ConvParams) (xs : List FV) : List FV :=
  let r := convertRow p none 0 (fun _ => none) none xs
  ((r.lines.zipIdx).flatMap fun l =>
    decodeElems p.target ⟨l.1.payload, l.1.side, false⟩ true (fun _ => none) (min p.target.perLine (xs.length - l.2 * p.target.perLine)))

/-- Default parameters (02 R51) for a target. -/
def defaultParams (f : Fmt) (sat : Bool) : ConvParams :=
  { target := f, t := 0, floor := 1, ceil := 0xFE, sat := sat, stoch := false, gen := 0, tag := 0 }

/-- pconv of R281 and, to E5M2, pc of R286. -/
def convProb (narrow : Bool) (f : Fmt) (xs : List FV) : List FV :=
  if narrow then throughNarrow (defaultParams f true) xs else xs.map fun x => (toBf16 true x).val

/-! ### Pages as the engine has them -/

/-- A page's rows by head, in full mode, and its valid mask. -/
structure KvPage where
  j : Nat
  mask : Nat
  k : List (List (List FV))
  v : List (List (List FV))

/-- What fixes an entry's arithmetic. -/
structure Attn where
  y : Layout
  bass : Bool
  l : Nat
  sl2 : FV
  sc : FV
  g : Nat
  qf : Fmt
  causal : Bool
  window : Nat
  first : Nat
  m : Nat
  fill : Nat
  length : Nat
  /-- the position of local position 0 (10 R341) -/
  base : Nat

namespace Attn

/-- The layout is narrow. -/
def narrow (a : Attn) : Bool := a.y.kf.narrow

/-- Query rows: H·G·M. -/
def rows (a : Attn) : Nat := a.y.heads * a.g * a.m

/-- The position of query row r. -/
def qpos (a : Attn) (r : Nat) : Nat := a.first + r % a.m

/-- The KV head of query row r. -/
def head (a : Attn) (r : Nat) : Nat := r / a.m / a.g

/-- Positions that meet the causal and window conditions for a query position: from, up to (R280). -/
def reach (a : Attn) (qpos : Nat) : Nat × Nat :=
  (if a.window = 0 then 0 else qpos + 1 - a.window, if a.causal then qpos + 1 else 2 ^ 48)

/-- Some local position of a range meets the conditions for some query row. -/
def meets (a : Attn) (lo hi : Nat) : Bool :=
  (List.range a.m).any fun i =>
    let r := a.reach (a.first + i)
    decide (max (a.base + lo) r.1 < min (a.base + hi) r.2)

/-- Position t of a page is visible (R280). -/
def visible (a : Attn) (p : KvPage) (qpos t : Nat) : Bool :=
  let pos := p.j * a.y.per + t
  let r := a.reach qpos
  bit p.mask t && decide (pos < a.length) && decide (r.1 ≤ a.base + pos) && decide (a.base + pos < r.2)

/-- A sweep's element (03 R69, R70). -/
def chain (a : Attn) (pairs : List (FV × FV)) (c : Option FV) : FV × ArithEv := outputElement a.narrow a.l pairs c none

/-- A sweep's element in which some places hold no product: a run without any is left out. -/
def chainSome (a : Attn) (pairs : List (Option (FV × FV))) : FV × ArithEv :=
  let r := if a.narrow then
      narrowChain (((chunksOf a.l pairs.length pairs).map (·.filterMap id)).filter (!·.isEmpty)) none ArithEv.zero
    else wideChain (pairs.filterMap id) none ArithEv.zero
  (r.1.getD .zero, r.2)

end Attn

/-- Dot products of a row with each of some rows. -/
def dots (a : Attn) (q : List FV) (ks : List (List FV)) : List (FV × ArithEv) := ks.map fun k => a.chain (List.zip q k) none

/-- Sum of events. -/
def sumEv (es : List ArithEv) : ArithEv := es.foldl ArithEv.add ArithEv.zero

/-- The running values of a query row (R281). -/
structure RowAcc where
  m : FV
  l : FV
  o : List FV
deriving DecidableEq, Repr

/-- Their start. -/
def RowAcc.start (dim : Nat) : RowAcc := ⟨.negInf, .zero, List.replicate dim .zero⟩

/-- x of a row's positions in a page: none where invisible. -/
def xRow (a : Attn) (p : KvPage) (qpos : Nat) (s : List FV) : List (Option FV) :=
  (s.zipIdx).map fun st => if a.visible p qpos st.2 then some (f32Mul st.1 a.sl2) else none

/-- One page for one query row (R281). The PV product takes the V row of every position below FILL, an invisible one with +0
(R288), so that its NaN reaches the row (16 R465); the rows above are not read, and add +0 (R282; log entry 31). -/
def attendPage (a : Attn) (h qpos : Nat) (q : List FV) (p : KvPage) (acc : RowAcc) : RowAcc × ArithEv :=
  let s := dots a q (p.k.getD h [])
  let xs := xRow a p qpos (s.map (·.1))
  if xs.all Option.isNone then (acc, .zero)
  else
    let mn := max32 acc.m ((reduceNodes max32 xs).getD .negInf)
    let al := if acc.m = .negInf then .zero else exp2 (f32Sub acc.m mn)
    let pr := xs.map fun x => x.map fun x => exp2 (f32Sub x mn)
    let ls := (reduceNodes f32Add pr).getD .zero
    let pc := convProb a.narrow .e4m3 (pr.map fun x => x.getD .zero)
    let vrows := p.v.getD h []
    let pv := (List.range a.y.dim).map fun i =>
      a.chain (((List.zip pc vrows).zipIdx).map fun cv =>
        if p.j * a.y.per + cv.2 < a.fill then (cv.1.1, cv.1.2.getD i .nan) else (.zero, .zero)) none
    (⟨mn, f32Add (f32Mul acc.l al) ls, List.zipWith (fun o x => f32Add (f32Mul o al) x.1) acc.o pv⟩,
      (sumEv (s.map (·.2))).add (sumEv (pv.map (·.2))))

/-- A query row over all pages. -/
def attendRow (a : Attn) (h qpos : Nat) (q : List FV) (ps : List KvPage) (acc : RowAcc) : RowAcc × ArithEv :=
  ps.foldl (fun s p => let r := attendPage a h qpos q p s.1; (r.1, s.2.add r.2)) (acc, .zero)

/-- The output and the log-sum-exp of a row (R281, R282). -/
def RowAcc.out (r : RowAcc) : List FV × FV :=
  if r.l = .zero then (r.o.map fun _ => .zero, .negInf)
  else
    let rl := rcp r.l
    (r.o.map fun x => f32Mul x rl, f32Add r.m (log2 r.l))

/-- The row attends to some position. -/
def sees (a : Attn) (qpos : Nat) (ps : List KvPage) : Bool :=
  ps.any fun p => (List.range a.y.per).any fun t => a.visible p qpos t

/-- The contributions to the scores of a page (R285): none where no row sees the position. -/
def contributions (a : Attn) (qs : List (List FV)) (lse : List FV) (p : KvPage) : List (Option FV) :=
  let ss := (qs.zipIdx).map fun qr => xRow a p (a.qpos qr.2) ((dots a qr.1 (p.k.getD (a.head qr.2) [])).map (·.1))
  (List.range a.y.per).map fun t =>
    let xs := (List.zip ss lse).filterMap fun sl => ((sl.1.getD t none).map fun x => (x, sl.2))
    match xs with
    | [] => none
    | _ :: _ =>
      let ts := (xs.filter fun x => x.2 ≠ .negInf).map fun x => exp2 (f32Sub x.1 x.2)
      some (match ts with
        | [] => .zero
        | t :: rest => rest.foldl f32Add t)

/-! ### The gradient (R286, R287) -/

/-- A query row of ATTEND_GRAD: its number, Q, dO, log-sum-exp, dd. -/
structure GradRow where
  r : Nat
  q : List FV
  dO : List FV
  lse : FV
  dd : FV

/-- Gradients of one page for one KV head: dK and dV rows, and p and ds of each query row. -/
structure GradPage where
  dk : List (List FV)
  dv : List (List FV)
  ds : List (List FV)
  ev : ArithEv

/-- p and ds of a query row over a page's positions: none where the row forms no product, because the position is invisible
to it or its log-sum-exp is -infinity (R287). -/
def gradRow (a : Attn) (h : Nat) (p : KvPage) (q : GradRow) : List (Option (FV × FV)) × ArithEv :=
  if q.lse = .negInf then (List.replicate a.y.per none, .zero)
  else
    let s := dots a q.q (p.k.getD h [])
    let dp := dots a q.dO (p.v.getD h [])
    (((List.zip s dp).zipIdx).map fun sd =>
      if a.visible p (a.qpos q.r) sd.2 then
        let pr := exp2 (f32Sub (f32Mul sd.1.1.1 a.sl2) q.lse)
        some (pr, f32Mul pr (f32Sub sd.1.2.1 q.dd))
      else none, (sumEv (s.map (·.2))).add (sumEv (dp.map (·.2))))

/-- dK or dV of a page before its scale: coefficients by query and position against rows by query. A query whose log-sum-exp is
-infinity forms no product (R287); one that does not see the position adds +0 (log entry 31). None for a position that no query
sees. -/
def gradSum (a : Attn) (qs : List GradRow) (coef : List (List (Option FV))) (rows : List (List FV)) :
    List (Option (List (FV × ArithEv))) :=
  (List.range a.y.per).map fun t =>
    let cs := coef.map fun c => c.getD t none
    if cs.all Option.isNone then none
    else
      let pc := convProb a.narrow .e5m2 (cs.map fun c => c.getD .zero)
      some ((List.range a.y.dim).map fun i =>
        a.chainSome ((List.zip (List.zip pc cs) (List.zip qs rows)).map fun cr =>
          if cr.2.1.lse = .negInf then none
          else if cr.1.2.isSome then some (cr.1.1, cr.2.2.getD i .nan) else some (.zero, .zero)))

/-- One page, one KV head, all query rows of its group in their order. -/
def gradPage (a : Attn) (h : Nat) (qs : List GradRow) (p : KvPage) : GradPage :=
  let all := qs.map (gradRow a h p)
  let dv := gradSum a qs (all.map fun x => x.1.map fun y => y.map (·.1)) (qs.map (·.dO))
  let dk := gradSum a qs (all.map fun x => x.1.map fun y => y.map (·.2)) (qs.map (·.q))
  let rows (f : FV → FV) (xs : List (Option (List (FV × ArithEv)))) : List (List FV) :=
    xs.map fun r => match r with
      | none => List.replicate a.y.dim .zero
      | some ys => ys.map fun y => f y.1
  let evs (xs : List (Option (List (FV × ArithEv)))) : ArithEv := sumEv ((xs.filterMap id).flatten.map (·.2))
  ⟨rows (f32Mul · a.sc) dk, rows id dv, all.map fun x => x.1.map fun y => match y with | some z => z.2 | none => .zero,
    ((sumEv (all.map (·.2))).add (evs dv)).add (evs dk)⟩

/-- dQ of a row after one more page: ACCUMULATE after the first (R286). A page in which the row sees nothing is left out. -/
def dqPage (a : Attn) (h : Nat) (q : GradRow) (p : KvPage) (ds : List FV) (acc : Option (List FV)) : Option (List FV) × ArithEv :=
  if !sees a (a.qpos q.r) [p] then (acc, .zero)
  else
    let pc := convProb a.narrow .e5m2 ds
    let ks := p.k.getD h []
    let xs := (List.range a.y.dim).map fun i =>
      a.chain (((List.zip pc ks).zipIdx).map fun ck =>
        if a.visible p (a.qpos q.r) ck.2 then (ck.1.1, ck.1.2.getD i .nan) else (.zero, .zero)) (acc.map fun o => o.getD i .zero)
    (some (xs.map (·.1)), sumEv (xs.map (·.2)))

/-! ### Reading an entry's operands -/

/-- Why an entry does not complete: its status result, detail and value, and the fault to capture. -/
structure EntryBad where
  result : Nat
  detail : Nat
  value : Nat
  xf : Option (XfKind × Nat)

/-- Work on an entry. -/
abbrev EntryM (α : Type) : Type := ExceptT EntryBad M α

/-- The status of a translation fault on an entry's own addresses (R299): the page number is that of the address in its own space
(R293; DEDUCED, log entry 31). -/
def ownBad (f : XfKind × Nat) : EntryBad := ⟨Seq.xlate, f.1.code, f.2 / 2 ^ 16, some f⟩

/-- Work on an entry's own addresses. -/
def own {α : Type} (m : M α) : EntryM α := ExceptT.mk do
  match ← M.attempt m with
  | .ok x => pure (.ok x)
  | .error f => pure (.error (ownBad f))

/-- A status without more. -/
def entryStop {α : Type} (result value : Nat) : EntryM α := ExceptT.mk (pure (.error ⟨result, 0, value, none⟩))

/-- A translation outcome on a page of the window (R293, R294): NOT_PRESENT and AHEAD are not captured. -/
def pageBad (fill j : Nat) (f : XfKind × Nat) : EntryBad :=
  match f.1 with
  | .notPresent => ⟨Seq.droppedResult, 0, fill, none⟩
  | .ahead => ⟨Seq.edited, 0, j, none⟩
  | k => ⟨Seq.xlate, k.code, j, some f⟩

/-- The virtual address of a window offset. -/
def seqVa (id off : Nat) : Nat := 2 ^ 59 + id * 2 ^ 40 + off

/-- The rows of a stored matrix, with the events of reading it. -/
def rowsOf (e : Env) (a : Acc) (x : Mat) : M (List (List FV)) := do
  let r ← readMat e a x fun _ _ => true
  let (ev, rc) ← matEvents e a r
  M.upd fun d => ev.foldl (fun d x => d.bump x.1 x.2) d
  writeAll e rc
  pure r.rows

/-- Elements of an expanded row (R289). -/
def expandRow (a : Attn) (x : List FV) (u : List (List FV)) (h : Nat) (f : Fmt) : List FV × ArithEv :=
  let y := a.y
  let xs := (List.range y.dim).map fun i =>
    outputElement y.lf.narrow a.l (List.zip x (u.map fun r => r.getD (h * y.dim + i) .nan)) none none
  let vals := xs.map (·.1)
  (if f.narrow then throughNarrow (y.params f) vals else vals.map fun v => (toBf16 y.sat v).val, sumEv (xs.map (·.2)))

/-- The rows of a page whose first line has this virtual address: as stored, or expanded. -/
def pageRows (e : Env) (acc : Acc) (a : Attn) (va : Nat) (up : List (List FV) × List (List FV)) :
    M (List (List (List FV)) × List (List (List FV)) × ArithEv) := do
  let y := a.y
  if y.latent then
    let xs ← rowsOf e acc ⟨va, 64 * y.rl, y.lf, y.per, y.rank, 0⟩
    let k := (List.range y.heads).map fun h => xs.map fun x => expandRow a x up.1 h y.kf
    let v := (List.range y.heads).map fun h => xs.map fun x => expandRow a x up.2 h y.vf
    pure (k.map fun r => r.map (·.1), v.map fun r => r.map (·.1),
      sumEv ((k.flatten ++ v.flatten).map (·.2)))
  else
    let row (i : Nat) (f : Fmt) : M (List (List FV)) := rowsOf e acc ⟨va + 64 * (i * y.per * y.rl), 64 * y.rl, f, y.per, y.dim, 0⟩
    let k ← (List.range y.heads).mapM fun h => row (2 * h) y.kf
    let v ← (List.range y.heads).mapM fun h => row (2 * h + 1) y.vf
    pure (k, v, .zero)

/-- Uk and Uv in latent mode. -/
def readUp (e : Env) (acc : Acc) (y : Layout) : M (List (List FV) × List (List FV)) :=
  if y.latent then do
    let m (va : Nat) : Mat := ⟨va, 64 * y.lf.linesPerRow (y.heads * y.dim), y.lf, y.rank, y.heads * y.dim, 0⟩
    let uk ← rowsOf e acc (m y.uk)
    let uv ← rowsOf e acc (m y.uv)
    pure (uk, uv)
  else pure ([], [])

/-- Reads the pages that some query row reaches, ascending; holes are skipped (R281, R288). -/
def readPages (s : State) (e : Env) (acc : Acc) (id : Nat) (c : Ctx) (a : Attn) (up : List (List FV) × List (List FV)) :
    List Nat → EntryM (List KvPage × ArithEv)
  | [] => pure ([], .zero)
  | j :: js => do
    if !a.meets (j * a.y.per) (min (j * a.y.per + a.y.per) a.length) then readPages s e acc id c a up js
    else
      let va := seqVa id (2 ^ 16 * j)
      let onPage {α : Type} (m : M α) : EntryM α := ExceptT.mk do
        match ← M.attempt m with
        | .ok x => pure (.ok x)
        | .error f => pure (.error (pageBad a.fill j f))
      match ← ExceptT.mk (do pure (Except.ok (ε := EntryBad) (← M.attempt (translate e acc false va)))) with
      | .error f =>
        if f.1 = .notPresent ∧ s.leaf c j = holeEntry then readPages s e acc id c a up js else throw (pageBad a.fill j f)
      | .ok x =>
        let mask := match s.pageAt x with
          | some (st, p) => (s.header st p).mask
          | none => 0
        let (k, v, ev) ← onPage (pageRows e acc a va up)
        let (ps, ev') ← readPages s e acc id c a up js
        let p : KvPage := ⟨j, mask, k, v⟩
        pure (if sees' a p then (p :: ps, ev.add ev') else (ps, ev'))
where
  /-- Some row of the entry sees some position of the page. -/
  sees' (a : Attn) (p : KvPage) : Bool := (List.range a.m).any fun i => sees a (a.first + i) [p]

/-! ### Batch entries (09 R297, R298) -/

/-- Entry fields. -/
def enQ (b : List Byte) : Nat := addrField b 0
/-- O address. -/
def enO (b : List Byte) : Nat := addrField b 8
/-- Log-sum-exp address. -/
def enLse (b : List Byte) : Nat := addrField b 16
/-- Status address. -/
def enStatus (b : List Byte) : Nat := addrField b 24
/-- Sequence ID. -/
def enId (b : List Byte) : Nat := bits (field b 32 3) 17 0
/-- dO, dQ, dK, dV addresses. -/
def enGrad (b : List Byte) (i : Nat) : Nat := addrField b (64 + 8 * i)

/-- A malformed entry: it receives BAD_STATE and no work (R298). -/
def entryMalformed (grad : Bool) (b : List Byte) : Bool :=
  anySet b 44 20 || anySet b 96 32 || decide (2 ^ 18 ≤ field b 32 3) || field b 35 3 == 0
    || [0, 8, 16, 24].any (fun i => addrTop b i != 0)
    || [0, 8, 16].any (fun i => addrField b i % 64 != 0) || enStatus b % 8 != 0
    || (grad && ([64, 72, 80, 88].any (fun i => addrTop b i != 0 || addrField b i % 64 != 0 || addrField b i == 0)
      || enLse b == 0))

/-- The arithmetic of an entry over positions below `length` of which those below `fill` are present. -/
def attnOf (d b : List Byte) (y : Layout) (fill length base : Nat) : Attn :=
  { y := y, bass := operOf d == 9, l := atL d, sl2 := decode32 (field d 28 4), sc := decode32 (field d 32 4), g := atG d,
    qf := (kvFmt (atQ d)).getD .bf16, causal := bit (field d 37 1) 0, window := field d 40 4, first := field b 38 6,
    m := field b 35 3, fill := fill, length := length,
    base := base }

/-- The O format. -/
def oFmt (d : List Byte) : Fmt := if atO d = 4 then .f32 else .bf16

/-- The dO format of ATTEND_GRAD. -/
def doFmt (d : List Byte) (a : Attn) : Fmt :=
  if !a.narrow then .bf16 else if bit (field d 36 1) 7 then .e5m2 else .e4m3

/-- A packed matrix. -/
def packed (va : Nat) (f : Fmt) (rows len : Nat) : Mat := ⟨va, 64 * f.linesPerRow len, f, rows, len, 0⟩

/-- The writes of packed wide rows. -/
def putRows (e : Env) (acc : Acc) (va : Nat) (f : Fmt) (sat : Bool) (len : Nat) (rows : List (List FV)) : M (List Wr) := do
  let ws ← (rows.zipIdx).mapM fun r => putLines e acc (va + r.2 * (64 * f.linesPerRow len)) (wideRow f sat (zeros 8) r.1) false
  pure ws.flatten

/-- The poisoned output lines of an entry that is not OK (R293). -/
def entryPoison (e : Env) (acc : Acc) (d b : List Byte) (a : Attn) : M Unit := do
  let ws ← if a.bass then do
      let w1 ← poisonWide e acc .f32 (enGrad b 1) (a.rows * Fmt.f32.linesPerRow a.y.dim)
      let n := a.y.heads * a.length * Fmt.f32.linesPerRow a.y.dim
      let w2 ← poisonWide e acc .f32 (enGrad b 2) n
      let w3 ← poisonWide e acc .f32 (enGrad b 3) n
      pure (w1 ++ w2 ++ w3)
    else do
      let f := oFmt d
      let w1 ← poisonWide e acc f (enO b) (a.rows * f.linesPerRow a.y.dim)
      let w2 ← if enLse b = 0 then pure [] else poisonWide e acc .f32 (enLse b) (Fmt.f32.linesPerRow a.rows)
      pure (w1 ++ w2)
  writeAll e ws

/-- Counts events on the fabric that an operation uses. -/
def countArith (bass : Bool) (ev : ArithEv) : M Unit :=
  M.upd fun d => (arithEvents bass ev).foldl (fun d x => d.bump x.1 x.2) d

/-- Writes the scores of an entry's pages (R285). -/
def writeScores (s : State) (e : Env) (c : Ctx) (a : Attn) (qs : List (List FV)) (lse : List FV) (ps : List KvPage) : M Unit :=
  ps.forM fun p =>
    match s.leafPage (s.leaf c p.j) with
    | none => pure ()
    | some (x, n) =>
      ((contributions a qs lse p).zipIdx).forM fun ct =>
        match ct.1 with
        | none => pure ()
        | some v => M.upd fun dp =>
          let at_ := s.ledgerByte x n + 128 + 2 * ct.2
          let old := decodeBf16 (leNat (dp.dieRead at_ 2))
          let new := (toBf16 true (f32Add (f32Mul (decode32 c.decay.toNat) old) v)).val
          dp.dieWrite e at_ (natLE 2 (encodeBf16 new))

/-- The rows that see something. -/
def seeing (a : Attn) (ps : List KvPage) : Nat := ((List.range a.rows).filter fun r => sees a (a.qpos r) ps).length

/-- The work of an ATTEND entry: the number of its rows that attend to some position. -/
def attendEntry (s : State) (e : Env) (acc : Acc) (d b : List Byte) (c : Ctx) (a : Attn) : EntryM Nat := do
  let qs ← own (rowsOf e acc (packed (enQ b) a.qf a.rows a.y.dim))
  let up ← own (readUp e acc a.y)
  let (ps, ev) ← readPages s e acc (enId b) c a up (List.range (c.pages a.y.per))
  let rs := (qs.zipIdx).map fun qr => attendRow a (a.head qr.2) (a.qpos qr.2) qr.1 ps (.start a.y.dim)
  let outs := rs.map fun r => r.1.out
  own (do
    let w1 ← putRows e acc (enO b) (oFmt d) (bit (field d 36 1) 6) a.y.dim (outs.map (·.1))
    let w2 ← if enLse b = 0 then pure [] else putRows e acc (enLse b) .f32 false a.rows [outs.map (·.2)]
    writeAll e (w1 ++ w2)
    countArith a.bass (ev.add (sumEv (rs.map (·.2))))
    if bit (field d 37 1) 1 then writeScores s e c a qs (outs.map (·.2)) ps else pure ())
  pure (seeing a ps)

/-- dQ of a row over all pages: `grads` holds each page with its gradients for the row's head, `i` the row's place among
those of its head. -/
def dqRow (a : Attn) (h i : Nat) (q : GradRow) (grads : List (KvPage × GradPage)) : List FV × ArithEv :=
  let r := grads.foldl (fun s pg => let x := dqPage a h q pg.1 (pg.2.ds.getD i []) s.1; (x.1, s.2.add x.2))
    ((none : Option (List FV)), ArithEv.zero)
  ((r.1.getD (List.replicate a.y.dim .zero)).map fun x => f32Mul x a.sc, r.2)

/-- The work of an ATTEND_GRAD entry. -/
def gradEntry (s : State) (e : Env) (acc : Acc) (d b : List Byte) (c : Ctx) (a : Attn) : EntryM Nat := do
  let dim := a.y.dim
  let qs ← own (rowsOf e acc (packed (enQ b) a.qf a.rows dim))
  let os ← own (rowsOf e acc (packed (enO b) (oFmt d) a.rows dim))
  let dos ← own (rowsOf e acc (packed (enGrad b 0) (doFmt d a) a.rows dim))
  let lse ← own (rowsOf e acc (packed (enLse b) .f32 1 a.rows))
  let up ← own (readUp e acc a.y)
  let (ps, ev) ← readPages s e acc (enId b) c a up (List.range (c.pages a.y.per))
  let all : List GradRow := (List.range a.rows).map fun r =>
    let dO := dos.getD r []
    ⟨r, qs.getD r [], dO, (lse.getD 0 []).getD r .nan,
      (reduceNodes f32Add ((List.zip dO (os.getD r [])).map fun x => some (f32Mul (widen32 x.1) x.2))).getD .zero⟩
  let heads := (List.range a.y.heads).map fun h =>
    let group := all.filter fun q => a.head q.r = h
    (h, group, ps.map fun p => (p, gradPage a h group p))
  let dq : List (List FV × ArithEv) := (List.range a.rows).map fun r =>
    match heads[a.head r]? with
    | none => (List.replicate dim FV.zero, ArithEv.zero)
    | some (h, group, grads) =>
      match (group.zipIdx).find? fun (q : GradRow × Nat) => q.1.r == r && decide (q.1.lse ≠ .negInf) with
      | none => (List.replicate dim FV.zero, ArithEv.zero)
      | some (q, i) => dqRow a h i q grads
  let rowOf (f : GradPage → List (List FV)) (h pos : Nat) : List FV :=
    match heads[h]? with
    | none => List.replicate dim .zero
    | some (_, _, grads) =>
      match grads.find? fun g => g.1.j == pos / a.y.per with
      | none => List.replicate dim .zero
      | some g => (f g.2).getD (pos % a.y.per) (List.replicate dim .zero)
  let table (f : GradPage → List (List FV)) : List (List FV) :=
    (List.range a.y.heads).flatMap fun h => (List.range a.length).map fun pos => rowOf f h pos
  own (do
    let w1 ← putRows e acc (enGrad b 1) .f32 false dim (dq.map (·.1))
    let w2 ← putRows e acc (enGrad b 2) .f32 false dim (table (·.dk))
    let w3 ← putRows e acc (enGrad b 3) .f32 false dim (table (·.dv))
    writeAll e (w1 ++ w2 ++ w3)
    countArith a.bass ((ev.add (sumEv (heads.flatMap fun x => x.2.2.map fun g => g.2.ev))).add (sumEv (dq.map (·.2)))))
  pure (seeing a ps)

/-- The format pair is not in 03 R65 for the layout (R293). -/
def pairBad (d : List Byte) (a : Attn) : Bool :=
  !pairListed a.bass a.qf a.y.kf || (a.bass && !pairListed true (doFmt d a) a.y.vf)

/-- What an entry leaves: whether its status is OK, and the sequence that it names. -/
structure EntryEnd where
  ok : Bool
  id : Nat

/-- Writes an entry's status word, captures its fault. -/
def endEntry (q : Nat) (e : Env) (b : List Byte) (target : Option Nat) (r : Except EntryBad Nat) : M EntryEnd := do
  let word := match r with
    | .ok n => seqStatus Seq.ok 0 n
    | .error x => seqStatus x.result x.detail x.value
  match r with
  | .error ⟨_, _, _, some f⟩ => M.upd fun d => d.xlateFault q f
  | _ => pure ()
  match target with
  | some x => writeNow e (.part (x / 64) (x % 64) word)
  | none => pure ()
  let ok := match r with | .ok _ => true | .error _ => false
  if ok then pure () else M.upd fun d => d.bump Evt.seqStatus 1
  pure ⟨ok, enId b⟩

/-- Work whose effects on the data plane are dropped: an outcome alone. -/
def EntryM.dry {α : Type} (m : EntryM α) : EntryM α := fun io =>
  let r := m io
  (r.1, { io with wait := io.wait || r.2.wait })

/-- An entry with an open context and a valid layout. One whose work an array or mesh error has struck has its outputs poisoned,
counts no arithmetic event and contributes no scores; R293 has no result for it, and its status stays as it is (R254, 03 R91; DEDUCED,
log entry 70). -/
def workEntry (s : State) (q : Nat) (e : Env) (acc : Acc) (d b : List Byte) (c : Ctx) (y : Layout) (target : Option Nat)
    (late : Option (XfKind × Nat)) (struck : Bool) : M EntryEnd := do
  let a := attnOf d b y c.fill.toNat c.length.toNat 0
  let r : Except EntryBad Nat ←
    if pairBad d a then pure (.error ⟨Seq.badState, 0, 0, none⟩)
    else match late with
      | some f => pure (.error ⟨Seq.xlate, f.1.code, 0, some f⟩)
      | none =>
        if a.meets a.fill a.length then pure (.error ⟨Seq.droppedResult, 0, a.fill, none⟩)
        else
          let m := if a.bass then gradEntry s e acc d b c a else attendEntry s e acc d b c a
          (if struck then m.dry else m).run
  match r with
  | .error _ => entryPoison e acc d b a
  | .ok _ => if struck then entryPoison e acc d b a else pure ()
  endEntry q e b target r

/-- Label of the batch entries of an attention operation that an array or mesh error has struck: this number plus the entry's. -/
abbrev Lab.struck : Nat := 0x100

/-- One batch entry (R293, R298 to R300). A line of the batch that reads poisoned holds a malformed entry without a status
address; the output lines of an entry whose context is closed or whose layout is invalid have no extent that could be poisoned (log
entry 31). -/
def runEntry (s : State) (o : Op) (e : Env) (acc : Acc) (i : Nat) (b : List Byte) (poison : Bool) : M EntryEnd := do
  let q := o.q
  let d := o.desc
  let st := enStatus b
  let usable := !poison && addrTop b 24 == 0 && st % 8 == 0 && st != 0
  let t ← if usable then M.attempt (translate e acc true st) else pure (.ok 0)
  let target := match t with
    | .ok x => if usable then some x else none
    | .error _ => none
  if poison || entryMalformed (operOf d == 9) b then endEntry q e b target (.error ⟨Seq.badState, 0, 0, none⟩)
  else match s.ctx (enId b) with
    | none => endEntry q e b target (.error ⟨Seq.notOpen, 0, 0, none⟩)
    | some c =>
      match s.opLayout o c.layout.toNat with
      | none => endEntry q e b target (.error ⟨Seq.badState, 0, 0, none⟩)
      | some y =>
        let late := match t with
          | .ok _ => none
          | .error f => some f
        workEntry s q e acc d b c y target late (o.num (Lab.struck + i) == 1)

/-- The entries of a batch, in order; a translation fault on the batch array stops (R299). -/
def runBatch (s : State) (o : Op) (e : Env) (acc : Acc) : Nat → List EntryEnd → M (List EntryEnd × Option (XfKind × Nat))
  | 0, done => pure (done, none)
  | n + 1, done => do
    match ← M.attempt (readLines e acc (addrField o.desc 16 + 128 * done.length) 2) with
    | .error f => pure (done, some f)
    | .ok ls => do
      let r ← runEntry s o e acc done.length (ls.flatMap (·.payload)) (ls.any (·.poison))
      runBatch s o e acc n (done ++ [r])

/-- The engine's working region is overwritten in every cluster that it uses (R254). -/
def overwriteRegion (s : State) (e : Env) (bass : Bool) : M Unit := do
  let cs := (fabricClusters bass ++ serviceClusters).filter fun n => !e.absent n
  let first := s.seq.attnOffset.toNat / 64
  let n := 16 * s.seq.attnSize.toNat
  cs.forM fun c => (List.range n).forM fun k => writeNow e (.scratch (berthBase + c * 2 ^ 15 + first + k))

/-- The courses on which the sweeps ran lose their retained tiles (03 R87; log entry 31). -/
def State.attendTiles (s : State) (o : Op) (bass : Bool) : State :=
  let f := s.fabric bass
  s.setFabric bass ((List.range (2 ^ atCode o.desc)).foldl (fun f c =>
    if Config.attendUses o.id c then f.apply o.id c none else f) f)

/-- The command of an attention operation. -/
def State.attendOp (s : State) (id opcode : Nat) : State :=
  match s.work id 0 opcode with
  | none => s
  | some (o, _) =>
    let d := o.desc
    let bass := operOf d == 9
    if s.seqHeld o then s
    else match s.run (do
        overwriteRegion s (s.envOf o) bass
        runBatch s o (s.envOf o) ⟨none, o.pin.toNat⟩ (field d 24 4) []) with
      | none => s
      | some (.error _, _) => s
      | some (.ok (ends, fault), dp) =>
        let s := ({ s with dp := dp }).attendTiles o bass
        let homes := (ends.map fun r => homeOf r.id).eraseDups
        let s := if !bass && bit (field d 37 1) 1 then homes.foldl State.evictStack s else s
        match fault with
        | none => s.finish id 0 0 0
        | some f => s.seqFault o f

/-- ATTEND (R280 to R285). -/
def execAttend (id : Nat) (s : State) : Out := .next (s.attendOp id 0x0508)

/-- SWEEP_INSTANCE_FAULT on a sweep of an attention operation (R254, 03 R91): the operation's `entry`-th batch entry is struck; the course
that carried it is one of those that the descriptor's count gives (`Config.attendCourse`, log entry 70). -/
def State.strikeAttend (s : State) (id entry : Nat) : State :=
  let hit (o : Op) : State :=
    if field o.desc 24 4 ≤ entry ∨ o.num (Lab.struck + entry) = 1 then s
    else
      let bass := operOf o.desc == 9
      let c := Config.attendCourse id entry % 2 ^ atCode o.desc
      let s := (s.updOp id fun o => { o with nums := tput o.nums (Lab.struck + entry) 1 }).bump (Evt.fab bass Evt.sweepFault) 1
      s.setFabric bass { (s.fabric bass).apply id c none with
        faulted := (s.fabric bass).faulted ||| BitVec.ofNat 16 (2 ^ c) }
  match s.work id 0 0x0508 with
  | some (o, _) => hit o
  | none =>
    match s.work id 0 0x0509 with
    | some (o, _) => hit o
    | none => s

/-- SWEEP_INSTANCE_FAULT (03 R91): the containment of an array or mesh error of a sweep, or of a sweep of an attention operation, of
which `n` names the batch entry (09 R254). -/
def execSweepInstanceFault (id n : Nat) (cause : SweepFault) (s : State) : Out :=
  .next ((s.faultSweep id n cause).strikeAttend id n)

/-- ATTEND_GRAD (R286, R287). -/
def execAttendGrad (id : Nat) (s : State) : Out := .next (s.attendOp id 0x0509)

end Sys2Proof.Machine
end

