-- ==== Sys2Proof/Machine/Link.lean ====
section
/-!
DEFINITION. The transport of the Hawser links (10 R307, R308, R314 to R324): frames, paths, credits, acknowledgements,
loss of paths and of peers.
-/

namespace Sys2Proof.Machine

/-! ### Ports, peers, paths -/

/-- A port. -/
def State.port (s : State) (p : Nat) : Port := tget .reset s.hw.ports p

/-- Sets a port. -/
def State.setPort (s : State) (p : Nat) (x : Port) : State := { s with hw := { s.hw with ports := tput s.hw.ports p x } }

/-- A peer. -/
def State.peer (s : State) (i : Nat) : Peer := tget .reset s.hw.peers i

/-- Changes a peer. -/
def State.updPeer (s : State) (i : Nat) (f : Peer → Peer) : State :=
  { s with hw := { s.hw with peers := tupd .reset s.hw.peers i f } }

/-- The path of a peer through a port. -/
def State.path (s : State) (i p : Nat) : Path := tget .reset s.hw.paths (16 * i + p)

/-- Changes a path. -/
def State.updPath (s : State) (i p : Nat) (f : Path → Path) : State :=
  { s with hw := { s.hw with paths := tupd .reset s.hw.paths (16 * i + p) f } }

/-- A path is usable (R317): its port is UP and its bit of PATHS is set. -/
def State.pathUsable (s : State) (i p : Nat) : Bool := (s.port p).st == .up && bit (s.peer i).paths.toNat p

/-- Peer states. -/
abbrev Peer.idle : BitVec 2 := 0
abbrev Peer.up : BitVec 2 := 1
abbrev Peer.unreachable : BitVec 2 := 2

/-- psn_after of R318. -/
def psnAfter (a b : BitVec 24) : Bool := decide (a ≠ b) && decide ((a - b).toNat < 0x800000)

/-- The last PSN whose frame has been accepted and placed (R320). -/
def Path.accepted (x : Path) : BitVec 24 := x.expected - 1 - BitVec.ofNat 24 x.staged.length

/-! ### Frames -/

/-- Frame types. -/
abbrev Ft.data : BitVec 4 := 0
abbrev Ft.ack : BitVec 4 := 1
abbrev Ft.nak : BitVec 4 := 2
abbrev Ft.syncReq : BitVec 4 := 3
abbrev Ft.syncRsp : BitVec 4 := 4

/-- A frame of this module to a peer on a port, with an empty body (R307, R314, R315). -/
def State.blank (s : State) (i p : Nat) (type : BitVec 4) (kind : BitVec 8) : HwFrame :=
  { fcsOk := true
    dstMac := (s.peer i).mac + BitVec.ofNat 48 p
    srcMac := s.boot.hwMac + BitVec.ofNat 48 p
    vlan := if s.hw.vlanEn then some (BitVec.ofNat 16 (s.hw.pcp.toNat * 2 ^ 13 + s.hw.vid.toNat)) else none
    etherType := 0x88B6
    version := 1
    type := type
    kind := kind
    srcId := s.hw.moduleId
    srcPort := BitVec.ofNat 4 p
    dstId := BitVec.ofNat 12 i
    psn := 0
    ackPsn := (s.path i p).accepted
    epoch := (s.path i p).rxEpoch
    group := 0
    revision := 0
    msgId := 0
    lineOffset := 0
    msgLines := 0
    addr := 0
    remoteCounter := 0
    remoteIncrement := 0
    poison := 0
    lines := [] }

/-- Sends a frame on a port; one that PAUSE or PFC has stopped holds it until the stop ends (R313). -/
def State.emit (s : State) (p : Nat) (f : HwFrame) : State :=
  let x := s.port p
  if x.paused then s.setPort p { x with held := x.held ++ [f] } else { s with hw := { s.hw with tx := (p, f) :: s.hw.tx } }

/-- A port's stop ends: what it held goes out in order (R313). -/
def State.unpause (s : State) (p : Nat) : State :=
  let x := s.port p
  x.held.foldl (fun s f => s.emit p f) (s.setPort p { x with paused := false, held := [] })

/-- An ACK frame (R320). -/
def State.sendAck (s : State) (i p : Nat) : State :=
  (s.emit p (s.blank i p Ft.ack 0)).updPath i p fun x => { x with sinceAck := 0 }

/-- A NAK frame (R319, R325). -/
def State.sendNak (s : State) (i p : Nat) (kind : BitVec 8) (ackPsn : BitVec 24) (msg : Word) (addr : Reg) : State :=
  s.emit p { s.blank i p Ft.nak kind with ackPsn := ackPsn, msgId := msg, addr := addr }

/-- A SYNC_REQ over port p that names port k (R317, R322, R323). -/
def State.sendSyncReq (s : State) (i p k : Nat) : State :=
  s.emit p { s.blank i p Ft.syncReq (if (s.peer i).wasLost then 1 else 0) with addr := BitVec.ofNat 64 k }

/-- Lines of a frame (R316): a poisoned line goes with payload and side bytes zero and its mask bit set. -/
def frameLines (ls : List LineIn) : List (List Byte × List Byte) × BitVec 128 :=
  (ls.map fun l => if l.poison then (zeros 64, zeros 8) else (l.payload, l.side),
    BitVec.ofNat 128 ((ls.zipIdx).foldl (fun m l => if l.1.poison then m + 2 ^ l.2 else m) 0))

/-- The lines of a received frame as the receiver writes them. -/
def receivedLines (f : HwFrame) : List (LineOut × Bool) :=
  (f.lines.zipIdx).map fun l =>
    if bit f.poison.toNat l.2 then (zeroLine, true) else (⟨slice l.1.1 0 64, slice l.1.2 0 8⟩, false)

/-! ### Placing frames on paths (R317, R318, R324, R327) -/

/-- Frames of a peer that are not acknowledged: waiting, or sent. -/
def State.peerFrames (s : State) (i : Nat) : List HwFrame :=
  (s.peer i).queue ++ (List.range 16).flatMap fun p => (s.path i p).unacked

/-- Lines in flight to a peer. -/
def State.inFlight (s : State) (i : Nat) : Nat :=
  ((List.range 16).map fun p => (((s.path i p).unacked.map fun f => f.lines.length).sum)).sum

/-- A path takes a new frame now. -/
def State.takesFrame (s : State) (i p : Nat) : Bool :=
  let x := s.path i p
  s.pathUsable i p && x.est && !x.lost && !(s.port p).paused && decide (x.unacked.length + 1 < 2 ^ 23)

/-- Sends a frame for the first time on a path. -/
def State.transmit (s : State) (i p : Nat) (f : HwFrame) : State :=
  let x := s.path i p
  let b := s.blank i p Ft.data f.kind
  let f := { f with
    fcsOk := true, dstMac := b.dstMac, srcMac := b.srcMac, vlan := b.vlan, srcPort := b.srcPort, psn := x.next,
    ackPsn := x.accepted, epoch := x.epoch }
  ((s.emit p f).updPath i p fun x => { x with next := x.next + 1, unacked := x.unacked ++ [f], sinceAck := 0 }).bump
    Evt.framesTx 1

/-- Places waiting frames while the credit and a path permit; which of the paths takes a frame is open (log entry 20). -/
def State.pumpN (s : State) (i : Nat) : Nat → State
  | 0 => s
  | n + 1 =>
    match (s.peer i).queue with
    | [] => s
    | f :: rest =>
      let ps := (List.range 16).filter fun p => s.takesFrame i p
      if ps.isEmpty || decide ((s.peer i).credit.toNat < s.inFlight i + f.lines.length) then s
      else
        let p := ps.getD (Config.pathChoice i s.dp.free % ps.length) 0
        let s := { s with dp := { s.dp with free := s.dp.free + 1 } }
        ((s.updPeer i fun x => { x with queue := rest }).transmit i p f).pumpN i n

/-- Starts the establishment of the usable paths of a peer that has frames to send (R317). -/
def State.establish (s : State) (i : Nat) : State :=
  if (s.peer i).queue.isEmpty || (s.peer i).st == Peer.unreachable then s
  else (List.range 16).foldl (fun s p =>
    let x := s.path i p
    if s.pathUsable i p && !x.est && !x.syncing && !x.lost then
      (s.sendSyncReq i p p).updPath i p fun x => { x with syncing := true }
    else s) s

/-- Places what can be placed for a peer. -/
def State.pump (s : State) (i : Nat) : State :=
  let s := s.establish i
  s.pumpN i (s.peer i).queue.length

/-- Every peer with waiting frames. -/
def State.pumpAll (s : State) : State :=
  ((s.hw.peers.filter fun x => !x.2.queue.isEmpty).map (·.1)).foldl State.pump s

/-- Hands frames to a peer. -/
def State.enqueue (s : State) (i : Nat) (fs : List HwFrame) : State :=
  (s.updPeer i fun x => { x with queue := x.queue ++ fs }).pump i

/-- A message of one kind to a peer: pieces of consecutive lines at line offsets, each cut at MAX_LINES; without lines one
empty frame. -/
def State.message (s : State) (i : Nat) (kind : BitVec 8) (base : HwFrame → HwFrame) (pieces : List (Nat × List LineIn)) :
    State × Word :=
  let id := (s.peer i).nextMsg
  let total := (pieces.map fun x => x.2.length).sum
  let max_ := s.hw.maxLines.toNat
  let cut := pieces.flatMap fun x =>
    ((chunksOf max_ x.2.length x.2).zipIdx).map fun c => (x.1 + c.2 * max_, c.1)
  let cut := if total = 0 then [(0, [])] else cut
  let fs := cut.map fun c =>
    let (ls, poison) := frameLines c.2
    base { s.blank i 0 Ft.data kind with
      msgId := id, lineOffset := BitVec.ofNat 32 c.1, msgLines := BitVec.ofNat 32 total, poison := poison, lines := ls }
  ((s.updPeer i fun x => { x with nextMsg := x.nextMsg + 1 }).enqueue i fs, id)

/-! ### Operations and their frames -/

/-- Labels of class 0x06: a peer of the operation was lost; a frame was refused; the message of a PUT; tide at dispatch;
groups per row of the source list. -/
abbrev Lab.peerLost : Nat := 2
abbrev Lab.rejected : Nat := 3
abbrev Lab.msg : Nat := 4
abbrev Lab.start : Nat := 5
abbrev Lab.gr : Nat := 6

/-- The peer of a PUT. -/
def putPeer (d : List Byte) : Nat := bits (field d 36 2) 11 0
/-- The group of a collective. -/
def collGroup (d : List Byte) : Nat := bits (field d 16 1) 3 0
/-- The step of an ALLREDUCE, or the number of a FERRY. -/
def collNumber (d : List Byte) : Word := BitVec.ofNat 32 (field d 20 4)

/-- A frame to peer i belongs to the operation, among the kinds given. -/
def Op.ownsFrame (o : Op) (kinds : List Nat) (i : Nat) (f : HwFrame) : Bool :=
  kinds.contains f.kind.toNat &&
    (if opcodeOf o.desc = 0x0601 then i == putPeer o.desc && f.msgId.toNat == o.num Lab.msg
     else f.group.toNat == collGroup o.desc && f.addr.setWidth 32 == collNumber o.desc)

/-- The kinds of frames that an operation of class 0x06 sends. -/
def Op.frameKinds (o : Op) : List Nat :=
  if opcodeOf o.desc = 0x0601 then [0] else if opcodeOf o.desc = 0x0602 then [1, 2, 3, 4] else [5, 6]

/-- Some frame of the operation is not acknowledged. -/
def State.outstanding (s : State) (o : Op) (kinds : List Nat) : Bool :=
  s.hw.peers.any fun x => (s.peerFrames x.1).any (o.ownsFrame kinds x.1)

/-- Marks an operation. -/
def State.mark (s : State) (id label v : Nat) : State := s.updOp id fun o => { o with nums := tput o.nums label v }

/-- The neighbours of a ferry in its ring, by rank. -/
def Ferry.neighbours (f : Ferry) : List Nat :=
  let n := f.ring.length
  [f.ring.getD ((f.place + 1) % n) 0, f.ring.getD ((f.place + n - 1) % n) 0]

/-! ### Loss (R321 to R323) -/

/-- A peer becomes UNREACHABLE: the operations with frames to it are marked, its frames are abandoned. -/
def State.losePeer (s : State) (i : Nat) : State :=
  let hit := (s.ops.filter fun o => classOf o.desc == 6 && o.num Lab.sent == 1
    && (s.peerFrames i).any (o.ownsFrame o.frameKinds i)).map (·.id)
  let s := hit.foldl (fun s id => s.mark id Lab.peerLost 1) s
  let s := s.updPeer i fun x => { x with st := Peer.unreachable, wasLost := true, queue := [] }
  let s := (List.range 16).foldl (fun s p => if (s.hw.paths.find? fun x => x.1 == 16 * i + p).isSome then
    s.updPath i p fun x => { x with est := false, syncing := false, lost := false, unacked := [], timeouts := 0, busy := none }
    else s) s
  s.bump Evt.peerUnreachable 1

/-- Another usable path of the peer: an established one first. -/
def State.otherPath (s : State) (i p : Nat) : Option Nat :=
  let ps := (List.range 16).filter fun k => k ≠ p && s.pathUsable i k && !(s.path i k).lost
  match ps.find? fun k => (s.path i k).est with
  | some k => some k
  | none => ps.head?

/-- A path is lost: its frames wait for the peer's word over another usable path; without one the peer is lost. -/
def State.losePath (s : State) (i p : Nat) : State :=
  let x := s.path i p
  if !x.est then
    if x.syncing then s.updPath i p fun x => { x with syncing := false } else s
  else
    let s := (s.updPath i p fun x =>
      { x with est := false, syncing := false, lost := true, timeouts := 0, busy := none }).bump Evt.pathLost 1
    match s.otherPath i p with
    | some k => s.sendSyncReq i k p
    | none => s.losePeer i

/-- The peers that have used a port. -/
def State.portPeers (s : State) (p : Nat) : List Nat :=
  (s.hw.paths.filter fun x => x.1 % 16 = p).map fun x => x.1 / 16

/-! ### Acknowledgements and resending (R320, R321) -/

/-- An acknowledgement up to a PSN; one beyond what was sent says nothing (log entry 32). -/
def State.acknowledge (s : State) (i p : Nat) (a : BitVec 24) : State :=
  let x := s.path i p
  if !x.est || psnAfter a (x.next - 1) then s
  else
    let left := x.unacked.filter fun f => psnAfter f.psn a
    if left.length = x.unacked.length then s
    else s.updPath i p fun x => { x with unacked := left, timeouts := 0 }

/-- Resends every unacknowledged frame after a PSN. -/
def State.resendAfter (s : State) (i p : Nat) (a : BitVec 24) : State :=
  let fs := (s.path i p).unacked.filter fun f => psnAfter f.psn a
  (fs.foldl (fun s f => s.emit p { f with ackPsn := (s.path i p).accepted }) s).bump Evt.retransmit fs.length

/-- Resends from the oldest unacknowledged frame. -/
def State.resendAll (s : State) (i p : Nat) : State :=
  match (s.path i p).unacked with
  | [] => s
  | f :: _ => s.resendAfter i p (f.psn - 1)

/-- A frame that a port discards, and the counter it raises (R308): none when the port takes it. -/
def State.frameRefused (s : State) (p : Nat) (f : HwFrame) : Option Nat :=
  if !f.fcsOk then some Evt.rxBad
  else if f.dstMac ≠ s.boot.hwMac + BitVec.ofNat 48 p ∨ f.etherType ≠ 0x88B6 ∨ f.version ≠ 1 ∨ f.dstId ≠ s.hw.moduleId then
    some Evt.rxForeign
  else none

/-- A port receives frames. -/
def State.receives (s : State) (p : Nat) : Bool :=
  match (s.port p).st with
  | .up => true
  | .drain => true
  | .off => false
  | .training => false
  | .down => false

/-- A frame of a type arrives on a port: discarded and counted, or handled. -/
def State.onFrame (s : State) (p : Nat) (f : HwFrame) (type : BitVec 4) (body : State → Nat → State) : State :=
  if !s.receives p then s
  else match s.frameRefused p f with
    | some c => s.bump c 1
    | none => if f.type = type then body s f.srcId.toNat else s

end Sys2Proof.Machine
end

