-- ==== Sys2Proof/Machine/Coll.lean ====
section
/-!
DEFINITION. The operations of class 0x06 (10 R325 to R346): dispatch checks, PUT, the deadline all-reduce, the ferry, REGROUP,
and how an operation goes on when frames arrive or are acknowledged.
-/

namespace Sys2Proof.Machine

/-! ### Memory of the transport -/

/-- Accesses of the transport translate under TX_GEN (R325). -/
def State.linkAcc (s : State) : Acc := ⟨none, s.dp.txGen.toNat⟩

/-- Both parts of some work, the second even where the first meets a fault; the first fault is kept. -/
def M.both (x y : M Unit) : M Unit := do
  match ← M.attempt x, ← M.attempt y with
  | .error f, _ => M.fault f.1 f.2
  | .ok _, .error f => M.fault f.1 f.2
  | .ok _, .ok _ => pure ()

/-- Writes received lines at a virtual address. -/
def putReceived (e : Env) (a : Acc) (va : Nat) (ls : List (LineOut × Bool)) : M Unit := do
  let xs ← writeTargets e a va ls.length
  writeAll e (List.zipWith (fun x l => .whole x l.1 l.2) xs ls)

/-- An operation of class 0x06 ends with a code. -/
def State.endHawser (s : State) (o : Op) (code va : Nat) : State :=
  (if code = 0 then s else s.countFault o.desc).finish o.id 0 code va

/-- It ends with XLATE_FAULT. -/
def State.hawserXlate (s : State) (o : Op) (f : XfKind × Nat) : State :=
  ({ s with dp := s.dp.xlateFault o.q f }).endHawser o Code.xlateFault f.2

/-! ### Groups and their records (R328, R329) -/

/-- A group. -/
def State.group (s : State) (g : Nat) : Group := tget .reset s.hw.groups g

/-- Changes a group. -/
def State.updGroup (s : State) (g : Nat) (f : Group → Group) : State :=
  { s with hw := { s.hw with groups := tupd .reset s.hw.groups g f } }

/-- Bytes of a group record. -/
abbrev groupBytes : Nat := 9280

/-- What the data plane sees for a group: its running operations go on using domains that shut down (14 R433). -/
def State.groupEnv (s : State) (g : Nat) : Env :=
  s.env ((s.ops.filter fun o => classOf o.desc == 6 && collGroup o.desc == g).foldl (fun m o => m ||| o.num Lab.usable) 0)

/-- What a read of a group's record comes to: no record is set, a domain has to wake first (08 R224), a translation fault, or its
bytes. -/
inductive GroupRead where
  | unset
  | waits
  | fault (f : XfKind × Nat)
  | record (r : List Byte)

/-- Reads a group's record. A poisoned one, which only its dispatch row refuses (11 R484), holds open bytes (log entry 33). -/
def State.readGroup (s : State) (g : Nat) : GroupRead :=
  let va := (s.group g).addr.toNat
  if va = 0 then .unset
  else
    let r := readBytes (s.groupEnv g) s.linkAcc va groupBytes ⟨s.dp, false⟩
    if r.2.wait then .waits
    else match r.1 with
      | .error f => .fault f
      | .ok (b, poison) => .record (if poison then openBytes s.dp.free groupBytes else b)

/-- The record of a group, when it can be read now. -/
def State.groupRecord (s : State) (g : Nat) : Option (List Byte) :=
  match s.readGroup g with
  | .record r => some r
  | .unset => none
  | .waits => none
  | .fault _ => none

/-- Record fields. -/
def grMembers (r : List Byte) : Nat := field r 0 2
/-- Own rank. -/
def grOwn (r : List Byte) : Nat := field r 2 2
/-- Leader rank. -/
def grLeader (r : List Byte) : Nat := field r 4 2
/-- Revision. -/
def grRevision (r : List Byte) : Nat := field r 6 2
/-- Last closed step. -/
def grLast (r : List Byte) : Word := BitVec.ofNat 32 (field r 8 4)
/-- Last ferry number. -/
def grFerry (r : List Byte) : Word := BitVec.ofNat 32 (field r 12 4)
/-- State: 0 READY, 1 STALLED, 2 LOST. -/
def grState (r : List Byte) : Nat := field r 16 1
/-- The module of a rank. -/
def grModule (r : List Byte) (k : Nat) : Nat := bits (field r (64 + 2 * k) 2) 11 0
/-- Lost bitmap. -/
def grLost (r : List Byte) : Nat := field r 8256 512
/-- Miss bitmap. -/
def grMiss (r : List Byte) : Nat := field r 8768 512

/-- The active ranks. -/
def grActive (r : List Byte) : List Nat := (List.range (grMembers r)).filter fun k => !bit (grLost r) k

/-- The rank of a module. -/
def grRank (r : List Byte) (m : Nat) : Option Nat := (List.range (grMembers r)).find? fun k => grModule r k = m

/-- A bitmap of ranks. -/
def rankMap (ks : List Nat) : Nat := ks.foldl (fun m k => if bit m k then m else m + 2 ^ k) 0

/-- The ranks of a bitmap. -/
def mapRanks (m : Nat) : List Nat := (List.range 4096).filter fun k => bit m k

/-- Writes bytes of a group's record. -/
def groupPut (s : State) (g off : Nat) (bs : List Byte) : M Unit := do
  let ws ← putBytes (s.groupEnv g) s.linkAcc ((s.group g).addr.toNat + off) bs
  writeAll (s.groupEnv g) ws

/-- Step a comes before step b, on the u32 circle. -/
def stepBefore (a b : Word) : Bool := decide (a ≠ b) && decide ((b - a).toNat < 2 ^ 31)

/-- The last step of a group that this member knows to be closed. -/
def State.lastClosed (s : State) (g : Nat) (r : List Byte) : Word :=
  (s.group g).closes.foldl (fun m c => if stepBefore m c.1 then c.1 else m) (grLast r)

/-- A rank that its record, or a close that has come since, names as lost (R329, R335). -/
def State.lostRank (s : State) (g : Nat) (r : List Byte) (k : Nat) : Bool :=
  bit (grLost r) k || (s.group g).closes.any fun c => bit c.2.lost k

/-- The active ranks of step n: those not lost when step n - 1 closed, ascending (R329). -/
def State.activeFor (s : State) (g : Nat) (r : List Byte) (n : Word) : List Nat :=
  (grActive r).filter fun k => !((s.group g).closes.any fun c => stepBefore c.1 n && bit c.2.lost k)

/-- A collective frame's group and revision are this module's (R329). -/
def State.frameGroup (s : State) (f : HwFrame) : Option (List Byte) :=
  match s.groupRecord f.group.toNat with
  | none => none
  | some r => if grRevision r = f.revision.toNat then some r else none

/-! ### The reduce record and the slot layout (R331, R344) -/

/-- Record fields. -/
def rdRows (r : List Byte) : Nat := field r 32 3
/-- Row length. -/
def rdLen (r : List Byte) : Nat := field r 35 3
/-- Format. -/
def rdFmt (r : List Byte) : Fmt := (Fmt.ofCode (bits (field r 38 1) 2 0)).getD .f32
/-- Row-sum count. -/
def rdRowSums (r : List Byte) : Nat := field r 40 4
/-- Column-sum count. -/
def rdColSums (r : List Byte) : Nat := field r 44 4
/-- Source list. -/
def rdList (r : List Byte) : Nat := addrField r 8
/-- Slot lines. -/
def rdSlotLines (r : List Byte) : Nat := field r 88 4

/-- The rows of the a-th of A active ranks: from, up to (R329). -/
def shardOf (rows a n : Nat) : Nat × Nat := (rows * a / n, rows * (a + 1) / n)

/-- Where the sections of a slot begin, and its lines. -/
structure SlotLayout where
  list : Nat
  rowSums : Nat
  colSums : Nat
  total : Nat

/-- The layout of a slot with A active ranks. -/
def slotLayout (r : List Byte) (gr n : Nat) : SlotLayout :=
  let rmax := ceilDiv (rdRows r) n
  let grad := rmax * (rdFmt r).linesPerRow (rdLen r)
  let list := if rdList r = 0 then 0 else 1 + ceilDiv (8 * rmax * gr) 64
  let rs := ceilDiv (rdRowSums r) 16
  let cs := ceilDiv (rdColSums r) 16
  ⟨grad, grad + list, grad + list + rs, grad + list + rs + cs⟩

/-- The virtual address of a rank's slot for a step. -/
def slotBase (r : List Byte) (members : Nat) (step : Word) (k : Nat) : Nat :=
  addrField r 80 + 64 * ((step.toNat % 2 * members + k) * rdSlotLines r)

/-- The record of a running operation of class 0x06. -/
abbrev Lab.hawser : Nat := 1

/-! ### Dispatch checks (R345) -/

/-- Row 1 on the descriptor. -/
def hawserReserved (d : List Byte) : Bool :=
  match operOf d with
  | 1 => addrTop d 16 != 0 || addrTop d 24 != 0 || bits (field d 36 2) 15 12 != 0 || bits (field d 38 2) 14 12 != 0
      || anySet d 42 22
  | 2 => bits (field d 16 1) 7 4 != 0 || anySet d 17 3 || anySet d 28 4 || addrTop d 32 != 0 || anySet d 40 24
  | 3 => bits (field d 16 1) 7 4 != 0 || anySet d 17 3 || addrTop d 24 != 0 || addrTop d 32 != 0 || anySet d 50 6
      || addrTop d 56 != 0
  | 4 => bits (field d 16 1) 7 4 != 0 || anySet d 17 7 || addrTop d 24 != 0 || anySet d 36 28
  | _ => false

/-- Row 1 on the record. -/
def hawserRecordReserved (d r : List Byte) : Bool :=
  match operOf d with
  | 2 => [0, 8, 16, 24, 48, 56, 64, 72, 80].any (fun i => addrTop r i != 0) || bits (field r 38 1) 7 3 != 0 || anySet r 39 1
      || anySet r 92 36
  | 3 => headerReserved r || (opcodeOf r == 0x0508 && seqReserved r)
  | 4 => anySet r 17 47
  | _ => false

/-- The address and size of an operation's record. -/
def hawserRecord (d : List Byte) : Nat × Nat :=
  match operOf d with
  | 2 => (addrField d 32, 128)
  | 3 => (addrField d 24, 64)
  | _ => (addrField d 24, 8256)

/-- Rows 3 and 8 need the group record of an ALLREDUCE or FERRY; a poisoned one refuses as a record of 11 R484 does (log entry
33). -/
def checkGroup (s : State) (q : Nat) (e : Env) (a : Acc) (d : List Byte) : Chk (List Byte) := do
  let va := (s.group (collGroup d)).addr.toNat
  Chk.row (va == 0) Code.badTarget
  if operOf d = 4 then pure [] else Chk.record q e a va groupBytes

/-- An ALLREDUCE of the last closed step + 2 waits until CLOSE(step - 1) has come (R337). -/
def State.waitsClose (s : State) (d : List Byte) : Bool :=
  opcodeOf d == 0x0602 && match s.groupRecord (collGroup d) with
    | none => false
    | some r => collNumber d == grLast r + 2 && !((s.group (collGroup d)).closes.any fun c => c.1 == collNumber d - 1)

/-- The list header that a reduce record names: groups per row. -/
def reduceGroups (q : Nat) (e : Env) (a : Acc) (r : List Byte) : Chk Nat :=
  if rdList r = 0 then pure 0 else do
    let h ← Chk.record q e a (rdList r) 64
    pure (field h 28 4)

/-- The page size of the local context of a FERRY, when its entry can be read and the context is open. -/
def ferryPer (s : State) (e : Env) (a : Acc) (r : List Byte) : Chk (Option Nat) := do
  match ← Chk.probe (readBytes e a (addrField r 16) 128) with
  | none => pure none
  | some (b, _) =>
    match s.ctx (bits (field b 32 3) 17 0) with
    | none => pure none
    | some c => pure ((s.layoutFor c).map (·.per))

/-- The dispatch checks of class 0x06. -/
def checkHawser (s : State) (q : Nat) (e : Env) (a : Acc) (d : List Byte) : Chk Plan := do
  let o := operOf d
  Chk.block (s.waitsClose d)
  let rec_ ← if 2 ≤ o ∧ o ≤ 4 then (let x := hawserRecord d; Chk.record q e a x.1 x.2) else pure []
  Chk.row (hawserReserved d || hawserRecordReserved d rec_) Code.rsvdSet
  Chk.row (o == 0 || decide (4 < o)) Code.badOpcode
  Chk.row (o == 1 && (putPeer d == s.hw.moduleId.toNat || (s.peer (putPeer d)).paths == 0)) Code.badTarget
  let g ← if o = 1 then pure [] else checkGroup s q e a d
  let n := collNumber d
  Chk.row ((o == 2 && n != grLast g + 1 && n != grLast g + 2) || (o == 3 && n != grFerry g + 1)) Code.badTarget
  let f := bits (field rec_ 38 1) 2 0
  Chk.row ((o == 2 && ((f != 1 && f != 2 && f != 4) || (f == 4 && rdList rec_ != 0)))
    || (o == 3 && (opcodeOf rec_ != 0x0508 || (kvFmt (atQ rec_)).isNone || (atO rec_ != 3 && atO rec_ != 4)))) Code.badFormat
  let gr ← if o = 2 then reduceGroups q e a rec_ else pure 0
  let per ← if o = 3 then ferryPer s e a rec_ else pure none
  Chk.row ((o == 1 && field d 32 4 == 0)
    || (o == 2 && (rdRows rec_ == 0 || rdLen rec_ == 0 || field d 24 4 == 0
        || decide (rdSlotLines rec_ < (slotLayout rec_ gr (s.activeFor (collGroup d) g n).length).total)))
    || (o == 3 && (field rec_ 24 4 != 1 || decide (field d 40 4 < 1026)
        || (match per with | some p => field d 44 6 % p != 0 | none => false)))
    || (o == 4 && (grMembers rec_ == 0 || decide (4096 < grMembers rec_) || decide (grMembers rec_ ≤ grOwn rec_)
        || decide (grMembers rec_ ≤ grLeader rec_)))) Code.badShape
  let off (x : List Byte) (i : Nat) : Bool := addrField x i % 64 != 0
  Chk.row ((o == 1 && (off d 16 || off d 24)) || (o == 2 && (addrField d 32 % 128 != 0
      || [0, 8, 16, 24, 48, 56, 64, 72, 80].any (off rec_)))
    || (o == 3 && (off d 24 || off d 32 || off d 56 || off rec_ 16)) || (o == 4 && off d 24)) Code.badAlign
  Chk.row (o == 1 && (s.peer (putPeer d)).st == Peer.unreachable) Code.peerLost
  Chk.row ((o == 2 || o == 3) && grState g == 2) Code.workerLost
  Chk.row ((o == 2 || o == 3) && grState g == 1) Code.collTimeout
  serviceRow e false
  pure (Plan.one (if o = 3 then [(Lab.hawser, rec_), (Lab.layouts, s.layoutTable)] else [(Lab.hawser, rec_)]) [(Lab.start, s.tide.toNat), (Lab.gr, gr)])

/-! ### PUT (R325 to R327) -/

/-- PUT: its lines go to the peer as one message. -/
def execPut (id : Nat) (s : State) : Out :=
  .next <| match s.work id 0 0x0601 with
    | none => s
    | some (o, _) =>
      if o.num Lab.sent = 1 then s
      else
        let d := o.desc
        let i := putPeer d
        if (s.peer i).st = Peer.unreachable then s.endHawser o Code.peerLost 0
        else match s.run (readLines (s.envOf o) ⟨none, o.pin.toNat⟩ (addrField d 16) (field d 32 4)) with
          | none => s
          | some (.error f, dp) => ({ s with dp := dp }).hawserXlate o f
          | some (.ok ls, dp) =>
            let s := { s with dp := dp }
            let msg := (s.peer i).nextMsg
            let s := (s.mark id Lab.sent 1).mark id Lab.msg msg.toNat
            (s.message i 0 (fun f => { f with
              addr := BitVec.ofNat 64 (addrField d 24)
              remoteCounter := BitVec.ofNat 16 (field d 38 2)
              remoteIncrement := BitVec.ofNat 16 (field d 40 2) }) [(0, ls)]).1

/-- A PUT whose frames are all acknowledged ends (R327). -/
def State.settlePut (s : State) (o : Op) : State :=
  if o.num Lab.peerLost = 1 then s.endHawser o Code.peerLost 0
  else if s.outstanding o [0] then s
  else s.endHawser o (if o.num Lab.rejected = 1 then Code.remoteFault else 0) 0

/-! ### ALLREDUCE: contributions (R330, R331) -/

/-- A step of a group. -/
def Group.step? (g : Group) (n : Word) : Option CollStep := g.steps.find? fun c => c.step == n

/-- Changes a step. -/
def Group.updStep (g : Group) (n : Word) (f : CollStep → CollStep) : Group :=
  { g with steps := g.steps.map fun c => if c.step = n then f c else c }

/-- The slots of a shard as lines, from the lines that hold them: `skip` bytes of the first line lie before them. A line is poisoned
when a line that gives some of its slots is (04 R112). -/
def shardSlots (ls : List LineIn) (skip n : Nat) : List LineIn :=
  let bs := slice (ls.flatMap (·.payload)) skip n
  (List.range (ceilDiv n 64)).map fun k =>
    let lo := skip + 64 * k
    let hi := skip + min (64 * k + 64) n
    ⟨slice bs (64 * k) 64, zeros 8, ((ls.drop (lo / 64)).take (ceilDiv hi 64 - lo / 64)).any (·.poison)⟩

/-- The list lines of a shard: the header with its Rows, then the slots of the shard's rows. -/
def shardList (e : Env) (a : Acc) (r : List Byte) (gr lo hi : Nat) : M (List LineIn) :=
  if rdList r = 0 then pure []
  else do
    let h ← readVirt e a (rdList r)
    let n := 8 * (hi - lo) * gr
    let from_ := rdList r + 64 + 8 * lo * gr
    let ls ← readLines e a (from_ / 64 * 64) (if n = 0 then 0 else ceilDiv (from_ % 64 + n) 64)
    pure ({ h with payload := splice h.payload 24 (natLE 4 (hi - lo)) } :: shardSlots ls (from_ % 64) n)

/-- The contribution of this rank for the owner of some rows: pieces of lines by slot line. -/
def contribution (e : Env) (a : Acc) (r : List Byte) (gr n k : Nat) : M (List (Nat × List LineIn)) := do
  let (lo, hi) := shardOf (rdRows r) k n
  let lpr := (rdFmt r).linesPerRow (rdLen r)
  let g ← readLines e a (addrField r 0 + 64 * lo * lpr) ((hi - lo) * lpr)
  let l ← shardList e a r gr lo hi
  pure ([(0, g), ((slotLayout r gr n).list, l)].filter fun x => !x.2.isEmpty)

/-- Its statistics. -/
def statistics (e : Env) (a : Acc) (r : List Byte) (gr n : Nat) : M (List (Nat × List LineIn)) := do
  let y := slotLayout r gr n
  let rs ← readLines e a (addrField r 16) (ceilDiv (rdRowSums r) 16)
  let cs ← readLines e a (addrField r 24) (ceilDiv (rdColSums r) 16)
  pure ([(y.rowSums, rs), (y.colSums, cs)].filter fun x => !x.2.isEmpty)

/-- Writes lines into a slot from one of its lines on. List headers and slots keep the side bytes stored there (08 R483). -/
def putSlot (e : Env) (a : Acc) (base : Nat) (y : SlotLayout) (at_ : Nat) (ls : List (LineOut × Bool)) : M Unit := do
  let xs ← writeTargets e a (base + 64 * at_) ls.length
  writeAll e ((List.zip xs ls).zipIdx.map fun x =>
    let i := at_ + x.2
    if y.list ≤ i ∧ i < y.rowSums ∧ x.1.2.2 = false then .part x.1.1 0 (slice x.1.2.1.payload 0 64)
    else .whole x.1.1 x.1.2.1 x.1.2.2)

/-- Writes pieces of lines into a slot. -/
def putPieces (e : Env) (a : Acc) (base : Nat) (y : SlotLayout) (ps : List (Nat × List LineIn)) : M Unit :=
  ps.forM fun p => putSlot e a base y p.1 (p.2.map fun l => (⟨l.payload, l.side⟩, l.poison))

/-- What an ALLREDUCE reads: for each active rank its contribution, and the statistics. -/
def reduceReads (e : Env) (a : Acc) (r : List Byte) (gr : Nat) (active : List Nat) :
    M (List (Nat × List (Nat × List LineIn)) × List (Nat × List LineIn)) := do
  let cs ← (active.zipIdx).mapM fun ki => do
    let c ← contribution e a r gr active.length ki.2
    pure (ki.1, c)
  let st ← statistics e a r gr active.length
  pure (cs, st)

/-- Marks the header of a collective message. -/
def collFrame (g rev : Nat) (addr : Reg) (f : HwFrame) : HwFrame :=
  { f with group := BitVec.ofNat 4 g, revision := BitVec.ofNat 16 rev, addr := addr }

/-- Sends a collective message to a rank's module; to an UNREACHABLE one it marks the operation. -/
def State.sendColl (s : State) (o : Op) (g : Nat) (r : List Byte) (rank : Nat) (kind : BitVec 8) (addr : Reg)
    (ps : List (Nat × List LineIn)) : State :=
  let i := grModule r rank
  if (s.peer i).st = Peer.unreachable then s.mark o.id Lab.peerLost 1
  else (s.message i kind (collFrame g (grRevision r) addr) ps).1

/-- A contribution that has lines. -/
def heldOf (step : Word) (rank : Nat) (stats : Bool) (ps : List (Nat × List LineIn)) : List Contrib :=
  let n := (ps.map fun p => p.2.length).sum
  if n = 0 then [] else [⟨step, rank, stats, n, n, 0, 0⟩]

/-- The messages of an ALLREDUCE: own contribution into the own slot, the others sent (R330). -/
def State.contributeStep (s : State) (o : Op) (r : List Byte) : State :=
  let d := o.desc
  let g := collGroup d
  let n := collNumber d
  let rr := o.record Lab.hawser
  let gr := o.num Lab.gr
  let active := s.activeFor g r n
  let own := grOwn r
  let e := s.envOf o
  let a : Acc := ⟨none, o.pin.toNat⟩
  match s.run (do
      let x ← reduceReads e a rr gr active
      let base := slotBase rr (grMembers r) n own
      let mine := ((x.1.filter fun c => c.1 = own).map (·.2)).flatten
      putPieces e a base (slotLayout rr gr active.length) (mine ++ x.2)
      pure (x.1, x.2, mine)) with
  | none => s
  | some (.error f, dp) => ({ s with dp := dp }).hawserXlate o f
  | some (.ok (cs, st, mine), dp) =>
    let s := { s with dp := dp }
    let c : CollStep := ⟨n, o.id, rr, active, BitVec.ofNat 32 (field d 24 4), BitVec.ofNat 64 (o.num Lab.start), gr, false,
      none, false⟩
    let s := s.updGroup g fun x => { x with
      steps := (x.steps.filter fun y => y.step ≠ n) ++ [c]
      contribs := x.contribs ++ heldOf n own false mine ++ heldOf n own true st }
    let s := s.mark o.id Lab.sent 1
    let addr : Reg := n.setWidth 64
    cs.foldl (fun s c =>
      if c.1 = own then s
      else
        let s := if c.2.isEmpty then s else s.sendColl o g r c.1 1 addr c.2
        if st.isEmpty then s else s.sendColl o g r c.1 2 addr st) s

/-! ### ALLREDUCE: the sum (R333 to R337) -/

/-- One rank's contribution as the receiver decodes it: shard rows, row sums, column sums. -/
structure Value where
  rows : List (List FV)
  rs : List FV
  cs : List FV

/-- Reads a contribution from its slot; orphans of its list count where its record can be written (log entry 33). -/
def readValue (e : Env) (a : Acc) (c : CollStep) (members : Nat) (rank place : Nat) : M Value := do
  let r := c.record
  let base := slotBase r members c.step rank
  let y := slotLayout r c.gr c.active.length
  let (lo, hi) := shardOf (rdRows r) place c.active.length
  let f := rdFmt r
  let m : Mat := ⟨base, 64 * f.linesPerRow (rdLen r), f, hi - lo, rdLen r, if rdList r = 0 then 0 else base + 64 * y.list⟩
  let x ← readMatFrom e a m lo fun _ _ => true
  match ← M.attempt (matEvents e a x) with
  | .ok (ev, rc) => do
    M.upd fun d => ev.foldl (fun d x => d.bump x.1 x.2) d
    writeAll e rc
  | .error _ => pure ()
  let vec (off n : Nat) : M (List FV) := do
    let x ← readMat e a ⟨base + 64 * off, 64 * Fmt.f32.linesPerRow n, .f32, 1, n, 0⟩ fun _ _ => true
    pure (x.rows.getD 0 [])
  let rs ← vec y.rowSums (rdRowSums r)
  let cs ← vec y.colSums (rdColSums r)
  pure ⟨x.rows.map fun row => row.map widen32, rs, cs⟩

/-- Sums contributions in order (R333). -/
def sumValues : List Value → Option Value
  | [] => none
  | v :: vs => some (vs.foldl (fun x y =>
      ⟨List.zipWith (List.zipWith f32Add) x.rows y.rows, List.zipWith f32Add x.rs y.rs, List.zipWith f32Add x.cs y.cs⟩) v)

/-- The shard and the statistics of a step, as written or poisoned. -/
def putResults (e : Env) (a : Acc) (c : CollStep) (place : Nat) (v : Option Value) : M Unit := do
  let r := c.record
  let (lo, hi) := shardOf (rdRows r) place c.active.length
  let len := rdLen r
  let ws ← match v with
    | some v => do
      let w1 ← putRows e a (addrField r 48) .f32 false len v.rows
      let w2 ← putRows e a (addrField r 56) .f32 false (rdRowSums r) [v.rs]
      let w3 ← putRows e a (addrField r 64) .f32 false (rdColSums r) [v.cs]
      pure (w1 ++ w2 ++ w3)
    | none => do
      let w1 ← poisonWide e a .f32 (addrField r 48) ((hi - lo) * Fmt.f32.linesPerRow len)
      let w2 ← poisonWide e a .f32 (addrField r 56) (Fmt.f32.linesPerRow (rdRowSums r))
      let w3 ← poisonWide e a .f32 (addrField r 64) (Fmt.f32.linesPerRow (rdColSums r))
      pure (w1 ++ w2 ++ w3)
  writeAll e ws

/-- The report (R337). -/
def reduceReport (c : CollStep) (k : Close) (own n dropped : Nat) : List Byte :=
  let place := (c.active.findIdx? fun r => r == own).getD 0
  let (lo, hi) := shardOf (rdRows c.record) place c.active.length
  natLE 4 c.step.toNat ++ natLE 2 n ++ natLE 2 (mapRanks k.included).length ++ natLE 2 (mapRanks k.carried).length
    ++ natLE 2 dropped ++ natLE 2 k.newly ++ natLE 2 c.active.length ++ natLE 4 lo ++ natLE 4 (hi - lo)
    ++ [BitVec.ofNat 8 (b2n !(bit k.included own))] ++ zeros 39 ++ natLE 512 k.included ++ natLE 512 k.carried
    ++ natLE 512 k.lost

/-- The contributions that a close discards: of the step before, not carried (R334). -/
def Group.discarded (g : Group) (n : Word) (k : Close) : List Contrib :=
  g.contribs.filter fun c => c.step = n - 1 && !bit k.carried c.rank

/-- What a close leaves of the contributions. -/
def Group.afterClose (g : Group) (n : Word) (k : Close) : Group :=
  { g with
    contribs := g.contribs.filter fun c => !(c.step == n - 1) && !(c.step == n && bit k.included c.rank)
    steps := g.steps.filter fun c => c.step ≠ n - 1
    ready := g.ready.filter fun x => !stepBefore x.1 n }

/-- The operation of a step, while it runs. -/
def State.stepOp (s : State) (c : CollStep) : Option Op :=
  match s.findOp c.op with
  | some o => if o.insts.any fun i => match i.phase with | .running => true | .done => false | .stalled => true then some o else none
  | none => none

/-- This member's place among the active ranks of a step. -/
def CollStep.place (c : CollStep) (own : Nat) : Nat := (c.active.findIdx? fun r => r == own).getD 0

/-- Poisons the results of a step (R335, R336). -/
def poisonResults (s : State) (o : Op) (c : CollStep) (own : Nat) : M Unit :=
  putResults (s.envOf o) ⟨none, o.pin.toNat⟩ c (c.place own) none

/-- The step has its results, or none are to come. -/
def State.stepDone (s : State) (g : Nat) (n : Word) : State :=
  s.updGroup g fun x => x.updStep n fun c => { c with done := true }

/-- The included contributions, then the carried ones (R333). -/
def readSum (e : Env) (a : Acc) (g : Group) (c : CollStep) (members place : Nat) (k : Close) : M (List Value) := do
  let inc ← ((List.range members).filter fun r => bit k.included r).mapM fun r => readValue e a c members r place
  let car ← match g.step? (c.step - 1) with
    | none => pure []
    | some c' => ((List.range members).filter fun r => bit k.carried r).mapM fun r => readValue e a c' members r place
  pure (inc ++ car)

/-- Contributions are discarded, each counted once: frames of them that are still to come belong to messages discarded already
(R334, 16 R469). -/
def State.discardContribs (s : State) (cs : List Contrib) : State :=
  let open_ := (cs.filter fun c => decide (c.got < c.total)).map fun c => (⟨c.src, c.msg, c.got, c.total, false, false⟩ : InMsg)
  { s with hw := { s.hw with msgs := s.hw.msgs ++ open_ } }.bump Evt.collDropped cs.length

/-- What a member whose ALLREDUCE runs writes at the close of its step: the sums and the report, or, as a lost rank, poison. -/
def closeWork (s : State) (o : Op) (g : Nat) (r : List Byte) (c : CollStep) (k : Close) (dropped : Nat) : M Unit :=
  let own := grOwn r
  if bit k.lost own then poisonResults s o c own
  else do
    let e := s.envOf o
    let a : Acc := ⟨none, o.pin.toNat⟩
    let vs ← readSum e a (s.group g) c (grMembers r) (c.place own) k
    putResults e a c (c.place own) (sumValues vs)
    let ws ← putBytes e a (addrField c.record 72) (reduceReport c k own vs.length dropped)
    writeAll e ws

/-- What the close of a step writes into the record: the lost bitmap, and State LOST at a rank that it declares lost (R335). -/
def closeRecord (s : State) (g : Nat) (r : List Byte) (k : Close) : M Unit :=
  M.both (groupPut s g 8256 (natLE 512 k.lost)) (if bit k.lost (grOwn r) then groupPut s g 16 [2] else pure ())

/-- CLOSE(s) takes effect at a member that has dispatched its ALLREDUCE for s, whether or not that has ended by a fault. It waits for
a domain to wake (08 R224). -/
def State.applyClose (s : State) (g : Nat) (r : List Byte) (c : CollStep) (k : Close) : State :=
  let out := (s.group g).discarded c.step k
  let dropped := ((out.map (·.rank)).eraseDups).length
  match s.run (M.both (closeRecord s g r k) (match s.stepOp c with | none => pure () | some o => closeWork s o g r c k dropped)) with
  | none => s
  | some (res, d) =>
    let s := { s with dp := d }.discardContribs out
    let s := s.updGroup g fun x => (x.afterClose c.step k).updStep c.step fun c => { c with close := some k, done := true }
    match s.stepOp c, res with
    | none, _ => s
    | some o, .error f => s.hawserXlate o f
    | some o, .ok _ => if bit k.lost (grOwn r) then s.endHawser o Code.workerLost 0 else s

/-- A close that has arrived for a step whose ALLREDUCE has sent its messages takes effect, once. -/
def State.tryApply (s : State) (g : Nat) (n : Word) : State :=
  match s.groupRecord g, (s.group g).step? n, (s.group g).closes.find? fun c => c.1 == n with
  | some r, some c, some (_, k) => if c.close.isSome then s else s.applyClose g r c k
  | _, _, _ => s

/-- Closes of a group that have had to wait take effect. -/
def State.applyCloses (s : State) (g : Nat) : State :=
  (s.group g).closes.reverse.foldl (fun s c => s.tryApply g c.1) s

/-- Records a close, keeping the last two. -/
def Group.addClose (g : Group) (n : Word) (k : Close) : Group :=
  { g with closes := ((n, k) :: g.closes.filter fun c => c.1 ≠ n).take 2 }

/-- Ranks whose READY for a step the leader has. -/
def Group.readyRanks (g : Group) (n : Word) (late : Bool) : List Nat :=
  (g.ready.filter fun x => x.1 = n && x.2.2 != late).map fun x => x.2.1

/-- What the leader decides when it closes a step (R332, R335). -/
def closeOf (g : Group) (r : List Byte) (c : CollStep) : Close :=
  let n := c.step
  let included := c.active.filter fun k => (g.readyRanks n false).contains k
  let before := g.step? (n - 1)
  let carried := match before with
    | none => []
    | some b => if b.active = c.active then b.active.filter fun k => (g.readyRanks (n - 1) true).contains k else []
  let missed := c.active.filter fun k => !included.contains k
  let missedBefore := match before with
    | some b => match b.close with
      | some k => b.active.filter fun x => !bit k.included x
      | none => mapRanks (grMiss r)
    | none => mapRanks (grMiss r)
  let newly := missed.filter fun k => missedBefore.contains k && decide (k ≠ grLeader r)
  ⟨rankMap included, rankMap carried, rankMap (mapRanks (grLost r) ++ newly), newly.length⟩

/-- The lines of a CLOSE frame: included, carried and lost bitmaps, eight lines each (log entry 33). -/
def closeLines (k : Close) : List LineIn :=
  (chunksOf 64 1536 (natLE 512 k.included ++ natLE 512 k.carried ++ natLE 512 k.lost)).map fun b => ⟨b, zeros 8, false⟩

/-- The leader closes a step. -/
def State.closeStep (s : State) (g : Nat) (r : List Byte) (c : CollStep) : State :=
  let k := closeOf (s.group g) r c
  let s := (s.bump Evt.workersLost k.newly).bump Evt.collCarried (mapRanks k.carried).length
  let s := s.updGroup g fun x => x.addClose c.step k
  let s := (c.active.filter fun x => x ≠ grOwn r).foldl (fun s x =>
    let i := grModule r x
    if (s.peer i).st = Peer.unreachable then s
    else (s.message i 4 (collFrame g (grRevision r) (c.step.setWidth 64)) [(0, closeLines k)]).1) s
  s.tryApply g c.step

/-- The leader has READY(s) from every active rank (R332). -/
def State.tryClose (s : State) (g : Nat) (n : Word) : State :=
  match s.groupRecord g, (s.group g).step? n with
  | some r, some c =>
    let gp := s.group g
    if grOwn r = grLeader r ∧ ¬ (gp.closes.any fun x => x.1 == n) ∧ c.active.all (fun k => (gp.readyRanks n false).contains k) then
      s.closeStep g r c
    else s
  | _, _ => s

/-- READY(s) of a rank at the leader: `late` when it came after the close. -/
def State.addReady (s : State) (g : Nat) (n : Word) (rank : Nat) : State :=
  let late := (s.group g).closes.any fun x => x.1 == n
  (s.updGroup g fun x => { x with ready := (x.ready.filter fun y => !(y.1 == n && y.2.1 == rank)) ++ [(n, rank, !late)] }).tryClose
    g n

/-- Sends READY(s) once every contribution is acknowledged (R330). -/
def State.sendReady (s : State) (o : Op) (r : List Byte) (g : Nat) (n : Word) : State :=
  let s := s.updGroup g fun x => x.updStep n fun c => { c with readySent := true }
  if grOwn r = grLeader r then s.addReady g n (grOwn r)
  else s.sendColl o g r (grLeader r) 3 (n.setWidth 64) []

/-- Completion of an ALLREDUCE (R337): it writes the record's last closed step and miss bitmap. -/
def State.completeReduce (s : State) (o : Op) (g : Nat) (c : CollStep) : State :=
  match c.close with
  | none => s
  | some k =>
    let miss := rankMap (c.active.filter fun x => !bit k.included x)
    match s.run (M.both (groupPut s g 8 (natLE 4 c.step.toNat)) (groupPut s g 8768 (natLE 512 miss))) with
    | none => s
    | some (.error f, d) => ({ s with dp := d }).hawserXlate o f
    | some (.ok _, d) => ({ s with dp := d }).endHawser o 0 0

/-- An ALLREDUCE goes on as far as it can: a lost peer and a translation fault on its group record end it (R346). -/
def State.settleReduce (s : State) (o : Op) : State :=
  let g := collGroup o.desc
  let n := collNumber o.desc
  if o.num Lab.peerLost = 1 then (s.stepDone g n).endHawser o Code.peerLost 0
  else match s.readGroup g with
    | .unset => s
    | .waits => s
    | .fault f => (s.stepDone g n).hawserXlate o f
    | .record r =>
      match (s.group g).step? n with
      | none => s
      | some c =>
        let s := if !c.readySent && !s.outstanding o [1, 2] then s.sendReady o r g n else s
        let s := s.tryApply g n
        match (s.group g).step? n, s.stepOp c with
        | some c, some o => if c.readySent && c.close.isSome && !s.outstanding o [1, 2, 3] then s.completeReduce o g c else s
        | _, _ => s

/-! ### FERRY: the block image (R340) -/

/-- Lines of valid masks of some pages. -/
def maskLines (pages : Nat) : Nat := ceilDiv pages 8

/-- The block header. -/
structure Block where
  layout : Nat
  poisoned : Bool
  origin : Nat
  first : Nat
  length : Nat
  pages : Nat

/-- Its line. -/
def Block.bytes (b : Block) : List Byte :=
  [BitVec.ofNat 8 b.layout, BitVec.ofNat 8 (b2n b.poisoned)] ++ natLE 2 b.origin ++ natLE 6 b.first ++ natLE 6 b.length
    ++ natLE 4 b.pages ++ zeros 44

/-- The header that a line holds; a line that reads poisoned holds a POISONED header. -/
def Block.of (l : LineIn) : Block :=
  let p := l.payload
  ⟨field p 0 1, l.poison || bit (field p 1 1) 0, field p 2 2, field p 4 6, field p 10 6, field p 16 4⟩

/-- Lines of a block. -/
def Block.lines (b : Block) : Nat := if b.poisoned then 1 else 1 + maskLines b.pages + 1024 * b.pages

/-- The fields of a FERRY. -/
def feBuffer (d : List Byte) (b : Nat) : Nat := addrField d 32 + 64 * b * field d 40 4
/-- Block base. -/
def feBase (d : List Byte) : Nat := field d 44 6
/-- Scratch address. -/
def feScratch (d : List Byte) : Nat := addrField d 56

/-- Copies the lines of a mapped page of the window into the buffer; a hole's lines are open. -/
def packPage (s : State) (e : Env) (a : Acc) (id : Nat) (c : Ctx) (buf j : Nat) : M Nat := do
  let xs ← writeTargets e a buf 1024
  if s.leaf c j = holeEntry then
    writeAll e (xs.map .scratch)
    pure 0
  else
    let va := seqVa id (2 ^ 16 * j)
    let x ← translate e a false va
    let ls ← readLines e a va 1024
    writeAll e (List.zipWith (fun x l => .whole x ⟨l.payload, l.side⟩ l.poison) xs ls)
    pure (match s.pageAt x with
      | some (st, p) => (s.header st p).mask
      | none => 0)

/-- Packs the local context into buffer 0: whether the block is POISONED. -/
def packBlock (s : State) (e : Env) (a : Acc) (d : List Byte) (id own : Nat) (local_ : Option (Ctx × Layout)) : M Bool := do
  let line (va : Nat) (bs : List Byte) : M Unit := do
    let ws ← putBytes e a va bs
    writeAll e ws
  let bad : Block := ⟨0, true, own, feBase d, 0, 0⟩
  match local_ with
  | none => do
    line (feBuffer d 0) bad.bytes
    pure true
  | some (c, y) =>
    let pages := c.pages y.per
    let b : Block := ⟨c.layout.toNat, false, own, feBase d, c.fill.toNat, pages⟩
    if field d 40 4 < b.lines ∨ c.fill.toNat < c.length.toNat then do
      line (feBuffer d 0) { b with poisoned := true, pages := 0 }.bytes
      pure true
    else do
      line (feBuffer d 0) b.bytes
      let body := feBuffer d 0 + 64 * (1 + maskLines pages)
      let masks ← (List.range pages).mapM fun j => packPage s e a id c (body + 64 * 1024 * j) j
      if pages = 0 then pure ()
      else line (feBuffer d 0 + 64) (masks.flatMap (fun m => natLE 8 m) ++ zeros (64 * maskLines pages - 8 * pages))
      pure false

/-! ### FERRY: rounds (R341) -/

/-- The merge of a block's result into the running state. -/
def mergeRow (run : FV × List FV) (blk : FV × List FV) : FV × List FV :=
  let (lg, o) := run
  let (lb, ob) := blk
  if lb = .negInf then run
  else if lg = .negInf then (lb, ob)
  else
    let mx := max32 lg lb
    let ln := f32Add mx (log2 (f32Add (exp2 (f32Sub lg mx)) (exp2 (f32Sub lb mx))))
    let wa := exp2 (f32Sub lg ln)
    let wb := exp2 (f32Sub lb ln)
    (ln, List.zipWith (fun x y => f32Add (f32Mul x wa) (f32Mul y wb)) o ob)

/-- A running row in words. -/
def rowWords (r : FV × List FV) : Word × List Word :=
  (BitVec.ofNat 32 (encode32 r.1), r.2.map fun x => BitVec.ofNat 32 (encode32 x))

/-- A running row from words. -/
def wordsRow (w : Word × List Word) : FV × List FV := (decode32 w.1.toNat, w.2.map fun x => decode32 x.toNat)

/-- The valid mask of a page in a block: bits of rows 64 and up are not carried, they are open (log entry 33). -/
def blockMask (d : Data) (y : Layout) (m j : Nat) : Nat :=
  if y.per ≤ 64 then m else m + 2 ^ 64 * (leNat (openBytes (d.free + j) 56))

/-- The pages of the block in a buffer. -/
def blockPages (e : Env) (a : Acc) (at_ : Attn) (buf : Nat) (b : Block) : M (List KvPage × ArithEv) := do
  let (masks, poison) ← readBytes e a (buf + 64) (8 * b.pages)
  let up ← readUp e a at_.y
  let dp ← M.ask id
  M.upd fun d => { d with free := d.free + b.pages }
  let ps ← (List.range b.pages).mapM fun j => do
    let m := if poison then leNat (openBytes (dp.free + j) 64) else blockMask dp at_.y (field masks (8 * j) 8) j
    if m = 0 || !at_.meets (j * at_.y.per) (min (j * at_.y.per + at_.y.per) at_.length) then pure none
    else do
      let (k, v, ev) ← pageRows e a at_ (buf + 64 * (1 + maskLines b.pages + 1024 * j)) up
      pure (some ((⟨j, m, k, v⟩ : KvPage), ev))
  let ps := ps.filterMap id
  pure (ps.map (·.1), sumEv (ps.map (·.2)))

/-- One round: the running state after it, or the origin of a POISONED block. -/
def ferryRound (s : State) (e : Env) (a : Acc) (o : Op) (b : List Byte) (buf : Nat) (state : List (Word × List Word)) :
    M (Option Nat × List (Word × List Word)) := do
  let ad := o.record Lab.hawser
  let l ← readVirt e a buf
  let k := Block.of l
  match k.poisoned, s.opLayout o (k.layout % 64) with
  | true, _ => pure (some k.origin, state)
  | false, none => pure (some k.origin, state)
  | false, some y =>
    let at_ := attnOf ad b y k.length k.length k.first
    let qs ← rowsOf e a (packed (enQ b) at_.qf at_.rows y.dim)
    let (ps, ev) ← blockPages e a at_ buf k
    let rs := (qs.zipIdx).map fun qr => attendRow at_ (at_.head qr.2) (at_.qpos qr.2) qr.1 ps (.start y.dim)
    countArith false (ev.add (sumEv (rs.map (·.2))))
    let start : FV × List FV := (.negInf, List.replicate y.dim .zero)
    let new := (rs.zipIdx).map fun r =>
      let out := r.1.1.out
      rowWords (mergeRow (match state[r.2]? with | some w => wordsRow w | none => start) (out.2, out.1))
    let ws ← putRows e a (feScratch o.desc) .f32 false (y.dim + 1)
      (new.map fun w => (w.2 ++ [w.1]).map fun x => decode32 x.toNat)
    writeAll e ws
    pure (none, new)

/-- A FERRY's entry of its batch: its local context and layout, when the context is open with a valid layout. -/
def State.ferryLocal (s : State) (o : Op) (b : List Byte) : Option (Ctx × Layout) :=
  match s.ctx (enId b) with
  | none => none
  | some c => (s.opLayout o c.layout.toNat).map fun y => (c, y)

/-- Label of the batch entry that a FERRY has read. -/
abbrev Lab.entry : Nat := 8

/-- O and the log-sum-exp written poisoned (R343), where the entry has been read and a layout gives their extent (log entry 33). -/
def ferryPoison (s : State) (o : Op) : M Unit :=
  let b := o.record Lab.entry
  let ad := o.record Lab.hawser
  if b = [] then pure ()
  else match s.ferryLocal o b with
    | none => pure ()
    | some (_, y) => entryPoison (s.envOf o) ⟨none, o.pin.toNat⟩ ad b (attnOf ad b y 0 0 0)

/-- A FERRY ends with a fault: none while a domain has to wake first. -/
def State.ferryFails (s : State) (o : Op) (code : Nat) (f : Option (XfKind × Nat)) : Option State :=
  match s.run (M.attempt (ferryPoison s o)) with
  | none => none
  | some (_, d) =>
    let s := { s with dp := d }.updGroup (collGroup o.desc) fun g => { g with ferry := none }
    some (match f with
      | some f => s.hawserXlate o f
      | none => s.endHawser o code 0)

/-! ### FERRY: the ring (R339, R342) -/

/-- The header fields of a ferry frame. -/
def ferryAddr (number : Word) (buf : Nat) : Reg := BitVec.ofNat 64 (number.toNat + 2 ^ 32 * buf)

/-- Sends FERRY_FREE for a buffer to the predecessor. -/
def State.sendFree (s : State) (o : Op) (r : List Byte) (f : Ferry) (buf : Nat) : State :=
  let n := f.ring.length
  s.sendColl o (collGroup o.desc) r (f.ring.getD ((f.place + n - 1) % n) 0) 6 (ferryAddr f.number buf) []

/-- Sets a group's ferry. -/
def State.setFerry (s : State) (g : Nat) (f : Ferry) : State := s.updGroup g fun x => { x with ferry := some f }

/-- Some block frame of a ferry into the successor's buffer is not acknowledged. -/
def State.blockOut (s : State) (g : Nat) (f : Ferry) (buf : Nat) : Bool :=
  s.hw.peers.any fun x => (s.peerFrames x.1).any fun y =>
    y.kind == 5 && y.group.toNat == g && y.addr == ferryAddr f.number buf

/-- What a FERRY writes at its end: its outputs, or poison, its status word, and the record's last ferry number (R341, R343). -/
def ferryEndWork (s : State) (o : Op) (f : Ferry) : M Unit := do
  let ad := o.record Lab.hawser
  let b := o.record Lab.entry
  let e := s.envOf o
  let a : Acc := ⟨none, o.pin.toNat⟩
  let status (r v : Nat) : M Unit :=
    if enStatus b = 0 then pure () else do
      let ws ← putBytes e a (enStatus b) (seqStatus r 0 v)
      writeAll e ws
  match f.poisoned with
  | some origin => do
    ferryPoison s o
    status Seq.droppedResult origin
  | none => do
    let rows := f.state.map wordsRow
    let dim := match rows with | [] => 0 | r :: _ => r.2.length
    let w1 ← putRows e a (enO b) (oFmt ad) (bit (field ad 36 1) 6) dim (rows.map (·.2))
    let w2 ← if enLse b = 0 then pure [] else putRows e a (enLse b) .f32 false rows.length [rows.map (·.1)]
    writeAll e (w1 ++ w2)
    status Seq.ok (rows.filter fun r => r.1 ≠ .negInf).length
  groupPut s (collGroup o.desc) 12 (natLE 4 f.number.toNat)

/-- The end of a FERRY whose rounds are merged and whose blocks are forwarded. -/
def State.ferryEnds (s : State) (o : Op) (f : Ferry) : Option State :=
  match s.run (ferryEndWork s o f) with
  | none => none
  | some (.error x, d) => ({ s with dp := d }).ferryFails o Code.xlateFault (some x)
  | some (.ok _, d) =>
    some ((({ s with dp := d }).updGroup (collGroup o.desc) fun x => { x with ferry := none }).endHawser o 0 0)

/-- One thing that a FERRY can do next: merge a round, forward a block, free a buffer, or end. -/
def State.ferryOne (s : State) (o : Op) (r : List Byte) (f : Ferry) : Option State :=
  let d := o.desc
  let g := collGroup d
  let n := f.ring.length
  let e := s.envOf o
  let a : Acc := ⟨none, o.pin.toNat⟩
  if f.round < n ∧ f.ready.contains f.round then
    match s.run (ferryRound s e a o (o.record Lab.entry) (feBuffer d (f.round % 2)) f.state) with
    | none => none
    | some (.error x, dp) => ({ s with dp := dp }).ferryFails o Code.xlateFault (some x)
    | some (.ok (bad, st), dp) =>
      some (({ s with dp := dp }).setFerry g
        { f with round := f.round + 1, state := st, poisoned := f.poisoned.orElse fun _ => bad })
  else if f.forwarded + 1 < n ∧ f.ready.contains f.forwarded ∧ f.grants.contains ((f.forwarded + 1) % 2) then
    let buf := feBuffer d (f.forwarded % 2)
    match s.run (do
        let l ← readVirt e a buf
        readLines e a buf (Block.of l).lines) with
    | none => none
    | some (.error x, dp) => ({ s with dp := dp }).ferryFails o Code.xlateFault (some x)
    | some (.ok ls, dp) =>
      let half := (f.forwarded + 1) % 2
      let s := ({ s with dp := dp }).setFerry g { f with forwarded := f.forwarded + 1, grants := f.grants.erase half }
      some (s.sendColl o g r (f.ring.getD ((f.place + 1) % n) 0) 5 (ferryAddr f.number half) [(0, ls)])
  else if f.freed < f.round ∧ (n ≤ f.freed + 1 ∨ (f.freed < f.forwarded ∧ s.blockOut g f ((f.freed + 1) % 2) = false)) then
    let s' := s.setFerry g { f with freed := f.freed + 1 }
    some (if f.freed + 2 < n then s'.sendFree o r f (f.freed % 2) else s')
  else if f.freed = n ∧ s.outstanding o [5, 6] = false then s.ferryEnds o f
  else none

/-- A FERRY goes on as far as it can. -/
def State.ferryRun (s : State) (o : Op) (r : List Byte) : Nat → State
  | 0 => s
  | fuel + 1 =>
    match (s.group (collGroup o.desc)).ferry with
    | none => s
    | some f =>
      if f.op ≠ o.id then s
      else match s.ferryOne o r f with
        | none => s
        | some s => s.ferryRun o r fuel

/-- A neighbour of a FERRY is UNREACHABLE or lost (R343). -/
def State.ferryAlone (s : State) (o : Op) (r : List Byte) : Bool :=
  match (s.group (collGroup o.desc)).ferry with
  | none => false
  | some f => decide (1 < f.ring.length)
    && f.neighbours.any fun k => s.lostRank (collGroup o.desc) r k || (s.peer (grModule r k)).st == Peer.unreachable

/-- A FERRY after an event. -/
def State.settleFerry (s : State) (o : Op) : State :=
  if o.num Lab.peerLost = 1 then (s.ferryFails o Code.peerLost none).getD s
  else match s.readGroup (collGroup o.desc) with
    | .unset => s
    | .waits => s
    | .fault f => (s.ferryFails o Code.xlateFault (some f)).getD s
    | .record r =>
      if s.ferryAlone o r then (s.ferryFails o Code.peerLost none).getD s else s.ferryRun o r (4 * 4096 + 4)

/-- Closes take effect, and the operations of class 0x06 that have sent their messages go on. -/
def State.settleHawser (s : State) : State :=
  let s := (s.hw.groups.map (·.1)).foldl State.applyCloses s
  (s.ops.filter fun o => classOf o.desc == 6 && o.num Lab.sent == 1).foldl (fun s o =>
    match s.findOp o.id with
    | none => s
    | some o =>
      if o.insts.all fun i => match i.phase with | .done => true | .running => false | .stalled => false then s
      else if opcodeOf o.desc = 0x0601 then s.settlePut o
      else if opcodeOf o.desc = 0x0602 then s.settleReduce o
      else if opcodeOf o.desc = 0x0603 then s.settleFerry o
      else s) s

/-! ### Meanings of the operations -/

/-- An earlier ALLREDUCE of the group has not sent its contribution: the active ranks of the later one's step are not yet known
(R329; log entry 33). -/
def State.reduceHeld (s : State) (o : Op) : Bool :=
  s.ops.any fun p => decide (p.id < o.id) && opcodeOf p.desc == 0x0602 && collGroup p.desc == collGroup o.desc
    && p.num Lab.sent == 0
    && p.insts.any fun i => match i.phase with | .done => false | .running => true | .stalled => true

/-- ALLREDUCE (R330): its contribution is sent; the closes and acknowledgements that follow end it. Sent again, the command lets what
had to wait go on. -/
def execAllreduce (id : Nat) (s : State) : Out :=
  .next <| match s.work id 0 0x0602 with
    | none => s
    | some (o, _) =>
      if o.num Lab.sent = 1 then s.settleHawser
      else if s.reduceHeld o then s
      else match s.readGroup (collGroup o.desc) with
        | .unset => s
        | .waits => s
        | .fault f => s.hawserXlate o f
        | .record r => (s.contributeStep o r).settleHawser

/-- The FERRY of an operation at its start (R339, R342). -/
def State.newFerry (s : State) (o : Op) (r : List Byte) : Ferry :=
  let g := collGroup o.desc
  let ring := (grActive r).filter fun k => !s.lostRank g r k
  { op := o.id, number := collNumber o.desc, ring := ring, place := (ring.findIdx? fun k => k == grOwn r).getD 0, round := 0
    grants := ((s.group g).keptFree.filter fun x => x.1 == collNumber o.desc).map (·.2)
    recv := [], want := [], ready := [0], forwarded := 0, freed := 0, poisoned := none, state := [] }

/-- A FERRY that has packed its block frees buffer 1 and goes round. -/
def State.startFerry (s : State) (o : Op) (r : List Byte) : State :=
  let g := collGroup o.desc
  let f := s.newFerry o r
  let s := s.updGroup g fun x => { x with ferry := some f, keptFree := x.keptFree.filter fun x => x.1 != collNumber o.desc }
  (if 1 < f.ring.length then s.sendFree o r f 1 else s).settleHawser

/-- FERRY (R339, R340, R342): it reads its batch entry, packs its block, frees buffer 1 and goes round. -/
def execFerry (id : Nat) (s : State) : Out :=
  .next <| match s.work id 0 0x0603 with
    | none => s
    | some (o, _) =>
      if o.num Lab.sent = 1 then s.settleHawser
      else if s.seqHeld o then s
      else match s.readGroup (collGroup o.desc) with
        | .unset => s
        | .waits => s
        | .fault f => (s.ferryFails o Code.xlateFault (some f)).getD s
        | .record r =>
          let e := s.envOf o
          let a : Acc := ⟨none, o.pin.toNat⟩
          match s.run (readBytes e a (addrField (o.record Lab.hawser) 16) 128) with
          | none => s
          | some (.error f, dp) => (({ s with dp := dp }).ferryFails o Code.xlateFault (some f)).getD s
          | some (.ok (b, poison), dp) =>
            let o' := { o with recs := tput o.recs Lab.entry b }
            let local_ := if poison || entryMalformed false b then none else s.ferryLocal o' b
            match ({ s with dp := dp }).run (packBlock s e a o.desc (enId b) (grOwn r) local_) with
            | none => s
            | some (.error f, dp) => (({ s with dp := dp }).ferryFails o' Code.xlateFault (some f)).getD s
            | some (.ok _, dp) =>
              ((({ s with dp := dp }).updOp id fun o => { o with recs := tput o.recs Lab.entry b }).mark id Lab.sent 1).startFerry
                ({ o' with nums := tput o.nums Lab.sent 1 }) r

/-- An operation of some opcodes runs on a group. -/
def State.groupRuns (s : State) (codes : List Nat) (g : Nat) : Bool :=
  s.ops.any fun o => codes.contains (opcodeOf o.desc) && collGroup o.desc == g
    && o.insts.any fun i => match i.phase with | .done => false | .running => true | .stalled => true

/-- An ALLREDUCE or FERRY of a group runs. -/
def State.groupBusy (s : State) (g : Nat) : Bool := s.groupRuns [0x0602, 0x0603] g

/-- REGROUP (R338). -/
def execRegroup (id : Nat) (s : State) : Out :=
  .next <| match s.work id 0 0x0604 with
    | none => s
    | some (o, _) =>
      let g := collGroup o.desc
      if s.groupBusy g then s
      else
        let src := o.record Lab.hawser
        let e := s.envOf o
        let a : Acc := ⟨none, o.pin.toNat⟩
        let va := (s.group g).addr.toNat
        let last := BitVec.ofNat 32 (field o.desc 32 4) - (1 : Word)
        match s.run (do
            let w1 ← putBytes e a va (slice src 0 8 ++ natLE 4 last.toNat)
            let w2 ← putBytes e a (va + 16) [0]
            let w3 ← putBytes e a (va + 64) (slice src 64 8192 ++ zeros 1024)
            writeAll e (w1 ++ w2 ++ w3)) with
        | none => s
        | some (.error f, dp) => ({ s with dp := dp }).hawserXlate o f
        | some (.ok _, dp) =>
          let s := ({ s with dp := dp }).discardContribs (s.group g).contribs
          (s.updGroup g fun x => { x with steps := [], contribs := [], ready := [], closes := [], keptFree := [], ferry := none }).endHawser
            o 0 0

end Sys2Proof.Machine
end

