-- ==== Sys2Proof/Machine/Hawser.lean ====
section
/-!
DEFINITION. The events of the Hawser block (10 R305 to R347): frames received and the messages that they carry, timers, the
port states, flow control, and writes of the Hawser registers.
-/

namespace Sys2Proof.Machine

/-- A command of a port. -/
def onPort (p : Nat) (s : State) : Out := guarded (p < 16) s

/-- A command of a path. -/
def onPath (i p : Nat) (s : State) : Out := guarded (decide (i < 4096) && decide (p < 16)) s

/-- Operations go on and waiting frames are placed: the end of every Hawser event. -/
def State.hawserOn (s : State) : State := s.pumpAll.settleHawser.pumpAll

/-! ### Room (R319, R324, R326, R330) -/

/-- Lines in staging. -/
def State.stagedLines (s : State) : Nat :=
  ((s.hw.paths.map fun x => ((x.2.staged.map fun f => f.lines.length).sum)).sum)

/-- The open message of a frame. -/
def State.findMsg (s : State) (put : Bool) (src : Nat) (id : Word) : Option InMsg :=
  s.hw.msgs.find? fun m => m.put == put && m.src.toNat == src && m.id == id

/-- The contribution of a frame is one that the member discards: late, of no member, or of a lost rank (R334, R335). -/
def State.unwanted (s : State) (g : Nat) (r : List Byte) (src : Nat) (step : Word) : Bool :=
  match grRank r src with
  | none => true
  | some k => s.lostRank g r k || stepBefore step (s.lastClosed g r)

/-- Room for a contribution: its step is dispatched here, and no other step's data hold the slots of its parity. -/
def State.contribRoom (s : State) (f : HwFrame) : Bool :=
  let g := f.group.toNat
  let step : Word := f.addr.setWidth 32
  match s.frameGroup f with
  | none => true
  | some r =>
    s.unwanted g r f.srcId.toNat step
      || (((s.group g).step? step).isSome
          && !((s.group g).contribs.any fun c => c.step != step && c.step.toNat % 2 == step.toNat % 2))

/-- Room for a frame in staging, in the message table, and in the slots. -/
def State.hasRoom (s : State) (f : HwFrame) : Bool :=
  decide (s.stagedLines + f.lines.length ≤ 65536) &&
    (if f.kind = 0 then (s.findMsg true f.srcId.toNat f.msgId).isSome
        || decide ((s.hw.msgs.filter fun m => m.put).length < 4096)
     else if f.kind = 1 ∨ f.kind = 2 then s.contribRoom f
     else true)

/-! ### DATA frames (R317, R319) -/

/-- Takes a frame into staging. -/
def State.stage (s : State) (i p : Nat) (f : HwFrame) : State :=
  let s := (s.updPath i p fun x => { x with expected := x.expected + 1, staged := x.staged ++ [f] }).bump Evt.framesRx 1
  if f.kind = 0 ∧ (s.findMsg true i f.msgId).isNone then
    { s with hw := { s.hw with msgs := s.hw.msgs ++ [⟨BitVec.ofNat 12 i, f.msgId, 0, f.msgLines.toNat, false, true⟩] } }
  else s

/-- A DATA frame at the receiver. -/
def State.rxData (s : State) (p : Nat) (f : HwFrame) (i : Nat) : State :=
  let x := s.path i p
  if decide (6 < f.kind.toNat) || decide (126 < f.lines.length) || f.epoch != x.rxEpoch then s
  else
    let s := s.acknowledge i p f.ackPsn
    if f.psn = x.expected then
      if s.hasRoom f then s.stage i p f
      else (s.sendNak i p 2 x.accepted 0 0).bump Evt.rxBusy 1
    else if psnAfter x.expected f.psn then (s.sendAck i p).bump Evt.rxDup 1
    else if x.nakSent then s
    else (s.sendNak i p 1 x.expected 0 0).updPath i p fun x => { x with nakSent := true }

/-- RX_DATA. -/
def execRxData (p : Nat) (f : HwFrame) (s : State) : Out :=
  onPort p (s.onFrame p f Ft.data fun s i => (s.rxData p f i).hawserOn)

/-! ### Placing accepted frames (R320, R325 to R330) -/

/-- The oldest staged frame of a path, when it is of a kind. -/
def State.front (s : State) (i p : Nat) (kind : BitVec 8) : Option HwFrame :=
  match (s.path i p).staged with
  | [] => none
  | f :: _ => if f.kind = kind then some f else none

/-- A frame leaves staging: it is accepted now; every eighth one is acknowledged at once (R320). -/
def State.placed (s : State) (i p : Nat) : State :=
  let s := s.updPath i p fun x => { x with staged := x.staged.drop 1, sinceAck := x.sinceAck + 1 }
  if 8 ≤ (s.path i p).sinceAck then s.sendAck i p else s

/-- The group record that a collective frame needs is in a domain that has to wake first. -/
def State.frameWaits (s : State) (f : HwFrame) : Bool :=
  f.kind != 0 && match s.readGroup f.group.toNat with
    | .waits => true
    | .unset => false
    | .fault _ => false
    | .record _ => false

/-- The body of a kind's command: the frame is placed, unless an access of it has to wait. -/
def State.placeFrame (s : State) (i p : Nat) (kind : BitVec 8) (body : State → HwFrame → Option State) : Out :=
  onPath i p <| match s.front i p kind with
    | none => s
    | some f =>
      match if s.frameWaits f then none else body s f with
      | none => s
      | some s => (s.placed i p).hawserOn

/-- Writes a PUT frame's lines: the kind that refuses them, or none. -/
def State.putLines (s : State) (f : HwFrame) : Option (State × Option XfKind) :=
  let va := f.addr.toNat + 64 * f.lineOffset.toNat
  if 2 ^ 58 < va + 64 * f.lines.length then some (s, some .range)
  else match s.run (M.attempt (putReceived (s.env 0) s.linkAcc va (receivedLines f))) with
    | none => none
    | some (.ok (.ok ()), d) => some ({ s with dp := d }, none)
    | some (.ok (.error x), d) => some ({ s with dp := d }, some x.1)
    | some (.error x, d) => some ({ s with dp := d }, some x.1)

/-- The message of a PUT frame that has been placed (R326). -/
def State.closePut (s : State) (i : Nat) (f : HwFrame) (refused : Bool) : State :=
  match s.findMsg true i f.msgId with
  | none => s
  | some m =>
    let m' := { m with got := m.got + f.lines.length, refused := m.refused || refused }
    let rest := s.hw.msgs.filter fun y => !(y.put && y.src.toNat == i && y.id == f.msgId)
    if m'.got < m'.total then { s with hw := { s.hw with msgs := rest ++ [m'] } }
    else
      let s := { s with hw := { s.hw with msgs := rest } }
      if !m'.refused && bit f.remoteCounter.toNat 15 then
        s.signal (bits f.remoteCounter.toNat 11 0) f.remoteIncrement.toNat 0
      else s

/-- PUT_FRAME (R325, R326); its remote signal may end a slip (06 R177). -/
def execPutFrame (i p : Nat) (s : State) : Out :=
  s.placeFrame i p 0 fun s f =>
    match s.putLines f with
    | none => none
    | some (s, none) => some (s.closePut i f false).watchSlip
    | some (s, some k) =>
      let s := s.bump Evt.rxReject 1
      let s := s.sendNak i p 3 (s.path i p).accepted f.msgId (BitVec.ofNat 64 (k.code))
      some (s.closePut i f true)

/-- Counts a discarded contribution once per message (R334). -/
def State.dropContrib (s : State) (i : Nat) (f : HwFrame) : State :=
  let old := s.findMsg false i f.msgId
  let s := if old.isNone then s.bump Evt.collDropped 1 else s
  let got := (match old with | some m => m.got | none => 0) + f.lines.length
  let rest := s.hw.msgs.filter fun y => !(!y.put && y.src.toNat == i && y.id == f.msgId)
  { s with hw := { s.hw with
      msgs := if got < f.msgLines.toNat then rest ++ [⟨BitVec.ofNat 12 i, f.msgId, got, f.msgLines.toNat, false, false⟩] else rest } }

/-- Counts the lines of a contribution that are in its slot. -/
def Group.holdContrib (g : Group) (step : Word) (rank : Nat) (stats : Bool) (f : HwFrame) : Group :=
  let is_ (c : Contrib) : Bool := c.step == step && c.rank == rank && c.stats == stats
  if g.contribs.any is_ then
    { g with contribs := g.contribs.map fun c => if is_ c then { c with got := c.got + f.lines.length } else c }
  else { g with contribs := g.contribs ++ [⟨step, rank, stats, f.lines.length, f.msgLines.toNat, f.srcId, f.msgId⟩] }

/-- A contribution frame is placed in its slot, or discarded (R329 to R331, R334). -/
def State.placeContrib (s : State) (i : Nat) (stats : Bool) (f : HwFrame) : Option State :=
  let g := f.group.toNat
  let step : Word := f.addr.setWidth 32
  match s.frameGroup f with
  | none => some (s.bump Evt.revMismatch 1)
  | some r =>
    match grRank r i, (s.group g).step? step with
    | some k, some c =>
      if s.unwanted g r i step then some (s.dropContrib i f)
      else
        let at_ := f.lineOffset.toNat
        let ls := (receivedLines f).take (rdSlotLines c.record - at_)
        match s.run (putSlot (s.groupEnv g) s.linkAcc (slotBase c.record (grMembers r) step k)
            (slotLayout c.record c.gr c.active.length) at_ ls) with
        | none => none
        | some (.ok (), d) => some (({ s with dp := d }).updGroup g fun x => x.holdContrib step k stats f)
        | some (.error x, d) =>
          let s := { s with dp := d }
          some (match s.stepOp c with
            | some o => (s.stepDone g step).hawserXlate o x
            | none => s)
    | _, _ => some (s.dropContrib i f)

/-- CONTRIB_FRAME. -/
def execContribFrame (i p : Nat) (s : State) : Out := s.placeFrame i p 1 fun s f => s.placeContrib i false f

/-- STATS_FRAME. -/
def execStatsFrame (i p : Nat) (s : State) : Out := s.placeFrame i p 2 fun s f => s.placeContrib i true f

/-- READY_FRAME (R332). -/
def execReadyFrame (i p : Nat) (s : State) : Out :=
  s.placeFrame i p 3 fun s f =>
    some <| match s.frameGroup f with
      | none => s.bump Evt.revMismatch 1
      | some r =>
        match grRank r i with
        | none => s
        | some k =>
          if grOwn r = grLeader r && !s.lostRank f.group.toNat r k then s.addReady f.group.toNat (f.addr.setWidth 32) k else s

/-- The close that a frame carries: bitmaps of 512 bytes in lines 0, 8 and 16 (log entry 33). -/
def closeOfFrame (r : List Byte) (f : HwFrame) : Close :=
  let bs := f.lines.flatMap fun l => slice l.1 0 64
  let lost := field bs 1024 512
  ⟨field bs 0 512, field bs 512 512, lost, ((mapRanks lost).filter fun k => !bit (grLost r) k).length⟩

/-- A member that a CLOSE declares lost before it has dispatched its ALLREDUCE for the step: its record's State becomes LOST
(R335). None while a domain has to wake first. -/
def State.lostBefore (s : State) (g : Nat) (r : List Byte) (n : Word) (k : Close) : Option State :=
  if ((s.group g).step? n).isSome || !bit k.lost (grOwn r) then some s
  else match s.run (groupPut s g 16 [2]) with
    | none => none
    | some (_, d) => some { s with dp := d }

/-- CLOSE_FRAME (R332 to R337). -/
def execCloseFrame (i p : Nat) (s : State) : Out :=
  s.placeFrame i p 4 fun s f =>
    match s.frameGroup f with
    | none => some (s.bump Evt.revMismatch 1)
    | some r =>
      let g := f.group.toNat
      let n : Word := f.addr.setWidth 32
      if grRank r i ≠ some (grLeader r) then some s
      else match s.lostBefore g r n (closeOfFrame r f) with
        | none => none
        | some s => some ((s.updGroup g fun x => x.addClose n (closeOfFrame r f)).tryApply g n)

/-- The round whose block comes into a buffer next: the block of round q lies in buffer q mod 2 (R342). -/
def Ferry.nextRound (y : Ferry) (buf : Nat) : Nat :=
  match (y.ready.filter fun q => q % 2 = buf).max? with
  | some q => q + 2
  | none => buf

/-- A ferry block's frame goes into its buffer (R342). -/
def State.placeBlock (s : State) (i : Nat) (f : HwFrame) : Option State :=
  let g := f.group.toNat
  let buf := b2n (bit f.addr.toNat 32)
  match s.frameGroup f, (s.group g).ferry with
  | some r, some y =>
    match s.findOp y.op with
    | none => some (s.bump Evt.revMismatch 1)
    | some o =>
      if f.addr.setWidth 32 ≠ y.number ∨ grRank r i ≠ y.ring[(y.place + y.ring.length - 1) % y.ring.length]? then
        some (s.bump Evt.revMismatch 1)
      else
        let e := s.envOf o
        let at_ := f.lineOffset.toNat
        let ls := (receivedLines f).take (field o.desc 40 4 - at_)
        match s.run (putReceived e ⟨none, o.pin.toNat⟩ (feBuffer o.desc buf + 64 * at_) ls) with
        | none => none
        | some (.error x, d) => ({ s with dp := d }).ferryFails o Code.xlateFault (some x)
        | some (.ok (), d) =>
          let got := tget 0 y.recv buf + f.lines.length
          let y := { y with recv := tput y.recv buf got, want := tput y.want buf f.msgLines.toNat }
          let q := y.nextRound buf
          let y := if got < f.msgLines.toNat then y else { y with ready := y.ready ++ [q], recv := tdel y.recv buf, want := tdel y.want buf }
          some (({ s with dp := d }).setFerry g y)
  | _, _ => some (s.bump Evt.revMismatch 1)

/-- FERRY_BLOCK. -/
def execFerryBlock (i p : Nat) (s : State) : Out := s.placeFrame i p 5 fun s f => s.placeBlock i f

/-- The next ferry number of a group: it follows the one that runs, or the last one (R342). -/
def State.nextFerry (s : State) (g : Nat) (r : List Byte) : Word :=
  match (s.group g).ferry with
  | some y => y.number + 1
  | none => grFerry r + 1

/-- FERRY_FREE (R342). -/
def execFerryFree (i p : Nat) (s : State) : Out :=
  s.placeFrame i p 6 fun s f =>
    let g := f.group.toNat
    let n : Word := f.addr.setWidth 32
    let buf := b2n (bit f.addr.toNat 32)
    some <| match s.frameGroup f with
      | none => s.bump Evt.revMismatch 1
      | some r =>
        let keep (s : State) : State :=
          if n = s.nextFerry g r then s.updGroup g fun x => { x with keptFree := x.keptFree ++ [(n, buf)] } else s.bump Evt.revMismatch 1
        match (s.group g).ferry with
        | some y => if n = y.number then s.setFerry g { y with grants := y.grants ++ [buf] } else keep s
        | none => keep s

/-! ### Deadlines (R332, R336, R343) -/

/-- DEADLINE_CLOSE: the leader's oldest step that is not closed, its deadline come, closes, even where the leader's own ALLREDUCE has
ended by a fault. -/
def execDeadlineClose (g : Nat) (s : State) : Out :=
  guarded (g < 16) <| match s.groupRecord g with
    | none => s
    | some r =>
      match (s.group g).steps.find? fun c => c.close.isNone && !((s.group g).closes.any fun x => x.1 == c.step) with
      | none => s
      | some c => if grOwn r = grLeader r then (s.closeStep g r c).hawserOn else s

/-- COLL_TIMEOUT: never at the leader. -/
def execCollTimeout (id : Nat) (s : State) : Out :=
  .next <| match s.work id 0 0x0602 with
    | none => s
    | some (o, _) =>
      let g := collGroup o.desc
      let n := collNumber o.desc
      match s.groupRecord g with
      | none => s
      | some r =>
        if grOwn r = grLeader r then s
        else
          match (s.group g).step? n with
          | none => s
          | some c =>
            if c.close.isSome || c.done then s
            else match s.run (M.both (poisonResults s o c (grOwn r)) (groupPut s g 16 [1])) with
              | none => s
              | some (.error f, d) => ((({ s with dp := d }).stepDone g n).hawserXlate o f).hawserOn
              | some (.ok _, d) => ((({ s with dp := d }).stepDone g n).endHawser o Code.collTimeout 0).hawserOn

/-- FERRY_WAIT_TIMEOUT. -/
def execFerryWaitTimeout (id : Nat) (s : State) : Out :=
  .next <| match s.work id 0 0x0603 with
    | none => s
    | some (o, _) =>
      if o.num Lab.sent = 1 then match s.ferryFails o Code.collTimeout none with
        | none => s
        | some s => s.hawserOn
      else s

/-! ### Acknowledgements (R320, R321) -/

/-- ACK: an acknowledgement of another epoch than the path's says nothing (log entry 32). -/
def execAck (p : Nat) (f : HwFrame) (s : State) : Out :=
  onPort p (s.onFrame p f Ft.ack fun s i => if f.epoch = (s.path i p).epoch then (s.acknowledge i p f.ackPsn).hawserOn else s)

/-- ACK_TIMER. -/
def execAckTimer (i p : Nat) (s : State) : Out :=
  onPath i p (if 0 < (s.path i p).sinceAck then s.sendAck i p else s)

/-- A NAK at the sender. Resending waits while the port is paused (R313). -/
def State.rxNak (s : State) (p : Nat) (f : HwFrame) (i : Nat) : State :=
  if f.kind = 3 then
    match s.ops.find? fun o => opcodeOf o.desc == 0x0601 && o.num Lab.sent == 1 && putPeer o.desc == i
        && o.num Lab.msg == f.msgId.toNat with
    | some o => s.mark o.id Lab.rejected 1
    | none => s
  else if f.kind = 1 && !(s.port p).paused then s.resendAfter i p f.ackPsn
  else if f.kind = 1 ∨ f.kind = 2 then s.updPath i p fun x => { x with busy := some f.ackPsn }
  else s

/-- NAK. -/
def execNak (p : Nat) (f : HwFrame) (s : State) : Out :=
  onPort p (s.onFrame p f Ft.nak fun s i =>
    if f.epoch = (s.path i p).epoch && (s.path i p).est then (s.rxNak p f i).hawserOn else s)

/-- BUSY_RESEND. -/
def execBusyResend (i p : Nat) (s : State) : Out :=
  onPath i p <| match (s.path i p).busy with
    | none => s
    | some a =>
      if (s.port p).paused then s
      else (s.resendAfter i p a).updPath i p fun x => { x with busy := none }

/-- A timeout of a path (R321). -/
def State.timeout (s : State) (i p : Nat) : State :=
  let x := s.path i p
  if x.unacked.isEmpty then s
  else if s.hw.retry.toNat ≤ x.timeouts + 1 then s.losePath i p
  else (s.resendAll i p).updPath i p fun x => { x with timeouts := x.timeouts + 1 }

/-- RTO_EXPIRY: not while the port is paused (R313). A SYNC_REQ without an answer is sent again (log entry 32). -/
def execRtoExpiry (i p : Nat) (s : State) : Out :=
  onPath i p <|
    if (s.port p).paused then s
    else
      let s := if (s.path i p).nakSent then s.updPath i p fun x => { x with nakSent := false } else s
      let x := s.path i p
      if x.est then (s.timeout i p).hawserOn
      else if x.syncing then s.sendSyncReq i p p
      else if x.lost then
        match s.otherPath i p with
        | some k => s.sendSyncReq i k p
        | none => s
      else s

/-! ### Establishing and losing paths (R317, R322, R323) -/

/-- Lines of a message of a source that have been accepted: `lines` of them are in place already. -/
def State.inStaging (s : State) (i : Nat) (is_ : HwFrame → Bool) : Nat :=
  ((List.range 16).map fun p => ((((s.path i p).staged.filter is_).map fun f => f.lines.length).sum)).sum

/-- Frames that fall out of staging. -/
def State.unstage (s : State) (i : Nat) (is_ : HwFrame → Bool) : State :=
  { s with hw := { s.hw with paths := s.hw.paths.map fun x =>
      if x.1 / 16 = i then (x.1, { x.2 with staged := x.2.staged.filter fun f => !is_ f }) else x } }

/-- Incomplete PUT messages of a source are discarded. -/
def State.abandonPuts (s : State) (i : Nat) : State :=
  (s.hw.msgs.filter fun m => m.put && m.src.toNat == i).foldl (fun s m =>
    let is_ (f : HwFrame) : Bool := f.kind == 0 && f.msgId == m.id
    if m.total ≤ m.got + s.inStaging i is_ then s
    else
      let s := (s.unstage i is_).bump Evt.rxAbandoned 1
      { s with hw := { s.hw with msgs := s.hw.msgs.filter fun y => !(y.put && y.src == m.src && y.id == m.id) } }) s

/-- Incomplete contributions of a source are discarded. -/
def State.abandonContribs (s : State) (i g : Nat) : State :=
  match s.groupRecord g with
  | none => s
  | some r =>
    match grRank r i with
    | none => s
    | some k =>
      ((s.group g).contribs.filter fun c => c.rank == k).foldl (fun s c =>
        let is_ (f : HwFrame) : Bool := f.kind == (if c.stats then 2 else 1) && f.group.toNat == g && f.addr.setWidth 32 == c.step
        if c.total ≤ c.got + s.inStaging i is_ then s
        else
          let s := (s.unstage i is_).bump Evt.rxAbandoned 1
          s.updGroup g fun x => { x with contribs := x.contribs.filter fun y => !(y.step == c.step && y.rank == c.rank && y.stats == c.stats) }) s

/-- An incomplete block of a source is discarded. -/
def State.abandonBlocks (s : State) (i g : Nat) : State :=
  match s.groupRecord g, (s.group g).ferry with
  | some r, some y =>
    if grRank r i = y.ring[(y.place + y.ring.length - 1) % y.ring.length]? then
      y.want.foldl (fun s w =>
        let is_ (f : HwFrame) : Bool := f.kind == 5 && f.group.toNat == g && b2n (bit f.addr.toNat 32) == w.1
        if w.2 ≤ tget 0 y.recv w.1 + s.inStaging i is_ then s
        else
          let s := (s.unstage i is_).bump Evt.rxAbandoned 1
          s.updGroup g fun x => { x with ferry := x.ferry.map fun y => { y with recv := tdel y.recv w.1, want := tdel y.want w.1 } }) s
    else s
  | _, _ => s

/-- A RESET SYNC: every incomplete incoming message of the source is discarded (R323). -/
def State.abandon (s : State) (i : Nat) : State :=
  let s := s.abandonPuts i
  let s := { s with hw := { s.hw with msgs := s.hw.msgs.filter fun m => m.put || m.src.toNat != i } }
  (List.range 16).foldl (fun s g => (s.abandonContribs i g).abandonBlocks i g) s

/-- SYNC_REQ at the receiver: it names the path through port k. -/
def State.rxSyncReq (s : State) (p : Nat) (f : HwFrame) (i : Nat) : State :=
  let k := bits f.addr.toNat 3 0
  let s := if bit f.kind.toNat 0 then s.abandon i else s
  let s := s.updPath i k fun x =>
    { x with rxEpoch := x.rxEpoch + 1, expected := if k = p then 0 else x.expected, nakSent := false }
  let x := s.path i k
  s.emit p { s.blank i p Ft.syncRsp 0 with
    epoch := x.rxEpoch, addr := BitVec.ofNat 64 (k + 2 ^ 8 * (x.expected - 1).toNat) }

/-- SYNC_REQ. -/
def execSyncReq (p : Nat) (f : HwFrame) (s : State) : Out :=
  onPort p (s.onFrame p f Ft.syncReq fun s i => (s.rxSyncReq p f i).hawserOn)

/-- SYNC_RSP for the path that it came on: established (R317, R323). -/
def State.established (s : State) (i p : Nat) (epoch : Byte) : State :=
  let s := s.updPath i p fun x =>
    { x with est := true, syncing := false, epoch := epoch, next := 0, unacked := [], timeouts := 0, busy := none }
  s.updPeer i fun x => if x.st = Peer.idle then { x with st := Peer.up, wasLost := false } else { x with wasLost := false }

/-- SYNC_RSP for a lost path: frames up to the PSN count as acknowledged, later ones are new frames (R322). -/
def State.settleLost (s : State) (i k : Nat) (a : BitVec 24) : State :=
  let left := (s.path i k).unacked.filter fun f => psnAfter f.psn a
  let s := s.updPath i k fun x => { x with lost := false, unacked := [] }
  s.updPeer i fun x => { x with queue := left ++ x.queue }

/-- SYNC_RSP at the sender. -/
def State.rxSyncRsp (s : State) (p : Nat) (f : HwFrame) (i : Nat) : State :=
  let k := bits f.addr.toNat 3 0
  let x := s.path i k
  if (s.peer i).st = Peer.unreachable then s
  else if x.lost then s.settleLost i k (BitVec.ofNat 24 (bits f.addr.toNat 31 8))
  else if k = p && x.syncing then s.established i p f.epoch
  else s

/-- SYNC_RSP. -/
def execSyncRsp (p : Nat) (f : HwFrame) (s : State) : Out :=
  onPort p (s.onFrame p f Ft.syncRsp fun s i => (s.rxSyncRsp p f i).hawserOn)

/-- PEER_RESET (R323). -/
def State.peerReset (s : State) (i : Nat) : State :=
  if (s.peer i).st = Peer.unreachable then (s.updPeer i fun x => { x with st := Peer.idle }).pump i else s

/-- PEER_RESET. -/
def execPeerReset (i : Nat) (s : State) : Out := guarded (i < 4096) (s.peerReset i)

/-- FIRST_ESTABLISHMENT_TIMEOUT (R323): no SYNC_RSP has come to an IDLE peer, whether its port is still UP or not. -/
def execFirstEstablishmentTimeout (i : Nat) (s : State) : Out :=
  guarded (i < 4096) <|
    if (s.peer i).st = Peer.idle && ((List.range 16).any (fun p => (s.path i p).syncing) || !(s.peer i).queue.isEmpty) then
      (s.losePeer i).hawserOn
    else s

/-! ### Flow control (R313) -/

/-- PAUSE, or PFC with the priority that the port sends with. -/
def execPause (p : Nat) (priority : Option (BitVec 3)) (ns : Nat) (s : State) : Out :=
  onPort p <|
    let ours := match priority with | none => true | some x => x == s.hw.pcp
    if !(ours && s.receives p) then s
    else if ns = 0 then (s.unpause p).hawserOn
    else (s.setPort p { s.port p with paused := true }).hawserOn

/-- PAUSE_TIME_EXPIRY. -/
def execPauseTimeExpiry (p : Nat) (s : State) : Out := onPort p ((s.unpause p).hawserOn)

/-! ### Port states (R310 to R312) -/

/-- Training begins, in the mode that the dictionary gives (13 0x1010). -/
def State.train (s : State) (p : Nat) : State :=
  s.setPort p { s.port p with
    st := .training, mode := tget 0 s.dic.cfg.portModes p, trainings := (s.port p).trainings + 1 }

/-- The paths of a port are lost. -/
def State.losePaths (s : State) (p : Nat) : State := (s.portPeers p).foldl (fun s i => s.losePath i p) s

/-- A port leaves UP or DRAIN for a state. -/
def State.leave (s : State) (p : Nat) (st : PortState) : State :=
  (s.setPort p { s.port p with st := st, degraded := false, lanes := 0, paused := false, held := [] }).losePaths p

/-- An UP port goes DOWN. -/
def State.portDown (s : State) (p : Nat) : State := (s.leave p .down).bump Evt.portRetrain 1

/-- ENABLE written 1 (R311, R312). -/
def State.portEnable (s : State) (p : Nat) : State :=
  let x := s.port p
  let s := s.setPort p { x with enable := true }
  match x.st with
  | .off => s.train p
  | .drain => s.setPort p { s.port p with pending := true }
  | .training => s
  | .up => s
  | .down => s

/-- ENABLE written 0. -/
def State.portDisable (s : State) (p : Nat) : State :=
  let x := s.port p
  let s := s.setPort p { x with enable := false, pending := false }
  match x.st with
  | .up => s.setPort p { s.port p with st := .drain }
  | .training => s.setPort p { s.port p with st := .off }
  | .down => s.setPort p { s.port p with st := .off }
  | .off => s
  | .drain => s

/-- RETRAIN written 1. -/
def State.portRetrain (s : State) (p : Nat) : State := if (s.port p).st = .up then (s.portDown p).hawserOn else s

/-- PORT_ENABLE. -/
def execPortEnable (p : Nat) (s : State) : Out := onPort p (s.portEnable p)

/-- PORT_DISABLE. -/
def execPortDisable (p : Nat) (s : State) : Out := onPort p (s.portDisable p)

/-- RETRAIN. -/
def execRetrain (p : Nat) (s : State) : Out := onPort p (s.portRetrain p)

/-- TRAINING_DONE: the port's paths become usable. -/
def execTrainingDone (p : Nat) (s : State) : Out :=
  onPort p (if (s.port p).st = .training then (s.setPort p { s.port p with st := .up, lanes := 0xF }).hawserOn else s)

/-- TRAINING_TIMEOUT. -/
def execTrainingTimeout (p : Nat) (s : State) : Out :=
  onPort p (if (s.port p).st = .training then (s.setPort p { s.port p with st := .down, lanes := 0 }).bump Evt.portRetrain 1 else s)

/-- DOWN_TIMEOUT. -/
def execDownTimeout (p : Nat) (s : State) : Out := onPort p (if (s.port p).st = .down then s.train p else s)

/-- DRAIN_DONE: PENDING then enables the port again (R312). -/
def execDrainDone (p : Nat) (s : State) : Out :=
  onPort p <|
    if (s.port p).st = .drain then
      let again := (s.port p).pending
      let s := (s.leave p .off).hawserOn
      let s := s.setPort p { s.port p with pending := false }
      if again then s.portEnable p else s
    else s

/-- LINK_FAILURE: uncorrectable codewords in 1 ms, or, for 0, the loss of lane lock. -/
def execLinkFailure (p codewords : Nat) (s : State) : Out :=
  onPort p <|
    if (s.port p).st = .up then
      let s := s.bump Evt.fecUncorr codewords
      let s := s.setPort p { s.port p with uncorrectable := (s.port p).uncorrectable + BitVec.ofNat 64 codewords }
      if codewords = 0 ∨ 16 < codewords then (s.portDown p).hawserOn else s
    else s

/-- DEGRADED_WINDOW: the ratio of corrected to received symbols against 10^-5. -/
def execDegradedWindow (p corrected received : Nat) (s : State) : Out :=
  onPort p <|
    let x := s.port p
    if x.st = .up then
      s.setPort p { x with corrected := x.corrected + BitVec.ofNat 64 corrected, degraded := decide (received < corrected * 10 ^ 5) }
    else s

/-! ### Registers (R347) -/

/-- A register with the bits of a write that the mask names. -/
def mergeReg (old v mask : Reg) : Reg := (old &&& ~~~mask) ||| (v &&& mask)

/-- Some peer is not IDLE. -/
def State.anyPeer (s : State) : Bool := s.hw.peers.any fun x => x.2.st != Peer.idle

/-- HW_CFG. -/
def State.hwCfg (s : State) : Nat :=
  s.hw.moduleId.toNat + 2 ^ 12 * b2n s.hw.vlanEn + 2 ^ 13 * s.hw.pcp.toNat + 2 ^ 16 * s.hw.vid.toNat + 2 ^ 28 * s.hw.maxLines.toNat

/-- HW_TIMING. -/
def State.hwTiming (s : State) : Nat := s.hw.rto.toNat + 2 ^ 16 * s.hw.retry.toNat + 2 ^ 24 * s.hw.ferryWait.toNat

/-- HW_PEER_CFG_i. -/
def Peer.cfg (x : Peer) : Nat := x.paths.toNat + 2 ^ 16 * x.credit.toNat + 2 ^ 40 * x.st.toNat

/-- A write of HW_CFG. -/
def State.writeHwCfg (s : State) (v : Nat) : State :=
  let id : BitVec 12 := BitVec.ofNat 12 (bits v 11 0)
  let refused := s.anyPeer && id != s.hw.moduleId
  let s := if refused then s.bump Evt.hwCfgReject 1 else s
  { s with hw := { s.hw with
      moduleId := if refused then s.hw.moduleId else id
      vlanEn := bit v 12
      pcp := BitVec.ofNat 3 (bits v 15 13)
      vid := BitVec.ofNat 12 (bits v 27 16)
      maxLines := BitVec.ofNat 7 (clampN 1 126 (bits v 34 28)) } }

/-- A write of HW_TIMING. -/
def State.writeHwTiming (s : State) (v : Nat) : State :=
  { s with hw := { s.hw with
      rto := BitVec.ofNat 16 (max 1 (bits v 15 0))
      retry := BitVec.ofNat 8 (max 1 (bits v 23 16))
      ferryWait := BitVec.ofNat 16 (max 1 (bits v 39 24)) } }

/-- A write of HW_GROUP_g. -/
def State.writeHwGroup (s : State) (g v : Nat) : State :=
  let a : BitVec 60 := BitVec.ofNat 60 v
  if s.groupRuns [0x0602, 0x0603, 0x0604] g then s.bump Evt.hwCfgReject 1
  else s.updGroup g fun x => { x with addr := a }

/-- A write of HW_PEER_MAC_i. -/
def State.writePeerMac (s : State) (i v : Nat) : State :=
  let a : BitVec 48 := BitVec.ofNat 48 (bits v 47 0)
  if (s.peer i).st ≠ Peer.idle then s.bump Evt.hwCfgReject 1
  else s.updPeer i fun x => { x with mac := a }

/-- A write of HW_PEER_CFG_i. -/
def State.writePeerCfg (s : State) (i v : Nat) (reset : Bool) : State :=
  let c : BitVec 24 := BitVec.ofNat 24 (bits v 39 16)
  let refused := (s.peer i).st != Peer.idle && c != (s.peer i).credit
  let s := if refused then s.bump Evt.hwCfgReject 1 else s
  let s := s.updPeer i fun x =>
    { x with paths := BitVec.ofNat 16 (bits v 15 0), credit := if refused then x.credit else c }
  (if reset then s.peerReset i else s).pump i

/-- A write of a Hawser register by its BAR0 offset, of the bits that the mask names. -/
def State.writeHawser (s : State) (off : Nat) (v mask : Reg) : State :=
  let m (old : Nat) : Nat := (mergeReg (BitVec.ofNat 64 old) v mask).toNat
  if off = 0x100B000 then s.writeHwCfg (m s.hwCfg)
  else if off = 0x100B008 then s.writeHwTiming (m s.hwTiming)
  else if 0x100B100 ≤ off ∧ off < 0x100B180 ∧ off % 8 = 0 then
    let g := (off - 0x100B100) / 8
    s.writeHwGroup g (m (s.group g).addr.toNat)
  else if 0x1010000 ≤ off ∧ off < 0x1020000 ∧ off % 16 = 0 then
    let i := (off - 0x1010000) / 16
    s.writePeerMac i (m (s.peer i).mac.toNat)
  else if 0x1010000 ≤ off ∧ off < 0x1020000 ∧ off % 16 = 8 then
    let i := (off - 0x1010000) / 16
    s.writePeerCfg i (m (s.peer i).cfg) (bit (v &&& mask).toNat 42)
  else s

/-- HAWSER_CONFIG_WRITE. -/
def execHawserConfigWrite (off : Nat) (v : Reg) (s : State) : Out := .next (s.writeHawser off v (BitVec.allOnes 64))

/-- A write of HW_PORT_CTL_p of the bits that the mask names. -/
def State.writePortCtl (s : State) (p : Nat) (v mask : Reg) : State :=
  let s := if bit mask.toNat 0 then (if bit v.toNat 0 then s.portEnable p else s.portDisable p) else s
  if bit (v &&& mask).toNat 2 then s.portRetrain p else s

end Sys2Proof.Machine
end

