-- ==== Sys2Proof/Machine/Mailbox.lean ====
section
/-!
DEFINITION. The mailboxes (12 R376 to R387): channels, bindings, handshake, rejections, off domains and locks.
-/

namespace Sys2Proof.Machine

/-- A channel. -/
def State.chan (s : State) (c : Nat) : Chan := tget (.reset c) s.mbx.chans c

/-- Changes a channel. -/
def State.updChan (s : State) (c : Nat) (f : Chan → Chan) : State :=
  { s with mbx := { s.mbx with chans := tupd (.reset c) s.mbx.chans c f } }

/-- A user channel (R376). -/
def isUser (c : Nat) : Bool := decide (48 ≤ c)

/-- The sender of a channel, 0 for none (R379, R386). -/
def State.mbxSender (s : State) (c : Nat) : Byte :=
  let k := s.chan c
  if isUser c then (if k.held then k.owner else 0) else k.sender

/-- The receiver of a channel, 0 for none. -/
def State.mbxReceiver (s : State) (c : Nat) : Byte :=
  let k := s.chan c
  if isUser c then (if k.held then k.peer else 0) else k.receiver

/-- The master that may acknowledge: on a FULL user channel the party its message was sent to (R387). -/
def State.mbxAcker (s : State) (c : Nat) : Byte :=
  let k := s.chan c
  if isUser c && k.full then k.ackBy else s.mbxReceiver c

/-- The power domain of a party, when it is one of PWR_DOM_CTL_x (R384). -/
def partyDom (m : Byte) : Option Nat :=
  let n := m.toNat
  if 0x20 ≤ n ∧ n < 0x30 then some (16 + (n - 0x20))
  else if 0x40 ≤ n ∧ n < 0x60 then some (4 * ((n - 0x40) / 8) + 2)
  else none

/-- A party's domain is off (R383, R384). -/
def State.partyOff (s : State) (m : Byte) : Bool :=
  if m = BitVec.ofNat 8 Master.host then !s.pwr.hostOn
  else match partyDom m with
    | none => false
    | some x => (s.env 0).isOff x

/-- A channel's buffer lies in a domain that is off (R376, R383). -/
def State.bufferOff (s : State) (c : Nat) : Bool := isUser c && !s.pwr.meshOn

/-- The report of a write from PCIe that is rejected or refused: an error-log entry and an advisory error (R382, R383). -/
def State.mbxReport (s : State) (m : Byte) (c code : Nat) : State :=
  if m = BitVec.ofNat 8 Master.host then
    let s := s.logEvent code m.toNat c m.toNat
    { s with out := .aer :: s.out }
  else s

/-- An access of an internal master that is denied, rejected or finds a domain off completes with a bus error (R377, R382, R383). -/
def State.busError (s : State) (m : Byte) : State :=
  if m = BitVec.ofNat 8 Master.host then s else { s with out := .busError m :: s.out }

/-- A write that finds a domain off. -/
def State.mbxOff (s : State) (m : Byte) (c : Nat) : State := ((s.bump Evt.mbxOff 1).mbxReport m c Log.mbxOff).busError m

/-- A write that finds its channel FULL. -/
def State.mbxReject (s : State) (m : Byte) (c : Nat) : State :=
  ((s.bump Evt.mbxRejectFull 1).mbxReport m c Log.mbxRejectFull).busError m

/-- An access that breaks R377. -/
def State.mbxDeny (s : State) (m : Byte) : State := (s.bump Evt.mbxDenied 1).busError m

/-! ### Notifications (R381) -/

/-- Delivers an event to an internal agent. -/
def State.deliver (s : State) (n : Notice) : State := { s with mbx := { s.mbx with events := n :: s.mbx.events } }

/-- Notifies an internal agent: its domain in slack is woken first, or is waited for while it powers up. -/
def State.notifyAgent (s : State) (n : Notice) : State :=
  match partyDom n.master with
  | none => s.deliver n
  | some x =>
    let wait (s : State) : State := { s with mbx := { s.mbx with waiting := s.mbx.waiting ++ [n] } }
    match (s.domain x).st with
    | .on => s.deliver n
    | .down => s.deliver n
    | .off => s
    | .up => wait s
    | .slack =>
      let woken := s.mbx.waiting.any fun y => partyDom y.master == some x
      wait (if woken then s else s.bump Evt.mbxWake 1)

/-- Notifies a party of a channel. -/
def State.notifyParty (s : State) (m : Byte) (c : Nat) (full : Bool) : State :=
  let k := s.chan c
  if m = BitVec.ofNat 8 Master.host then
    if (if full then k.irqFull else k.irqEmpty) then s.msix k.vector.toNat else s
  else if m = 0 then s
  else s.notifyAgent ⟨m, c, full⟩

/-- The notifications that waited for a domain that is on now. -/
def State.deliverWaiting (s : State) (x : Nat) : State :=
  let mine := s.mbx.waiting.filter fun n => partyDom n.master = some x
  mine.foldl State.deliver { s with mbx := { s.mbx with waiting := s.mbx.waiting.filter fun n => partyDom n.master ≠ some x } }

/-! ### The handshake (R380, R382, R383) -/

/-- A write of a message word. -/
def State.writeMsg (s : State) (m : Byte) (c w : Nat) (v mask : Reg) : State :=
  if s.bufferOff c then s.mbxOff m c
  else if m ≠ s.mbxSender c ∨ m = 0 then s.mbxDeny m
  else if (s.chan c).full then s.mbxReject m c
  else s.updChan c fun k => { k with words := k.words.set w (mergeReg (k.words.getD w 0) v mask) }

/-- The vector and interrupt enables of MBX_CTL_c; internal agents leave VECTOR as it is. -/
def Chan.config (k : Chan) (m : Byte) (v mask : Reg) : Chan :=
  let host := m == BitVec.ofNat 8 Master.host
  let vec := bits v.toNat 15 8
  { k with
    vector := if host && bit mask.toNat 8 then BitVec.ofNat 8 (if vec = 255 then 254 else vec) else k.vector
    irqFull := if bit mask.toNat 16 then bit v.toNat 16 else k.irqFull
    irqEmpty := if bit mask.toNat 17 then bit v.toNat 17 else k.irqEmpty }

/-- SEND: the message is posted. -/
def State.sendMsg (s : State) (c : Nat) : State :=
  let party := s.mbxReceiver c
  let s := s.updChan c fun k => { k with full := true, seq := k.seq + 1, ackBy := party }
  (s.bump Evt.mbxSent 1).notifyParty party c true

/-- ACK of a FULL channel. -/
def State.ackMsg (s : State) (c : Nat) : State :=
  let s := s.updChan c fun k => { k with words := List.replicate 8 0, full := false, ackBy := 0 }
  (s.bump Evt.mbxAcked 1).notifyParty (s.mbxSender c) c false

/-- A write of MBX_CTL_c of the bits that the mask names. -/
def State.writeMbxCtl (s : State) (m : Byte) (c : Nat) (v mask : Reg) : State :=
  let post := bit (v &&& mask).toNat 0
  let ackn := bit (v &&& mask).toNat 1
  let party := m ≠ 0 ∧ (m = s.mbxSender c ∨ m = s.mbxReceiver c ∨ m = s.mbxAcker c)
  if s.bufferOff c then s.mbxOff m c
  else if ¬ party ∨ (post ∧ m ≠ s.mbxSender c) ∨ (ackn ∧ m ≠ s.mbxAcker c) then s.mbxDeny m
  else if (post && s.partyOff (s.mbxReceiver c)) || (ackn && s.partyOff (s.mbxSender c)) then s.mbxOff m c
  else if post && (s.chan c).full then s.mbxReject m c
  else
    let s := s.updChan c (·.config m v mask)
    if post then s.sendMsg c else if ackn && (s.chan c).full then s.ackMsg c else s

/-! ### Reads (R377, R379, R383, R386) -/

/-- How a read of a channel's page completes. -/
inductive Completion where
  | data (v : Reg)
  | unsupported
  | abort
  | busError
deriving DecidableEq, Repr

/-- The completion that stands for an error: an internal master sees a bus error, the host what is given. -/
def errorFor (m : Byte) (host : Completion) : Completion := if m = BitVec.ofNat 8 Master.host then host else .busError

/-- A read by a master of the word at offset r of a channel's page, which holds v: only the parties read the message words and
MBX_CTL_c, any master reads MBX_LOCK_c; a read of a buffer whose domain is off counts MBX_OFF, a denied one MBX_DENIED. -/
def State.mbxRead (s : State) (m : Byte) (c r : Nat) (v : Reg) : Completion × State :=
  let party := m ≠ 0 ∧ (m = s.mbxSender c ∨ m = s.mbxReceiver c ∨ m = s.mbxAcker c)
  if s.bufferOff c then (errorFor m .abort, s.bump Evt.mbxOff 1)
  else if r = 0x48 ∨ party then (.data v, s)
  else (errorFor m (.data 0), s.bump Evt.mbxDenied 1)

/-! ### Locks (R386, R387) -/

/-- ACQUIRE. -/
def State.acquire (s : State) (m : Byte) (c : Nat) (peer : Byte) : State :=
  if s.bufferOff c then s.mbxOff m c
  else if (s.chan c).held then s.bump Evt.lockContend 1
  else if peer = m then s.bump Evt.lockRefused 1
  else s.updChan c fun k => { k with held := true, owner := m, peer := peer }

/-- RELEASE. -/
def State.unlock (s : State) (m : Byte) (c : Nat) : State :=
  let k := s.chan c
  if s.bufferOff c then s.mbxOff m c
  else if k.full || !((k.held && m == k.owner) || m == BitVec.ofNat 8 Master.harbour) then s.bump Evt.lockRefused 1
  else s.updChan c fun k => { k with held := false, owner := 0 }

/-- A host reset at a channel (R385, R387). -/
def Chan.hostReset (k : Chan) : Chan :=
  let k := { k with vector := 0, irqFull := false, irqEmpty := false }
  if k.held && k.owner == BitVec.ofNat 8 Master.host then { k with held := false, owner := 0 } else k

/-- A host reset at the mailboxes. -/
def Mbx.hostReset (b : Mbx) : Mbx := { b with chans := b.chans.map fun x => (x.1, x.2.hostReset) }

/-! ### The binding table (R378, R379) -/

/-- Loads binding entries in order, then locks the table; returns the table and the entries refused. -/
def loadBinds : List (Nat × Bind) → Tab Bind → Nat → Tab Bind × Nat
  | [], t, bad => (t, bad)
  | (e, b) :: rest, t, bad =>
    if isUser b.channel.toNat || (decide (b.channel.toNat < 16) && (b.sender == 1 || b.receiver == 1)) || b.sender == b.receiver
        || t.any fun x => x.2.channel == b.channel then
      loadBinds rest t (bad + 1)
    else loadBinds rest (tput t e b) bad

/-- The security controller loads the table and locks it. -/
def State.bindChannels (s : State) (bs : List (Nat × Bind)) : State :=
  let (t, bad) := loadBinds bs [] 0
  let s := { s with mbx := { s.mbx with binds := t, locked := true } }
  let s := t.foldl (fun s x => s.updChan x.2.channel.toNat fun k => { k with sender := x.2.sender, receiver := x.2.receiver }) s
  if bad = 0 then s else s.bump Evt.bindReject bad

/-! ### Meanings -/

/-- MBX_WORD_WRITE. -/
def execMbxWordWrite (m : Byte) (c w : Nat) (v : Reg) (s : State) : Out :=
  guarded (decide (c < 64) && decide (w < 8)) (s.writeMsg m c w v (BitVec.allOnes 64))

/-- SEND. -/
def execSend (m : Byte) (c : Nat) (v : Reg) (s : State) : Out :=
  guarded (c < 64) (s.writeMbxCtl m c (v ||| 1) (BitVec.allOnes 64))

/-- ACK. -/
def execAckMessage (m : Byte) (c : Nat) (v : Reg) (s : State) : Out :=
  guarded (c < 64) (s.writeMbxCtl m c (v ||| 2) (BitVec.allOnes 64))

/-- ACQUIRE. -/
def execAcquire (m : Byte) (c : Nat) (peer : Byte) (s : State) : Out :=
  guarded (decide (48 ≤ c) && decide (c < 64)) (s.acquire m c peer)

/-- RELEASE. -/
def execLockRelease (m : Byte) (c : Nat) (s : State) : Out := guarded (decide (48 ≤ c) && decide (c < 64)) (s.unlock m c)

end Sys2Proof.Machine
end

