-- ==== Sys2Proof/Machine/Tuner.lean ====
section
/-!
DEFINITION. The tuner and the wide re-run verdict (04 R123 to R133): SAMPLE, CHECK, commit and squash of the operations
that run ahead (R137, R138), TUNER_CTL and RUNAHEAD_CFG_n.
-/

namespace Sys2Proof.Machine

/-! ### TUNER_CTL (04 R129) -/

/-- Label of a SAMPLE's number: 1 when it samples (04 R129). -/
abbrev Lab.live : Nat := 4

/-- Sampling is enabled: ENABLE is set and does not wait for a disable to finish. -/
def Tuner.live (t : Tuner) : Bool := t.enable && !t.pending

/-- A SAMPLE that samples is still running. -/
def State.sampling (s : State) : Bool := s.ops.any fun o => opcodeOf o.desc == 0x0A01 && o.num Lab.live == 1

/-- TUNER_CTL.ACTIVE. -/
def State.tunerActive (s : State) : Bool := s.tun.live || s.sampling

/-- A pending enable takes effect when no SAMPLE runs (04 R129). -/
def State.settleTuner (s : State) : State :=
  if s.tun.pending && !s.sampling then { s with tun := { s.tun with pending := false } } else s

/-- TUNER_ENABLE: ENABLE written as 1. -/
def execTunerEnable (s : State) : Out :=
  .next { s with tun := { s.tun with enable := true, pending := !s.tun.enable && s.sampling || s.tun.pending } }

/-- TUNER_DISABLE: ENABLE written as 0; it clears PENDING. -/
def execTunerDisable (s : State) : Out :=
  .next { s with tun := { s.tun with enable := false, pending := false } }

/-- RUNAHEAD_CFG_WRITE (04 R141). -/
def execRunaheadCfgWrite (n : Nat) (v : Reg) (s : State) : Out :=
  guarded (n < 800) { s with dp :=
    { s.dp with raCfg := tupd .reset s.dp.raCfg n fun c =>
        { c with offset := v.setWidth 15, lines := (v >>> 16).setWidth 15 } }.settleCfg }

/-! ### SAMPLE (04 R123 to R127) -/

/-- Formats of A, B and D. -/
def smFmt (d : List Byte) (i : Nat) : Nat := bits (field d 57 2) (3 * i + 2) (3 * i)

/-- Rows 1 to 7 of 04 R131 for a SAMPLE, with 01 R485 between rows 6 and 7. -/
def checkSample (s : State) (e : Env) (d : List Byte) : Chk Plan := do
  let fl := field d 57 2
  Chk.row (addrTop d 16 != 0 || addrTop d 24 != 0 || addrTop d 32 != 0 || addrTop d 40 != 0 || bits fl 15 11 != 0
    || bits (field d 59 1) 7 4 != 0) Code.rsvdSet
  Chk.row (! [3, 4].contains (smFmt d 0) || ! [3, 4].contains (smFmt d 1) || decide (4 < smFmt d 2)) Code.badFormat
  Chk.row (field d 60 1 == 0 || decide (23 < field d 60 1)) Code.badShape
  Chk.row (addrField d 16 % 64 != 0 || addrField d 24 % 64 != 0 || addrField d 32 % 64 != 0 || addrField d 40 % 64 != 0)
    Code.badAlign
  serviceRow e true
  let sel := s.tun.select (bits (field d 59 1) 3 0)
  pure (Plan.one [] [(Lab.tapKey, sel.key.toNat), (Lab.tapStream, sel.stream.toNat), (Lab.tapK, sel.k),
    (Lab.live, b2n s.tun.live)])

/-- Rows 1, 3, 5 and 6 of 04 R131 for a CHECK, which reads nothing. -/
def checkCheck (d : List Byte) : Option Nat :=
  if addrTop d 16 != 0 || addrTop d 24 != 0 || addrTop d 32 != 0 || addrTop d 40 != 0 || bits (field d 48 1) 7 5 != 0
      || bits (field d 49 1) 7 4 != 0 || anySet d 62 2 then some Code.rsvdSet
  else if 4096 ≤ field d 56 2 || 4096 ≤ field d 60 2 then some Code.badTarget
  else if 31 < field d 50 1 || 31 < field d 51 1 || 31 < field d 52 1 then some Code.badShape
  else if addrField d 16 % 128 != 0 || addrField d 24 % 128 != 0 || addrField d 32 % 128 != 0 || addrField d 40 % 128 != 0
    then some Code.badAlign
  else none

/-- The dispatch checks of class 0x0A; a CHECK that dispatches has passed its own at the head (04 R130). -/
def checkTuner (s : State) (e : Env) (d : List Byte) : Chk Plan :=
  if operOf d = 1 then checkSample s e d
  else do
    Chk.row (operOf d != 2) Code.badOpcode
    pure (Plan.one [] [])

/-- The wide reference and the absolute sum of an element (04 R126). -/
def reference : List (FV × FV) → Option (FV × FV) → FV × FV
  | [], acc => acc.getD (.zero, .zero)
  | (a, b) :: rest, none => reference rest (some (f32Mul a b, f32Mul a.abs b.abs))
  | (a, b) :: rest, some (r, t) => reference rest (some (fma32 a b r, fma32 a.abs b.abs t))

/-- s × 2^-e, a subnormal result flushed to +0 (04 R126). -/
def bound (t : FV) (e : Nat) : FV :=
  match t.scale (-(e : Int)) with
  | .num g m x => if x + bitLen m ≤ -126 then .zero else .num g m x
  | v => v

/-- Disagreement and NaN mismatch of an element (04 R126). -/
def judge (y r t : FV) (e : Nat) : Bool × Bool :=
  if y.isNaN || r.isNaN then (y.isNaN != r.isNaN, y.isNaN != r.isNaN)
  else if y.isInf || r.isInf then (!FV.eq y r, false)
  else (FV.lt (bound t e) (f32Sub y r).abs, false)

/-- Counts of a SAMPLE: tiles, elements, disagreements, NaN mismatches. -/
structure Sampled where
  tiles : Nat
  elems : Nat
  disagree : Nat
  nan : Nat

/-- A's matrix: M × K, stored transposed under TRANS_A. -/
def sampleA (d : List Byte) : Mat :=
  let t := bit (field d 57 2) 9
  let f := (Fmt.ofCode (smFmt d 0)).getD .f32
  let len := if t then field d 48 3 else field d 54 3
  ⟨addrField d 16, 64 * f.linesPerRow len, f, if t then field d 54 3 else field d 48 3, len, 0⟩

/-- B's matrix: K × N, stored transposed under TRANS_B. -/
def sampleB (d : List Byte) : Mat :=
  let t := bit (field d 57 2) 10
  let f := (Fmt.ofCode (smFmt d 1)).getD .f32
  let len := if t then field d 54 3 else field d 51 3
  ⟨addrField d 24, 64 * f.linesPerRow len, f, if t then field d 51 3 else field d 54 3, len, 0⟩

/-- D's matrix: M × N. -/
def sampleD (d : List Byte) : Mat :=
  let f := (Fmt.ofCode (smFmt d 2)).getD .f32
  let n := field d 51 3
  let p := field d 61 3
  ⟨addrField d 32, if p = 0 then 64 * f.linesPerRow n else 64 * p, f, field d 48 3, n, addrField d 40⟩

/-- The comparison of the sampled rows (04 R126, R127). Nothing is read when no row group is sampled. -/
def sampleWork (e : Env) (a : Acc) (o : Op) : M Sampled := do
  let d := o.desc
  let sel := tapSelect o.nums
  let m := field d 48 3
  let n := field d 51 3
  let k := field d 54 3
  let groups := (List.range (ceilDiv m 16)).filter sel.takes
  if groups.isEmpty then pure ⟨0, 0, 0, 0⟩
  else do
    let want (r : Nat) : Bool := groups.contains (r / 16)
    let ta := bit (field d 57 2) 9
    let tb := bit (field d 57 2) 10
    let ma := sampleA d
    let per := ma.fmt.perLine
    let xa ← readMat e a ma fun r l =>
      if ta then (List.range (min per (m - l * per))).any fun p => want (l * per + p) else want r
    let xb ← readMat e a (sampleB d) fun _ _ => true
    let xd ← readMat e a (sampleD d) fun r _ => want r
    let (ev, rc) ← matEvents e a xd
    M.upd fun dp => ev.foldl (fun dp x => dp.bump x.1 x.2) dp
    writeAll e rc
    let rows := (List.range m).filter want
    let res := rows.flatMap fun r => (List.range n).map fun c =>
      let (ref, t) := reference ((List.range k).map fun i => (widen32 (xa.at_ ta r i), widen32 (xb.at_ tb i c))) none
      judge (widen32 (xd.at_ false r c)) ref t (field d 60 1)
    pure ⟨groups.length * ceilDiv n 128, res.length, (res.filter (·.1)).length, (res.filter (·.2)).length⟩

/-- SAMPLE (04 R124, R127, R129). -/
def execSample (id : Nat) (s : State) : Out :=
  .next <| match s.work id 0 0x0A01 with
    | none => s
    | some (o, _) =>
      if o.num Lab.live = 0 then (s.bump Evt.sampleSkipped 1).finish id 0 0 0
      else
        let slot := bits (field o.desc 59 1) 3 0
        s.perform o (sampleWork (s.envOf o) o.acc o) (fun d => d) fun s r =>
          ((((s.bump (Evt.tuner slot 0) r.tiles).bump (Evt.tuner slot 1) r.elems).bump (Evt.tuner slot 2) r.disagree).bump
            (Evt.tuner slot 3) r.nan).finish id 0 0 0

/-! ### Commit and squash (04 R137, R138) -/

/-- Commits one instance of an operation that ran ahead: its staged effects apply; a held one signals (04 R137, R140). A
staged fault is reported as met at the commit (DEDUCED, log entry 67). -/
def State.commitInst (s : State) (o : Op) (i : Inst) : State :=
  match i.phase with
  | .running => s
  | .stalled =>
    (s.applyEffects o i.eff).updOp o.id fun o => o.updInst i.n fun i =>
      { i with eff := { Effects.none with loss := i.eff.loss } }
  | .done => ((s.applyEffects o i.eff).applyLoss i.eff).complete o { i with at_ := s.tide }

/-- Commits an operation: what of it still runs continues as ordinary work. -/
def State.commitOp (s : State) (o : Op) : State :=
  o.insts.foldl (fun s i => s.commitInst o i) (s.updOp o.id fun o => { o with ahead := none })

/-- Commits every operation under a slot, in dispatch order (04 R137). -/
def State.commitSlot (s : State) (v : Nat) : State :=
  let under := s.ops.filter fun o => o.ahead = some v
  (under.foldl State.commitOp { s with dp := s.dp.unmark v }).endDrains

/-- Puts a squashed descriptor back in its place: oldest first by its distance below HEAD (04 R138). -/
def redoInsert (head : Word) (r : Redo) : List Redo → List Redo
  | [] => [r]
  | x :: xs =>
    if (head - x.index).toNat < (head - r.index).toNat then r :: x :: xs else x :: redoInsert head r xs

/-- Squashes an operation (04 R138); one from before a host reset is dropped (11 R350). -/
def State.squashOp (s : State) (o : Op) : State :=
  let s := { s with ops := s.ops.filter fun p => p.id ≠ o.id }
  let s := s.bump Evt.squashedOps 1
  if o.orphan then s.discard
  else (s.updQueue o.q fun k => { k with redo := redoInsert k.head ⟨o.index, o.desc⟩ k.redo }).settle o.q

/-- Squashes every operation under a slot and restores the logged lines (04 R138). -/
def State.squashSlot (s : State) (v : Nat) : State :=
  let under := s.ops.filter fun o => o.ahead = some v
  (under.foldl State.squashOp { s with dp := s.dp.rollBack v }).endDrains

/-! ### CHECK (04 R130 to R133) -/

/-- Counts of the records: elements converted, clipped and saturated, flushed, bollard overflow; whether one is bad. -/
structure RecordSums where
  el : Nat
  cl : Nat
  fl : Nat
  bo : Nat
  bad : Bool

/-- A line read without waiting for marks (04 R132). -/
def readOpen (e : Env) (a : Acc) (va : Nat) : M LineIn := do
  let x ← translate e a false va
  fun io => let r := io.d.readOver e (x / 64); (.ok r.1, { io with d := r.2 })

/-- Adds one record's counts (04 R132; the layout of R106). -/
def addRecord (e : Env) (a : Acc) (t : RecordSums) (va : Nat) : M RecordSums :=
  if va = 0 then pure t
  else do
    let l0 ← readOpen e a va
    let l1 ← readOpen e a (va + 64)
    if l0.poison || l1.poison then pure { t with bad := true }
    else
      let c (i : Nat) : Nat := field (l0.payload ++ l1.payload) (8 * i) 6
      pure { t with el := t.el + c 9, cl := t.cl + c 2 + c 3, fl := t.fl + c 1, bo := t.bo + c 7 }

/-- Every record of a CHECK. -/
def recordSums (e : Env) (a : Acc) (d : List Byte) : M RecordSums :=
  [16, 24, 32, 40].foldlM (fun t off => addRecord e a t (addrField d off)) ⟨0, 0, 0, 0, false⟩

/-- why (04 R132). -/
def reasons (d : List Byte) (te td : Nat) (t : RecordSums) : Nat :=
  let jd := field d 50 1
  let jc := field d 51 1
  let jf := field d 52 1
  let thr := field d 53 3
  b2n (jd != 0 && te != 0 && decide (te < td * 2 ^ jd)) + 2 * b2n (jc != 0 && t.el != 0 && decide (t.el < t.cl * 2 ^ jc))
    + 4 * b2n (jf != 0 && t.el != 0 && decide (t.el < t.fl * 2 ^ jf)) + 8 * b2n (thr != 0 && decide (thr ≤ t.bo))

/-- A signal that the operation makes beside its own: after a host reset it is discarded (11 R350). -/
def State.extraSignal (s : State) (o : Op) (n inc : Nat) : State := if o.orphan then s.discard else s.signal n inc 0

/-- The decision (04 R133): commit and gate increment, or squash and rerun increment; then LAST, REASONS and IDLE. -/
def State.giveVerdict (s : State) (o : Op) (rerun : Bool) (why : Nat) : State :=
  let d := o.desc
  let v := bits (field d 49 1) 3 0
  let s :=
    if rerun then ((s.squashSlot v).extraSignal o (field d 60 2) 1).bump Evt.verdictRerun 1
    else ((s.commitSlot v).extraSignal o (field d 56 2) (field d 58 2)).bump Evt.verdictPass 1
  { s with tun := { s.tun with verdicts := tupd .reset s.tun.verdicts v fun x =>
      { x with pending := false, last := rerun, reasons := BitVec.ofNat 4 why } } }

/-- Clears a slot's four counters (04 R132). -/
def Data.clearTuner (d : Data) (slot : Nat) : Data :=
  { d with evts := (List.range 4).foldl (fun t i => tput t (Evt.tuner slot i) 0) d.evts }

/-- CHECK (04 R132, R133); what it signals and squashes may begin or end a slip (06 R177). -/
def execCheck (id : Nat) (s : State) : Out :=
  .next <| match s.work id 0 0x0A02 with
    | none => s
    | some (o, _) =>
      let d := o.desc
      match s.run (recordSums (s.envOf o) o.acc d) with
      | none => s
      | some (.error f, dp) => (({ s with dp := dp.xlateFault o.q f }).giveVerdict o true 0).finish id 0 Code.xlateFault f.2 |>.watchSlip
      | some (.ok t, dp) =>
        let s := { s with dp := dp }
        let slot := bits (field d 48 1) 3 0
        let free := bit (field d 48 1) 4
        let te := if free then 0 else (tget 0 s.dp.evts (Evt.tuner slot 1)).toNat
        let td := if free then 0 else (tget 0 s.dp.evts (Evt.tuner slot 2)).toNat
        let why := reasons d te td t
        let s := if free then s else { s with dp := s.dp.clearTuner slot }
        (s.giveVerdict o (why != 0 || t.bad) why).finish id 0 0 0 |>.watchSlip

end Sys2Proof.Machine
end

