-- ==== Sys2Proof/Machine/Regs.lean ====
section
/-!
DEFINITION. The registers of BAR0 as their words read (the register maps of chapters 03 to 14): one function for each
register or family of registers.
-/

namespace Sys2Proof.Machine

/-- Places a field in a word. -/
def at_ (lo v : Nat) : Nat := v * 2 ^ lo

/-- A flag in a word. -/
def flag (i : Nat) (b : Bool) : Nat := b2n b * 2 ^ i

/-- A word of some bits. -/
def bitsWord (n : Nat) (f : Nat → Bool) : Nat := (List.range n).foldl (fun m i => m + flag i (f i)) 0

/-! ### Host block and queues (11) -/

/-- CNT_n. -/
def Cnt.word (c : Cnt) : Nat := c.value.toNat + at_ 32 c.code.toNat + flag 48 c.faulted

/-- Q_BASE_q. -/
def Queue.baseWord (k : Queue) : Nat := at_ 12 k.base.toNat

/-- Q_CFG_q. -/
def Queue.cfgWord (k : Queue) : Nat :=
  flag 0 k.enable + flag 1 k.stopOnFault + at_ 8 k.sizeLog2.toNat + at_ 16 k.priority.toNat + at_ 24 k.vector.toNat
    + at_ 32 k.state.toNat

/-- Q_PTRS_q. -/
def Queue.ptrsWord (k : Queue) : Nat := k.head.toNat + at_ 32 k.tail.toNat

/-- Q_HEAD_WB_q. -/
def Queue.wbWord (k : Queue) : Nat := at_ 2 k.headWb.toNat

/-- FAULT_LOG_BASE. -/
def Hst.baseWord (h : Hst) : Nat := at_ 12 h.logBase.toNat

/-- FAULT_LOG_CFG. -/
def Hst.cfgWord (h : Hst) : Nat := h.logSizeLog2.toNat + flag 8 h.logEnable + at_ 16 h.logVector.toNat

/-- FAULT_LOG_PTRS. -/
def Hst.ptrsWord (h : Hst) : Nat := h.prod.toNat + at_ 32 h.cons.toNat

/-- INT_CAUSE. -/
def Hst.causeWord (h : Hst) : Nat := flag 0 h.causeRecord + flag 1 h.causeStopped + flag 2 h.causeLost

/-- MIRROR_SEL. -/
def Hst.selWord (h : Hst) : Nat := h.mirrorIndex.toNat + at_ 16 h.mirrorSub.toNat + at_ 24 h.mirrorChunk.toNat

/-! ### Fabrics (03) -/

/-- FAB_STATUS of a fabric. -/
def State.fabStatus (s : State) (bass : Bool) : Nat :=
  let f := s.fabric bass
  f.courses.toNat + flag 3 f.drain.isSome + at_ 8 (bitsWord 16 fun i => (s.busyCourses bass).contains i)
    + at_ 24 (bitsWord 16 fun i => f.tiles.any fun t => t.1 == i) + at_ 40 f.faulted.toNat

/-- An event counter. -/
def State.evtWord (s : State) (off : Nat) : Nat := (tget 0 s.dp.evts off).toNat

/-! ### Tuner, verdicts and run-ahead (04), random (05) -/

/-- TUNER_CTL. -/
def State.tunerCtl (s : State) : Nat := flag 0 s.tun.enable + flag 1 s.tunerActive + flag 2 s.tun.pending

/-- A tuner slot. -/
def State.tunerSlot (s : State) (i : Nat) : TunerSlot := tget .reset s.tun.slots i

/-- TUNER_SEL_s. -/
def TunerSlot.selWord (x : TunerSlot) : Nat := x.stream.toNat + at_ 32 x.k.toNat

/-- VERDICT_v. -/
def State.verdictWord (s : State) (v : Nat) : Nat :=
  let x := tget .reset s.tun.verdicts v
  flag 0 x.pending + flag 2 x.last + at_ 4 x.reasons.toNat + at_ 12 x.gate.toNat
    + at_ 32 (s.ops.filter fun o => o.ahead = some v).length

/-- RUNAHEAD_CFG_n. -/
def RaCfg.word (c : RaCfg) : Nat := c.offset.toNat + at_ 16 c.lines.toNat + at_ 32 c.used.toNat

/-- An operation of one of some opcodes whose work is not done. -/
def State.runs (s : State) (codes : List Nat) : Bool :=
  s.ops.any fun o => codes.contains (opcodeOf o.desc)
    && o.insts.any fun i => match i.phase with | .done => false | .running => true | .stalled => true

/-- RNG_STATUS. -/
def State.rngStatus (s : State) : Nat :=
  flag 0 s.rng.seeded + flag 1 s.rng.entOk + flag 2 s.rng.reseeded + flag 3 (s.runs [0x0702, 0x0703, 0x0704])

/-! ### Stow and loss (06) -/

/-- The five registers of a lane. -/
def Lane.words (l : Lane) : List Nat :=
  [l.hdrBase.toNat, l.dataBase.toNat, l.hdrCap.toNat + at_ 32 l.dataLines.toNat, l.reserve.toNat,
    l.depth.toNat + at_ 32 l.dataTop.toNat]

/-- LOSS_SUM_s. -/
def Loss.sumWord (l : Loss) : Nat := l.sum.toNat + at_ 32 l.comp.toNat

/-- A loss slot. -/
def State.lossSlot (s : State) (i : Nat) : Loss := tget .reset s.los i

/-! ### Memory (08) -/

/-- TX_STATE. -/
def State.txState (s : State) : Nat := s.dp.txGen.toNat + at_ 16 s.minPin.toNat + flag 32 (s.runs [0x0801])

/-- XF_INFO. -/
def Data.xfWord (d : Data) : Nat := d.xfAddr.toNat + at_ 60 d.xfKind.toNat + flag 63 d.xfValid

/-- MEM_ECC_CTL. -/
def Data.eccWord (d : Data) : Nat := flag 0 d.correct + flag 1 d.scrubEn + at_ 16 d.scrubHours.toNat

/-- The state of a stack in STACK_STATE: a stack that is shutting down is treated as off and one that powers up as in slack
(14 R433; log entry 12). -/
def State.stackCode (s : State) (x : Nat) : Nat :=
  if s.dp.failed.contains x then 3
  else match (s.domain (16 + x)).st with
    | .on => 0
    | .slack => 1
    | .up => 1
    | .off => 2
    | .down => 2

/-- STACK_STATE. -/
def State.stackState (s : State) : Nat := (List.range 16).foldl (fun m x => m + at_ (2 * x) (s.stackCode x)) 0

/-! ### Sequence block (09) -/

/-- ATTN_BERTH. -/
def Seq.berthWord (q : Seq) : Nat := q.attnOffset.toNat + at_ 32 q.attnSize.toNat

/-- The five registers of a pool. -/
def PoolRegs.words (p : PoolRegs) : List Nat :=
  [p.base.toNat, p.size.toNat, p.low.toNat + at_ 32 p.high.toNat, p.ledger.toNat, p.slice.toNat]

/-- POOL_STAT_A_s. -/
def State.statA (s : State) (x : Nat) : Nat :=
  s.countPages x Page.free + at_ 21 (s.countPages x Page.retiring) + at_ 42 (s.countPages x Page.kv)

/-- POOL_STAT_B_s. -/
def State.statB (s : State) (x : Nat) : Nat :=
  s.countPages x Page.table + at_ 21 (s.countPages x Page.reserved) + at_ 42 (s.ctxsAt x).length

/-! ### Hawser (10), mailboxes (12), power (14) -/

/-- The number of a port state. -/
def PortState.code : PortState → Nat
  | .off => 0
  | .training => 1
  | .up => 2
  | .drain => 3
  | .down => 4

/-- HW_PORT_CTL_p. -/
def Port.ctlWord (p : Port) : Nat := flag 0 p.enable + flag 1 p.pending

/-- HW_PORT_STATUS_p. -/
def Port.statusWord (p : Port) : Nat := p.st.code + flag 3 p.degraded + at_ 4 p.lanes.toNat

/-- MBX_CTL_c. -/
def State.mbxCtl (s : State) (c : Nat) : Nat :=
  let k := s.chan c
  flag 2 k.full + at_ 8 k.vector.toNat + flag 16 k.irqFull + flag 17 k.irqEmpty + at_ 24 (s.mbxSender c).toNat
    + at_ 32 (s.mbxReceiver c).toNat + at_ 48 k.seq.toNat

/-- MBX_LOCK_c. -/
def Chan.lockWord (k : Chan) : Nat := flag 2 k.held + at_ 8 k.owner.toNat + at_ 16 k.peer.toNat

/-- MBX_BIND_e. -/
def State.bindWord (s : State) (e : Nat) : Nat :=
  match s.mbx.binds.find? fun b => b.1 == e with
  | none => 0
  | some (_, b) => b.channel.toNat + flag 7 true + at_ 8 b.sender.toNat + at_ 16 b.receiver.toNat

/-- The number of a domain's state in PWR_DOM_CTL_x. -/
def DomState.code : DomState → Nat
  | .on => 0
  | .slack => 1
  | .off => 2
  | .down => 3
  | .up => 4

/-- PWR_DOM_CTL_x. -/
def Domain.word (d : Domain) : Nat := d.req.toNat + at_ 8 d.st.code + flag 12 d.pending + at_ 13 d.pendReq.toNat

/-- A compute die's governor. -/
def State.die (s : State) (d : Nat) : Die := tget .reset s.pwr.dies d

/-- GOV_STATUS. -/
def State.govStatus (s : State) : Nat :=
  (List.range 4).foldl (fun m d => m + at_ (8 * d) (s.die d).k.toNat + at_ (32 + 4 * d) (s.die d).point.toNat) 0
    + at_ 48 s.pwr.limit.toNat + flag 53 (s.pwr.armed || s.pwr.burst) + flag 54 s.pwr.nvInhibit

end Sys2Proof.Machine
end

