-- ==== Sys2Proof/Machine/Context.lean ====
section
/-!
DEFINITION. Class 0x0F (11 R368 to R373): NOP, NOTIFY, CTX_SAVE and CTX_RESTORE.
-/

namespace Sys2Proof.Machine

/-! ### Dispatch checks (R370) -/

/-- Row 1. -/
def controlReserved (d : List Byte) : Bool :=
  match operOf d with
  | 1 => anySet d 16 48
  | 2 => anySet d 32 32
  | 3 => addrTop d 16 != 0 || bits (field d 24 1) 7 2 != 0 || anySet d 25 39
  | 4 => addrTop d 16 != 0 || addrTop d 24 != 0 || anySet d 32 32
  | _ => false

/-- Some verdict slot is PENDING. -/
def State.anyPending (s : State) : Bool := s.tun.verdicts.any fun v => v.2.pending

/-- Label of the header of a CTX_RESTORE image. -/
abbrev Lab.ctxHeader : Nat := 1

/-- The dispatch checks of class 0x0F. -/
def checkControl (s : State) (q : Nat) (e : Env) (a : Acc) (d : List Byte) : Chk Plan := do
  let o := operOf d
  Chk.row (controlReserved d) Code.rsvdSet
  Chk.row (o == 0 || decide (4 < o)) Code.badOpcode
  Chk.row ((o == 3 || o == 4) && s.anyPending) Code.badTarget
  Chk.row (((o == 3 || o == 4) && addrField d 16 % 64 != 0) || (o == 2 && field d 16 8 % 8 != 0)
    || (o == 4 && addrField d 24 % 8 != 0)) Code.badAlign
  let h ← if o = 4 then Chk.record q e a (addrField d 16) 64 else pure []
  Chk.row (o == 4 && field h 0 2 != 1) Code.badFormat
  pure (Plan.one [(Lab.ctxHeader, h)] [])

/-! ### NOP and NOTIFY -/

/-- NOP waits and then signals. -/
def execNop (id : Nat) (s : State) : Out :=
  .next <| match s.work id 0 0x0F01 with
    | none => s
    | some _ => s.finish id 0 0 0

/-- NOTIFY: one posted write of 8 bytes (R368, R370; 16 R462). -/
def execNotify (id : Nat) (s : State) : Out :=
  .next <| match s.work id 0 0x0F02 with
    | none => s
    | some (o, _) =>
      match s.hostGo with
      | .waits => s
      | .refused => s.finish id 0 Code.hostAbort 0
      | .goes => (s.postFor o (field o.desc 16 8) (slice o.desc 24 8)).finish id 0 0 0

/-! ### The context image (R371) -/

/-- 8-byte words, filled up with zeros to a number of bytes. -/
def words8 (n : Nat) (ws : List Nat) : List Byte := slice (ws.flatMap (natLE 8)) 0 n

/-- The bytes of the sections that every image has. -/
def State.imageBase (s : State) (flags : Nat) : List Byte :=
  slice (natLE 2 1 ++ [BitVec.ofNat 8 flags, 0] ++ natLE 2 s.present ++ zeros 2 ++ natLE 8 s.tide.toNat) 0 64
    ++ ((List.range 4096).flatMap fun n => natLE 8 (s.counter n).word)
    ++ ((List.range 64).flatMap fun q =>
      let k := s.queue q
      words8 64 [k.baseWord, k.cfgWord, k.ptrsWord, k.wbWord])
    ++ ((List.range 16).flatMap fun i => words8 32 [(s.lossSlot i).sumWord, (s.lossSlot i).count.toNat])
    ++ ((List.range 16).flatMap fun i =>
      let x := s.tunerSlot i
      natLE 16 x.key.toNat ++ words8 48 (x.selWord :: (List.range 4).map fun j => s.evtWord (Evt.tuner i j)))
    ++ words8 512 [s.dp.rootWritten.toNat, s.txState, s.dp.eccWord, s.seq.layoutBase.toNat, s.seq.berthWord, s.tunerCtl,
      s.stw.bassQueues.toNat]
    ++ ((List.range 16).flatMap fun l => words8 64 (s.lane l).words)
    ++ ((List.range 800).flatMap fun n => natLE 8 (s.dp.ra n).word)
    ++ ((List.range 16).flatMap fun x => words8 64 (s.pool x).words)

/-- The SEQ section. -/
def State.imageSeq (s : State) : List Byte :=
  slice (natLE 16 s.seq.key.toNat) 0 64 ++ (List.range (2 ^ 18)).flatMap fun id => ctxRecord (s.ctx id)

/-- The whole image. -/
def State.contextImage (s : State) (flags : Nat) : List Byte :=
  s.imageBase flags ++ (if bit flags 1 then s.freeImage else []) ++ (if bit flags 0 then s.imageSeq else [])

/-- CTX_SAVE. -/
def execCtxSave (id : Nat) (s : State) : Out :=
  .next <| match s.work id 0 0x0F03 with
    | none => s
    | some (o, _) =>
      let e := s.envOf o
      s.perform o (do
          let ws ← putBytes e o.acc (addrField o.desc 16) (s.contextImage (bits (field o.desc 24 1) 1 0))
          writeAll e ws) (fun d => d) fun s _ => s.finish id 0 0 0

/-! ### Loading an image (R372, R373) -/

/-- Word i of 8 bytes at an offset. -/
def word8 (img : List Byte) (off i : Nat) : Nat := field img (off + 8 * i) 8

/-- A completion counter from its word. -/
def Cnt.ofWord (w : Nat) : Cnt :=
  ⟨BitVec.ofNat 32 (bits w 31 0), BitVec.ofNat 16 (bits w 47 32), bit w 48⟩

/-- A queue from its four words: ENABLE clear, STATE 0. -/
def Queue.ofWords (base cfg ptrs wb : Nat) : Queue :=
  { Queue.reset with
    base := BitVec.ofNat 52 (bits base 63 12), stopOnFault := bit cfg 1
    sizeLog2 := BitVec.ofNat 5 (clampN 4 20 (bits cfg 12 8)), priority := BitVec.ofNat 2 (bits cfg 17 16)
    vector := BitVec.ofNat 8 (bits cfg 31 24), head := BitVec.ofNat 32 (bits ptrs 31 0)
    tail := BitVec.ofNat 32 (bits ptrs 63 32), headWb := BitVec.ofNat 62 (bits wb 63 2) }

/-- A lane from its five words. -/
def Lane.ofWords (l : Lane) (w : Nat → Nat) : Lane :=
  { l with
    hdrBase := BitVec.ofNat 60 (bits (w 0) 59 0), dataBase := BitVec.ofNat 60 (bits (w 1) 59 0)
    hdrCap := clampCap (BitVec.ofNat 64 (w 2)), dataLines := BitVec.ofNat 32 (bits (w 2) 63 32)
    reserve := BitVec.ofNat 32 (bits (w 3) 31 0), depth := BitVec.ofNat 17 (bits (w 4) 16 0)
    dataTop := BitVec.ofNat 32 (bits (w 4) 63 32) }

/-- Pool registers from their five words. -/
def PoolRegs.ofWords (w : Nat → Nat) : PoolRegs :=
  { base := BitVec.ofNat 60 (bits (w 0) 59 0), size := BitVec.ofNat 21 (min (bits (w 1) 20 0) (2 ^ 20))
    low := BitVec.ofNat 21 (bits (w 2) 20 0), high := BitVec.ofNat 21 (bits (w 2) 52 32)
    ledger := BitVec.ofNat 60 (bits (w 3) 59 0), slice := BitVec.ofNat 60 (bits (w 4) 59 0) }

/-- A context from its record. -/
def Ctx.ofRecord (r : List Byte) : Option Ctx :=
  if field r 0 1 ≠ 1 then none
  else some
    { recompute := bit (field r 1 1) 0, dropOk := bit (field r 1 1) 1, layout := BitVec.ofNat 6 (bits (field r 2 1) 5 0)
      prio := BitVec.ofNat 2 (bits (field r 2 1) 7 6), ns := BitVec.ofNat 16 (field r 4 2)
      reserved := BitVec.ofNat 32 (field r 8 4), length := BitVec.ofNat 48 (field r 12 6), fill := BitVec.ofNat 48 (field r 18 6)
      retained := BitVec.ofNat 48 (field r 24 6), budget := BitVec.ofNat 48 (field r 30 6), protect := BitVec.ofNat 32 (field r 36 4)
      sink := BitVec.ofNat 32 (field r 40 4), decay := BitVec.ofNat 32 (field r 44 4), mapped := BitVec.ofNat 32 (field r 48 4)
      root := BitVec.ofNat 60 (field r 56 8) }

/-- The value that TUNER_SEL.K stores (04 TUNER_SEL_s). -/
def selK (v : Nat) : BitVec 5 := BitVec.ofNat 5 (clampN 6 20 v)

/-- TUNER_CTL written. -/
def State.writeTunerCtl (s : State) (on : Bool) : State :=
  if on then { s with tun := { s.tun with enable := true, pending := !s.tun.enable && s.sampling || s.tun.pending } }
  else { s with tun := { s.tun with enable := false, pending := false } }

/-- MEM_ECC_CTL written: SCRUB_HOURS 0 is stored as 1. -/
def Data.writeEcc (d : Data) (v : Nat) : Data :=
  { d with correct := bit v 0, scrubEn := bit v 1, scrubHours := BitVec.ofNat 8 (max 1 (bits v 23 16)) }

/-- RUNAHEAD_CFG_n written. -/
def Data.writeRa (d : Data) (n v : Nat) : Data :=
  { d with raCfg := tupd .reset d.raCfg n fun c =>
      { c with offset := BitVec.ofNat 15 (bits v 14 0), lines := BitVec.ofNat 15 (bits v 30 16) } }.settleCfg

/-- ATTN_BERTH written: SIZE above 2,048 is stored as 2,048. -/
def Seq.writeBerth (q : Seq) (v : Nat) : Seq :=
  { q with attnOffset := BitVec.ofNat 21 (bits v 20 0), attnSize := BitVec.ofNat 12 (min 2048 (bits v 43 32)) }

/-- HEAD of a queue has changed: it is written back when an address is set, now or when the function may. -/
def State.headMoved (s : State) (q : Nat) : State :=
  let k := s.queue q
  if k.headWb = 0 then s
  else if s.mayIssue then (s.post (4 * k.headWb.toNat) (natLE 4 k.head.toNat)).updQueue q fun k => { k with wbDue := false }
  else s.updQueue q fun k => { k with wbDue := true }

/-- Counters, queues, loss slots and tuner slots. -/
def State.loadHost (s : State) (q : Nat) (img : List Byte) : State :=
  { s with
    cnt := (List.range 4096).map fun n => (n, Cnt.ofWord (word8 img 0x40 n))
    que := (List.range 64).map fun k => (k,
      if k = q then s.queue k
      else
        let w := word8 img (0x8040 + 64 * k)
        Queue.ofWords (w 0) (w 1) (w 2) (w 3))
    los := (List.range 16).map fun i =>
      let w := word8 img (0x9040 + 32 * i)
      (i, ⟨BitVec.ofNat 32 (bits (w 0) 31 0), BitVec.ofNat 32 (bits (w 0) 63 32), BitVec.ofNat 64 (w 1)⟩)
    tun := { s.tun with slots := (List.range 16).map fun i =>
      let o := 0x9240 + 64 * i
      let w := word8 img (o + 16) 0
      (i, ⟨BitVec.ofNat 128 (field img o 16), BitVec.ofNat 32 (bits w 31 0), selK (bits w 36 32)⟩) }
    dp := { s.dp with evts := (List.range 64).foldl (fun t j =>
      tput t (Evt.tuner (j / 4) (j % 4)) (BitVec.ofNat 48 (word8 img (0x9240 + 64 * (j / 4) + 24) (j % 4)))) s.dp.evts } }

/-- The section of single registers. TX_GEN loads from TX_STATE. -/
def State.loadSingles (s : State) (img : List Byte) : State :=
  let w := word8 img 0x9640
  let s := { s with
    dp := { s.dp with rootWritten := BitVec.ofNat 60 (bits (w 0) 59 0), txGen := BitVec.ofNat 16 (bits (w 1) 15 0) }.writeEcc (w 2)
    seq := { s.seq with layoutBase := BitVec.ofNat 60 (bits (w 3) 59 0) }.writeBerth (w 4)
    stw := { s.stw with bassQueues := BitVec.ofNat 64 (w 6) } }
  s.writeTunerCtl (bit (w 5) 0)

/-- Lanes, run-ahead configurations and pools; a configuration of an absent cluster is dropped. -/
def State.loadBlocks (s : State) (img : List Byte) : State :=
  { s with
    stw := { s.stw with lanes := (List.range 16).map fun l => (l, (s.lane l).ofWords (word8 img (0x9840 + 64 * l))) }
    dp := ((List.range 800).filter fun n => !s.absent n).foldl (fun d n => d.writeRa n (word8 img 0x9C40 n)) s.dp
    seq := { s.seq with pools := (List.range 16).map fun x => (x, PoolRegs.ofWords (word8 img (0xB540 + 64 * x))) } }

/-- The table slots that a context's window occupies: root table, level-1 and level-0 tables. -/
def State.ctxSlots (s : State) (c : Ctx) : List (Nat × Nat) :=
  (c.table, 32) :: (List.range 1024).flatMap fun i2 =>
    let e2 := s.entry c.table i2
    if !bit e2 0 then []
    else (entryByte e2, 16) :: (List.range 512).flatMap fun i1 =>
      let e1 := s.entry (entryByte e2) i1
      if bit e1 0 then [(entryByte e1, 1)] else []

/-- Each base die finds the slots in use of its TABLE pages anew. -/
def State.rebuildSlots (s : State) : State :=
  let runs := s.seq.ctxs.flatMap fun c => s.ctxSlots c.2
  runs.foldl (fun s r =>
    match s.pageAt r.1 with
    | none => s
    | some (x, p) =>
      let i := (r.1 - s.pageByte x p) / 256
      s.setSlots x p ((List.range r.2).map (i + ·) ++ s.slotsOf x p)) { s with seq := { s.seq with slotUse := [] } }

/-- The SEQ section. -/
def State.loadSeq (s : State) (img : List Byte) (off : Nat) : State :=
  { s with seq := { s.seq with
    key := BitVec.ofNat 128 (field img off 16)
    ctxs := (List.range (2 ^ 18)).filterMap fun id => (Ctx.ofRecord (slice img (off + 64 + 64 * id) 64)).map fun c => (id, c) } }

/-- Where the SEQ section of an image begins. -/
def seqOffset (flags : Nat) : Nat := 0xB940 + if bit flags 1 then 852032 else 0

/-- Bytes of an image. -/
def imageBytes (flags : Nat) : Nat := seqOffset flags + if bit flags 0 then 64 + 2 ^ 24 else 0

/-- The status word (R373). RESEEDED says what the FREE section's own count makes R154 do. -/
def State.restoreStatus (s : State) (h free : List Byte) : List Byte :=
  let flags := field h 2 1
  let there := field h 4 2
  let dropped := ((List.range 800).filter s.absent).length
  let reduced := there != s.present
  [BitVec.ofNat 8 (b2n reduced + 2 * b2n (bit flags 1 && field free 2 2 != s.present) + 4 * b2n (bit flags 0)), 0] ++ natLE 2 there
    ++ natLE 2 s.present ++ natLE 2 dropped

/-- HEAD of the queues that an image loads has changed: it is written back (R356). -/
def State.headsLoaded (s old : State) : State :=
  (List.range 64).foldl (fun s k => if (s.queue k).head = (old.queue k).head then s else s.headMoved k) s

/-- Every section of an image is loaded. -/
def State.loadContext (s : State) (q : Nat) (h img : List Byte) : State :=
  let flags := field h 2 1
  let s := ((((s.loadHost q img).headsLoaded s).loadSingles img).loadBlocks img)
  let s := if bit flags 1 then s.restoreImage (img.drop 0xB940) else s
  let s := if bit flags 0 then s.loadSeq img (seqOffset flags) else s
  s.rebuildSlots

/-- CTX_RESTORE: a translation fault on the image or on the status address loads no section (log entry 28). A FREE section
that needs seeds waits for them. The header line, read at dispatch, is not read again (R484). -/
def execCtxRestore (id : Nat) (s : State) : Out :=
  .next <| match s.work id 0 0x0F04 with
    | none => s
    | some (o, _) =>
      let e := s.envOf o
      let h := o.record Lab.ctxHeader
      let flags := field h 2 1
      let st := addrField o.desc 24
      match s.run (do
          let rest ← openRead e o.acc (addrField o.desc 16 + 64) (imageBytes flags / 64 - 1)
          if st = 0 then pure () else do
            let ws ← putBytes e o.acc st (s.restoreStatus h ((h ++ rest).drop 0xB940))
            writeAll e ws
          pure (h ++ rest)) with
      | none => s
      | some (.error f, d) => ({ s with dp := d.xlateFault o.q f }).finish id 0 Code.xlateFault f.2
      | some (.ok img, d) =>
        if bit flags 1 && s.restoreNeeds (img.drop 0xB940) && !s.rng.entOk then s
        else (({ s with dp := d }).loadContext o.q h img).finish id 0 0 0

end Sys2Proof.Machine
end

