-- ==== Sys2Proof/Machine/Dispatcher.lean ====
section
/-!
DEFINITION. The queues and the dispatcher (11 R354 to R363): doorbells, fetch, header checks, dispatch as ordinary work and
running ahead (04 R134), GATE skipping (06 R173), CHECK arming (04 R133), completion signals, counters.
-/

namespace Sys2Proof.Machine

/-! ### HEAD (R355, R356) -/

/-- The host block works on its queues: its domain is on and no orderly shutdown has begun (14 R416). -/
def State.hostWorks (s : State) : Bool := s.pwr.shut.isNone && s.pwr.hostOn

/-- HEAD moves on by one. -/
def State.advance (s : State) (q : Nat) : State :=
  (s.updQueue q fun k =>
    { k with head := k.head + 1, fetched := tdel k.fetched k.head.toNat, checked := false, armed := none }).headMoved q

/-! ### Doorbells and fetch -/

/-- R354. -/
def Queue.accepts (k : Queue) (t : Word) : Bool :=
  decide ((t - k.head).toNat ≤ 2 ^ k.sizeLog2.toNat) && decide ((t - k.tail).toNat < 2 ^ 31)

/-- A doorbell write. -/
def State.doorbell (s : State) (q : Nat) (t : Word) : State :=
  if (s.queue q).accepts t then (s.updQueue q fun k => { k with tail := t }).watchSlip else s.bump Evt.dbReject 1

/-- The module may read the descriptor at an index: between HEAD and TAIL of a running queue, unless it has passed its
header check. -/
def State.mayFetch (s : State) (q : Nat) (index : Word) : Bool :=
  let k := s.queue q
  s.mayIssue && k.enable && k.state == 1 && decide ((index - k.head).toNat < (k.tail - k.head).toNat)
    && !(index == k.head && k.checked)

/-- DESCRIPTOR_FETCH. -/
def execDescriptorFetch (q : Nat) (index : Word) (bytes : List Byte) (s : State) : Out :=
  guarded (q < 64) <|
    if s.mayFetch q index then
      (s.updQueue q fun k => { k with fetched := tput k.fetched index.toNat (slice bytes 0 64) }).watchSlip
    else s

/-- FETCH_ABORT (R356). -/
def State.fetchAbort (s : State) (q : Nat) (index : Word) : State :=
  let s := s.bump Evt.fetchAbort 1
  let s := s.updQueue q fun k => { k with state := 3 }
  (s.faultRecord (faultBytes s.tide q 0 Code.hostAbort index 0 0xFFFF 0)).causeStopped

/-- FETCH_ABORT. -/
def execFetchAbort (q : Nat) (index : Word) (s : State) : Out :=
  guarded (q < 64) (if s.mayFetch q index then s.fetchAbort q index else s)

/-! ### The head of a queue (R359, R360) -/

/-- A descriptor at the head of its queue: one that a RERUN returned, or the one at HEAD. -/
structure Head where
  desc : List Byte
  index : Word
  redo : Bool

/-- The queue dispatches. -/
def Queue.runs (k : Queue) : Bool := k.enable && k.state == 1 && k.gate.isNone

/-- The fetched descriptor at HEAD, when no earlier descriptor has to go first. -/
def Queue.front (k : Queue) : Option (List Byte) :=
  if k.runs && k.redo.isEmpty && k.head != k.tail then (k.fetched.find? fun x => x.1 == k.head.toNat).map (·.2) else none

/-- The descriptor that dispatches next: a header-checked one, not one that a GATE skips. -/
def Queue.next (k : Queue) : Option Head :=
  if !k.runs then none
  else match k.redo with
    | r :: _ => some ⟨r.desc, r.index, true⟩
    | [] => if k.skip = 0 ∧ k.checked = true then k.front.map fun d => ⟨d, k.head, false⟩ else none

/-- The code that the header check refuses with, and the signal counter that the fault names (R359). -/
def headerCheck (d : List Byte) : Option (Nat × Nat) :=
  let sig := if signalIndex d < 4096 then signalIndex d else 0xFFFF
  let w := waitIndex d
  if headerReserved d then some (Code.rsvdSet, sig)
  else if ! [1, 2, 3, 4, 5, 6, 7, 8, 9, 0xA, 0xF].contains (classOf d) then some (Code.badOpcode, sig)
  else if (4096 ≤ w ∧ w ≠ 0xFFFF) ∨ 4096 ≤ signalIndex d then some (Code.badTarget, 0xFFFF)
  else none

/-- A descriptor faults from the head of its queue. -/
def State.refuseHead (s : State) (q : Nat) (d : List Byte) (sig code : Nat) : State :=
  let index := (s.queue q).head
  (((s.advance q).reportFault q index d 0 sig code 0).settle q).watchSlip

/-- HEADER_CHECK. -/
def State.headerStep (s : State) (q : Nat) : State :=
  let k := s.queue q
  match k.front with
  | none => s
  | some d =>
    if k.checked = true ∨ k.skip ≠ 0 ∨ s.hostWorks = false then s
    else match headerCheck d with
      | some (code, sig) => s.refuseHead q d sig code
      | none => (s.updQueue q fun k => { k with checked := true }).watchSlip

/-- HEADER_CHECK. -/
def execHeaderCheck (q : Nat) (s : State) : Out := guarded (q < 64) (s.headerStep q)

/-! ### CHECK arming (04 R133) -/

/-- The verdict slot of a CHECK. -/
def checkSlot (d : List Byte) : Nat := bits (field d 49 1) 3 0

/-- A verdict slot. -/
def State.verdict (s : State) (v : Nat) : Verdict := tget .reset s.tun.verdicts v

/-- The slot is PENDING, or the gate counter is that of a PENDING slot. -/
def State.armBlocked (s : State) (d : List Byte) : Bool :=
  (s.verdict (checkSlot d)).pending || s.tun.verdicts.any fun v => v.2.pending && v.2.gate.toNat == field d 56 2

/-- Arms a CHECK's slot. -/
def State.arm (s : State) (q : Nat) (d : List Byte) : State :=
  let g := field d 56 2
  let target := (s.counter g).value + BitVec.ofNat 32 (field d 58 2)
  let s := s.updQueue q fun k => { k with armed := some (checkSlot d, target) }
  { s with tun := { s.tun with verdicts := tupd .reset s.tun.verdicts (checkSlot d) fun x =>
      { x with pending := true, gate := BitVec.ofNat 12 g, target := target } } }

/-- CHECK_ARM: the checks of a CHECK are made at the head, before it arms. -/
def State.armStep (s : State) (q : Nat) : State :=
  let k := s.queue q
  match k.next with
  | none => s
  | some h =>
    if h.redo = true ∨ opcodeOf h.desc ≠ 0x0A02 ∨ k.armed.isSome ∨ s.hostWorks = false then s
    else match checkCheck h.desc with
      | some code => s.refuseHead q h.desc (signalIndex h.desc) code
      | none => if s.armBlocked h.desc then s else s.arm q h.desc

/-- CHECK_ARM. -/
def execCheckArm (q : Nat) (s : State) : Out := guarded (q < 64) (s.armStep q)

/-! ### What dispatch waits for (R360) -/

/-- How far behind HEAD a descriptor lies. -/
def behind (head index : Word) : Nat := (head - index).toNat

/-- The operations of a queue from before a descriptor. -/
def State.earlier (s : State) (q : Nat) (h : Head) : List Op :=
  let head := (s.queue q).head
  s.ops.filter fun o => o.q = q && !o.orphan && (!h.redo || decide (behind head h.index < behind head o.index))

/-- The fences of R360 hold a descriptor back. -/
def State.fenced (s : State) (q : Nat) (h : Head) : Bool :=
  let es := s.earlier q h
  (bit (flagsOf h.desc) 1 && !es.isEmpty) || es.any fun o => bit (flagsOf o.desc) 2

/-- An operation that draws in free-running mode (05 R156). -/
def Op.drawsFree (o : Op) : Bool :=
  (opcodeOf o.desc == 0x0701 && fillFree o.desc)
    || (opcodeOf o.desc == 0x0401 && runFree (o.record Lab.params)
      && progDraws ((beforeEnd (instrsOf (o.record Lab.program))).getD []))

/-- The fabric whose course count a descriptor names, with the code (03 R79; 09 R254). -/
def courseUse (d : List Byte) : Option (Bool × BitVec 3) :=
  if opcodeOf d = 0x0101 ∧ fabricOf d < 2 ∧ swCode d < 5 then some (swBass d, BitVec.ofNat 3 (swCode d))
  else if (opcodeOf d = 0x0508 ∨ opcodeOf d = 0x0509) ∧ atCode d < 5 then some (opcodeOf d == 0x0509, BitVec.ofNat 3 (atCode d))
  else none

/-- The courses that a sweep or a RELEASE needs free. -/
def State.coursesFree (s : State) (d : List Byte) (bass : Bool) : Bool :=
  let busy := s.busyCourses bass
  (coursesOf d (if opcodeOf d = 0x0101 then swCode d else (s.fabric bass).courses.toNat)).all fun c => !busy.contains c

/-- The resources of a descriptor's class accept it, a course-count change aside. -/
def State.accepts (s : State) (h : Head) (armed : Bool) : Bool :=
  let d := h.desc
  let op := opcodeOf d
  if op = 0x0101 then
    match courseUse d with
    | none => true
    | some (b, code) => (s.fabric b).drain.isNone && ((s.fabric b).courses != code || s.coursesFree d b)
  else if op = 0x0102 ∧ fabricOf d < 2 then (s.fabric (swBass d)).drain.isNone && s.coursesFree d (swBass d)
  else if op = 0x0508 ∨ op = 0x0509 then
    match courseUse d with
    | none => true
    | some (b, _) => (s.fabric b).drain.isNone
  else if op = 0x0401 ∧ fabricOf d < 2 then (s.fabric (swBass d)).drain.isNone
  else if classOf d = 3 then (match laneOf d with | some l => !s.laneBusy l | none => true)
  else if op = 0x0702 ∨ op = 0x0703 ∨ op = 0x0704 then
    !s.runs [0x0702, 0x0703, 0x0704] && !s.ops.any Op.drawsFree
  else if op = 0x0701 ∧ fillFree d = true then !s.runs [0x0702, 0x0703, 0x0704]
  else if op = 0x0A02 then armed && !h.redo
  else if op = 0x0F03 ∨ op = 0x0F04 then s.ops.isEmpty
  else true

/-- A context operation is on the module: nothing else dispatches (R369). -/
def State.contextRuns (s : State) : Bool := s.ops.any fun o => opcodeOf o.desc == 0x0F03 || opcodeOf o.desc == 0x0F04

/-- The head of a queue that everything but its wait lets dispatch. -/
def State.candidate (s : State) (q : Nat) : Option Head :=
  if s.contextRuns || !s.hostWorks then none
  else match (s.queue q).next with
    | none => none
    | some h => if s.fenced q h || !s.accepts h (s.queue q).armed.isSome then none else some h

/-- The head of a queue that can dispatch now. -/
def State.ready (s : State) (q : Nat) : Option Head :=
  match s.candidate q with
  | none => none
  | some h => if s.waits h.desc then none else some h

/-! ### Arbitration (R361) -/

/-- The resource for which a descriptor competes: a fabric, a stow lane, the free-running state, or the module as a whole. -/
def resourceOf (d : List Byte) : Option Nat :=
  if opcodeOf d = 0x0101 ∨ opcodeOf d = 0x0102 then (if fabricOf d < 2 then some (b2n (swBass d)) else none)
  else match courseUse d with
    | some (b, _) => some (b2n b)
    | none =>
      if classOf d = 3 then (laneOf d).map (16 + ·)
      else if opcodeOf d = 0x0702 ∨ opcodeOf d = 0x0703 ∨ opcodeOf d = 0x0704 then some 32
      else if opcodeOf d = 0x0F03 ∨ opcodeOf d = 0x0F04 then some 33
      else none

/-- Queue a goes before queue b: higher PRIORITY, then sooner after the queue last served. -/
def State.goesFirst (s : State) (r a b : Nat) : Bool :=
  let last := tget 63 s.hst.lastServed r
  let age (q : Nat) : Nat := (q + 63 - last) % 64
  let p (q : Nat) : Nat := (s.queue q).priority.toNat
  decide (p b < p a) || (p a == p b && decide (age a < age b))

/-- The resource has served a queue. -/
def State.serve (s : State) (q : Nat) (d : List Byte) : State :=
  match resourceOf d with
  | none => s
  | some r => { s with hst := { s.hst with lastServed := tput s.hst.lastServed r q } }

/-! ### Dispatch (R360, R484) -/

/-- The dispatch checks of a descriptor's class. -/
def State.checks (s : State) (q : Nat) (d : List Byte) : Chk Plan :=
  let e := s.env 0
  let a : Acc := ⟨none, s.dp.txGen.toNat⟩
  match classOf d with
  | 1 => checkSweep s q e a d
  | 2 => checkConvert s q e a d
  | 3 => checkStow s e d
  | 4 => checkRun s q e a d
  | 5 => checkSeq s e d
  | 6 => checkHawser s q e a d
  | 7 => checkRandom s q e a d
  | 8 => checkTranslation d
  | 9 => checkLanding s q e a d
  | 10 => checkTuner s e d
  | 15 => checkControl s q e a d
  | _ => do
    Chk.row true Code.badOpcode
    pure (Plan.one [] [])

/-- Takes the head from its queue. -/
def State.takeHead (s : State) (q : Nat) (h : Head) : State :=
  if h.redo then s.updQueue q fun k => { k with redo := k.redo.drop 1 } else s.advance q

/-- The operation that a plan starts: the instances that no check refuses. -/
def State.newOp (s : State) (q : Nat) (h : Head) (p : Plan) (ahead : Option Nat) : Op :=
  { id := s.nextOp, q := q, index := h.index, desc := h.desc, pin := s.dp.txGen
    insts := (p.insts.filter fun i => i.2.1 = 0).map fun i => ⟨i.1, .running, [], Effects.none, 0, 0, 0⟩
    ahead := ahead, recs := p.recs, nums := tput p.nums Lab.usable s.usable, orphan := false
    tiles := if opcodeOf h.desc = 0x0101 then
        (s.fabric (swBass h.desc)).tiles.filter fun t => bit (tget 0 p.nums Lab.hits) t.1
      else [] }

/-- The instances that a check refuses report their faults. -/
def State.refuseInsts (s : State) (q : Nat) (h : Head) (p : Plan) : State :=
  (p.insts.filter fun i => i.2.1 ≠ 0).foldl (fun s i =>
    (s.countFault h.desc).reportFault q h.index h.desc i.1 (signalIndex h.desc + i.1) i.2.1 i.2.2) s

/-- An operation starts. -/
def State.start (s : State) (q : Nat) (h : Head) (p : Plan) (ahead : Option Nat) : State :=
  let o := s.newOp q h p ahead
  let s := (s.takeHead q h).serve q h.desc
  let s := if o.insts.isEmpty then s
    else ({ s with ops := s.ops ++ [o], nextOp := s.nextOp + 1 }).bump Evt.descDispatched 1
  let s := if opcodeOf h.desc = 0x0304 then s.updQueue q fun k => { k with gate := some o.id } else s
  ((s.refuseInsts q h p).settle q).watchSlip

/-- A descriptor faults at dispatch. -/
def State.refuse (s : State) (q : Nat) (h : Head) (code va : Nat) : State :=
  let s := (s.takeHead q h).serve q h.desc
  (((s.countFault h.desc).reportFault q h.index h.desc 0 (signalIndex h.desc) code va).settle q).watchSlip

/-- A RUN that draws in free-running mode does not dispatch beside a SAVE, RESTORE or RESEED; nor does a FILL (05 R156). -/
def State.drawBlocked (s : State) (h : Head) (p : Plan) : Bool :=
  s.runs [0x0702, 0x0703, 0x0704] && (s.newOp 0 h p none).drawsFree

/-- The dispatch of a head whose conditions hold: its checks, then its start or its fault. Nothing happens while a check
has to wait. -/
def State.launch (s : State) (q : Nat) (h : Head) : Option State :=
  let (r, io) := s.checks q h.desc ⟨s.dp, false⟩
  if io.wait then none
  else
    let s := { s with dp := io.d }
    match r with
    | .error (code, va) =>
      if code = Code.noEntropy ∧ s.runs [0x0702, 0x0703, 0x0704] = true then none else some (s.refuse q h code va)
    | .ok p => if s.drawBlocked h p then none else some (s.start q h p none)

/-- The fabric of a descriptor has to change its course count first (03 R79). -/
def State.needsCourses (s : State) (d : List Byte) : Option (Bool × BitVec 3) :=
  match courseUse d with
  | none => none
  | some (b, code) => if (s.fabric b).courses = code then none else some (b, code)

/-- A course-count change: at once on an idle fabric, otherwise the drain begins. -/
def State.changeCourses (s : State) (b : Bool) (code : BitVec 3) : State × Bool :=
  if (s.busyCourses b).isEmpty && !s.attending b then (s.switchCourses b code, true)
  else (s.setFabric b { s.fabric b with drain := some code }, false)

/-- Some instance of the head passes its dispatch checks, and none of them has to wait. -/
def State.passes (s : State) (q : Nat) (h : Head) : Bool :=
  match s.checks q h.desc ⟨s.dp, false⟩ with
  | (.ok p, io) => !io.wait && p.insts.any fun i => i.2.1 == 0
  | (.error _, _) => false

/-! ### Running ahead (04 R134) -/

/-- Increments of a counter that operations held under a slot have not committed (04 R134, R137). -/
def State.uncommitted (s : State) (v n : Nat) : Nat :=
  ((s.ops.filter fun o => o.ahead = some v).map fun o =>
    ((o.insts.filter fun i => (match i.phase with | .done => true | .running => false | .stalled => false) && sigOf o i.n == n).map
      fun _ => signalIncr o.desc).sum).sum

/-- A descriptor's wait lets it run ahead under a PENDING slot. -/
def State.aheadWait (s : State) (d : List Byte) (v : Nat) (x : Verdict) : Bool :=
  let n := waitIndex d
  let more := s.uncommitted v n
  x.pending && ((n == x.gate.toNat && waitMet x.target (waitValue d))
    || (more != 0 && waitMet ((s.counter n).value + BitVec.ofNat 32 more) (waitValue d)))

/-- The slot under which a head may run ahead. -/
def State.aheadSlot (s : State) (d : List Byte) : Option Nat :=
  if bit (flagsOf d) 0 && [1, 2, 4].contains (classOf d) && s.waits d then
    (s.tun.verdicts.find? fun v => s.aheadWait d v.1 v.2).map (·.1)
  else none

/-- The work of an instance of an operation of class 0x01, 0x02 or 0x04. -/
def State.workOf (s : State) (o : Op) (n : Nat) : M Work :=
  let e := s.envOf o
  match opcodeOf o.desc with
  | 0x0101 =>
    let j := sweepJob o n
    sweepWork e o.acc o j (o.tileOf j.course)
  | 0x0102 => releaseWork s o
  | 0x0201 => convertWork e o.acc o
  | _ => runWork s e o.acc o

/-- Every line that an operation writes, as its work stands now, lies in logged berth memory. -/
def State.allLogged (s : State) (o : Op) : Bool :=
  o.insts.all fun i =>
    match s.run (s.workOf o i.n) with
    | some (.ok w, _) => (w.writes ++ w.eff.recs).all fun x => s.dp.logged x.line
    | _ => false

/-- A head starts to run ahead under a slot, when the conditions of R134 hold and no check refuses it. -/
def State.aheadLaunch (s : State) (q : Nat) (h : Head) (v : Nat) : Option State :=
  match s.checks q h.desc ⟨s.dp, false⟩ with
  | (.ok p, io) =>
    if io.wait || p.insts.any (fun i => i.2.1 != 0) || s.drawBlocked h p || !s.allLogged (s.newOp q h p (some v)) then none
    else some (({ s with dp := io.d }).start q h p (some v))
  | (.error _, _) => none

/-- The head of a queue that can dispatch now, as ordinary work or running ahead. -/
def State.contends (s : State) (q : Nat) : Option Head :=
  match s.ready q with
  | some h => some h
  | none =>
    match s.candidate q with
    | none => none
    | some h =>
      match s.aheadSlot h.desc with
      | none => none
      | some v => if (s.aheadLaunch q h v).isSome then some h else none

/-- The queue wins its resource among those whose heads can dispatch to it. -/
def State.wins (s : State) (q : Nat) (d : List Byte) : Bool :=
  match resourceOf d with
  | none => true
  | some r => (s.que.map (·.1)).all fun b =>
    b == q || match s.contends b with
      | none => true
      | some h => resourceOf h.desc != some r || !s.goesFirst r b q

/-- DISPATCH. A descriptor that its checks refuse changes no course count (03 R90). -/
def State.dispatchStep (s : State) (q : Nat) : State :=
  match s.ready q with
  | none => s
  | some h =>
    if !s.wins q h.desc then s
    else match s.needsCourses h.desc with
      | none => (s.launch q h).getD s
      | some (b, code) =>
        if !s.passes q h then (s.launch q h).getD s
        else match s.changeCourses b code with
        | (s', true) => (s'.launch q h).getD s
        | (s', false) => s'

/-- DISPATCH. -/
def execDispatch (q : Nat) (s : State) : Out := guarded (q < 64) (s.dispatchStep q)

/-- RUN_AHEAD_DISPATCH: a head that meets the wait of R134 and fails another of its conditions waits. -/
def State.aheadStep (s : State) (q : Nat) : State :=
  match s.candidate q with
  | none => s
  | some h =>
    match s.aheadSlot h.desc with
    | none => s
    | some v =>
      if !s.wins q h.desc then s
      else match s.aheadLaunch q h v with
        | none => s
        | some t =>
          match s.needsCourses h.desc with
          | none => t
          | some (b, code) =>
            match s.changeCourses b code with
            | (s', true) => (s'.aheadLaunch q h v).getD s
            | (s', false) => s'

/-- RUN_AHEAD_DISPATCH. -/
def execRunAheadDispatch (q : Nat) (s : State) : Out := guarded (q < 64) (s.aheadStep q)

/-! ### GATE skipping (06 R173) -/

/-- DESC_SKIPPED. -/
def State.skipStep (s : State) (q : Nat) : State :=
  let k := s.queue q
  match k.front with
  | none => s
  | some d =>
    if k.skip = 0 ∨ s.contextRuns = true ∨ s.hostWorks = false then s
    else
      let s := if signalIndex d < 4096 then s.signal (signalIndex d) (signalIncr d) 0 else s
      (((s.advance q).updQueue q fun k => { k with skip := k.skip - 1 }).bump Evt.descSkipped 1).watchSlip

/-- DESC_SKIPPED. -/
def execDescSkipped (q : Nat) (s : State) : Out := guarded (q < 64) (s.skipStep q)

/-! ### Completion (R362, R363) -/

/-- What follows the end of an operation: course-count changes, a pending tuner enable, the slip. -/
def State.afterOp (s : State) : State := s.endDrains.settleTuner.watchSlip

/-- COMPLETION_SIGNAL: an instance whose work is done; one held under a verdict slot waits for the verdict. -/
def State.completionStep (s : State) (id n : Nat) : State :=
  match s.findOp id with
  | none => s
  | some o =>
    match o.findInst n with
    | none => s
    | some i =>
      match i.phase with
      | .running => s
      | .stalled => s
      | .done => if o.ahead.isSome then s else (s.complete o i).afterOp

/-- COMPLETION_SIGNAL. -/
def execCompletionSignal (id n : Nat) (s : State) : Out := .next (s.completionStep id n)

/-- CNT_ADD_n with SET 0. -/
def State.cntAdd (s : State) (n : Nat) (amount : Word) : State :=
  ({ s with cnt := tupd .reset s.cnt n fun c => { c with value := c.value + amount } }).watchSlip

/-- CNT_ADD_n with SET 1. -/
def State.cntSet (s : State) (n : Nat) (amount : Word) : State :=
  ({ s with cnt := tupd .reset s.cnt n fun c => { c with value := amount } }).watchSlip

/-- CNT_n.FAULTED written 1. -/
def State.faultedClear (s : State) (n : Nat) : State :=
  { s with cnt := tupd .reset s.cnt n fun c => { c with faulted := false, code := 0 } }

/-- CNT_ADD. -/
def execCntAdd (n : Nat) (amount : Word) (s : State) : Out := guarded (n < 4096) (s.cntAdd n amount)

/-- CNT_SET. -/
def execCntSet (n : Nat) (amount : Word) (s : State) : Out := guarded (n < 4096) (s.cntSet n amount)

/-- FAULTED_CLEAR. -/
def execFaultedClear (n : Nat) (s : State) : Out := guarded (n < 4096) (s.faultedClear n)

/-! ### Queue configuration (R356, R357) -/

/-- The ring of a queue changes: HEAD and TAIL become 0, and what the queue held of the old ring is gone. -/
def Queue.newRing (k : Queue) : Queue :=
  { k with head := 0, tail := 0, fetched := [], checked := false, armed := none, redo := [], gate := none, skip := 0 }

/-- SIZE_LOG2 as a write of Q_CFG_q stores it. -/
def sizeOf_ (v : Nat) : BitVec 5 := BitVec.ofNat 5 (clampN 4 20 (bits v 12 8))

/-- A write of Q_CFG_q of the bits that the mask names. -/
def State.writeQCfg (s : State) (q : Nat) (v mask : Reg) : State :=
  let old := s.queue q
  let w := (mergeReg (BitVec.ofNat 64 old.cfgWord) v mask).toNat
  let resize := old.state = 0 ∧ sizeOf_ w ≠ old.sizeLog2
  let s := if resize then (s.updQueue q fun k => { k.newRing with sizeLog2 := sizeOf_ w }).headMoved q else s
  let s := s.updQueue q fun k =>
    { k with
      enable := bit w 0, stopOnFault := bit w 1, priority := BitVec.ofNat 2 (bits w 17 16), vector := BitVec.ofNat 8 (bits w 31 24)
      state := if bit w 0 && k.state == 0 then 1 else k.state }
  let s := if bit (v &&& mask).toNat 2 then
      s.updQueue q fun k => if k.state = 2 ∨ k.state = 3 then { k with state := 1, fetched := [], checked := false } else k
    else s
  (s.settle q).watchSlip

/-- A write of Q_BASE_q. -/
def State.writeQBase (s : State) (q : Nat) (v mask : Reg) : State :=
  let old := s.queue q
  let b : BitVec 52 := BitVec.ofNat 52 (bits (mergeReg (BitVec.ofNat 64 old.baseWord) v mask).toNat 63 12)
  if old.state = 0 ∧ b ≠ old.base then ((s.updQueue q fun k => { k.newRing with base := b }).headMoved q).watchSlip else s

/-- A write of Q_HEAD_WB_q. -/
def State.writeQWb (s : State) (q : Nat) (v mask : Reg) : State :=
  let old := s.queue q
  let a : BitVec 62 := BitVec.ofNat 62 (bits (mergeReg (BitVec.ofNat 64 old.wbWord) v mask).toNat 63 2)
  s.updQueue q fun k => { k with headWb := a, wbDue := k.wbDue && a != 0 }

/-- QUEUE_ENABLE: a write of Q_CFG_q with ENABLE 1. -/
def execQueueEnable (q : Nat) (v : Reg) (s : State) : Out := guarded (q < 64) (s.writeQCfg q (v ||| 1) (BitVec.allOnes 64))

/-- QUEUE_DISABLE: a write of Q_CFG_q with ENABLE 0. -/
def execQueueDisable (q : Nat) (v : Reg) (s : State) : Out := guarded (q < 64) (s.writeQCfg q (v &&& ~~~1) (BitVec.allOnes 64))

/-- RESUME: a write of Q_CFG_q with RESUME 1. -/
def execResume (q : Nat) (v : Reg) (s : State) : Out := guarded (q < 64) (s.writeQCfg q (v ||| 4) (BitVec.allOnes 64))

end Sys2Proof.Machine
end

