-- ==== Sys2Proof/Machine/Reset.lean ====
section
/-!
DEFINITION. What ends the module's work as a whole: the orderly shutdown (14 R416) and the module reset (15 R437); and what a
power domain holds when it comes on (14 R435).
-/

namespace Sys2Proof.Machine

/-! ### Domains coming on -/

/-- Changes a power domain. -/
def State.updDom (s : State) (x : Nat) (f : Domain → Domain) : State :=
  { s with pwr := { s.pwr with doms := tupd .reset s.pwr.doms x f } }

/-- The lines of a cluster are poisoned. -/
def Data.poisonCluster (d : Data) (n : Nat) : Data :=
  let l := berthBase + 2 ^ 15 * n
  { d with cells := Memory.erase d.cells (80 * l) (80 * (l + 2 ^ 15)) }

/-- The lines of a stack are poisoned (08 R228). -/
def Data.poisonStack (d : Data) (x : Nat) : Data :=
  { d with cells := Memory.erase d.cells (80 * 2 ^ 30 * x) (80 * 2 ^ 30 * (x + 1)) }

/-- A cluster domain's berth lines are poisoned, and its marks and undo logs are gone. -/
def Data.clusterOn (d : Data) (x : Nat) : Data :=
  let d := (domClusters x).foldl Data.poisonCluster d
  { d with
    marks := d.marks.filter fun m => lineDom m.1 ≠ x
    undo := d.undo.filter fun u => lineDom u.line ≠ x }

/-- The retained tiles of a fabric without those on clusters of a domain. -/
def Fabric.dropDom (f : Fabric) (bass : Bool) (x : Nat) : Fabric :=
  { f with tiles := f.tiles.filter fun t => (courseClusters bass f.courses.toNat t.1).all fun n => clusterDom n != x }

/-- The strings of a cluster domain: 128 in each of its physical clusters, spares included (01 R25, 05 R149). -/
def domStrings (x : Nat) : Nat := 128 * (domPhys x).length

/-- A cluster domain has come on from off; its strings' counters are reseeded, as string reseeds, when seeds are there
(05 R149). -/
def State.clusterOn (s : State) (x : Nat) (seeds : Bool) : State :=
  let s := { s with dp := s.dp.clusterOn x, treble := s.treble.dropDom false x, bass := s.bass.dropDom true x }
  if seeds then
    let (kc, r) := s.rng.draw
    ({ s with rng := r.seedDomain x kc }).bump Evt.stringReseed (domStrings x)
  else s

/-- A region of Ivorn addresses has a byte in a stack. -/
def regionIn (base len x : Nat) : Bool :=
  match stackOf base with
  | some y => len != 0 && decide (y ≤ x) && decide (x * 2 ^ 36 < base % 2 ^ 40 + len)
  | none => false

/-- A lane has its header table or its data region in a stack, or running through it (R435). -/
def Lane.inStack (l : Lane) (x : Nat) : Bool :=
  regionIn l.hdrBase.toNat (32 * l.hdrCap.toNat) x || regionIn l.dataBase.toNat (64 * l.dataLines.toNat) x

/-- Empties the lanes of a stack; FRAMES_CLEARED counts each frame. -/
def State.emptyLanes (s : State) (x : Nat) : State :=
  (List.range 16).foldl (fun s l =>
    let k := s.lane l
    if k.inStack x then (s.updLane l fun k => { k with depth := 0, dataTop := 0 }).bump Evt.framesCleared k.depth.toNat else s) s

/-- A stack domain has come on from off. -/
def State.stackUp (s : State) (x : Nat) : State :=
  let s := { s with
    dp := s.dp.poisonStack x
    seq := { s.seq with ctxs := s.seq.ctxs.filter fun c => homeOf c.1 ≠ x } }
  (s.initPool x).emptyLanes x

/-- A domain comes on from off (R435). A write of OFF during the power-up takes effect now (R433). -/
def State.comeOn (s : State) (x : Nat) (seeds : Bool) : State :=
  let s := s.updDom x fun d => { d with st := if d.req = 0 then .down else .on }
  let s := if 16 ≤ x then s.stackUp (x - 16) else if x % 4 = 3 then s else s.clusterOn x seeds
  s.deliverWaiting x

/-! ### Orderly shutdown (R416) -/

/-- A port without power. -/
def Port.cut (p : Port) : Port := { p with st := .off, degraded := false, lanes := 0, paused := false, held := [] }

/-- Channels whose buffers are lost with the mesh (12 R376; 16 R462). -/
def Mbx.cut (b : Mbx) : Mbx :=
  { b with
    chans := b.chans.map fun c => if isUser c.1 then (c.1, { c.2 with words := List.replicate 8 0 }) else c
    waiting := [] }

/-- Every 54 V domain goes off: what it held is lost, running operations vanish, nothing more is written to host memory. -/
def State.powerOff (s : State) : State :=
  { s with
    ops := []
    dp := { s.dp with cells := [], marks := [], undo := [] }
    treble := { s.treble with tiles := [] }
    bass := { s.bass with tiles := [] }
    hst := { s.hst with deferred := [] }
    pci := { s.pci with down := true, doePart := [], held := [], spdmWait := none }
    hw := { s.hw with ports := s.hw.ports.map fun p => (p.1, p.2.cut) }
    mbx := s.mbx.cut
    pwr := { s.pwr with
      doms := (List.range 32).map fun x => (x, { s.domain x with st := .off, pending := false, pendReq := 0 })
      meshOn := false, hostOn := false, burst := false, armed := false } }

/-- The inhibit asserts: a STORE that runs starts no further step, and waits again (13 R401, 14 R415). -/
def Dic.holdStore (d : Dic) : Dic := { d with storeStatus := if d.storeStatus = 2 then 1 else d.storeStatus }

/-- An orderly shutdown; one that has begun completes whatever comes. -/
def State.shutdown (s : State) (c : Shutdown) : State :=
  if s.pwr.shut.isSome then s
  else
    let s := s.powerOff
    { s with
      pwr := { s.pwr with shut := some c, pwrOk := false, nvInhibit := true, nvHeld := true }, dic := s.dic.holdStore }

/-! ### Module reset (15 R437) -/

/-- A stack domain through a module reset: one that is on, or in slack, stays on (log entry 12). -/
def Domain.throughReset (d : Domain) : Domain :=
  match d.st with
  | .on => { Domain.reset with st := .on }
  | .slack => { Domain.reset with st := .on }
  | .off => .reset
  | .down => .reset
  | .up => .reset

/-- The stacks that stay on. -/
def State.keptStacks (s : State) : List Nat :=
  (List.range 16).filter fun x => (s.domain (16 + x)).throughReset.st == .on

/-- The data plane through a module reset: the lines of stacks that stay on, the error log and the model's records. -/
def Data.moduleReset (d : Data) (kept : List Nat) : Data :=
  { Data.reset with
    cells := d.cells.filter fun c => kept.contains (c.1 / (80 * 2 ^ 30))
    log := d.log, logCount := d.logCount, logLost := d.logLost, ackedTo := d.ackedTo, logHeld := d.logHeld
    transfers := d.transfers, mgmtOut := d.mgmtOut, free := d.free }

/-- The dictionary agent through a module reset: an open transfer and a staged image are discarded (15 R438). -/
def Dic.moduleReset (d : Dic) : Dic :=
  { d with fwXfer := none, image := [], fwStatus := 0, repairXfer := none, repairData := none, repairReq := none }

/-- The boot state through a module reset: what is in flash, and what the dictionary agent holds. -/
def Boot.moduleReset (b : Boot) : Boot :=
  { Boot.reset with
    slots := b.slots, active := b.active, counters := b.counters, repairs := b.repairs
    partWrites := b.partWrites, partMac := b.partMac, calibration := b.calibration
    hwMac := b.hwMac, mgmtMac := b.mgmtMac, serial := b.serial, quayMv := b.quayMv }

/-- The shutdown through a module reset: MOD_RST_N ends a thermal trip and an overcurrent disconnect (14 R426, 17 R477); the others
end only by 14 R418 and R430. -/
def Pwr.shutAfter (p : Pwr) : Option Shutdown :=
  match p.shut with
  | some .trip => if p.awaits || !p.ref then p.shut else none
  | some .overcurrent => if p.awaits || !p.ref then p.shut else none
  | some .input => p.shut
  | some .overstress => p.shut
  | some .reference => p.shut
  | none => none

/-- The power and supply state through a module reset: the inputs, the inhibit, the caps in use and THROTTLE_N go on. -/
def Pwr.moduleReset (p : Pwr) (doms : Tab Domain) : Pwr :=
  { Pwr.reset with
    shut := p.shutAfter, awaits := p.awaits, inputOpen := p.inputOpen && p.awaits, goodIn := p.goodIn, below44 := p.below44
    doms := doms, capInUse := p.capInUse, releasing := p.releasing, lastHigh := p.lastHigh
    nvInhibit := p.nvInhibit, nvHeld := p.nvHeld, in54 := p.in54, in12 := p.in12, ref := p.ref, modRst := p.modRst
    filtered := p.filtered, throttle := p.throttle, throttleAt := p.throttleAt, heldLogged := p.heldLogged
    chatterAt := p.chatterAt }

/-- The random block through a module reset: the count of seeds drawn is the model's own. -/
def Rng.moduleReset (r : Rng) : Rng := { Rng.reset with drawn := r.drawn }

/-- A module reset: every register takes its reset value, the 54 V domains but the stacks that are on go off, boot begins at
stage 0; the tide, the meters and the dictionary go on. -/
def State.moduleReset (s : State) : State :=
  let kept := (List.range 16).map fun x => (16 + x, (s.domain (16 + x)).throughReset)
  { State.reset with
    pending := s.pending
    tide := s.tide
    dp := s.dp.moduleReset s.keptStacks
    nextOp := s.nextOp
    out := s.out
    rng := s.rng.moduleReset
    hw := { Hw.reset with tx := s.hw.tx }
    mbx := { Mbx.reset with events := s.mbx.events }
    dic := s.dic.moduleReset
    pwr := s.pwr.moduleReset kept
    boot := s.boot.moduleReset }

end Sys2Proof.Machine
end

