-- ==== Sys2Proof/Machine/Power.lean ====
section
/-!
DEFINITION. Supply events (13 R409, 14 R413 to R419), the governor (R420 to R424), temperature (R425, R426), THROTTLE_N (R427,
R428), the caps (R429), the reference (R430) and the power domains (R431 to R436).
-/

namespace Sys2Proof.Machine

/-! ### Measured numbers -/

/-- A binary32 word as a number. -/
def numOf (w : Word) : FV := decode32 w.toNat

/-- n / 2. -/
def half (n : Int) : FV := .num (decide (n < 0)) n.natAbs (-1)

/-- x < n / 10. -/
def belowTenths (x : FV) (n : Nat) : Bool := (x.mul (FV.ofNat 10)).lt (FV.ofNat n)

/-- The larger and the smaller of two words. -/
def maxW (a b : Word) : Word := if (numOf a).lt (numOf b) then b else a
/-- The smaller of two words. -/
def minW (a b : Word) : Word := if (numOf b).lt (numOf a) then b else a

/-- A duration that nobody saw end (13 R409). -/
abbrev noEnd : Reg := 0xFFFFFFFFFFFFFFFF

/-! ### Supply events (13 R409) -/

/-- The type codes of SUPPLY_EVENT (13 R410). -/
def SupplyEvent.code : SupplyEvent → Nat
  | .dip => 1
  | .dropout => 2
  | .swell => 3
  | .overstress => 4
  | .ripple => 5
  | .auxLoss => 6

/-- The event in progress of a type. -/
def Dic.find (d : Dic) (k : Nat) : Option SupplyEv := d.active.find? fun e => e.kind == k

/-- The entries of 0x2001 change; flash follows at once, or when the inhibit clears (13 R401). -/
def State.setCounts (s : State) (c : Tab Word) : State :=
  { s with dic := { s.dic with
    counts := c
    countsFlash := if s.pwr.nvInhibit then s.dic.countsFlash else c
    flashDue := s.dic.flashDue || s.pwr.nvInhibit } }

/-- Adds to an entry of 0x2001. -/
def State.countSupply (s : State) (sub : Nat) : State := s.setCounts (tupd 0 s.dic.counts sub (· + 1))

/-- Writes 0x2003. -/
def State.lastEvent (s : State) (k : Nat) (start dur : Reg) (ext : Word) : State :=
  { s with dic := { s.dic with evType := BitVec.ofNat 8 k, evStart := start, evDur := dur, evExt := ext } }

/-- An event begins: it counts, is recorded, and is logged with no end seen yet (log entry 34). -/
def State.beginEvent (s : State) (k : Nat) (ext : Word) : State :=
  let s := s.countSupply k
  let s := { s with dic := { s.dic with active := s.dic.active ++ [SupplyEv.mk k s.tide ext] } }
  (s.lastEvent k s.tide noEnd ext).logEvent Log.supplyEvent 0 k noEnd.toNat

/-- A record with a change of a supply event's. -/
def Relog.apply (c : Relog) (r : LogRec) : LogRec :=
  if r.code = BitVec.ofNat 16 Log.supplyEvent ∧ r.tide = c.start ∧ r.d0 = BitVec.ofNat 64 c.kind then
    { r with
      d0 := BitVec.ofNat 64 c.newKind, d1 := c.dur, severity := BitVec.ofNat 8 (severityOf Log.supplyEvent c.newKind) }
  else r

/-- Changes the flash's record of a supply event. -/
def Data.relog (d : Data) (c : Relog) : Data := { d with log := d.log.map fun x => (x.1, c.apply x.2) }

/-- The record of a supply event changes: one that still waits for flash at once, one in flash when no inhibit holds it back
(13 R401, 14 R414). -/
def State.relog (s : State) (c : Relog) : State :=
  let s := { s with dp := { s.dp with logHeld := s.dp.logHeld.map c.apply } }
  if s.pwr.nvInhibit then { s with dic := { s.dic with relogs := s.dic.relogs ++ [c] } } else { s with dp := s.dp.relog c }

/-- An event ends: its duration is recorded. -/
def State.endEvent (s : State) (k : Nat) : State :=
  match s.dic.find k with
  | none => s
  | some e =>
    let dur := s.tide - e.start
    let s := { s with dic := { s.dic with active := s.dic.active.filter fun x => x.kind ≠ k, evEnd := some s.tide } }
    (s.lastEvent k e.start dur e.extreme).relog ⟨e.start, k, k, dur⟩

/-- A further evaluation of an event in progress: its extreme. -/
def State.deepen (s : State) (k : Nat) (f : Word → Word) : State :=
  let s := { s with dic := { s.dic with active := s.dic.active.map fun (e : SupplyEv) => if e.kind = k then { e with extreme := f e.extreme } else e } }
  match s.dic.find k with
  | some e => if s.dic.evType.toNat = k ∧ s.dic.evStart = e.start then s.lastEvent k e.start s.dic.evDur e.extreme else s
  | none => s

/-- The dip in progress is a dropout and not a dip. -/
def State.dipToDropout (s : State) (e : SupplyEv) (mean : Word) : State :=
  let s := s.setCounts (tupd 0 (tupd 0 s.dic.counts 1 (· - 1)) 2 (· + 1))
  let s := { s with dic := { s.dic with
    active := s.dic.active.map fun (x : SupplyEv) => if x.kind = 1 then ⟨2, x.start, minW x.extreme mean⟩ else x } }
  (s.lastEvent 2 e.start noEnd (minW e.extreme mean)).relog ⟨e.start, 1, 2, noEnd⟩

/-- A mean below 44.0 V. -/
def below44 (mean : Word) : Bool := (numOf mean).lt (FV.ofNat 44)

/-- The inhibit asserts below 44.0 V (14 R414). -/
def State.inhibitBelow (s : State) (mean : Word) : State :=
  if s.pwr.nvInhibit || !below44 mean then s
  else { s with pwr := { s.pwr with nvInhibit := true }, dic := s.dic.holdStore }

/-- A dip counts NV_INHIBIT once, when it first lies below 44.0 V (13 R409). -/
def State.countDip (s : State) (mean : Word) : State :=
  let was := match s.dic.find 1 with
    | some e => below44 e.extreme
    | none => false
  if below44 mean && !was then s.countSupply 7 else s

/-- The 54 V input as an evaluated mean shows it: below 44.5 V it is not good, and below 44.0 V it is low. -/
def State.noteMean (s : State) (mean : Word) : State :=
  { s with pwr := { s.pwr with
    goodIn := s.pwr.goodIn && (half 89).le (numOf mean), below44 := below44 mean } }

/-- A dip: a mean below DIP_V that is no dropout. -/
def State.beginDip (s : State) (mean : Word) : State :=
  if !(numOf mean).lt (numOf s.dic.cfg.dipV) || (numOf mean).lt (FV.ofNat 40) || (s.dic.find 2).isSome then s
  else
    let s := (s.countDip mean).inhibitBelow mean
    if (s.dic.find 1).isSome then s.deepen 1 (minW · mean) else s.beginEvent 1 mean

/-- A dropout: a mean below 40.0 V. The orderly shutdown begins (14 R416). -/
def State.beginDropout (s : State) (mean : Word) : State :=
  if !(numOf mean).lt (FV.ofNat 40) then s
  else if (s.dic.find 2).isSome then s.deepen 2 (minW · mean)
  else
    let s := s.inhibitBelow mean
    let s := match s.dic.find 1 with
      | some e => s.dipToDropout e mean
      | none => s.beginEvent 2 mean
    let s := s.countSupply 8
    let s := { s with pwr := { s.pwr with in54 := false, awaits := true, goodIn := false } }
    s.shutdown .input

/-- A swell: a mean above SWELL_V. -/
def State.beginSwell (s : State) (mean : Word) : State :=
  if !(numOf s.dic.cfg.swellV).lt (numOf mean) then s
  else if (s.dic.find 3).isSome then (s.deepen 3 (maxW · mean)).deepen 4 (maxW · mean) else s.beginEvent 3 mean

/-- Overstress: a swell whose extreme exceeds 75.0 V, or that lasts. -/
def State.beginOverstress (s : State) (mean : Word) : State :=
  let s := s.beginSwell mean
  match s.dic.find 3 with
  | none => s
  | some e => if (s.dic.find 4).isSome then s else s.beginEvent 4 e.extreme

/-- Aux loss: an auxiliary mean below 10.8 V while the 54 V input is at or above 44.0 V. -/
def State.beginAuxLoss (s : State) (mean : Word) : State :=
  if !belowTenths (numOf mean) 108 || s.pwr.below44 || !s.pwr.in54 || (s.dic.find 6).isSome then s
  else
    let s := s.beginEvent 6 mean
    { s with pwr := { s.pwr with in12 := false } }

/-- The management domain has one of its inputs (01 R25). -/
def State.mgmtOn (s : State) : Bool := s.pwr.in54 || s.pwr.in12

/-- SUPPLY_EVENT_BEGIN. Ripple has a window of its own. -/
def execSupplyEventBegin (e : SupplyEvent) (mean : Word) (s : State) : Out :=
  .next <|
    if !s.mgmtOn then s
    else match e with
      | .dip => (s.noteMean mean).beginDip mean
      | .dropout => (s.noteMean mean).beginDropout mean
      | .swell => (s.noteMean mean).beginSwell mean
      | .overstress => (s.noteMean mean).beginOverstress mean
      | .auxLoss => s.beginAuxLoss mean
      | .ripple => s

/-- The swell is over. -/
def State.endSwell (s : State) (mean : Word) : State :=
  if (numOf mean).le ((numOf s.dic.cfg.swellV).add (half (-1))) then (s.endEvent 3).endEvent 4 else s

/-- SUPPLY_EVENT_END. -/
def execSupplyEventEnd (e : SupplyEvent) (mean : Word) (s : State) : Out :=
  .next <| match e with
    | .dip => if ((numOf s.dic.cfg.dipV).add (half 1)).le (numOf mean) then (s.noteMean mean).endEvent 1 else s.noteMean mean
    | .dropout =>
      let s := s.noteMean mean
      if (half 89).le (numOf mean) then
        let s := s.endEvent 2
        { s with pwr := { s.pwr with in54 := true } }
      else s
    | .swell => (s.noteMean mean).endSwell mean
    | .overstress => (s.noteMean mean).endSwell mean
    | .auxLoss =>
      if belowTenths (numOf mean) 114 then s
      else
        let s := s.endEvent 6
        { s with pwr := { s.pwr with in12 := true } }
    | .ripple => s

/-- No supply event was in progress in the second that ends now (13 R409). -/
def State.quietSecond (s : State) : Bool :=
  s.dic.active.isEmpty && match s.dic.evEnd with
    | none => true
    | some t => decide (1000000000 ≤ (s.tide - t).toNat)

/-- RIPPLE_WINDOW: the end of a window of 1 s with no other event. The event's record runs over the window. -/
def execRippleWindow (vpp : Word) (s : State) : Out :=
  .next <|
    if s.mgmtOn && s.quietSecond && (numOf s.dic.cfg.rippleVpp).lt (numOf vpp) then
      let dur : Reg := 1000000000
      ((s.countSupply 5).lastEvent 5 (s.tide - dur) dur vpp).logEvent Log.supplyEvent 0 5 dur.toNat
    else s

/-- INPUT_OVERVOLTAGE (14 R417): the input opens; a swell and overstress, each counted once, and one SHUTDOWN. -/
def execInputOvervoltage (mean : Word) (s : State) : Out :=
  .next <|
    if !s.mgmtOn || s.pwr.inputOpen || !(FV.ofNat 60).lt (numOf mean) then s
    else
      let s := if (s.dic.find 3).isSome then (s.deepen 3 (maxW · mean)).deepen 4 (maxW · mean) else s.beginEvent 3 mean
      let s := if (s.dic.find 4).isSome then s else s.beginEvent 4 mean
      let s := s.countSupply 8
      let s := { s with pwr := { s.pwr with inputOpen := true, awaits := true, goodIn := false } }
      s.shutdown .overstress

/-- OVERCURRENT (17 R477): the disconnect holds the 54 V domains off, whatever shut them down before. -/
def execOvercurrent (s : State) : Out :=
  .next <|
    if s.pwr.inputOpen || !s.pwr.in54 then s
    else ({ s with pwr := { s.pwr with inputOpen := true, overcurrent := true } }).shutdown .overcurrent

/-! ### Restarts (14 R418, R430; 17 R473) -/

/-- A trip or a disconnect holds the 54 V domains off. -/
def Pwr.held (p : Pwr) : Bool := p.tripped || p.overcurrent

/-- A module reset may restart the module on a good input (14 R418; 17 R473): the management domain is on, an orderly shutdown has
run or the 54 V input was out of range, the reference is there, and no thermal trip, overcurrent disconnect or boot halt holds the
domains off. -/
def State.mayRestart (s : State) : Bool :=
  s.mgmtOn && s.pwr.ref && !s.boot.halted && !s.pwr.held && (s.pwr.shut.isSome || !s.pwr.in54)

/-- The restart: the input is in range again, and the module resets. -/
def State.restart (s : State) : State :=
  let t := s.moduleReset
  { t with pwr := { t.pwr with
    in54 := true, shut := none, awaits := false, inputOpen := false, goodIn := true, below44 := false } }

/-- SUPPLY_RESTART: 100 ms at or above 44.5 V. -/
def execSupplyRestart (s : State) : Out :=
  .next (if s.mayRestart then s.restart else { s with pwr := { s.pwr with goodIn := s.mgmtOn, below44 := false } })

/-- REFERENCE_LOSS (R430). -/
def execReferenceLoss (s : State) : Out :=
  .next (if s.pwr.ref then ({ s with pwr := { s.pwr with ref := false } }).shutdown .reference else s)

/-- REFERENCE_RESTORED (R430): with an input that has met the condition of R418 the module resets, whatever has reset it since
the loss. -/
def execReferenceRestored (s : State) : Out :=
  .next <|
    if s.pwr.ref then s
    else
      let s := { s with pwr := { s.pwr with ref := true } }
      if s.mgmtOn && !s.boot.halted && !s.pwr.held && s.pwr.in54 && s.pwr.goodIn then s.restart else s

/-! ### The caps (R420, R429) -/

/-- 2,500 W. -/
abbrev envelopeW : Word := 0x451C4000

/-- The cap that POWER_CAP and CAP_ENABLE ask for. -/
def Dic.capTarget (d : Dic) : Word := if d.cfg.capEnable then minW envelopeW d.cfg.powerCap else envelopeW

/-- THROTTLE is asserted or treated as asserted. -/
def State.throttled (s : State) : Bool := s.pwr.throttle != 0

/-- cap_eff, with the cap in use while a release runs. -/
def State.capEff (s : State) : Word :=
  let c := s.pwr.capInUse
  if s.throttled then minW c s.dic.cfg.throttleCap else c

/-- A cap that falls applies at once; one that rises starts a release. -/
def State.retarget (s : State) : State :=
  let t := s.dic.capTarget
  if (numOf s.pwr.capInUse).lt (numOf t) then { s with pwr := { s.pwr with releasing := true } }
  else { s with pwr := { s.pwr with capInUse := t, releasing := false } }

/-- The end of a release: a pending enable applies. -/
def State.releaseDone (s : State) : State :=
  let s := { s with pwr := { s.pwr with releasing := false } }
  if s.dic.capPending then
    let s := { s with dic := { s.dic with capPending := false, cfg := { s.dic.cfg with capEnable := true } } }
    { s with pwr := { s.pwr with capInUse := s.dic.capTarget } }
  else s

/-- The cap follows its entries; a release that a lowered cap ends is over, and a pending enable then applies. -/
def State.capsChanged (s : State) : State :=
  let was := s.pwr.releasing
  let s := s.retarget
  if was && !s.pwr.releasing then s.releaseDone else s

/-- POWER_CAP written. -/
def State.writePowerCap (s : State) (v : Word) : State :=
  ({ s with dic := { s.dic with cfg := { s.dic.cfg with powerCap := v } } }).capsChanged

/-- CAP_ENABLE written. -/
def State.writeCapEnable (s : State) (on : Bool) : State :=
  if on then
    if s.pwr.releasing then { s with dic := { s.dic with capPending := true } }
    else ({ s with dic := { s.dic with cfg := { s.dic.cfg with capEnable := true } } }).retarget
  else
    ({ s with dic := { s.dic with capPending := false, cfg := { s.dic.cfg with capEnable := false } } }).capsChanged

/-- CAP_RELEASE_STEP: 50 W more, up to the new cap. -/
def execCapReleaseStep (s : State) : Out :=
  .next <|
    if !s.pwr.releasing then s
    else
      let t := s.dic.capTarget
      let c : Word := BitVec.ofNat 32 (encode32 (f32Add (numOf s.pwr.capInUse) (FV.ofNat 50)))
      if (numOf c).lt (numOf t) then { s with pwr := { s.pwr with capInUse := c } }
      else ({ s with pwr := { s.pwr with capInUse := t } }).releaseDone

end Sys2Proof.Machine
end

