-- ==== Sys2Proof/Machine/Governor.lean ====
section
/-!
DEFINITION. The governor (14 R420 to R424), the thermal loops (R425, R426) and THROTTLE_N (R427, R428).
-/

namespace Sys2Proof.Machine

/-- Changes a compute die. -/
def State.updDie (s : State) (d : Nat) (f : Die → Die) : State :=
  { s with pwr := { s.pwr with dies := tupd .reset s.pwr.dies d f } }

/-- One arithmetic cycle in 16 fewer; a k of 1 stays (R421). -/
def Die.lower (x : Die) : Die := { x with k := if x.k.toNat ≤ 1 then 1 else x.k - 1 }

/-- One arithmetic cycle in 16 more. -/
def Die.raise (x : Die) : Die := { x with k := if 16 ≤ x.k.toNat then 16 else x.k + 1 }

/-- Every die lowers k. -/
def State.lowerAll (s : State) : State := (List.range 4).foldl (fun s d => s.updDie d Die.lower) s

/-! ### Limits (R420) -/

/-- x > n watts. -/
def above (x : Word) (n : Nat) : Bool := (FV.ofNat n).lt (numOf x)

/-- cap_eff less n watts. -/
def State.capLess (s : State) (n : Nat) : FV := (numOf s.capEff).add (FV.ofInt (-n))

/-- The ceiling is exceeded. -/
def overCeiling (mean : Word) : Bool := above mean 3200

/-- The throttle bound is exceeded. -/
def State.overThrottle (s : State) (mean : Word) : Bool := s.throttled && (numOf s.dic.cfg.throttleCap).lt (numOf mean)

/-- The burst bound is exceeded. -/
def State.overBurst (s : State) (mean : Word) : Bool := !s.pwr.burst && above mean 2900

/-- The bits of LIMIT that a 10 µs mean decides: burst, ceiling, throttle (log entry 35). -/
def State.setLimits (s : State) (mean : Word) (envelope : Bool) : State :=
  let thermal := s.pwr.dies.any fun d => d.2.noRaise
  let w := flag 0 envelope + flag 1 (s.overBurst mean) + flag 2 (overCeiling mean) + flag 3 (s.overThrottle mean) + flag 4 thermal
  { s with pwr := { s.pwr with limit := BitVec.ofNat 5 w } }

/-- The limit that a fast step serves is exceeded. -/
def State.exceeds (s : State) (l : FastLimit) (mean : Word) : Bool :=
  match l with
  | .ceiling => overCeiling mean
  | .throttle => s.overThrottle mean
  | .burst => s.overBurst mean

/-- GOVERNOR_FAST_STEP (R421). -/
def execGovernorFastStep (l : FastLimit) (mean : Word) (s : State) : Out :=
  .next <|
    let s := s.setLimits mean (bit s.pwr.limit.toNat 0)
    if s.exceeds l mean then s.lowerAll else s

/-! ### The millisecond tick -/

/-- A sum of samples. -/
def sumOf (xs : List FV) : FV := xs.foldl FV.add (FV.ofNat 0)

/-- x / n, rounded to binary32 (log entry 71): the quotient to 64 bits below its exponent, and whether more follows. -/
def divide32 (x : FV) (n : Nat) : Word :=
  match x with
  | .num s m e =>
    let q := 2 ^ 64 * m / n
    BitVec.ofNat 32 (encode32 (round32 (.num s (2 * q + b2n (2 ^ 64 * m % n != 0)) (e - 65))).val)
  | v => BitVec.ofNat 32 (encode32 v)

/-- The mean of some samples. -/
def meanOf (xs : List FV) : Word := divide32 (sumOf xs) (max 1 xs.length)

/-- Samples with their gain and offset, k-th of the manifest's four pairs (15 R443; log entry 71). -/
def Boot.calibrate (b : Boot) (k : Nat) (xs : List Word) : List FV :=
  let gain := if b.calibration.isEmpty then FV.ofNat 1 else numOf (b.calibration.getD (2 * k) 0)
  let offset := numOf (b.calibration.getD (2 * k + 1) 0)
  xs.map fun x => ((numOf x).mul gain).add offset

/-- v × i of each sample. -/
def powers (v i : List FV) : List FV := List.zipWith FV.mul v i

/-- The energy of a millisecond of samples in µJ: each stands for 1 µs. -/
def microJoules (ps : List FV) : Nat :=
  match sumOf ps with
  | .num false m e => (FV.num false m e).trunc
  | _ => 0

/-- The meters take the samples of a millisecond (13 R407). -/
def Meters.take (m : Meters) (b : Boot) (x : MeterSample) : Meters :=
  let v := b.calibrate 0 x.v
  let i := b.calibrate 1 x.i
  let va := b.calibrate 2 x.vAux
  let ia := b.calibrate 3 x.iAux
  let p := meanOf (powers v i)
  let past := (p :: m.history).take 1000
  let e := m.eInMicro + microJoules (powers v i)
  let ea := m.eAuxMicro + microJoules (powers va ia)
  { vIn := meanOf v, iIn := meanOf i, pIn := p, pIn1s := meanOf (past.map numOf), eIn := m.eIn + BitVec.ofNat 64 (e / 1000)
    vAux := meanOf va, iAux := meanOf ia, pAux := meanOf (powers va ia), eAux := m.eAux + BitVec.ofNat 64 (ea / 1000)
    vMin := if m.fresh then meanOf v else minW m.vMin (meanOf v)
    vMax := if m.fresh then meanOf v else maxW m.vMax (meanOf v)
    pPeak := if m.fresh then p else maxW m.pPeak p
    fresh := false, history := past, eInMicro := e % 1000, eAuxMicro := ea % 1000 }

/-- P_IN is above 2,900 W now. -/
def State.noteHigh (s : State) (pIn : Word) : State :=
  if above pIn 2900 then { s with pwr := { s.pwr with lastHigh := some s.tide } } else s

/-- A burst is armed (R420). -/
def State.canArm (s : State) : Bool :=
  (numOf s.dic.meters.pIn1s).le (s.capLess 200) && !s.throttled
    && match s.pwr.lastHigh with
      | none => true
      | some t => decide (1000000000 ≤ (s.tide - t).toNat)

/-- A burst is armed, or not. -/
def State.rearm (s : State) : State := { s with pwr := { s.pwr with armed := s.canArm } }

/-- k at a whole millisecond (R421). -/
def State.stepK (s : State) (m : MeterSample) : State :=
  let p := numOf s.dic.meters.pIn1s
  if (s.capLess 10).lt p then s.lowerAll
  else if p.lt (s.capLess 60) && (numOf m.mean10).lt (FV.ofNat 2850) && !s.overThrottle m.mean10 then
    (List.range 4).foldl (fun s d => if (s.die d).noRaise then s else s.updDie d Die.raise) s
  else s

/-- GOVERNOR_MS_TICK. -/
def execGovernorMsTick (m : MeterSample) (s : State) : Out :=
  .next <|
    if !s.mgmtOn then s
    else
      let s := { s with dic := { s.dic with meters := s.dic.meters.take s.boot m } }
      let s := s.noteHigh s.dic.meters.pIn
      let s := s.setLimits m.mean10 ((s.capLess 10).lt (numOf s.dic.meters.pIn1s))
      (s.stepK m).rearm

/-- BURSTS: an armed burst begins when P_IN first exceeds 2,900 W. -/
def execBursts (pIn : Word) (s : State) : Out :=
  .next <|
    if s.pwr.armed && !s.pwr.burst && above pIn 2900 then
      let s := s.noteHigh pIn
      ({ s with pwr := { s.pwr with burst := true } }).bump Evt.bursts 1
    else s

/-- BURST_END. -/
def execBurstEnd (pIn : Word) (s : State) : Out :=
  .next <|
    if s.pwr.burst then
      let s := s.noteHigh pIn
      { s with pwr := { s.pwr with burst := false, armed := false } }
    else s

/-! ### Operating points (R423, R424) -/

/-- The core voltage range of a point, in mV. -/
def pointRange (p : Nat) : Nat × Nat :=
  match p with
  | 0 => (780, 860)
  | 1 => (740, 810)
  | 2 => (700, 770)
  | 3 => (670, 730)
  | 4 => (640, 700)
  | _ => (600, 650)

/-- The root frequency of a point, in MHz. -/
def pointMHz (p : Nat) : Nat :=
  match p with
  | 0 => 4800
  | 1 => 4400
  | 2 => 4000
  | 3 => 3600
  | 4 => 3200
  | _ => 2400

/-- The manifest's voltage offset of a die, in mV (15 R443). -/
def State.trimMv (s : State) (d : Nat) : Int :=
  match s.boot.running.find? fun x => x.1 == 1 with
  | some (_, obj) => 5 * signed 8 (field obj (64 + 234 + d) 1)
  | none => 0

/-- The voltage range of a die at a point, with its trim. -/
def State.mvRange (s : State) (d p : Nat) : Nat × Nat :=
  let t := s.trimMv d
  (((pointRange p).1 + t).toNat, ((pointRange p).2 + t).toNat)

/-- A core voltage at which the monitors of a die report margin at a point: a free value of the point's range, in steps
of 5 mV (R424, log entry 36). -/
def State.marginMv (s : State) (d p : Nat) : Nat :=
  let r := s.mvRange d p
  r.1 + 5 * (Config.marginSteps s.dp.free d % ((r.2 - r.1) / 5 + 1))

/-- A die moves to a point, at a voltage with margin; RETUNE counts. -/
def State.movePoint (s : State) (d p : Nat) : State :=
  let s := s.updDie d fun x => { x with point := BitVec.ofNat 3 p, mv := BitVec.ofNat 16 (s.marginMv d p) }
  ({ s with dp := { s.dp with free := s.dp.free + 1 } }).bump Evt.retune 1

/-- A die may move up (R423): the 200 ms of k = 16 are the event's own. -/
def State.mayRise (s : State) (d : Nat) (mean : Word) : Bool :=
  let x := s.die d
  x.k == 16 && x.point != 0 && (numOf s.dic.meters.pIn1s).lt (s.capLess 150) && (numOf mean).le (FV.ofNat 2700)
    && (numOf (tget 0 s.dic.dieTemps d)).lt (FV.ofNat 95)

/-- A die may move down: its k has been below 16 for the event's 50 ms, or k = 1 does not meet a bound. -/
def State.mayFall (s : State) (d : Nat) : Bool := decide ((s.die d).k.toNat < 16) && decide ((s.die d).point.toNat < 5)

/-- RETUNE. -/
def execRetune (d : Nat) (up : Bool) (mean : Word) (s : State) : Out :=
  guarded (d < 4) <|
    if up then (if s.mayRise d mean then s.movePoint d ((s.die d).point.toNat - 1) else s)
    else if s.mayFall d then s.movePoint d ((s.die d).point.toNat + 1) else s

/-- MARGIN_SHORT: one step of 5 mV more, within the point's range. -/
def execMarginShort (d : Nat) (s : State) : Out :=
  guarded (d < 4) <|
    let top := (s.mvRange d (s.die d).point.toNat).2
    s.updDie d fun x => { x with mv := BitVec.ofNat 16 (max x.mv.toNat (min top (x.mv.toNat + 5))) }

/-! ### Temperature (R425, R426) -/

/-- A temperature in m°C, to the nearest one; 0 below zero (log entry 37). -/
def milliC (t : Word) : Nat :=
  match numOf t with
  | .num false m e => ((FV.num false (2000 * m) e).trunc + 1) / 2
  | _ => 0

/-- Logs THERMAL for a die. -/
def State.logThermal (s : State) (die : Nat) (t : Word) : State := s.logEvent Log.thermal 0 die (milliC t)

/-- A thermal trip (R426): THERMAL is logged, and the 54 V domains stay off until MOD_RST_N, whatever shut them down before. One trip
holds until then (log entry 37). -/
def State.trip (s : State) (die : Nat) (t : Word) : State :=
  if s.pwr.tripped || !s.mgmtOn then s
  else
    let s := (s.logThermal die t).shutdown .trip
    { s with pwr := { s.pwr with tripped := true } }

/-- x ≥ n °C. -/
def hot (t : Word) (n : Nat) : Bool := (FV.ofNat n).le (numOf t)

/-- The alarm of one die: logged once, re-armed 5 °C below the threshold. -/
def State.alarmOf (s : State) (die : Nat) (t : Word) : State :=
  let a := numOf s.dic.cfg.alarm
  if s.dic.alarmed.contains die then
    if (numOf t).le (a.add (FV.ofInt (-5))) then { s with dic := { s.dic with alarmed := s.dic.alarmed.filter (· ≠ die) } } else s
  else if a.lt (numOf t) then
    ({ s with dic := { s.dic with alarmed := die :: s.dic.alarmed } }).logThermal die t
  else s

/-- The loop of a compute die: at 100 °C no raise of k until 97 °C; at 103 °C P5 with k = 1 at once. -/
def State.coolDie (s : State) (d : Nat) (t : Word) : State :=
  let s := if hot t 100 then s.updDie d fun x => { x with noRaise := true }
    else if (numOf t).le (FV.ofNat 97) then s.updDie d fun x => { x with noRaise := false } else s
  if hot t 103 then
    let s := if (s.die d).point = 5 then s else s.movePoint d 5
    s.updDie d fun x => { x with k := 1 }
  else s

/-- The readings by die: 0 to 3, 4 the quay die, 0x10 + s. -/
def readings (t : Temperatures) : List (Nat × Word) :=
  (t.dies.take 5).zipIdx.map (fun (x : Word × Nat) => (x.2, x.1)) ++ (t.stackTemps.take 16).zipIdx.map fun (x : Word × Nat) => (0x10 + x.2, x.1)

/-- What one reading does. -/
def State.readOne (s : State) (r : Nat × Word) : State :=
  let s := if r.1 < 4 then s.coolDie r.1 r.2 else s
  let s := s.alarmOf r.1 r.2
  if hot r.2 110 then s.trip r.1 r.2 else s

/-- THERMAL_READ. -/
def execThermalRead (t : Temperatures) (s : State) : Out :=
  .next <|
    if !s.mgmtOn then s
    else
      let s := { s with dic := { s.dic with
        dieTemps := (t.dies.take 5).zipIdx.map fun (x : Word × Nat) => (x.2, x.1)
        stackTemps := (t.stackTemps.take 16).zipIdx.map fun (x : Word × Nat) => (x.2, x.1)
        inlet := t.inlet, outlet := t.outlet } }
      let s := (readings t).foldl State.readOne s
      { s with pwr := { s.pwr with limit := BitVec.ofNat 5 (setBits s.pwr.limit.toNat 4 4 (b2n (s.pwr.dies.any fun d => d.2.noRaise))) } }

/-- THERMAL_TRIP: 105 °C for 1 ms, or 110 °C. -/
def execThermalTrip (die : Nat) (t : Word) (s : State) : Out :=
  guarded (decide (die < 5) || (decide (0x10 ≤ die) && decide (die < 0x20))) (if hot t 105 then s.trip die t else s)

/-- THERMAL_K_STEP: 1 ms at 100 °C or more. -/
def execThermalKStep (d : Nat) (s : State) : Out :=
  guarded (d < 4) (if hot (tget 0 s.dic.dieTemps d) 100 then s.updDie d Die.lower else s)

/-! ### THROTTLE_N (R427, R428) -/

/-- The seconds of the present assertion (0x3010:05). -/
def State.heldSeconds (s : State) : Nat := if s.pwr.filtered then (s.tide - s.pwr.throttleAt).toNat / 1000000000 else 0

/-- The state of THROTTLE, and no burst armed while it is set. -/
def State.setThrottle (s : State) (v : BitVec 2) : State :=
  { s with pwr := { s.pwr with throttle := v, armed := s.pwr.armed && v == 0 } }

/-- THROTTLE_CHANGE: the filtered level changes. -/
def execThrottleChange (a : Bool) (s : State) : Out :=
  .next <|
    if !s.mgmtOn || s.pwr.filtered == a then s
    else
      let s := { s with pwr := { s.pwr with filtered := a, throttleAt := s.tide, heldLogged := false } }
      if s.pwr.throttle = 2 then s else s.setThrottle (if a then 1 else 0)

/-- THROTTLE_HELD: 60 s of one assertion. -/
def execThrottleHeld (s : State) : Out :=
  .next <|
    if s.pwr.filtered && !s.pwr.heldLogged then
      ({ s with pwr := { s.pwr with heldLogged := true } }).logEvent Log.throttleHeld 0 60 0
    else s

/-- THROTTLE_CHATTER: more than 10 raw edges in 1 ms. An entry into state 2 is logged at most once in 60 s. -/
def execThrottleChatter (edges : Nat) (s : State) : Out :=
  .next <|
    if edges ≤ 10 || s.pwr.throttle == 2 || !s.mgmtOn then s
    else
      let s := s.setThrottle 2
      let quiet := match s.pwr.chatterAt with
        | none => true
        | some t => decide (60000000000 ≤ (s.tide - t).toNat)
      if quiet then
        ({ s with pwr := { s.pwr with chatterAt := some s.tide } }).logEvent Log.throttleChatter 0 edges 0
      else s

/-- CHATTER_CLEAR. -/
def execChatterClear (s : State) : Out :=
  .next (if s.pwr.throttle = 2 then s.setThrottle (if s.pwr.filtered then 1 else 0) else s)

end Sys2Proof.Machine
end

