-- ==== Sys2Proof/Machine/Domains.lean ====
section
/-!
DEFINITION. The power domains: on, slack and off (14 R431 to R435), and the seeds that a domain's power-up waits for
(05 R151, R152).
-/

namespace Sys2Proof.Machine

/-- The 54 V domains have been powered (15 R439 stage 5): a request can power a domain up. -/
def State.powered (s : State) : Bool := decide (6 ≤ s.boot.stage) && !s.boot.halted && s.pwr.shut.isNone

/-- A domain's request as a register write stores it: 3 is stored as 1. -/
def reqOf (v : BitVec 2) : BitVec 2 := if v = 3 then 1 else v

/-- A domain in slack is woken: SLACK_WAKE counts, and what waited for it proceeds (R432). -/
def State.wake (s : State) (x : Nat) : State :=
  (((s.updDom x fun d => { d with st := .on }).bump Evt.slackWake 1).deliverWaiting x)

/-- REQ written as ON or SLACK (R432, R434). -/
def State.request (s : State) (x : Nat) (req : BitVec 2) : State :=
  match (s.domain x).st with
  | .down => (s.updDom x fun d => { d with req := req, pending := true, pendReq := req }).bump Evt.domainPending 1
  | .off => s.updDom x fun d => { d with req := req, st := if s.powered then .up else .off }
  | .slack =>
    let s := s.updDom x fun d => { d with req := req }
    if req = 1 then s.wake x else s
  | .on => s.updDom x fun d => { d with req := req }
  | .up => s.updDom x fun d => { d with req := req }

/-- REQ written as OFF (R433, R434). -/
def State.requestOff (s : State) (x : Nat) : State :=
  s.updDom x fun d =>
    let d := { d with req := 0, pending := false, pendReq := 0 }
    match d.st with
    | .on => { d with st := .down }
    | .slack => { d with st := .down }
    | .down => d
    | .off => d
    | .up => d

/-- A write of PWR_DOM_CTL_x.REQ. -/
def State.writeReq (s : State) (x : Nat) (v : BitVec 2) : State :=
  let r := reqOf v
  if r = 0 then s.requestOff x else s.request x r

/-- DOMAIN_REQ_ON. -/
def execDomainReqOn (x : Nat) (s : State) : Out := guarded (x < 32) (s.request x 1)

/-- DOMAIN_REQ_SLACK. -/
def execDomainReqSlack (x : Nat) (s : State) : Out := guarded (x < 32) (s.request x 2)

/-- DOMAIN_REQ_OFF. -/
def execDomainReqOff (x : Nat) (s : State) : Out := guarded (x < 32) (s.requestOff x)

/-! ### Slack -/

/-- The state with each domain as a function gives it. -/
def State.withDoms (s : State) (f : Nat → DomState) : State :=
  { s with pwr := { s.pwr with doms := (List.range 32).map fun y => (y, { s.domain y with st := f y }) } }

/-- The state with every domain on. -/
def State.allOn (s : State) : State := s.withDoms fun _ => .on

/-- The state with every domain on but one, which is in slack. -/
def State.onlySlack (s : State) (x : Nat) : State := s.withDoms fun y => if y = x then .slack else .on

/-- The domains of some clusters. -/
def domsOf (cs : List Nat) : List Nat := cs.map clusterDom

/-- The lock domain of the die that owns a LAND's destination (07 R215). -/
def State.landDom (s : State) (d : List Byte) : List Nat :=
  match s.run (translate (s.env 0) ⟨none, s.dp.txGen.toNat⟩ true (addrField d 16)) with
  | some (.ok x, _) => [4 * dieOf x + 3]
  | some (.error _, _) => []
  | none => []

/-- The cluster and lock domains on which a descriptor's operation runs, given its courses with a retained tile; memory aside. A
hand-off runs on the lock units of its output edge's dies (04 R102). -/
def State.runsOn (s : State) (d : List Byte) (hits : Nat) : List Nat :=
  match classOf d with
  | 1 =>
    (coursesOf d (if opcodeOf d = 0x0101 then swCode d else (s.fabric (swBass d)).courses.toNat)).flatMap (fun c =>
      domsOf (courseClusters (swBass d) (s.fabric (swBass d)).courses.toNat c)
        ++ if opcodeOf d = 0x0101 ∧ swOut d = 2 then handLocks (swBass d) (swCode d) c (swReverse d hits c) else [])
  | 2 => lockDoms
  | 3 => match laneOf d with
    | some l => stowDomains (s.lane l) (operOf d == 1)
    | none => []
  | 4 =>
    if 2 ≤ fabricOf d then domsOf serviceClusters
    else domsOf (runClusters d (s.fabric (swBass d)).courses.toNat s.absent)
  | 5 => if isAttend d then domsOf serviceClusters ++ domsOf (fabricClusters (operOf d == 9)) else domsOf serviceClusters
  | 6 => domsOf serviceClusters
  | 7 => domsOf serviceClusters
  | 9 => if operOf d = 1 then s.allOn.landDom d else []
  | 10 => domsOf serviceClusters
  | _ => []

/-- The work of an operation's instance: what its command does now. -/
def State.workStep (s : State) (o : Op) (n : Nat) : Out :=
  match opcodeOf o.desc with
  | 0x0101 => execSweep o.id n s
  | 0x0102 => execRelease o.id s
  | 0x0201 => execConvert o.id s
  | 0x0301 => execPush o.id s
  | 0x0302 => execPop o.id s
  | 0x0303 => execPeek o.id s
  | 0x0304 => execGate o.id s
  | 0x0305 => execClear o.id s
  | 0x0401 => execRun o.id s
  | 0x0501 => execOpenSeq o.id s
  | 0x0502 => execCloseSeq o.id s
  | 0x0503 => execAppend o.id s
  | 0x0504 => execTruncate o.id s
  | 0x0505 => execReserve o.id s
  | 0x0506 => execMatchPrefix o.id s
  | 0x0507 => execPublish o.id s
  | 0x0508 => execAttend o.id s
  | 0x0509 => execAttendGrad o.id s
  | 0x050A => execQuery o.id s
  | 0x0601 => execPut o.id s
  | 0x0602 => execAllreduce o.id s
  | 0x0603 => execFerry o.id s
  | 0x0604 => execRegroup o.id s
  | 0x0701 => execFill o.id s
  | 0x0702 => execSave o.id s
  | 0x0703 => execRestore o.id s
  | 0x0802 => execStorePte o.id s
  | 0x0901 => execLand o.id (.data []) s
  | 0x0902 => execExportShard o.id s
  | 0x0A01 => execSample o.id s
  | 0x0A02 => execCheck o.id s
  | 0x0F03 => execCtxSave o.id s
  | 0x0F04 => execCtxRestore o.id s
  | _ => .next s

/-- The state that an outcome answers. -/
def Out.state (r : Out) (s : State) : State :=
  match r with
  | .next t => t
  | .fault _ => s
  | .refused _ => s

/-- Some effect has to wait for a domain: with every domain on it changes the operations or the Hawser block, and with only that
one in slack it does not. -/
def State.waitsFor (s : State) (x : Nat) (f : State → Out) : Bool :=
  let moved (t : State) : Bool :=
    let u := (f t).state t
    u.ops != t.ops || u.hw != t.hw
  moved s.allOn && !moved (s.onlySlack x)

/-- An instance has work to do. -/
def Inst.live (i : Inst) : Bool :=
  match i.phase with
  | .done => false
  | .running => true
  | .stalled => true

/-- An operation whose work is not done uses a domain: it runs on it, or its work accesses memory in it (R432; DEDUCED of a work that
the model does in one step, log entry 38). -/
def State.opUses (s : State) (o : Op) (x : Nat) : Bool :=
  o.insts.any Inst.live && ((s.runsOn o.desc (o.num Lab.hits)).contains x
    || o.insts.any fun i => i.live && s.waitsFor x fun t => t.workStep o i.n)

/-- The descriptor at the head of a queue waits to dispatch to a domain: its checks need it, or the operation that it starts would use
it. -/
def State.headUses (s : State) (q x : Nat) : Bool :=
  match (s.queue q).next with
  | none => false
  | some h =>
    match s.allOn.launch q h with
    | none => false
    | some t => (s.onlySlack x).launch q h == none || t.ops.any fun o => o.id == s.nextOp && t.opUses o x

/-- A frame that has arrived waits for memory in a domain. -/
def State.frameUses (s : State) (x : Nat) : Bool :=
  s.hw.paths.any fun k => !k.2.staged.isEmpty
    && [execPutFrame, execContribFrame, execStatsFrame, execReadyFrame, execFerryBlock].any fun f => s.waitsFor x (f (k.1 / 16) (k.1 % 16))

/-- A domain is in use: by an operation that runs or that a verdict slot holds, by one that waits to dispatch to it, or by an access that is pending (R432). -/
def State.inUse (s : State) (x : Nat) : Bool :=
  (s.ops.any fun o => s.opUses o x || o.ahead.isSome && (s.runsOn o.desc (o.num Lab.hits)).contains x) || (s.que.any fun k => s.headUses k.1 x) || s.frameUses x
    || s.pci.held.any fun a => (s.accessLines a).any fun l => lineDom l == x

/-- The host domain's state: it is in slack while the function is in D3hot (R431). -/
def State.hostState (s : State) : DomState := if !s.pwr.hostOn then .off else if s.pci.d3hot then .slack else .on

/-- The host domain goes into slack or leaves it with the function's D-state; each transition counts (R432). -/
def State.setD3hot (s : State) (on : Bool) : State :=
  let t := { s with pci := { s.pci with d3hot := on } }
  if s.hostState = .on ∧ t.hostState = .slack then t.bump Evt.slackEntry 1
  else if s.hostState = .slack ∧ t.hostState = .on then t.bump Evt.slackWake 1
  else t

/-- SLACK_ENTRY: a domain whose REQ is SLACK has been idle for IDLE_US. -/
def execSlackEntry (x : Nat) (s : State) : Out :=
  guarded (x < 32) <|
    let d := s.domain x
    if d.req == 2 && d.st == .on && !s.inUse x then (s.updDom x fun d => { d with st := .slack }).bump Evt.slackEntry 1 else s

/-- SLACK_WAKE: a request reaches a domain in slack. -/
def execSlackWake (x : Nat) (s : State) : Out := guarded (x < 32) (if (s.domain x).st = .slack then s.wake x else s)

/-! ### Off and on -/

/-- Something still uses a domain that shuts down: an operation that dispatched before the shutdown began, whose work is not done and
uses it, or marked lines in its berth memory (R433; log entry 38). -/
def State.stillUsed (s : State) (x : Nat) : Bool :=
  (s.ops.any fun o => bit (o.num Lab.usable) x && s.opUses o x) || s.dp.marks.any fun m => lineDom m.1 == x

/-- Power is removed; a pending request then powers the domain up (R434). -/
def Domain.removed (d : Domain) (powered : Bool) : Domain :=
  if d.pending then ⟨d.pendReq, if powered then .up else .off, false, 0⟩ else { d with st := .off }

/-- DOMAIN_POWER_REMOVED. -/
def execDomainPowerRemoved (x : Nat) (s : State) : Out :=
  guarded (x < 32) <|
    if (s.domain x).st == .down && !s.stillUsed x then s.updDom x fun d => d.removed s.powered else s

/-- A cluster domain's power-up takes seeds (05 R149). -/
def needsSeeds (x : Nat) : Bool := decide (x < 16) && x % 4 != 3

/-- DOMAIN_POWERED_UP: a cluster domain waits while ENT_OK is 0 (05 R152). -/
def execDomainPoweredUp (x : Nat) (s : State) : Out :=
  guarded (x < 32) <|
    if (s.domain x).st ≠ .up then s
    else if needsSeeds x && !s.rng.entOk then
      if s.rng.domWait.contains x then s else { s with rng := { s.rng with domWait := s.rng.domWait ++ [x] } }
    else s.comeOn x true

end Sys2Proof.Machine
end

