-- ==== Sys2Proof/Machine/Trust.lean ====
section
/-!
DEFINITION. Signed objects (15 R441, R442), the manifest (R443, R444), repairs and the logical map (R445, R446), measurements
(R453).
-/

namespace Sys2Proof.Machine

/-! ### Signed objects -/

/-- The reasons of 15 R455. -/
abbrev Why.ecdsa : Nat := 1
/-- LMS signature failed. -/
abbrev Why.lms : Nat := 2
/-- Key slot revoked. -/
abbrev Why.revoked : Nat := 3
/-- Security version below counter. -/
abbrev Why.version : Nat := 4
/-- Unit ID mismatch. -/
abbrev Why.unit : Nat := 5
/-- Kind or format not expected. -/
abbrev Why.kind : Nat := 6
/-- Reserved field set or length invalid. -/
abbrev Why.reserved : Nat := 7
/-- Cluster counts. -/
abbrev Why.counts : Nat := 8
/-- Repair entry refused. -/
abbrev Why.repair : Nat := 9
/-- Replay-protected partition check failed. -/
abbrev Why.partition : Nat := 10
/-- Repair area full or sequence not ascending. -/
abbrev Why.area : Nat := 11

/-- The body length. -/
def objBody (o : List Byte) : Nat := field o 4 4
/-- The security version. -/
def objVersion (o : List Byte) : Nat := field o 8 4
/-- The key slot. -/
def objSlot (o : List Byte) : Nat := field o 12 1
/-- Byte i of the body and the len - 1 that follow. -/
def bodyField (o : List Byte) (i len : Nat) : Nat := field o (64 + i) len

/-- Format by kind. -/
def formatOf (kind : Nat) : Nat := if kind = 1 then 2 else 1

/-- The length of an object does not hold together. -/
def objTorn (o : List Byte) : Bool :=
  let b := objBody o
  b % 64 != 0 || decide (16773120 < b) || o.length != 64 + b + 96 + 2668 || decide (3 < objSlot o)
    || (field o 0 2 == 1 && b != 2048) || (field o 0 2 == 5 && b != 64)

/-- The DeviceID public key, from the UDS alone (R452). -/
def deviceKeyOf (uds : BitVec 256) : List Byte := Config.publicKey (natLE 32 uds.toNat)

/-- The unit ID: the first 16 bytes of SHA-384 of the DeviceID public key (R452). -/
def unitId : BitVec 128 := BitVec.ofNat 128 (field (Config.sha384 (deviceKeyOf Config.uds)) 0 16)

/-- An anti-rollback counter (R449). -/
def Boot.counter (b : Boot) (k : Nat) : Word :=
  match b.counters.find? fun x => x.1 == k with
  | some x => x.2
  | none => Config.factoryCounter k

/-- The object loaded at the last module reset. -/
def Boot.runningObj (b : Boot) (kind : Nat) : Option (List Byte) := (b.running.find? fun x => x.1 == kind).map (·.2)

/-- A key slot that the running manifest revokes. -/
def Boot.revokes (b : Boot) (slot : Nat) : Bool :=
  match b.runningObj 1 with
  | some m => bit (bodyField m 28 1) slot
  | none => false

/-- The reasons that reject an object of an expected kind (R442, R450), the zero bytes of a repair record's body among them (R445);
both signatures are always checked. -/
def Boot.objectFaults (b : Boot) (kind : Nat) (o : List Byte) : List Nat :=
  if objTorn o then [Why.reserved]
  else
    let n := 64 + objBody o
    let msg := o.take n
    let unitOk := if kind = 1 ∨ kind = 5 then field o 16 16 = unitId.toNat else field o 16 16 = 0
    (if Config.ecdsaOk (objSlot o) msg (slice o n 96) then [] else [Why.ecdsa])
      ++ (if Config.lmsOk (objSlot o) msg (slice o (n + 96) 2668) then [] else [Why.lms])
      ++ (if b.revokes (objSlot o) then [Why.revoked] else [])
      ++ (if kind ≠ 5 ∧ objVersion o < (b.counter kind).toNat then [Why.version] else [])
      ++ (if unitOk then [] else [Why.unit])
      ++ (if field o 0 2 = kind ∧ field o 2 2 = formatOf kind then [] else [Why.kind])
      ++ (if anySet o 13 3 || anySet o 32 32 || (kind == 5 && anySet o (64 + 20) 44) then [Why.reserved] else [])

/-! ### Repairs and the logical map (R445, R446) -/

/-- What the map is built from: the logical number of each mapped physical cluster, the clusters named as failed, the spare
rows in use. -/
structure MapState where
  map : Tab Nat
  failed : List Nat
  rows : List (Nat × Nat × Nat)
deriving DecidableEq, Repr

/-- The logical number of the i-th enabled cluster of a kind on a die (01 R15). -/
def logicalOf (die kind i : Nat) : Nat :=
  if kind = 0 then 64 * die + i else if kind = 1 then 256 + 128 * die + i else 768 + 8 * die + i

/-- The clusters of a kind on a die: 64, 128, 8. -/
def kindCount (kind : Nat) : Nat := if kind = 0 then 64 else if kind = 1 then 128 else 8

/-- The manifest enables a physical cluster. -/
def enables (m : List Byte) (die i : Nat) : Bool := bit (bodyField m (64 + 26 * die + i / 8) 1) (i % 8)

/-- The enabled physical clusters of a kind on a die, in rising order. -/
def enabledOf (m : List Byte) (die kind : Nat) : List Nat :=
  (List.range 208).filter fun i => physKind i = kind && enables m die i

/-- The map before repairs. -/
def firstMap (m : List Byte) : Tab Nat :=
  (List.range 4).flatMap fun die =>
    ((List.range 3).flatMap fun kind => (enabledOf m die kind).zipIdx.map fun x => (208 * die + x.1, logicalOf die kind x.2)).foldl
      (fun t x => tput t x.1 x.2) []

/-- Applies a repair entry; none where it is refused. -/
def MapState.apply (x : MapState) (e : List Byte) : Option MapState :=
  let kind := field e 0 1
  let where_ := field e 1 1
  let a := field e 2 2
  let b := field e 8 2
  if anySet e 10 6 then none
  else if kind = 3 then
    let row := (where_, a, b)
    if 16 ≤ where_ ∨ 512 ≤ a ∨ 16 ≤ b ∨ x.rows.contains row then none else some { x with rows := row :: x.rows }
  else if 3 < kind ∨ 4 ≤ where_ ∨ 208 ≤ a ∨ 208 ≤ b ∨ anySet e 4 4 then none
  else
    let failed := 208 * where_ + a
    let spare := 208 * where_ + b
    match x.map.find? fun y => y.1 == failed with
    | none => none
    | some (_, n) =>
      if physKind a ≠ kind ∨ physKind b ≠ kind ∨ (x.map.any fun y => y.1 == spare) ∨ x.failed.contains spare then none
      else some { x with map := tput (tdel x.map failed) spare n, failed := failed :: x.failed }

/-- The inline repair entries in use. -/
def inlineEntries (m : List Byte) : List (List Byte) :=
  (List.range (bodyField m 270 1)).map fun i => slice m (64 + 1024 + 16 * i) 16

/-- Applies entries that must all be accepted; the index of the first that is refused, if one is. -/
def applyAll : MapState → List (List Byte) → Nat → Except Nat MapState
  | x, [], _ => .ok x
  | x, e :: es, i =>
    match x.apply e with
    | some y => applyAll y es (i + 1)
    | none => .error i

/-- The map with the inline entries. -/
def manifestMap (m : List Byte) : Except Nat MapState := applyAll ⟨firstMap m, [], []⟩ (inlineEntries m) 0

/-- The sequence number of a repair record. -/
def recordSeq (r : List Byte) : Nat := bodyField r 16 4

/-- The entry of a repair record. -/
def recordEntry (r : List Byte) : List Byte := slice r 64 16

/-- Applies the stored repair records; those whose entry is refused are left out. -/
def applyStored : MapState → List (List Byte) → MapState × List (List Byte) × List (List Byte)
  | x, [] => (x, [], [])
  | x, r :: rs =>
    match x.apply (recordEntry r) with
    | some y =>
      let (z, ok, bad) := applyStored y rs
      (z, r :: ok, bad)
    | none =>
      let (z, ok, bad) := applyStored x rs
      (z, ok, r :: bad)

/-- The spares of a kind on a die: neither enabled nor named as failed. -/
def MapState.sparesOf (x : MapState) (die kind : Nat) : Nat :=
  ((List.range 208).filter fun i =>
    physKind i = kind && !(x.map.any fun y => y.1 == 208 * die + i) && !x.failed.contains (208 * die + i)).length

/-! ### The manifest (R444) -/

/-- A reserved bit of a manifest body is set. -/
def manifestReserved (m : List Byte) : Bool :=
  bits (bodyField m 28 1) 7 4 != 0 || anySet m (64 + 29) 35
    || ((List.range 16).any fun i => bit (bodyField m (168 + 4 * i) 1) 6 || bodyField m (171 + 4 * i) 1 != 0)
    || decide (64 < bodyField m 270 1) || anySet m (64 + 271) 753

/-- The reasons of R444 beyond those of a signed object, with the refused inline entry. -/
def manifestFaults (m : List Byte) : List Nat :=
  (if manifestReserved m then [Why.reserved] else [])
    ++ (if (List.range 4).all fun d => (List.range 3).all fun k => (enabledOf m d k).length = kindCount k then [] else [Why.counts])
    ++ (match manifestMap m with | .ok _ => [] | .error _ => [Why.repair])

/-- The reason that rejects an object, if one does: the lowest (log entry 40). -/
def Boot.rejects (b : Boot) (kind : Nat) (o : List Byte) : Option Nat :=
  let fs := b.objectFaults kind o
  (fs ++ if fs.isEmpty && kind == 1 then manifestFaults o else []).min?

/-- The binding table of a manifest: its valid entries. -/
def manifestBinds (m : List Byte) : List (Nat × Bind) :=
  (List.range 16).filterMap fun i =>
    let x := bodyField m (168 + 4 * i) 4
    if bit x 7 then some (i, ⟨BitVec.ofNat 6 (bits x 5 0), BitVec.ofNat 8 (bits x 15 8), BitVec.ofNat 8 (bits x 23 16)⟩) else none

/-! ### Flash slots (R451) -/

/-- The object in a slot of a kind: 0 A, 1 B. -/
def Boot.slot (b : Boot) (kind slot : Nat) : List Byte :=
  match b.slots.find? fun x => x.1 == 2 * (kind - 1) + slot with
  | some x => x.2
  | none => Config.factorySlot (kind - 1) slot

/-- The active slot of a kind. -/
def Boot.activeSlot (b : Boot) (kind : Nat) : Nat := tget 0 b.active kind

/-! ### Measurements (R453) -/

/-- The logical number of each physical cluster, 0xFFFF when not mapped. -/
def Boot.mapBytes (b : Boot) : List Byte :=
  (List.range 832).flatMap fun pc => natLE 2 (match b.map.find? fun x => x.1 == pc with | some x => x.2 | none => 0xFFFF)

/-- The seven measurements, in order. -/
def Boot.measurements (b : Boot) : List Byte :=
  let obj (k : Nat) : List Byte := Config.sha384 ((b.runningObj k).getD [])
  Config.sha384 Config.bootRom ++ obj 1 ++ obj 3 ++ obj 2 ++ obj 4 ++ Config.sha384 b.mapBytes
    ++ ((List.range 4).flatMap fun k => natLE 4 (b.counter (k + 1)).toNat)

/-! ### Keys and the replay-protected partition (R449, R452) -/

/-- CDI_1, from the UDS and the digests of the manifest and the security-controller object. -/
def Boot.cdiOf (b : Boot) (uds : BitVec 256) : List Byte :=
  let obj (k : Nat) : List Byte := Config.sha384 ((b.runningObj k).getD [])
  Config.hkdf uds (obj 1 ++ obj 3)

/-- The data of the partition with its write count. -/
def Boot.partData (b : Boot) : List Byte :=
  ((List.range 4).flatMap fun k => natLE 4 (b.counter (k + 1)).toNat) ++ natLE 8 b.partWrites

/-- The HMAC over the data and the write count, keyed from the UDS. -/
def Boot.macOf (b : Boot) : List Byte := Config.hmac384 (Config.hkdf Config.uds []) b.partData

/-- The HMAC that flash holds. -/
def Boot.storedMac (b : Boot) : List Byte := b.partMac.getD Config.factoryMac

/-- The partition passes its check. -/
def Boot.partOk (b : Boot) : Bool := b.storedMac == b.macOf

/-- The security controller writes a counter: the write count goes up, and a new HMAC is stored. -/
def Boot.writeCounter (b : Boot) (k : Nat) (v : Word) : Boot :=
  let b := { b with counters := tput b.counters k v, partWrites := b.partWrites + 1 }
  { b with partMac := some b.macOf }

end Sys2Proof.Machine
end

