-- ==== Sys2Proof/Machine/Boot.lean ====
section
/-!
DEFINITION. Module reset, boot stages and halts (15 R437 to R440, R447, R450 to R452), and the loss of the management domain's
power (01 R25).
-/

namespace Sys2Proof.Machine

/-! ### Halts (R440) -/

/-- Every 54 V domain is off but the stack domains that are on. -/
def State.domainsOff (s : State) : State :=
  { s with pwr := { s.pwr with
    doms := (List.range 32).map fun x =>
      (x, if 16 ≤ x ∧ ((s.domain x).st = .on ∨ (s.domain x).st = .slack) then s.domain x else { s.domain x with st := .off })
    meshOn := false, hostOn := false } }

/-- The module halts at its stage, with a reason. -/
def State.halt (s : State) (reason : Nat) : State :=
  let s := { s with boot := { s.boot with halted := true, reason := reason } }
  s.domainsOff.logEvent Log.bootHalt 0 s.boot.stage reason

/-- BOOT_HALT: a stage cannot complete. -/
def execBootHalt (reason : Nat) (s : State) : Out :=
  .next (if s.boot.halted || decide (7 ≤ s.boot.stage) || !s.mgmtOn then s else s.halt reason)

/-! ### Loading objects (R451) -/

/-- The object of a kind that boot loads: from the active slot, or from the other one, which is logged. -/
def State.loadObject (s : State) (kind : Nat) : State × Except Nat (List Byte) :=
  let a := s.boot.activeSlot kind
  let o := s.boot.slot kind a
  match s.boot.rejects kind o with
  | none => (s, .ok o)
  | some _ =>
    let s := s.logEvent Log.slotFallback 0 kind a
    let p := s.boot.slot kind (1 - a)
    match s.boot.rejects kind p with
    | none => (s, .ok p)
    | some why => (s, .error why)

/-- The object runs from now on. -/
def State.runObject (s : State) (kind : Nat) (o : List Byte) : State :=
  { s with boot := { s.boot with running := tput s.boot.running kind o } }

/-- The module proceeds to a stage. -/
def State.toStage (s : State) (n : Nat) : State := { s with boot := { s.boot with stage := n } }

/-- Loads an object and goes on, or halts. -/
def State.loadStage (s : State) (kind : Nat) (f : State → List Byte → State) : State :=
  match s.loadObject kind with
  | (s, .ok o) => f (s.runObject kind o) o
  | (s, .error why) => s.halt why

/-! ### The work of the stages (R439) -/

/-- Stage 2: what the manifest fixes. -/
def State.useManifest (s : State) (m : List Byte) : State :=
  { s with boot := { s.boot with
    serial := (slice m 64 16).takeWhile (· != 0)
    mgmtMac := BitVec.ofNat 48 (bodyField m 16 6)
    hwMac := BitVec.ofNat 48 (bodyField m 22 6)
    quayMv := BitVec.ofNat 16 (bodyField m 232 2)
    calibration := (List.range 8).map fun i => BitVec.ofNat 32 (bodyField m (238 + 4 * i) 4) } }

/-- A refused inline repair entry of a manifest that verifies is logged (R455). -/
def State.logInline (s : State) (m : List Byte) : State :=
  if !(s.boot.objectFaults 1 m).isEmpty then s
  else match manifestMap m with
    | .ok _ => s
    | .error i => s.logEvent Log.repairRejected 0 (0x10000 + i) Why.repair

/-- The inline entries of the manifests that boot looks at. -/
def State.logManifests (s : State) : State :=
  let a := s.boot.activeSlot 1
  let m := s.boot.slot 1 a
  let t := s.logInline m
  if (s.boot.rejects 1 m).isSome then t.logInline (s.boot.slot 1 (1 - a)) else t

/-- A die's root locks at P0, at a voltage with margin (14 R424). -/
def State.lockRoot (s : State) (d : Nat) : State :=
  s.updDie d fun x => { x with mv := BitVec.ofNat 16 (s.marginMv d 0) }

/-- The lock and cluster domains come on (R439). Their strings are seeded at stage 6 as R149 says for a module reset: this first
power-up counts no string reseed (DEDUCED, log entry 67). -/
def State.clustersOn (s : State) : State := (List.range 16).foldl (fun s x => s.comeOn x false) s

/-- The mesh and host domains are on; the voltages' free value is used up. -/
def State.meshUp (s : State) : State :=
  { s with pwr := { s.pwr with meshOn := true, hostOn := true }, dp := { s.dp with free := s.dp.free + 1 } }

/-- Stage 5: mesh, lock, cluster and host domains come on; every root locks at P0, with the manifest's trims. -/
def State.powerStage (s : State) : State := ((List.range 4).foldl State.lockRoot s.clustersOn).meshUp

/-- Stage 6: the stacks that are off come on. -/
def State.stackStage (s : State) : State :=
  (List.range 16).foldl (fun s x => if (s.domain (16 + x)).st = .on then s else s.comeOn (16 + x) false) s

/-- Logs an applied repair entry. -/
def State.logApplied (s : State) (e : List Byte) : State := s.logEvent Log.repairApplied 0 (field e 0 8) (field e 8 8)

/-- Stage 6: repair records applied, the logical map and the spares fixed, failed clusters absent. -/
def State.mapStage (s : State) (bad : List Nat) : State :=
  let m := (s.boot.runningObj 1).getD []
  match manifestMap m with
  | .error _ => s
  | .ok x =>
    let (y, done, refused) := applyStored x s.boot.repairs
    let s := (inlineEntries m).foldl State.logApplied s
    let s := done.foldl (fun s r => s.logApplied (recordEntry r)) s
    let s := refused.foldl (fun s r => s.logEvent Log.repairRejected 0 (recordSeq r) Why.repair) s
    let hit := y.map.filter fun z => bad.contains z.1
    let s := hit.foldl (fun s z => s.logEvent Log.clusterBistFail 0 (2 ^ 16 * (z.1 / 208) + z.1 % 208) z.2) s
    { s with
      boot := { s.boot with
        map := y.map, absent := hit.map (·.2), applied := s.boot.repairs.length
        spares := (List.range 12).map fun i => (i, y.sparesOf (i / 3) (i % 3)) }
      dic := { s.dic with repairPending := 0 } }

/-- Stage 6: the free-running state is seeded, unless it is already or its wait has ended, and the prefix key is drawn
(log entry 41). -/
def State.seedStage (s : State) : State :=
  if s.rng.entOk && !s.rng.gaveUp then
    let r := if s.rng.seeded then s.rng else s.rng.reseed
    let (k, r) := r.draw
    { s with rng := r, seq := { s.seq with key := k } }
  else s

/-- Raises the anti-rollback counters to the versions of the running objects (R450). -/
def State.raiseCounters (s : State) : State :=
  [1, 2, 3, 4].foldl (fun s k =>
    match s.boot.runningObj k with
    | none => s
    | some o =>
      if (s.boot.counter k).toNat < objVersion o then
        ({ s with boot := s.boot.writeCounter k (BitVec.ofNat 32 (objVersion o)) }).logEvent Log.rollbackRaised 0 k (objVersion o)
      else s) s

/-- Stage 7: PWR_OK, and the counters' raise, which the inhibit delays (14 R414). -/
def State.readyStage (s : State) : State :=
  let s := s.toStage 7
  let s := { s with pwr := { s.pwr with pwrOk := s.pwr.in54 } }
  if s.pwr.nvInhibit then { s with boot := { s.boot with raiseDue := true } } else s.raiseCounters

/-- The 54 V domains can be powered. -/
def State.inputGood (s : State) : Bool := s.pwr.in54 && !s.pwr.inputOpen && s.pwr.ref && s.pwr.shut.isNone

/-- Stage 6 waits for seeds (05 R149, R152). -/
def State.waitsSeeds (s : State) : Bool := !s.rng.entOk && !s.rng.seeded && !s.rng.gaveUp

/-- Stage 1: the UDS and the DeviceID key (R452). -/
def State.identityStage (s : State) : State :=
  { s with boot := { s.boot with uds := some Config.uds, deviceKey := deviceKeyOf Config.uds } }

/-- Stage 3: CDI_1 and the alias key (R452). -/
def State.aliasStage (s : State) : State :=
  let cdi := s.boot.cdiOf Config.uds
  { s with boot := { s.boot with cdi := cdi, aliasKey := Config.publicKey cdi } }

/-- The DeviceID key signs the alias certificate once the boot has every measurement that it carries (R452; log entry 22). -/
def State.signChain (s : State) : State :=
  { s with boot := { s.boot with chain := Config.certificateChain s.boot.deviceKey s.boot.aliasKey s.boot.measurements } }

/-- Stage 6. -/
def State.fabricStage (s : State) (bad : List Nat) : State :=
  if s.waitsSeeds then { s with rng := { s.rng with seedWait := true } }
  else s.loadStage 4 fun s _ => (((s.stackStage.mapStage bad).signChain.seedStage).readyStage)

/-- A stage finishes its work, and the module proceeds. -/
def State.stageDone (s : State) (b : BootFindings) : State :=
  match s.boot.stage with
  | 0 => if s.pwr.modRst then s else s.toStage 1
  | 1 => if b.pufOk then s.identityStage.toStage 2 else (s.logEvent Log.pufFail 0 0 0).halt 0
  | 2 =>
    if s.boot.partOk then s.logManifests.loadStage 1 fun s m => (s.useManifest m).toStage 3
    else s.halt Why.partition
  | 3 => s.loadStage 3 fun s _ => (s.aliasStage.bindChannels (manifestBinds ((s.boot.runningObj 1).getD []))).toStage 4
  | 4 => s.loadStage 2 fun s _ => s.toStage 5
  | 5 => if s.inputGood then s.powerStage.toStage 6 else s
  | 6 => if s.inputGood then s.fabricStage b.badClusters else s
  | _ => s

/-- BOOT_STAGE_COMPLETE. -/
def execBootStageComplete (b : BootFindings) (s : State) : Out :=
  .next (if s.boot.halted || !s.mgmtOn then s else s.stageDone b)

/-! ### Resets (R437) -/

/-- The dictionary agent at a power-up: what its flash holds (13 R401). -/
def Dic.cold (d : Dic) : Dic :=
  { Dic.reset with
    cfg := d.stored, stored := d.stored, counts := d.countsFlash, countsFlash := d.countsFlash
    eInFlash := d.eInFlash, eAuxFlash := d.eAuxFlash, repairPending := d.repairPending
    meters := { Meters.reset with eIn := d.eInFlash, eAux := d.eAuxFlash } }

/-- The module without power, or right after its return: what flash holds, and the model's own records. -/
def State.cold (s : State) : State :=
  let dic := s.dic.cold
  { State.reset with
    pending := s.pending
    dp := { Data.reset with
      log := s.dp.log, logCount := s.dp.logCount, logLost := s.dp.logLost, ackedTo := dic.cfg.logAck, mgmtOut := s.dp.mgmtOut
      transfers := s.dp.transfers, free := s.dp.free }
    nextOp := s.nextOp
    out := s.out
    rng := s.rng.moduleReset
    hw := { Hw.reset with tx := s.hw.tx }
    mbx := { Mbx.reset with events := s.mbx.events }
    dic := dic
    pwr := { Pwr.reset with capInUse := dic.capTarget }
    boot := { Boot.reset with
      slots := s.boot.slots, active := s.boot.active, counters := s.boot.counters, repairs := s.boot.repairs
      partWrites := s.boot.partWrites, partMac := s.boot.partMac } }

/-- A power-up of the management domain, logged as a dropout that nobody saw end (13 R402, R409). -/
def State.powerUp (s : State) : State :=
  (((s.cold.countSupply 2).countSupply 8).lastEvent 2 0 noEnd 0).logEvent Log.supplyEvent 0 2 noEnd.toNat

/-- MODULE_RESET. -/
def execModuleReset (c : ResetCause) (s : State) : Out :=
  .next <| match c with
    | .powerUp => s.powerUp
    | .modRstN => ({ s with pwr := { s.pwr with modRst := true } }).moduleReset
    | .restart => if s.mayRestart then s.restart else s

/-- MOD_RST_N_RELEASE. -/
def execModRstNRelease (s : State) : Out := .next { s with pwr := { s.pwr with modRst := false } }

/-- MANAGEMENT_POWER_LOSS: neither input is in range. -/
def execManagementPowerLoss (s : State) : Out :=
  let s := s.cold
  .next { s with pwr := { s.pwr with in54 := false, in12 := false } }

end Sys2Proof.Machine
end

