-- ==== Sys2Proof/Machine/Catalogue.lean ====
section
/-!
DEFINITION. The object dictionary's catalogue (13 R395 to R397, R412): which entries there are, their types and access, and the
values that they read as.
-/

namespace Sys2Proof.Machine

/-- The types of R395. -/
inductive Ty where
  | bool
  | u8
  | u16
  | u32
  | u64
  | f32
  | str
  | domain
deriving DecidableEq, Repr

/-- The mirror code of a type. -/
def Ty.code : Ty → Nat
  | .bool => 0
  | .u8 => 1
  | .u16 => 2
  | .u32 => 3
  | .u64 => 4
  | .f32 => 9
  | .str => 10
  | .domain => 11

/-- The data bytes of a type of fixed size. -/
def Ty.size : Ty → Option Nat
  | .bool => some 1
  | .u8 => some 1
  | .u16 => some 2
  | .u32 => some 4
  | .u64 => some 8
  | .f32 => some 4
  | .str => none
  | .domain => none

/-- The access classes of R397. -/
inductive Access where
  | ro
  | rw
  | rws
  | wo
deriving DecidableEq, Repr

/-- The Hawser port of an index in 0x5010 to 0x501F. -/
def portIndex (i : Nat) : Option Nat := if 0x5010 ≤ i ∧ i < 0x5020 then some (i - 0x5010) else none

/-- The log slot of an index in 0x6100 to 0x61FF. -/
def slotIndex (i : Nat) : Option Nat := if 0x6100 ≤ i ∧ i < 0x6200 then some (i - 0x6100) else none

/-- The highest subindex of an index, for the indices of the catalogue. -/
def highestSub (i : Nat) : Option Nat :=
  if (portIndex i).isSome then some 0x10
  else if (slotIndex i).isSome then some 6
  else ([(0x1000, 0x0C), (0x1001, 5), (0x1002, 5), (0x1003, 3), (0x1010, 0x10), (0x2000, 0x0D), (0x2001, 8), (0x2002, 3),
      (0x2003, 4), (0x3000, 5), (0x3001, 0x10), (0x3002, 2), (0x3003, 1), (0x3010, 6), (0x3011, 4), (0x3012, 4), (0x3013, 5),
      (0x4000, 3), (0x4001, 4), (0x4002, 3), (0x4003, 4), (0x4004, 1), (0x5000, 0x0D), (0x5001, 0x10), (0x5002, 0x10),
      (0x6000, 3), (0x7000, 6)].find? fun e => e.1 == i).map (·.2)

/-- Type and access of subindex s, at least 1, of an index that has it. -/
def entryKind (i s : Nat) : Ty × Access :=
  if (portIndex i).isSome then
    (if s = 1 then .u8 else if s = 2 then .bool else if s ≤ 4 then .u64 else if s ≤ 8 then .f32 else .u32, .ro)
  else if (slotIndex i).isSome then
    (if s = 2 then .u16 else if s = 3 ∨ s = 4 then .u8 else .u64, .ro)
  else match i with
    | 0x1000 => (if s ≤ 7 then .str else if s = 8 then .u32 else if s = 9 then .u16 else .u64, .ro)
    | 0x1001 => (.u8, .rws)
    | 0x1002 => (if s = 1 ∨ s = 5 then .u64 else .u32, if s = 5 then .rws else .ro)
    | 0x1003 => (.u8, if s = 2 then .ro else .wo)
    | 0x1010 => (.u8, .rw)
    | 0x2000 => if s = 0x0D then (.u8, .wo) else (if s = 5 ∨ s = 9 then .u64 else .f32, .ro)
    | 0x2001 => (.u32, .ro)
    | 0x2002 => (.f32, .rws)
    | 0x2003 => (if s = 1 then .u8 else if s = 4 then .f32 else .u64, .ro)
    | 0x3000 => (.f32, .ro)
    | 0x3001 => (.f32, .ro)
    | 0x3002 => (.f32, .ro)
    | 0x3003 => (.f32, .rws)
    | 0x3010 =>
      if s = 1 ∨ s = 3 then (.f32, .rws) else if s = 2 then (.bool, .rws) else if s = 4 then (.u8, .ro)
      else if s = 5 then (.u32, .ro) else (.bool, .ro)
    | 0x3011 => (.u8, .ro)
    | 0x3012 => (.u16, .ro)
    | 0x3013 => (.u16, .ro)
    | 0x4000 => (if s = 1 then .u32 else if s = 2 then .str else .u8, .ro)
    | 0x4001 => (.u32, .ro)
    | 0x4002 => if s = 1 then (.domain, .wo) else (.u8, .ro)
    | 0x4003 => (.u16, .ro)
    | 0x4004 => (.domain, .ro)
    | 0x5000 => (.u64, .ro)
    | 0x5001 => (.u8, .ro)
    | 0x5002 => (.u64, .ro)
    | 0x6000 => (.u32, if s = 3 then .rws else .ro)
    | _ =>
      if s = 1 then (.domain, .wo) else if s = 2 then (.u8, .rws) else if s = 4 then (.u8, .wo)
      else if s = 5 then (.u32, .ro) else (.u8, .ro)

/-- An entry of the catalogue. Subindex 0 is a U8, ro. -/
def entryOf (i s : Nat) : Option (Ty × Access) :=
  match highestSub i with
  | none => none
  | some n => if s = 0 then some (.u8, .ro) else if s ≤ n then some (entryKind i s) else none

/-! ### Values -/

/-- The bytes of an ASCII text. -/
def ascii (t : String) : List Byte := t.toList.map fun c => BitVec.ofNat 8 c.toNat

/-- A lowercase hexadecimal digit. -/
def hexDigit (n : Nat) : Byte := BitVec.ofNat 8 (if n < 10 then 48 + n else 87 + n)

/-- Bytes in lowercase hexadecimal. -/
def hexText (bs : List Byte) : List Byte := bs.flatMap fun b => [hexDigit (b.toNat / 16), hexDigit (b.toNat % 16)]

/-- The running manifest. -/
def Boot.manifest (b : Boot) : List Byte := (b.runningObj 1).getD []

/-- The stage reached (15 R439, R440). -/
def Boot.stageByte (b : Boot) : Nat := if b.halted then 0x80 + b.stage else b.stage

/-- 0x1000. -/
def State.identity (s : State) (k : Nat) : List Byte :=
  match k with
  | 1 => ascii "Onauno"
  | 2 => ascii "PTD-K840"
  | 3 => ascii "B0"
  | 4 => s.boot.serial
  | 5 => ascii "A2"
  | 6 => ascii "A1"
  | 7 => ascii "A1"
  | 8 => natLE 4 (0x30000 + (Config.firmwareMinor ((s.boot.runningObj 2).getD [])).toNat)
  | 9 => natLE 2 2
  | 10 => natLE 8 s.boot.mgmtMac.toNat
  | 11 => natLE 8 s.boot.hwMac.toNat
  | _ => natLE 8 s.tide.toNat

/-- A meter of 0x2000. -/
def Meters.entry (m : Meters) (k : Nat) : List Byte :=
  match k with
  | 1 => natLE 4 m.vIn.toNat
  | 2 => natLE 4 m.iIn.toNat
  | 3 => natLE 4 m.pIn.toNat
  | 4 => natLE 4 m.pIn1s.toNat
  | 5 => natLE 8 m.eIn.toNat
  | 6 => natLE 4 m.vAux.toNat
  | 7 => natLE 4 m.iAux.toNat
  | 8 => natLE 4 m.pAux.toNat
  | 9 => natLE 8 m.eAux.toNat
  | 10 => natLE 4 m.vMin.toNat
  | 11 => natLE 4 m.vMax.toNat
  | _ => natLE 4 m.pPeak.toNat

/-- An entry of 0x5010 + p. Transmit coefficients stay what the last training made them (10 R309). -/
def State.portEntry (s : State) (p k : Nat) : List Byte :=
  let x := s.port p
  let r := (Config.laneReading (if 13 ≤ k then x.trainings else s.dp.free) p k).toNat
  if k = 1 then natLE 1 x.st.code
  else if k = 2 then natLE 1 (b2n x.degraded)
  else if k = 3 then natLE 8 x.corrected.toNat
  else if k = 4 then natLE 8 x.uncorrectable.toNat
  else if k ≤ 8 then natLE 4 r
  else if k ≤ 12 then natLE 4 (r % 2 ^ 16)
  else natLE 4 (r % 2 ^ 24)

/-- A field of a log slot; a slot not yet written reads as zeros (log entry 14). -/
def Data.logEntry (d : Data) (n k : Nat) : List Byte :=
  let r := tget ⟨0, 0, 0, 0, 0, 0⟩ d.log n
  match k with
  | 1 => natLE 8 r.tide.toNat
  | 2 => natLE 2 r.code.toNat
  | 3 => [r.severity]
  | 4 => [r.source]
  | 5 => natLE 8 r.d0.toNat
  | _ => natLE 8 r.d1.toNat

/-- 0x3010. -/
def State.capEntry (s : State) (k : Nat) : List Byte :=
  match k with
  | 1 => natLE 4 s.dic.cfg.powerCap.toNat
  | 2 => natLE 1 (b2n s.dic.cfg.capEnable)
  | 3 => natLE 4 s.dic.cfg.throttleCap.toNat
  | 4 => natLE 1 s.pwr.throttle.toNat
  | 5 => natLE 4 s.heldSeconds
  | _ => natLE 1 (b2n s.dic.capPending)

/-- The bytes received of an image (0x7000:05). -/
def Dic.received (d : Dic) : Nat :=
  match d.fwXfer with
  | some x => x.data.length
  | none => d.image.length

/-- 0x4000 to 0x4004. -/
def State.trustEntry (s : State) (i k : Nat) : List Byte :=
  match i, k with
  | 0x4000, 1 => natLE 4 (objVersion s.boot.manifest)
  | 0x4000, 2 => hexText (slice (Config.sha384 s.boot.manifest) 0 32)
  | 0x4000, _ => natLE 1 s.boot.stageByte
  | 0x4001, k => natLE 4 (s.boot.counter k).toNat
  | 0x4002, 2 => [s.dic.repairPending]
  | 0x4002, _ => [s.dic.repairStatus]
  | 0x4003, k =>
    let n (kind : Nat) : Nat := tget 0 s.boot.spares (3 * (k - 1) + kind)
    natLE 2 (n 0 + at_ 4 (n 1) + at_ 8 (n 2))
  | _, _ => s.boot.chain

/-- The value of subindex k, at least 1, of an index, for an entry that can be read. -/
def State.entryValue (s : State) (i k : Nat) : List Byte :=
  let c := s.dic.cfg
  match portIndex i, slotIndex i with
  | some p, _ => s.portEntry p k
  | _, some n => s.dp.logEntry n k
  | none, none =>
    match i with
    | 0x1000 => s.identity k
    | 0x1001 => [([c.plcaNode, c.plcaCount, c.plcaBurst, c.plcaTimer, c.plcaTo].getD (k - 1) 0)]
    | 0x1002 =>
      if k = 1 then natLE 8 s.dic.lastWriter.toNat else if k = 2 then natLE 4 s.dic.writerChanges.toNat
      else if k = 3 then natLE 4 s.dic.answered.toNat else if k = 4 then natLE 4 s.dic.discarded.toNat
      else natLE 8 c.notifyDest.toNat
    | 0x1003 => [s.dic.storeStatus]
    | 0x1010 => [tget 0 c.portModes (k - 1)]
    | 0x2000 => s.dic.meters.entry k
    | 0x2001 => natLE 4 (tget 0 s.dic.counts k).toNat
    | 0x2002 => natLE 4 (if k = 1 then c.dipV else if k = 2 then c.swellV else c.rippleVpp).toNat
    | 0x2003 =>
      if k = 1 then [s.dic.evType] else if k = 2 then natLE 8 s.dic.evStart.toNat else if k = 3 then natLE 8 s.dic.evDur.toNat
      else natLE 4 s.dic.evExt.toNat
    | 0x3000 => natLE 4 (tget 0 s.dic.dieTemps (k - 1)).toNat
    | 0x3001 => natLE 4 (tget 0 s.dic.stackTemps (k - 1)).toNat
    | 0x3002 => natLE 4 (if k = 1 then s.dic.inlet else s.dic.outlet).toNat
    | 0x3003 => natLE 4 c.alarm.toNat
    | 0x3010 => s.capEntry k
    | 0x3011 => natLE 1 (s.die (k - 1)).k.toNat
    | 0x3012 => natLE 2 (pointMHz (s.die (k - 1)).point.toNat)
    | 0x3013 => natLE 2 (if k = 5 then s.boot.quayMv else (s.die (k - 1)).mv).toNat
    | 0x5000 => natLE 8 (bitsWord 64 fun b => !s.absent (64 * (k - 1) + b))
    | 0x5001 => natLE 1 (s.stackCode (k - 1))
    | 0x5002 => natLE 8 (tget 0 s.dp.stackCe (k - 1)).toNat
    | 0x6000 => natLE 4 (if k = 1 then s.dp.logCount else if k = 2 then s.dp.logLost else c.logAck).toNat
    | 0x7000 =>
      if k = 2 then [s.dic.target] else if k = 3 then [s.dic.fwStatus] else if k = 5 then natLE 4 s.dic.received
      else [s.dic.fwResult]
    | _ => s.trustEntry i k

/-- The value of an entry; none where it does not exist or cannot be read. -/
def State.dictValue (s : State) (i k : Nat) : Option (List Byte) :=
  match entryOf i k, highestSub i with
  | some (_, .wo), _ => none
  | some _, some n => some (if k = 0 then natLE 1 n else s.entryValue i k)
  | _, _ => none

/-- A read of an entry whose value is a measurement outside the model draws a new one. -/
def State.noteRead (s : State) (i k : Nat) : State :=
  if (portIndex i).isSome && decide (5 ≤ k) && decide (k < 13) then { s with dp := { s.dp with free := s.dp.free + 1 } } else s

/-! ### The alert (R411) -/

/-- The record count that a slot's record brought LOG_COUNT to. -/
def Data.slotCount (d : Data) (n : Nat) : Nat :=
  let c := d.logCount.toNat
  c - (c + 255 - n) % 256

/-- The log holds an unacknowledged record of severity 2. -/
def Data.alarmed (d : Data) : Bool := d.log.any fun r => r.2.severity == 2 && decide (d.ackedTo.toNat < d.slotCount r.1)

/-- ALERT_N is asserted; it is driven from the management domain (17 R474). -/
def State.alert (s : State) : Bool := s.mgmtOn && s.dp.alarmed

end Sys2Proof.Machine
end

