-- ==== Sys2Proof/Machine/Dictionary.lean ====
section
/-!
DEFINITION. The dictionary agent (13 R388 to R406, R411, R412): frames, reads, writes, commands and transfers.
-/

namespace Sys2Proof.Machine

/-! ### Abort codes (R398) -/

/-- BAD_FRAME. -/
abbrev Abort.badFrame : Nat := 1
/-- NO_ENTRY. -/
abbrev Abort.noEntry : Nat := 2
/-- NO_SUBINDEX. -/
abbrev Abort.noSub : Nat := 3
/-- READ_ONLY. -/
abbrev Abort.readOnly : Nat := 4
/-- WRITE_ONLY. -/
abbrev Abort.writeOnly : Nat := 5
/-- TYPE_LENGTH. -/
abbrev Abort.typeLength : Nat := 6
/-- RANGE. -/
abbrev Abort.range : Nat := 7
/-- NOT_IDLE. -/
abbrev Abort.notIdle : Nat := 8
/-- BUSY. -/
abbrev Abort.busy : Nat := 9
/-- BAD_SEQ. -/
abbrev Abort.badSeq : Nat := 10
/-- TIMEOUT. -/
abbrev Abort.timeout : Nat := 11
/-- REJECTED. -/
abbrev Abort.rejected : Nat := 12

/-! ### Frames (R390, R391) -/

/-- The broadcast address. -/
abbrev broadcastMac : BitVec 48 := 0xFFFFFFFFFFFF

/-- The port accepts a frame. -/
def State.acceptsFrame (s : State) (f : MgmtFrame) : Bool :=
  (f.dst == s.boot.mgmtMac || f.dst == broadcastMac) && f.etherType == 0x88B5 && !f.tagged

/-- A frame has a nonzero reserved field or an unknown version (R394). -/
def badHeader (f : MgmtFrame) : Bool := f.reservedSet || bits f.flags.toNat 7 2 != 0 || f.version != 1

/-- A service of the table "PDU header". -/
def knownService (v : Byte) : Bool := v == 1 || v == 2 || v == 3 || v == 4 || v == 7

/-- The response to a frame. -/
def State.responseTo (s : State) (f : MgmtFrame) (status : Nat) (data : List Byte) : MgmtFrame :=
  { dst := f.src, src := s.boot.mgmtMac, etherType := 0x88B5, tagged := false, version := 1, service := f.service + 1
    tid := f.tid, index := f.index, sub := f.sub, status := BitVec.ofNat 8 status, offset := f.offset, flags := 0, total := 0
    reservedSet := false, length := data.length, data := data }

/-- Sends a frame. -/
def State.sendFrame (s : State) (f : MgmtFrame) : State := { s with dp := { s.dp with mgmtOut := f :: s.dp.mgmtOut } }

/-- Answers a request; the answer is kept for a retry (R393). -/
def State.answer (s : State) (f : MgmtFrame) (status : Nat) (data : List Byte) : State :=
  let r := s.responseTo f status data
  let s := s.sendFrame r
  { s with dic := { s.dic with
    answered := s.dic.answered + 1
    recent := (Answered.mk f.src f.tid s.tide r :: s.dic.recent).take 8 } }

/-- A frame that the port discards counts in 0x1002:04. -/
def State.discardFrame (s : State) : State := { s with dic := { s.dic with discarded := s.dic.discarded + 1 } }

/-- The stored response of a request answered within the past second. -/
def State.retryOf (s : State) (f : MgmtFrame) : Option MgmtFrame :=
  (s.dic.recent.find? fun a => a.src == f.src && a.tid == f.tid && decide ((s.tide - a.tide).toNat ≤ 1000000000)).map (·.response)

/-! ### Reads (R392, R399) -/

/-- The lowest of some codes, with the codes that apply. -/
def lowest (cs : List (Bool × Nat)) : Nat := (((cs.filter (·.1)).map (·.2)).min?).getD 0

/-- The status of a read. -/
def State.readStatus (s : State) (f : MgmtFrame) : Nat :=
  let i := f.index.toNat
  let k := f.sub.toNat
  let e := entryOf i k
  lowest
    [(badHeader f, Abort.badFrame), ((highestSub i).isNone, Abort.noEntry), ((highestSub i).isSome && e.isNone, Abort.noSub),
      ((match e with | some (_, a) => a == .wo | none => false), Abort.writeOnly),
      ((match e with | some (t, _) => t == .domain && decide (((s.dictValue i k).getD []).length ≤ f.offset.toNat) | none => false),
        Abort.typeLength)]

/-- The data of a read: a DOMAIN is read in parts. -/
def State.readData (s : State) (f : MgmtFrame) : List Byte :=
  let v := (s.dictValue f.index.toNat f.sub.toNat).getD []
  match entryOf f.index.toNat f.sub.toNat with
  | some (.domain, _) => (v.drop f.offset.toNat).take (min f.length 1024)
  | _ => v

/-- A READ_REQ addressed to the module. -/
def State.read (s : State) (f : MgmtFrame) : State :=
  let st := s.readStatus f
  let s' := s.answer f st (if st = 0 then s.readData f else [])
  if st = 0 then s'.noteRead f.index.toNat f.sub.toNat else s'

/-- A broadcast READ_REQ is answered, later, when it names an entry in 0x1000 to 0x10FF. -/
def State.broadcastRead (s : State) (f : MgmtFrame) : State :=
  let i := f.index.toNat
  if 0x1000 ≤ i ∧ i ≤ 0x10FF ∧ (entryOf i f.sub.toNat).isSome then
    { s with dic := { s.dic with broadcast := s.dic.broadcast ++ [f] } }
  else s

/-! ### Writers (R403) -/

/-- A write that was applied: its source. -/
def State.wrote (s : State) (src : BitVec 48) : State :=
  let old := s.dic.lastWriter
  if src = old then s
  else
    let s := { s with dic := { s.dic with lastWriter := src, writerChanges := s.dic.writerChanges + 1 } }
    let due := match s.dic.secondAt with
      | none => true
      | some t => decide (60000000000 ≤ (s.tide - t).toNat)
    if due then ({ s with dic := { s.dic with secondAt := some s.tide } }).logEvent Log.secondWriter 0 src.toNat old.toNat
    else s

/-! ### Scalar entries -/

/-- The module is running (R397). -/
def State.isRunning (s : State) : Bool := (s.que.any fun q => q.2.enable) || !s.ops.isEmpty

/-- A write comes before the harbourmaster firmware runs (15 R438, R440). -/
def State.notServed (s : State) (i : Nat) : Bool := decide (s.boot.stage ≤ 4) && !(s.boot.halted && i == 0x7000)

/-- A binary32 word clamped into a range. -/
def clampF (w : Word) (lo hi : Word) : Word := minW (maxW w lo) hi

/-- The range of a clamped entry: DIP_V, SWELL_V, RIPPLE_VPP, the alarm, the caps. -/
def clampOf (i k : Nat) : Option (Word × Word) :=
  match i, k with
  | 0x2002, 1 => some (0x42300000, 0x42500000)
  | 0x2002, 2 => some (0x42600000, 0x42800000)
  | 0x2002, 3 => some (0x3F000000, 0x41000000)
  | 0x3003, 1 => some (0x428C0000, 0x42D00000)
  | 0x3010, 1 => some (0x43FA0000, 0x451C4000)
  | 0x3010, 3 => some (0x43FA0000, 0x451C4000)
  | _, _ => none

/-- A value outside an entry's range where no clamp is stated; a NaN has no clamp (log entry 42). -/
def outOfRange (i k v : Nat) : Bool :=
  match i, k with
  | 0x1001, 1 => v == 0
  | 0x1001, 2 => v == 0
  | 0x1001, 5 => v == 0
  | 0x1002, 5 => decide (2 ^ 48 ≤ v)
  | 0x1003, _ => v != 0xA5
  | 0x1010, _ => decide (1 < v)
  | 0x2000, _ => v != 0xA5
  | 0x3010, 2 => decide (1 < v)
  | 0x7000, 2 => decide (3 < v)
  | 0x7000, 4 => v != 0xA5
  | i, k => (clampOf i k).isSome && (decode32 v).isNaN

/-- An entry's own reason to be BUSY (R405, R406). -/
def State.entryBusy (s : State) (i k : Nat) : Bool :=
  match i, k with
  | 0x1003, 1 => s.dic.storeStatus == 1 || s.dic.storeStatus == 2
  | 0x7000, 2 => s.dic.fwXfer.isSome
  | 0x7000, 4 => s.dic.fwStatus == 3
  | _, _ => false

/-- The status of a write to an entry that is no DOMAIN. -/
def State.writeStatus (s : State) (f : MgmtFrame) : Nat :=
  let i := f.index.toNat
  let k := f.sub.toNat
  let e := entryOf i k
  let v := leNat (f.data.take f.length)
  let size := match e with | some (t, _) => t.size | none => none
  lowest
    [(badHeader f, Abort.badFrame), ((highestSub i).isNone, Abort.noEntry), ((highestSub i).isSome && e.isNone, Abort.noSub),
      ((match e with | some (_, a) => a == .ro | none => false), Abort.readOnly),
      ((match size with | some n => f.length != n || f.data.length < n | none => false), Abort.typeLength),
      (e.isSome && outOfRange i k v, Abort.range),
      ((match e with | some (_, a) => a == .rw && s.isRunning | none => false), Abort.notIdle),
      (s.notServed i || s.entryBusy i k, Abort.busy),
      (i == 0x7000 && k == 4 && s.dic.fwStatus != 2, Abort.rejected)]

/-- Changes the configuration entries. -/
def State.setCfg (s : State) (f : DicCfg → DicCfg) : State := { s with dic := { s.dic with cfg := f s.dic.cfg } }

/-- STORE (R401, R402): it waits while the inhibit holds. -/
def State.storeCmd (s : State) : State :=
  if s.pwr.nvInhibit then { s with dic := { s.dic with storeStatus := 1 } }
  else { s with dic := { s.dic with storeStatus := 2, storing := s.dic.cfg } }

/-- RESTORE_DEFAULTS (R402). -/
def State.restoreDefaults (s : State) : State := (s.setCfg fun _ => .default).capsChanged

/-- CLEAR_EXTREMES: the extremes restart from the present readings. -/
def State.clearExtremes (s : State) : State :=
  let m := s.dic.meters
  { s with dic := { s.dic with meters := { m with vMin := m.vIn, vMax := m.vIn, pPeak := m.pIn } } }

/-- LOG_ACK (R411): a count beyond LOG_COUNT is stored as LOG_COUNT. -/
def State.ackLog (s : State) (v : Nat) : State :=
  let n : Word := BitVec.ofNat 32 (min v s.dp.logCount.toNat)
  { s with
    dp := { s.dp with ackedTo := if s.dp.ackedTo.toNat < n.toNat then n else s.dp.ackedTo }
    dic := { s.dic with cfg := { s.dic.cfg with logAck := n } } }

/-- A PLCA parameter. -/
def DicCfg.setPlca (c : DicCfg) (k : Nat) (b : Byte) : DicCfg :=
  match k with
  | 1 => { c with plcaNode := b }
  | 2 => { c with plcaCount := b }
  | 3 => { c with plcaBurst := b }
  | 4 => { c with plcaTimer := b }
  | _ => { c with plcaTo := b }

/-- Applies a write of a value to an entry that is no DOMAIN. -/
def State.applyWrite (s : State) (i k v : Nat) : State :=
  let b := BitVec.ofNat 8 v
  let w : Word := match clampOf i k with | some (lo, hi) => clampF (BitVec.ofNat 32 v) lo hi | none => BitVec.ofNat 32 v
  match i, k with
  | 0x1001, k => s.setCfg (·.setPlca k b)
  | 0x1002, _ => s.setCfg fun c => { c with notifyDest := BitVec.ofNat 48 v }
  | 0x1003, 1 => s.storeCmd
  | 0x1003, _ => s.restoreDefaults
  | 0x1010, k => s.setCfg fun c => { c with portModes := tput c.portModes (k - 1) b }
  | 0x2000, _ => s.clearExtremes
  | 0x2002, 1 => s.setCfg fun c => { c with dipV := w }
  | 0x2002, 2 => s.setCfg fun c => { c with swellV := w }
  | 0x2002, _ => s.setCfg fun c => { c with rippleVpp := w }
  | 0x3003, _ => s.setCfg fun c => { c with alarm := w }
  | 0x3010, 1 => s.writePowerCap w
  | 0x3010, 2 => s.writeCapEnable (v == 1)
  | 0x3010, _ => s.setCfg fun c => { c with throttleCap := w }
  | 0x6000, _ => s.ackLog v
  | 0x7000, 2 => { s with dic := { s.dic with target := b } }
  | 0x7000, _ => { s with dic := { s.dic with fwStatus := 3 } }
  | _, _ => s

/-- A write to an entry that is no DOMAIN. -/
def State.writeScalar (s : State) (f : MgmtFrame) : State :=
  let st := s.writeStatus f
  if st ≠ 0 then s.answer f st []
  else
    let s := (s.applyWrite f.index.toNat f.sub.toNat (leNat (f.data.take f.length))).wrote f.src
    s.answer f 0 ((s.dictValue f.index.toNat f.sub.toNat).getD [])

/-! ### Transfers (R400, R405; 15 R448, R454) -/

/-- The transfer of a DOMAIN entry that takes writes. -/
def transferOf (i : Nat) : Transfer := if i = 0x7000 then .firmware else .repair

/-- The open transfer. -/
def Dic.xfer (d : Dic) (t : Transfer) : Option DomainXfer :=
  match t with
  | .firmware => d.fwXfer
  | .repair => d.repairXfer

/-- The verification of what came before runs: a new FIRST has to wait for it, and a REPAIR write of any kind (R406; log
entry 42). -/
def Dic.verifying (d : Dic) (t : Transfer) : Bool :=
  match t with
  | .firmware => d.fwStatus == 3
  | .repair => d.repairData.isSome

/-- A transfer goes on with what it holds. -/
def State.putXfer (s : State) (t : Transfer) (x : DomainXfer) : State :=
  match t with
  | .firmware => { s with dic := { s.dic with fwXfer := some x, image := [], fwStatus := 1 } }
  | .repair => { s with dic := { s.dic with repairXfer := some x } }

/-- A transfer ends with a code, and what it had received is discarded. -/
def State.endXfer (s : State) (t : Transfer) (code : Nat) : State :=
  match t with
  | .firmware => { s with dic := { s.dic with fwXfer := none, image := [], fwStatus := 0, fwResult := BitVec.ofNat 8 code } }
  | .repair => { s with dic := { s.dic with repairXfer := none, repairStatus := BitVec.ofNat 8 code } }

/-- A FIRST segment keeps the rules. -/
def firstOk (f : MgmtFrame) : Bool :=
  let n := min f.length f.data.length
  f.offset == 0 && f.total != 0 && decide (n ≤ f.total.toNat) && (bit f.flags.toNat 1 == decide (n = f.total.toNat))

/-- A later segment keeps the rules. -/
def laterOk (x : DomainXfer) (f : MgmtFrame) : Bool :=
  let n := x.data.length + min f.length f.data.length
  f.offset.toNat == x.data.length && decide (n ≤ x.total) && (bit f.flags.toNat 1 == decide (n = x.total))

/-- The last segment has been received whole: an image is staged and answered, a repair record goes to its verification, and
the segment is answered then. -/
def State.received (s : State) (t : Transfer) (x : DomainXfer) (f : MgmtFrame) : State :=
  match t with
  | .firmware =>
    ({ s with dic := { s.dic with fwXfer := none, image := x.data, imageTarget := x.target, fwStatus := 2, fwResult := 0 } }).answer
      f 0 []
  | .repair => { s with dic := { s.dic with repairXfer := none, repairData := some x.data, repairReq := some f } }

/-- An accepted segment. -/
def State.segment (s : State) (t : Transfer) (x : DomainXfer) (f : MgmtFrame) : State :=
  let s := s.wrote f.src
  if bit f.flags.toNat 1 then (s.putXfer t x).received t x f else (s.putXfer t x).answer f 0 []

/-- A segment breaks the rules: it ends the open transfer. -/
def State.badSegment (s : State) (t : Transfer) (f : MgmtFrame) : State :=
  (if (s.dic.xfer t).isSome then s.endXfer t Abort.badSeq else s).answer f Abort.badSeq []

/-- A segment of a transfer. -/
def State.takeSegment (s : State) (t : Transfer) (f : MgmtFrame) : State :=
  let data := f.data.take f.length
  let other := match s.dic.xfer t with | some x => x.src != f.src | none => false
  let first := bit f.flags.toNat 0
  if first && t == .firmware && decide (16773120 + 2828 < f.total.toNat) then s.answer f Abort.range []
  else if s.notServed f.index.toNat || other || (s.dic.verifying t && (first || t == .repair)) then s.answer f Abort.busy []
  else if first then
    if firstOk f then s.segment t ⟨f.src, f.total.toNat, data, s.tide, s.dic.target⟩ f else s.badSegment t f
  else match s.dic.xfer t with
    | none => s.answer f Abort.badSeq []
    | some x =>
      if laterOk x f then s.segment t { x with data := x.data ++ data, last := s.tide } f else s.badSegment t f

/-! ### Requests -/

/-- A WRITE_REQ addressed to the module. -/
def State.write (s : State) (f : MgmtFrame) : State :=
  match entryOf f.index.toNat f.sub.toNat with
  | some (.domain, .wo) => if badHeader f then s.answer f Abort.badFrame [] else s.takeSegment (transferOf f.index.toNat) f
  | _ => s.writeScalar f

/-- The stored response goes out once more (R393). -/
def State.resend (s : State) (r : MgmtFrame) : State :=
  { s.sendFrame r with dic := { s.dic with answered := s.dic.answered + 1 } }

/-- An accepted frame that is addressed to the module alone. -/
def State.request1 (s : State) (f : MgmtFrame) : State :=
  match s.retryOf f with
  | some r => s.resend r
  | none =>
    if !knownService f.service then s.answer f Abort.badFrame []
    else if f.service = 1 then s.read f
    else if f.service = 3 then s.write f
    else s

/-- A broadcast frame. -/
def State.broadcastFrame (s : State) (f : MgmtFrame) : State :=
  if f.service = 1 then s.broadcastRead f else if f.service = 3 then s.discardFrame else s

/-- A frame reaches the management port. -/
def State.mgmtFrame (s : State) (f : MgmtFrame) : State :=
  if !s.mgmtOn then s
  else if !s.acceptsFrame f then s.discardFrame
  else if f.dst = broadcastMac then s.broadcastFrame f
  else s.request1 f

/-- A WRITE_REQ of a master to an entry. -/
def State.writeFrom (s : State) (src : BitVec 48) (tid : BitVec 16) (i k : Nat) (data : List Byte) : State :=
  s.mgmtFrame
    { dst := s.boot.mgmtMac, src := src, etherType := 0x88B5, tagged := false, version := 1, service := 3, tid := tid
      index := BitVec.ofNat 16 i, sub := BitVec.ofNat 8 k, status := 0, offset := 0, flags := 0, total := 0
      reservedSet := false, length := data.length, data := data }

/-! ### Meanings -/

/-- READ_REQ. -/
def execReadReq (f : MgmtFrame) (s : State) : Out := .next (s.mgmtFrame f)

/-- BROADCAST_READ_RSP: the first answer due is sent; a request that was answered is not executed again (R393). -/
def execBroadcastReadRsp (s : State) : Out :=
  .next <| match s.dic.broadcast with
    | [] => s
    | f :: fs =>
      if s.mgmtOn then
        let s := { s with dic := { s.dic with broadcast := fs } }
        match s.retryOf f with
        | some r => s.resend r
        | none => s.read f
      else s

/-- WRITE_REQ. -/
def execWriteReq (f : MgmtFrame) (s : State) : Out := .next (s.mgmtFrame f)

/-- DOMAIN_SEGMENT. -/
def execDomainSegment (f : MgmtFrame) (s : State) : Out := .next (s.mgmtFrame f)

/-- DOMAIN_TIMEOUT: no segment for 1 s. -/
def execDomainTimeout (t : Transfer) (s : State) : Out :=
  .next (if (s.dic.xfer t).isSome then s.endXfer t Abort.timeout else s)

/-- STORE. -/
def execStore (src : BitVec 48) (tid : BitVec 16) (v : Byte) (s : State) : Out := .next (s.writeFrom src tid 0x1003 1 [v])

/-- RESTORE_DEFAULTS. -/
def execRestoreDefaults (src : BitVec 48) (tid : BitVec 16) (v : Byte) (s : State) : Out := .next (s.writeFrom src tid 0x1003 3 [v])

/-- CLEAR_EXTREMES. -/
def execClearExtremes (src : BitVec 48) (tid : BitVec 16) (v : Byte) (s : State) : Out := .next (s.writeFrom src tid 0x2000 0x0D [v])

/-- LOG_ACK. -/
def execLogAck (src : BitVec 48) (tid : BitVec 16) (v : Word) (s : State) : Out :=
  .next (s.writeFrom src tid 0x6000 3 (natLE 4 v.toNat))

/-- PLCA_WRITE. -/
def execPlcaWrite (src : BitVec 48) (tid : BitVec 16) (k : BitVec 8) (v : Byte) (s : State) : Out :=
  .next (s.writeFrom src tid 0x1001 k.toNat [v])

/-- CAP_WRITE. -/
def execCapWrite (src : BitVec 48) (tid : BitVec 16) (k : BitVec 8) (v : Word) (s : State) : Out :=
  .next (s.writeFrom src tid 0x3010 k.toNat (natLE (if k = 2 then 1 else 4) v.toNat))

/-- TARGET_WRITE. -/
def execTargetWrite (src : BitVec 48) (tid : BitVec 16) (v : Byte) (s : State) : Out := .next (s.writeFrom src tid 0x7000 2 [v])

/-- ACTIVATE. -/
def execActivate (src : BitVec 48) (tid : BitVec 16) (v : Byte) (s : State) : Out := .next (s.writeFrom src tid 0x7000 4 [v])

/-- STORE_DONE: the flash write ends. -/
def execStoreDone (ok : Bool) (s : State) : Out :=
  .next <|
    if s.dic.storeStatus ≠ 2 then s
    else if ok then { s with dic := { s.dic with storeStatus := 3, stored := s.dic.storing } }
    else { s with dic := { s.dic with storeStatus := 4 } }

/-- The energies go to flash. -/
def Dic.saveEnergy (d : Dic) : Dic := { d with eInFlash := d.meters.eIn, eAuxFlash := d.meters.eAux, energyDue := false }

/-- ENERGY_SAVE. -/
def execEnergySave (s : State) : Out :=
  .next <|
    if !s.mgmtOn then s
    else if s.pwr.nvInhibit then { s with dic := { s.dic with energyDue := true } }
    else { s with dic := s.dic.saveEnergy }

/-! ### Verification (15 R448, R454) and the end of the inhibit (14 R414) -/

/-- The kind that a TARGET expects. -/
def targetKind (t : Nat) : Nat := if t = 0 then 2 else if t = 1 then 3 else if t = 2 then 4 else 1

/-- The verified image is written to the inactive slot of its kind and marked active. -/
def State.activateImage (s : State) : State :=
  let kind := targetKind s.dic.imageTarget.toNat
  let other := 1 - s.boot.activeSlot kind
  let img := s.dic.image
  let s := { s with
    boot := { s.boot with
      slots := tput s.boot.slots (2 * (kind - 1) + other) img, active := tput s.boot.active kind other, slotDue := false }
    dic := { s.dic with fwStatus := 4, fwResult := 0 } }
  s.logEvent Log.fwActivated 0 kind (objVersion img)

/-- The staged image is rejected. -/
def State.rejectImage (s : State) (why : Nat) : State :=
  let kind := targetKind s.dic.imageTarget.toNat
  ({ s with dic := { s.dic with fwStatus := 5, fwResult := BitVec.ofNat 8 Abort.rejected } }).logEvent Log.fwRejected 0 kind why

/-- VERIFICATION_DONE. -/
def execVerificationDone (s : State) : Out :=
  .next <|
    if s.dic.fwStatus ≠ 3 || s.boot.slotDue then s
    else match s.boot.rejects (targetKind s.dic.imageTarget.toNat) s.dic.image with
      | some why => s.rejectImage why
      | none => if s.pwr.nvInhibit then { s with boot := { s.boot with slotDue := true } } else s.activateImage

/-- The reason that refuses a repair record (R448). -/
def State.repairRefused (s : State) (r : List Byte) : Option Nat :=
  let stored := s.boot.repairs
  match s.boot.rejects 5 r with
  | some why => some why
  | none =>
    if 64 ≤ stored.length ∨ stored.any (fun x => decide (recordSeq r ≤ recordSeq x)) = true then some Why.area
    else match manifestMap s.boot.manifest with
      | .error _ => some Why.repair
      | .ok x => if ((applyStored x stored).1.apply (recordEntry r)).isNone then some Why.repair else none

/-- The verified repair record is written to flash. -/
def State.storeRepair (s : State) (r : List Byte) : State :=
  { s with
    boot := { s.boot with repairs := s.boot.repairs ++ [r], repairDue := false }
    dic := { s.dic with repairPending := s.dic.repairPending + 1, repairData := none } }

/-- The end of a repair transfer: its code, and the answer to its last segment. -/
def State.endRepair (s : State) (code : Nat) : State :=
  let q := s.dic.repairReq
  let s := { s with dic := { s.dic with repairReq := none, repairStatus := BitVec.ofNat 8 code } }
  match q with
  | some f => s.answer f code []
  | none => s

/-- REPAIR_RECORD. -/
def execRepairRecord (s : State) : Out :=
  .next <| match s.dic.repairData with
    | none => s
    | some r =>
      if s.boot.repairDue then s
      else match s.repairRefused r with
        | some why =>
          let s := { s with dic := { s.dic with repairData := none } }
          (s.logEvent Log.repairRejected 0 (recordSeq r) why).endRepair Abort.rejected
        | none =>
          let s := s.endRepair 0
          if s.pwr.nvInhibit then { s with boot := { s.boot with repairDue := true } } else s.storeRepair r

/-- The flash writes that the inhibit has held back: changes of log records, log records, automatic writes, STORE, activation, repair, counters. -/
def State.flushFlash (s : State) : State :=
  let held := s.dp.logHeld
  let s := { s with dp := s.dic.relogs.foldl Data.relog s.dp, dic := { s.dic with relogs := [] } }
  let s := { s with dp := held.foldl (fun d r => d.writeLog s.dic.cfg.notifyDest s.boot.mgmtMac r) { s.dp with logHeld := [] } }
  let s := if s.dic.flashDue then { s with dic := { s.dic with flashDue := false, countsFlash := s.dic.counts } } else s
  let s := if s.dic.energyDue then { s with dic := s.dic.saveEnergy } else s
  let s := if s.dic.storeStatus = 1 then s.storeCmd else s
  let s := if s.boot.slotDue then s.activateImage else s
  let s := if s.boot.repairDue then s.storeRepair (s.dic.repairData.getD []) else s
  if s.boot.raiseDue then ({ s with boot := { s.boot with raiseDue := false } }).raiseCounters else s

/-- NV_INHIBIT_CLEAR: 10 ms at or above 44.5 V; an orderly shutdown holds the inhibit. -/
def execNvInhibitClear (s : State) : Out :=
  .next <|
    if s.pwr.nvInhibit && !s.pwr.nvHeld then ({ s with pwr := { s.pwr with nvInhibit := false, below44 := false } }).flushFlash else s

end Sys2Proof.Machine
end

