-- ==== Sys2Proof/Machine/Registers.lean ====
section
/-!
DEFINITION. BAR0 and BAR2 as the host sees them: what each 64-bit register reads as, and what a write of some of its bits does
(00 R6, R9; 11 R349, R351; the register maps of chapters 03 to 14).
-/

namespace Sys2Proof.Machine

/-- Part k of an array of registers of a stride that begins at a base, when an offset lies in it: the register's number and
the offset within it. -/
def within_ (base stride n off : Nat) : Option (Nat × Nat) :=
  if base ≤ off ∧ off < base + stride * n then some ((off - base) / stride, (off - base) % stride) else none

/-! ### The MSI-X structures (R367) -/

/-- A vector. -/
def State.vec (s : State) (v : Nat) : Msix := tget .reset s.pci.msix v

/-- Unmasks a vector: a pending message is sent (16 R462). -/
def State.unmask (s : State) (v : Nat) : State :=
  let m := s.vec v
  let s := { s with pci := { s.pci with msix := tput s.pci.msix v { m with masked := false, pending := false } } }
  if m.pending then s.msix v else s

/-- A write of half h of a vector's table entry. -/
def State.writeVec (s : State) (v h : Nat) (x mask : Reg) : State :=
  let m := s.vec v
  let put (m : Msix) : State := { s with pci := { s.pci with msix := tput s.pci.msix v m } }
  if h = 0 then put { m with addr := mergeReg m.addr x mask }
  else
    let w := mergeReg (BitVec.ofNat 64 (m.data.toNat + flag 32 m.masked)) x mask
    let s := put { m with data := w.setWidth 32, masked := m.masked || bit w.toNat 32 }
    if bit w.toNat 32 then s else s.unmask v

/-! ### Reads -/

/-- The type and size fields of MIRROR_STATUS. -/
def State.mirrorStatus (s : State) : Nat :=
  let i := s.hst.mirrorIndex.toNat
  let k := s.hst.mirrorSub.toNat
  match entryOf i k with
  | none => 0
  | some (t, a) =>
    let n := match t.size with | some n => n | none => ((s.dictValue i k).getD []).length
    flag 0 true + flag 1 (a != .wo && t != .domain) + at_ 8 t.code + at_ 16 (n % 2 ^ 16)

/-- MIRROR_DATA (R374). -/
def State.mirrorData (s : State) : Nat :=
  let i := s.hst.mirrorIndex.toNat
  let k := s.hst.mirrorSub.toNat
  match entryOf i k with
  | none => 0
  | some (t, _) =>
    let v := (s.dictValue i k).getD []
    match t with
    | .domain => 0
    | .str => field v (8 * s.hst.mirrorChunk.toNat) 8
    | _ => leNat v

/-- The registers below 0x0000_1000. -/
def State.readGlobal (s : State) (off : Nat) : Nat :=
  match off with
  | 0x000 => s.hst.baseWord
  | 0x008 => s.hst.cfgWord
  | 0x010 => s.hst.ptrsWord
  | 0x018 => s.hst.causeWord
  | 0x800 => s.hst.selWord
  | 0x808 => s.mirrorStatus
  | 0x810 => s.mirrorData
  | _ => 0

/-- The queue registers. -/
def State.readQueue (s : State) (q r : Nat) : Nat :=
  let k := s.queue q
  match r with
  | 0x00 => k.baseWord
  | 0x08 => k.cfgWord
  | 0x10 => k.ptrsWord
  | 0x18 => k.wbWord
  | _ => 0

/-- The tuner block. -/
def State.readTuner (s : State) (off : Nat) : Nat :=
  if off = 0 then s.tunerCtl
  else match within_ 0x100 0x40 16 off, within_ 0x800 8 16 off with
    | some (i, r), _ =>
      let k := (s.tunerSlot i).key.toNat
      if r = 0 then bits k 63 0 else if r = 8 then bits k 127 64 else if r = 16 then (s.tunerSlot i).selWord else 0
    | none, some (v, _) => s.verdictWord v
    | none, none => 0

/-- The stow, string and loss blocks. -/
def State.readStow (s : State) (off : Nat) : Nat :=
  if off = 0x6080 then s.stw.bassQueues.toNat
  else match within_ 0x6100 0x40 16 off, within_ 0x7100 0x20 16 off with
    | some (l, r), _ => (s.lane l).words.getD (r / 8) 0
    | none, some (i, r) => if r = 0 then (s.lossSlot i).sumWord else if r = 8 then (s.lossSlot i).count.toNat else 0
    | none, none => 0

/-- The memory block. SIDE_DATA shows what a read of it answers, without the read's events. -/
def State.readMemory (s : State) (off : Nat) : Nat :=
  match off with
  | 0x00 => s.dp.rootWritten.toNat
  | 0x08 => s.txState
  | 0x10 => s.dp.xfWord
  | 0x18 => s.dp.xfQueue.toNat
  | 0x20 => s.dp.eccWord
  | 0x28 => s.stackState
  | 0x30 => s.dp.sideAddr.toNat
  | 0x38 => s.sideValue.1.toNat
  | _ => 0

/-- The sequence block. -/
def State.readSeq (s : State) (off : Nat) : Nat :=
  if off = 0 then s.seq.layoutBase.toNat
  else if off = 8 then s.seq.berthWord
  else match within_ 0x100 0x40 16 off with
    | none => 0
    | some (x, r) => if r = 0x28 then s.statA x else if r = 0x30 then s.statB x else (s.pool x).words.getD (r / 8) 0

/-- The Hawser block and the peer table, by offset from 0x0100_B000. -/
def State.readHawser (s : State) (off : Nat) : Nat :=
  match off with
  | 0x00 => s.hwCfg
  | 0x08 => s.hwTiming
  | 0x10 => s.boot.hwMac.toNat
  | _ =>
    match within_ 0x100 8 16 off, within_ 0x200 16 16 off, within_ 0x5000 16 4096 off with
    | some (g, _), _, _ => (s.group g).addr.toNat
    | none, some (p, r), _ => if r = 0 then (s.port p).ctlWord else (s.port p).statusWord
    | none, none, some (i, r) => if r = 0 then (s.peer i).mac.toNat else (s.peer i).cfg
    | none, none, none => 0

/-- The mailbox and power blocks, by offset from 0x0100_C000. -/
def State.readPower (s : State) (off : Nat) : Nat :=
  if off = 0x80 then flag 0 s.mbx.locked
  else if off = 0x1000 then s.pwr.idleUs.toNat
  else if off = 0x1008 then s.govStatus
  else match within_ 0 8 16 off, within_ 0x1100 8 32 off with
    | some (e, _), _ => s.bindWord e
    | none, some (x, _) => (s.domain x).word
    | none, none => 0

/-- The 64-bit register of BAR0 at an offset that is a multiple of 8. An unassigned offset reads as zero (R351). -/
def State.readBar0 (s : State) (off : Nat) : Nat :=
  if allEvents.contains off then s.evtWord off
  else if off < 0x1000 then s.readGlobal off
  else match within_ 0x1000 0x40 64 off, within_ 0x2000 16 256 off, within_ 0x3000 8 4 off, within_ 0x4000 8 4096 off with
    | some (q, r), _, _, _ => s.readQueue q r
    | none, some (v, r), _, _ => if r = 0 then (s.vec v).addr.toNat else (s.vec v).data.toNat + flag 32 (s.vec v).masked
    | none, none, some (w, _), _ => bitsWord 64 fun i => (s.vec (64 * w + i)).pending
    | none, none, none, some (n, _) => (s.counter n).word
    | none, none, none, none =>
      if off = 0x1000000 then s.fabStatus false
      else if off = 0x1001000 then s.fabStatus true
      else if 0x1003000 ≤ off ∧ off < 0x1004000 then s.readTuner (off - 0x1003000)
      else if off = 0x1005000 then s.rngStatus
      else if 0x1004000 ≤ off ∧ off < 0x1005900 then (s.dp.ra ((off - 0x1004000) / 8)).word
      else if 0x1006000 ≤ off ∧ off < 0x1008000 then s.readStow (off - 0x1000000)
      else if 0x1009000 ≤ off ∧ off < 0x100A000 then s.readMemory (off - 0x1009000)
      else if 0x100A000 ≤ off ∧ off < 0x100B000 then s.readSeq (off - 0x100A000)
      else if 0x100B000 ≤ off ∧ off < 0x100C000 then s.readHawser (off - 0x100B000)
      else if 0x1010000 ≤ off ∧ off < 0x1020000 then s.readHawser (off - 0x100B000)
      else if 0x100C000 ≤ off ∧ off < 0x100E000 then s.readPower (off - 0x100C000)
      else 0

/-- The 64-bit register of BAR2 at an offset that is a multiple of 8: doorbells read as zero. -/
def State.readBar2 (s : State) (off : Nat) : Nat :=
  match within_ 0x80000 0x2000 64 off with
  | none => 0
  | some (c, r) =>
    if r < 0x40 then ((s.chan c).words.getD (r / 8) 0).toNat
    else if r = 0x40 then s.mbxCtl c
    else if r = 0x48 ∧ 48 ≤ c then (s.chan c).lockWord
    else 0

/-! ### Writes -/

/-- A word with the bits of a write that the mask names. -/
def merged (old : Nat) (v mask : Reg) : Nat := (mergeReg (BitVec.ofNat 64 old) v mask).toNat

/-- Clears an event counter (03 R98). -/
def State.clearEvt (s : State) (off : Nat) : State := { s with dp := { s.dp with evts := tput s.dp.evts off 0 } }

/-- The host block: FAULT_LOG registers, INT_CAUSE, MIRROR_SEL. -/
def Hst.write (h : Hst) (off : Nat) (v mask : Reg) : Hst :=
  let set := (v &&& mask).toNat
  match off with
  | 0x000 => { h with logBase := BitVec.ofNat 52 (bits (merged h.baseWord v mask) 63 12) }
  | 0x008 =>
    let w := merged h.cfgWord v mask
    { h with
      logSizeLog2 := BitVec.ofNat 5 (clampN 6 16 (bits w 4 0)), logEnable := bit w 8, logVector := BitVec.ofNat 8 (bits w 23 16) }
  | 0x010 => { h with cons := BitVec.ofNat 32 (bits (merged h.ptrsWord v mask) 63 32) }
  | 0x018 =>
    { h with
      causeRecord := h.causeRecord && !bit set 0, causeStopped := h.causeStopped && !bit set 1
      causeLost := h.causeLost && !bit set 2 }
  | 0x800 =>
    let w := merged h.selWord v mask
    { h with
      mirrorIndex := BitVec.ofNat 16 (bits w 15 0), mirrorSub := BitVec.ofNat 8 (bits w 23 16)
      mirrorChunk := BitVec.ofNat 8 (bits w 31 24) }
  | _ => h

/-- A queue's registers. -/
def State.writeQueue (s : State) (q r : Nat) (v mask : Reg) : State :=
  match r with
  | 0x00 => s.writeQBase q v mask
  | 0x08 => s.writeQCfg q v mask
  | 0x18 => s.writeQWb q v mask
  | _ => s

/-- CNT_ADD_n: AMOUNT takes effect when its half is written; SET reads as 0 from a half that is not. -/
def State.writeCntAdd (s : State) (n : Nat) (v mask : Reg) : State :=
  let w := v &&& mask
  if !bit mask.toNat 0 then s
  else if bit w.toNat 32 then s.cntSet n (w.setWidth 32) else s.cntAdd n (w.setWidth 32)

/-- FAB_STATUS: FAULTED is W1C. -/
def State.writeFab (s : State) (bass : Bool) (v mask : Reg) : State :=
  let f := s.fabric bass
  s.setFabric bass { f with faulted := f.faulted &&& ~~~(((v &&& mask) >>> 40).setWidth 16) }

/-- A tuner slot's registers. -/
def TunerSlot.write (x : TunerSlot) (r : Nat) (v mask : Reg) : TunerSlot :=
  let k := x.key.toNat
  match r with
  | 0x00 => { x with key := BitVec.ofNat 128 (setBits k 63 0 (merged (bits k 63 0) v mask)) }
  | 0x08 => { x with key := BitVec.ofNat 128 (setBits k 127 64 (merged (bits k 127 64) v mask)) }
  | 0x10 =>
    let w := merged x.selWord v mask
    { x with stream := BitVec.ofNat 32 (bits w 31 0), k := selK (bits w 36 32) }
  | _ => x

/-- The tuner block. -/
def State.writeTuner (s : State) (off : Nat) (v mask : Reg) : State :=
  if off = 0 then (if bit mask.toNat 0 then s.writeTunerCtl (bit v.toNat 0) else s)
  else match within_ 0x100 0x40 16 off with
    | some (i, r) => { s with tun := { s.tun with slots := tupd .reset s.tun.slots i (·.write r v mask) } }
    | none => s

/-- The stow and loss blocks. -/
def State.writeStow (s : State) (off : Nat) (v mask : Reg) : State :=
  if off = 0x6080 then ({ s with stw := { s.stw with bassQueues := mergeReg s.stw.bassQueues v mask } }).watchSlip
  else match within_ 0x6100 0x40 16 off, within_ 0x7100 0x20 16 off with
    | some (l, r), _ =>
      let w := BitVec.ofNat 64 (merged ((s.lane l).words.getD (r / 8) 0) v mask)
      match r with
      | 0x00 => s.writeLane l .hdrBase w
      | 0x08 => s.writeLane l .dataBase w
      | 0x10 => s.writeLane l .size w
      | 0x18 => s.writeLane l .reserve w
      | _ => s
    | none, some (i, r) => if r = 0x10 ∧ bit (v &&& mask).toNat 0 then { s with los := tput s.los i .reset } else s
    | none, none => s

/-- The memory block. -/
def State.writeMemory (s : State) (off : Nat) (v mask : Reg) : State :=
  match off with
  | 0x00 => { s with dp := { s.dp with rootWritten := BitVec.ofNat 60 (bits (merged s.dp.rootWritten.toNat v mask) 59 0) } }
  | 0x10 => if bit (v &&& mask).toNat 63 then { s with dp := { s.dp with xfValid := false } } else s
  | 0x20 => { s with dp := s.dp.writeEcc (merged s.dp.eccWord v mask) }
  | 0x30 => { s with dp := { s.dp with sideAddr := BitVec.ofNat 60 (bits (merged s.dp.sideAddr.toNat v mask) 59 0) } }
  | 0x38 => s.writeSide v mask
  | _ => s

/-- POOL_MARK_s. -/
def State.writeMark (s : State) (x w : Nat) : State :=
  { s with seq := { s.seq with pools := tupd .reset s.seq.pools x fun p =>
      { p with low := BitVec.ofNat 21 (bits w 20 0), high := BitVec.ofNat 21 (bits w 52 32) } } }

/-- The sequence block. -/
def State.writeSeq (s : State) (off : Nat) (v mask : Reg) : State :=
  if off = 0 then
    { s with seq := { s.seq with layoutBase := BitVec.ofNat 60 (bits (merged s.seq.layoutBase.toNat v mask) 59 0) } }
  else if off = 8 then { s with seq := s.seq.writeBerth (merged s.seq.berthWord v mask) }
  else if off = 0x10 then s.writeKey false (BitVec.ofNat 64 (merged (bits s.seq.key.toNat 63 0) v mask))
  else if off = 0x18 then s.writeKey true (BitVec.ofNat 64 (merged (bits s.seq.key.toNat 127 64) v mask))
  else match within_ 0x100 0x40 16 off with
    | none => s
    | some (x, r) =>
      let w := merged ((s.pool x).words.getD (r / 8) 0) v mask
      if r = 0 then s.writePool x .base (BitVec.ofNat 64 w)
      else if r = 8 then s.writePool x .size (BitVec.ofNat 64 w)
      else if r = 0x10 then s.writeMark x w
      else if r = 0x18 then s.writePool x .ledger (BitVec.ofNat 64 w)
      else if r = 0x20 then s.writePool x .slice (BitVec.ofNat 64 w)
      else s

/-- The power block. -/
def State.writePower (s : State) (off : Nat) (v mask : Reg) : State :=
  if off = 0 then
    let us := bits (merged s.pwr.idleUs.toNat v mask) 15 0
    { s with pwr := { s.pwr with idleUs := BitVec.ofNat 16 (max 1 us) } }
  else match within_ 0x100 8 32 off with
    | some (x, _) => if bit mask.toNat 0 then s.writeReq x (v.setWidth 2) else s
    | none => s

/-- A write of bits of the BAR0 register at an offset that is a multiple of 8. An unassigned offset ignores it (R351). -/
def State.writeBar0 (s : State) (off : Nat) (v mask : Reg) : State :=
  if allEvents.contains off then (if bit (v &&& mask).toNat 63 then s.clearEvt off else s)
  else if off < 0x1000 then { s with hst := s.hst.write off v mask }
  else match within_ 0x1000 0x40 64 off, within_ 0x2000 16 256 off, within_ 0x4000 8 4096 off, within_ 0xC000 8 4096 off with
    | some (q, r), _, _, _ => s.writeQueue q r v mask
    | none, some (x, r), _, _ => s.writeVec x (r / 8) v mask
    | none, none, some (n, _), _ => if bit (v &&& mask).toNat 48 then s.faultedClear n else s
    | none, none, none, some (n, _) => s.writeCntAdd n v mask
    | none, none, none, none =>
      if off = 0x1000000 then s.writeFab false v mask
      else if off = 0x1001000 then s.writeFab true v mask
      else if 0x1003000 ≤ off ∧ off < 0x1004000 then s.writeTuner (off - 0x1003000) v mask
      else if off = 0x1005000 then
        (if bit (v &&& mask).toNat 2 then { s with rng := { s.rng with reseeded := false } } else s)
      else if 0x1004000 ≤ off ∧ off < 0x1005900 then
        let n := (off - 0x1004000) / 8
        { s with dp := s.dp.writeRa n (merged (s.dp.ra n).word v mask) }
      else if 0x1006000 ≤ off ∧ off < 0x1008000 then s.writeStow (off - 0x1000000) v mask
      else if 0x1009000 ≤ off ∧ off < 0x100A000 then s.writeMemory (off - 0x1009000) v mask
      else if 0x100A000 ≤ off ∧ off < 0x100B000 then s.writeSeq (off - 0x100A000) v mask
      else if 0x100B200 ≤ off ∧ off < 0x100B300 then
        (if off % 16 = 0 then s.writePortCtl ((off - 0x100B200) / 16) v mask else s)
      else if (0x100B000 ≤ off ∧ off < 0x100C000) ∨ (0x1010000 ≤ off ∧ off < 0x1020000) then s.writeHawser off v mask
      else if 0x100D000 ≤ off ∧ off < 0x100E000 then s.writePower (off - 0x100D000) v mask
      else s

/-- A write of a lock register: ACQUIRE or RELEASE (12 R386), or one access to a buffer whose domain is off (R383). -/
def State.writeLock (s : State) (m : Byte) (c : Nat) (v mask : Reg) : State :=
  let w := (v &&& mask).toNat
  if s.bufferOff c then s.mbxOff m c
  else
    let s := if bit w 0 then s.acquire m c (BitVec.ofNat 8 (bits w 23 16)) else s
    if bit w 1 then s.unlock m c else s

/-- A write of bits of the BAR2 register at an offset that is a multiple of 8; the host is the master. -/
def State.writeBar2 (s : State) (off : Nat) (v mask : Reg) : State :=
  let m := BitVec.ofNat 8 Master.host
  match within_ 0 0x1000 64 off, within_ 0x80000 0x2000 64 off with
  | some (q, r), _ => if r = 0 ∧ bit mask.toNat 0 then s.doorbell q (v.setWidth 32) else s
  | none, some (c, r) =>
    if r < 0x40 then s.writeMsg m c (r / 8) v mask
    else if r = 0x40 then s.writeMbxCtl m c v mask
    else if r = 0x48 ∧ 48 ≤ c then s.writeLock m c v mask
    else s
  | none, none => s

/-- The bits of a 64-bit register that an access names, and the value in their place. -/
def laneBits (off size : Nat) (v : Reg) : Reg × Reg :=
  if size = 8 then (v, BitVec.allOnes 64)
  else if off % 8 = 0 then (v, 0xFFFFFFFF)
  else (v <<< 32, 0xFFFFFFFF00000000)

/-- The size of a BAR. -/
def barSize : Bar → Nat
  | .bar0 => 2 ^ 26
  | .bar2 => 2 ^ 20
  | .config => 2 ^ 12

/-! ### Configuration space (R348, R349) -/

/-- The class code: a processing accelerator. -/
abbrev classCode : Nat := 0x120000

/-- The Device ID. -/
abbrev deviceId : Nat := 0x0840

/-- Where the model puts the Resizable BAR control register of BAR4 in configuration space; the manual names no offset (log
entry 6). -/
abbrev barControl : Nat := 0x108

/-- The size of BAR4 that the Resizable BAR capability selects, by its base-2 logarithm: it keeps its size for a value outside 1 GiB
to 1 TiB. -/
def Pci.resize (p : Pci) (n : Nat) : Pci := if 30 ≤ n ∧ n ≤ 40 then { p with bar4Log2 := BitVec.ofNat 6 n } else p

/-- The 64 bits of configuration space at an offset that is a multiple of 8: the Device ID above the vendor's and the class code above
the revision, whose values the manual does not give (0, log entry 6); the size of BAR4, in bits [13:8], as log2 of its MiB. -/
def Pci.readConfig (p : Pci) (off : Nat) : Nat :=
  if off = 0 then at_ 16 deviceId
  else if off = 8 then at_ 8 classCode
  else if off = barControl then at_ 8 (p.bar4Log2.toNat - 20)
  else 0

/-- A write of configuration space: the size of BAR4. D-state and Bus Master Enable have a command of their own. -/
def State.writeConfig (s : State) (off : Nat) (v mask : Reg) : State :=
  if off = barControl ∧ bit mask.toNat 8 = true then { s with pci := s.pci.resize (20 + bits v.toNat 13 8) } else s

/-- A write of the host to BAR0, BAR2 or configuration space. An offset beyond its BAR is not claimed. -/
def State.writeRegister (s : State) (b : Bar) (off size : Nat) (v : Reg) : State :=
  if barSize b ≤ off then s
  else if !accessOk off size then { s with out := .unsupported :: s.out }
  else
    let (x, mask) := laneBits off size v
    match b with
    | .bar0 => s.writeBar0 (off / 8 * 8) x mask
    | .bar2 => s.writeBar2 (off / 8 * 8) x mask
    | .config => s.writeConfig (off / 8 * 8) x mask

/-- The bytes of a 64-bit register that a read names. -/
def laneValue (off size : Nat) (v : Reg) : Reg :=
  if size = 8 then v else if off % 8 = 0 then v &&& 0xFFFFFFFF else v >>> 32

/-- A read of a register by the host (R351; 12 R377, R383): its completion, none where no BAR claims the offset, and the state after
it. A read of SIDE_DATA reads its line; one of a mailbox page is checked. The command table has no row for it. -/
def State.readRegister (s : State) (b : Bar) (off size : Nat) : Option Completion × State :=
  if barSize b ≤ off then (none, s)
  else if !accessOk off size then (some .unsupported, s)
  else match b with
    | .bar0 =>
      if off / 8 * 8 = 0x1009038 then (some (.data (laneValue off size s.sideValue.1)), s.sideValue.2)
      else (some (.data (laneValue off size (BitVec.ofNat 64 (s.readBar0 (off / 8 * 8))))), s)
    | .bar2 =>
      let v := laneValue off size (BitVec.ofNat 64 (s.readBar2 (off / 8 * 8)))
      match within_ 0x80000 0x2000 64 (off / 8 * 8) with
      | none => (some (.data v), s)
      | some (c, r) =>
        if r ≤ 0x40 ∨ (r = 0x48 ∧ 48 ≤ c) then
          let x := s.mbxRead (BitVec.ofNat 8 Master.host) c r v
          (some x.1, x.2)
        else (some (.data v), s)
    | .config => (some (.data (laneValue off size (BitVec.ofNat 64 (s.pci.readConfig (off / 8 * 8))))), s)

/-- EVT_CLEAR. -/
def execEvtClear (off : Nat) (s : State) : Out := guarded (allEvents.contains off) (s.clearEvt off)

/-- LOSS_CLEAR. -/
def execLossClear (i : Nat) (s : State) : Out := guarded (i < 16) { s with los := tput s.los i .reset }

/-- A read of MIRROR_DATA: the agent's value goes to the host. -/
def State.readMirror (s : State) : State :=
  let v : Reg := BitVec.ofNat 64 s.mirrorData
  let s := s.noteRead s.hst.mirrorIndex.toNat s.hst.mirrorSub.toNat
  { s with out := .value v :: s.out }

/-! ### The host's accesses in order (R352, R353) -/

/-- What an access does when it need not wait. -/
def State.doAccess (s : State) (a : HostAccess) : State :=
  match a with
  | .read off len => s.readWindow off len
  | .write off bytes poisoned => s.writeWindow off bytes poisoned
  | .sideRead => s.readSide
  | .register b off size v => s.writeRegister b off size v
  | .doorbell q t => s.doorbell q t
  | .mirrorRead => s.readMirror

/-- An access of the host: one that has to wait, or that comes behind a posted write that waits, is held. -/
def State.access (s : State) (a : HostAccess) : State :=
  if s.writeHeld || s.accessWaits a then s.hold a else s.doAccess a

/-- The accesses that waited, in order; those that still have to wait stay held. -/
def State.settleHeld (s : State) : State :=
  s.pci.held.foldl State.access { s with pci := { s.pci with held := [] } }

/-- DOORBELL_WRITE. -/
def execDoorbellWrite (q : Nat) (t : Word) (s : State) : Out := guarded (q < 64) (s.access (.doorbell q t))

/-- REGISTER_WRITE. -/
def execRegisterWrite (b : Bar) (off size : Nat) (v : Reg) (s : State) : Out := .next (s.access (.register b off size v))

/-- BAR4_READ. -/
def execBar4Read (off len : Nat) (s : State) : Out := .next (s.access (.read off len))

/-- BAR4_WRITE. -/
def execBar4Write (off : Nat) (bytes : List Byte) (poisoned : Bool) (s : State) : Out := .next (s.access (.write off bytes poisoned))

/-- SIDE_DATA_READ. -/
def execSideDataRead (s : State) : Out := .next (s.access .sideRead)

/-- SIDE_DATA_WRITE: a write of all eight bytes. -/
def execSideDataWrite (v : Reg) (s : State) : Out := .next (s.access (.register .bar0 0x1009038 8 v))

/-- MIRROR_READ. -/
def execMirrorRead (s : State) : Out := .next (s.access .mirrorRead)

end Sys2Proof.Machine
end

