-- ==== Sys2Proof/Machine/Host.lean ====
section
/-!
DEFINITION. The PCIe function (11 R348 to R350, R367, R375; 16 R462; 15 R453): host resets, power states, MSI-X masks, DOE.
-/

namespace Sys2Proof.Machine

/-! ### Host reset (R350) -/

/-- The host event counters, which are registers of chapter 11. -/
def hostEvents : List Nat :=
  [Evt.descDispatched, Evt.dbReject, Evt.fetchAbort, Evt.faultLogLost, Evt.hostResetDiscard, Evt.hostOffAccess, Evt.opsFaulted]

/-- The function after a host reset; PERST_N and a link down leave it down until the link is up again (log entry 6). -/
def Pci.hostReset (p : Pci) (c : HostResetCause) : Pci :=
  { Pci.reset with
    down := p.down || match c with
      | .perstN => true
      | .linkDown => true
      | .hotReset => false
      | .flr => false }

/-- A host reset: queues disabled, the chapter's registers and the completion counters cleared, what still had to go to host
memory discarded; operations that run go on, and their reports will be discarded. The host domain leaves its slack with D3hot. -/
def State.hostReset (s : State) (c : HostResetCause) : State :=
  let held := s.hst.deferred.length
  let woken := b2n (s.hostState == .slack)
  let s := { s with
    que := [], cnt := [], hst := .reset, pci := s.pci.hostReset c, mbx := s.mbx.hostReset
    ops := s.ops.map fun (o : Op) => { o with orphan := true }
    dp := { s.dp with evts := hostEvents.foldl (fun t off => tput t off 0) s.dp.evts } }
  ((s.bump Evt.hostResetDiscard held).bump Evt.slackWake woken).watchSlip

/-- HOST_RESET. -/
def execHostReset (c : HostResetCause) (s : State) : Out := .next (s.hostReset c)

/-- PCIE_LINK_UP: after READY (15 R439), or after a link down. -/
def execPcieLinkUp (s : State) : Out :=
  .next (if s.pwr.hostOn && s.boot.stage == 7 then { s with pci := { s.pci with down := false } } else s)

/-! ### D-state and Bus Master Enable (16 R462) -/

/-- A write-back of HEAD that waited. -/
def State.flushHead (s : State) (q : Nat) : State := if (s.queue q).wbDue then s.headMoved q else s

/-- A request that waited. -/
def State.flushReq (s : State) (r : HostReq) : State :=
  match r with
  | .faultRecord bs => s.logFault bs
  | .msix v => s.sendMsix v

/-- What waited goes out. -/
def State.flushHost (s : State) : State :=
  let s := (List.range 64).foldl State.flushHead s
  s.hst.deferred.foldl State.flushReq { s with hst := { s.hst with deferred := [] } }

/-- FUNCTION_STATE_CHANGE. The host domain is in slack while the function is in D3hot (14 R431). -/
def execFunctionStateChange (d3hot busMaster : Bool) (s : State) : Out :=
  .next <|
    if s.pci.down then s
    else
      let s := s.setD3hot d3hot
      let s := { s with pci := { s.pci with busMaster := busMaster } }
      if s.mayIssue then s.flushHost else s

/-- MSIX_UNMASK. -/
def execMsixUnmask (v : Nat) (s : State) : Out := guarded (v < 256) (s.unmask v)

/-! ### DOE and SPDM (R375; 15 R453) -/

/-- The bytes that an object's header announces; a length of 0 stands for 2^18 double words (PCIe; log entry 22). -/
def doeLength (o : List Byte) : Nat :=
  let n := field o 4 4 % 2 ^ 18
  4 * if n = 0 then 2 ^ 18 else n

/-- The SPDM request code of an object, and its first parameter. -/
def spdmCode (o : List Byte) : Nat := field o 9 1
/-- The first parameter of a request. -/
def spdmParam (o : List Byte) : Nat := field o 10 1

/-- CHALLENGE and GET_MEASUREMENTS are answered with a nonce. -/
def needsNonce (o : List Byte) : Bool := spdmCode o == 0x83 || spdmCode o == 0xE0

/-- An SPDM ERROR message (codes as SPDM gives them, log entry 22): 3 Busy, 1 InvalidRequest, 7 UnsupportedRequest. -/
def spdmError (code data : Nat) : List Byte := [0x13, 0x7F, BitVec.ofNat 8 code, BitVec.ofNat 8 data]

/-- The requests that the module supports (15 R453): GET_DIGESTS, GET_CERTIFICATE, CHALLENGE, GET_VERSION, GET_MEASUREMENTS,
GET_CAPABILITIES, NEGOTIATE_ALGORITHMS. -/
def spdmSupported (o : List Byte) : Bool := [0x81, 0x82, 0x83, 0x84, 0xE0, 0xE1, 0xE3].contains (spdmCode o)

/-- The certificate slot that a request names; of GET_MEASUREMENTS, where it asks for a signature. -/
def spdmSlot (o : List Byte) : Nat :=
  match spdmCode o with
  | 0x82 => bits (spdmParam o) 3 0
  | 0x83 => bits (spdmParam o) 3 0
  | 0xE0 => if bit (spdmParam o) 0 then bits (field o 44 1) 3 0 else 0
  | _ => 0

/-- A message with a field of some bytes set. -/
def patch (m : List Byte) (i : Nat) (bs : List Byte) : List Byte := slice m 0 i ++ bs ++ m.drop (i + bs.length)

/-- CERT_CAP, CHAL_CAP and MEAS_CAP with signatures. -/
abbrev spdmCapabilities : Nat := 0x16

/-- The answer to a supported request of slot 0: what the manual states, in the bytes that SPDM 1.3 fixes (log entry 22). VERSION
offers 1.3; ALGORITHMS selects, of what is offered, ECDSA P-384, SHA-384 and SHA-384 measurements; DIGESTS shows slot 0 alone. -/
def Boot.spdmAnswer (b : Boot) (o : List Byte) (seed : BitVec 128) : List Byte :=
  let m := Config.spdmAnswer b.aliasKey o (b.measurements ++ b.chain) seed
  match spdmCode o with
  | 0x84 => [0x10, 0x04, 0, 0, 0, 1, 0, 0x13]
  | 0xE1 => patch (patch m 0 [0x13, 0x61]) 8 (natLE 4 spdmCapabilities)
  | 0xE3 =>
    let asym := Nat.land (field o 16 4) 0x80
    let hash := Nat.land (field o 20 4) 0x02
    patch (patch m 0 [0x13, 0x63]) 8 (natLE 4 0x04 ++ natLE 4 asym ++ natLE 4 hash)
  | 0x81 => patch m 0 [0x13, 0x01, 0, 0x01]
  | 0x82 => patch m 0 [0x13, 0x02]
  | 0x83 => patch m 0 [0x13, 0x03]
  | _ => patch m 0 [0x13, 0x60]

/-- The answer to any request: one that is not supported is refused, and so are slots 1 to 7. -/
def Boot.spdmReply (b : Boot) (o : List Byte) (seed : BitVec 128) : List Byte :=
  if !spdmSupported o then spdmError 7 (spdmCode o)
  else if spdmSlot o ≠ 0 then spdmError 1 0
  else b.spdmAnswer o seed

/-- A DOE object of a type that carries a message. -/
def doeObject (type : Nat) (m : List Byte) : List Byte :=
  natLE 2 1 ++ [BitVec.ofNat 8 type, 0] ++ natLE 4 (2 + ceilDiv m.length 4) ++ m
    ++ List.replicate (4 * ceilDiv m.length 4 - m.length) 0

/-- A DOE object of the CMA/SPDM type that carries a message. -/
def doeWrap (m : List Byte) : List Byte := doeObject 1 m

/-- The answer to an object goes out, with the DOE interrupt, vector 255. -/
def State.doeAnswer (s : State) (o : List Byte) : State := ({ s with out := .doe o :: s.out }).msix 255

/-- The security controller answers a whole object. One whose answer needs a nonce waits while ENT_OK is clear. -/
def State.answerSpdm (s : State) (o : List Byte) : State :=
  if spdmSupported o && spdmSlot o == 0 && needsNonce o then
    if s.rng.entOk then
      let (seed, r) := s.rng.draw
      ({ s with rng := r }).doeAnswer (doeWrap (s.boot.spdmReply o seed))
    else { s with pci := { s.pci with spdmWait := some o } }
  else s.doeAnswer (doeWrap (s.boot.spdmReply o 0))

/-- DOE Discovery (R375): entry 0 is Discovery, entry 1 CMA/SPDM, the last; another index names no entry (PCIe; log entry 22). -/
def discovery (o : List Byte) : List Byte :=
  doeObject 0 (match field o 8 1 with
    | 0 => [1, 0, 0, 1]
    | 1 => [1, 0, 1, 0]
    | _ => [0xFF, 0xFF, 0, 0])

/-- A whole object: Discovery and CMA/SPDM are carried; secured CMA/SPDM and every other type are not, and get no answer. -/
def State.takeObject (s : State) (o : List Byte) : State :=
  if field o 0 2 ≠ 1 then s
  else match field o 2 1 with
    | 0 => s.doeAnswer (discovery o)
    | 1 => s.answerSpdm o
    | _ => s

/-- Some bytes of an object arrive. -/
def State.doeWrite (s : State) (bytes : List Byte) : State :=
  let o := s.pci.doePart ++ bytes
  if 16384 < o.length ∨ (8 ≤ o.length ∧ 16384 < doeLength o) then
    { s with pci := { s.pci with doePart := [], doeError := true } }
  else if o.length < 8 ∨ o.length < doeLength o then { s with pci := { s.pci with doePart := o } }
  else ({ s with pci := { s.pci with doePart := [] } }).takeObject o

/-- SPDM_REQUEST: from stage 5 on, while the link is up. The mailbox takes no object while one waits for its nonce. -/
def execSpdmRequest (object : List Byte) (s : State) : Out :=
  .next (if s.pci.down || decide (s.boot.stage < 5) || !s.mgmtOn || s.pci.spdmWait.isSome then s else s.doeWrite object)

/-- DOE_ABORT: the object in progress is discarded; the Error bit clears with it (PCIe; log entry 22). -/
def execDoeAbort (s : State) : Out :=
  .next { s with pci := { s.pci with doePart := [], doeError := false, spdmWait := none } }

end Sys2Proof.Machine
end

