-- ==== Sys2Proof/Machine/Seeds.lean ====
section
/-!
DEFINITION. What waits for the entropy source, and what follows when it delivers or has failed for 100 ms (05 R149, R151, R152;
15 R453).
-/

namespace Sys2Proof.Machine

/-- A domain whose power-up waits for seeds comes on. -/
def State.endDomWait (s : State) (x : Nat) (seeds : Bool) : State :=
  let s := { s with rng := { s.rng with domWait := s.rng.domWait.filter (· ≠ x) } }
  if (s.domain x).st = .up then s.comeOn x seeds else s

/-- ENTROPY_READY: ENT_OK is set; the seedings that wait take place (05 R149, R151), and an SPDM answer gets its nonce. -/
def execEntropyReady (s : State) : Out :=
  .next <|
    if s.rng.entOk then s
    else
      let s := { s with rng := { s.rng with entOk := true } }
      let s := if s.rng.seedWait then { s with rng := { s.rng.reseed with seedWait := false } } else s
      let s := s.rng.domWait.foldl (fun s x => s.endDomWait x true) s
      match s.pci.spdmWait with
      | some o => ({ s with pci := { s.pci with spdmWait := none } }).answerSpdm o
      | none => s

/-- NO_ENTROPY_TIMEOUT: 100 ms without seeds (05 R152). Boot completes with SEEDED clear; a domain comes on with its strings'
counters as they were (log entry 39). An SPDM request that needs a nonce gets ERROR with code Busy (15 R453). -/
def execNoEntropyTimeout (w : SeedWaiter) (s : State) : Out :=
  .next <|
    if s.rng.entOk then s
    else match w with
      | .operation id => s.noEntropyOp id
      | .boot => if s.rng.seedWait then { s with rng := { s.rng with seedWait := false, gaveUp := true } } else s
      | .domain x => if s.rng.domWait.contains x then s.endDomWait x false else s
      | .spdm =>
        match s.pci.spdmWait with
        | some _ => ({ s with pci := { s.pci with spdmWait := none } }).doeAnswer (doeWrap (spdmError 3 0))
        | none => s

end Sys2Proof.Machine
end

