-- ==== Sys2Proof/Machine/Tick.lean ====
section
/-!
DEFINITION. A nanosecond of the module in which no command is waiting: what time alone changes (log entry 4).
-/

namespace Sys2Proof.Machine

/-- The tenths of arithmetic cycles in a nanosecond at an operating point: root / 2 (01 R22, 14 R423). -/
def pointTenths (p : Nat) : Nat := pointMHz p / 200

/-- The strings of a cluster domain that runs advance, swallowed cycles included (05 R147, R148, 14 R422); else they hold. -/
def State.runStrings (s : State) (x : Nat) : State :=
  if s.stringsRun x then
    let n := pointTenths (s.die (x / 4)).point.toNat
    { s with rng := { s.rng with doms := tupd ⟨0, 0⟩ s.rng.doms x fun d => { d with tenths := d.tenths + n } } }
  else s

/-- The counters of nanoseconds: SLIP_NS (06 R177), PAUSE_NS (10 R313), LIMITED_NS (14). -/
def State.countTime (s : State) : State :=
  let s := if s.stw.slip then s.bump Evt.slipNs 1 else s
  let s := s.bump Evt.pauseNs (s.hw.ports.filter fun p => p.2.paused).length
  if s.pwr.dies.any fun d => decide (d.2.k.toNat < 16) then s.bump Evt.limitedNs 1 else s

/-- One nanosecond; the host's accesses that waited go on when they can (11 R352, R353). Without power to the management domain nothing
counts it. -/
def State.tick (s : State) : State :=
  if !s.mgmtOn then s
  else
    let s := { s with tide := s.tide + 1 }
    (clusterDoms.foldl State.runStrings s.countTime).settleHeld.watchSlip

end Sys2Proof.Machine
end

