-- ==== Sys2Proof/Machine/Dispatch.lean ====
section
/-!
DEFINITION. The dispatch of a command to its meaning: one arm for each constructor of Instr.
-/

namespace Sys2Proof.Machine

def exec (i : Instr) (s : State) : Host.Outcome State Fault Refusal :=
  match i with
  | .doorbellWrite q t => Sys2Proof.Machine.execDoorbellWrite q t s
  | .descriptorFetch q index bytes => Sys2Proof.Machine.execDescriptorFetch q index bytes s
  | .fetchAbort q index => Sys2Proof.Machine.execFetchAbort q index s
  | .headerCheck q => Sys2Proof.Machine.execHeaderCheck q s
  | .dispatch q => Sys2Proof.Machine.execDispatch q s
  | .completionSignal op inst => Sys2Proof.Machine.execCompletionSignal op inst s
  | .queueEnable q v => Sys2Proof.Machine.execQueueEnable q v s
  | .queueDisable q v => Sys2Proof.Machine.execQueueDisable q v s
  | .resume q v => Sys2Proof.Machine.execResume q v s
  | .cntAdd n amount => Sys2Proof.Machine.execCntAdd n amount s
  | .cntSet n amount => Sys2Proof.Machine.execCntSet n amount s
  | .faultedClear n => Sys2Proof.Machine.execFaultedClear n s
  | .evtClear off => Sys2Proof.Machine.execEvtClear off s
  | .xfInfoClear => Sys2Proof.Machine.execXfInfoClear s
  | .registerWrite bar off size v => Sys2Proof.Machine.execRegisterWrite bar off size v s
  | .mirrorRead => Sys2Proof.Machine.execMirrorRead s
  | .sweep op inst => Sys2Proof.Machine.execSweep op inst s
  | .sweepInstanceFault op inst cause => Sys2Proof.Machine.execSweepInstanceFault op inst cause s
  | .release op => Sys2Proof.Machine.execRelease op s
  | .convert op => Sys2Proof.Machine.execConvert op s
  | .push op => Sys2Proof.Machine.execPush op s
  | .pop op => Sys2Proof.Machine.execPop op s
  | .peek op => Sys2Proof.Machine.execPeek op s
  | .gate op => Sys2Proof.Machine.execGate op s
  | .descSkipped q => Sys2Proof.Machine.execDescSkipped q s
  | .clear op => Sys2Proof.Machine.execClear op s
  | .laneConfigWrite l r v => Sys2Proof.Machine.execLaneConfigWrite l r v s
  | .run op => Sys2Proof.Machine.execRun op s
  | .lossClear slot => Sys2Proof.Machine.execLossClear slot s
  | .sample op => Sys2Proof.Machine.execSample op s
  | .checkArm q => Sys2Proof.Machine.execCheckArm q s
  | .check op => Sys2Proof.Machine.execCheck op s
  | .runAheadDispatch q => Sys2Proof.Machine.execRunAheadDispatch q s
  | .tunerEnable => Sys2Proof.Machine.execTunerEnable s
  | .tunerDisable => Sys2Proof.Machine.execTunerDisable s
  | .runaheadCfgWrite n v => Sys2Proof.Machine.execRunaheadCfgWrite n v s
  | .fill op => Sys2Proof.Machine.execFill op s
  | .save op => Sys2Proof.Machine.execSave op s
  | .restore op => Sys2Proof.Machine.execRestore op s
  | .reseed op => Sys2Proof.Machine.execReseed op s
  | .stringReseed pc l => Sys2Proof.Machine.execStringReseed pc l s
  | .entropyHealthFail repetition adaptive => Sys2Proof.Machine.execEntropyHealthFail repetition adaptive s
  | .entropyReady => Sys2Proof.Machine.execEntropyReady s
  | .noEntropyTimeout who => Sys2Proof.Machine.execNoEntropyTimeout who s
  | .fence op => Sys2Proof.Machine.execFence op s
  | .storePte op => Sys2Proof.Machine.execStorePte op s
  | .land op reply => Sys2Proof.Machine.execLand op reply s
  | .exportShard op => Sys2Proof.Machine.execExportShard op s
  | .openSeq op => Sys2Proof.Machine.execOpenSeq op s
  | .closeSeq op => Sys2Proof.Machine.execCloseSeq op s
  | .append op => Sys2Proof.Machine.execAppend op s
  | .truncate op => Sys2Proof.Machine.execTruncate op s
  | .reserve op => Sys2Proof.Machine.execReserve op s
  | .matchPrefix op => Sys2Proof.Machine.execMatchPrefix op s
  | .publish op => Sys2Proof.Machine.execPublish op s
  | .attend op => Sys2Proof.Machine.execAttend op s
  | .attendGrad op => Sys2Proof.Machine.execAttendGrad op s
  | .query op => Sys2Proof.Machine.execQuery op s
  | .pageFree stack page => Sys2Proof.Machine.execPageFree stack page s
  | .poolConfigWrite stack r v => Sys2Proof.Machine.execPoolConfigWrite stack r v s
  | .prefixKeyWrite high v => Sys2Proof.Machine.execPrefixKeyWrite high v s
  | .put op => Sys2Proof.Machine.execPut op s
  | .allreduce op => Sys2Proof.Machine.execAllreduce op s
  | .ferry op => Sys2Proof.Machine.execFerry op s
  | .regroup op => Sys2Proof.Machine.execRegroup op s
  | .putFrame peer p => Sys2Proof.Machine.execPutFrame peer p s
  | .contribFrame peer p => Sys2Proof.Machine.execContribFrame peer p s
  | .statsFrame peer p => Sys2Proof.Machine.execStatsFrame peer p s
  | .readyFrame peer p => Sys2Proof.Machine.execReadyFrame peer p s
  | .closeFrame peer p => Sys2Proof.Machine.execCloseFrame peer p s
  | .ferryBlock peer p => Sys2Proof.Machine.execFerryBlock peer p s
  | .ferryFree peer p => Sys2Proof.Machine.execFerryFree peer p s
  | .deadlineClose g => Sys2Proof.Machine.execDeadlineClose g s
  | .collTimeout op => Sys2Proof.Machine.execCollTimeout op s
  | .ferryWaitTimeout op => Sys2Proof.Machine.execFerryWaitTimeout op s
  | .rxData p f => Sys2Proof.Machine.execRxData p f s
  | .ack p f => Sys2Proof.Machine.execAck p f s
  | .ackTimer peer p => Sys2Proof.Machine.execAckTimer peer p s
  | .nak p f => Sys2Proof.Machine.execNak p f s
  | .busyResend peer p => Sys2Proof.Machine.execBusyResend peer p s
  | .rtoExpiry peer p => Sys2Proof.Machine.execRtoExpiry peer p s
  | .syncReq p f => Sys2Proof.Machine.execSyncReq p f s
  | .syncRsp p f => Sys2Proof.Machine.execSyncRsp p f s
  | .pause p priority ns => Sys2Proof.Machine.execPause p priority ns s
  | .peerReset peer => Sys2Proof.Machine.execPeerReset peer s
  | .hawserConfigWrite off v => Sys2Proof.Machine.execHawserConfigWrite off v s
  | .portEnable p => Sys2Proof.Machine.execPortEnable p s
  | .portDisable p => Sys2Proof.Machine.execPortDisable p s
  | .retrain p => Sys2Proof.Machine.execRetrain p s
  | .trainingDone p => Sys2Proof.Machine.execTrainingDone p s
  | .trainingTimeout p => Sys2Proof.Machine.execTrainingTimeout p s
  | .downTimeout p => Sys2Proof.Machine.execDownTimeout p s
  | .drainDone p => Sys2Proof.Machine.execDrainDone p s
  | .linkFailure p codewords => Sys2Proof.Machine.execLinkFailure p codewords s
  | .degradedWindow p corrected received => Sys2Proof.Machine.execDegradedWindow p corrected received s
  | .mbxWordWrite m c w v => Sys2Proof.Machine.execMbxWordWrite m c w v s
  | .send m c v => Sys2Proof.Machine.execSend m c v s
  | .ackMessage m c v => Sys2Proof.Machine.execAckMessage m c v s
  | .acquire m c peer => Sys2Proof.Machine.execAcquire m c peer s
  | .lockRelease m c => Sys2Proof.Machine.execLockRelease m c s
  | .nop op => Sys2Proof.Machine.execNop op s
  | .notify op => Sys2Proof.Machine.execNotify op s
  | .ctxSave op => Sys2Proof.Machine.execCtxSave op s
  | .ctxRestore op => Sys2Proof.Machine.execCtxRestore op s
  | .bar4Read off len => Sys2Proof.Machine.execBar4Read off len s
  | .bar4Write off bytes poisoned => Sys2Proof.Machine.execBar4Write off bytes poisoned s
  | .sideDataRead => Sys2Proof.Machine.execSideDataRead s
  | .sideDataWrite v => Sys2Proof.Machine.execSideDataWrite v s
  | .hostReset cause => Sys2Proof.Machine.execHostReset cause s
  | .functionStateChange d3hot busMaster => Sys2Proof.Machine.execFunctionStateChange d3hot busMaster s
  | .msixUnmask v => Sys2Proof.Machine.execMsixUnmask v s
  | .spdmRequest object => Sys2Proof.Machine.execSpdmRequest object s
  | .doeAbort => Sys2Proof.Machine.execDoeAbort s
  | .readReq f => Sys2Proof.Machine.execReadReq f s
  | .broadcastReadRsp => Sys2Proof.Machine.execBroadcastReadRsp s
  | .writeReq f => Sys2Proof.Machine.execWriteReq f s
  | .domainSegment f => Sys2Proof.Machine.execDomainSegment f s
  | .domainTimeout t => Sys2Proof.Machine.execDomainTimeout t s
  | .store src tid v => Sys2Proof.Machine.execStore src tid v s
  | .restoreDefaults src tid v => Sys2Proof.Machine.execRestoreDefaults src tid v s
  | .clearExtremes src tid v => Sys2Proof.Machine.execClearExtremes src tid v s
  | .logAck src tid v => Sys2Proof.Machine.execLogAck src tid v s
  | .plcaWrite src tid sub v => Sys2Proof.Machine.execPlcaWrite src tid sub v s
  | .capWrite src tid sub v => Sys2Proof.Machine.execCapWrite src tid sub v s
  | .capReleaseStep => Sys2Proof.Machine.execCapReleaseStep s
  | .repairRecord => Sys2Proof.Machine.execRepairRecord s
  | .targetWrite src tid v => Sys2Proof.Machine.execTargetWrite src tid v s
  | .activate src tid v => Sys2Proof.Machine.execActivate src tid v s
  | .verificationDone => Sys2Proof.Machine.execVerificationDone s
  | .energySave => Sys2Proof.Machine.execEnergySave s
  | .supplyEventBegin e mean => Sys2Proof.Machine.execSupplyEventBegin e mean s
  | .supplyEventEnd e mean => Sys2Proof.Machine.execSupplyEventEnd e mean s
  | .rippleWindow vpp => Sys2Proof.Machine.execRippleWindow vpp s
  | .nvInhibitClear => Sys2Proof.Machine.execNvInhibitClear s
  | .inputOvervoltage mean => Sys2Proof.Machine.execInputOvervoltage mean s
  | .overcurrent => Sys2Proof.Machine.execOvercurrent s
  | .supplyRestart => Sys2Proof.Machine.execSupplyRestart s
  | .referenceLoss => Sys2Proof.Machine.execReferenceLoss s
  | .referenceRestored => Sys2Proof.Machine.execReferenceRestored s
  | .governorFastStep limit mean => Sys2Proof.Machine.execGovernorFastStep limit mean s
  | .governorMsTick m => Sys2Proof.Machine.execGovernorMsTick m s
  | .bursts pIn => Sys2Proof.Machine.execBursts pIn s
  | .burstEnd pIn => Sys2Proof.Machine.execBurstEnd pIn s
  | .retune die up mean => Sys2Proof.Machine.execRetune die up mean s
  | .marginShort die => Sys2Proof.Machine.execMarginShort die s
  | .thermalRead t => Sys2Proof.Machine.execThermalRead t s
  | .thermalTrip die temp => Sys2Proof.Machine.execThermalTrip die temp s
  | .thermalKStep die => Sys2Proof.Machine.execThermalKStep die s
  | .throttleChange asserted => Sys2Proof.Machine.execThrottleChange asserted s
  | .throttleHeld => Sys2Proof.Machine.execThrottleHeld s
  | .throttleChatter edges => Sys2Proof.Machine.execThrottleChatter edges s
  | .chatterClear => Sys2Proof.Machine.execChatterClear s
  | .domainReqOn x => Sys2Proof.Machine.execDomainReqOn x s
  | .domainReqSlack x => Sys2Proof.Machine.execDomainReqSlack x s
  | .domainReqOff x => Sys2Proof.Machine.execDomainReqOff x s
  | .slackEntry x => Sys2Proof.Machine.execSlackEntry x s
  | .slackWake x => Sys2Proof.Machine.execSlackWake x s
  | .domainPowerRemoved x => Sys2Proof.Machine.execDomainPowerRemoved x s
  | .domainPoweredUp x => Sys2Proof.Machine.execDomainPoweredUp x s
  | .retrainInterface stack ok => Sys2Proof.Machine.execRetrainInterface stack ok s
  | .scrub line => Sys2Proof.Machine.execScrub line s
  | .moduleReset cause => Sys2Proof.Machine.execModuleReset cause s
  | .bootStageComplete b => Sys2Proof.Machine.execBootStageComplete b s
  | .bootHalt reason => Sys2Proof.Machine.execBootHalt reason s
  | .pauseTimeExpiry p => Sys2Proof.Machine.execPauseTimeExpiry p s
  | .firstEstablishmentTimeout peer => Sys2Proof.Machine.execFirstEstablishmentTimeout peer s
  | .modRstNRelease => Sys2Proof.Machine.execModRstNRelease s
  | .pcieLinkUp => Sys2Proof.Machine.execPcieLinkUp s
  | .storeDone ok => Sys2Proof.Machine.execStoreDone ok s
  | .managementPowerLoss => Sys2Proof.Machine.execManagementPowerLoss s

end Sys2Proof.Machine
end

