-- ==== Sys2Proof/Machine/Wire.lean ====
section
/-!
DEFINITION. The bytes of frames (00 R4; 10 R314, R315; 13 R391): a Hawser frame and a dictionary frame as they stand on the wire, and
as a receiver reads them. Ethernet's own fields are in network order, every other field is little-endian.
-/

namespace Sys2Proof.Machine

/-! ### Ethernet -/

/-- n bytes of a value in network order. -/
def natBE (n v : Nat) : List Byte := (natLE n v).reverse

/-- The value of bytes in network order. -/
def beNat (bs : List Byte) : Nat := leNat bs.reverse

/-- One bit of the CRC-32 of IEEE 802.3, least significant first (PRESUMED, log entry 72). -/
def crcBit (c : Nat) : Nat := if c % 2 = 1 then Nat.xor (c / 2) 0xEDB88320 else c / 2

/-- One byte of the CRC. -/
def crcByte (c : Nat) (b : Byte) : Nat := (List.range 8).foldl (fun c _ => crcBit c) (Nat.xor c b.toNat)

/-- The frame check sequence of some bytes (PRESUMED, log entry 72). -/
def fcs (bs : List Byte) : List Byte := natLE 4 (Nat.xor (bs.foldl crcByte 0xFFFFFFFF) 0xFFFFFFFF)

/-- Padding to the Ethernet minimum of 64 bytes with the FCS, and the FCS (PRESUMED, log entry 72). -/
def sealFrame (bs : List Byte) : List Byte :=
  let bs := bs ++ List.replicate (60 - bs.length) 0
  bs ++ fcs bs

/-- The FCS of a received frame is right. -/
def sealOk (bs : List Byte) : Bool := decide (64 ≤ bs.length) && bs.drop (bs.length - 4) == fcs (bs.take (bs.length - 4))

/-- The Ethernet addresses, the 802.1Q tag where there is one, and the EtherType. -/
def ethernet (dst src : BitVec 48) (vlan : Option (BitVec 16)) (type : BitVec 16) : List Byte :=
  natBE 6 dst.toNat ++ natBE 6 src.toNat ++ (match vlan with | some t => natBE 2 0x8100 ++ natBE 2 t.toNat | none => [])
    ++ natBE 2 type.toNat

/-- The tag of a received frame. -/
def tagOf (bs : List Byte) : Option (BitVec 16) :=
  if beNat (slice bs 12 2) = 0x8100 then some (BitVec.ofNat 16 (beNat (slice bs 14 2))) else none

/-- Where what follows the EtherType of a received frame begins. -/
def bodyAt (bs : List Byte) : Nat := if (tagOf bs).isSome then 18 else 14

/-! ### Hawser (10 R314, R315) -/

/-- The 64-byte Hawser header. -/
def hwHeader (f : HwFrame) : List Byte :=
  [BitVec.ofNat 8 (f.version.toNat + at_ 4 f.type.toNat), f.kind] ++ natLE 2 (f.srcId.toNat + at_ 12 f.srcPort.toNat)
    ++ natLE 2 f.dstId.toNat ++ natLE 3 f.psn.toNat ++ natLE 3 f.ackPsn.toNat ++ [f.epoch] ++ zeros 3
    ++ [BitVec.ofNat 8 f.lines.length, BitVec.ofNat 8 f.group.toNat] ++ natLE 2 f.revision.toNat ++ natLE 4 f.msgId.toNat
    ++ natLE 4 f.lineOffset.toNat ++ natLE 4 f.msgLines.toNat ++ natLE 8 f.addr.toNat ++ natLE 2 f.remoteCounter.toNat
    ++ natLE 2 f.remoteIncrement.toNat ++ zeros 4 ++ natLE 16 f.poison.toNat

/-- A Hawser frame on the wire: each carried line is its payload and its side bytes. -/
def hwBytes (f : HwFrame) : List Byte :=
  sealFrame (ethernet f.dstMac f.srcMac f.vlan f.etherType ++ hwHeader f ++ f.lines.flatMap fun l => l.1 ++ l.2)

/-- A frame as a port receives it. Reserved bytes are not looked at. -/
def hwFrameOf (bs : List Byte) : HwFrame :=
  let k := bodyAt bs
  let h := slice bs k 64
  let w (i n : Nat) : Nat := field h i n
  { fcsOk := sealOk bs
    dstMac := BitVec.ofNat 48 (beNat (slice bs 0 6)), srcMac := BitVec.ofNat 48 (beNat (slice bs 6 6)), vlan := tagOf bs
    etherType := BitVec.ofNat 16 (beNat (slice bs (k - 2) 2))
    version := BitVec.ofNat 4 (bits (w 0 1) 3 0), type := BitVec.ofNat 4 (bits (w 0 1) 7 4), kind := BitVec.ofNat 8 (w 1 1)
    srcId := BitVec.ofNat 12 (bits (w 2 2) 11 0), srcPort := BitVec.ofNat 4 (bits (w 2 2) 15 12)
    dstId := BitVec.ofNat 12 (bits (w 4 2) 11 0), psn := BitVec.ofNat 24 (w 6 3), ackPsn := BitVec.ofNat 24 (w 9 3)
    epoch := BitVec.ofNat 8 (w 12 1), group := BitVec.ofNat 4 (bits (w 17 1) 3 0), revision := BitVec.ofNat 16 (w 18 2)
    msgId := BitVec.ofNat 32 (w 20 4), lineOffset := BitVec.ofNat 32 (w 24 4), msgLines := BitVec.ofNat 32 (w 28 4)
    addr := BitVec.ofNat 64 (w 32 8), remoteCounter := BitVec.ofNat 16 (w 40 2), remoteIncrement := BitVec.ofNat 16 (w 42 2)
    poison := BitVec.ofNat 128 (w 48 16)
    lines := (List.range (w 16 1)).map fun i => (slice bs (k + 64 + 72 * i) 64, slice bs (k + 128 + 72 * i) 8) }

/-! ### The object dictionary (13 R391) -/

/-- The 24-byte PDU header. -/
def pduHeader (f : MgmtFrame) : List Byte :=
  [f.version, f.service] ++ natLE 2 f.tid.toNat ++ natLE 2 f.index.toNat ++ [f.sub, f.status] ++ natLE 4 f.offset.toNat
    ++ natLE 2 f.length ++ [f.flags, if f.reservedSet then 1 else 0] ++ natLE 4 f.total.toNat ++ zeros 4

/-- A dictionary frame on the wire. -/
def mgmtBytes (f : MgmtFrame) : List Byte :=
  sealFrame (ethernet f.dst f.src (if f.tagged then some 0 else none) f.etherType ++ pduHeader f ++ f.data)

/-- A frame as the management port receives it; padding is not looked at. A READ_REQ has no data after its header. -/
def mgmtFrameOf (bs : List Byte) : MgmtFrame :=
  let k := bodyAt bs
  let h := slice bs k 24
  let w (i n : Nat) : Nat := field h i n
  { dst := BitVec.ofNat 48 (beNat (slice bs 0 6)), src := BitVec.ofNat 48 (beNat (slice bs 6 6))
    etherType := BitVec.ofNat 16 (beNat (slice bs (k - 2) 2)), tagged := (tagOf bs).isSome
    version := BitVec.ofNat 8 (w 0 1), service := BitVec.ofNat 8 (w 1 1), tid := BitVec.ofNat 16 (w 2 2)
    index := BitVec.ofNat 16 (w 4 2), sub := BitVec.ofNat 8 (w 6 1), status := BitVec.ofNat 8 (w 7 1)
    offset := BitVec.ofNat 32 (w 8 4), flags := BitVec.ofNat 8 (w 14 1), total := BitVec.ofNat 32 (w 16 4)
    reservedSet := anySet h 15 1 || anySet h 20 4, length := w 12 2
    data := if w 1 1 = 1 then [] else slice bs (k + 24) (w 12 2) }

end Sys2Proof.Machine
end

