-- ==== Sys2Proof/Safety.lean ====
section
/-!
DEFINITION. What counts as a safe run of the module: one in which every step answers a next state, and the invariants that the
statements name.
-/

namespace Sys2Proof

open Sys2Proof.Machine

/-- An event counter (03 R98). -/
def Machine.State.count (s : State) (off : Nat) : BitVec 48 := tget 0 s.dp.evts off

/-- Operation `id` is dispatched with an opcode, and its instance n still runs. -/
def Machine.State.Running (s : State) (id n opcode : Nat) (o : Op) (i : Inst) : Prop :=
  s.findOp id = some o ∧ opcodeOf o.desc = opcode ∧ o.findInst n = some i ∧ i.phase = .running

/-- From s to t instance n of operation `id` has ended, at the present tide, with a fault code, 0 for none; every other operation is
as it was. -/
def Machine.State.Ended (s t : State) (id n fault va : Nat) : Prop :=
  t.ops = s.ops.map fun (o : Op) => if o.id = id then
    { o with insts := o.insts.map fun (i : Inst) => if i.n = n then { i with phase := .done, fault := fault, va := va, at_ := s.tide } else i }
    else o

/-- The outcome is a next state. -/
def Completes (o : Host.Outcome State Fault Refusal) : Prop := ∃ t, o = .next t

/-- The state after n steps, where each answers a next state. -/
def runs : Nat → State → Option State
  | 0, s => some s
  | n + 1, s =>
    match step s with
    | .next t => runs n t
    | .fault _ => none
    | .refused _ => none

/-- A run of n steps is safe when no step stops. -/
def SafeFor (n : Nat) (s : State) : Prop := (runs n s).isSome = true

end Sys2Proof
end

