-- ==== Sys2Proof/WellFormed.lean ====
section
/-!
DEFINITION. When a command names only what the module has: queues, counters, ports and the like within their numbers, frames and
descriptors of the right size.
-/

namespace Sys2Proof

/-- A submission queue (11). -/
def okQueue (q : Nat) : Bool := decide (q < 64)
/-- A completion counter (11 R362). -/
def okCounter (n : Nat) : Bool := decide (n < 4096)
/-- A logical cluster (01 R15). -/
def okCluster (n : Nat) : Bool := decide (n < 800)
/-- A stow lane, a loss slot or a stack: sixteen of each (06 R161, R192; 01). -/
def okSixteen (n : Nat) : Bool := decide (n < 16)
/-- A string of a physical cluster (05 R147). -/
def okString (pc l : Nat) : Bool := decide (pc < 832) && decide (l < 128)
/-- A Hawser port (10 R305). -/
def okPort (p : Nat) : Bool := decide (p < 16)
/-- A peer entry (10 R347). -/
def okPeer (i : Nat) : Bool := decide (i < 4096)
/-- A mailbox channel (12 R376). -/
def okChannel (c : Nat) : Bool := decide (c < 64)
/-- A channel with a lock (12 R386). -/
def okLock (c : Nat) : Bool := decide (48 ≤ c) && decide (c < 64)
/-- An MSI-X vector (11 R367). -/
def okVector (v : Nat) : Bool := decide (v < 256)
/-- A power domain of PWR_DOM_CTL_x (14 R431). -/
def okDomain (x : Nat) : Bool := decide (x < 32)
/-- A compute die. -/
def okDie (d : Nat) : Bool := decide (d < 4)
/-- A die with a sensor, as THERMAL names it (13 R410). -/
def okSensor (d : Nat) : Bool := decide (d < 5) || (decide (0x10 ≤ d) && decide (d < 0x20))
/-- A descriptor of 64 bytes (11 R358). -/
def okDescriptor (bs : List Byte) : Bool := bs.length == 64
/-- A line of memory (08 R222). -/
def okLine (l : Nat) : Bool := decide (l < 2 ^ 34 + 800 * 2 ^ 15)
/-- An offset within a BAR (11 R349). -/
def okOffset (b : Bar) (off : Nat) : Bool :=
  match b with
  | .bar0 => decide (off < 2 ^ 26)
  | .bar2 => decide (off < 2 ^ 20)
  | .config => decide (off < 2 ^ 12)
/-- The offset of an event counter (03 R98). -/
def okEvent (off : Nat) : Bool := Machine.allEvents.contains off
/-- A Hawser frame carries up to 126 lines of 64 payload and 8 side bytes (10 R315). -/
def okFrame (f : HwFrame) : Bool := decide (f.lines.length ≤ 126) && f.lines.all fun l => l.1.length == 64 && l.2.length == 8
/-- A dictionary frame carries up to 1,024 data bytes, as many as its Length says (13 R391); the Length of a READ_REQ is what it
asks for (R399), and no data follow. -/
def okMgmt (f : MgmtFrame) : Bool :=
  decide (f.length ≤ 1024) && (f.data.length == f.length || (f.service == 1 && f.data.isEmpty))

/-- A well-formed command. -/
def Instr.wf : Instr → Bool
  | .doorbellWrite q _ => okQueue q
  | .descriptorFetch q _ bytes => okQueue q && okDescriptor bytes
  | .fetchAbort q _ => okQueue q
  | .headerCheck q => okQueue q
  | .dispatch q => okQueue q
  | .completionSignal _ inst => okSixteen inst
  | .queueEnable q _ => okQueue q
  | .queueDisable q _ => okQueue q
  | .resume q _ => okQueue q
  | .cntAdd n _ => okCounter n
  | .cntSet n _ => okCounter n
  | .faultedClear n => okCounter n
  | .evtClear off => okEvent off
  | .xfInfoClear => true
  | .registerWrite bar off _ _ => okOffset bar off
  | .mirrorRead => true
  | .sweep _ inst => okSixteen inst
  | .sweepInstanceFault _ inst _ => okSixteen inst
  | .release _ => true
  | .convert _ => true
  | .push _ => true
  | .pop _ => true
  | .peek _ => true
  | .gate _ => true
  | .descSkipped q => okQueue q
  | .clear _ => true
  | .laneConfigWrite l _ _ => okSixteen l
  | .run _ => true
  | .lossClear slot => okSixteen slot
  | .sample _ => true
  | .checkArm q => okQueue q
  | .check _ => true
  | .runAheadDispatch q => okQueue q
  | .tunerEnable => true
  | .tunerDisable => true
  | .runaheadCfgWrite n _ => okCluster n
  | .fill _ => true
  | .save _ => true
  | .restore _ => true
  | .reseed _ => true
  | .stringReseed pc l => okString pc l
  | .entropyHealthFail _ _ => true
  | .entropyReady => true
  | .noEntropyTimeout _ => true
  | .fence _ => true
  | .storePte _ => true
  | .land _ _ => true
  | .exportShard _ => true
  | .openSeq _ => true
  | .closeSeq _ => true
  | .append _ => true
  | .truncate _ => true
  | .reserve _ => true
  | .matchPrefix _ => true
  | .publish _ => true
  | .attend _ => true
  | .attendGrad _ => true
  | .query _ => true
  | .pageFree stack _ => okSixteen stack
  | .poolConfigWrite stack _ _ => okSixteen stack
  | .prefixKeyWrite _ _ => true
  | .put _ => true
  | .allreduce _ => true
  | .ferry _ => true
  | .regroup _ => true
  | .putFrame peer p => okPeer peer && okPort p
  | .contribFrame peer p => okPeer peer && okPort p
  | .statsFrame peer p => okPeer peer && okPort p
  | .readyFrame peer p => okPeer peer && okPort p
  | .closeFrame peer p => okPeer peer && okPort p
  | .ferryBlock peer p => okPeer peer && okPort p
  | .ferryFree peer p => okPeer peer && okPort p
  | .deadlineClose g => okSixteen g
  | .collTimeout _ => true
  | .ferryWaitTimeout _ => true
  | .rxData p f => okPort p && okFrame f
  | .ack p f => okPort p && okFrame f
  | .ackTimer peer p => okPeer peer && okPort p
  | .nak p f => okPort p && okFrame f
  | .busyResend peer p => okPeer peer && okPort p
  | .rtoExpiry peer p => okPeer peer && okPort p
  | .syncReq p f => okPort p && okFrame f
  | .syncRsp p f => okPort p && okFrame f
  | .pause p _ _ => okPort p
  | .peerReset peer => okPeer peer
  | .hawserConfigWrite off _ => okOffset .bar0 off
  | .portEnable p => okPort p
  | .portDisable p => okPort p
  | .retrain p => okPort p
  | .trainingDone p => okPort p
  | .trainingTimeout p => okPort p
  | .downTimeout p => okPort p
  | .drainDone p => okPort p
  | .linkFailure p _ => okPort p
  | .degradedWindow p _ _ => okPort p
  | .mbxWordWrite _ c w _ => okChannel c && decide (w < 8)
  | .send _ c _ => okChannel c
  | .ackMessage _ c _ => okChannel c
  | .acquire _ c _ => okLock c
  | .lockRelease _ c => okLock c
  | .nop _ => true
  | .notify _ => true
  | .ctxSave _ => true
  | .ctxRestore _ => true
  | .bar4Read _ _ => true
  | .bar4Write _ _ _ => true
  | .sideDataRead => true
  | .sideDataWrite _ => true
  | .hostReset _ => true
  | .functionStateChange _ _ => true
  | .msixUnmask v => okVector v
  | .spdmRequest _ => true
  | .doeAbort => true
  | .readReq f => okMgmt f
  | .broadcastReadRsp => true
  | .writeReq f => okMgmt f
  | .domainSegment f => okMgmt f
  | .domainTimeout _ => true
  | .store _ _ _ => true
  | .restoreDefaults _ _ _ => true
  | .clearExtremes _ _ _ => true
  | .logAck _ _ _ => true
  | .plcaWrite _ _ _ _ => true
  | .capWrite _ _ _ _ => true
  | .capReleaseStep => true
  | .repairRecord => true
  | .targetWrite _ _ _ => true
  | .activate _ _ _ => true
  | .verificationDone => true
  | .energySave => true
  | .supplyEventBegin _ _ => true
  | .supplyEventEnd _ _ => true
  | .rippleWindow _ => true
  | .nvInhibitClear => true
  | .inputOvervoltage _ => true
  | .overcurrent => true
  | .supplyRestart => true
  | .referenceLoss => true
  | .referenceRestored => true
  | .governorFastStep _ _ => true
  | .governorMsTick _ => true
  | .bursts _ => true
  | .burstEnd _ => true
  | .retune die _ _ => okDie die
  | .marginShort die => okDie die
  | .thermalRead _ => true
  | .thermalTrip die _ => okSensor die
  | .thermalKStep die => okDie die
  | .throttleChange _ => true
  | .throttleHeld => true
  | .throttleChatter _ => true
  | .chatterClear => true
  | .domainReqOn x => okDomain x
  | .domainReqSlack x => okDomain x
  | .domainReqOff x => okDomain x
  | .slackEntry x => okDomain x
  | .slackWake x => okDomain x
  | .domainPowerRemoved x => okDomain x
  | .domainPoweredUp x => okDomain x
  | .retrainInterface stack _ => okSixteen stack
  | .scrub line => okLine line
  | .moduleReset _ => true
  | .bootStageComplete _ => true
  | .bootHalt _ => true
  | .pauseTimeExpiry p => okPort p
  | .firstEstablishmentTimeout peer => okPeer peer
  | .modRstNRelease => true
  | .pcieLinkUp => true
  | .storeDone _ => true
  | .managementPowerLoss => true

end Sys2Proof
end

