-- ==== Sys2Proof/Certificates/Slice0/Obligations.lean ====
section
/-!
DEFINITION. The statements about the PTD-K840's model.
-/

open Sys2Proof Sys2Proof.Machine

/-! ### The machine as a whole -/

/-- The step takes the command at the front of the queue and runs it with the queue's rest; with none waiting a nanosecond
passes (the model's choice, log entry 4). -/
def Obligations.StepRunsTheFrontCommand : Prop :=
  ∀ (s : State) (c : Instr) (rest : List Instr),
    step { s with pending := c :: rest } = exec c { s with pending := rest }
      ∧ (s.pending = [] → step s = .next s.tick)

/-- The only stop of the module is a command whose operand names no component, and no well-formed command is one; nothing is
refused. -/
def Obligations.OnlyMissingComponentsStop : Prop :=
  ∀ (c : Instr) (s : State),
    (c.wf = true → Completes (exec c s)) ∧ (Completes (exec c s) ∨ exec c s = .fault .noSuchComponent)

/-- A command leaves the queue of waiting commands as it is: no command is dropped, doubled or reordered by another. -/
def Obligations.CommandsKeepTheQueue : Prop :=
  ∀ (c : Instr) (s t : State), exec c s = .next t → t.pending = s.pending

/-- Memory keeps its canonical form: addresses rise and no cell is listed with what an unlisted cell reads as. -/
def Obligations.StepsKeepMemoryCanonical : Prop :=
  ∀ s t : State, Memory.wf s.dp.cells = true → step s = .next t → Memory.wf t.dp.cells = true

/-- Anti-rollback counters never fall, whatever commands arrive (15 R449). -/
def Obligations.RollbackCountersNeverFall : Prop :=
  ∀ s t : State, step s = .next t → ∀ k, (s.boot.counter k).toNat ≤ (t.boot.counter k).toNat

/-- Right after the power-up of the management domain: the queue registers, the completion counters, the event counters,
FAULT_LOG_CFG, the tuner's TUNER_SEL, MEM_ECC_CTL and PWR_CFG read the values that their tables give, the governor is at k = 16
and P0, no command and no operation is there, and memory is canonical. -/
def Obligations.ResetRegisters : Prop :=
  (∀ q, q < 64 → State.reset.readBar0 (0x1000 + 0x40 * q) = 0 ∧ State.reset.readBar0 (0x1008 + 0x40 * q) = 0x400
      ∧ State.reset.readBar0 (0x1010 + 0x40 * q) = 0 ∧ State.reset.readBar0 (0x1018 + 0x40 * q) = 0)
    ∧ (∀ n, n < 4096 → State.reset.readBar0 (0x4000 + 8 * n) = 0)
    ∧ (∀ off, off ∈ allEvents → State.reset.readBar0 off = 0)
    ∧ State.reset.readBar0 0x008 = 6
    ∧ (∀ i, i < 16 → State.reset.readBar0 (0x1003110 + 0x40 * i) = 0xC00000000)
    ∧ State.reset.readBar0 0x1009020 = 0x180003
    ∧ State.reset.readBar0 0x100D000 = 100
    ∧ (∀ d, (State.reset.die d).k = 16 ∧ (State.reset.die d).point = 0)
    ∧ State.reset.pending = [] ∧ State.reset.ops = [] ∧ Memory.wf State.reset.dp.cells = true

/-! ### Registers -/

/-- CNT_ADD_n adds to VALUE modulo 2^32 or sets it, a 1 written to CNT_n.FAULTED clears the latched fault and its code; no
other counter and no other register changes but for the interleave slip, which reads the counters. -/
def Sys2Proof.Claim.CounterCommands : Prop :=
  ∀ (s : State) (n : Nat) (a : Word), n < 4096 →
    exec (.cntAdd n a) s
        = .next ({ s with cnt := tput s.cnt n { s.counter n with value := (s.counter n).value + a } }).watchSlip
      ∧ exec (.cntSet n a) s = .next ({ s with cnt := tput s.cnt n { s.counter n with value := a } }).watchSlip
      ∧ exec (.faultedClear n) s = .next { s with cnt := tput s.cnt n { s.counter n with faulted := false, code := 0 } }

/-- The clears: a listed event counter, a loss slot, XF_INFO's capture. Each returns its register to zero and changes nothing
else. -/
def Sys2Proof.Claim.ClearCommands : Prop :=
  (∀ (s : State) (off : Nat), off ∈ allEvents →
      exec (.evtClear off) s = .next { s with dp := { s.dp with evts := tput s.dp.evts off 0 } })
    ∧ (∀ (s : State) (i : Nat), i < 16 → exec (.lossClear i) s = .next { s with los := tput s.los i ⟨0, 0, 0⟩ })
    ∧ ∀ s : State, exec .xfInfoClear s = .next { s with dp := { s.dp with xfValid := false } }

/-- A register write of four or eight aligned bytes reaches the 64-bit register at its offset and changes only the bits that
it covers; any other size or alignment completes with Unsupported Request and changes no register; what lies beyond the BAR
is not claimed; one that comes behind a posted write that waits is held (R352; log entry 73). GEN_ROOT (whole, and its upper half),
SIDE_ADDR and the Q_BASE of a disabled queue hold what is written; the Resizable BAR control, whose place is the model's (log entry
6), selects a size of 1 GiB to 1 TiB. -/
def Obligations.RegisterWrites : Prop :=
  (∀ (s : State) (b : Bar) (off size : Nat) (v : Reg), s.writeHeld = true →
      exec (.registerWrite b off size v) s = .next (s.hold (.register b off size v)))
    ∧ (∀ (s : State) (b : Bar) (off size : Nat) (v : Reg), s.writeHeld = false → off < barSize b →
      ¬ ((size = 4 ∨ size = 8) ∧ off % size = 0) →
      exec (.registerWrite b off size v) s = .next { s with out := .unsupported :: s.out })
    ∧ (∀ (s : State) (b : Bar) (off size : Nat) (v : Reg), s.writeHeld = false → barSize b ≤ off →
      exec (.registerWrite b off size v) s = .next s)
    ∧ (∀ (s : State) (v : Reg), s.writeHeld = false →
        exec (.registerWrite .bar0 0x1009000 8 v) s = .next { s with dp := { s.dp with rootWritten := v.setWidth 60 } })
    ∧ (∀ (s : State) (v : Reg), s.writeHeld = false →
        exec (.registerWrite .bar0 0x1009030 8 v) s = .next { s with dp := { s.dp with sideAddr := v.setWidth 60 } })
    ∧ (∀ (s : State) (v : Reg), s.writeHeld = false → ∃ t, exec (.registerWrite .bar0 0x1009004 4 v) s = .next t
        ∧ t.dp.rootWritten.setWidth 32 = s.dp.rootWritten.setWidth 32
        ∧ t.dp.rootWritten = (((v.setWidth 28) ++ s.dp.rootWritten.setWidth 32 : BitVec 60)))
    ∧ (∀ (s : State) (q : Nat) (v : Reg), s.writeHeld = false → q < 64 → (s.queue q).state = 0 → (s.queue q).headWb = 0 →
        ∃ t, exec (.registerWrite .bar0 (0x1000 + 0x40 * q) 8 v) s = .next t
          ∧ (t.queue q).base = (v >>> 12).setWidth 52
          ∧ ((v >>> 12).setWidth 52 ≠ (s.queue q).base → (t.queue q).head = 0 ∧ (t.queue q).tail = 0))
    ∧ ∀ (s : State) (n : Nat), s.writeHeld = false → 30 ≤ n → n ≤ 40 →
        ∃ t, exec (.registerWrite .config 0x108 8 (BitVec.ofNat 64 (256 * (n - 20)))) s = .next t ∧ t.windowSize = 2 ^ n
          ∧ t = { s with pci := { s.pci with bar4Log2 := t.pci.bar4Log2 } }

/-- No register read depends on a key: the prefix key and the root key of the strings cannot be read out. -/
def Obligations.KeysCannotBeRead : Prop :=
  ∀ (s : State) (k r : BitVec 128) (off : Nat),
    ({ s with seq := { s.seq with key := k }, rng := { s.rng with root := r } }).readBar0 off = s.readBar0 off
      ∧ ({ s with seq := { s.seq with key := k }, rng := { s.rng with root := r } }).readBar2 off = s.readBar2 off

/-- MIRROR_READ gives the host the value of the entry that MIRROR_SEL names, and changes no register, memory, counter or queue; behind
a posted write that waits it waits too (R352). -/
def Sys2Proof.Claim.MirrorReadAnswers : Prop :=
  ∀ s : State,
    (s.writeHeld = false → ∃ t, exec .mirrorRead s = .next t ∧ t.out = .value (BitVec.ofNat 64 s.mirrorData) :: s.out
        ∧ t = { s with out := t.out, dp := { s.dp with free := t.dp.free } })
      ∧ (s.writeHeld = true → exec .mirrorRead s = .next (s.hold .mirrorRead))

/-- What a read of a register by the host completes with (R351; 12 R377, R379, R386): the register, or its half; Unsupported Request
for another size or alignment; nothing beyond the BAR; and zero, counted in MBX_DENIED, for the words and MBX_CTL_c of a channel of
which the host is no party. -/
def Sys2Proof.Claim.RegisterReads : Prop :=
  ∀ (s : State),
    (∀ b off size, barSize b ≤ off → s.readRegister b off size = (none, s))
      ∧ (∀ b off size, off < barSize b → ¬ ((size = 4 ∨ size = 8) ∧ off % size = 0) →
        s.readRegister b off size = (some .unsupported, s))
      ∧ (∀ off, off < 2 ^ 26 → off % 8 = 0 → off ≠ 0x1009038 →
        let v : Reg := BitVec.ofNat 64 (s.readBar0 off)
        s.readRegister .bar0 off 8 = (some (.data v), s) ∧ s.readRegister .bar0 off 4 = (some (.data (v &&& 0xFFFFFFFF)), s)
          ∧ s.readRegister .bar0 (off + 4) 4 = (some (.data (v >>> 32)), s))
      ∧ ∀ c r, c < 64 → r ≤ 8 → s.bufferOff c = false → s.mbxSender c ≠ 1 → s.mbxReceiver c ≠ 1 → s.mbxAcker c ≠ 1 →
        s.readRegister .bar2 (0x80000 + 0x2000 * c + 8 * r) 8 = (some (.data 0), s.bump Evt.mbxDenied 1)

/-- The commands that change one register: the counters of completion, the clears, the mirror read; and what a register read
completes with. -/
def Obligations.RegisterCommands : Prop :=
  Claim.CounterCommands ∧ Claim.ClearCommands ∧ Claim.MirrorReadAnswers ∧ Claim.RegisterReads

/-! ### Queues and dispatch (chapter 11) -/

/-- R354: a doorbell value that fits moves TAIL, any other counts in DB_REJECT and changes nothing else. A doorbell write is processed
at once, or, behind a posted write that waits, held in its place (R352; log entry 73). -/
def Obligations.DoorbellAcceptance : Prop :=
  ∀ (s : State) (q : Nat) (t : Word), q < 64 →
    ((t - (s.queue q).head).toNat ≤ 2 ^ (s.queue q).sizeLog2.toNat ∧ (t - (s.queue q).tail).toNat < 2 ^ 31 →
        s.doorbell q t = ({ s with que := tput s.que q { s.queue q with tail := t } }).watchSlip)
      ∧ (¬ ((t - (s.queue q).head).toNat ≤ 2 ^ (s.queue q).sizeLog2.toNat ∧ (t - (s.queue q).tail).toNat < 2 ^ 31) →
        s.doorbell q t = s.bump Evt.dbReject 1)
      ∧ (s.writeHeld = false → exec (.doorbellWrite q t) s = .next (s.doorbell q t))
      ∧ (s.writeHeld = true → exec (.doorbellWrite q t) s = .next (s.hold (.doorbell q t)))

/-- R363: the comparison of a wait, and that it stays met for the increments of half the range. -/
def Obligations.WaitWindow : Prop :=
  (∀ value want : Word, waitMet value want = true ↔ (value - want).toNat < 0x80000000)
    ∧ (∀ (value want : Word) (k : Nat), waitMet value want = true → (value - want).toNat + k < 0x80000000 →
        waitMet (value + BitVec.ofNat 32 k) want = true)
    ∧ (∀ value want : Word, value ≠ want + 0x80000000 → value ≠ want →
        (waitMet value want = true ↔ waitMet want value = false))
    ∧ ∀ (s : State) (d : List Byte), waitIndex d ≠ 0xFFFF →
        s.waits d = !waitMet (s.counter (waitIndex d)).value (waitValue d)

/-- The module reads descriptors between HEAD and TAIL of a running queue, and a failed read stops the queue in STATE 3: one
FETCH_ABORT, INT_CAUSE.QUEUE_STOPPED, no counter signalled and no operation fault counted. -/
def Obligations.FetchAndAbort : Prop :=
  ∀ (s : State) (q : Nat) (index : Word) (bytes : List Byte),
    q < 64 → s.mayIssue = true → (s.queue q).enable = true → (s.queue q).state = 1 →
    (index - (s.queue q).head).toNat < ((s.queue q).tail - (s.queue q).head).toNat →
    (index = (s.queue q).head → (s.queue q).checked = false) →
      exec (.descriptorFetch q index bytes) s
          = .next (s.updQueue q fun k => { k with fetched := tput k.fetched index.toNat (slice bytes 0 64) }).watchSlip
        ∧ ∃ t, exec (.fetchAbort q index) s = .next t
          ∧ t.queue q = { s.queue q with state := 3 } ∧ (∀ p, p ≠ q → t.queue p = s.queue p)
          ∧ t.hst.causeStopped = true ∧ t.cnt = s.cnt ∧ t.ops = s.ops
          ∧ t.count Evt.fetchAbort = s.count Evt.fetchAbort + 1 ∧ t.count Evt.opsFaulted = s.count Evt.opsFaulted
          ∧ t.dp = { s.dp with evts := t.dp.evts }

/-- R366: the fault log is a ring; a record that finds it full is lost, counted and flagged. -/
def Obligations.FaultLogRing : Prop :=
  ∀ (s : State) (bytes : List Byte),
    ((s.hst.prod - s.hst.cons).toNat = 2 ^ s.hst.logSizeLog2.toNat →
        (s.logFault bytes).hst.prod = s.hst.prod ∧ (s.logFault bytes).hst.causeLost = true
          ∧ (s.logFault bytes).count Evt.faultLogLost = s.count Evt.faultLogLost + 1)
      ∧ ((s.hst.prod - s.hst.cons).toNat ≠ 2 ^ s.hst.logSizeLog2.toNat →
        (s.logFault bytes).hst.prod = s.hst.prod + 1 ∧ (s.logFault bytes).hst.causeRecord = true
          ∧ .write (4096 * s.hst.logBase.toNat + 32 * (s.hst.prod.toNat % 2 ^ s.hst.logSizeLog2.toNat)) bytes
              ∈ (s.logFault bytes).out
          ∧ (s.logFault bytes).dp = s.dp)

/-- The header check of a descriptor at the head: the order of its rows, the pass, and the fault, which leaves the head and
signals unless the signal index itself is bad. -/
def Sys2Proof.Claim.HeaderChecks : Prop :=
  ∀ (s : State) (q : Nat) (d : List Byte), q < 64 → (s.queue q).front = some d → (s.queue q).checked = false →
    (s.queue q).skip = 0 → s.hostWorks = true →
      (headerCheck d = none →
          exec (.headerCheck q) s = .next ({ s with que := tput s.que q { s.queue q with checked := true } }).watchSlip)
        ∧ (∀ code sig, headerCheck d = some (code, sig) →
          exec (.headerCheck q) s
            = .next (((s.advance q).reportFault q (s.queue q).head d 0 sig code 0).settle q).watchSlip)
        ∧ (bits (flagsOf d) 7 4 ≠ 0 ∨ bit (targetOf d) 7 = true ∨ field d 6 2 ≠ 0 →
          (headerCheck d).map (·.1) = some Code.rsvdSet)
        ∧ (signalIndex d ≥ 4096 → bits (flagsOf d) 7 4 = 0 → bit (targetOf d) 7 = false → field d 6 2 = 0 →
          classOf d ∈ [1, 2, 3, 4, 5, 6, 7, 8, 9, 0xA, 0xF] → headerCheck d = some (Code.badTarget, 0xFFFF))

/-- A CHECK at the head arms its slot: PENDING, with the gate counter and its target, and nothing else changes. -/
def Sys2Proof.Claim.CheckArms : Prop :=
  ∀ (s : State) (q : Nat) (h : Head), q < 64 → (s.queue q).next = some h → h.redo = false → opcodeOf h.desc = 0x0A02 →
    (s.queue q).armed = none → checkCheck h.desc = none → s.armBlocked h.desc = false → s.hostWorks = true →
      let target := (s.counter (field h.desc 56 2)).value + BitVec.ofNat 32 (field h.desc 58 2)
      let slot : Verdict := { s.verdict (checkSlot h.desc) with
        pending := true, gate := BitVec.ofNat 12 (field h.desc 56 2), target := target }
      let queue : Queue := { s.queue q with armed := some (checkSlot h.desc, target) }
      exec (.checkArm q) s = .next { s with
        que := tput s.que q queue, tun := { s.tun with verdicts := tput s.tun.verdicts (checkSlot h.desc) slot } }

/-- A head that its wait, fences, resources and checks let dispatch starts: it becomes an operation in flight with the pin of
TX_GEN, leaves its queue and counts in DESC_DISPATCHED; one that a check refuses leaves its queue with a fault report and no
operation. Running ahead starts the same operation under the verdict slot. -/
def Sys2Proof.Claim.DispatchStarts : Prop :=
  ∀ (s : State) (q : Nat) (h : Head) (p : Plan) (io : Io), q < 64 → s.wins q h.desc = true → s.needsCourses h.desc = none →
    io.wait = false →
      (s.ready q = some h → s.checks q h.desc ⟨s.dp, false⟩ = (.ok p, io) →
          ({ s with dp := io.d }).drawBlocked h p = false →
        exec (.dispatch q) s = .next (({ s with dp := io.d }).start q h p none))
      ∧ (∀ code va, s.ready q = some h → s.checks q h.desc ⟨s.dp, false⟩ = (.error (code, va), io) → code ≠ Code.noEntropy →
        exec (.dispatch q) s = .next (({ s with dp := io.d }).refuse q h code va))
      ∧ (∀ v, s.candidate q = some h → s.aheadSlot h.desc = some v → s.aheadLaunch q h v = some
            (({ s with dp := io.d }).start q h p (some v)) →
        exec (.runAheadDispatch q) s = .next (({ s with dp := io.d }).start q h p (some v)))

/-- What the start of an operation leaves: one more operation, with the descriptor, the pin and the queue of its head, HEAD
one further, DESC_DISPATCHED one more. -/
def Sys2Proof.Claim.StartedOperation : Prop :=
  ∀ (s : State) (q : Nat) (h : Head) (p : Plan) (ahead : Option Nat), h.redo = false → p.insts = [(0, 0, 0)] →
    (s.start q h p ahead).ops = s.ops ++ [⟨s.nextOp, q, h.index, h.desc, s.dp.txGen,
        [⟨0, .running, [], Effects.none, 0, 0, 0⟩], ahead, p.recs, tput p.nums Lab.usable s.usable, false,
        if opcodeOf h.desc = 0x0101 then
          (s.fabric (swBass h.desc)).tiles.filter fun t => bit (tget 0 p.nums Lab.hits) t.1
        else []⟩]
      ∧ (s.start q h p ahead).nextOp = s.nextOp + 1
      ∧ ((s.start q h p ahead).queue q).head = (s.queue q).head + 1
      ∧ (s.start q h p ahead).count Evt.descDispatched = s.count Evt.descDispatched + 1
      ∧ (s.start q h p ahead).cnt = s.cnt ∧ (s.start q h p ahead).dp.cells = s.dp.cells

/-- A sweep or attention descriptor that its dispatch checks refuse in every instance dispatches without a change of its fabric's
course count (03 R90). -/
def Sys2Proof.Claim.RefusedChangesNoCourse : Prop :=
  ∀ (s : State) (q : Nat) (h : Head) (code va : Nat) (io : Io), q < 64 → s.wins q h.desc = true → s.ready q = some h →
    s.checks q h.desc ⟨s.dp, false⟩ = (.error (code, va), io) → io.wait = false → code ≠ Code.noEntropy →
      exec (.dispatch q) s = .next (({ s with dp := io.d }).refuse q h code va)

/-- Dispatch, in order and ahead of a verdict. -/
def Obligations.Dispatch : Prop :=
  Claim.DispatchStarts ∧ Claim.StartedOperation ∧ Claim.RefusedChangesNoCourse

/-- A descriptor that a GATE skips leaves its queue with its signal and without a check. -/
def Sys2Proof.Claim.GateSkips : Prop :=
  ∀ (s : State) (q : Nat) (d : List Byte), q < 64 → (s.queue q).front = some d → (s.queue q).skip ≠ 0 →
    s.contextRuns = false → (s.queue q).headWb = 0 → signalIndex d < 4096 → s.hostWorks = true →
      let queue : Queue := { s.queue q with
        head := (s.queue q).head + 1, fetched := tdel (s.queue q).fetched (s.queue q).head.toNat, checked := false
        armed := none, skip := (s.queue q).skip - 1 }
      ∃ t : State, exec (.descSkipped q) s = .next (t.bump Evt.descSkipped 1).watchSlip
        ∧ t = { s with que := t.que, cnt := t.cnt } ∧ t.queue q = queue ∧ (∀ p, p ≠ q → t.queue p = s.queue p)
        ∧ t.counter (signalIndex d) = (s.counter (signalIndex d)).signal (signalIncr d) 0
        ∧ ∀ k, k ≠ signalIndex d → t.counter k = s.counter k

/-- While an orderly shutdown lasts, or the host domain is off, no descriptor passes a check, arms, dispatches or is skipped (14
R416). -/
def Sys2Proof.Claim.ShutdownStopsQueues : Prop :=
  ∀ (s : State) (q : Nat) (c : Instr), q < 64 → s.pwr.shut.isSome = true ∨ s.pwr.hostOn = false →
    c ∈ [Instr.headerCheck q, .checkArm q, .dispatch q, .runAheadDispatch q, .descSkipped q] → exec c s = .next s

/-- What happens to the descriptor at the head of a queue before it dispatches: its header is checked, a CHECK arms its slot, a
GATE's skip passes over it; a shutdown stops all of it. -/
def Obligations.QueueHeads : Prop :=
  Claim.HeaderChecks ∧ Claim.CheckArms ∧ Claim.GateSkips ∧ Claim.ShutdownStopsQueues

/-- An operation whose work is done signals its counter by its increment, latches the code of its fault, and goes. -/
def Obligations.CompletionSignals : Prop :=
  ∀ (s : State) (id n : Nat) (o : Op) (i : Inst), s.findOp id = some o → o.findInst n = some i → i.phase = .done →
    o.ahead = none → o.orphan = false →
      (∃ t, exec (.completionSignal id n) s = .next t
        ∧ t.counter (signalIndex o.desc + n) =
            (if i.fault = 0 then (s.counter (signalIndex o.desc + n)).signal (signalIncr o.desc) 0
              else if signalIndex o.desc + n = 0xFFFF then s.counter (signalIndex o.desc + n)
              else (s.counter (signalIndex o.desc + n)).signal (signalIncr o.desc) i.fault)
        ∧ (∀ k, k ≠ signalIndex o.desc + n → t.counter k = s.counter k)
        ∧ t.dp.cells = s.dp.cells ∧ t.nextOp = s.nextOp
        ∧ t.count Evt.opsFaulted = s.count Evt.opsFaulted + (if i.fault = 0 then 0 else 1))
      ∧ ∀ (c : Cnt) (inc code : Nat), (c.signal inc code).value = c.value + BitVec.ofNat 32 inc
        ∧ (code = 0 → (c.signal inc code).faulted = c.faulted ∧ (c.signal inc code).code = c.code)
        ∧ (code ≠ 0 → (c.signal inc code).faulted = true)
        ∧ (code ≠ 0 → c.faulted = false → (c.signal inc code).code = BitVec.ofNat 16 code)
        ∧ (c.faulted = true → (c.signal inc code).code = c.code)

/-- Q_CFG_q: ENABLE 1 sets a disabled queue running, ENABLE 0 stops it and its STATE becomes 0 when nothing of it runs,
RESUME sets a stopped queue running and fetches again; SIZE_LOG2 is stored within 4 to 20. -/
def Obligations.QueueConfiguration : Prop :=
  ∀ (s : State) (q : Nat) (v : Reg), q < 64 →
    (∃ t, exec (.queueEnable q v) s = .next t ∧ (t.queue q).enable = true
        ∧ ((s.queue q).state = 0 → (t.queue q).state = 1) ∧ (∀ p, p ≠ q → t.queue p = s.queue p) ∧ t.cnt = s.cnt ∧ t.ops = s.ops)
      ∧ (∃ t, exec (.queueDisable q v) s = .next t ∧ (t.queue q).enable = false
        ∧ ((∀ o ∈ s.ops, o.q = q → o.orphan = true) → (t.queue q).state = 0)
        ∧ (∀ p, p ≠ q → t.queue p = s.queue p) ∧ t.cnt = s.cnt ∧ t.ops = s.ops)
      ∧ (∃ t, exec (.resume q v) s = .next t
        ∧ ((s.queue q).state = 2 ∨ (s.queue q).state = 3 → bit v.toNat 0 = true →
            (t.queue q).state = 1 ∧ (t.queue q).fetched = [] ∧ (t.queue q).checked = false)
        ∧ (∀ p, p ≠ q → t.queue p = s.queue p) ∧ t.cnt = s.cnt ∧ t.ops = s.ops)
      ∧ 4 ≤ (sizeOf_ v.toNat).toNat ∧ (sizeOf_ v.toNat).toNat ≤ 20



/-! ### Sweeps, conversions, programs, running ahead (chapters 03, 04, 06) -/

/-- A SWEEP, CONVERT or RUN that does not run ahead and whose accesses need not wait makes the writes of its work, and its
instance is done: memory is what the work leaves, and no counter, queue, lane or tuner register changes. -/
def Sys2Proof.Claim.OrdinaryWorkCompletes : Prop :=
  ∀ (s : State) (id n : Nat) (o : Op) (i : Inst) (w : Work) (d : Data), o.ahead = none →
    (s.Running id n 0x0101 o i → s.run (do
          let w ← s.workOf o n
          writeAll (s.envOf o) (w.writes ++ w.eff.recs)
          pure w) = some (.ok w, d) →
        ∃ t, exec (.sweep id n) s = .next t ∧ s.Ended t id n w.fault w.va ∧ t.dp.cells = d.cells
          ∧ t = { s with dp := t.dp, ops := t.ops, treble := t.treble, bass := t.bass, los := t.los })
      ∧ (s.Running id 0 0x0201 o i → s.run (do
          let w ← s.workOf o 0
          writeAll (s.envOf o) (w.writes ++ w.eff.recs)
          pure w) = some (.ok w, d) →
        ∃ t, exec (.convert id) s = .next t ∧ s.Ended t id 0 w.fault w.va ∧ t.dp.cells = d.cells
          ∧ t = { s with dp := t.dp, ops := t.ops, treble := t.treble, bass := t.bass, los := t.los })
      ∧ (s.Running id 0 0x0401 o i → s.lossBusy o = false → s.run (do
          let w ← s.workOf o 0
          writeAll (s.envOf o) (w.writes ++ w.eff.recs)
          pure w) = some (.ok w, d) →
        ∃ t, exec (.run id) s = .next t ∧ s.Ended t id 0 w.fault w.va ∧ t.dp.cells = d.cells
          ∧ t = { s with dp := t.dp, ops := t.ops, treble := t.treble, bass := t.bass, los := t.los })

/-- An array or mesh error ends an instance of a sweep with its own code, sets the course's FAULTED bit and counts one
SWEEP_FAULT; the other courses' FAULTED bits stay. -/
def Sys2Proof.Claim.InstanceFaultIsContained : Prop :=
  ∀ (s : State) (id n : Nat) (cause : SweepFault) (o : Op) (i : Inst) (w : Work) (d : Data), o.ahead = none →
    s.Running id n 0x0101 o i →
    s.run (do
      let w ← sweepPoison (s.envOf o) o.acc o (sweepJob o n)
        (match cause with | .arrayErr => Code.arrayErr | .meshErr => Code.meshErr) 0 none
      writeAll (s.envOf o) (w.writes ++ w.eff.recs)
      pure w) = some (.ok w, d) →
      ∃ t, exec (.sweepInstanceFault id n cause) s = .next t
        ∧ s.Ended t id n (match cause with | .arrayErr => 0x11 | .meshErr => 0x12) 0
        ∧ (∀ c, c < 16 → (t.fabric (swBass o.desc)).faulted.getLsbD c
            = ((s.fabric (swBass o.desc)).faulted.getLsbD c || c == instCourse o.desc n))
        ∧ t.fabric (!swBass o.desc) = s.fabric (!swBass o.desc)
        ∧ t.count (Evt.fab (swBass o.desc) Evt.sweepFault) = (d.evts |> fun e => tget 0 e (Evt.fab (swBass o.desc) Evt.sweepFault)) + 1
        ∧ t.cnt = s.cnt ∧ t.que = s.que

/-- RELEASE invalidates the retained tile of each course that it targets and changes nothing else. -/
def Sys2Proof.Claim.ReleaseDropsTiles : Prop :=
  ∀ (s : State) (id : Nat) (o : Op) (i : Inst), s.Running id 0 0x0102 o i → o.ahead = none →
    ∃ t, exec (.release id) s = .next t ∧ s.Ended t id 0 0 0 ∧ t.dp = s.dp
      ∧ t = { s with ops := t.ops, treble := t.treble, bass := t.bass }
      ∧ t.fabric (!swBass o.desc) = s.fabric (!swBass o.desc)
      ∧ (t.fabric (swBass o.desc)).faulted = (s.fabric (swBass o.desc)).faulted
      ∧ ∀ c, c ∈ coursesOf o.desc (s.fabric (swBass o.desc)).courses.toNat →
          tget 0 (s.fabric (swBass o.desc)).loaders c ≤ id → ∀ x ∈ (t.fabric (swBass o.desc)).tiles, x.1 ≠ c

/-- The work of the fabrics and of the service clusters on ordinary matrices, the containment of an instance's fault, and RELEASE. -/
def Obligations.FabricWork : Prop :=
  Claim.OrdinaryWorkCompletes ∧ Claim.InstanceFaultIsContained ∧ Claim.ReleaseDropsTiles

/-- An operation under a verdict slot marks each berth line before it writes it and never writes outside logged berth memory:
lines that are neither logged nor marked under the slot keep their bytes. -/
def Sys2Proof.Claim.RunAheadStaysInTheLog : Prop :=
  ∀ (d d' : Data) (e : Env) (v : Nat) (w : Wr), d.writeAhead e v w = .made d' →
    (∃ m ∈ d.marks, m = (w.line, v)) ∨ (d.logged w.line = true ∧ ∃ u ∈ d'.undo, u.line = w.line ∧ u.slot = v ∧ u.bytes = d.stored w.line)

/-- The tuner's switch: an enable that finds a SAMPLE of the last enabling still running waits as PENDING, a disable clears
it; no slot and no verdict changes. -/
def Sys2Proof.Claim.TunerSwitch : Prop :=
  ∀ s : State,
    exec .tunerEnable s = .next { s with tun := { s.tun with
        enable := true, pending := s.tun.pending || (!s.tun.enable && s.sampling) } }
      ∧ exec .tunerDisable s = .next { s with tun := { s.tun with enable := false, pending := false } }

/-- R141: RUNAHEAD_CFG_n reads as written from the moment of the write, and takes effect when LOG_USED is zero. -/
def Sys2Proof.Claim.RunAheadConfiguration : Prop :=
  ∀ (s : State) (n : Nat) (v : Reg), n < 800 →
    ∃ t, exec (.runaheadCfgWrite n v) s = .next t ∧ (t.dp.ra n).offset = v.setWidth 15
      ∧ (t.dp.ra n).lines = (v >>> 16).setWidth 15
      ∧ (s.dp.logUsed n = 0 → (t.dp.ra n).effOffset = v.setWidth 15 ∧ (t.dp.ra n).effLines = (v >>> 16).setWidth 15)
      ∧ (s.dp.logUsed n ≠ 0 → (t.dp.ra n).effOffset = (s.dp.ra n).effOffset ∧ (t.dp.ra n).effLines = (s.dp.ra n).effLines)
      ∧ t.dp.cells = s.dp.cells ∧ t = { s with dp := t.dp }

/-- A SAMPLE adds what it compared to the four counters of its slot; one that does not sample counts in SAMPLE_SKIPPED. -/
def Sys2Proof.Claim.SamplesCount : Prop :=
  ∀ (s : State) (id : Nat) (o : Op) (i : Inst), s.Running id 0 0x0A01 o i →
    (o.num Lab.live = 0 → ∃ t, exec (.sample id) s = .next t ∧ s.Ended t id 0 0 0
        ∧ t = { s.bump Evt.sampleSkipped 1 with ops := t.ops })
      ∧ ∀ (r : Sampled) (d : Data), o.num Lab.live ≠ 0 → s.run (sampleWork (s.envOf o) o.acc o) = some (.ok r, d) →
        ∃ t, exec (.sample id) s = .next t ∧ s.Ended t id 0 0 0 ∧ t.dp.cells = d.cells ∧ t = { s with ops := t.ops, dp := t.dp }
          ∧ (let x := bits (field o.desc 59 1) 3 0
            t.count (Evt.tuner x 0) = tget 0 d.evts (Evt.tuner x 0) + BitVec.ofNat 48 r.tiles
              ∧ t.count (Evt.tuner x 1) = tget 0 d.evts (Evt.tuner x 1) + BitVec.ofNat 48 r.elems
              ∧ t.count (Evt.tuner x 2) = tget 0 d.evts (Evt.tuner x 2) + BitVec.ofNat 48 r.disagree
              ∧ t.count (Evt.tuner x 3) = tget 0 d.evts (Evt.tuner x 3) + BitVec.ofNat 48 r.nan)

/-- The tuner and the run-ahead logs. -/
def Obligations.TunerCommands : Prop :=
  Claim.TunerSwitch ∧ Claim.RunAheadConfiguration ∧ Claim.SamplesCount

/-- A CHECK with no operation under its slot and no limit exceeded passes: the slot goes idle with LAST clear, the gate counter
gets its increment, the slot's marks clear, one VERDICT_PASS counts. -/
def Sys2Proof.Claim.ChecksDecide : Prop :=
  ∀ (s : State) (id : Nat) (o : Op) (i : Inst) (r : RecordSums) (d : Data), s.Running id 0 0x0A02 o i → o.orphan = false →
    s.run (recordSums (s.envOf o) o.acc o.desc) = some (.ok r, d) →
    (∀ p ∈ s.ops, p.ahead ≠ some (bits (field o.desc 49 1) 3 0)) →
      let slot := bits (field o.desc 48 1) 3 0
      let free := bit (field o.desc 48 1) 4
      let te := if free then 0 else (tget 0 d.evts (Evt.tuner slot 1)).toNat
      let td := if free then 0 else (tget 0 d.evts (Evt.tuner slot 2)).toNat
      let why := reasons o.desc te td r
      let rerun := why != 0 || r.bad
      ∃ t, exec (.check id) s = .next t
        ∧ t.verdict (bits (field o.desc 49 1) 3 0) =
            { s.verdict (bits (field o.desc 49 1) 3 0) with pending := false, last := rerun, reasons := BitVec.ofNat 4 why }
        ∧ (rerun = false → t.counter (field o.desc 56 2)
            = (s.counter (field o.desc 56 2)).signal (field o.desc 58 2) 0)
        ∧ (rerun = true → t.counter (field o.desc 60 2) = (s.counter (field o.desc 60 2)).signal 1 0)
        ∧ (∀ k, k ≠ field o.desc 56 2 → k ≠ field o.desc 60 2 → t.counter k = s.counter k)
        ∧ (∀ m ∈ t.dp.marks, m.2 ≠ bits (field o.desc 49 1) 3 0)

/-- The bits of a verdict's reasons follow its limits: a limit of 0 never fires, and the comparisons are exact. -/
def Sys2Proof.Claim.VerdictReasons : Prop :=
  ∀ (d : List Byte) (te td : Nat) (r : RecordSums),
    (bit (reasons d te td r) 0 = true ↔ field d 50 1 ≠ 0 ∧ te ≠ 0 ∧ te < td * 2 ^ field d 50 1)
      ∧ (bit (reasons d te td r) 1 = true ↔ field d 51 1 ≠ 0 ∧ r.el ≠ 0 ∧ r.el < r.cl * 2 ^ field d 51 1)
      ∧ (bit (reasons d te td r) 2 = true ↔ field d 52 1 ≠ 0 ∧ r.el ≠ 0 ∧ r.el < r.fl * 2 ^ field d 52 1)
      ∧ (bit (reasons d te td r) 3 = true ↔ field d 53 3 ≠ 0 ∧ field d 53 3 ≤ r.bo)
      ∧ reasons d te td r < 16

/-- A CHECK decides, for the reasons that the tuner's slots give; until then what ran ahead stays in its log. -/
def Obligations.Verdicts : Prop :=
  Claim.ChecksDecide ∧ Claim.VerdictReasons ∧ Claim.RunAheadStaysInTheLog

/-! ### Stow (chapter 06) -/

/-- R171: CLEAR removes every frame of the lane. -/
def Obligations.ClearEmptiesTheLane : Prop :=
  (∀ (s : State) (id l : Nat) (o : Op) (i : Inst), s.Running id 0 0x0305 o i → laneOf o.desc = some l →
      ∃ t, exec (.clear id) s = .next t ∧ s.Ended t id 0 0 0
        ∧ (t.lane l).depth = 0 ∧ (t.lane l).dataTop = 0 ∧ t.lane l = { s.lane l with depth := 0, dataTop := 0 }
        ∧ (∀ k, k ≠ l → t.lane k = s.lane k)
        ∧ t.count Evt.framesCleared = s.count Evt.framesCleared + BitVec.ofNat 48 (s.lane l).depth.toNat
        ∧ (∀ k, k ≠ Evt.framesCleared → t.count k = s.count k)
        ∧ t = { s with ops := t.ops, stw := t.stw, dp := { s.dp with evts := t.dp.evts } })
    ∧ ∀ (s : State) (l : Nat), (s.moduleReset.lane l).depth = 0 ∧ s.moduleReset.count Evt.framesCleared = 0

/-- PUSH and POP move a lane's DEPTH by one frame, with their counters, and PEEK leaves the lane as it is; a full header table
refuses a PUSH with STOW_DEPTH. -/
def Sys2Proof.Claim.StowDepthFollowsItsCounters : Prop :=
  ∀ (s : State) (id l : Nat) (o : Op) (i : Inst) (d : Data), laneOf o.desc = some l →
    (∀ p : Pushed, s.Running id 0 0x0301 o i → (s.lane l).depth ≠ (s.lane l).hdrCap → p.fault = none →
        s.run (pushWork (s.envOf o) o.acc o.desc (s.lane l)) = some (.ok p, d) →
        ∃ t, exec (.push id) s = .next t ∧ s.Ended t id 0 0 0
          ∧ (t.lane l).depth = (s.lane l).depth + 1 ∧ (t.lane l).seq = (s.lane l).seq + 1
          ∧ (t.lane l).dataTop = (s.lane l).dataTop
              + (if p.frame.dropped then 0 else BitVec.ofNat 32 (p.frame.payload + p.frame.list))
          ∧ (∀ k, k ≠ l → t.lane k = s.lane k) ∧ t.dp.cells = d.cells
          ∧ t.count Evt.framesPushed = tget 0 d.evts Evt.framesPushed + 1
          ∧ t = { s with ops := t.ops, stw := t.stw, dp := t.dp })
      ∧ (s.Running id 0 0x0301 o i → (s.lane l).depth = (s.lane l).hdrCap →
        ∃ t, exec (.push id) s = .next t ∧ s.Ended t id 0 Code.stowDepth 0 ∧ t.stw = s.stw ∧ t.dp.cells = s.dp.cells)
      ∧ (∀ f : Frame, s.Running id 0 0x0302 o i →
        s.run (popWork (s.envOf o) o.acc o.desc (s.lane l)) = some (.ok (some f, .retained), d) →
        ∃ t, exec (.pop id) s = .next t ∧ s.Ended t id 0 0 0
          ∧ (t.lane l).depth = (s.lane l).depth - 1 ∧ (t.lane l).dataTop = BitVec.ofNat 32 f.off
          ∧ (∀ k, k ≠ l → t.lane k = s.lane k) ∧ t.dp.cells = d.cells
          ∧ t.count Evt.framesPopped = tget 0 d.evts Evt.framesPopped + 1
          ∧ t = { s with ops := t.ops, stw := t.stw, dp := t.dp })
      ∧ (∀ out : PopOut, s.Running id 0 0x0303 o i →
        s.run (peekWork (s.envOf o) o.acc o.desc (s.lane l)) = some (.ok out, d) →
        ∃ t, exec (.peek id) s = .next t ∧ s.Ended t id 0 out.code 0 ∧ t.stw = s.stw ∧ t.dp.cells = d.cells
          ∧ t = { s with ops := t.ops, dp := t.dp })

/-- A PUSH without a list drops its frame exactly when the payload does not fit, for a frame that is no anchor beside the
lane's reserve; the header that it writes names the frame and where its data begins. -/
def Sys2Proof.Claim.PushDropRule : Prop :=
  ∀ (e : Env) (a : Acc) (d : List Byte) (lane : Lane) (io io' : Io) (p : Pushed), addrField d 24 = 0 →
    (pushWork e a d lane) io = (.ok p, io') →
      (p.frame.dropped = true ↔
        lane.dataLines.toNat < lane.dataTop.toNat + field d 32 4 + (if bit (field d 40 1) 4 then 0 else lane.reserve.toNat))
      ∧ p.frame.layer = field d 42 2 ∧ p.frame.micro = field d 44 2 ∧ p.frame.tag = field d 46 2
      ∧ p.frame.segment = field d 41 1 ∧ p.frame.off = lane.dataTop.toNat ∧ p.frame.seq = lane.seq.toNat

/-- PUSH, POP and PEEK of a stow lane. -/
def Obligations.StowLanes : Prop :=
  Claim.StowDepthFollowsItsCounters ∧ Claim.PushDropRule

/-- GATE: a result of 2 lets the descriptors behind it run, any other skips them; the queue goes on either way. -/
def Sys2Proof.Claim.GateDecides : Prop :=
  ∀ (s : State) (id : Nat) (o : Op) (i : Inst) (r : Nat) (d : Data), s.Running id 0 0x0304 o i →
    (s.queue o.q).gate = some id → s.run (gateWork (s.envOf o) o.acc o.desc) = some (.ok r, d) →
      ∃ t, exec (.gate id) s = .next t ∧ s.Ended t id 0 0 0
        ∧ t.queue o.q = { s.queue o.q with gate := none, skip := if r = 2 then 0 else field o.desc 24 1 }
        ∧ (∀ q, q ≠ o.q → t.queue q = s.queue q) ∧ t.dp = d ∧ t = { s with ops := t.ops, que := t.que, dp := t.dp }

/-- A lane register is written only while the lane is empty and idle, and HDR_CAP is stored as at most 65,536; else
CFG_REJECT counts. -/
def Sys2Proof.Claim.LaneConfiguration : Prop :=
  ∀ (s : State) (l : Nat) (v : Reg), l < 16 →
    ((s.lane l).depth = 0 → s.laneBusy l = false →
        exec (.laneConfigWrite l .hdrBase v) s
            = .next (s.updLane l fun x => { x with seq := 0, hdrBase := v.setWidth 60 })
          ∧ exec (.laneConfigWrite l .dataBase v) s
            = .next (s.updLane l fun x => { x with seq := 0, dataBase := v.setWidth 60 })
          ∧ exec (.laneConfigWrite l .reserve v) s
            = .next (s.updLane l fun x => { x with seq := 0, reserve := v.setWidth 32 })
          ∧ ∃ t, exec (.laneConfigWrite l .size v) s = .next t
            ∧ (t.lane l).hdrCap.toNat = min 65536 (v.setWidth 17).toNat ∧ (t.lane l).dataLines = (v >>> 32).setWidth 32)
      ∧ (∀ r, (s.lane l).depth ≠ 0 ∨ s.laneBusy l = true →
        exec (.laneConfigWrite l r v) s = .next (s.bump Evt.stowCfgReject 1))

/-- GATE, and the registers of a lane. -/
def Obligations.GatesAndLanes : Prop :=
  Claim.GateDecides ∧ Claim.LaneConfiguration



/-! ### Random numbers (chapter 05) -/

/-- R155: RESEED draws a new root key and a new counter key and sets every string's counter from the counter key. -/
def Obligations.ReseedSetsEveryString : Prop :=
  ∀ (s : State) (id : Nat) (o : Op) (i : Inst), s.Running id 0 0x0704 o i → s.rng.entOk = true →
    ∃ t, exec (.reseed id) s = .next t ∧ s.Ended t id 0 0 0
      ∧ t.rng.root = Config.seed s.rng.drawn
      ∧ (∀ pc l, pc < 832 → l < 128 → t.rng.counter pc l = seededCounter (Config.seed (s.rng.drawn + 1)) pc l)
      ∧ t.rng.seeded = true ∧ t.rng.reseeded = s.rng.reseeded
      ∧ t.count Evt.freeReseed = s.count Evt.freeReseed + 1 ∧ (∀ k, k ≠ Evt.freeReseed → t.count k = s.count k)
      ∧ t = { s with ops := t.ops, rng := t.rng, dp := { s.dp with evts := t.dp.evts } }

/-- A string whose counter would pass 2^64 - 1 is reseeded: its counter comes from a new counter key, and every other string's counter,
the root key and SEEDED stay as they are; a string that holds, or whose counter does not run out, is not reseeded (R148). -/
def Sys2Proof.Claim.StringReseedSetsOneString : Prop :=
  ∀ (s : State) (pc l : Nat), pc < 832 → l < 128 →
    (s.rng.entOk = false ∨ (s.domain (physDom pc)).st = .slack ∨ (s.domain (physDom pc)).st = .off ∨ s.rng.runsOut pc l = false →
        exec (.stringReseed pc l) s = .next s)
    ∧ (s.rng.entOk = true → (s.domain (physDom pc)).st = .on → s.rng.runsOut pc l = true →
      ∃ t, exec (.stringReseed pc l) s = .next t
        ∧ t.rng.counter pc l = seededCounter (Config.seed s.rng.drawn) pc l
        ∧ (∀ pc' l', l' < 128 → (pc', l') ≠ (pc, l) → t.rng.counter pc' l' = s.rng.counter pc' l')
        ∧ t.rng.root = s.rng.root ∧ t.rng.seeded = s.rng.seeded
        ∧ t.count Evt.stringReseed = s.count Evt.stringReseed + 1 ∧ t.dp.cells = s.dp.cells
        ∧ t = { s with rng := t.rng, dp := { s.dp with evts := t.dp.evts } })

/-- A health failure clears ENT_OK and counts and logs each test that failed; ENTROPY_READY sets ENT_OK again, performs the
seeding that boot waits for and answers the SPDM request that waits for its nonce; the wait of boot ends after its timeout with SEEDED
as it was, and that of an SPDM request with the error Busy (15 R453). -/
def Sys2Proof.Claim.EntropyHealth : Prop :=
  ∀ (s : State) (rep adp : Bool),
    (rep || adp →
        ∃ t, exec (.entropyHealthFail rep adp) s = .next t ∧ t.rng = { s.rng with entOk := false }
          ∧ t.count Evt.healthFail = s.count Evt.healthFail + BitVec.ofNat 48 (rep.toNat + adp.toNat)
          ∧ t.dp.cells = s.dp.cells ∧ t = { s with rng := t.rng, dp := t.dp })
      ∧ (s.rng.entOk = false → s.rng.domWait = [] →
        (s.rng.seedWait = false → s.pci.spdmWait = none →
            exec .entropyReady s = .next { s with rng := { s.rng with entOk := true } })
          ∧ (∀ o, s.rng.seedWait = false → s.pci.spdmWait = some o → exec .entropyReady s = .next
            (({ s with rng := { s.rng with entOk := true }, pci := { s.pci with spdmWait := none } }).answerSpdm o))
          ∧ (s.rng.seedWait = true → s.pci.spdmWait = none → ∃ t, exec .entropyReady s = .next t ∧ t.rng.entOk = true ∧ t.rng.seedWait = false
            ∧ t.rng.seeded = true ∧ t.rng.root = Config.seed s.rng.drawn ∧ t = { s with rng := t.rng }))
      ∧ (s.rng.entOk = false → s.rng.seedWait = true →
        exec (.noEntropyTimeout .boot) s = .next { s with rng := { s.rng with seedWait := false, gaveUp := true } })
      ∧ (∀ o, s.rng.entOk = false → s.pci.spdmWait = some o → exec (.noEntropyTimeout .spdm) s = .next
        (({ s with pci := { s.pci with spdmWait := none } }).doeAnswer (doeWrap (spdmError 3 0))))

/-- Reseeding of one string, and the health of the entropy source. -/
def Obligations.Entropy : Prop :=
  Claim.StringReseedSetsOneString ∧ Claim.EntropyHealth

/-- R158 and the keyed draw of FILL: word i lies at line i / 16, position i mod 16, and positions past the count are zero; in
keyed mode without the float option it is the keyed word of counter + i. -/
def Sys2Proof.Claim.FillWrites : Prop :=
  (∀ (s : State) (o : Op) (i : Nat), i < 16 * ceilDiv (field o.desc 52 6) 16 → bit (field o.desc 58 1) 1 = false →
      bit (field o.desc 58 1) 0 = false →
        ∃ l, (fillLines s o)[i / 16]? = some l ∧ l.side.take 5 = List.replicate 5 0
          ∧ field l.payload (4 * (i % 16)) 4 = (if i < field o.desc 52 6
            then (keyedWord (BitVec.ofNat 128 (field o.desc 24 16)) (BitVec.ofNat 32 (field o.desc 40 4))
              (BitVec.ofNat 64 (field o.desc 44 8 + i))).toNat else 0))
    ∧ ∀ (s : State) (id : Nat) (o : Op) (i : Inst) (d : Data), s.Running id 0 0x0701 o i →
      s.run (do
        let ws ← putLines (s.envOf o) o.acc (addrField o.desc 16) (fillLines s o) false
        writeAll (s.envOf o) ws) = some (.ok (), d) →
        ∃ t, exec (.fill id) s = .next t ∧ s.Ended t id 0 0 0 ∧ t.dp = d ∧ t = { s with ops := t.ops, dp := t.dp }

/-- SAVE writes the free-running image and changes no string; RESTORE of an image whose Present field agrees loads its root
key, and one whose present count differs reseeds instead and sets RESEEDED. -/
def Sys2Proof.Claim.SaveAndRestore : Prop :=
  ∀ (s : State) (id : Nat) (o : Op) (i : Inst) (d : Data),
    (s.Running id 0 0x0702 o i → s.run (do
          let ws ← putBytes (s.envOf o) o.acc (addrField o.desc 16) s.freeImage
          writeAll (s.envOf o) ws) = some (.ok (), d) →
        ∃ t, exec (.save id) s = .next t ∧ s.Ended t id 0 0 0 ∧ t.dp = d ∧ t = { s with ops := t.ops, dp := t.dp })
      ∧ (∀ bytes : List Byte, s.Running id 0 0x0703 o i →
        s.run (openRead (s.envOf o) o.acc (addrField o.desc 16 + 64) (imageLines - 1)) = some (.ok bytes, d) →
        (field (o.record Lab.image ++ bytes) 2 2 = s.present →
          s.unsaved (o.record Lab.image ++ bytes) = [] →
          ∃ t, exec (.restore id) s = .next t ∧ s.Ended t id 0 0 0
            ∧ t.rng.root = BitVec.ofNat 128 (field (o.record Lab.image ++ bytes) 16 16) ∧ t.rng.seeded = true
            ∧ t.dp = d ∧ t = { s with ops := t.ops, dp := t.dp, rng := t.rng })
        ∧ (field (o.record Lab.image ++ bytes) 2 2 ≠ s.present → s.rng.entOk = true →
          ∃ t, exec (.restore id) s = .next t ∧ s.Ended t id 0 0 0 ∧ t.rng.root = Config.seed s.rng.drawn
            ∧ t.rng.reseeded = true ∧ t.count Evt.freeReseed = tget 0 d.evts Evt.freeReseed + 1 ∧ t.dp.cells = d.cells
            ∧ t = { s with ops := t.ops, dp := t.dp, rng := t.rng }))

/-- FILL, SAVE and RESTORE. -/
def Obligations.RandomOperations : Prop :=
  Claim.FillWrites ∧ Claim.SaveAndRestore

/-! ### Memory and translation (chapter 08), landing (07) -/

/-- FENCE takes GEN_ROOT into effect and advances TX_GEN by one, unless an operation's pin holds the window; then it counts its
wait once. -/
def Sys2Proof.Claim.FenceAdvancesTheGeneration : Prop :=
  ∀ (s : State) (id : Nat) (o : Op) (i : Inst), s.Running id 0 0x0801 o i →
    ((∀ p ∈ s.ops, (s.dp.txGen + 1 - p.pin).toNat < 0x8000) →
        ∃ t, exec (.fence id) s = .next t ∧ s.Ended t id 0 0 0 ∧ t.dp.txGen = s.dp.txGen + 1
          ∧ t.dp.root = s.dp.rootWritten ∧ t.count Evt.fences = s.count Evt.fences + 1
          ∧ (∀ k, k ≠ Evt.fences → t.count k = s.count k)
          ∧ t = { s with ops := t.ops, dp := { s.dp with
              txGen := s.dp.txGen + 1, root := s.dp.rootWritten, evts := t.dp.evts } })
      ∧ ((∃ p ∈ s.ops, 0x8000 ≤ (s.dp.txGen + 1 - p.pin).toNat) → o.num Lab.waited = 0 →
        ∃ t, exec (.fence id) s = .next t ∧ t.dp.txGen = s.dp.txGen
          ∧ t.count Evt.fenceWindowWait = s.count Evt.fenceWindowWait + 1)

/-- STORE_PTE, LAND with its source data and EXPORT end without a fault when their work meets none; memory is what the work
leaves, LANDED_LINES counts the destination lines, and no register beside the counters changes. A STORE_PTE waits while an earlier one of
its queue has not stored (R243). -/
def Sys2Proof.Claim.MemoryOperationsComplete : Prop :=
  ∀ (s : State) (id : Nat) (o : Op) (i : Inst) (d : Data),
    (s.Running id 0 0x0802 o i → s.pteHeld o = true → exec (.storePte id) s = .next s)
      ∧ (s.Running id 0 0x0802 o i → s.pteHeld o = false → s.run (storePteWork (s.envOf o) o.acc o.desc) = some (.ok (), d) →
        ∃ t, exec (.storePte id) s = .next t ∧ s.Ended t id 0 0 0 ∧ t.dp = d ∧ t = { s with ops := t.ops, dp := t.dp })
      ∧ (∀ (bytes : List Byte) (n : Nat), s.Running id 0 0x0901 o i → s.mayIssue = true →
        s.run (landWork (s.envOf o) o.acc o bytes) = some (.ok n, d) →
        ∃ t, exec (.land id (.data bytes)) s = .next t ∧ s.Ended t id 0 0 0 ∧ t.dp.cells = d.cells
          ∧ t.count Evt.landedLines = tget 0 d.evts Evt.landedLines + BitVec.ofNat 48 n
          ∧ t = { s with ops := t.ops, dp := t.dp })
      ∧ (∀ (ss : List Section) (per : Nat), s.Running id 0 0x0902 o i → s.mayIssue = true → o.orphan = false →
        s.run (exportSections (s.envOf o) o.acc o) = some (.ok (ss, per), d) →
        (∀ x ∈ ss, x.got.fault = none) →
        ∃ t, exec (.exportShard id) s = .next t ∧ s.Ended t id 0 0 0 ∧ t.dp.cells = d.cells
          ∧ t.out.head? = some (.write (field o.desc 16 8) (exportHeader 1 o.desc per ss))
          ∧ t = { s with ops := t.ops, dp := t.dp, out := t.out })
      ∧ (s.Running id 0 0x0902 o i → s.pci.d3hot = false → s.pci.busMaster = false →
        ∃ t, exec (.exportShard id) s = .next t ∧ s.Ended t id 0 Code.hostAbort 0 ∧ t.dp.cells = s.dp.cells ∧ t.out = s.out)

/-- The operations of the memory: FENCE, STORE_PTE, LAND, EXPORT. -/
def Obligations.MemoryOperations : Prop :=
  Claim.FenceAdvancesTheGeneration ∧ Claim.MemoryOperationsComplete

/-- A line that is stored reads back: payload, side bytes and poison mark, with no error counted; and every other line keeps
its bytes. -/
def Obligations.StoredLinesReadBack : Prop :=
  ∀ (d : Data) (e : Env) (l : Nat) (payload side : List Byte) (poison : Bool), payload.length = 64 → side.length = 8 →
    d.isFailed l = false →
      ((d.storeLine l payload side poison).readLine e l).1 = ⟨payload, side, poison⟩
        ∧ (poison = false →
          ((d.storeLine l payload side poison).readLine e l).2 = d.storeLine l payload side poison)
        ∧ ∀ k, k ≠ l → (d.storeLine l payload side poison).stored k = d.stored k

/-- Whole lines that the host writes through BAR4 read back through BAR4 byte for byte, and every other line keeps its bytes. -/
def Sys2Proof.Claim.HostMemory : Prop :=
  ∀ (s : State) (off : Nat) (bytes : List Byte), off % 64 = 0 → bytes.length % 64 = 0 → bytes ≠ [] →
    s.writeHeld = false → s.dp.transfers = [] →
    off + bytes.length ≤ s.windowSize → off + bytes.length ≤ 2 ^ 40 →
    (∀ l ∈ coveredLines off bytes.length, s.lineGo l = .goes) →
      ∃ t, exec (.bar4Write off bytes false) s = .next t ∧ t = { s with dp := { s.dp with cells := t.dp.cells } }
        ∧ (∀ l, l ∉ coveredLines off bytes.length → t.dp.stored l = s.dp.stored l)
        ∧ ∃ u ps, exec (.bar4Read off bytes.length) t = .next u ∧ u.out = .bar4 ps :: t.out
          ∧ ps.flatMap (fun (p : Nat × List Byte × Bool) => p.2.1) = bytes
          ∧ (∀ p ∈ ps, (p : Nat × List Byte × Bool).2.2 = false) ∧ u.dp = t.dp

/-- Failed transfers of a stack's interface are repeated and counted in LINK_RETRY; after eight failed repeats the line reads as
uncorrectable, counted in MEM_UE, and memory is as it was (R248; which transfers fail, log entry 69). -/
def Sys2Proof.Claim.InterfaceTransfers : Prop :=
  ∀ (d : Data) (e : Env) (l n : Nat) (rest : List Nat), d.transfers = n :: rest →
    (l < berthBase → n ≤ 8 → d.readOver e l = ({ d with transfers := rest }.bump Evt.linkRetry n).readLine e l)
      ∧ (l < berthBase → 8 < n → (d.readOver e l).1 = LineIn.bad ∧ (d.readOver e l).2.cells = d.cells
        ∧ tget 0 (d.readOver e l).2.evts Evt.memUe = tget 0 d.evts Evt.memUe + 1
        ∧ tget 0 (d.readOver e l).2.evts Evt.linkRetry = tget 0 d.evts Evt.linkRetry + 8)
      ∧ (berthBase ≤ l → d.readOver e l = d.readLine e l)

/-- The completions of a BAR4 read: one where every line is good; a cut at the boundary drops no byte, and a poisoned completion is one
with a byte of a bad line, which reads 0xFF (R251). -/
def Sys2Proof.Claim.PoisonedCompletions : Prop :=
  (∀ (e : Env) (x len : Nat) (ls : List Nat) (d : Data), (∀ p ∈ (bar4Lines e x len ls d).1, p.2.2 = false) →
      bar4Parts e x len ls d = ([(x, (bar4Lines e x len ls d).1.flatMap (·.2.1), false)], (bar4Lines e x len ls d).2))
    ∧ (∀ (e : Env) (x len : Nat) (ls : List Nat) (d : Data), ∀ p ∈ (bar4Lines e x len ls d).1, p.2.2 = true →
      ∀ b ∈ p.2.1, b = 0xFF)
    ∧ ∀ (n : Nat) (ps : List (Nat × List Byte × Bool)),
      (joinParts n ps).flatMap (·.2.1) = ps.flatMap (·.2.1) ∧ (joinParts n ps).any (·.2.2) = ps.any (·.2.2)

/-- The host's view of memory through BAR4. -/
def Obligations.HostMemoryHolds : Prop :=
  Claim.HostMemory ∧ Claim.InterfaceTransfers ∧ Claim.PoisonedCompletions

/-- R353: an access to a stack that is off or failed counts one HOST_OFF_ACCESS and reports an advisory error; the read gives
bytes of 0xFF marked poisoned, the write changes no memory; an access to a stack in slack waits, held (R352; log entry 73); an offset beyond the window
is not claimed. -/
def Sys2Proof.Claim.OffAccesses : Prop :=
  ∀ (s : State) (off : Nat) (bytes : List Byte), bytes ≠ [] →
    (s.writeHeld = false → s.windowSize < off + bytes.length →
        exec (.bar4Read off bytes.length) s = .next s ∧ ∀ p, exec (.bar4Write off bytes p) s = .next s)
      ∧ (off + bytes.length ≤ s.windowSize → (∃ l ∈ coveredLines off bytes.length, s.dp.isFailed l = false
            ∧ (s.domain (lineDom l)).st = .slack) →
        exec (.bar4Read off bytes.length) s = .next (s.hold (.read off bytes.length))
          ∧ ∀ p, exec (.bar4Write off bytes p) s = .next (s.hold (.write off bytes p)))
      ∧ (s.writeHeld = false → off + bytes.length ≤ s.windowSize → (∀ l ∈ coveredLines off bytes.length,
            s.dp.isFailed l = true ∨ (s.domain (lineDom l)).st = .off) →
        (∃ t, exec (.bar4Read off bytes.length) s = .next t
            ∧ t.out = .bar4 [(off, List.replicate bytes.length 0xFF, true)] :: .aer :: s.out
            ∧ t.dp.cells = s.dp.cells ∧ t.count Evt.hostOffAccess = s.count Evt.hostOffAccess + 1)
          ∧ ∀ p, ∃ t, exec (.bar4Write off bytes p) s = .next t ∧ t.out = .aer :: s.out
            ∧ t.dp.cells = s.dp.cells ∧ t.count Evt.hostOffAccess = s.count Evt.hostOffAccess + 1)

/-- What a held access of the host does once it need not wait: the accesses keep their order, and with none that still waits each does
what it would have done when it came (R352, R353). -/
def Sys2Proof.Claim.HeldAccesses : Prop :=
  (∀ s : State, s.pci.held = [] → s.settleHeld = s)
    ∧ (∀ (s : State) (a : HostAccess) (as : List HostAccess), s.pci.held = a :: as →
      let s0 : State := { s with pci := { s.pci with held := [] } }
      (s0.accessWaits a = false → s.settleHeld = as.foldl State.access (s0.doAccess a))
        ∧ (s0.accessWaits a = true → s.settleHeld = as.foldl State.access (s0.hold a)))
    ∧ ∀ (s : State) (a : HostAccess), s.writeHeld = true → s.access a = s.hold a

/-- Host accesses to stacks that are off, failed or in slack, and the accesses that are held. -/
def Obligations.OffAccesses : Prop :=
  Claim.OffAccesses ∧ Claim.HeldAccesses

/-- The side window: SIDE_DATA written reads back, where its transfers succeed (R248), and leaves the payload, and reads as all ones on
a poisoned line, which
refuses the write with SIDE_REJECT; a line that waits for its domain holds both (11 R352), one of a stack that is off or failed reads all
ones and refuses the write, and where SIDE_ADDR names no line a read gives 0 and a write is ignored (R252). -/
def Sys2Proof.Claim.SideWindow : Prop :=
  (∀ (s : State) (v : Reg), s.writeHeld = false → s.sideLine = none → exec (.sideDataWrite v) s = .next s
      ∧ exec .sideDataRead s = .next { s with out := .value 0 :: s.out })
    ∧ (∀ (s : State) (l : Nat) (v : Reg), s.sideLine = some l → s.lineGo l = .waits →
      exec (.sideDataWrite v) s = .next (s.hold (.register .bar0 0x1009038 8 v)) ∧ exec .sideDataRead s = .next (s.hold .sideRead))
    ∧ (∀ (s : State) (l : Nat) (v : Reg), s.writeHeld = false → s.sideLine = some l → s.lineGo l = .refused →
      exec (.sideDataWrite v) s = .next (s.bump Evt.sideReject 1)
        ∧ exec .sideDataRead s = .next { s with out := .value (BitVec.allOnes 64) :: s.out })
    ∧ ∀ (s : State) (l : Nat) (v : Reg), s.writeHeld = false → s.sideLine = some l → s.lineGo l = .goes →
    ((s.dp.readLine (s.env 0) l).1.poison = false →
        ∃ t, exec (.sideDataWrite v) s = .next t
          ∧ t.dp.peekLine l = ⟨(s.dp.readLine (s.env 0) l).1.payload, natLE 8 v.toNat, false⟩
          ∧ (s.dp.transfers.headD 0 ≤ 8 → ∃ u, exec .sideDataRead t = .next u ∧ u.out = .value v :: t.out))
      ∧ ((s.dp.readLine (s.env 0) l).1.poison = true →
        (∃ t, exec (.sideDataWrite v) s = .next t ∧ t.count Evt.sideReject = s.count Evt.sideReject + 1)
          ∧ ∃ t, exec .sideDataRead s = .next t ∧ t.out = .value (BitVec.allOnes 64) :: s.out)

/-- The patrol scrub leaves a clean line as it is and rewrites an uncorrectable one poisoned with zeros, counted and logged. -/
def Sys2Proof.Claim.ScrubRewrites : Prop :=
  ∀ (s : State) (l : Nat), l < lineCount → s.dp.scrubEn = true → (s.domain (lineDom l)).st = .on → s.dp.isFailed l = false →
    (berthBase ≤ l → s.absent (lineCluster l) = false) →
      let bs := s.dp.stored l
      (∀ x, decodeLine s.dp.correct (bs.take 72) (bs.drop 72) = .clean x → exec (.scrub l) s = .next s)
        ∧ (decodeLine s.dp.correct (bs.take 72) (bs.drop 72) = .uncorrectable →
          ∃ t, exec (.scrub l) s = .next t ∧ t.dp.peekLine l = ⟨List.replicate 64 0, List.replicate 8 0, true⟩
            ∧ (∀ k, k ≠ l → t.dp.stored k = s.dp.stored k)
            ∧ t.count Evt.scrubPoison = s.count Evt.scrubPoison + 1 ∧ t = { s with dp := t.dp })

/-- Each retraining of a stack that is on counts in RETRAIN; the third failure in a row puts the stack into the failed state,
counted and logged, and a success starts the count again. -/
def Sys2Proof.Claim.RetrainFailures : Prop :=
  ∀ (s : State) (x : Nat), x < 16 → (s.domain (16 + x)).st = .on → x ∉ s.dp.failed →
    (∃ t, exec (.retrainInterface x true) s = .next t ∧ t.count Evt.retrain = s.count Evt.retrain + 1
        ∧ tget 0 t.dp.retrainFails x = 0 ∧ (∀ y, y ≠ x → tget 0 t.dp.retrainFails y = tget 0 s.dp.retrainFails y)
        ∧ t.dp.failed = s.dp.failed ∧ t.dp.cells = s.dp.cells)
      ∧ (tget 0 s.dp.retrainFails x = 2 →
        ∃ t, exec (.retrainInterface x false) s = .next t ∧ t.dp.failed = s.dp.failed ++ [x]
          ∧ t.count Evt.retrain = s.count Evt.retrain + 1
          ∧ t.count Evt.stackFail = s.count Evt.stackFail + 1 ∧ t.dp.cells = s.dp.cells)
      ∧ (tget 0 s.dp.retrainFails x < 2 →
        ∃ t, exec (.retrainInterface x false) s = .next t ∧ t.dp.failed = s.dp.failed
          ∧ t.count Evt.retrain = s.count Evt.retrain + 1
          ∧ tget 0 t.dp.retrainFails x = tget 0 s.dp.retrainFails x + 1)

/-- The side window, the scrubber, and retraining of a stack's interface. -/
def Obligations.SideScrubRetrain : Prop :=
  Claim.SideWindow ∧ Claim.ScrubRewrites ∧ Claim.RetrainFailures

/-! ### Control operations and the host function (chapter 11) -/

/-- NOP only ends; NOTIFY posts its eight bytes, or ends with HOST_ABORT while Bus Master Enable is clear; CTX_SAVE writes the
image; CTX_RESTORE loads the counters and the registers of an image, with every other queue disabled. -/
def Obligations.ControlOperations : Prop :=
  ∀ (s : State) (id : Nat) (o : Op) (i : Inst) (d : Data),
    (s.Running id 0 0x0F01 o i → ∃ t, exec (.nop id) s = .next t ∧ s.Ended t id 0 0 0 ∧ t = { s with ops := t.ops })
      ∧ (s.Running id 0 0x0F02 o i → o.orphan = false → s.mayIssue = true →
        ∃ t, exec (.notify id) s = .next t ∧ s.Ended t id 0 0 0
          ∧ t = { s with ops := t.ops, out := .write (field o.desc 16 8) (slice o.desc 24 8) :: s.out })
      ∧ (s.Running id 0 0x0F02 o i → s.pci.d3hot = false → s.pci.busMaster = false →
        ∃ t, exec (.notify id) s = .next t ∧ s.Ended t id 0 Code.hostAbort 0 ∧ t = { s with ops := t.ops })
      ∧ (s.Running id 0 0x0F03 o i → s.run (do
          let ws ← putBytes (s.envOf o) o.acc (addrField o.desc 16) (s.contextImage (bits (field o.desc 24 1) 1 0))
          writeAll (s.envOf o) ws) = some (.ok (), d) →
        ∃ t, exec (.ctxSave id) s = .next t ∧ s.Ended t id 0 0 0 ∧ t.dp = d ∧ t = { s with ops := t.ops, dp := t.dp })
      ∧ (∀ bytes : List Byte, s.Running id 0 0x0F04 o i → addrField o.desc 24 = 0 →
        field (o.record Lab.ctxHeader) 2 1 = 0 → (o.record Lab.ctxHeader).length = 64 → o.q < 64 →
        s.run (openRead (s.envOf o) o.acc (addrField o.desc 16 + 64) (imageBytes 0 / 64 - 1)) = some (.ok bytes, d) →
        ∃ t, exec (.ctxRestore id) s = .next t ∧ s.Ended t id 0 0 0
          ∧ (∀ n, n < 4096 → (t.counter n).value = BitVec.ofNat 32 (field (o.record Lab.ctxHeader ++ bytes) (0x40 + 8 * n) 4))
          ∧ t.queue o.q = s.queue o.q
          ∧ (∀ q, q < 64 → q ≠ o.q → (t.queue q).enable = false ∧ (t.queue q).state = 0)
          ∧ t.dp.cells = d.cells)

/-- A host reset disables every queue, clears the registers of the host block and the completion counters, orphans what runs
and discards the requests that wait; memory and the registers of other chapters stay. -/
def Sys2Proof.Claim.HostResetClears : Prop :=
  ∀ (s : State) (c : HostResetCause),
    ∃ t, exec (.hostReset c) s = .next t
      ∧ (∀ q, t.queue q = .reset) ∧ (∀ n, t.counter n = .reset) ∧ t.hst = .reset ∧ t.pci.busMaster = false
      ∧ t.pci.held = [] ∧ t.pci.spdmWait = none ∧ t.ops = s.ops.map (fun (o : Op) => { o with orphan := true })
      ∧ t.dp = { s.dp with evts := t.dp.evts }
      ∧ t.count Evt.hostResetDiscard = BitVec.ofNat 48 s.hst.deferred.length
      ∧ t.tun = s.tun ∧ t.rng = s.rng ∧ t.stw.lanes = s.stw.lanes ∧ t.los = s.los ∧ t.seq = s.seq ∧ t.hw = s.hw
      ∧ t.pwr = s.pwr ∧ t.dic = s.dic ∧ t.boot = s.boot

/-- The function's states: the link comes up after READY, D-state and Bus Master Enable are as written, with the host domain in slack while
D3hot lasts, counted (14 R431, R432); an unmask sends the message that was pending, a DOE abort discards the object in progress, and an
object is taken from stage 5 on: an SPDM request is answered, at once or when its nonce is there, Discovery too, and an object of another
type, or one while another waits, is not. -/
def Sys2Proof.Claim.HostFunction : Prop :=
  ∀ s : State,
    (s.pwr.hostOn = true → s.boot.stage = 7 →
        exec .pcieLinkUp s = .next { s with pci := { s.pci with down := false } })
      ∧ (∀ d3 bm, s.pci.down = false → (d3 = true ∨ bm = false) →
        ∃ t, exec (.functionStateChange d3 bm) s = .next t
          ∧ t = { s with pci := { s.pci with d3hot := d3, busMaster := bm }, dp := { s.dp with evts := t.dp.evts } }
          ∧ t.count Evt.slackEntry = s.count Evt.slackEntry + (if s.pwr.hostOn && !s.pci.d3hot && d3 then 1 else 0)
          ∧ t.count Evt.slackWake = s.count Evt.slackWake + (if s.pwr.hostOn && s.pci.d3hot && !d3 then 1 else 0))
      ∧ (∀ v, v < 256 → (s.vec v).pending = true → s.mayIssue = true →
        ∃ t, exec (.msixUnmask v) s = .next t ∧ t.out = .msix v (s.vec v).addr (s.vec v).data :: s.out
          ∧ t.vec v = { s.vec v with masked := false, pending := false } ∧ t.dp = s.dp)
      ∧ exec .doeAbort s = .next { s with pci := { s.pci with doePart := [], doeError := false, spdmWait := none } }
      ∧ (∀ bytes, s.pci.down = true ∨ s.boot.stage < 5 ∨ s.mgmtOn = false ∨ s.pci.spdmWait.isSome = true →
        exec (.spdmRequest bytes) s = .next s)
      ∧ ∀ bytes, s.pci.down = false → 5 ≤ s.boot.stage → s.mgmtOn = true → s.pci.doePart = [] → s.pci.spdmWait = none →
        (bytes.length < 8 → exec (.spdmRequest bytes) s = .next { s with pci := { s.pci with doePart := bytes } })
        ∧ (8 ≤ bytes.length → doeLength bytes ≤ bytes.length → bytes.length ≤ 16384 →
          (field bytes 0 2 = 1 → field bytes 2 1 = 1 →
            (needsNonce bytes = false ∨ spdmSupported bytes = false ∨ spdmSlot bytes ≠ 0 →
              ∃ t, exec (.spdmRequest bytes) s = .next t
                ∧ (∃ rest, t.out = rest ++ .doe (doeWrap (s.boot.spdmReply bytes 0)) :: s.out)
                ∧ t.pci.doePart = [] ∧ t.dp = s.dp ∧ t.cnt = s.cnt)
            ∧ (needsNonce bytes = true → spdmSupported bytes = true → spdmSlot bytes = 0 →
              (s.rng.entOk = false →
                exec (.spdmRequest bytes) s = .next { s with pci := { s.pci with spdmWait := some bytes } })
              ∧ (s.rng.entOk = true → ∃ t, exec (.spdmRequest bytes) s = .next t
                ∧ (∃ rest, t.out = rest ++ .doe (doeWrap (s.boot.spdmReply bytes (Config.seed s.rng.drawn))) :: s.out)
                ∧ t.rng.drawn = s.rng.drawn + 1 ∧ t.dp = s.dp ∧ t.cnt = s.cnt)))
          ∧ (field bytes 0 2 = 1 → field bytes 2 1 = 0 → ∃ t, exec (.spdmRequest bytes) s = .next t
            ∧ (∃ rest, t.out = rest ++ .doe (discovery bytes) :: s.out) ∧ t.dp = s.dp ∧ t.cnt = s.cnt)
          ∧ (field bytes 0 2 ≠ 1 ∨ 1 < field bytes 2 1 → exec (.spdmRequest bytes) s = .next s))

/-- What the host does to the function. -/
def Obligations.HostEvents : Prop :=
  Claim.HostResetClears ∧ Claim.HostFunction



/-! ### Power domains (chapter 14) -/

/-- A request of ON or SLACK is stored, wakes a domain from slack when it is ON, powers up one that is off, and waits, counted,
on one that shuts down; a request of OFF begins the shutdown of a domain that is on or in slack. -/
def Sys2Proof.Claim.DomainRequests : Prop :=
  ∀ (s : State) (x : Nat), x < 32 →
    ((s.domain x).st = .on →
        exec (.domainReqOn x) s = .next (s.updDom x fun d => { d with req := 1 })
          ∧ exec (.domainReqSlack x) s = .next (s.updDom x fun d => { d with req := 2 })
          ∧ exec (.domainReqOff x) s
            = .next (s.updDom x fun d => { d with req := 0, pending := false, pendReq := 0, st := .down }))
      ∧ ((s.domain x).st = .off → s.powered = true →
        exec (.domainReqOn x) s = .next (s.updDom x fun d => { d with req := 1, st := .up })
          ∧ exec (.domainReqSlack x) s = .next (s.updDom x fun d => { d with req := 2, st := .up }))
      ∧ ((s.domain x).st = .down →
        (∃ t, exec (.domainReqOn x) s = .next t ∧ (t.domain x).pending = true ∧ (t.domain x).pendReq = 1 ∧ (t.domain x).req = 1
            ∧ (t.domain x).st = .down ∧ t.count Evt.domainPending = s.count Evt.domainPending + 1)
          ∧ ∃ t, exec (.domainReqOff x) s = .next t ∧ (t.domain x).pending = false ∧ (t.domain x).st = .down)
      ∧ ((s.domain x).st = .slack → ∃ t, exec (.domainReqOn x) s = .next t ∧ (t.domain x).st = .on
        ∧ t.count Evt.slackWake = s.count Evt.slackWake + 1)

/-- A domain whose REQ is SLACK and which is idle enters slack, counted, and keeps what it holds; a request wakes it. -/
def Sys2Proof.Claim.SlackKeepsContents : Prop :=
  ∀ (s : State) (x : Nat), x < 32 →
    ((s.domain x).req = 2 → (s.domain x).st = .on → s.inUse x = false →
        exec (.slackEntry x) s = .next ((s.updDom x fun d => { d with st := .slack }).bump Evt.slackEntry 1))
      ∧ ((s.domain x).st = .slack → s.mbx.waiting = [] →
        exec (.slackWake x) s = .next ((s.updDom x fun d => { d with st := .on }).bump Evt.slackWake 1))

/-- Power is removed from a domain that nothing uses any more, and a request that waited powers it up; a domain that comes on
from off holds poisoned lines, a cluster domain no retained tile and newly seeded strings, a stack domain no frame of a lane
in it and no open context (its pool, when one is configured, is written anew). -/
def Sys2Proof.Claim.DomainsComeOnEmpty : Prop :=
  ∀ (s : State) (x : Nat), x < 32 →
    ((s.domain x).st = .down → s.stillUsed x = false →
        ∃ t, exec (.domainPowerRemoved x) s = .next t ∧ t = { s with pwr := t.pwr }
          ∧ (∀ y, y ≠ x → t.domain y = s.domain y)
          ∧ ((s.domain x).pending = false → t.domain x = { s.domain x with st := .off })
          ∧ ((s.domain x).pending = true → s.powered = true → t.domain x = ⟨(s.domain x).pendReq, .up, false, 0⟩))
      ∧ ((s.domain x).st = .up → (s.domain x).req ≠ 0 → s.rng.entOk = true →
        ∃ t, exec (.domainPoweredUp x) s = .next t ∧ (t.domain x).st = .on
          ∧ (16 ≤ x → (s.pool (x - 16) = .reset → ∀ a, 80 * 2 ^ 30 * (x - 16) ≤ a → a < 80 * 2 ^ 30 * (x - 15) →
              Memory.get t.dp.cells a = Memory.default a)
            ∧ (∀ l, l < 16 → (s.lane l).inStack (x - 16) = true → (t.lane l).depth = 0)
            ∧ ∀ c ∈ t.seq.ctxs, homeOf c.1 ≠ x - 16)
          ∧ (x < 16 → x % 4 ≠ 3 →
            (∀ n ∈ domClusters x, ∀ a, 80 * (berthBase + 2 ^ 15 * n) ≤ a → a < 80 * (berthBase + 2 ^ 15 * (n + 1)) →
              Memory.get t.dp.cells a = Memory.default a)
            ∧ (∀ pc l, physDom pc = x → t.rng.counter pc l = seededCounter (Config.seed s.rng.drawn) pc l)))

/-- Power domains: requests, slack, power off and on. -/
def Obligations.PowerDomains : Prop :=
  Claim.DomainRequests ∧ Claim.SlackKeepsContents ∧ Claim.DomainsComeOnEmpty

/-! ### Boot and resets (chapter 15) -/

/-- The stages in order: the boot ROM's read of the PUF, which gives the UDS and the DeviceID key (R452), the check of the protected
partition, whose failure halts the module (R449), then the dictionary agent's and the fabric's objects, each taken from a
slot that verifies; a PUF that cannot be read halts the module, with nothing of the 54 V domains on. -/
def Sys2Proof.Claim.BootStages : Prop :=
  ∀ (s : State) (b : BootFindings), s.boot.halted = false → s.mgmtOn = true →
    (s.boot.stage = 0 → s.pwr.modRst = false →
        exec (.bootStageComplete b) s = .next { s with boot := { s.boot with stage := 1 } })
      ∧ (s.boot.stage = 1 → b.pufOk = true →
        exec (.bootStageComplete b) s = .next { s with boot := { s.boot with
          stage := 2, uds := some Config.uds, deviceKey := deviceKeyOf Config.uds } })
      ∧ (s.boot.stage = 2 → s.boot.partOk = false →
        ∃ t, exec (.bootStageComplete b) s = .next t ∧ t.boot.halted = true ∧ t.boot.reason = Why.partition ∧ t.boot.stage = 2
          ∧ t.pwr.meshOn = false ∧ t.pwr.hostOn = false)
      ∧ (s.boot.stage = 1 → b.pufOk = false →
        ∃ t, exec (.bootStageComplete b) s = .next t ∧ t.boot.halted = true ∧ t.boot.stage = 1
          ∧ t.pwr.meshOn = false ∧ t.pwr.hostOn = false ∧ ∀ x, x < 16 → (t.domain x).st = .off)
      ∧ (s.boot.stage = 4 → s.boot.rejects 2 (s.boot.slot 2 (s.boot.activeSlot 2)) = none →
        exec (.bootStageComplete b) s = .next { s with boot := { s.boot with
          stage := 5, running := tput s.boot.running 2 (s.boot.slot 2 (s.boot.activeSlot 2)) } })
      ∧ (s.boot.stage = 5 → s.inputGood = true →
        ∃ t, exec (.bootStageComplete b) s = .next t ∧ t.boot.stage = 6 ∧ t.pwr.meshOn = true ∧ t.pwr.hostOn = true
          ∧ ∀ x, x < 16 → (s.domain x).req ≠ 0 → (t.domain x).st = .on)
      ∧ (s.boot.stage = 5 → s.inputGood = false → exec (.bootStageComplete b) s = .next s)
      ∧ (s.boot.stage < 7 → ∀ reason, ∃ t, exec (.bootHalt reason) s = .next t ∧ t.boot.halted = true ∧ t.boot.reason = reason
          ∧ t.boot.stage = s.boot.stage ∧ t.pwr.meshOn = false)

/-- No object runs that its checks reject: whatever stage completes, the object that a kind runs has passed. -/
def Sys2Proof.Claim.OnlyVerifiedObjectsRun : Prop :=
  ∀ (s t : State) (b : BootFindings), exec (.bootStageComplete b) s = .next t →
    ∀ k o, t.boot.runningObj k = some o → s.boot.runningObj k = some o ∨ s.boot.rejects k o = none

/-- A module reset clears the queues, counters, fabrics, lanes, strings' seeding and the operations in flight and begins boot at
stage 0, while stacks that are on keep their lines and the tide, the meters, the error log and flash stay; releasing MOD_RST_N
lets boot go on; the loss of both inputs leaves only what flash holds. -/
def Sys2Proof.Claim.ModuleResets : Prop :=
  ∀ s : State,
    (∃ t, exec (.moduleReset .modRstN) s = .next t ∧ t.ops = [] ∧ t.que = [] ∧ t.cnt = [] ∧ t.los = [] ∧ t.stw = .reset
        ∧ t.treble = .reset ∧ t.bass = .reset ∧ t.tun = .reset ∧ t.rng.seeded = false ∧ t.boot.stage = 0 ∧ t.boot.halted = false
        ∧ t.pwr.modRst = true ∧ t.tide = s.tide ∧ t.dp.log = s.dp.log ∧ t.dp.logCount = s.dp.logCount
        ∧ t.dic.meters = s.dic.meters ∧ t.boot.slots = s.boot.slots ∧ t.boot.counters = s.boot.counters
        ∧ (∀ l x, x < 16 → l / 2 ^ 30 = x → (s.domain (16 + x)).st = .on → t.dp.stored l = s.dp.stored l)
        ∧ ∀ l x, x < 16 → l / 2 ^ 30 = x → (s.domain (16 + x)).st = .off → t.dp.stored l = State.reset.dp.stored l)
      ∧ exec .modRstNRelease s = .next { s with pwr := { s.pwr with modRst := false } }
      ∧ ∃ t, exec .managementPowerLoss s = .next t ∧ t.mgmtOn = false ∧ t.dp.cells = [] ∧ t.ops = [] ∧ t.tide = 0
        ∧ t.dp.log = s.dp.log ∧ t.boot.counters = s.boot.counters ∧ t.boot.slots = s.boot.slots ∧ t.dic.cfg = s.dic.stored

/-- Boot stages, what may run, and the resets of the module. -/
def Obligations.BootAndResets : Prop :=
  Claim.BootStages ∧ Claim.OnlyVerifiedObjectsRun ∧ Claim.ModuleResets



/-! ### Mailboxes (chapter 12) -/

/-- The sender of a channel that is not FULL writes its words; a write by anyone else is denied, one to a FULL channel rejected,
and neither changes a word; an internal master sees a bus error, the host an advisory error for a rejection (R377, R382). -/
def Sys2Proof.Claim.MailboxWords : Prop :=
  ∀ (s : State) (m : Byte) (c w : Nat) (v : Reg), c < 64 → w < 8 → s.bufferOff c = false →
    (m ≠ 0 → m = s.mbxSender c → (s.chan c).full = false →
        exec (.mbxWordWrite m c w v) s = .next (s.updChan c fun k => { k with words := k.words.set w v }))
      ∧ (m ≠ s.mbxSender c →
        (m = 1 → exec (.mbxWordWrite m c w v) s = .next (s.bump Evt.mbxDenied 1))
          ∧ (m ≠ 1 → exec (.mbxWordWrite m c w v) s
            = .next { s.bump Evt.mbxDenied 1 with out := .busError m :: s.out }))
      ∧ (m ≠ 0 → m = s.mbxSender c → (s.chan c).full = true →
        ∃ t, exec (.mbxWordWrite m c w v) s = .next t ∧ t.mbx = s.mbx
          ∧ t.count Evt.mbxRejectFull = s.count Evt.mbxRejectFull + 1
          ∧ t.out = (if m = 1 then .aer else .busError m) :: s.out)

/-- SEND fills an empty channel with the next sequence number, ACK empties a FULL one and clears its words; each counts once and
leaves every other channel as it is. -/
def Sys2Proof.Claim.MailboxHandshake : Prop :=
  ∀ (s : State) (m : Byte) (c : Nat) (v : Reg), c < 64 → s.bufferOff c = false → m ≠ 0 →
    (m = s.mbxSender c → (s.chan c).full = false → s.partyOff (s.mbxReceiver c) = false → bit v.toNat 1 = false →
        ∃ t, exec (.send m c v) s = .next t ∧ (t.chan c).full = true ∧ (t.chan c).seq = (s.chan c).seq + 1
          ∧ (t.chan c).words = (s.chan c).words ∧ (∀ k, k ≠ c → t.chan k = s.chan k)
          ∧ t.count Evt.mbxSent = s.count Evt.mbxSent + 1 ∧ t.count Evt.mbxAcked = s.count Evt.mbxAcked
          ∧ t = { s with mbx := t.mbx, dp := { s.dp with evts := t.dp.evts }, hst := t.hst, pci := t.pci, out := t.out })
      ∧ (m = s.mbxAcker c → (s.chan c).full = true → s.partyOff (s.mbxSender c) = false → bit v.toNat 0 = false →
        ∃ t, exec (.ackMessage m c v) s = .next t ∧ (t.chan c).full = false ∧ (t.chan c).words = List.replicate 8 0
          ∧ (t.chan c).seq = (s.chan c).seq ∧ (∀ k, k ≠ c → t.chan k = s.chan k)
          ∧ t.count Evt.mbxAcked = s.count Evt.mbxAcked + 1 ∧ t.count Evt.mbxSent = s.count Evt.mbxSent
          ∧ t = { s with mbx := t.mbx, dp := { s.dp with evts := t.dp.evts }, hst := t.hst, pci := t.pci, out := t.out })

/-- The FULL channels. -/
def Sys2Proof.fullChannels (s : State) : Nat := ((List.range 64).filter fun c => (s.chan c).full).length

/-- Messages are neither lost nor invented: no mailbox command changes MBX_SENT less MBX_ACKED less the number of FULL
channels. -/
def Obligations.MailboxConservation : Prop :=
  ∀ (s t : State) (m : Byte) (c w : Nat) (v : Reg) (peer : Byte),
    exec (.mbxWordWrite m c w v) s = .next t ∨ exec (.send m c v) s = .next t ∨ exec (.ackMessage m c v) s = .next t
        ∨ exec (.acquire m c peer) s = .next t ∨ exec (.lockRelease m c) s = .next t →
      t.count Evt.mbxSent - t.count Evt.mbxAcked - BitVec.ofNat 48 (fullChannels t)
        = s.count Evt.mbxSent - s.count Evt.mbxAcked - BitVec.ofNat 48 (fullChannels s)

/-- A free user channel's lock goes to the master that acquires it for another party; a held one contends; its owner or the
harbourmaster releases it once no message waits. -/
def Sys2Proof.Claim.LocksChangeHands : Prop :=
  ∀ (s : State) (m peer : Byte) (c : Nat), 48 ≤ c → c < 64 → s.pwr.meshOn = true →
    ((s.chan c).held = false → peer ≠ m →
        exec (.acquire m c peer) s = .next (s.updChan c fun k => { k with held := true, owner := m, peer := peer }))
      ∧ ((s.chan c).held = true → exec (.acquire m c peer) s = .next (s.bump Evt.lockContend 1))
      ∧ ((s.chan c).full = false → ((s.chan c).held = true ∧ m = (s.chan c).owner) ∨ m = BitVec.ofNat 8 Master.harbour →
        exec (.lockRelease m c) s = .next (s.updChan c fun k => { k with held := false, owner := 0 }))
      ∧ ((s.chan c).full = true → exec (.lockRelease m c) s = .next (s.bump Evt.lockRefused 1))

/-- Mailbox words, the handshake of a channel, and its lock. -/
def Obligations.Mailboxes : Prop :=
  Claim.MailboxWords ∧ Claim.MailboxHandshake ∧ Claim.LocksChangeHands

/-! ### Supply (chapters 13, 14) -/

/-- Supply events: a dip below DIP_V, a dropout, a swell above SWELL_V, overstress, an auxiliary loss and a window of ripple in a second
without another event each count once and become the last event; a dropout also counts one SHUTDOWN and shuts the module down, and a dip
below 44.0 V counts NV_INHIBIT and asserts the inhibit (13 R409; 14 R414). -/
def Sys2Proof.Claim.SupplyEvents : Prop :=
  ∀ (s : State) (mean : Word), s.mgmtOn = true → s.dic.active = [] →
    ((numOf mean).lt (numOf s.dic.cfg.dipV) = true → (numOf mean).lt (FV.ofNat 40) = false →
        ∃ t, exec (.supplyEventBegin .dip mean) s = .next t
          ∧ tget 0 t.dic.counts 1 = tget 0 s.dic.counts 1 + 1 ∧ t.dic.evType = 1 ∧ t.dic.evStart = s.tide ∧ t.dic.evExt = mean
          ∧ t.pwr.shut = s.pwr.shut ∧ t.dp.cells = s.dp.cells ∧ t.ops = s.ops
          ∧ ((numOf mean).lt (FV.ofNat 44) = true → t.pwr.nvInhibit = true
            ∧ tget 0 t.dic.counts 7 = tget 0 s.dic.counts 7 + 1)
          ∧ ((numOf mean).lt (FV.ofNat 44) = false → t.pwr.nvInhibit = s.pwr.nvInhibit
            ∧ tget 0 t.dic.counts 7 = tget 0 s.dic.counts 7))
      ∧ ((numOf mean).lt (FV.ofNat 40) = true → s.pwr.shut = none →
        ∃ t, exec (.supplyEventBegin .dropout mean) s = .next t
          ∧ tget 0 t.dic.counts 2 = tget 0 s.dic.counts 2 + 1 ∧ tget 0 t.dic.counts 8 = tget 0 s.dic.counts 8 + 1
          ∧ t.dic.evType = 2 ∧ t.pwr.shut = some .input ∧ t.pwr.in54 = false ∧ t.ops = [] ∧ t.dp.cells = [])
      ∧ ((numOf s.dic.cfg.swellV).lt (numOf mean) = true →
        ∃ t, exec (.supplyEventBegin .swell mean) s = .next t
          ∧ tget 0 t.dic.counts 3 = tget 0 s.dic.counts 3 + 1 ∧ t.dic.evType = 3 ∧ t.dp.cells = s.dp.cells
          ∧ t.pwr = (s.noteMean mean).pwr)
      ∧ ((numOf s.dic.cfg.swellV).lt (numOf mean) = true →
        ∃ t, exec (.supplyEventBegin .overstress mean) s = .next t
          ∧ tget 0 t.dic.counts 3 = tget 0 s.dic.counts 3 + 1 ∧ tget 0 t.dic.counts 4 = tget 0 s.dic.counts 4 + 1
          ∧ t.dic.evType = 4 ∧ t.dic.evExt = mean ∧ t.dp.cells = s.dp.cells ∧ t.pwr = (s.noteMean mean).pwr)
      ∧ (belowTenths (numOf mean) 108 = true → s.pwr.below44 = false → s.pwr.in54 = true →
        ∃ t, exec (.supplyEventBegin .auxLoss mean) s = .next t
          ∧ tget 0 t.dic.counts 6 = tget 0 s.dic.counts 6 + 1 ∧ t.dic.evType = 6 ∧ t.dp.cells = s.dp.cells
          ∧ t.pwr = { s.pwr with in12 := false })
      ∧ (∀ vpp, s.quietSecond = true → (numOf s.dic.cfg.rippleVpp).lt (numOf vpp) = true →
        ∃ t, exec (.rippleWindow vpp) s = .next t ∧ tget 0 t.dic.counts 5 = tget 0 s.dic.counts 5 + 1 ∧ t.dic.evType = 5
          ∧ t.dic.evExt = vpp ∧ t.dp.cells = s.dp.cells ∧ t.pwr = s.pwr)
      ∧ ∀ vpp, s.quietSecond = false → exec (.rippleWindow vpp) s = .next s

/-- The end of a supply event clears it and records how long it lasted; the end of a dropout finds the input in range again; a record in
flash that changes waits while the inhibit holds (14 R414). -/
def Sys2Proof.Claim.SupplyEventsEnd : Prop :=
  ∀ (s : State) (mean : Word) (e : SupplyEv),
    (s.dic.find 1 = some e → ((numOf s.dic.cfg.dipV).add (half 1)).le (numOf mean) = true →
        ∃ t, exec (.supplyEventEnd .dip mean) s = .next t ∧ t.dic.find 1 = none ∧ t.dic.evType = 1
          ∧ t.dic.evStart = e.start ∧ t.dic.evDur = s.tide - e.start ∧ t.dic.evExt = e.extreme
          ∧ t.pwr = (s.noteMean mean).pwr ∧ t.dp.cells = s.dp.cells
          ∧ (s.pwr.nvInhibit = true → t.dp.log = s.dp.log ∧ t.dic.relogs = s.dic.relogs ++ [⟨e.start, 1, 1, s.tide - e.start⟩]))
      ∧ (s.dic.find 2 = some e → (half 89).le (numOf mean) = true →
        ∃ t, exec (.supplyEventEnd .dropout mean) s = .next t ∧ t.dic.find 2 = none ∧ t.dic.evDur = s.tide - e.start
          ∧ t.pwr.in54 = true ∧ t.dp.cells = s.dp.cells)

/-- Supply events, their records and counts. -/
def Obligations.SupplyEventsAndCounts : Prop :=
  Claim.SupplyEvents ∧ Claim.SupplyEventsEnd

/-- What an orderly shutdown leaves (14 R416): every 54 V domain off, its lines, operations and host writes gone, PWR_OK deasserted and the
write inhibit held. -/
def Sys2Proof.Machine.State.IsDown (t : State) : Prop :=
  t.ops = [] ∧ t.dp.cells = [] ∧ t.hst.deferred = [] ∧ t.pci.down = true ∧ t.pci.held = []
    ∧ t.pwr.nvInhibit = true ∧ t.pwr.nvHeld = true ∧ t.pwr.pwrOk = false ∧ t.pwr.meshOn = false ∧ t.pwr.hostOn = false
    ∧ ∀ x, x < 32 → (t.domain x).st = .off

/-- Nothing but the input keeps a module from restarting: the reference is there, and no halt, thermal trip or overcurrent holds it (14
R418; 17 R473; log entry 51). -/
def Sys2Proof.Machine.State.Restartable (s : State) : Prop :=
  s.pwr.ref = true ∧ s.boot.halted = false ∧ s.pwr.tripped = false ∧ s.pwr.overcurrent = false

/-- The module begins again at boot stage 0. -/
def Sys2Proof.Machine.State.Restarted (s t : State) : Prop :=
  t.pwr.shut = none ∧ t.pwr.in54 = true ∧ t.pwr.inputOpen = false ∧ t.boot.stage = 0 ∧ t.boot.halted = false ∧ t.ops = []
    ∧ t.que = [] ∧ t.tide = s.tide ∧ t.dic.meters = s.dic.meters

/-- Each cause of an orderly shutdown leaves the module down, with its cause; an input's or the reference's return restarts it (14 R416
to R418, R426, R430; 17 R477). -/
def Sys2Proof.Claim.Shutdowns : Prop :=
  ∀ s : State, s.pwr.shut = none →
    (∀ mean, s.mgmtOn = true → s.dic.find 2 = none → (numOf mean).lt (FV.ofNat 40) = true →
        ∃ t, exec (.supplyEventBegin .dropout mean) s = .next t ∧ t.IsDown ∧ t.pwr.shut = some .input ∧ t.pwr.in54 = false
          ∧ (s.Restartable → s.pwr.in12 = true → ∃ u, exec .supplyRestart t = .next u ∧ s.Restarted u))
      ∧ (∀ mean, s.mgmtOn = true → s.pwr.inputOpen = false → (FV.ofNat 60).lt (numOf mean) = true →
        ∃ t, exec (.inputOvervoltage mean) s = .next t ∧ t.IsDown ∧ t.pwr.shut = some .overstress ∧ t.pwr.inputOpen = true
          ∧ (s.Restartable → ∃ u, exec .supplyRestart t = .next u ∧ s.Restarted u))
      ∧ (s.pwr.inputOpen = false → s.pwr.in54 = true →
        ∃ t, exec .overcurrent s = .next t ∧ t.IsDown ∧ t.pwr.shut = some .overcurrent ∧ t.pwr.inputOpen = true
          ∧ t.pwr.overcurrent = true)
      ∧ (s.pwr.ref = true →
        ∃ t, exec .referenceLoss s = .next t ∧ t.IsDown ∧ t.pwr.shut = some .reference ∧ t.pwr.ref = false
          ∧ (s.Restartable → s.pwr.in54 = true → s.pwr.goodIn = true →
            ∃ u, exec .referenceRestored t = .next u ∧ s.Restarted u ∧ u.pwr.ref = true))
      ∧ (∀ die c, die < 5 ∨ (0x10 ≤ die ∧ die < 0x20) → s.mgmtOn = true → s.pwr.tripped = false → hot c 105 = true →
        ∃ t, exec (.thermalTrip die c) s = .next t ∧ t.IsDown ∧ t.pwr.shut = some .trip ∧ t.pwr.tripped = true)

/-- What a shutdown that has begun does with what follows: it completes, whatever comes; the supply restarts the module when nothing else
keeps it down, and not otherwise; MOD_RST_N ends a trip and an overcurrent, and no other cause (14 R416, R418, R426; 17 R473, R477; the
restart rules of log entry 51). -/
def Sys2Proof.Claim.Restarts : Prop :=
  (∀ (s : State) (c : Shutdown), s.pwr.shut.isSome = true → s.shutdown c = s)
    ∧ (∀ s : State, s.Restartable → s.mgmtOn = true → s.pwr.shut.isSome = true ∨ s.pwr.in54 = false →
      ∃ t, exec .supplyRestart s = .next t ∧ exec (.moduleReset .restart) s = .next t ∧ s.Restarted t)
    ∧ (∀ s : State, s.mgmtOn = false ∨ s.pwr.ref = false ∨ s.boot.halted = true ∨ s.pwr.tripped = true
        ∨ s.pwr.overcurrent = true ∨ (s.pwr.shut = none ∧ s.pwr.in54 = true) →
      exec .supplyRestart s = .next { s with pwr := { s.pwr with goodIn := s.mgmtOn, below44 := false } }
        ∧ exec (.moduleReset .restart) s = .next s)
    ∧ ∀ s : State, ∃ t, exec (.moduleReset .modRstN) s = .next t ∧ t.pwr.tripped = false ∧ t.pwr.overcurrent = false
      ∧ (s.pwr.shut = some .trip ∨ s.pwr.shut = some .overcurrent → s.pwr.awaits = false → s.pwr.ref = true → t.pwr.shut = none)
      ∧ (∀ c, c = .input ∨ c = .overstress ∨ c = .reference → s.pwr.shut = some c → t.pwr.shut = some c)

/-- An orderly shutdown, whatever its cause, switches every domain off, loses the lines and the operations in flight, drops what
waits for host memory, and holds the write inhibit; a restart is a module reset with the input in range; a trip and an
overcurrent are not restarted by the supply. -/
def Obligations.ShutdownsAndRestarts : Prop :=
  Claim.Shutdowns ∧ Claim.Restarts

/-- A cap that rises is released in steps of 50 W and ends at the new cap. -/
def Sys2Proof.Claim.CapReleaseSteps : Prop :=
  ∀ s : State, s.pwr.releasing = true →
    let next : Word := BitVec.ofNat 32 (encode32 (f32Add (numOf s.pwr.capInUse) (FV.ofNat 50)))
    ((numOf next).lt (numOf s.dic.capTarget) = true →
        exec .capReleaseStep s = .next { s with pwr := { s.pwr with capInUse := next } })
      ∧ ((numOf next).lt (numOf s.dic.capTarget) = false → s.dic.capPending = false →
        exec .capReleaseStep s = .next { s with pwr := { s.pwr with capInUse := s.dic.capTarget, releasing := false } })

/-! ### Governor, temperature, throttle (chapter 14) -/

/-- A fast step lowers k of every compute die by one, down to 1, when its limit is exceeded; a millisecond tick takes the
meters' sample and lowers, raises or keeps k by the one-second power and the cap. -/
def Sys2Proof.Claim.GovernorSteps : Prop :=
  ∀ s : State,
    (∀ l mean, s.exceeds l mean = true → ∃ t, exec (.governorFastStep l mean) s = .next t ∧ t = { s with pwr := t.pwr }
        ∧ t.pwr.doms = s.pwr.doms
        ∧ ∀ d, d < 4 → (t.die d).k = (if (s.die d).k.toNat ≤ 1 then 1 else (s.die d).k - 1) ∧ (t.die d).point = (s.die d).point)
      ∧ (∀ m, s.mgmtOn = true → ∃ t, exec (.governorMsTick m) s = .next t ∧ t = { s with pwr := t.pwr, dic := t.dic }
        ∧ t.dic.meters = s.dic.meters.take s.boot m
        ∧ t.dic.meters.history = (t.dic.meters.pIn :: s.dic.meters.history).take 1000
        ∧ t.dic.meters.pIn1s = meanOf (t.dic.meters.history.map numOf)
        ∧ ((s.capLess 10).lt (numOf t.dic.meters.pIn1s) = true →
          ∀ d, d < 4 → (t.die d).k = (if (s.die d).k.toNat ≤ 1 then 1 else (s.die d).k - 1))
        ∧ ((s.capLess 10).lt (numOf t.dic.meters.pIn1s) = false → (numOf t.dic.meters.pIn1s).lt (s.capLess 60) = false →
          ∀ d, d < 4 → t.die d = s.die d))

/-- A burst begins when it is armed and P_IN exceeds 2,900 W, counted once, and its end disarms it. -/
def Sys2Proof.Claim.Bursts : Prop :=
  ∀ (s : State) (p : Word),
    (s.pwr.armed = true → s.pwr.burst = false → above p 2900 = true →
        exec (.bursts p) s = .next (({ s with pwr := { s.pwr with burst := true, lastHigh := some s.tide } }).bump Evt.bursts 1))
      ∧ (s.pwr.burst = true → above p 2900 = false →
        exec (.burstEnd p) s = .next { s with pwr := { s.pwr with burst := false, armed := false } })

/-- A die retunes by one point, counted, to a voltage of the new point's range (which one is a
free value, log entry 36); a die whose margin is short gains a step of 5 mV within its point's range; each leaves the other dies as they are. -/
def Sys2Proof.Claim.OperatingPoints : Prop :=
  ∀ (s : State) (d : Nat), d < 4 →
    (∀ mean, (s.die d).k.toNat < 16 → (s.die d).point.toNat < 5 →
        ∃ t, exec (.retune d false mean) s = .next t ∧ (t.die d).point = (s.die d).point + 1 ∧ (t.die d).k = (s.die d).k
          ∧ ((s.mvRange d ((s.die d).point.toNat + 1)).2 < 65536 →
              (s.mvRange d ((s.die d).point.toNat + 1)).1 ≤ (t.die d).mv.toNat
                ∧ (t.die d).mv.toNat ≤ (s.mvRange d ((s.die d).point.toNat + 1)).2)
          ∧ (∀ c, c ≠ d → t.die c = s.die c) ∧ t.count Evt.retune = s.count Evt.retune + 1
          ∧ t = { s with pwr := t.pwr, dp := { s.dp with evts := t.dp.evts, free := s.dp.free + 1 } })
      ∧ (∀ mean, s.mayRise d mean = true →
        ∃ t, exec (.retune d true mean) s = .next t ∧ (t.die d).point = (s.die d).point - 1 ∧ (t.die d).k = (s.die d).k
          ∧ ((s.mvRange d ((s.die d).point.toNat - 1)).2 < 65536 →
              (s.mvRange d ((s.die d).point.toNat - 1)).1 ≤ (t.die d).mv.toNat
                ∧ (t.die d).mv.toNat ≤ (s.mvRange d ((s.die d).point.toNat - 1)).2)
          ∧ (∀ c, c ≠ d → t.die c = s.die c) ∧ t.count Evt.retune = s.count Evt.retune + 1)
      ∧ ((s.die d).mv.toNat + 5 ≤ (s.mvRange d (s.die d).point.toNat).2 → (s.mvRange d (s.die d).point.toNat).2 < 65536 →
        ∃ t, exec (.marginShort d) s = .next t ∧ (t.die d).mv = (s.die d).mv + 5 ∧ (t.die d).point = (s.die d).point
          ∧ (∀ c, c ≠ d → t.die c = s.die c) ∧ t = { s with pwr := t.pwr })

/-- The power loop: the release of a cap, the governor's steps, bursts, operating points. -/
def Obligations.PowerLoop : Prop :=
  Claim.CapReleaseSteps ∧ Claim.GovernorSteps ∧ Claim.Bursts ∧ Claim.OperatingPoints

/-- k of every compute die stays within 1 to 16 and its point within P0 to P5, whatever commands arrive. -/
def Obligations.GovernorStaysInRange : Prop :=
  ∀ s t : State, (∀ d, 1 ≤ (s.die d).k.toNat ∧ (s.die d).k.toNat ≤ 16 ∧ (s.die d).point.toNat ≤ 5) → step s = .next t →
    ∀ d, 1 ≤ (t.die d).k.toNat ∧ (t.die d).k.toNat ≤ 16 ∧ (t.die d).point.toNat ≤ 5

/-- A reading of 103 degrees or more puts a compute die at P5 with k = 1 and forbids raises; a trip temperature shuts the module
down; a step at 100 degrees lowers one die's k. -/
def Sys2Proof.Claim.ThermalLoops : Prop :=
  ∀ s : State,
    (∀ (r : Temperatures) (d : Nat) (c : Word), s.mgmtOn = true → d < 4 → r.dies[d]? = some c → hot c 103 = true →
        ∃ t, exec (.thermalRead r) s = .next t ∧ (t.die d).k = 1 ∧ (t.die d).point = 5 ∧ (t.die d).noRaise = true
          ∧ t.dic.inlet = r.inlet)
      ∧ (∀ (die : Nat) (c : Word), die < 5 → hot c 105 = true → s.mgmtOn = true → s.pwr.tripped = false →
        ∃ t, exec (.thermalTrip die c) s = .next t ∧ t.pwr.tripped = true
          ∧ (s.pwr.shut = none → t.pwr.shut = some .trip ∧ t.ops = [] ∧ t.dp.cells = [])
          ∧ (∀ x, s.pwr.shut = some x → t.pwr.shut = some x) ∧ exec .supplyRestart t = .next { t with pwr := { t.pwr with
            goodIn := t.mgmtOn, below44 := false } })
      ∧ (∀ (die : Nat) (c : Word), die < 5 → hot c 105 = false → exec (.thermalTrip die c) s = .next s)
      ∧ (∀ d, d < 4 → hot (tget 0 s.dic.dieTemps d) 100 = true →
        ∃ t, exec (.thermalKStep d) s = .next t
          ∧ (t.die d).k = (if (s.die d).k.toNat ≤ 1 then 1 else (s.die d).k - 1)
          ∧ (∀ c, c ≠ d → t.die c = s.die c) ∧ t = { s with pwr := t.pwr })

/-- THROTTLE_N: the filtered level sets the state, a minute of assertion is logged once, more than ten edges in a millisecond are
chatter until it clears; no burst is armed while it holds. -/
def Sys2Proof.Claim.ThrottleStates : Prop :=
  ∀ s : State,
    (∀ a, s.mgmtOn = true → s.pwr.filtered ≠ a → s.pwr.throttle ≠ 2 →
        ∃ t, exec (.throttleChange a) s = .next t ∧ t.pwr.filtered = a ∧ t.pwr.throttle = (if a then 1 else 0)
          ∧ t.pwr.throttleAt = s.tide ∧ (a = true → t.pwr.armed = false) ∧ t = { s with pwr := t.pwr })
      ∧ (s.pwr.filtered = true → s.pwr.heldLogged = false →
        ∃ t, exec .throttleHeld s = .next t ∧ t.pwr = { s.pwr with heldLogged := true } ∧ t.dp.cells = s.dp.cells
          ∧ exec .throttleHeld t = .next t)
      ∧ (∀ n, 10 < n → s.mgmtOn = true → s.pwr.throttle ≠ 2 →
        ∃ t, exec (.throttleChatter n) s = .next t ∧ t.pwr.throttle = 2 ∧ t.pwr.armed = false ∧ t.dp.cells = s.dp.cells)
      ∧ (s.pwr.throttle = 2 → ∃ t, exec .chatterClear s = .next t
        ∧ t.pwr.throttle = (if s.pwr.filtered then 1 else 0) ∧ t = { s with pwr := t.pwr })

/-- Temperatures and THROTTLE_N. -/
def Obligations.ThermalAndThrottle : Prop :=
  Claim.ThermalLoops ∧ Claim.ThrottleStates



/-! ### Sequences and pools (chapter 09) -/

/-- The open contexts of a state, but for one. -/
def Sys2Proof.Machine.State.SameContexts (s t : State) (x : Nat) : Prop := ∀ z, z ≠ x → t.ctx z = s.ctx z

/-- OPEN makes a context whose fields the descriptor gives and that holds no positions (R258); of an open one it says
ALREADY_OPEN, short of pages it says NOSPACE, and then it changes nothing else. CLOSE removes the context. -/
def Sys2Proof.Claim.SequencesOpenAndClose : Prop :=
  (∀ (s : State) (id : Nat) (o : Op) (i : Inst), s.Running id 0 0x0501 o i → s.seqHeld o = false → addrField o.desc 24 = 0 →
    (∀ c, s.ctx (seqId o.desc) = some c → exec (.openSeq id) s = .next ((s.bump Evt.seqStatus 1).finish id 0 0 0))
      ∧ (∀ b k, s.ctx (seqId o.desc) = none → (Taking.mk s 0).slots (seqId o.desc) 32 = (b, k) →
        (k.short ≠ 0 → exec (.openSeq id) s = .next ((s.bump Evt.seqStatus 1).finish id 0 0 0))
          ∧ (k.short = 0 → ∃ t, exec (.openSeq id) s = .next t
            ∧ t.ctx (seqId o.desc) = some { openCtx o.desc with root := BitVec.ofNat 60 (privAddr b) }
            ∧ ((s.pool (homeOf (seqId o.desc))).low = 0 → s.SameContexts t (seqId o.desc))
            ∧ s.Ended t id 0 0 0 ∧ t.cnt = s.cnt ∧ t.que = s.que)))
    ∧ (∀ d : List Byte, (openCtx d).fill = 0 ∧ (openCtx d).length = 0 ∧ (openCtx d).retained = 0 ∧ (openCtx d).reserved = 0
      ∧ (openCtx d).mapped = 0 ∧ (openCtx d).recompute = false)
    ∧ ∀ (s : State) (id : Nat) (o : Op) (i : Inst) (c : Ctx), s.Running id 0 0x0502 o i → s.seqHeld o = false →
      addrField o.desc 24 = 0 → s.ctx (seqId o.desc) = some c → ∃ t, exec (.closeSeq id) s = .next t
        ∧ t.ctx (seqId o.desc) = none ∧ t.seq.pools = s.seq.pools ∧ s.SameContexts t (seqId o.desc)
        ∧ s.Ended t id 0 0 0 ∧ t.cnt = s.cnt ∧ t.que = s.que

/-- An operation on a sequence that is not open answers NOT_OPEN, without any other effect (R300); one whose sequence an
earlier operation still works on waits (R257). -/
def Sys2Proof.Claim.SequencesMustBeOpen : Prop :=
  ∀ (s : State) (id code : Nat) (c : Instr) (o : Op) (i : Inst),
    (code, c) ∈ [(0x0502, Instr.closeSeq id), (0x0503, .append id), (0x0504, .truncate id), (0x0505, .reserve id),
      (0x0506, .matchPrefix id), (0x0507, .publish id), (0x050A, .query id)] →
    s.Running id 0 code o i →
      (s.seqHeld o = true → exec c s = .next s)
        ∧ (s.seqHeld o = false → s.ctx (seqId o.desc) = none → addrField o.desc 24 = 0 →
          exec c s = .next ((s.bump Evt.seqStatus 1).finish id 0 0 0))

/-- Contexts are opened and closed, and operations need an open one. -/
def Obligations.SequenceContexts : Prop :=
  Claim.SequencesOpenAndClose ∧ Claim.SequencesMustBeOpen

/-- An APPEND whose sources are read puts its positions above FILL; beyond the window, or short of pages, it says NOSPACE and
changes nothing else (R268, R270, R271). -/
def Sys2Proof.Claim.AppendsGrow : Prop :=
  ∀ (s : State) (id : Nat) (o : Op) (i : Inst) (c : Ctx) (y : Layout) (src : Sources) (d : Data),
    s.Running id 0 0x0503 o i → s.seqHeld o = false → addrField o.desc 24 = 0 → s.ctx (seqId o.desc) = some c →
    s.opLayout o c.layout.toNat = some y → vSourceBad y o.desc = false →
    s.run (appendRead (s.envOf o) ⟨none, o.pin.toNat⟩ o.desc y) = some (.ok src, d) →
      let n := field o.desc 56 3
      let first := c.fill.toNat / y.per
      let last := ceilDiv (c.fill.toNat + n) y.per
      let k := (Taking.mk { s with dp := d } 0).pages (seqId o.desc) c (addrField o.desc 48 != 0)
        ((List.range (last - first)).map (first + ·))
      (windowPages < last ∨ k.short ≠ 0 →
          exec (.append id) s = .next ((({ s with dp := d }).bump Evt.seqStatus 1).finish id 0 0 0))
        ∧ (last ≤ windowPages → k.short = 0 → ∃ t c', exec (.append id) s = .next t
          ∧ t.ctx (seqId o.desc) = some c' ∧ c'.fill = BitVec.ofNat 48 (c.fill.toNat + n)
          ∧ c'.length = BitVec.ofNat 48 (max c.length.toNat (c.fill.toNat + n))
          ∧ (∀ z, homeOf z ≠ homeOf (seqId o.desc) → t.ctx z = s.ctx z)
          ∧ s.Ended t id 0 0 0 ∧ t.cnt = s.cnt ∧ t.que = s.que)

/-- TRUNCATE lowers FILL and LENGTH to its position (R295); RESERVE sets the reservation of its context, or says NOSPACE and
changes nothing else (R269). -/
def Sys2Proof.Claim.TruncateAndReserve : Prop :=
  (∀ (s : State) (id : Nat) (o : Op) (i : Inst) (c : Ctx) (y : Layout), s.Running id 0 0x0504 o i → s.seqHeld o = false →
    addrField o.desc 24 = 0 → s.ctx (seqId o.desc) = some c → s.opLayout o c.layout.toNat = some y →
      ∃ t c', exec (.truncate id) s = .next t ∧ t.ctx (seqId o.desc) = some c'
        ∧ c'.length.toNat = min c.length.toNat (field o.desc 32 6)
        ∧ c'.fill.toNat ≤ min c.fill.toNat (field o.desc 32 6)
        ∧ (min c.fill.toNat (field o.desc 32 6) % y.per = 0 → c'.fill.toNat = min c.fill.toNat (field o.desc 32 6))
        ∧ c'.root = c.root ∧ c'.reserved = c.reserved ∧ c'.layout = c.layout ∧ c'.ns = c.ns
        ∧ s.SameContexts t (seqId o.desc) ∧ s.Ended t id 0 0 0 ∧ t.cnt = s.cnt)
    ∧ ∀ (s : State) (id : Nat) (o : Op) (i : Inst) (c : Ctx), s.Running id 0 0x0505 o i → s.seqHeld o = false →
      addrField o.desc 24 = 0 → s.ctx (seqId o.desc) = some c →
        let n := field o.desc 32 4
        let free := s.countPages (homeOf (seqId o.desc)) Page.free
        (c.reserved.toNat + free < n → exec (.reserve id) s = .next ((s.bump Evt.seqStatus 1).finish id 0 0 0))
          ∧ (n ≤ c.reserved.toNat + free → ∃ t, exec (.reserve id) s = .next t
            ∧ t.ctx (seqId o.desc) = some { c with reserved := BitVec.ofNat 32 n }
            ∧ ((s.pool (homeOf (seqId o.desc))).low = 0 → s.SameContexts t (seqId o.desc))
            ∧ s.Ended t id 0 0 0 ∧ t.cnt = s.cnt)

/-- APPEND, TRUNCATE and RESERVE. -/
def Obligations.SequencePositions : Prop :=
  Claim.AppendsGrow ∧ Claim.TruncateAndReserve

/-- MATCH takes whole pages from the tree into an empty context: FILL, LENGTH and RETAINED are their positions (R277); a
context that holds positions is BAD_STATE. PUBLISH changes no context (R278). -/
def Obligations.PrefixOperations : Prop :=
  (∀ (s : State) (id : Nat) (o : Op) (i : Inst) (c : Ctx) (y : Layout), s.Running id 0 0x0506 o i → s.seqHeld o = false →
    addrField o.desc 24 = 0 → s.ctx (seqId o.desc) = some c → s.opLayout o c.layout.toNat = some y →
      let n := min (field o.desc 40 6 / y.per) windowPages
      (c.length ≠ 0 → exec (.matchPrefix id) s = .next ((s.bump Evt.seqStatus 1).finish id 0 0 0))
        ∧ ∀ tok d, c.length = 0 →
          s.run (openRead (s.envOf o) ⟨none, o.pin.toNat⟩ (addrField o.desc 32) (ceilDiv (n * (4 * y.per)) 64)) =
            some (.ok tok, d) →
          ∃ t m c', exec (.matchPrefix id) s = .next t ∧ m ≤ n ∧ t.ctx (seqId o.desc) = some c'
            ∧ c'.fill = BitVec.ofNat 48 (m * y.per) ∧ c'.length = c'.fill ∧ c'.retained = c'.fill
            ∧ c'.mapped = BitVec.ofNat 32 m ∧ s.Ended t id 0 0 0 ∧ t.cnt = s.cnt)
    ∧ ∀ (s : State) (id : Nat) (o : Op) (i : Inst) (c : Ctx) (y : Layout), s.Running id 0 0x0507 o i → s.seqHeld o = false →
      addrField o.desc 24 = 0 → s.ctx (seqId o.desc) = some c → s.opLayout o c.layout.toNat = some y →
        exec (.publish id) s = .next ((publishPages c y (c.pages y.per) 0 0 0 s).1.finish id 0 0 0)
          ∧ (publishPages c y (c.pages y.per) 0 0 0 s).1.seq = s.seq
          ∧ (c.fill.toNat < y.per → exec (.publish id) s = .next (s.finish id 0 0 0))

/-- QUERY writes the record of its context and changes no context (R256). ATTEND and ATTEND_GRAD work their batch and end, with
XLATE_FAULT where the batch array does not translate (R299); of the registers they change only the event counters (R280, R286), and with
SCORE the contexts, which may be evicted (R288). A row none of whose pages has a position that it sees has zero output and a log-sum-exp
of minus infinity (R282). -/
def Obligations.QueriesAndAttention : Prop :=
  (∀ (s : State) (id : Nat) (o : Op) (i : Inst) (c : Ctx) (d : Data), s.Running id 0 0x050A o i → s.seqHeld o = false →
    addrField o.desc 24 = 0 → s.ctx (seqId o.desc) = some c →
    s.run (do
        let ws ← putBytes (s.envOf o) ⟨none, o.pin.toNat⟩ (addrField o.desc 32) (ctxRecord (some c))
        writeAll (s.envOf o) ws) = some (.ok (), d) →
      exec (.query id) s = .next (({ s with dp := d }).finish id 0 0 0) ∧ (ctxRecord (some c)).length = 64
        ∧ field (ctxRecord (some c)) 12 6 = c.length.toNat ∧ field (ctxRecord (some c)) 18 6 = c.fill.toNat)
    ∧ (∀ (s : State) (id code : Nat) (cmd : Instr) (o : Op) (i : Inst) (ends : List EntryEnd)
        (fault : Option (XfKind × Nat)) (d : Data),
      (code, cmd) ∈ [(0x0508, Instr.attend id), (0x0509, .attendGrad id)] →
      s.Running id 0 code o i → s.seqHeld o = false →
      s.run (do
          overwriteRegion s (s.envOf o) (operOf o.desc == 9)
          runBatch s o (s.envOf o) ⟨none, o.pin.toNat⟩ (field o.desc 24 4) []) =
        some (.ok (ends, fault), d) →
        ∃ t, exec cmd s = .next t ∧ t.cnt = s.cnt ∧ t.que = s.que
          ∧ (fault = none → s.Ended t id 0 0 0)
          ∧ (∀ f, fault = some f → s.Ended t id 0 Code.xlateFault f.2)
          ∧ (bit (field o.desc 37 1) 1 = false ∨ code = 0x0509 → t.seq = s.seq ∧ (fault = none → t.dp = d))
          ∧ t.seq.pools = s.seq.pools ∧ t.seq.key = s.seq.key)
    ∧ (∀ (s : State) (id code : Nat) (cmd : Instr) (o : Op) (i : Inst),
      (code, cmd) ∈ [(0x0508, Instr.attend id), (0x0509, .attendGrad id)] →
      s.Running id 0 code o i → s.seqHeld o = true → exec cmd s = .next s)
    ∧ (∀ (a : Attn) (h p n : Nat) (q : List FV) (ps : List KvPage), (∀ x ∈ ps, ∀ t, a.visible x p t = false) →
      (attendRow a h p q ps (.start n)).1.out = (List.replicate n .zero, .negInf))

/-- The configuration of pools and keys: PAGE_FREE frees a retiring page whose generation no operation can still read
(R265); a pool register or the prefix key is written only while nothing depends on it, and a refused write counts in
SEQ_CFG_REJECT and changes nothing (R303, R304). -/
def Obligations.PoolConfiguration : Prop :=
  (∀ (s : State) (x p : Nat), x < 16 →
    (p < s.poolPages x ∧ (s.header x p).state = Page.retiring ∧ aheadOf (s.header x p).gen s.minPin.toNat = false →
        exec (.pageFree x p) s = .next (s.setHeader x p { s.header x p with state := Page.free }))
      ∧ (¬ (p < s.poolPages x ∧ (s.header x p).state = Page.retiring ∧ aheadOf (s.header x p).gen s.minPin.toNat = false) →
        exec (.pageFree x p) s = .next s))
    ∧ (∀ (s : State) (x : Nat) (r : PoolReg) (v : Reg), x < 16 →
      (s.poolIdle x = false → exec (.poolConfigWrite x r v) s = .next (s.bump Evt.seqCfgReject 1))
        ∧ (s.poolIdle x = true → ∃ t, exec (.poolConfigWrite x r v) s = .next t ∧ t.pool x = (s.pool x).write r v
          ∧ (∀ z, z ≠ x → t.pool z = s.pool z) ∧ t.seq.ctxs = s.seq.ctxs ∧ t.seq.key = s.seq.key))
    ∧ (∀ (s : State) (high : Bool) (v : Reg),
      ((List.range 16).all s.sliceEmpty = false → exec (.prefixKeyWrite high v) s = .next (s.bump Evt.seqCfgReject 1))
        ∧ ((List.range 16).all s.sliceEmpty = true → ∃ t, exec (.prefixKeyWrite high v) s = .next t
          ∧ t = { s with seq := { s.seq with key := t.seq.key } }
          ∧ (high = false → t.seq.key.setWidth 64 = v ∧ t.seq.key >>> 64 = s.seq.key >>> 64)
          ∧ (high = true → t.seq.key >>> 64 = v.setWidth 128 ∧ t.seq.key.setWidth 64 = s.seq.key.setWidth 64)))
    ∧ ∀ (p : PoolRegs) (v : Reg), (p.write .size v).size.toNat = min (v.toNat % 2 ^ 21) (2 ^ 20)



/-! ### Hawser links (chapter 10) -/

/-- What a port does with a frame before its type counts: a port that is not UP or DRAIN takes none, a frame with a bad FCS
counts in RX_BAD and a foreign one in RX_FOREIGN, and neither changes anything else (R308). -/
def Sys2Proof.Claim.ForeignFrames : Prop :=
  ∀ (s : State) (p : Nat) (f : HwFrame) (c : Instr), p < 16 →
    c ∈ [Instr.rxData p f, .ack p f, .nak p f, .syncReq p f, .syncRsp p f] →
      (s.receives p = false → exec c s = .next s)
        ∧ (s.receives p = true → f.fcsOk = false → exec c s = .next (s.bump Evt.rxBad 1))
        ∧ (s.receives p = true → f.fcsOk = true →
          f.dstMac ≠ s.boot.hwMac + BitVec.ofNat 48 p ∨ f.etherType ≠ 0x88B6 ∨ f.version ≠ 1 ∨ f.dstId ≠ s.hw.moduleId →
          exec c s = .next (s.bump Evt.rxForeign 1))

/-- A frame that its port takes (R308). -/
def Sys2Proof.Machine.State.Takes (s : State) (p : Nat) (f : HwFrame) (type : BitVec 4) : Prop :=
  p < 16 ∧ s.receives p = true ∧ s.frameRefused p f = none ∧ f.type = type

/-- A DATA frame of the path's epoch: the expected one is staged where there is room, else answered NAK BUSY; an old one is
acknowledged again; one beyond a gap is answered NAK SEQ, once; every other is ignored (R318, R319). -/
def Sys2Proof.Claim.DataFrames : Prop :=
  ∀ (s : State) (p : Nat) (f : HwFrame), s.Takes p f Ft.data →
    let i := f.srcId.toNat
    let a := s.acknowledge i p f.ackPsn
    (6 < f.kind.toNat ∨ 126 < f.lines.length ∨ f.epoch ≠ (s.path i p).rxEpoch → exec (.rxData p f) s = .next s.hawserOn)
      ∧ (f.kind.toNat ≤ 6 → f.lines.length ≤ 126 → f.epoch = (s.path i p).rxEpoch →
        (f.psn = (s.path i p).expected → a.hasRoom f = true →
            exec (.rxData p f) s = .next (a.stage i p f).hawserOn
              ∧ ((a.stage i p f).path i p).expected = (s.path i p).expected + 1
              ∧ ((a.stage i p f).path i p).staged = (s.path i p).staged ++ [f])
          ∧ (f.psn = (s.path i p).expected → a.hasRoom f = false →
            exec (.rxData p f) s = .next ((a.sendNak i p 2 (s.path i p).accepted 0 0).bump Evt.rxBusy 1).hawserOn)
          ∧ (psnAfter (s.path i p).expected f.psn = true →
            exec (.rxData p f) s = .next ((a.sendAck i p).bump Evt.rxDup 1).hawserOn)
          ∧ (psnAfter f.psn (s.path i p).expected = true → psnAfter (s.path i p).expected f.psn = false →
            ((s.path i p).nakSent = true → exec (.rxData p f) s = .next a.hawserOn)
              ∧ ((s.path i p).nakSent = false → exec (.rxData p f) s =
                .next ((a.sendNak i p 1 (s.path i p).expected 0 0).updPath i p fun x => { x with nakSent := true }).hawserOn)))

/-- Frames at a port, and DATA frames at a path. -/
def Obligations.HawserReception : Prop :=
  Claim.ForeignFrames ∧ Claim.DataFrames

/-- The oldest frame in staging, when it is placed: an acknowledgement counts it from then on, and every eighth one is
acknowledged at once (R320). A collective frame of another revision of its group counts in REV_MISMATCH and has no other
effect (R329); a PUT frame writes its lines and counts in its message (R325, R326). A collective frame whose group record lies in a domain
that has to wake stays in staging (08 R224). -/
def Sys2Proof.Claim.FramesArePlaced : Prop :=
  (∀ (s : State) (i p : Nat) (f : HwFrame) (c : Instr), i < 4096 → p < 16 →
    (f.kind, c) ∈ [(1, Instr.contribFrame i p), (2, .statsFrame i p), (3, .readyFrame i p), (4, .closeFrame i p),
      (5, .ferryBlock i p), (6, .ferryFree i p)] →
    s.front i p f.kind = some f →
      (s.frameWaits f = true → exec c s = .next s)
        ∧ (s.frameWaits f = false → s.frameGroup f = none →
          exec c s = .next (((s.bump Evt.revMismatch 1).placed i p).hawserOn)))
    ∧ (∀ (s t : State) (i p : Nat) (f : HwFrame), i < 4096 → p < 16 → s.front i p 0 = some f → s.putLines f = some (t, none) →
      exec (.putFrame i p) s = .next (((t.closePut i f false).watchSlip.placed i p).hawserOn))
    ∧ (∀ (s t : State) (i p : Nat) (f : HwFrame) (k : XfKind), i < 4096 → p < 16 → s.front i p 0 = some f →
      s.putLines f = some (t, some k) →
        let u := t.bump Evt.rxReject 1
        let n := u.sendNak i p 3 (u.path i p).accepted f.msgId (BitVec.ofNat 64 k.code)
        exec (.putFrame i p) s = .next (((n.closePut i f true).placed i p).hawserOn))
    ∧ (∀ (s : State) (i p : Nat) (f : HwFrame) (rest : List HwFrame), (s.path i p).staged = f :: rest →
      ((s.placed i p).path i p).staged = rest ∧ ((s.placed i p).path i p).accepted = (s.path i p).accepted + 1
        ∧ (7 ≤ (s.path i p).sinceAck → ((s.placed i p).path i p).sinceAck = 0)
        ∧ ((s.path i p).sinceAck < 7 → (s.placed i p).hw.tx = s.hw.tx))

/-- Collective frames of the group's revision: a contribution goes into the slot of its rank or is discarded and counted once
(R330, R331, R334); READY of a rank that is not lost counts at the leader, CLOSE at a member when it comes from the leader (R332); a ferry
block and a freed buffer go to the ferry whose number they carry, and a free for the next one is kept (R342). -/
def Sys2Proof.Claim.CollectiveFrames : Prop :=
  (∀ (s t : State) (i p : Nat) (f : HwFrame), i < 4096 → p < 16 → s.frameWaits f = false →
    (s.front i p 1 = some f → s.placeContrib i false f = some t → exec (.contribFrame i p) s = .next (t.placed i p).hawserOn)
      ∧ (s.front i p 2 = some f → s.placeContrib i true f = some t → exec (.statsFrame i p) s = .next (t.placed i p).hawserOn)
      ∧ (s.front i p 5 = some f → s.placeBlock i f = some t → exec (.ferryBlock i p) s = .next (t.placed i p).hawserOn))
    ∧ (∀ (s : State) (i : Nat) (stats : Bool) (f : HwFrame) (r : List Byte), s.frameGroup f = some r →
      s.unwanted f.group.toNat r i (f.addr.setWidth 32) = true → s.placeContrib i stats f = some (s.dropContrib i f)
        ∧ (s.dropContrib i f).count Evt.collDropped
          = s.count Evt.collDropped + (if (s.findMsg false i f.msgId).isNone then 1 else 0))
    ∧ ∀ (s : State) (i p : Nat) (f : HwFrame) (r : List Byte), i < 4096 → p < 16 → s.frameWaits f = false →
      s.frameGroup f = some r →
      (∀ k, s.front i p 3 = some f → grRank r i = some k →
          (grOwn r = grLeader r → s.lostRank f.group.toNat r k = false →
            exec (.readyFrame i p) s = .next (((s.addReady f.group.toNat (f.addr.setWidth 32) k).placed i p).hawserOn))
          ∧ (grOwn r ≠ grLeader r ∨ s.lostRank f.group.toNat r k = true →
            exec (.readyFrame i p) s = .next (s.placed i p).hawserOn))
        ∧ (∀ u, s.front i p 4 = some f → grRank r i = some (grLeader r) →
          s.lostBefore f.group.toNat r (f.addr.setWidth 32) (closeOfFrame r f) = some u →
          exec (.closeFrame i p) s = .next ((((u.updGroup f.group.toNat fun x =>
            x.addClose (f.addr.setWidth 32) (closeOfFrame r f)).tryApply f.group.toNat (f.addr.setWidth 32)).placed i p).hawserOn))
        ∧ (bit (closeOfFrame r f).lost (grOwn r) = false →
          s.lostBefore f.group.toNat r (f.addr.setWidth 32) (closeOfFrame r f) = some s)
        ∧ (s.front i p 4 = some f → grRank r i ≠ some (grLeader r) → exec (.closeFrame i p) s = .next (s.placed i p).hawserOn)
        ∧ (s.front i p 6 = some f →
          let g := f.group.toNat
          let n : Word := f.addr.setWidth 32
          let buf := b2n (bit f.addr.toNat 32)
          (∀ y, (s.group g).ferry = some y → n = y.number → exec (.ferryFree i p) s = .next
              (((s.setFerry g { y with grants := y.grants ++ [buf] }).placed i p).hawserOn))
            ∧ ((∀ y, (s.group g).ferry = some y → n ≠ y.number) → n = s.nextFerry g r → exec (.ferryFree i p) s = .next
              (((s.updGroup g fun x => { x with keptFree := x.keptFree ++ [(n, buf)] }).placed i p).hawserOn))
            ∧ ((∀ y, (s.group g).ferry = some y → n ≠ y.number) → n ≠ s.nextFerry g r → exec (.ferryFree i p) s = .next
              (((s.bump Evt.revMismatch 1).placed i p).hawserOn)))

/-- Frames leave staging. -/
def Obligations.HawserPlacement : Prop :=
  Claim.FramesArePlaced ∧ Claim.CollectiveFrames

/-- Acknowledgements release what they cover and nothing beyond what was sent; the acknowledgement timer sends one where
frames wait for it; a NAK SEQ resends after the PSN that it names, a NAK BUSY a while later; a timeout resends or, at the
retry limit, loses the path (R320, R321). On a port that PAUSE or PFC stops, what would be sent is held, and nothing is resent (R313). -/
def Obligations.AcknowledgementsAndResends : Prop :=
  (∀ (s : State) (p : Nat) (f : HwFrame), s.Takes p f Ft.ack → f.epoch = (s.path f.srcId.toNat p).epoch →
      exec (.ack p f) s = .next (s.acknowledge f.srcId.toNat p f.ackPsn).hawserOn)
    ∧ (∀ (s : State) (i p : Nat) (a : BitVec 24), (s.path i p).est = true → psnAfter a ((s.path i p).next - 1) = false →
      ((s.acknowledge i p a).path i p).unacked = (s.path i p).unacked.filter fun f => psnAfter f.psn a)
    ∧ (∀ (s : State) (i p : Nat) (a : BitVec 24), psnAfter a ((s.path i p).next - 1) = true → s.acknowledge i p a = s)
    ∧ (∀ (s : State) (i p : Nat), i < 4096 → p < 16 →
      (0 < (s.path i p).sinceAck → ∃ t, exec (.ackTimer i p) s = .next t ∧ (t.path i p).sinceAck = 0
          ∧ ((s.port p).paused = false → t.hw.tx = (p, s.blank i p Ft.ack 0) :: s.hw.tx)
          ∧ ((s.port p).paused = true → t.hw.tx = s.hw.tx ∧ (t.port p).held = (s.port p).held ++ [s.blank i p Ft.ack 0]))
        ∧ ((s.path i p).sinceAck = 0 → exec (.ackTimer i p) s = .next s))
    ∧ (∀ (s : State) (p : Nat) (f : HwFrame), s.Takes p f Ft.nak → f.epoch = (s.path f.srcId.toNat p).epoch →
      (s.path f.srcId.toNat p).est = true →
        (f.kind = 1 → (s.port p).paused = false →
            exec (.nak p f) s = .next (s.resendAfter f.srcId.toNat p f.ackPsn).hawserOn)
          ∧ (f.kind = 2 ∨ (f.kind = 1 ∧ (s.port p).paused = true) → exec (.nak p f) s =
            .next (s.updPath f.srcId.toNat p fun x => { x with busy := some f.ackPsn }).hawserOn))
    ∧ (∀ (s : State) (i p : Nat) (a : BitVec 24), i < 4096 → p < 16 → (s.path i p).busy = some a →
      ((s.port p).paused = true → exec (.busyResend i p) s = .next s)
        ∧ ((s.port p).paused = false →
          exec (.busyResend i p) s = .next ((s.resendAfter i p a).updPath i p fun x => { x with busy := none })))
    ∧ (∀ (s : State) (i p : Nat) (a : BitVec 24), (s.port p).paused = false → (s.resendAfter i p a).hw.tx =
        (((s.path i p).unacked.filter fun f => psnAfter f.psn a).map
          fun f => (p, { f with ackPsn := (s.path i p).accepted })).reverse ++ s.hw.tx)
    ∧ ∀ (s : State) (i p : Nat), i < 4096 → p < 16 →
      ((s.port p).paused = true → exec (.rtoExpiry i p) s = .next s)
        ∧ ((s.port p).paused = false → (s.path i p).nakSent = false → (s.path i p).est = true →
          (s.path i p).unacked ≠ [] →
            ((s.path i p).timeouts + 1 < s.hw.retry.toNat → exec (.rtoExpiry i p) s =
                .next ((s.resendAll i p).updPath i p fun x => { x with timeouts := x.timeouts + 1 }).hawserOn)
              ∧ (s.hw.retry.toNat ≤ (s.path i p).timeouts + 1 → exec (.rtoExpiry i p) s = .next (s.losePath i p).hawserOn))

/-- SYNC raises the receive epoch of the path that it names and answers with the last PSN; its answer establishes the path of
the port, or settles a lost one (R317, R322, R323). A peer whose first path is not established in time becomes UNREACHABLE,
and PEER_RESET makes it IDLE again. -/
def Obligations.PathsAndPeers : Prop :=
  (∀ (s : State) (p : Nat) (f : HwFrame), s.Takes p f Ft.syncReq → bit f.kind.toNat 0 = false →
    let i := f.srcId.toNat
    let k := bits f.addr.toNat 3 0
    exec (.syncReq p f) s = .next (s.rxSyncReq p f i).hawserOn
      ∧ ((s.rxSyncReq p f i).path i k).rxEpoch = (s.path i k).rxEpoch + 1
      ∧ (k = p → ((s.rxSyncReq p f i).path i k).expected = 0)
      ∧ (k ≠ p → ((s.rxSyncReq p f i).path i k).expected = (s.path i k).expected))
    ∧ (∀ (s : State) (p : Nat) (f : HwFrame), s.Takes p f Ft.syncRsp → (s.peer f.srcId.toNat).st ≠ Peer.unreachable →
      let i := f.srcId.toNat
      let k := bits f.addr.toNat 3 0
      ((s.path i k).lost = true →
          exec (.syncRsp p f) s = .next (s.settleLost i k (BitVec.ofNat 24 (bits f.addr.toNat 31 8))).hawserOn)
        ∧ ((s.path i k).lost = false → k = p → (s.path i k).syncing = true →
          exec (.syncRsp p f) s = .next (s.established i p f.epoch).hawserOn
            ∧ ((s.established i p f.epoch).path i p).est = true
            ∧ ((s.established i p f.epoch).path i p).epoch = f.epoch
            ∧ ((s.established i p f.epoch).path i p).next = 0))
    ∧ ∀ (s : State) (i : Nat), i < 4096 →
      ((s.peer i).st = Peer.idle → (∃ p, p < 16 ∧ (s.path i p).syncing = true) ∨ (s.peer i).queue ≠ [] →
          exec (.firstEstablishmentTimeout i) s = .next (s.losePeer i).hawserOn
            ∧ ((s.losePeer i).peer i).st = Peer.unreachable ∧ ((s.losePeer i).peer i).queue = [])
        ∧ ((s.peer i).st ≠ Peer.idle ∨ ((∀ p, p < 16 → (s.path i p).syncing = false) ∧ (s.peer i).queue = []) →
          exec (.firstEstablishmentTimeout i) s = .next s)
        ∧ ((s.peer i).st = Peer.unreachable → (s.peer i).queue = [] → ∃ t, exec (.peerReset i) s = .next t
          ∧ (t.peer i).st = Peer.idle ∧ t = { s with hw := { s.hw with peers := t.hw.peers } })
        ∧ ((s.peer i).st ≠ Peer.unreachable → exec (.peerReset i) s = .next s)

/-- What a port that goes DOWN leaves: it is DOWN, with no lane, counted in PORT_RETRAIN; its paths are lost; every other port is in the
state it was (R310, R311, R322). -/
def Sys2Proof.Claim.PortsGoDown : Prop :=
  ∀ (s : State) (p : Nat), p < 16 →
    ((s.portDown p).port p).st = .down ∧ ((s.portDown p).port p).lanes = 0 ∧ ((s.portDown p).port p).degraded = false
      ∧ ((s.portDown p).port p).paused = false ∧ ((s.portDown p).port p).enable = (s.port p).enable
      ∧ ((s.portDown p).port p).pending = (s.port p).pending
      ∧ (s.portDown p).count Evt.portRetrain = s.count Evt.portRetrain + 1
      ∧ (∀ i, ((s.portDown p).path i p).est = false)
      ∧ (∀ k, k ≠ p → ((s.portDown p).port k).st = (s.port k).st ∧ ((s.portDown p).port k).enable = (s.port k).enable)

/-- The end of every Hawser event, in which operations go on and waiting frames are placed, changes the state of no port. -/
def Sys2Proof.Claim.HawserEventsKeepPorts : Prop :=
  ∀ (s : State) (p : Nat), (s.hawserOn.port p).st = (s.port p).st ∧ (s.hawserOn.port p).enable = (s.port p).enable
    ∧ (s.hawserOn.port p).pending = (s.port p).pending

/-- The states of a port (R310 to R312): what ENABLE, training, RETRAIN, a link failure, a degraded window and the end of a drain do, in
the states that they speak of and in the others. -/
def Sys2Proof.Claim.PortStates : Prop :=
  ∀ (s : State) (p : Nat), p < 16 →
    (∃ t, exec (.portEnable p) s = .next t ∧ (t.port p).enable = true ∧ (∀ k, k ≠ p → t.port k = s.port k)
        ∧ ((s.port p).st = .off → (t.port p).st = .training) ∧ ((s.port p).st ≠ .off → (t.port p).st = (s.port p).st)
        ∧ ((s.port p).st = .drain → (t.port p).pending = true) ∧ t.hw.peers = s.hw.peers ∧ t.dp = s.dp)
      ∧ (∃ t, exec (.portDisable p) s = .next t ∧ (t.port p).enable = false ∧ (t.port p).pending = false
        ∧ (∀ k, k ≠ p → t.port k = s.port k) ∧ ((s.port p).st = .up → (t.port p).st = .drain)
        ∧ ((s.port p).st = .training ∨ (s.port p).st = .down → (t.port p).st = .off) ∧ t.hw.peers = s.hw.peers ∧ t.dp = s.dp)
      ∧ ((s.port p).st = .training →
        exec (.trainingDone p) s = .next (s.setPort p { s.port p with st := .up, lanes := 0xF }).hawserOn
          ∧ exec (.trainingTimeout p) s = .next ((s.setPort p { s.port p with st := .down, lanes := 0 }).bump Evt.portRetrain 1))
      ∧ ((s.port p).st ≠ .training → exec (.trainingDone p) s = .next s ∧ exec (.trainingTimeout p) s = .next s)
      ∧ ((s.port p).st = .down → exec (.downTimeout p) s = .next (s.train p) ∧ ((s.train p).port p).st = .training)
      ∧ ((s.port p).st ≠ .down → exec (.downTimeout p) s = .next s)
      ∧ ((s.port p).st = .up →
        exec (.retrain p) s = .next (s.portDown p).hawserOn
          ∧ (∀ n, n ≤ 16 → n ≠ 0 → ∃ t, exec (.linkFailure p n) s = .next t
            ∧ t.port p = { s.port p with uncorrectable := (s.port p).uncorrectable + BitVec.ofNat 64 n }
            ∧ t.count Evt.fecUncorr = s.count Evt.fecUncorr + BitVec.ofNat 48 n)
          ∧ (∀ n, n = 0 ∨ 16 < n → exec (.linkFailure p n) s = .next (((s.bump Evt.fecUncorr n).setPort p
            { s.port p with uncorrectable := (s.port p).uncorrectable + BitVec.ofNat 64 n }).portDown p).hawserOn)
          ∧ (∀ c r, exec (.degradedWindow p c r) s = .next (s.setPort p { s.port p with
            corrected := (s.port p).corrected + BitVec.ofNat 64 c, degraded := decide (r < c * 10 ^ 5) })))
      ∧ ((s.port p).st ≠ .up → exec (.retrain p) s = .next s ∧ (∀ n, exec (.linkFailure p n) s = .next s)
        ∧ ∀ c r, exec (.degradedWindow p c r) s = .next s)
      ∧ ((s.port p).st = .drain →
        let u := (s.leave p .off).hawserOn
        let v := u.setPort p { u.port p with pending := false }
        ((s.port p).pending = false → exec (.drainDone p) s = .next v ∧ (v.port p).st = .off)
          ∧ ((s.port p).pending = true → exec (.drainDone p) s = .next (v.portEnable p)
            ∧ ((v.portEnable p).port p).st = .training ∧ ((v.portEnable p).port p).enable = true
            ∧ ((v.portEnable p).port p).pending = false))
      ∧ ((s.port p).st ≠ .drain → exec (.drainDone p) s = .next s)

/-- PAUSE and PFC of the port's priority stop its transmission until their time ends: what it would send is held, and goes out in order
then; PAUSE_NS counts the stop (R313). -/
def Sys2Proof.Claim.FlowControl : Prop :=
  ∀ (s : State) (p ns : Nat), p < 16 →
    (s.receives p = true → ∀ priority, priority = none ∨ priority = some s.hw.pcp →
        (0 < ns → exec (.pause p priority ns) s = .next (s.setPort p { s.port p with paused := true }).hawserOn)
          ∧ exec (.pause p priority 0) s = .next (s.unpause p).hawserOn)
      ∧ (∀ x, x ≠ s.hw.pcp → exec (.pause p (some x) ns) s = .next s)
      ∧ (s.receives p = false → ∀ priority, exec (.pause p priority ns) s = .next s)
      ∧ exec (.pauseTimeExpiry p) s = .next (s.unpause p).hawserOn
      ∧ (∀ i, (s.port p).paused = true → s.takesFrame i p = false)
      ∧ (∀ f, (s.port p).paused = true → (s.emit p f).hw.tx = s.hw.tx ∧ ((s.emit p f).port p).held = (s.port p).held ++ [f])
      ∧ (s.unpause p).hw.tx = ((s.port p).held.map fun f => (p, f)).reverse ++ s.hw.tx
      ∧ (s.unpause p).port p = { s.port p with paused := false, held := [] }
      ∧ s.countTime.count Evt.pauseNs
        = s.count Evt.pauseNs + BitVec.ofNat 48 (s.hw.ports.filter fun x => x.2.paused).length

/-- Ports and flow control. -/
def Obligations.HawserPorts : Prop :=
  Claim.PortStates ∧ Claim.PortsGoDown ∧ Claim.HawserEventsKeepPorts ∧ Claim.FlowControl

/-- The Hawser registers (R347): timing values are at least 1, MODULE_ID and CREDIT change only while every peer, or the
peer, is IDLE, a group's address only while no operation of the group runs; a refused write counts in HW_CFG_REJECT. -/
def Obligations.HawserRegisters : Prop :=
  ∀ (s : State) (v : Reg),
    (∃ t, exec (.hawserConfigWrite 0x100B008 v) s = .next t ∧ t.hw.rto.toNat = max 1 (v.toNat % 2 ^ 16)
        ∧ t.hw.retry.toNat = max 1 (v.toNat / 2 ^ 16 % 2 ^ 8) ∧ t.hw.ferryWait.toNat = max 1 (v.toNat / 2 ^ 24 % 2 ^ 16)
        ∧ t = { s with hw := { s.hw with rto := t.hw.rto, retry := t.hw.retry, ferryWait := t.hw.ferryWait } })
      ∧ (∃ t, exec (.hawserConfigWrite 0x100B000 v) s = .next t ∧ 1 ≤ t.hw.maxLines.toNat ∧ t.hw.maxLines.toNat ≤ 126
        ∧ (s.anyPeer = false → t.hw.moduleId = v.setWidth 12) ∧ (s.anyPeer = true → t.hw.moduleId = s.hw.moduleId)
        ∧ t.hw.peers = s.hw.peers ∧ t.hw.ports = s.hw.ports)
      ∧ (∀ g, g < 16 →
        (s.groupRuns [0x0602, 0x0603, 0x0604] g = true →
            exec (.hawserConfigWrite (0x100B100 + 8 * g) v) s = .next (s.bump Evt.hwCfgReject 1))
          ∧ (s.groupRuns [0x0602, 0x0603, 0x0604] g = false →
            exec (.hawserConfigWrite (0x100B100 + 8 * g) v) s = .next (s.updGroup g fun x => { x with addr := v.setWidth 60 })))
      ∧ ∀ i, i < 4096 → (s.peer i).st ≠ Peer.idle →
        exec (.hawserConfigWrite (0x1010000 + 16 * i) v) s = .next (s.bump Evt.hwCfgReject 1)

/-- The operations of class 0x06 begin: a PUT sends its lines as one message to its peer (R325, R327), an ALLREDUCE its
contribution (R330), or ends with XLATE_FAULT where its group record does not translate (R346); a FERRY reads its batch entry, packs its
block and goes round, and without its neighbours' word ends with COLL_TIMEOUT (R339, R340, R343); REGROUP leaves a group without steps and
contributions, those discarded counted (R334, R338). A PUT to an UNREACHABLE peer ends with PEER_LOST. -/
def Sys2Proof.Claim.HawserOperations : Prop :=
  (∀ (s : State) (id : Nat) (o : Op) (i : Inst), s.Running id 0 0x0601 o i → o.num Lab.sent ≠ 1 →
    ((s.peer (putPeer o.desc)).st = Peer.unreachable →
        exec (.put id) s = .next ((s.countFault o.desc).finish id 0 Code.peerLost 0))
      ∧ (∀ ls d, (s.peer (putPeer o.desc)).st ≠ Peer.unreachable →
        s.run (readLines (s.envOf o) ⟨none, o.pin.toNat⟩ (addrField o.desc 16) (field o.desc 32 4)) = some (.ok ls, d) →
          let m := (({ s with dp := d }).mark id Lab.sent 1).mark id Lab.msg (s.peer (putPeer o.desc)).nextMsg.toNat
          exec (.put id) s = .next (m.message (putPeer o.desc) 0 (fun f => { f with
            addr := BitVec.ofNat 64 (addrField o.desc 24)
            remoteCounter := BitVec.ofNat 16 (field o.desc 38 2)
            remoteIncrement := BitVec.ofNat 16 (field o.desc 40 2) }) [(0, ls)]).1))
    ∧ (∀ (s : State) (id : Nat) (o : Op) (i : Inst) (r : List Byte), s.Running id 0 0x0602 o i → o.num Lab.sent ≠ 1 →
      s.reduceHeld o = false → s.groupRecord (collGroup o.desc) = some r →
        exec (.allreduce id) s = .next (s.contributeStep o r).settleHawser)
    ∧ (∀ (s : State) (id : Nat) (o : Op) (i : Inst), s.Running id 0 0x0602 o i →
      (o.num Lab.sent = 1 → exec (.allreduce id) s = .next s.settleHawser)
        ∧ (∀ f, o.num Lab.sent ≠ 1 → s.reduceHeld o = false → s.readGroup (collGroup o.desc) = .fault f →
          exec (.allreduce id) s = .next (s.hawserXlate o f)))
    ∧ (∀ (s : State) (id : Nat) (o : Op) (i : Inst), s.Running id 0 0x0603 o i → o.num Lab.sent = 1 →
      exec (.ferry id) s = .next s.settleHawser
        ∧ (∀ t, s.ferryFails o Code.collTimeout none = some t → exec (.ferryWaitTimeout id) s = .next t.hawserOn)
        ∧ (s.ferryFails o Code.collTimeout none = none → exec (.ferryWaitTimeout id) s = .next s))
    ∧ (∀ (s : State) (id : Nat) (o : Op) (i : Inst) (r b : List Byte) (poison bad : Bool) (d1 d : Data), s.Running id 0 0x0603 o i →
      o.num Lab.sent ≠ 1 → s.seqHeld o = false → s.groupRecord (collGroup o.desc) = some r →
      s.run (readBytes (s.envOf o) ⟨none, o.pin.toNat⟩ (addrField (o.record Lab.hawser) 16) 128) = some (.ok (b, poison), d1) →
      ({ s with dp := d1 }).run (packBlock s (s.envOf o) ⟨none, o.pin.toNat⟩ o.desc (enId b) (grOwn r)
        (if poison || entryMalformed false b then none
          else s.ferryLocal { o with recs := tput o.recs Lab.entry b } b)) = some (.ok bad, d) →
        exec (.ferry id) s = .next (((({ s with dp := d }).updOp id fun o => { o with recs := tput o.recs Lab.entry b }).mark
          id Lab.sent 1).startFerry { o with recs := tput o.recs Lab.entry b, nums := tput o.nums Lab.sent 1 } r))
    ∧ (∀ (s : State) (o : Op) (r : List Byte), (s.newFerry o r).number = collNumber o.desc
      ∧ (s.newFerry o r).round = 0 ∧ (s.newFerry o r).ready = [0]
      ∧ ∀ k, k ∈ (s.newFerry o r).ring ↔ k < grMembers r ∧ s.lostRank (collGroup o.desc) r k = false)
    ∧ ∀ (s : State) (id : Nat) (o : Op) (i : Inst), s.Running id 0 0x0604 o i →
      (s.groupBusy (collGroup o.desc) = true → exec (.regroup id) s = .next s)
        ∧ (∀ d, s.groupBusy (collGroup o.desc) = false →
          s.run (do
            let e := s.envOf o
            let a : Acc := ⟨none, o.pin.toNat⟩
            let va := (s.group (collGroup o.desc)).addr.toNat
            let src := o.record Lab.hawser
            let last := BitVec.ofNat 32 (field o.desc 32 4) - (1 : Word)
            let w1 ← putBytes e a va (slice src 0 8 ++ natLE 4 last.toNat)
            let w2 ← putBytes e a (va + 16) [0]
            let w3 ← putBytes e a (va + 64) (slice src 64 8192 ++ zeros 1024)
            writeAll e (w1 ++ w2 ++ w3)) = some (.ok (), d) →
          ∃ t, exec (.regroup id) s = .next t ∧ s.Ended t id 0 0 0
            ∧ t.count Evt.collDropped = tget 0 d.evts Evt.collDropped
              + BitVec.ofNat 48 (s.group (collGroup o.desc)).contribs.length
            ∧ t.group (collGroup o.desc) = { Group.reset with addr := (s.group (collGroup o.desc)).addr }
            ∧ ∀ g, g ≠ collGroup o.desc → t.group g = s.group g)

/-- The deadlines of a collective: the leader closes its oldest step that is not closed; a member whose close does not come
ends its ALLREDUCE with COLL_TIMEOUT and stalls its group (R332, R336). A PUT whose frames are acknowledged ends with 0 or,
refused by the peer, with REMOTE_FAULT (R327). -/
def Sys2Proof.Claim.CollectiveDeadlines : Prop :=
  (∀ (s : State) (g : Nat) (r : List Byte) (c : CollStep), g < 16 → s.groupRecord g = some r → grOwn r = grLeader r →
    ((s.group g).steps.find? fun c => c.close.isNone && !((s.group g).closes.any fun x => x.1 == c.step)) = some c →
      exec (.deadlineClose g) s = .next (s.closeStep g r c).hawserOn)
    ∧ (∀ (s : State) (id : Nat) (o : Op) (i : Inst) (r : List Byte) (c : CollStep), s.Running id 0 0x0602 o i →
      s.groupRecord (collGroup o.desc) = some r →
      ((grOwn r = grLeader r → exec (.collTimeout id) s = .next s)
        ∧ (∀ d, grOwn r ≠ grLeader r → (s.group (collGroup o.desc)).step? (collNumber o.desc) = some c → c.close = none →
          c.done = false →
          s.run (M.both (poisonResults s o c (grOwn r)) (groupPut s (collGroup o.desc) 16 [1])) = some (.ok (), d) →
            exec (.collTimeout id) s = .next ((({ s with dp := d }).stepDone (collGroup o.desc)
              (collNumber o.desc)).endHawser o Code.collTimeout 0).hawserOn)))
    ∧ ∀ (s : State) (o : Op), o.num Lab.peerLost ≠ 1 → s.outstanding o [0] = false →
      (o.num Lab.rejected ≠ 1 → s.settlePut o = s.finish o.id 0 0 0)
        ∧ (o.num Lab.rejected = 1 → s.settlePut o = (s.countFault o.desc).finish o.id 0 Code.remoteFault 0)

/-- The operations of class 0x06 and their deadlines. -/
def Obligations.HawserWork : Prop :=
  Claim.HawserOperations ∧ Claim.CollectiveDeadlines



/-! ### The object dictionary (chapter 13) -/

/-- A frame for this module alone reaches the management port, and is no retry. -/
def Sys2Proof.Machine.State.Hears (s : State) (f : MgmtFrame) : Prop :=
  s.mgmtOn = true ∧ f.dst = s.boot.mgmtMac ∧ f.dst ≠ broadcastMac ∧ f.etherType = 0x88B5 ∧ f.tagged = false
    ∧ s.retryOf f = none

/-- The module's dictionary serves writes of a master: its firmware runs and the transaction is new. -/
def Sys2Proof.Machine.State.Serves (s : State) (src : BitVec 48) (tid : BitVec 16) : Prop :=
  s.mgmtOn = true ∧ s.boot.mgmtMac ≠ broadcastMac ∧ 4 < s.boot.stage ∧ ∀ a ∈ s.dic.recent, ¬ (a.src = src ∧ a.tid = tid)

/-- From s to t a request of a master has been answered with a status, as the newest frame out. -/
def Sys2Proof.Machine.State.AnsweredWith (s t : State) (src : BitVec 48) (tid : BitVec 16) (status : Byte) : Prop :=
  t.dic.answered = s.dic.answered + 1
    ∧ ∃ r rest, t.dp.mgmtOut = r :: rest ∧ r.dst = src ∧ r.tid = tid ∧ r.status = status ∧ r.src = s.boot.mgmtMac

/-- What the management port does with a frame: nothing without power; a foreign frame counts in 0x1002:04; a request answered
within the past second gets the same response again (R390, R393). -/
def Sys2Proof.Claim.ManagementFrames : Prop :=
  ∀ (s : State) (f : MgmtFrame) (c : Instr), c ∈ [Instr.readReq f, .writeReq f, .domainSegment f] →
    (s.mgmtOn = false → exec c s = .next s)
      ∧ (s.mgmtOn = true → f.etherType ≠ 0x88B5 ∨ f.tagged = true ∨ (f.dst ≠ s.boot.mgmtMac ∧ f.dst ≠ broadcastMac) →
        exec c s = .next { s with dic := { s.dic with discarded := s.dic.discarded + 1 } })
      ∧ (∀ r, s.mgmtOn = true → f.etherType = 0x88B5 → f.tagged = false → f.dst = s.boot.mgmtMac → f.dst ≠ broadcastMac →
        s.retryOf f = some r → exec c s = .next { s with
          dp := { s.dp with mgmtOut := r :: s.dp.mgmtOut }, dic := { s.dic with answered := s.dic.answered + 1 } })

/-- A read is answered with the entry's value, or with the lowest code that applies; it changes no entry but the counts of
requests. A broadcast read of 0x1000 to 0x10FF is answered later, in its turn (R392, R398, R399). -/
def Sys2Proof.Claim.DictionaryReads : Prop :=
  (∀ (s : State) (f : MgmtFrame), s.Hears f → f.service = 1 → ∃ t, exec (.readReq f) s = .next t
      ∧ t.dp.mgmtOut = s.responseTo f (s.readStatus f) (if s.readStatus f = 0 then s.readData f else []) :: s.dp.mgmtOut
      ∧ t.dic.answered = s.dic.answered + 1 ∧ t.dic.cfg = s.dic.cfg ∧ t.boot = s.boot ∧ t.pwr = s.pwr ∧ t.cnt = s.cnt)
    ∧ (∀ (s : State) (f : MgmtFrame), badHeader f = true → s.readStatus f = 1)
    ∧ (∀ (s : State) (f : MgmtFrame), badHeader f = false → highestSub f.index.toNat = none → s.readStatus f = 2)
    ∧ (∀ (s : State) (f : MgmtFrame) (n : Nat), badHeader f = false → highestSub f.index.toNat = some n → n < f.sub.toNat →
      s.readStatus f = 3)
    ∧ (∀ (s : State) (f : MgmtFrame), s.mgmtOn = true → f.dst = broadcastMac → f.etherType = 0x88B5 → f.tagged = false →
      f.service = 1 → 0x1000 ≤ f.index.toNat → f.index.toNat ≤ 0x10FF → (entryOf f.index.toNat f.sub.toNat).isSome = true →
        exec (.readReq f) s = .next { s with dic := { s.dic with broadcast := s.dic.broadcast ++ [f] } })
    ∧ ∀ (s : State) (f : MgmtFrame) (fs : List MgmtFrame), s.mgmtOn = true → s.dic.broadcast = f :: fs →
      (s.retryOf f = none → exec .broadcastReadRsp s = .next (({ s with dic := { s.dic with broadcast := fs } }).read f))
        ∧ ∀ r, s.retryOf f = some r →
          exec .broadcastReadRsp s = .next (({ s with dic := { s.dic with broadcast := fs } }).resend r)

/-- Frames at the management port, and reads. -/
def Obligations.DictionaryRequests : Prop :=
  Claim.ManagementFrames ∧ Claim.DictionaryReads

/-- A write: of an entry that may be written, with a value in range and nothing in its way, it is applied and answered with
status 0 (R399); the lowest code that applies refuses it, and then no entry changes. The first write of another master
changes the last writer (R403). -/
def Obligations.DictionaryWrites : Prop :=
  (∀ (s : State) (f : MgmtFrame), s.Hears f → f.service = 3 →
    (∀ t a, entryOf f.index.toNat f.sub.toNat = some (t, a) → t ≠ .domain → s.writeStatus f = 0 →
        exec (.writeReq f) s = .next (let t := (s.applyWrite f.index.toNat f.sub.toNat (leNat (f.data.take f.length))).wrote f.src
          t.answer f 0 ((t.dictValue f.index.toNat f.sub.toNat).getD [])))
      ∧ (∀ t a, entryOf f.index.toNat f.sub.toNat = some (t, a) → t ≠ .domain → s.writeStatus f ≠ 0 →
        exec (.writeReq f) s = .next (s.answer f (s.writeStatus f) []))
      ∧ (∀ t, entryOf f.index.toNat f.sub.toNat = some (t, .ro) → badHeader f = false → s.writeStatus f = 4))
    ∧ ∀ (s : State) (src : BitVec 48), src ≠ s.dic.lastWriter →
      (s.wrote src).dic.lastWriter = src ∧ (s.wrote src).dic.writerChanges = s.dic.writerChanges + 1
        ∧ s.wrote s.dic.lastWriter = s

/-- The commands of the dictionary with their magic value 0xA5 and the writes of configuration: STORE begins to write flash, or
waits while the inhibit holds; RESTORE_DEFAULTS returns the configuration; CLEAR_EXTREMES restarts the extremes; LOG_ACK,
PLCA_WRITE and TARGET_WRITE set their entries; ACTIVATE starts the verification (R401, R402, R411; 15 R454). -/
def Sys2Proof.Claim.DictionaryCommands : Prop :=
  ∀ (s : State) (src : BitVec 48) (tid : BitVec 16), s.Serves src tid →
    (s.dic.storeStatus ≠ 1 → s.dic.storeStatus ≠ 2 → ∃ t, exec (.store src tid 0xA5) s = .next t
        ∧ (s.pwr.nvInhibit = false → t.dic.storeStatus = 2 ∧ t.dic.storing = s.dic.cfg)
        ∧ (s.pwr.nvInhibit = true → t.dic.storeStatus = 1) ∧ t.dic.cfg = s.dic.cfg ∧ s.AnsweredWith t src tid 0)
      ∧ (∃ t, exec (.restoreDefaults src tid 0xA5) s = .next t ∧ t.dic.cfg = .default ∧ s.AnsweredWith t src tid 0)
      ∧ (∃ t, exec (.clearExtremes src tid 0xA5) s = .next t ∧ t.dic.meters =
        { s.dic.meters with vMin := s.dic.meters.vIn, vMax := s.dic.meters.vIn, pPeak := s.dic.meters.pIn }
          ∧ s.AnsweredWith t src tid 0)
      ∧ (∀ n : Word, n.toNat ≤ s.dp.logCount.toNat →
        ∃ t, exec (.logAck src tid n) s = .next t ∧ t.dic.cfg.logAck = n ∧ s.AnsweredWith t src tid 0)
      ∧ (∀ (k : BitVec 8) (v : Byte), 1 ≤ k.toNat → k.toNat ≤ 5 → (v ≠ 0 ∨ k = 3 ∨ k = 4) →
        ∃ t, exec (.plcaWrite src tid k v) s = .next t ∧ t.dic.cfg = s.dic.cfg.setPlca k.toNat v ∧ s.AnsweredWith t src tid 0)
      ∧ (∀ v : Byte, v.toNat ≤ 3 → s.dic.fwXfer = none →
        ∃ t, exec (.targetWrite src tid v) s = .next t ∧ t.dic.target = v ∧ s.AnsweredWith t src tid 0)
      ∧ (s.dic.fwStatus = 2 → ∃ t, exec (.activate src tid 0xA5) s = .next t ∧ t.dic.fwStatus = 3
        ∧ t.dic.image = s.dic.image ∧ s.AnsweredWith t src tid 0)
      ∧ (∃ t, exec (.store src tid 0) s = .next t ∧ t.dic.storeStatus = s.dic.storeStatus ∧ s.AnsweredWith t src tid 7)

/-- CAP_WRITE: the caps are clamped to their range when they are stored; CAP_ENABLE 1 during a release waits (13 "Power";
14 R429). -/
def Sys2Proof.Claim.CapWrites : Prop :=
  ∀ (s : State) (src : BitVec 48) (tid : BitVec 16), s.Serves src tid →
    (∀ v : Word, (decode32 v.toNat).isNaN = false → ∃ t, exec (.capWrite src tid 1 v) s = .next t
        ∧ t.dic.cfg.powerCap = clampF v 0x43FA0000 0x451C4000 ∧ s.AnsweredWith t src tid 0)
      ∧ (∀ v : Word, (decode32 v.toNat).isNaN = false → ∃ t, exec (.capWrite src tid 3 v) s = .next t
        ∧ t.dic.cfg = { s.dic.cfg with throttleCap := clampF v 0x43FA0000 0x451C4000 } ∧ s.AnsweredWith t src tid 0)
      ∧ (s.pwr.releasing = false → ∃ t, exec (.capWrite src tid 2 1) s = .next t ∧ t.dic.cfg.capEnable = true
        ∧ s.AnsweredWith t src tid 0)
      ∧ (s.pwr.releasing = true → ∃ t, exec (.capWrite src tid 2 1) s = .next t ∧ t.dic.capPending = true
        ∧ t.dic.cfg = s.dic.cfg ∧ s.AnsweredWith t src tid 0)
      ∧ (∃ t, exec (.capWrite src tid 2 0) s = .next t ∧ t.dic.cfg.capEnable = false ∧ s.AnsweredWith t src tid 0)

/-- The dictionary's commands and configuration writes. -/
def Obligations.DictionaryConfiguration : Prop :=
  Claim.DictionaryCommands ∧ Claim.CapWrites

/-- Transfers of images and repair records: the first segment opens one, each later one adds its data, the last one ends it;
a segment out of sequence, or a second without one, ends it with BAD_SEQ or TIMEOUT and what came is discarded (R400, R405;
15 R448). -/
def Obligations.DomainTransfers : Prop :=
  (∀ (s : State) (f : MgmtFrame) (t : Transfer), s.Hears f → f.service = 3 → badHeader f = false → 4 < s.boot.stage →
    (f.index, f.sub, t) ∈ [((0x7000 : BitVec 16), (1 : BitVec 8), Transfer.firmware), (0x4002, 1, .repair)] →
    (t = .firmware → f.total.toNat ≤ 16773120 + 2828) →
      let data := f.data.take f.length
      (bit f.flags.toNat 0 = true → firstOk f = true → s.dic.verifying t = false →
          (∀ x, s.dic.xfer t = some x → x.src = f.src) →
          exec (.domainSegment f) s = .next (s.segment t ⟨f.src, f.total.toNat, data, s.tide, s.dic.target⟩ f))
        ∧ (s.dic.verifying t = true → bit f.flags.toNat 0 = true ∨ t = .repair →
          exec (.domainSegment f) s = .next (s.answer f Abort.busy []))
        ∧ (∀ x, bit f.flags.toNat 0 = false → (t = .repair → s.dic.verifying t = false) →
          s.dic.xfer t = some x → x.src = f.src → laterOk x f = true →
          exec (.domainSegment f) s = .next (s.segment t { x with data := x.data ++ data, last := s.tide } f))
        ∧ (∀ x, bit f.flags.toNat 0 = false → (t = .repair → s.dic.verifying t = false) →
          s.dic.xfer t = some x → x.src = f.src → laterOk x f = false →
          exec (.domainSegment f) s = .next ((s.endXfer t Abort.badSeq).answer f Abort.badSeq [])))
    ∧ (∀ (s : State) (f : MgmtFrame) (x : DomainXfer), bit f.flags.toNat 1 = false →
      (s.segment .firmware x f).dic.fwXfer = some x ∧ (s.segment .repair x f).dic.repairXfer = some x)
    ∧ (∀ (s : State) (f : MgmtFrame) (x : DomainXfer), bit f.flags.toNat 1 = true →
      (s.segment .firmware x f).dic.image = x.data ∧ (s.segment .firmware x f).dic.fwStatus = 2
        ∧ (s.segment .firmware x f).dic.fwXfer = none
        ∧ (s.segment .repair x f).dic.repairData = some x.data ∧ (s.segment .repair x f).dic.repairXfer = none)
    ∧ ∀ (s : State) (t : Transfer) (x : DomainXfer), s.dic.xfer t = some x →
      exec (.domainTimeout t) s = .next (s.endXfer t Abort.timeout) ∧ (s.endXfer t Abort.timeout).dic.xfer t = none

/-- A verified image goes to the inactive slot and becomes active, at once or when the inhibit ends; a rejected one leaves the
slots as they were (15 R454). A repair record is appended to those stored, or is rejected and logged (15 R448). -/
def Sys2Proof.Claim.Verifications : Prop :=
  (∀ s : State, s.dic.fwStatus = 3 → s.boot.slotDue = false →
    let kind := targetKind s.dic.imageTarget.toNat
    (∀ why, s.boot.rejects kind s.dic.image = some why → ∃ t, exec .verificationDone s = .next t
        ∧ t.dic.fwStatus = 5 ∧ t.boot = s.boot)
      ∧ (s.boot.rejects kind s.dic.image = none → s.pwr.nvInhibit = false → ∃ t, exec .verificationDone s = .next t
        ∧ t.dic.fwStatus = 4 ∧ t.boot.activeSlot kind = 1 - s.boot.activeSlot kind
        ∧ tget [] t.boot.slots (2 * (kind - 1) + (1 - s.boot.activeSlot kind)) = s.dic.image
        ∧ t.boot.counters = s.boot.counters)
      ∧ (s.boot.rejects kind s.dic.image = none → s.pwr.nvInhibit = true →
        exec .verificationDone s = .next { s with boot := { s.boot with slotDue := true } }))
    ∧ ∀ (s : State) (r : List Byte), s.dic.repairData = some r → s.boot.repairDue = false →
      (s.repairRefused r = none → s.pwr.nvInhibit = false → ∃ t, exec .repairRecord s = .next t
          ∧ t.boot.repairs = s.boot.repairs ++ [r] ∧ t.dic.repairPending = s.dic.repairPending + 1
          ∧ t.dic.repairData = none ∧ t.dic.repairStatus = 0)
        ∧ (∀ why, s.repairRefused r = some why → ∃ t, exec .repairRecord s = .next t ∧ t.boot = s.boot
          ∧ t.dic.repairStatus = 12 ∧ t.dic.repairData = none ∧ t.dic.repairPending = s.dic.repairPending)

/-- The flash of the dictionary: a STORE that ends stores what it began with; the energies are saved, or due while the inhibit
holds; when the inhibit ends, what was due is written (R401, R402; 14 R414). -/
def Sys2Proof.Claim.FlashWrites : Prop :=
  (∀ s : State, s.dic.storeStatus = 2 →
    exec (.storeDone true) s = .next { s with dic := { s.dic with storeStatus := 3, stored := s.dic.storing } }
      ∧ exec (.storeDone false) s = .next { s with dic := { s.dic with storeStatus := 4 } })
    ∧ (∀ s : State, s.mgmtOn = true →
      (s.pwr.nvInhibit = true → exec .energySave s = .next { s with dic := { s.dic with energyDue := true } })
        ∧ (s.pwr.nvInhibit = false → exec .energySave s = .next { s with dic := { s.dic with
          eInFlash := s.dic.meters.eIn, eAuxFlash := s.dic.meters.eAux, energyDue := false } }))
    ∧ ∀ s : State,
      (s.pwr.nvInhibit = true → s.pwr.nvHeld = false → ∃ t, exec .nvInhibitClear s = .next t ∧ t.pwr.nvInhibit = false
          ∧ t.dic.energyDue = false ∧ t.dic.relogs = [] ∧ t.dic.flashDue = false ∧ t.boot.slotDue = false ∧ t.boot.repairDue = false
          ∧ (s.dic.storeStatus = 1 → t.dic.storeStatus = 2 ∧ t.dic.storing = s.dic.cfg))
        ∧ (s.pwr.nvInhibit = false ∨ s.pwr.nvHeld = true → exec .nvInhibitClear s = .next s)

/-- Verification of images and records, and the flash. -/
def Obligations.VerificationAndFlash : Prop :=
  Claim.Verifications ∧ Claim.FlashWrites

/-! ### Bytes of frames (chapters 10, 13) -/

/-- A Hawser frame and a dictionary frame as they stand on the wire are read back as they were sent, with every field at every value that
its bytes admit; their headers have 64 and 24 bytes (R314, R315; 13 R391; padding, tag and check sequence as log entry 72 says). -/
def Obligations.FrameBytesReadBack : Prop :=
  (∀ f : HwFrame, f.fcsOk = true → f.lines.length ≤ 126 → (∀ l ∈ f.lines, l.1.length = 64 ∧ l.2.length = 8) →
      (f.vlan = none → f.etherType ≠ 0x8100) → hwFrameOf (hwBytes f) = f ∧ (hwHeader f).length = 64)
    ∧ ∀ f : MgmtFrame, f.length < 2 ^ 16 → (f.service = 1 → f.data = []) → (f.service ≠ 1 → f.data.length = f.length) →
      (f.tagged = false → f.etherType ≠ 0x8100) → mgmtFrameOf (mgmtBytes f) = f ∧ (pduHeader f).length = 24
end

