-- ==== Sys2Proof/Laws/State.lean ====
section
/-!
SUPPORT. The named updates of the state: what each field is afterwards.
-/

namespace Sys2Proof.Machine

/-! `State.bump` -/

@[simp] theorem State.bump_pending (s : State) (off n : Nat) : (s.bump off n).pending = s.pending := rfl
@[simp] theorem State.bump_tide (s : State) (off n : Nat) : (s.bump off n).tide = s.tide := rfl
@[simp] theorem State.bump_dp (s : State) (off n : Nat) :
    (s.bump off n).dp = ({ s with dp := s.dp.bump off n } : State).dp := rfl
@[simp] theorem State.bump_ops (s : State) (off n : Nat) : (s.bump off n).ops = s.ops := rfl
@[simp] theorem State.bump_nextOp (s : State) (off n : Nat) : (s.bump off n).nextOp = s.nextOp := rfl
@[simp] theorem State.bump_que (s : State) (off n : Nat) : (s.bump off n).que = s.que := rfl
@[simp] theorem State.bump_cnt (s : State) (off n : Nat) : (s.bump off n).cnt = s.cnt := rfl
@[simp] theorem State.bump_hst (s : State) (off n : Nat) : (s.bump off n).hst = s.hst := rfl
@[simp] theorem State.bump_pci (s : State) (off n : Nat) : (s.bump off n).pci = s.pci := rfl
@[simp] theorem State.bump_out (s : State) (off n : Nat) : (s.bump off n).out = s.out := rfl
@[simp] theorem State.bump_treble (s : State) (off n : Nat) : (s.bump off n).treble = s.treble := rfl
@[simp] theorem State.bump_bass (s : State) (off n : Nat) : (s.bump off n).bass = s.bass := rfl
@[simp] theorem State.bump_tun (s : State) (off n : Nat) : (s.bump off n).tun = s.tun := rfl
@[simp] theorem State.bump_rng (s : State) (off n : Nat) : (s.bump off n).rng = s.rng := rfl
@[simp] theorem State.bump_stw (s : State) (off n : Nat) : (s.bump off n).stw = s.stw := rfl
@[simp] theorem State.bump_los (s : State) (off n : Nat) : (s.bump off n).los = s.los := rfl
@[simp] theorem State.bump_seq (s : State) (off n : Nat) : (s.bump off n).seq = s.seq := rfl
@[simp] theorem State.bump_hw (s : State) (off n : Nat) : (s.bump off n).hw = s.hw := rfl
@[simp] theorem State.bump_mbx (s : State) (off n : Nat) : (s.bump off n).mbx = s.mbx := rfl
@[simp] theorem State.bump_dic (s : State) (off n : Nat) : (s.bump off n).dic = s.dic := rfl
@[simp] theorem State.bump_pwr (s : State) (off n : Nat) : (s.bump off n).pwr = s.pwr := rfl
@[simp] theorem State.bump_boot (s : State) (off n : Nat) : (s.bump off n).boot = s.boot := rfl

/-! `State.logEvent` -/

@[simp] theorem State.logEvent_pending (s : State) (code src d0 d1 : Nat) : (s.logEvent code src d0 d1).pending = s.pending := rfl
@[simp] theorem State.logEvent_tide (s : State) (code src d0 d1 : Nat) : (s.logEvent code src d0 d1).tide = s.tide := rfl
@[simp] theorem State.logEvent_dp (s : State) (code src d0 d1 : Nat) :
    (s.logEvent code src d0 d1).dp = ({ s with dp := s.dp.logEvent (s.env 0) code src d0 d1 } : State).dp := rfl
@[simp] theorem State.logEvent_ops (s : State) (code src d0 d1 : Nat) : (s.logEvent code src d0 d1).ops = s.ops := rfl
@[simp] theorem State.logEvent_nextOp (s : State) (code src d0 d1 : Nat) : (s.logEvent code src d0 d1).nextOp = s.nextOp := rfl
@[simp] theorem State.logEvent_que (s : State) (code src d0 d1 : Nat) : (s.logEvent code src d0 d1).que = s.que := rfl
@[simp] theorem State.logEvent_cnt (s : State) (code src d0 d1 : Nat) : (s.logEvent code src d0 d1).cnt = s.cnt := rfl
@[simp] theorem State.logEvent_hst (s : State) (code src d0 d1 : Nat) : (s.logEvent code src d0 d1).hst = s.hst := rfl
@[simp] theorem State.logEvent_pci (s : State) (code src d0 d1 : Nat) : (s.logEvent code src d0 d1).pci = s.pci := rfl
@[simp] theorem State.logEvent_out (s : State) (code src d0 d1 : Nat) : (s.logEvent code src d0 d1).out = s.out := rfl
@[simp] theorem State.logEvent_treble (s : State) (code src d0 d1 : Nat) : (s.logEvent code src d0 d1).treble = s.treble := rfl
@[simp] theorem State.logEvent_bass (s : State) (code src d0 d1 : Nat) : (s.logEvent code src d0 d1).bass = s.bass := rfl
@[simp] theorem State.logEvent_tun (s : State) (code src d0 d1 : Nat) : (s.logEvent code src d0 d1).tun = s.tun := rfl
@[simp] theorem State.logEvent_rng (s : State) (code src d0 d1 : Nat) : (s.logEvent code src d0 d1).rng = s.rng := rfl
@[simp] theorem State.logEvent_stw (s : State) (code src d0 d1 : Nat) : (s.logEvent code src d0 d1).stw = s.stw := rfl
@[simp] theorem State.logEvent_los (s : State) (code src d0 d1 : Nat) : (s.logEvent code src d0 d1).los = s.los := rfl
@[simp] theorem State.logEvent_seq (s : State) (code src d0 d1 : Nat) : (s.logEvent code src d0 d1).seq = s.seq := rfl
@[simp] theorem State.logEvent_hw (s : State) (code src d0 d1 : Nat) : (s.logEvent code src d0 d1).hw = s.hw := rfl
@[simp] theorem State.logEvent_mbx (s : State) (code src d0 d1 : Nat) : (s.logEvent code src d0 d1).mbx = s.mbx := rfl
@[simp] theorem State.logEvent_dic (s : State) (code src d0 d1 : Nat) : (s.logEvent code src d0 d1).dic = s.dic := rfl
@[simp] theorem State.logEvent_pwr (s : State) (code src d0 d1 : Nat) : (s.logEvent code src d0 d1).pwr = s.pwr := rfl
@[simp] theorem State.logEvent_boot (s : State) (code src d0 d1 : Nat) : (s.logEvent code src d0 d1).boot = s.boot := rfl

/-! `State.post` -/

@[simp] theorem State.post_pending (s : State) (addr : Nat) (bytes : List Byte) : (s.post addr bytes).pending = s.pending := rfl
@[simp] theorem State.post_tide (s : State) (addr : Nat) (bytes : List Byte) : (s.post addr bytes).tide = s.tide := rfl
@[simp] theorem State.post_dp (s : State) (addr : Nat) (bytes : List Byte) : (s.post addr bytes).dp = s.dp := rfl
@[simp] theorem State.post_ops (s : State) (addr : Nat) (bytes : List Byte) : (s.post addr bytes).ops = s.ops := rfl
@[simp] theorem State.post_nextOp (s : State) (addr : Nat) (bytes : List Byte) : (s.post addr bytes).nextOp = s.nextOp := rfl
@[simp] theorem State.post_que (s : State) (addr : Nat) (bytes : List Byte) : (s.post addr bytes).que = s.que := rfl
@[simp] theorem State.post_cnt (s : State) (addr : Nat) (bytes : List Byte) : (s.post addr bytes).cnt = s.cnt := rfl
@[simp] theorem State.post_hst (s : State) (addr : Nat) (bytes : List Byte) : (s.post addr bytes).hst = s.hst := rfl
@[simp] theorem State.post_pci (s : State) (addr : Nat) (bytes : List Byte) : (s.post addr bytes).pci = s.pci := rfl
@[simp] theorem State.post_out (s : State) (addr : Nat) (bytes : List Byte) :
    (s.post addr bytes).out = ({ s with out := .write addr bytes :: s.out } : State).out := rfl
@[simp] theorem State.post_treble (s : State) (addr : Nat) (bytes : List Byte) : (s.post addr bytes).treble = s.treble := rfl
@[simp] theorem State.post_bass (s : State) (addr : Nat) (bytes : List Byte) : (s.post addr bytes).bass = s.bass := rfl
@[simp] theorem State.post_tun (s : State) (addr : Nat) (bytes : List Byte) : (s.post addr bytes).tun = s.tun := rfl
@[simp] theorem State.post_rng (s : State) (addr : Nat) (bytes : List Byte) : (s.post addr bytes).rng = s.rng := rfl
@[simp] theorem State.post_stw (s : State) (addr : Nat) (bytes : List Byte) : (s.post addr bytes).stw = s.stw := rfl
@[simp] theorem State.post_los (s : State) (addr : Nat) (bytes : List Byte) : (s.post addr bytes).los = s.los := rfl
@[simp] theorem State.post_seq (s : State) (addr : Nat) (bytes : List Byte) : (s.post addr bytes).seq = s.seq := rfl
@[simp] theorem State.post_hw (s : State) (addr : Nat) (bytes : List Byte) : (s.post addr bytes).hw = s.hw := rfl
@[simp] theorem State.post_mbx (s : State) (addr : Nat) (bytes : List Byte) : (s.post addr bytes).mbx = s.mbx := rfl
@[simp] theorem State.post_dic (s : State) (addr : Nat) (bytes : List Byte) : (s.post addr bytes).dic = s.dic := rfl
@[simp] theorem State.post_pwr (s : State) (addr : Nat) (bytes : List Byte) : (s.post addr bytes).pwr = s.pwr := rfl
@[simp] theorem State.post_boot (s : State) (addr : Nat) (bytes : List Byte) : (s.post addr bytes).boot = s.boot := rfl

/-! `State.signal` -/

@[simp] theorem State.signal_pending (s : State) (n inc code : Nat) : (s.signal n inc code).pending = s.pending := rfl
@[simp] theorem State.signal_tide (s : State) (n inc code : Nat) : (s.signal n inc code).tide = s.tide := rfl
@[simp] theorem State.signal_dp (s : State) (n inc code : Nat) : (s.signal n inc code).dp = s.dp := rfl
@[simp] theorem State.signal_ops (s : State) (n inc code : Nat) : (s.signal n inc code).ops = s.ops := rfl
@[simp] theorem State.signal_nextOp (s : State) (n inc code : Nat) : (s.signal n inc code).nextOp = s.nextOp := rfl
@[simp] theorem State.signal_que (s : State) (n inc code : Nat) : (s.signal n inc code).que = s.que := rfl
@[simp] theorem State.signal_cnt (s : State) (n inc code : Nat) :
    (s.signal n inc code).cnt = ({ s with cnt := tupd .reset s.cnt n (·.signal inc code) } : State).cnt := rfl
@[simp] theorem State.signal_hst (s : State) (n inc code : Nat) : (s.signal n inc code).hst = s.hst := rfl
@[simp] theorem State.signal_pci (s : State) (n inc code : Nat) : (s.signal n inc code).pci = s.pci := rfl
@[simp] theorem State.signal_out (s : State) (n inc code : Nat) : (s.signal n inc code).out = s.out := rfl
@[simp] theorem State.signal_treble (s : State) (n inc code : Nat) : (s.signal n inc code).treble = s.treble := rfl
@[simp] theorem State.signal_bass (s : State) (n inc code : Nat) : (s.signal n inc code).bass = s.bass := rfl
@[simp] theorem State.signal_tun (s : State) (n inc code : Nat) : (s.signal n inc code).tun = s.tun := rfl
@[simp] theorem State.signal_rng (s : State) (n inc code : Nat) : (s.signal n inc code).rng = s.rng := rfl
@[simp] theorem State.signal_stw (s : State) (n inc code : Nat) : (s.signal n inc code).stw = s.stw := rfl
@[simp] theorem State.signal_los (s : State) (n inc code : Nat) : (s.signal n inc code).los = s.los := rfl
@[simp] theorem State.signal_seq (s : State) (n inc code : Nat) : (s.signal n inc code).seq = s.seq := rfl
@[simp] theorem State.signal_hw (s : State) (n inc code : Nat) : (s.signal n inc code).hw = s.hw := rfl
@[simp] theorem State.signal_mbx (s : State) (n inc code : Nat) : (s.signal n inc code).mbx = s.mbx := rfl
@[simp] theorem State.signal_dic (s : State) (n inc code : Nat) : (s.signal n inc code).dic = s.dic := rfl
@[simp] theorem State.signal_pwr (s : State) (n inc code : Nat) : (s.signal n inc code).pwr = s.pwr := rfl
@[simp] theorem State.signal_boot (s : State) (n inc code : Nat) : (s.signal n inc code).boot = s.boot := rfl

/-! `State.updQueue` -/

@[simp] theorem State.updQueue_pending (s : State) (q : Nat) (f : Queue → Queue) : (s.updQueue q f).pending = s.pending := rfl
@[simp] theorem State.updQueue_tide (s : State) (q : Nat) (f : Queue → Queue) : (s.updQueue q f).tide = s.tide := rfl
@[simp] theorem State.updQueue_dp (s : State) (q : Nat) (f : Queue → Queue) : (s.updQueue q f).dp = s.dp := rfl
@[simp] theorem State.updQueue_ops (s : State) (q : Nat) (f : Queue → Queue) : (s.updQueue q f).ops = s.ops := rfl
@[simp] theorem State.updQueue_nextOp (s : State) (q : Nat) (f : Queue → Queue) : (s.updQueue q f).nextOp = s.nextOp := rfl
@[simp] theorem State.updQueue_que (s : State) (q : Nat) (f : Queue → Queue) :
    (s.updQueue q f).que = ({ s with que := tupd .reset s.que q f } : State).que := rfl
@[simp] theorem State.updQueue_cnt (s : State) (q : Nat) (f : Queue → Queue) : (s.updQueue q f).cnt = s.cnt := rfl
@[simp] theorem State.updQueue_hst (s : State) (q : Nat) (f : Queue → Queue) : (s.updQueue q f).hst = s.hst := rfl
@[simp] theorem State.updQueue_pci (s : State) (q : Nat) (f : Queue → Queue) : (s.updQueue q f).pci = s.pci := rfl
@[simp] theorem State.updQueue_out (s : State) (q : Nat) (f : Queue → Queue) : (s.updQueue q f).out = s.out := rfl
@[simp] theorem State.updQueue_treble (s : State) (q : Nat) (f : Queue → Queue) : (s.updQueue q f).treble = s.treble := rfl
@[simp] theorem State.updQueue_bass (s : State) (q : Nat) (f : Queue → Queue) : (s.updQueue q f).bass = s.bass := rfl
@[simp] theorem State.updQueue_tun (s : State) (q : Nat) (f : Queue → Queue) : (s.updQueue q f).tun = s.tun := rfl
@[simp] theorem State.updQueue_rng (s : State) (q : Nat) (f : Queue → Queue) : (s.updQueue q f).rng = s.rng := rfl
@[simp] theorem State.updQueue_stw (s : State) (q : Nat) (f : Queue → Queue) : (s.updQueue q f).stw = s.stw := rfl
@[simp] theorem State.updQueue_los (s : State) (q : Nat) (f : Queue → Queue) : (s.updQueue q f).los = s.los := rfl
@[simp] theorem State.updQueue_seq (s : State) (q : Nat) (f : Queue → Queue) : (s.updQueue q f).seq = s.seq := rfl
@[simp] theorem State.updQueue_hw (s : State) (q : Nat) (f : Queue → Queue) : (s.updQueue q f).hw = s.hw := rfl
@[simp] theorem State.updQueue_mbx (s : State) (q : Nat) (f : Queue → Queue) : (s.updQueue q f).mbx = s.mbx := rfl
@[simp] theorem State.updQueue_dic (s : State) (q : Nat) (f : Queue → Queue) : (s.updQueue q f).dic = s.dic := rfl
@[simp] theorem State.updQueue_pwr (s : State) (q : Nat) (f : Queue → Queue) : (s.updQueue q f).pwr = s.pwr := rfl
@[simp] theorem State.updQueue_boot (s : State) (q : Nat) (f : Queue → Queue) : (s.updQueue q f).boot = s.boot := rfl

/-! `State.updOp` -/

@[simp] theorem State.updOp_pending (s : State) (id : Nat) (f : Op → Op) : (s.updOp id f).pending = s.pending := rfl
@[simp] theorem State.updOp_tide (s : State) (id : Nat) (f : Op → Op) : (s.updOp id f).tide = s.tide := rfl
@[simp] theorem State.updOp_dp (s : State) (id : Nat) (f : Op → Op) : (s.updOp id f).dp = s.dp := rfl
@[simp] theorem State.updOp_ops (s : State) (id : Nat) (f : Op → Op) :
    (s.updOp id f).ops = ({ s with ops := s.ops.map fun o => if o.id = id then f o else o } : State).ops := rfl
@[simp] theorem State.updOp_nextOp (s : State) (id : Nat) (f : Op → Op) : (s.updOp id f).nextOp = s.nextOp := rfl
@[simp] theorem State.updOp_que (s : State) (id : Nat) (f : Op → Op) : (s.updOp id f).que = s.que := rfl
@[simp] theorem State.updOp_cnt (s : State) (id : Nat) (f : Op → Op) : (s.updOp id f).cnt = s.cnt := rfl
@[simp] theorem State.updOp_hst (s : State) (id : Nat) (f : Op → Op) : (s.updOp id f).hst = s.hst := rfl
@[simp] theorem State.updOp_pci (s : State) (id : Nat) (f : Op → Op) : (s.updOp id f).pci = s.pci := rfl
@[simp] theorem State.updOp_out (s : State) (id : Nat) (f : Op → Op) : (s.updOp id f).out = s.out := rfl
@[simp] theorem State.updOp_treble (s : State) (id : Nat) (f : Op → Op) : (s.updOp id f).treble = s.treble := rfl
@[simp] theorem State.updOp_bass (s : State) (id : Nat) (f : Op → Op) : (s.updOp id f).bass = s.bass := rfl
@[simp] theorem State.updOp_tun (s : State) (id : Nat) (f : Op → Op) : (s.updOp id f).tun = s.tun := rfl
@[simp] theorem State.updOp_rng (s : State) (id : Nat) (f : Op → Op) : (s.updOp id f).rng = s.rng := rfl
@[simp] theorem State.updOp_stw (s : State) (id : Nat) (f : Op → Op) : (s.updOp id f).stw = s.stw := rfl
@[simp] theorem State.updOp_los (s : State) (id : Nat) (f : Op → Op) : (s.updOp id f).los = s.los := rfl
@[simp] theorem State.updOp_seq (s : State) (id : Nat) (f : Op → Op) : (s.updOp id f).seq = s.seq := rfl
@[simp] theorem State.updOp_hw (s : State) (id : Nat) (f : Op → Op) : (s.updOp id f).hw = s.hw := rfl
@[simp] theorem State.updOp_mbx (s : State) (id : Nat) (f : Op → Op) : (s.updOp id f).mbx = s.mbx := rfl
@[simp] theorem State.updOp_dic (s : State) (id : Nat) (f : Op → Op) : (s.updOp id f).dic = s.dic := rfl
@[simp] theorem State.updOp_pwr (s : State) (id : Nat) (f : Op → Op) : (s.updOp id f).pwr = s.pwr := rfl
@[simp] theorem State.updOp_boot (s : State) (id : Nat) (f : Op → Op) : (s.updOp id f).boot = s.boot := rfl

/-! `State.setPort` -/

@[simp] theorem State.setPort_pending (s : State) (p : Nat) (x : Port) : (s.setPort p x).pending = s.pending := rfl
@[simp] theorem State.setPort_tide (s : State) (p : Nat) (x : Port) : (s.setPort p x).tide = s.tide := rfl
@[simp] theorem State.setPort_dp (s : State) (p : Nat) (x : Port) : (s.setPort p x).dp = s.dp := rfl
@[simp] theorem State.setPort_ops (s : State) (p : Nat) (x : Port) : (s.setPort p x).ops = s.ops := rfl
@[simp] theorem State.setPort_nextOp (s : State) (p : Nat) (x : Port) : (s.setPort p x).nextOp = s.nextOp := rfl
@[simp] theorem State.setPort_que (s : State) (p : Nat) (x : Port) : (s.setPort p x).que = s.que := rfl
@[simp] theorem State.setPort_cnt (s : State) (p : Nat) (x : Port) : (s.setPort p x).cnt = s.cnt := rfl
@[simp] theorem State.setPort_hst (s : State) (p : Nat) (x : Port) : (s.setPort p x).hst = s.hst := rfl
@[simp] theorem State.setPort_pci (s : State) (p : Nat) (x : Port) : (s.setPort p x).pci = s.pci := rfl
@[simp] theorem State.setPort_out (s : State) (p : Nat) (x : Port) : (s.setPort p x).out = s.out := rfl
@[simp] theorem State.setPort_treble (s : State) (p : Nat) (x : Port) : (s.setPort p x).treble = s.treble := rfl
@[simp] theorem State.setPort_bass (s : State) (p : Nat) (x : Port) : (s.setPort p x).bass = s.bass := rfl
@[simp] theorem State.setPort_tun (s : State) (p : Nat) (x : Port) : (s.setPort p x).tun = s.tun := rfl
@[simp] theorem State.setPort_rng (s : State) (p : Nat) (x : Port) : (s.setPort p x).rng = s.rng := rfl
@[simp] theorem State.setPort_stw (s : State) (p : Nat) (x : Port) : (s.setPort p x).stw = s.stw := rfl
@[simp] theorem State.setPort_los (s : State) (p : Nat) (x : Port) : (s.setPort p x).los = s.los := rfl
@[simp] theorem State.setPort_seq (s : State) (p : Nat) (x : Port) : (s.setPort p x).seq = s.seq := rfl
@[simp] theorem State.setPort_hw (s : State) (p : Nat) (x : Port) :
    (s.setPort p x).hw = ({ s with hw := { s.hw with ports := tput s.hw.ports p x } } : State).hw := rfl
@[simp] theorem State.setPort_mbx (s : State) (p : Nat) (x : Port) : (s.setPort p x).mbx = s.mbx := rfl
@[simp] theorem State.setPort_dic (s : State) (p : Nat) (x : Port) : (s.setPort p x).dic = s.dic := rfl
@[simp] theorem State.setPort_pwr (s : State) (p : Nat) (x : Port) : (s.setPort p x).pwr = s.pwr := rfl
@[simp] theorem State.setPort_boot (s : State) (p : Nat) (x : Port) : (s.setPort p x).boot = s.boot := rfl

/-! `State.updPeer` -/

@[simp] theorem State.updPeer_pending (s : State) (i : Nat) (f : Peer → Peer) : (s.updPeer i f).pending = s.pending := rfl
@[simp] theorem State.updPeer_tide (s : State) (i : Nat) (f : Peer → Peer) : (s.updPeer i f).tide = s.tide := rfl
@[simp] theorem State.updPeer_dp (s : State) (i : Nat) (f : Peer → Peer) : (s.updPeer i f).dp = s.dp := rfl
@[simp] theorem State.updPeer_ops (s : State) (i : Nat) (f : Peer → Peer) : (s.updPeer i f).ops = s.ops := rfl
@[simp] theorem State.updPeer_nextOp (s : State) (i : Nat) (f : Peer → Peer) : (s.updPeer i f).nextOp = s.nextOp := rfl
@[simp] theorem State.updPeer_que (s : State) (i : Nat) (f : Peer → Peer) : (s.updPeer i f).que = s.que := rfl
@[simp] theorem State.updPeer_cnt (s : State) (i : Nat) (f : Peer → Peer) : (s.updPeer i f).cnt = s.cnt := rfl
@[simp] theorem State.updPeer_hst (s : State) (i : Nat) (f : Peer → Peer) : (s.updPeer i f).hst = s.hst := rfl
@[simp] theorem State.updPeer_pci (s : State) (i : Nat) (f : Peer → Peer) : (s.updPeer i f).pci = s.pci := rfl
@[simp] theorem State.updPeer_out (s : State) (i : Nat) (f : Peer → Peer) : (s.updPeer i f).out = s.out := rfl
@[simp] theorem State.updPeer_treble (s : State) (i : Nat) (f : Peer → Peer) : (s.updPeer i f).treble = s.treble := rfl
@[simp] theorem State.updPeer_bass (s : State) (i : Nat) (f : Peer → Peer) : (s.updPeer i f).bass = s.bass := rfl
@[simp] theorem State.updPeer_tun (s : State) (i : Nat) (f : Peer → Peer) : (s.updPeer i f).tun = s.tun := rfl
@[simp] theorem State.updPeer_rng (s : State) (i : Nat) (f : Peer → Peer) : (s.updPeer i f).rng = s.rng := rfl
@[simp] theorem State.updPeer_stw (s : State) (i : Nat) (f : Peer → Peer) : (s.updPeer i f).stw = s.stw := rfl
@[simp] theorem State.updPeer_los (s : State) (i : Nat) (f : Peer → Peer) : (s.updPeer i f).los = s.los := rfl
@[simp] theorem State.updPeer_seq (s : State) (i : Nat) (f : Peer → Peer) : (s.updPeer i f).seq = s.seq := rfl
@[simp] theorem State.updPeer_hw (s : State) (i : Nat) (f : Peer → Peer) :
    (s.updPeer i f).hw = ({ s with hw := { s.hw with peers := tupd .reset s.hw.peers i f } } : State).hw := rfl
@[simp] theorem State.updPeer_mbx (s : State) (i : Nat) (f : Peer → Peer) : (s.updPeer i f).mbx = s.mbx := rfl
@[simp] theorem State.updPeer_dic (s : State) (i : Nat) (f : Peer → Peer) : (s.updPeer i f).dic = s.dic := rfl
@[simp] theorem State.updPeer_pwr (s : State) (i : Nat) (f : Peer → Peer) : (s.updPeer i f).pwr = s.pwr := rfl
@[simp] theorem State.updPeer_boot (s : State) (i : Nat) (f : Peer → Peer) : (s.updPeer i f).boot = s.boot := rfl

/-! `State.updPath` -/

@[simp] theorem State.updPath_pending (s : State) (i p : Nat) (f : Path → Path) : (s.updPath i p f).pending = s.pending := rfl
@[simp] theorem State.updPath_tide (s : State) (i p : Nat) (f : Path → Path) : (s.updPath i p f).tide = s.tide := rfl
@[simp] theorem State.updPath_dp (s : State) (i p : Nat) (f : Path → Path) : (s.updPath i p f).dp = s.dp := rfl
@[simp] theorem State.updPath_ops (s : State) (i p : Nat) (f : Path → Path) : (s.updPath i p f).ops = s.ops := rfl
@[simp] theorem State.updPath_nextOp (s : State) (i p : Nat) (f : Path → Path) : (s.updPath i p f).nextOp = s.nextOp := rfl
@[simp] theorem State.updPath_que (s : State) (i p : Nat) (f : Path → Path) : (s.updPath i p f).que = s.que := rfl
@[simp] theorem State.updPath_cnt (s : State) (i p : Nat) (f : Path → Path) : (s.updPath i p f).cnt = s.cnt := rfl
@[simp] theorem State.updPath_hst (s : State) (i p : Nat) (f : Path → Path) : (s.updPath i p f).hst = s.hst := rfl
@[simp] theorem State.updPath_pci (s : State) (i p : Nat) (f : Path → Path) : (s.updPath i p f).pci = s.pci := rfl
@[simp] theorem State.updPath_out (s : State) (i p : Nat) (f : Path → Path) : (s.updPath i p f).out = s.out := rfl
@[simp] theorem State.updPath_treble (s : State) (i p : Nat) (f : Path → Path) : (s.updPath i p f).treble = s.treble := rfl
@[simp] theorem State.updPath_bass (s : State) (i p : Nat) (f : Path → Path) : (s.updPath i p f).bass = s.bass := rfl
@[simp] theorem State.updPath_tun (s : State) (i p : Nat) (f : Path → Path) : (s.updPath i p f).tun = s.tun := rfl
@[simp] theorem State.updPath_rng (s : State) (i p : Nat) (f : Path → Path) : (s.updPath i p f).rng = s.rng := rfl
@[simp] theorem State.updPath_stw (s : State) (i p : Nat) (f : Path → Path) : (s.updPath i p f).stw = s.stw := rfl
@[simp] theorem State.updPath_los (s : State) (i p : Nat) (f : Path → Path) : (s.updPath i p f).los = s.los := rfl
@[simp] theorem State.updPath_seq (s : State) (i p : Nat) (f : Path → Path) : (s.updPath i p f).seq = s.seq := rfl
@[simp] theorem State.updPath_hw (s : State) (i p : Nat) (f : Path → Path) :
    (s.updPath i p f).hw = ({ s with hw := { s.hw with paths := tupd .reset s.hw.paths (16 * i + p) f } } : State).hw := rfl
@[simp] theorem State.updPath_mbx (s : State) (i p : Nat) (f : Path → Path) : (s.updPath i p f).mbx = s.mbx := rfl
@[simp] theorem State.updPath_dic (s : State) (i p : Nat) (f : Path → Path) : (s.updPath i p f).dic = s.dic := rfl
@[simp] theorem State.updPath_pwr (s : State) (i p : Nat) (f : Path → Path) : (s.updPath i p f).pwr = s.pwr := rfl
@[simp] theorem State.updPath_boot (s : State) (i p : Nat) (f : Path → Path) : (s.updPath i p f).boot = s.boot := rfl

/-! `State.updGroup` -/

@[simp] theorem State.updGroup_pending (s : State) (g : Nat) (f : Group → Group) : (s.updGroup g f).pending = s.pending := rfl
@[simp] theorem State.updGroup_tide (s : State) (g : Nat) (f : Group → Group) : (s.updGroup g f).tide = s.tide := rfl
@[simp] theorem State.updGroup_dp (s : State) (g : Nat) (f : Group → Group) : (s.updGroup g f).dp = s.dp := rfl
@[simp] theorem State.updGroup_ops (s : State) (g : Nat) (f : Group → Group) : (s.updGroup g f).ops = s.ops := rfl
@[simp] theorem State.updGroup_nextOp (s : State) (g : Nat) (f : Group → Group) : (s.updGroup g f).nextOp = s.nextOp := rfl
@[simp] theorem State.updGroup_que (s : State) (g : Nat) (f : Group → Group) : (s.updGroup g f).que = s.que := rfl
@[simp] theorem State.updGroup_cnt (s : State) (g : Nat) (f : Group → Group) : (s.updGroup g f).cnt = s.cnt := rfl
@[simp] theorem State.updGroup_hst (s : State) (g : Nat) (f : Group → Group) : (s.updGroup g f).hst = s.hst := rfl
@[simp] theorem State.updGroup_pci (s : State) (g : Nat) (f : Group → Group) : (s.updGroup g f).pci = s.pci := rfl
@[simp] theorem State.updGroup_out (s : State) (g : Nat) (f : Group → Group) : (s.updGroup g f).out = s.out := rfl
@[simp] theorem State.updGroup_treble (s : State) (g : Nat) (f : Group → Group) : (s.updGroup g f).treble = s.treble := rfl
@[simp] theorem State.updGroup_bass (s : State) (g : Nat) (f : Group → Group) : (s.updGroup g f).bass = s.bass := rfl
@[simp] theorem State.updGroup_tun (s : State) (g : Nat) (f : Group → Group) : (s.updGroup g f).tun = s.tun := rfl
@[simp] theorem State.updGroup_rng (s : State) (g : Nat) (f : Group → Group) : (s.updGroup g f).rng = s.rng := rfl
@[simp] theorem State.updGroup_stw (s : State) (g : Nat) (f : Group → Group) : (s.updGroup g f).stw = s.stw := rfl
@[simp] theorem State.updGroup_los (s : State) (g : Nat) (f : Group → Group) : (s.updGroup g f).los = s.los := rfl
@[simp] theorem State.updGroup_seq (s : State) (g : Nat) (f : Group → Group) : (s.updGroup g f).seq = s.seq := rfl
@[simp] theorem State.updGroup_hw (s : State) (g : Nat) (f : Group → Group) :
    (s.updGroup g f).hw = ({ s with hw := { s.hw with groups := tupd .reset s.hw.groups g f } } : State).hw := rfl
@[simp] theorem State.updGroup_mbx (s : State) (g : Nat) (f : Group → Group) : (s.updGroup g f).mbx = s.mbx := rfl
@[simp] theorem State.updGroup_dic (s : State) (g : Nat) (f : Group → Group) : (s.updGroup g f).dic = s.dic := rfl
@[simp] theorem State.updGroup_pwr (s : State) (g : Nat) (f : Group → Group) : (s.updGroup g f).pwr = s.pwr := rfl
@[simp] theorem State.updGroup_boot (s : State) (g : Nat) (f : Group → Group) : (s.updGroup g f).boot = s.boot := rfl

/-! `State.setCtx` -/

@[simp] theorem State.setCtx_pending (s : State) (id : Nat) (c : Ctx) : (s.setCtx id c).pending = s.pending := rfl
@[simp] theorem State.setCtx_tide (s : State) (id : Nat) (c : Ctx) : (s.setCtx id c).tide = s.tide := rfl
@[simp] theorem State.setCtx_dp (s : State) (id : Nat) (c : Ctx) : (s.setCtx id c).dp = s.dp := rfl
@[simp] theorem State.setCtx_ops (s : State) (id : Nat) (c : Ctx) : (s.setCtx id c).ops = s.ops := rfl
@[simp] theorem State.setCtx_nextOp (s : State) (id : Nat) (c : Ctx) : (s.setCtx id c).nextOp = s.nextOp := rfl
@[simp] theorem State.setCtx_que (s : State) (id : Nat) (c : Ctx) : (s.setCtx id c).que = s.que := rfl
@[simp] theorem State.setCtx_cnt (s : State) (id : Nat) (c : Ctx) : (s.setCtx id c).cnt = s.cnt := rfl
@[simp] theorem State.setCtx_hst (s : State) (id : Nat) (c : Ctx) : (s.setCtx id c).hst = s.hst := rfl
@[simp] theorem State.setCtx_pci (s : State) (id : Nat) (c : Ctx) : (s.setCtx id c).pci = s.pci := rfl
@[simp] theorem State.setCtx_out (s : State) (id : Nat) (c : Ctx) : (s.setCtx id c).out = s.out := rfl
@[simp] theorem State.setCtx_treble (s : State) (id : Nat) (c : Ctx) : (s.setCtx id c).treble = s.treble := rfl
@[simp] theorem State.setCtx_bass (s : State) (id : Nat) (c : Ctx) : (s.setCtx id c).bass = s.bass := rfl
@[simp] theorem State.setCtx_tun (s : State) (id : Nat) (c : Ctx) : (s.setCtx id c).tun = s.tun := rfl
@[simp] theorem State.setCtx_rng (s : State) (id : Nat) (c : Ctx) : (s.setCtx id c).rng = s.rng := rfl
@[simp] theorem State.setCtx_stw (s : State) (id : Nat) (c : Ctx) : (s.setCtx id c).stw = s.stw := rfl
@[simp] theorem State.setCtx_los (s : State) (id : Nat) (c : Ctx) : (s.setCtx id c).los = s.los := rfl
@[simp] theorem State.setCtx_seq (s : State) (id : Nat) (c : Ctx) :
    (s.setCtx id c).seq = ({ s with seq := { s.seq with ctxs := tput s.seq.ctxs id c } } : State).seq := rfl
@[simp] theorem State.setCtx_hw (s : State) (id : Nat) (c : Ctx) : (s.setCtx id c).hw = s.hw := rfl
@[simp] theorem State.setCtx_mbx (s : State) (id : Nat) (c : Ctx) : (s.setCtx id c).mbx = s.mbx := rfl
@[simp] theorem State.setCtx_dic (s : State) (id : Nat) (c : Ctx) : (s.setCtx id c).dic = s.dic := rfl
@[simp] theorem State.setCtx_pwr (s : State) (id : Nat) (c : Ctx) : (s.setCtx id c).pwr = s.pwr := rfl
@[simp] theorem State.setCtx_boot (s : State) (id : Nat) (c : Ctx) : (s.setCtx id c).boot = s.boot := rfl

/-! `State.dropCtx` -/

@[simp] theorem State.dropCtx_pending (s : State) (id : Nat) : (s.dropCtx id).pending = s.pending := rfl
@[simp] theorem State.dropCtx_tide (s : State) (id : Nat) : (s.dropCtx id).tide = s.tide := rfl
@[simp] theorem State.dropCtx_dp (s : State) (id : Nat) : (s.dropCtx id).dp = s.dp := rfl
@[simp] theorem State.dropCtx_ops (s : State) (id : Nat) : (s.dropCtx id).ops = s.ops := rfl
@[simp] theorem State.dropCtx_nextOp (s : State) (id : Nat) : (s.dropCtx id).nextOp = s.nextOp := rfl
@[simp] theorem State.dropCtx_que (s : State) (id : Nat) : (s.dropCtx id).que = s.que := rfl
@[simp] theorem State.dropCtx_cnt (s : State) (id : Nat) : (s.dropCtx id).cnt = s.cnt := rfl
@[simp] theorem State.dropCtx_hst (s : State) (id : Nat) : (s.dropCtx id).hst = s.hst := rfl
@[simp] theorem State.dropCtx_pci (s : State) (id : Nat) : (s.dropCtx id).pci = s.pci := rfl
@[simp] theorem State.dropCtx_out (s : State) (id : Nat) : (s.dropCtx id).out = s.out := rfl
@[simp] theorem State.dropCtx_treble (s : State) (id : Nat) : (s.dropCtx id).treble = s.treble := rfl
@[simp] theorem State.dropCtx_bass (s : State) (id : Nat) : (s.dropCtx id).bass = s.bass := rfl
@[simp] theorem State.dropCtx_tun (s : State) (id : Nat) : (s.dropCtx id).tun = s.tun := rfl
@[simp] theorem State.dropCtx_rng (s : State) (id : Nat) : (s.dropCtx id).rng = s.rng := rfl
@[simp] theorem State.dropCtx_stw (s : State) (id : Nat) : (s.dropCtx id).stw = s.stw := rfl
@[simp] theorem State.dropCtx_los (s : State) (id : Nat) : (s.dropCtx id).los = s.los := rfl
@[simp] theorem State.dropCtx_seq (s : State) (id : Nat) :
    (s.dropCtx id).seq = ({ s with seq := { s.seq with ctxs := tdel s.seq.ctxs id } } : State).seq := rfl
@[simp] theorem State.dropCtx_hw (s : State) (id : Nat) : (s.dropCtx id).hw = s.hw := rfl
@[simp] theorem State.dropCtx_mbx (s : State) (id : Nat) : (s.dropCtx id).mbx = s.mbx := rfl
@[simp] theorem State.dropCtx_dic (s : State) (id : Nat) : (s.dropCtx id).dic = s.dic := rfl
@[simp] theorem State.dropCtx_pwr (s : State) (id : Nat) : (s.dropCtx id).pwr = s.pwr := rfl
@[simp] theorem State.dropCtx_boot (s : State) (id : Nat) : (s.dropCtx id).boot = s.boot := rfl

/-! `State.setSlots` -/

@[simp] theorem State.setSlots_pending (s : State) (x p : Nat) (us : List Nat) : (s.setSlots x p us).pending = s.pending := rfl
@[simp] theorem State.setSlots_tide (s : State) (x p : Nat) (us : List Nat) : (s.setSlots x p us).tide = s.tide := rfl
@[simp] theorem State.setSlots_dp (s : State) (x p : Nat) (us : List Nat) : (s.setSlots x p us).dp = s.dp := rfl
@[simp] theorem State.setSlots_ops (s : State) (x p : Nat) (us : List Nat) : (s.setSlots x p us).ops = s.ops := rfl
@[simp] theorem State.setSlots_nextOp (s : State) (x p : Nat) (us : List Nat) : (s.setSlots x p us).nextOp = s.nextOp := rfl
@[simp] theorem State.setSlots_que (s : State) (x p : Nat) (us : List Nat) : (s.setSlots x p us).que = s.que := rfl
@[simp] theorem State.setSlots_cnt (s : State) (x p : Nat) (us : List Nat) : (s.setSlots x p us).cnt = s.cnt := rfl
@[simp] theorem State.setSlots_hst (s : State) (x p : Nat) (us : List Nat) : (s.setSlots x p us).hst = s.hst := rfl
@[simp] theorem State.setSlots_pci (s : State) (x p : Nat) (us : List Nat) : (s.setSlots x p us).pci = s.pci := rfl
@[simp] theorem State.setSlots_out (s : State) (x p : Nat) (us : List Nat) : (s.setSlots x p us).out = s.out := rfl
@[simp] theorem State.setSlots_treble (s : State) (x p : Nat) (us : List Nat) : (s.setSlots x p us).treble = s.treble := rfl
@[simp] theorem State.setSlots_bass (s : State) (x p : Nat) (us : List Nat) : (s.setSlots x p us).bass = s.bass := rfl
@[simp] theorem State.setSlots_tun (s : State) (x p : Nat) (us : List Nat) : (s.setSlots x p us).tun = s.tun := rfl
@[simp] theorem State.setSlots_rng (s : State) (x p : Nat) (us : List Nat) : (s.setSlots x p us).rng = s.rng := rfl
@[simp] theorem State.setSlots_stw (s : State) (x p : Nat) (us : List Nat) : (s.setSlots x p us).stw = s.stw := rfl
@[simp] theorem State.setSlots_los (s : State) (x p : Nat) (us : List Nat) : (s.setSlots x p us).los = s.los := rfl
@[simp] theorem State.setSlots_seq (s : State) (x p : Nat) (us : List Nat) :
    (s.setSlots x p us).seq = ({ s with seq := { s.seq with slotUse := tput s.seq.slotUse (slotKey x p) us } } : State).seq := rfl
@[simp] theorem State.setSlots_hw (s : State) (x p : Nat) (us : List Nat) : (s.setSlots x p us).hw = s.hw := rfl
@[simp] theorem State.setSlots_mbx (s : State) (x p : Nat) (us : List Nat) : (s.setSlots x p us).mbx = s.mbx := rfl
@[simp] theorem State.setSlots_dic (s : State) (x p : Nat) (us : List Nat) : (s.setSlots x p us).dic = s.dic := rfl
@[simp] theorem State.setSlots_pwr (s : State) (x p : Nat) (us : List Nat) : (s.setSlots x p us).pwr = s.pwr := rfl
@[simp] theorem State.setSlots_boot (s : State) (x p : Nat) (us : List Nat) : (s.setSlots x p us).boot = s.boot := rfl

/-! `State.updLane` -/

@[simp] theorem State.updLane_pending (s : State) (l : Nat) (f : Lane → Lane) : (s.updLane l f).pending = s.pending := rfl
@[simp] theorem State.updLane_tide (s : State) (l : Nat) (f : Lane → Lane) : (s.updLane l f).tide = s.tide := rfl
@[simp] theorem State.updLane_dp (s : State) (l : Nat) (f : Lane → Lane) : (s.updLane l f).dp = s.dp := rfl
@[simp] theorem State.updLane_ops (s : State) (l : Nat) (f : Lane → Lane) : (s.updLane l f).ops = s.ops := rfl
@[simp] theorem State.updLane_nextOp (s : State) (l : Nat) (f : Lane → Lane) : (s.updLane l f).nextOp = s.nextOp := rfl
@[simp] theorem State.updLane_que (s : State) (l : Nat) (f : Lane → Lane) : (s.updLane l f).que = s.que := rfl
@[simp] theorem State.updLane_cnt (s : State) (l : Nat) (f : Lane → Lane) : (s.updLane l f).cnt = s.cnt := rfl
@[simp] theorem State.updLane_hst (s : State) (l : Nat) (f : Lane → Lane) : (s.updLane l f).hst = s.hst := rfl
@[simp] theorem State.updLane_pci (s : State) (l : Nat) (f : Lane → Lane) : (s.updLane l f).pci = s.pci := rfl
@[simp] theorem State.updLane_out (s : State) (l : Nat) (f : Lane → Lane) : (s.updLane l f).out = s.out := rfl
@[simp] theorem State.updLane_treble (s : State) (l : Nat) (f : Lane → Lane) : (s.updLane l f).treble = s.treble := rfl
@[simp] theorem State.updLane_bass (s : State) (l : Nat) (f : Lane → Lane) : (s.updLane l f).bass = s.bass := rfl
@[simp] theorem State.updLane_tun (s : State) (l : Nat) (f : Lane → Lane) : (s.updLane l f).tun = s.tun := rfl
@[simp] theorem State.updLane_rng (s : State) (l : Nat) (f : Lane → Lane) : (s.updLane l f).rng = s.rng := rfl
@[simp] theorem State.updLane_stw (s : State) (l : Nat) (f : Lane → Lane) :
    (s.updLane l f).stw = ({ s with stw := { s.stw with lanes := tupd .reset s.stw.lanes l f } } : State).stw := rfl
@[simp] theorem State.updLane_los (s : State) (l : Nat) (f : Lane → Lane) : (s.updLane l f).los = s.los := rfl
@[simp] theorem State.updLane_seq (s : State) (l : Nat) (f : Lane → Lane) : (s.updLane l f).seq = s.seq := rfl
@[simp] theorem State.updLane_hw (s : State) (l : Nat) (f : Lane → Lane) : (s.updLane l f).hw = s.hw := rfl
@[simp] theorem State.updLane_mbx (s : State) (l : Nat) (f : Lane → Lane) : (s.updLane l f).mbx = s.mbx := rfl
@[simp] theorem State.updLane_dic (s : State) (l : Nat) (f : Lane → Lane) : (s.updLane l f).dic = s.dic := rfl
@[simp] theorem State.updLane_pwr (s : State) (l : Nat) (f : Lane → Lane) : (s.updLane l f).pwr = s.pwr := rfl
@[simp] theorem State.updLane_boot (s : State) (l : Nat) (f : Lane → Lane) : (s.updLane l f).boot = s.boot := rfl

/-! `State.updChan` -/

@[simp] theorem State.updChan_pending (s : State) (c : Nat) (f : Chan → Chan) : (s.updChan c f).pending = s.pending := rfl
@[simp] theorem State.updChan_tide (s : State) (c : Nat) (f : Chan → Chan) : (s.updChan c f).tide = s.tide := rfl
@[simp] theorem State.updChan_dp (s : State) (c : Nat) (f : Chan → Chan) : (s.updChan c f).dp = s.dp := rfl
@[simp] theorem State.updChan_ops (s : State) (c : Nat) (f : Chan → Chan) : (s.updChan c f).ops = s.ops := rfl
@[simp] theorem State.updChan_nextOp (s : State) (c : Nat) (f : Chan → Chan) : (s.updChan c f).nextOp = s.nextOp := rfl
@[simp] theorem State.updChan_que (s : State) (c : Nat) (f : Chan → Chan) : (s.updChan c f).que = s.que := rfl
@[simp] theorem State.updChan_cnt (s : State) (c : Nat) (f : Chan → Chan) : (s.updChan c f).cnt = s.cnt := rfl
@[simp] theorem State.updChan_hst (s : State) (c : Nat) (f : Chan → Chan) : (s.updChan c f).hst = s.hst := rfl
@[simp] theorem State.updChan_pci (s : State) (c : Nat) (f : Chan → Chan) : (s.updChan c f).pci = s.pci := rfl
@[simp] theorem State.updChan_out (s : State) (c : Nat) (f : Chan → Chan) : (s.updChan c f).out = s.out := rfl
@[simp] theorem State.updChan_treble (s : State) (c : Nat) (f : Chan → Chan) : (s.updChan c f).treble = s.treble := rfl
@[simp] theorem State.updChan_bass (s : State) (c : Nat) (f : Chan → Chan) : (s.updChan c f).bass = s.bass := rfl
@[simp] theorem State.updChan_tun (s : State) (c : Nat) (f : Chan → Chan) : (s.updChan c f).tun = s.tun := rfl
@[simp] theorem State.updChan_rng (s : State) (c : Nat) (f : Chan → Chan) : (s.updChan c f).rng = s.rng := rfl
@[simp] theorem State.updChan_stw (s : State) (c : Nat) (f : Chan → Chan) : (s.updChan c f).stw = s.stw := rfl
@[simp] theorem State.updChan_los (s : State) (c : Nat) (f : Chan → Chan) : (s.updChan c f).los = s.los := rfl
@[simp] theorem State.updChan_seq (s : State) (c : Nat) (f : Chan → Chan) : (s.updChan c f).seq = s.seq := rfl
@[simp] theorem State.updChan_hw (s : State) (c : Nat) (f : Chan → Chan) : (s.updChan c f).hw = s.hw := rfl
@[simp] theorem State.updChan_mbx (s : State) (c : Nat) (f : Chan → Chan) :
    (s.updChan c f).mbx = ({ s with mbx := { s.mbx with chans := tupd (.reset c) s.mbx.chans c f } } : State).mbx := rfl
@[simp] theorem State.updChan_dic (s : State) (c : Nat) (f : Chan → Chan) : (s.updChan c f).dic = s.dic := rfl
@[simp] theorem State.updChan_pwr (s : State) (c : Nat) (f : Chan → Chan) : (s.updChan c f).pwr = s.pwr := rfl
@[simp] theorem State.updChan_boot (s : State) (c : Nat) (f : Chan → Chan) : (s.updChan c f).boot = s.boot := rfl

/-! `State.deliver` -/

@[simp] theorem State.deliver_pending (s : State) (n : Notice) : (s.deliver n).pending = s.pending := rfl
@[simp] theorem State.deliver_tide (s : State) (n : Notice) : (s.deliver n).tide = s.tide := rfl
@[simp] theorem State.deliver_dp (s : State) (n : Notice) : (s.deliver n).dp = s.dp := rfl
@[simp] theorem State.deliver_ops (s : State) (n : Notice) : (s.deliver n).ops = s.ops := rfl
@[simp] theorem State.deliver_nextOp (s : State) (n : Notice) : (s.deliver n).nextOp = s.nextOp := rfl
@[simp] theorem State.deliver_que (s : State) (n : Notice) : (s.deliver n).que = s.que := rfl
@[simp] theorem State.deliver_cnt (s : State) (n : Notice) : (s.deliver n).cnt = s.cnt := rfl
@[simp] theorem State.deliver_hst (s : State) (n : Notice) : (s.deliver n).hst = s.hst := rfl
@[simp] theorem State.deliver_pci (s : State) (n : Notice) : (s.deliver n).pci = s.pci := rfl
@[simp] theorem State.deliver_out (s : State) (n : Notice) : (s.deliver n).out = s.out := rfl
@[simp] theorem State.deliver_treble (s : State) (n : Notice) : (s.deliver n).treble = s.treble := rfl
@[simp] theorem State.deliver_bass (s : State) (n : Notice) : (s.deliver n).bass = s.bass := rfl
@[simp] theorem State.deliver_tun (s : State) (n : Notice) : (s.deliver n).tun = s.tun := rfl
@[simp] theorem State.deliver_rng (s : State) (n : Notice) : (s.deliver n).rng = s.rng := rfl
@[simp] theorem State.deliver_stw (s : State) (n : Notice) : (s.deliver n).stw = s.stw := rfl
@[simp] theorem State.deliver_los (s : State) (n : Notice) : (s.deliver n).los = s.los := rfl
@[simp] theorem State.deliver_seq (s : State) (n : Notice) : (s.deliver n).seq = s.seq := rfl
@[simp] theorem State.deliver_hw (s : State) (n : Notice) : (s.deliver n).hw = s.hw := rfl
@[simp] theorem State.deliver_mbx (s : State) (n : Notice) :
    (s.deliver n).mbx = ({ s with mbx := { s.mbx with events := n :: s.mbx.events } } : State).mbx := rfl
@[simp] theorem State.deliver_dic (s : State) (n : Notice) : (s.deliver n).dic = s.dic := rfl
@[simp] theorem State.deliver_pwr (s : State) (n : Notice) : (s.deliver n).pwr = s.pwr := rfl
@[simp] theorem State.deliver_boot (s : State) (n : Notice) : (s.deliver n).boot = s.boot := rfl

/-! `State.sendFrame` -/

@[simp] theorem State.sendFrame_pending (s : State) (f : MgmtFrame) : (s.sendFrame f).pending = s.pending := rfl
@[simp] theorem State.sendFrame_tide (s : State) (f : MgmtFrame) : (s.sendFrame f).tide = s.tide := rfl
@[simp] theorem State.sendFrame_dp (s : State) (f : MgmtFrame) :
    (s.sendFrame f).dp = ({ s with dp := { s.dp with mgmtOut := f :: s.dp.mgmtOut } } : State).dp := rfl
@[simp] theorem State.sendFrame_ops (s : State) (f : MgmtFrame) : (s.sendFrame f).ops = s.ops := rfl
@[simp] theorem State.sendFrame_nextOp (s : State) (f : MgmtFrame) : (s.sendFrame f).nextOp = s.nextOp := rfl
@[simp] theorem State.sendFrame_que (s : State) (f : MgmtFrame) : (s.sendFrame f).que = s.que := rfl
@[simp] theorem State.sendFrame_cnt (s : State) (f : MgmtFrame) : (s.sendFrame f).cnt = s.cnt := rfl
@[simp] theorem State.sendFrame_hst (s : State) (f : MgmtFrame) : (s.sendFrame f).hst = s.hst := rfl
@[simp] theorem State.sendFrame_pci (s : State) (f : MgmtFrame) : (s.sendFrame f).pci = s.pci := rfl
@[simp] theorem State.sendFrame_out (s : State) (f : MgmtFrame) : (s.sendFrame f).out = s.out := rfl
@[simp] theorem State.sendFrame_treble (s : State) (f : MgmtFrame) : (s.sendFrame f).treble = s.treble := rfl
@[simp] theorem State.sendFrame_bass (s : State) (f : MgmtFrame) : (s.sendFrame f).bass = s.bass := rfl
@[simp] theorem State.sendFrame_tun (s : State) (f : MgmtFrame) : (s.sendFrame f).tun = s.tun := rfl
@[simp] theorem State.sendFrame_rng (s : State) (f : MgmtFrame) : (s.sendFrame f).rng = s.rng := rfl
@[simp] theorem State.sendFrame_stw (s : State) (f : MgmtFrame) : (s.sendFrame f).stw = s.stw := rfl
@[simp] theorem State.sendFrame_los (s : State) (f : MgmtFrame) : (s.sendFrame f).los = s.los := rfl
@[simp] theorem State.sendFrame_seq (s : State) (f : MgmtFrame) : (s.sendFrame f).seq = s.seq := rfl
@[simp] theorem State.sendFrame_hw (s : State) (f : MgmtFrame) : (s.sendFrame f).hw = s.hw := rfl
@[simp] theorem State.sendFrame_mbx (s : State) (f : MgmtFrame) : (s.sendFrame f).mbx = s.mbx := rfl
@[simp] theorem State.sendFrame_dic (s : State) (f : MgmtFrame) : (s.sendFrame f).dic = s.dic := rfl
@[simp] theorem State.sendFrame_pwr (s : State) (f : MgmtFrame) : (s.sendFrame f).pwr = s.pwr := rfl
@[simp] theorem State.sendFrame_boot (s : State) (f : MgmtFrame) : (s.sendFrame f).boot = s.boot := rfl

/-! `State.discardFrame` -/

@[simp] theorem State.discardFrame_pending (s : State) : (s.discardFrame).pending = s.pending := rfl
@[simp] theorem State.discardFrame_tide (s : State) : (s.discardFrame).tide = s.tide := rfl
@[simp] theorem State.discardFrame_dp (s : State) : (s.discardFrame).dp = s.dp := rfl
@[simp] theorem State.discardFrame_ops (s : State) : (s.discardFrame).ops = s.ops := rfl
@[simp] theorem State.discardFrame_nextOp (s : State) : (s.discardFrame).nextOp = s.nextOp := rfl
@[simp] theorem State.discardFrame_que (s : State) : (s.discardFrame).que = s.que := rfl
@[simp] theorem State.discardFrame_cnt (s : State) : (s.discardFrame).cnt = s.cnt := rfl
@[simp] theorem State.discardFrame_hst (s : State) : (s.discardFrame).hst = s.hst := rfl
@[simp] theorem State.discardFrame_pci (s : State) : (s.discardFrame).pci = s.pci := rfl
@[simp] theorem State.discardFrame_out (s : State) : (s.discardFrame).out = s.out := rfl
@[simp] theorem State.discardFrame_treble (s : State) : (s.discardFrame).treble = s.treble := rfl
@[simp] theorem State.discardFrame_bass (s : State) : (s.discardFrame).bass = s.bass := rfl
@[simp] theorem State.discardFrame_tun (s : State) : (s.discardFrame).tun = s.tun := rfl
@[simp] theorem State.discardFrame_rng (s : State) : (s.discardFrame).rng = s.rng := rfl
@[simp] theorem State.discardFrame_stw (s : State) : (s.discardFrame).stw = s.stw := rfl
@[simp] theorem State.discardFrame_los (s : State) : (s.discardFrame).los = s.los := rfl
@[simp] theorem State.discardFrame_seq (s : State) : (s.discardFrame).seq = s.seq := rfl
@[simp] theorem State.discardFrame_hw (s : State) : (s.discardFrame).hw = s.hw := rfl
@[simp] theorem State.discardFrame_mbx (s : State) : (s.discardFrame).mbx = s.mbx := rfl
@[simp] theorem State.discardFrame_dic (s : State) :
    (s.discardFrame).dic = ({ s with dic := { s.dic with discarded := s.dic.discarded + 1 } } : State).dic := rfl
@[simp] theorem State.discardFrame_pwr (s : State) : (s.discardFrame).pwr = s.pwr := rfl
@[simp] theorem State.discardFrame_boot (s : State) : (s.discardFrame).boot = s.boot := rfl

/-! `State.setCfg` -/

@[simp] theorem State.setCfg_pending (s : State) (f : DicCfg → DicCfg) : (s.setCfg f).pending = s.pending := rfl
@[simp] theorem State.setCfg_tide (s : State) (f : DicCfg → DicCfg) : (s.setCfg f).tide = s.tide := rfl
@[simp] theorem State.setCfg_dp (s : State) (f : DicCfg → DicCfg) : (s.setCfg f).dp = s.dp := rfl
@[simp] theorem State.setCfg_ops (s : State) (f : DicCfg → DicCfg) : (s.setCfg f).ops = s.ops := rfl
@[simp] theorem State.setCfg_nextOp (s : State) (f : DicCfg → DicCfg) : (s.setCfg f).nextOp = s.nextOp := rfl
@[simp] theorem State.setCfg_que (s : State) (f : DicCfg → DicCfg) : (s.setCfg f).que = s.que := rfl
@[simp] theorem State.setCfg_cnt (s : State) (f : DicCfg → DicCfg) : (s.setCfg f).cnt = s.cnt := rfl
@[simp] theorem State.setCfg_hst (s : State) (f : DicCfg → DicCfg) : (s.setCfg f).hst = s.hst := rfl
@[simp] theorem State.setCfg_pci (s : State) (f : DicCfg → DicCfg) : (s.setCfg f).pci = s.pci := rfl
@[simp] theorem State.setCfg_out (s : State) (f : DicCfg → DicCfg) : (s.setCfg f).out = s.out := rfl
@[simp] theorem State.setCfg_treble (s : State) (f : DicCfg → DicCfg) : (s.setCfg f).treble = s.treble := rfl
@[simp] theorem State.setCfg_bass (s : State) (f : DicCfg → DicCfg) : (s.setCfg f).bass = s.bass := rfl
@[simp] theorem State.setCfg_tun (s : State) (f : DicCfg → DicCfg) : (s.setCfg f).tun = s.tun := rfl
@[simp] theorem State.setCfg_rng (s : State) (f : DicCfg → DicCfg) : (s.setCfg f).rng = s.rng := rfl
@[simp] theorem State.setCfg_stw (s : State) (f : DicCfg → DicCfg) : (s.setCfg f).stw = s.stw := rfl
@[simp] theorem State.setCfg_los (s : State) (f : DicCfg → DicCfg) : (s.setCfg f).los = s.los := rfl
@[simp] theorem State.setCfg_seq (s : State) (f : DicCfg → DicCfg) : (s.setCfg f).seq = s.seq := rfl
@[simp] theorem State.setCfg_hw (s : State) (f : DicCfg → DicCfg) : (s.setCfg f).hw = s.hw := rfl
@[simp] theorem State.setCfg_mbx (s : State) (f : DicCfg → DicCfg) : (s.setCfg f).mbx = s.mbx := rfl
@[simp] theorem State.setCfg_dic (s : State) (f : DicCfg → DicCfg) :
    (s.setCfg f).dic = ({ s with dic := { s.dic with cfg := f s.dic.cfg } } : State).dic := rfl
@[simp] theorem State.setCfg_pwr (s : State) (f : DicCfg → DicCfg) : (s.setCfg f).pwr = s.pwr := rfl
@[simp] theorem State.setCfg_boot (s : State) (f : DicCfg → DicCfg) : (s.setCfg f).boot = s.boot := rfl

/-! `State.updDie` -/

@[simp] theorem State.updDie_pending (s : State) (d : Nat) (f : Die → Die) : (s.updDie d f).pending = s.pending := rfl
@[simp] theorem State.updDie_tide (s : State) (d : Nat) (f : Die → Die) : (s.updDie d f).tide = s.tide := rfl
@[simp] theorem State.updDie_dp (s : State) (d : Nat) (f : Die → Die) : (s.updDie d f).dp = s.dp := rfl
@[simp] theorem State.updDie_ops (s : State) (d : Nat) (f : Die → Die) : (s.updDie d f).ops = s.ops := rfl
@[simp] theorem State.updDie_nextOp (s : State) (d : Nat) (f : Die → Die) : (s.updDie d f).nextOp = s.nextOp := rfl
@[simp] theorem State.updDie_que (s : State) (d : Nat) (f : Die → Die) : (s.updDie d f).que = s.que := rfl
@[simp] theorem State.updDie_cnt (s : State) (d : Nat) (f : Die → Die) : (s.updDie d f).cnt = s.cnt := rfl
@[simp] theorem State.updDie_hst (s : State) (d : Nat) (f : Die → Die) : (s.updDie d f).hst = s.hst := rfl
@[simp] theorem State.updDie_pci (s : State) (d : Nat) (f : Die → Die) : (s.updDie d f).pci = s.pci := rfl
@[simp] theorem State.updDie_out (s : State) (d : Nat) (f : Die → Die) : (s.updDie d f).out = s.out := rfl
@[simp] theorem State.updDie_treble (s : State) (d : Nat) (f : Die → Die) : (s.updDie d f).treble = s.treble := rfl
@[simp] theorem State.updDie_bass (s : State) (d : Nat) (f : Die → Die) : (s.updDie d f).bass = s.bass := rfl
@[simp] theorem State.updDie_tun (s : State) (d : Nat) (f : Die → Die) : (s.updDie d f).tun = s.tun := rfl
@[simp] theorem State.updDie_rng (s : State) (d : Nat) (f : Die → Die) : (s.updDie d f).rng = s.rng := rfl
@[simp] theorem State.updDie_stw (s : State) (d : Nat) (f : Die → Die) : (s.updDie d f).stw = s.stw := rfl
@[simp] theorem State.updDie_los (s : State) (d : Nat) (f : Die → Die) : (s.updDie d f).los = s.los := rfl
@[simp] theorem State.updDie_seq (s : State) (d : Nat) (f : Die → Die) : (s.updDie d f).seq = s.seq := rfl
@[simp] theorem State.updDie_hw (s : State) (d : Nat) (f : Die → Die) : (s.updDie d f).hw = s.hw := rfl
@[simp] theorem State.updDie_mbx (s : State) (d : Nat) (f : Die → Die) : (s.updDie d f).mbx = s.mbx := rfl
@[simp] theorem State.updDie_dic (s : State) (d : Nat) (f : Die → Die) : (s.updDie d f).dic = s.dic := rfl
@[simp] theorem State.updDie_pwr (s : State) (d : Nat) (f : Die → Die) :
    (s.updDie d f).pwr = ({ s with pwr := { s.pwr with dies := tupd .reset s.pwr.dies d f } } : State).pwr := rfl
@[simp] theorem State.updDie_boot (s : State) (d : Nat) (f : Die → Die) : (s.updDie d f).boot = s.boot := rfl

/-! `State.updDom` -/

@[simp] theorem State.updDom_pending (s : State) (x : Nat) (f : Domain → Domain) : (s.updDom x f).pending = s.pending := rfl
@[simp] theorem State.updDom_tide (s : State) (x : Nat) (f : Domain → Domain) : (s.updDom x f).tide = s.tide := rfl
@[simp] theorem State.updDom_dp (s : State) (x : Nat) (f : Domain → Domain) : (s.updDom x f).dp = s.dp := rfl
@[simp] theorem State.updDom_ops (s : State) (x : Nat) (f : Domain → Domain) : (s.updDom x f).ops = s.ops := rfl
@[simp] theorem State.updDom_nextOp (s : State) (x : Nat) (f : Domain → Domain) : (s.updDom x f).nextOp = s.nextOp := rfl
@[simp] theorem State.updDom_que (s : State) (x : Nat) (f : Domain → Domain) : (s.updDom x f).que = s.que := rfl
@[simp] theorem State.updDom_cnt (s : State) (x : Nat) (f : Domain → Domain) : (s.updDom x f).cnt = s.cnt := rfl
@[simp] theorem State.updDom_hst (s : State) (x : Nat) (f : Domain → Domain) : (s.updDom x f).hst = s.hst := rfl
@[simp] theorem State.updDom_pci (s : State) (x : Nat) (f : Domain → Domain) : (s.updDom x f).pci = s.pci := rfl
@[simp] theorem State.updDom_out (s : State) (x : Nat) (f : Domain → Domain) : (s.updDom x f).out = s.out := rfl
@[simp] theorem State.updDom_treble (s : State) (x : Nat) (f : Domain → Domain) : (s.updDom x f).treble = s.treble := rfl
@[simp] theorem State.updDom_bass (s : State) (x : Nat) (f : Domain → Domain) : (s.updDom x f).bass = s.bass := rfl
@[simp] theorem State.updDom_tun (s : State) (x : Nat) (f : Domain → Domain) : (s.updDom x f).tun = s.tun := rfl
@[simp] theorem State.updDom_rng (s : State) (x : Nat) (f : Domain → Domain) : (s.updDom x f).rng = s.rng := rfl
@[simp] theorem State.updDom_stw (s : State) (x : Nat) (f : Domain → Domain) : (s.updDom x f).stw = s.stw := rfl
@[simp] theorem State.updDom_los (s : State) (x : Nat) (f : Domain → Domain) : (s.updDom x f).los = s.los := rfl
@[simp] theorem State.updDom_seq (s : State) (x : Nat) (f : Domain → Domain) : (s.updDom x f).seq = s.seq := rfl
@[simp] theorem State.updDom_hw (s : State) (x : Nat) (f : Domain → Domain) : (s.updDom x f).hw = s.hw := rfl
@[simp] theorem State.updDom_mbx (s : State) (x : Nat) (f : Domain → Domain) : (s.updDom x f).mbx = s.mbx := rfl
@[simp] theorem State.updDom_dic (s : State) (x : Nat) (f : Domain → Domain) : (s.updDom x f).dic = s.dic := rfl
@[simp] theorem State.updDom_pwr (s : State) (x : Nat) (f : Domain → Domain) :
    (s.updDom x f).pwr = ({ s with pwr := { s.pwr with doms := tupd .reset s.pwr.doms x f } } : State).pwr := rfl
@[simp] theorem State.updDom_boot (s : State) (x : Nat) (f : Domain → Domain) : (s.updDom x f).boot = s.boot := rfl

/-! `State.runObject` -/

@[simp] theorem State.runObject_pending (s : State) (kind : Nat) (o : List Byte) : (s.runObject kind o).pending = s.pending := rfl
@[simp] theorem State.runObject_tide (s : State) (kind : Nat) (o : List Byte) : (s.runObject kind o).tide = s.tide := rfl
@[simp] theorem State.runObject_dp (s : State) (kind : Nat) (o : List Byte) : (s.runObject kind o).dp = s.dp := rfl
@[simp] theorem State.runObject_ops (s : State) (kind : Nat) (o : List Byte) : (s.runObject kind o).ops = s.ops := rfl
@[simp] theorem State.runObject_nextOp (s : State) (kind : Nat) (o : List Byte) : (s.runObject kind o).nextOp = s.nextOp := rfl
@[simp] theorem State.runObject_que (s : State) (kind : Nat) (o : List Byte) : (s.runObject kind o).que = s.que := rfl
@[simp] theorem State.runObject_cnt (s : State) (kind : Nat) (o : List Byte) : (s.runObject kind o).cnt = s.cnt := rfl
@[simp] theorem State.runObject_hst (s : State) (kind : Nat) (o : List Byte) : (s.runObject kind o).hst = s.hst := rfl
@[simp] theorem State.runObject_pci (s : State) (kind : Nat) (o : List Byte) : (s.runObject kind o).pci = s.pci := rfl
@[simp] theorem State.runObject_out (s : State) (kind : Nat) (o : List Byte) : (s.runObject kind o).out = s.out := rfl
@[simp] theorem State.runObject_treble (s : State) (kind : Nat) (o : List Byte) : (s.runObject kind o).treble = s.treble := rfl
@[simp] theorem State.runObject_bass (s : State) (kind : Nat) (o : List Byte) : (s.runObject kind o).bass = s.bass := rfl
@[simp] theorem State.runObject_tun (s : State) (kind : Nat) (o : List Byte) : (s.runObject kind o).tun = s.tun := rfl
@[simp] theorem State.runObject_rng (s : State) (kind : Nat) (o : List Byte) : (s.runObject kind o).rng = s.rng := rfl
@[simp] theorem State.runObject_stw (s : State) (kind : Nat) (o : List Byte) : (s.runObject kind o).stw = s.stw := rfl
@[simp] theorem State.runObject_los (s : State) (kind : Nat) (o : List Byte) : (s.runObject kind o).los = s.los := rfl
@[simp] theorem State.runObject_seq (s : State) (kind : Nat) (o : List Byte) : (s.runObject kind o).seq = s.seq := rfl
@[simp] theorem State.runObject_hw (s : State) (kind : Nat) (o : List Byte) : (s.runObject kind o).hw = s.hw := rfl
@[simp] theorem State.runObject_mbx (s : State) (kind : Nat) (o : List Byte) : (s.runObject kind o).mbx = s.mbx := rfl
@[simp] theorem State.runObject_dic (s : State) (kind : Nat) (o : List Byte) : (s.runObject kind o).dic = s.dic := rfl
@[simp] theorem State.runObject_pwr (s : State) (kind : Nat) (o : List Byte) : (s.runObject kind o).pwr = s.pwr := rfl
@[simp] theorem State.runObject_boot (s : State) (kind : Nat) (o : List Byte) :
    (s.runObject kind o).boot = ({ s with boot := { s.boot with running := tput s.boot.running kind o } } : State).boot := rfl

/-! `State.toStage` -/

@[simp] theorem State.toStage_pending (s : State) (n : Nat) : (s.toStage n).pending = s.pending := rfl
@[simp] theorem State.toStage_tide (s : State) (n : Nat) : (s.toStage n).tide = s.tide := rfl
@[simp] theorem State.toStage_dp (s : State) (n : Nat) : (s.toStage n).dp = s.dp := rfl
@[simp] theorem State.toStage_ops (s : State) (n : Nat) : (s.toStage n).ops = s.ops := rfl
@[simp] theorem State.toStage_nextOp (s : State) (n : Nat) : (s.toStage n).nextOp = s.nextOp := rfl
@[simp] theorem State.toStage_que (s : State) (n : Nat) : (s.toStage n).que = s.que := rfl
@[simp] theorem State.toStage_cnt (s : State) (n : Nat) : (s.toStage n).cnt = s.cnt := rfl
@[simp] theorem State.toStage_hst (s : State) (n : Nat) : (s.toStage n).hst = s.hst := rfl
@[simp] theorem State.toStage_pci (s : State) (n : Nat) : (s.toStage n).pci = s.pci := rfl
@[simp] theorem State.toStage_out (s : State) (n : Nat) : (s.toStage n).out = s.out := rfl
@[simp] theorem State.toStage_treble (s : State) (n : Nat) : (s.toStage n).treble = s.treble := rfl
@[simp] theorem State.toStage_bass (s : State) (n : Nat) : (s.toStage n).bass = s.bass := rfl
@[simp] theorem State.toStage_tun (s : State) (n : Nat) : (s.toStage n).tun = s.tun := rfl
@[simp] theorem State.toStage_rng (s : State) (n : Nat) : (s.toStage n).rng = s.rng := rfl
@[simp] theorem State.toStage_stw (s : State) (n : Nat) : (s.toStage n).stw = s.stw := rfl
@[simp] theorem State.toStage_los (s : State) (n : Nat) : (s.toStage n).los = s.los := rfl
@[simp] theorem State.toStage_seq (s : State) (n : Nat) : (s.toStage n).seq = s.seq := rfl
@[simp] theorem State.toStage_hw (s : State) (n : Nat) : (s.toStage n).hw = s.hw := rfl
@[simp] theorem State.toStage_mbx (s : State) (n : Nat) : (s.toStage n).mbx = s.mbx := rfl
@[simp] theorem State.toStage_dic (s : State) (n : Nat) : (s.toStage n).dic = s.dic := rfl
@[simp] theorem State.toStage_pwr (s : State) (n : Nat) : (s.toStage n).pwr = s.pwr := rfl
@[simp] theorem State.toStage_boot (s : State) (n : Nat) :
    (s.toStage n).boot = ({ s with boot := { s.boot with stage := n } } : State).boot := rfl

/-! `State.identityStage` -/

@[simp] theorem State.identityStage_pending (s : State) : (s.identityStage).pending = s.pending := rfl
@[simp] theorem State.identityStage_tide (s : State) : (s.identityStage).tide = s.tide := rfl
@[simp] theorem State.identityStage_dp (s : State) : (s.identityStage).dp = s.dp := rfl
@[simp] theorem State.identityStage_ops (s : State) : (s.identityStage).ops = s.ops := rfl
@[simp] theorem State.identityStage_nextOp (s : State) : (s.identityStage).nextOp = s.nextOp := rfl
@[simp] theorem State.identityStage_que (s : State) : (s.identityStage).que = s.que := rfl
@[simp] theorem State.identityStage_cnt (s : State) : (s.identityStage).cnt = s.cnt := rfl
@[simp] theorem State.identityStage_hst (s : State) : (s.identityStage).hst = s.hst := rfl
@[simp] theorem State.identityStage_pci (s : State) : (s.identityStage).pci = s.pci := rfl
@[simp] theorem State.identityStage_out (s : State) : (s.identityStage).out = s.out := rfl
@[simp] theorem State.identityStage_treble (s : State) : (s.identityStage).treble = s.treble := rfl
@[simp] theorem State.identityStage_bass (s : State) : (s.identityStage).bass = s.bass := rfl
@[simp] theorem State.identityStage_tun (s : State) : (s.identityStage).tun = s.tun := rfl
@[simp] theorem State.identityStage_rng (s : State) : (s.identityStage).rng = s.rng := rfl
@[simp] theorem State.identityStage_stw (s : State) : (s.identityStage).stw = s.stw := rfl
@[simp] theorem State.identityStage_los (s : State) : (s.identityStage).los = s.los := rfl
@[simp] theorem State.identityStage_seq (s : State) : (s.identityStage).seq = s.seq := rfl
@[simp] theorem State.identityStage_hw (s : State) : (s.identityStage).hw = s.hw := rfl
@[simp] theorem State.identityStage_mbx (s : State) : (s.identityStage).mbx = s.mbx := rfl
@[simp] theorem State.identityStage_dic (s : State) : (s.identityStage).dic = s.dic := rfl
@[simp] theorem State.identityStage_pwr (s : State) : (s.identityStage).pwr = s.pwr := rfl
@[simp] theorem State.identityStage_boot (s : State) :
    (s.identityStage).boot = ({ s with boot := { s.boot with uds := some Config.uds, deviceKey := deviceKeyOf Config.uds } } : State).boot := rfl

/-! `State.signChain` -/

@[simp] theorem State.signChain_pending (s : State) : (s.signChain).pending = s.pending := rfl
@[simp] theorem State.signChain_tide (s : State) : (s.signChain).tide = s.tide := rfl
@[simp] theorem State.signChain_dp (s : State) : (s.signChain).dp = s.dp := rfl
@[simp] theorem State.signChain_ops (s : State) : (s.signChain).ops = s.ops := rfl
@[simp] theorem State.signChain_nextOp (s : State) : (s.signChain).nextOp = s.nextOp := rfl
@[simp] theorem State.signChain_que (s : State) : (s.signChain).que = s.que := rfl
@[simp] theorem State.signChain_cnt (s : State) : (s.signChain).cnt = s.cnt := rfl
@[simp] theorem State.signChain_hst (s : State) : (s.signChain).hst = s.hst := rfl
@[simp] theorem State.signChain_pci (s : State) : (s.signChain).pci = s.pci := rfl
@[simp] theorem State.signChain_out (s : State) : (s.signChain).out = s.out := rfl
@[simp] theorem State.signChain_treble (s : State) : (s.signChain).treble = s.treble := rfl
@[simp] theorem State.signChain_bass (s : State) : (s.signChain).bass = s.bass := rfl
@[simp] theorem State.signChain_tun (s : State) : (s.signChain).tun = s.tun := rfl
@[simp] theorem State.signChain_rng (s : State) : (s.signChain).rng = s.rng := rfl
@[simp] theorem State.signChain_stw (s : State) : (s.signChain).stw = s.stw := rfl
@[simp] theorem State.signChain_los (s : State) : (s.signChain).los = s.los := rfl
@[simp] theorem State.signChain_seq (s : State) : (s.signChain).seq = s.seq := rfl
@[simp] theorem State.signChain_hw (s : State) : (s.signChain).hw = s.hw := rfl
@[simp] theorem State.signChain_mbx (s : State) : (s.signChain).mbx = s.mbx := rfl
@[simp] theorem State.signChain_dic (s : State) : (s.signChain).dic = s.dic := rfl
@[simp] theorem State.signChain_pwr (s : State) : (s.signChain).pwr = s.pwr := rfl
@[simp] theorem State.signChain_boot (s : State) :
    (s.signChain).boot = ({ s with boot := { s.boot with chain := Config.certificateChain s.boot.deviceKey s.boot.aliasKey s.boot.measurements } } : State).boot := rfl

/-! `State.clearEvt` -/

@[simp] theorem State.clearEvt_pending (s : State) (off : Nat) : (s.clearEvt off).pending = s.pending := rfl
@[simp] theorem State.clearEvt_tide (s : State) (off : Nat) : (s.clearEvt off).tide = s.tide := rfl
@[simp] theorem State.clearEvt_dp (s : State) (off : Nat) :
    (s.clearEvt off).dp = ({ s with dp := { s.dp with evts := tput s.dp.evts off 0 } } : State).dp := rfl
@[simp] theorem State.clearEvt_ops (s : State) (off : Nat) : (s.clearEvt off).ops = s.ops := rfl
@[simp] theorem State.clearEvt_nextOp (s : State) (off : Nat) : (s.clearEvt off).nextOp = s.nextOp := rfl
@[simp] theorem State.clearEvt_que (s : State) (off : Nat) : (s.clearEvt off).que = s.que := rfl
@[simp] theorem State.clearEvt_cnt (s : State) (off : Nat) : (s.clearEvt off).cnt = s.cnt := rfl
@[simp] theorem State.clearEvt_hst (s : State) (off : Nat) : (s.clearEvt off).hst = s.hst := rfl
@[simp] theorem State.clearEvt_pci (s : State) (off : Nat) : (s.clearEvt off).pci = s.pci := rfl
@[simp] theorem State.clearEvt_out (s : State) (off : Nat) : (s.clearEvt off).out = s.out := rfl
@[simp] theorem State.clearEvt_treble (s : State) (off : Nat) : (s.clearEvt off).treble = s.treble := rfl
@[simp] theorem State.clearEvt_bass (s : State) (off : Nat) : (s.clearEvt off).bass = s.bass := rfl
@[simp] theorem State.clearEvt_tun (s : State) (off : Nat) : (s.clearEvt off).tun = s.tun := rfl
@[simp] theorem State.clearEvt_rng (s : State) (off : Nat) : (s.clearEvt off).rng = s.rng := rfl
@[simp] theorem State.clearEvt_stw (s : State) (off : Nat) : (s.clearEvt off).stw = s.stw := rfl
@[simp] theorem State.clearEvt_los (s : State) (off : Nat) : (s.clearEvt off).los = s.los := rfl
@[simp] theorem State.clearEvt_seq (s : State) (off : Nat) : (s.clearEvt off).seq = s.seq := rfl
@[simp] theorem State.clearEvt_hw (s : State) (off : Nat) : (s.clearEvt off).hw = s.hw := rfl
@[simp] theorem State.clearEvt_mbx (s : State) (off : Nat) : (s.clearEvt off).mbx = s.mbx := rfl
@[simp] theorem State.clearEvt_dic (s : State) (off : Nat) : (s.clearEvt off).dic = s.dic := rfl
@[simp] theorem State.clearEvt_pwr (s : State) (off : Nat) : (s.clearEvt off).pwr = s.pwr := rfl
@[simp] theorem State.clearEvt_boot (s : State) (off : Nat) : (s.clearEvt off).boot = s.boot := rfl

/-! `State.faultedClear` -/

@[simp] theorem State.faultedClear_pending (s : State) (n : Nat) : (s.faultedClear n).pending = s.pending := rfl
@[simp] theorem State.faultedClear_tide (s : State) (n : Nat) : (s.faultedClear n).tide = s.tide := rfl
@[simp] theorem State.faultedClear_dp (s : State) (n : Nat) : (s.faultedClear n).dp = s.dp := rfl
@[simp] theorem State.faultedClear_ops (s : State) (n : Nat) : (s.faultedClear n).ops = s.ops := rfl
@[simp] theorem State.faultedClear_nextOp (s : State) (n : Nat) : (s.faultedClear n).nextOp = s.nextOp := rfl
@[simp] theorem State.faultedClear_que (s : State) (n : Nat) : (s.faultedClear n).que = s.que := rfl
@[simp] theorem State.faultedClear_cnt (s : State) (n : Nat) :
    (s.faultedClear n).cnt = ({ s with cnt := tupd .reset s.cnt n fun c => { c with faulted := false, code := 0 } } : State).cnt := rfl
@[simp] theorem State.faultedClear_hst (s : State) (n : Nat) : (s.faultedClear n).hst = s.hst := rfl
@[simp] theorem State.faultedClear_pci (s : State) (n : Nat) : (s.faultedClear n).pci = s.pci := rfl
@[simp] theorem State.faultedClear_out (s : State) (n : Nat) : (s.faultedClear n).out = s.out := rfl
@[simp] theorem State.faultedClear_treble (s : State) (n : Nat) : (s.faultedClear n).treble = s.treble := rfl
@[simp] theorem State.faultedClear_bass (s : State) (n : Nat) : (s.faultedClear n).bass = s.bass := rfl
@[simp] theorem State.faultedClear_tun (s : State) (n : Nat) : (s.faultedClear n).tun = s.tun := rfl
@[simp] theorem State.faultedClear_rng (s : State) (n : Nat) : (s.faultedClear n).rng = s.rng := rfl
@[simp] theorem State.faultedClear_stw (s : State) (n : Nat) : (s.faultedClear n).stw = s.stw := rfl
@[simp] theorem State.faultedClear_los (s : State) (n : Nat) : (s.faultedClear n).los = s.los := rfl
@[simp] theorem State.faultedClear_seq (s : State) (n : Nat) : (s.faultedClear n).seq = s.seq := rfl
@[simp] theorem State.faultedClear_hw (s : State) (n : Nat) : (s.faultedClear n).hw = s.hw := rfl
@[simp] theorem State.faultedClear_mbx (s : State) (n : Nat) : (s.faultedClear n).mbx = s.mbx := rfl
@[simp] theorem State.faultedClear_dic (s : State) (n : Nat) : (s.faultedClear n).dic = s.dic := rfl
@[simp] theorem State.faultedClear_pwr (s : State) (n : Nat) : (s.faultedClear n).pwr = s.pwr := rfl
@[simp] theorem State.faultedClear_boot (s : State) (n : Nat) : (s.faultedClear n).boot = s.boot := rfl

/-! `State.withDoms` -/

@[simp] theorem State.withDoms_pending (s : State) (f : Nat → DomState) : (s.withDoms f).pending = s.pending := rfl
@[simp] theorem State.withDoms_tide (s : State) (f : Nat → DomState) : (s.withDoms f).tide = s.tide := rfl
@[simp] theorem State.withDoms_dp (s : State) (f : Nat → DomState) : (s.withDoms f).dp = s.dp := rfl
@[simp] theorem State.withDoms_ops (s : State) (f : Nat → DomState) : (s.withDoms f).ops = s.ops := rfl
@[simp] theorem State.withDoms_nextOp (s : State) (f : Nat → DomState) : (s.withDoms f).nextOp = s.nextOp := rfl
@[simp] theorem State.withDoms_que (s : State) (f : Nat → DomState) : (s.withDoms f).que = s.que := rfl
@[simp] theorem State.withDoms_cnt (s : State) (f : Nat → DomState) : (s.withDoms f).cnt = s.cnt := rfl
@[simp] theorem State.withDoms_hst (s : State) (f : Nat → DomState) : (s.withDoms f).hst = s.hst := rfl
@[simp] theorem State.withDoms_pci (s : State) (f : Nat → DomState) : (s.withDoms f).pci = s.pci := rfl
@[simp] theorem State.withDoms_out (s : State) (f : Nat → DomState) : (s.withDoms f).out = s.out := rfl
@[simp] theorem State.withDoms_treble (s : State) (f : Nat → DomState) : (s.withDoms f).treble = s.treble := rfl
@[simp] theorem State.withDoms_bass (s : State) (f : Nat → DomState) : (s.withDoms f).bass = s.bass := rfl
@[simp] theorem State.withDoms_tun (s : State) (f : Nat → DomState) : (s.withDoms f).tun = s.tun := rfl
@[simp] theorem State.withDoms_rng (s : State) (f : Nat → DomState) : (s.withDoms f).rng = s.rng := rfl
@[simp] theorem State.withDoms_stw (s : State) (f : Nat → DomState) : (s.withDoms f).stw = s.stw := rfl
@[simp] theorem State.withDoms_los (s : State) (f : Nat → DomState) : (s.withDoms f).los = s.los := rfl
@[simp] theorem State.withDoms_seq (s : State) (f : Nat → DomState) : (s.withDoms f).seq = s.seq := rfl
@[simp] theorem State.withDoms_hw (s : State) (f : Nat → DomState) : (s.withDoms f).hw = s.hw := rfl
@[simp] theorem State.withDoms_mbx (s : State) (f : Nat → DomState) : (s.withDoms f).mbx = s.mbx := rfl
@[simp] theorem State.withDoms_dic (s : State) (f : Nat → DomState) : (s.withDoms f).dic = s.dic := rfl
@[simp] theorem State.withDoms_pwr (s : State) (f : Nat → DomState) :
    (s.withDoms f).pwr = ({ s with pwr := { s.pwr with doms := (List.range 32).map fun y => (y, { s.domain y with st := f y }) } } : State).pwr := rfl
@[simp] theorem State.withDoms_boot (s : State) (f : Nat → DomState) : (s.withDoms f).boot = s.boot := rfl

/-! `State.hold` -/

@[simp] theorem State.hold_pending (s : State) (a : HostAccess) : (s.hold a).pending = s.pending := rfl
@[simp] theorem State.hold_tide (s : State) (a : HostAccess) : (s.hold a).tide = s.tide := rfl
@[simp] theorem State.hold_dp (s : State) (a : HostAccess) : (s.hold a).dp = s.dp := rfl
@[simp] theorem State.hold_ops (s : State) (a : HostAccess) : (s.hold a).ops = s.ops := rfl
@[simp] theorem State.hold_nextOp (s : State) (a : HostAccess) : (s.hold a).nextOp = s.nextOp := rfl
@[simp] theorem State.hold_que (s : State) (a : HostAccess) : (s.hold a).que = s.que := rfl
@[simp] theorem State.hold_cnt (s : State) (a : HostAccess) : (s.hold a).cnt = s.cnt := rfl
@[simp] theorem State.hold_hst (s : State) (a : HostAccess) : (s.hold a).hst = s.hst := rfl
@[simp] theorem State.hold_pci (s : State) (a : HostAccess) :
    (s.hold a).pci = ({ s with pci := { s.pci with held := s.pci.held ++ [a] } } : State).pci := rfl
@[simp] theorem State.hold_out (s : State) (a : HostAccess) : (s.hold a).out = s.out := rfl
@[simp] theorem State.hold_treble (s : State) (a : HostAccess) : (s.hold a).treble = s.treble := rfl
@[simp] theorem State.hold_bass (s : State) (a : HostAccess) : (s.hold a).bass = s.bass := rfl
@[simp] theorem State.hold_tun (s : State) (a : HostAccess) : (s.hold a).tun = s.tun := rfl
@[simp] theorem State.hold_rng (s : State) (a : HostAccess) : (s.hold a).rng = s.rng := rfl
@[simp] theorem State.hold_stw (s : State) (a : HostAccess) : (s.hold a).stw = s.stw := rfl
@[simp] theorem State.hold_los (s : State) (a : HostAccess) : (s.hold a).los = s.los := rfl
@[simp] theorem State.hold_seq (s : State) (a : HostAccess) : (s.hold a).seq = s.seq := rfl
@[simp] theorem State.hold_hw (s : State) (a : HostAccess) : (s.hold a).hw = s.hw := rfl
@[simp] theorem State.hold_mbx (s : State) (a : HostAccess) : (s.hold a).mbx = s.mbx := rfl
@[simp] theorem State.hold_dic (s : State) (a : HostAccess) : (s.hold a).dic = s.dic := rfl
@[simp] theorem State.hold_pwr (s : State) (a : HostAccess) : (s.hold a).pwr = s.pwr := rfl
@[simp] theorem State.hold_boot (s : State) (a : HostAccess) : (s.hold a).boot = s.boot := rfl
/-! `State.emit` -/

@[simp] theorem State.emit_pending (s : State) (p : Nat) (f : HwFrame) : (s.emit p f).pending = s.pending := by
  unfold State.emit; dsimp only; split <;> rfl
@[simp] theorem State.emit_tide (s : State) (p : Nat) (f : HwFrame) : (s.emit p f).tide = s.tide := by
  unfold State.emit; dsimp only; split <;> rfl
@[simp] theorem State.emit_dp (s : State) (p : Nat) (f : HwFrame) : (s.emit p f).dp = s.dp := by
  unfold State.emit; dsimp only; split <;> rfl
@[simp] theorem State.emit_ops (s : State) (p : Nat) (f : HwFrame) : (s.emit p f).ops = s.ops := by
  unfold State.emit; dsimp only; split <;> rfl
@[simp] theorem State.emit_nextOp (s : State) (p : Nat) (f : HwFrame) : (s.emit p f).nextOp = s.nextOp := by
  unfold State.emit; dsimp only; split <;> rfl
@[simp] theorem State.emit_que (s : State) (p : Nat) (f : HwFrame) : (s.emit p f).que = s.que := by
  unfold State.emit; dsimp only; split <;> rfl
@[simp] theorem State.emit_cnt (s : State) (p : Nat) (f : HwFrame) : (s.emit p f).cnt = s.cnt := by
  unfold State.emit; dsimp only; split <;> rfl
@[simp] theorem State.emit_hst (s : State) (p : Nat) (f : HwFrame) : (s.emit p f).hst = s.hst := by
  unfold State.emit; dsimp only; split <;> rfl
@[simp] theorem State.emit_pci (s : State) (p : Nat) (f : HwFrame) : (s.emit p f).pci = s.pci := by
  unfold State.emit; dsimp only; split <;> rfl
@[simp] theorem State.emit_out (s : State) (p : Nat) (f : HwFrame) : (s.emit p f).out = s.out := by
  unfold State.emit; dsimp only; split <;> rfl
@[simp] theorem State.emit_treble (s : State) (p : Nat) (f : HwFrame) : (s.emit p f).treble = s.treble := by
  unfold State.emit; dsimp only; split <;> rfl
@[simp] theorem State.emit_bass (s : State) (p : Nat) (f : HwFrame) : (s.emit p f).bass = s.bass := by
  unfold State.emit; dsimp only; split <;> rfl
@[simp] theorem State.emit_tun (s : State) (p : Nat) (f : HwFrame) : (s.emit p f).tun = s.tun := by
  unfold State.emit; dsimp only; split <;> rfl
@[simp] theorem State.emit_rng (s : State) (p : Nat) (f : HwFrame) : (s.emit p f).rng = s.rng := by
  unfold State.emit; dsimp only; split <;> rfl
@[simp] theorem State.emit_stw (s : State) (p : Nat) (f : HwFrame) : (s.emit p f).stw = s.stw := by
  unfold State.emit; dsimp only; split <;> rfl
@[simp] theorem State.emit_los (s : State) (p : Nat) (f : HwFrame) : (s.emit p f).los = s.los := by
  unfold State.emit; dsimp only; split <;> rfl
@[simp] theorem State.emit_seq (s : State) (p : Nat) (f : HwFrame) : (s.emit p f).seq = s.seq := by
  unfold State.emit; dsimp only; split <;> rfl
@[simp] theorem State.emit_hw (s : State) (p : Nat) (f : HwFrame) :
    (s.emit p f).hw = if (s.port p).paused then (s.setPort p { s.port p with held := (s.port p).held ++ [f] }).hw
      else { s.hw with tx := (p, f) :: s.hw.tx } := by unfold State.emit; dsimp only; split <;> rfl
@[simp] theorem State.emit_mbx (s : State) (p : Nat) (f : HwFrame) : (s.emit p f).mbx = s.mbx := by
  unfold State.emit; dsimp only; split <;> rfl
@[simp] theorem State.emit_dic (s : State) (p : Nat) (f : HwFrame) : (s.emit p f).dic = s.dic := by
  unfold State.emit; dsimp only; split <;> rfl
@[simp] theorem State.emit_pwr (s : State) (p : Nat) (f : HwFrame) : (s.emit p f).pwr = s.pwr := by
  unfold State.emit; dsimp only; split <;> rfl
@[simp] theorem State.emit_boot (s : State) (p : Nat) (f : HwFrame) : (s.emit p f).boot = s.boot := by
  unfold State.emit; dsimp only; split <;> rfl

/-! `State.dieWrite` -/

@[simp] theorem State.dieWrite_pending (s : State) (x : Nat) (bs : List Byte) : (s.dieWrite x bs).pending = s.pending := by
  unfold State.dieWrite; split <;> rfl
@[simp] theorem State.dieWrite_tide (s : State) (x : Nat) (bs : List Byte) : (s.dieWrite x bs).tide = s.tide := by
  unfold State.dieWrite; split <;> rfl
@[simp] theorem State.dieWrite_ops (s : State) (x : Nat) (bs : List Byte) : (s.dieWrite x bs).ops = s.ops := by
  unfold State.dieWrite; split <;> rfl
@[simp] theorem State.dieWrite_nextOp (s : State) (x : Nat) (bs : List Byte) : (s.dieWrite x bs).nextOp = s.nextOp := by
  unfold State.dieWrite; split <;> rfl
@[simp] theorem State.dieWrite_que (s : State) (x : Nat) (bs : List Byte) : (s.dieWrite x bs).que = s.que := by
  unfold State.dieWrite; split <;> rfl
@[simp] theorem State.dieWrite_cnt (s : State) (x : Nat) (bs : List Byte) : (s.dieWrite x bs).cnt = s.cnt := by
  unfold State.dieWrite; split <;> rfl
@[simp] theorem State.dieWrite_hst (s : State) (x : Nat) (bs : List Byte) : (s.dieWrite x bs).hst = s.hst := by
  unfold State.dieWrite; split <;> rfl
@[simp] theorem State.dieWrite_pci (s : State) (x : Nat) (bs : List Byte) : (s.dieWrite x bs).pci = s.pci := by
  unfold State.dieWrite; split <;> rfl
@[simp] theorem State.dieWrite_out (s : State) (x : Nat) (bs : List Byte) : (s.dieWrite x bs).out = s.out := by
  unfold State.dieWrite; split <;> rfl
@[simp] theorem State.dieWrite_treble (s : State) (x : Nat) (bs : List Byte) : (s.dieWrite x bs).treble = s.treble := by
  unfold State.dieWrite; split <;> rfl
@[simp] theorem State.dieWrite_bass (s : State) (x : Nat) (bs : List Byte) : (s.dieWrite x bs).bass = s.bass := by
  unfold State.dieWrite; split <;> rfl
@[simp] theorem State.dieWrite_tun (s : State) (x : Nat) (bs : List Byte) : (s.dieWrite x bs).tun = s.tun := by
  unfold State.dieWrite; split <;> rfl
@[simp] theorem State.dieWrite_rng (s : State) (x : Nat) (bs : List Byte) : (s.dieWrite x bs).rng = s.rng := by
  unfold State.dieWrite; split <;> rfl
@[simp] theorem State.dieWrite_stw (s : State) (x : Nat) (bs : List Byte) : (s.dieWrite x bs).stw = s.stw := by
  unfold State.dieWrite; split <;> rfl
@[simp] theorem State.dieWrite_los (s : State) (x : Nat) (bs : List Byte) : (s.dieWrite x bs).los = s.los := by
  unfold State.dieWrite; split <;> rfl
@[simp] theorem State.dieWrite_seq (s : State) (x : Nat) (bs : List Byte) : (s.dieWrite x bs).seq = s.seq := by
  unfold State.dieWrite; split <;> rfl
@[simp] theorem State.dieWrite_hw (s : State) (x : Nat) (bs : List Byte) : (s.dieWrite x bs).hw = s.hw := by
  unfold State.dieWrite; split <;> rfl
@[simp] theorem State.dieWrite_mbx (s : State) (x : Nat) (bs : List Byte) : (s.dieWrite x bs).mbx = s.mbx := by
  unfold State.dieWrite; split <;> rfl
@[simp] theorem State.dieWrite_dic (s : State) (x : Nat) (bs : List Byte) : (s.dieWrite x bs).dic = s.dic := by
  unfold State.dieWrite; split <;> rfl
@[simp] theorem State.dieWrite_pwr (s : State) (x : Nat) (bs : List Byte) : (s.dieWrite x bs).pwr = s.pwr := by
  unfold State.dieWrite; split <;> rfl
@[simp] theorem State.dieWrite_boot (s : State) (x : Nat) (bs : List Byte) : (s.dieWrite x bs).boot = s.boot := by
  unfold State.dieWrite; split <;> rfl

end Sys2Proof.Machine
end

