-- ==== Sys2Proof/Laws/Table.lean ====
section
/-!
SUPPORT. Sparse tables: what an entry reads as after a table changed, and lookups by key.
-/

namespace Sys2Proof.Machine

set_option Elab.async false

/-- An entry that was set reads as set. -/
@[simp] theorem tget_tput_same {α : Type} (d x : α) (t : Tab α) (n : Nat) : tget d (tput t n x) n = x := by
  induction t with
  | nil => simp [tput, tget]
  | cons e t ih =>
    obtain ⟨k, v⟩ := e
    simp only [tput]
    split
    · simp [tget]
    · split
      · simp [tget]
      · rename_i h1 h2
        simp only [tget, h1, h2, if_false]
        exact ih

/-- Every other entry reads as before. -/
theorem tget_tput_other {α : Type} (d x : α) (t : Tab α) (n k : Nat) (h : k ≠ n) : tget d (tput t n x) k = tget d t k := by
  induction t with
  | nil => simp only [tput, tget]; split <;> simp_all
  | cons e t ih =>
    obtain ⟨a, v⟩ := e
    simp only [tput]
    split
    · simp only [tget]
      repeat' split
      all_goals first | rfl | omega
    · split
      · rename_i h1 h2
        subst h2
        simp only [tget]
        repeat' split
        all_goals first | rfl | omega
      · simp only [tget, ih]

/-- An entry after one was set. -/
theorem tget_tput {α : Type} (d x : α) (t : Tab α) (n k : Nat) : tget d (tput t n x) k = if k = n then x else tget d t k := by
  split
  · subst k; exact tget_tput_same d x t n
  · exact tget_tput_other d x t n k ‹_›

/-- An entry after one was changed. -/
theorem tget_tupd {α : Type} (d : α) (t : Tab α) (f : α → α) (n k : Nat) :
    tget d (tupd d t n f) k = if k = n then f (tget d t n) else tget d t k := tget_tput d _ t n k

/-- A changed entry. -/
@[simp] theorem tget_tupd_same {α : Type} (d : α) (t : Tab α) (f : α → α) (n : Nat) :
    tget d (tupd d t n f) n = f (tget d t n) := tget_tput_same d _ t n

/-- The first entry under a key, after one was set. -/
theorem find_tput {α : Type} (x : α) (t : Tab α) (n k : Nat) :
    (tput t n x).find? (fun e => e.1 == k) = if k = n then some (n, x) else t.find? fun e => e.1 == k := by
  induction t with
  | nil =>
    simp only [tput, List.find?]
    by_cases h : k = n
    · subst h; simp
    · have : (n == k) = false := by simp; omega
      simp [this, h]
  | cons e t ih =>
    obtain ⟨a, v⟩ := e
    simp only [tput]
    by_cases hk : k = n
    · subst hk
      split
      · simp [List.find?]
      · split
        · simp [List.find?]
        · rename_i h1 h2
          have : (a == k) = false := by simp; omega
          simpa [List.find?, this] using ih
    · have hn : (n == k) = false := by simp; omega
      split
      · simp [List.find?, hn]
      · split
        · rename_i h1 h2
          subst h2
          simp [List.find?, hn]
        · by_cases ha : (a == k) = true
          · simp [List.find?, ha]
          · have ha' : (a == k) = false := by simpa using ha
            simpa [List.find?, ha', hk] using ih

/-- The first entry under a key, after one was removed. -/
theorem find_tdel {α : Type} (t : Tab α) (n k : Nat) :
    (tdel t n).find? (fun e => e.1 == k) = if k = n then none else t.find? fun e => e.1 == k := by
  induction t with
  | nil => simp [tdel]
  | cons e t ih =>
    obtain ⟨a, v⟩ := e
    simp only [tdel] at ih ⊢
    by_cases h : a = n
    · subst h
      by_cases hk : k = a
      · subst hk; simp [List.filter]
      · have : (a == k) = false := by simp; omega
        simpa [List.filter, List.find?, this, hk] using ih
    · by_cases hk : k = n
      · subst hk
        have : (a == k) = false := by simpa using h
        simp [List.filter, h, this]
      · by_cases ha : (a == k) = true
        · simp [List.filter, List.find?, h, ha, hk]
        · have ha' : (a == k) = false := by simpa using ha
          simpa [List.filter, List.find?, h, ha', hk] using ih

end Sys2Proof.Machine
end

