-- ==== Sys2Proof/Laws/Ops.lean ====
section
/-!
SUPPORT. One lemma for each shared operation, which says what it answers: proofs about commands cite it in place of its text.
-/

namespace Sys2Proof.Machine

set_option Elab.async false

/-! ### Guards -/

/-- A command whose operand names something the module has. -/
theorem guarded_of {c : Prop} [Decidable c] (h : c) (s : State) : guarded c s = .next s := by simp [guarded, h]

/-- Any other stops. -/
theorem guarded_not {c : Prop} [Decidable c] (h : ¬c) (s : State) : guarded c s = .fault .noSuchComponent := by
  simp [guarded, h]

/-! ### Operations in flight -/

/-- The work of a running instance is found. -/
theorem State.Running.work {s : State} {id n opcode : Nat} {o : Op} {i : Inst} (h : s.Running id n opcode o i) :
    s.work id n opcode = some (o, i) := by
  obtain ⟨h1, h2, h3, h4⟩ := h
  simp [State.work, h1, h2, h3, h4]

/-- Its operation has the number that the command names. -/
theorem State.Running.id_eq {s : State} {id n opcode : Nat} {o : Op} {i : Inst} (h : s.Running id n opcode o i) :
    o.id = id := by
  have := List.find?_some h.1
  simpa using this

/-- What ending an instance does. -/
theorem State.finish_ended (s : State) (id n fault va : Nat) : s.Ended (s.finish id n fault va) id n fault va := rfl

/-- Ending an instance after changes that left the operations as they were. -/
theorem State.finish_ended_of {s t : State} (h : t.ops = s.ops) (ht : t.tide = s.tide) (id n fault va : Nat) :
    s.Ended (t.finish id n fault va) id n fault va := by
  simp [State.Ended, State.finish, State.updOp, Op.updInst, h, ht]

/-- It changes the operations alone. -/
theorem State.finish_eq (s : State) (id n fault va : Nat) :
    s.finish id n fault va = { s with ops := (s.finish id n fault va).ops } := rfl

/-- Work that runs through. -/
theorem State.perform_ok {α : Type} {s : State} {m : M α} {x : α} {d : Data} (h : s.run m = some (.ok x, d)) (o : Op)
    (onFault : Data → Data) (onOk : State → α → State) : s.perform o m onFault onOk = onOk { s with dp := d } x := by
  simp [State.perform, h]

/-- Work that meets a translation fault: it is captured, the family contains it, and the operation ends with XLATE_FAULT. -/
theorem State.perform_error {α : Type} {s : State} {m : M α} {f : XfKind × Nat} {d : Data} (h : s.run m = some (.error f, d))
    (o : Op) (onFault : Data → Data) (onOk : State → α → State) :
    s.perform o m onFault onOk = (({ s with dp := onFault (d.xlateFault o.q f) }).countFault o.desc).finish o.id 0
      Code.xlateFault f.2 := by
  simp [State.perform, h]

/-- Work that has to wait changes nothing. -/
theorem State.perform_none {α : Type} {s : State} {m : M α} (h : s.run m = none) (o : Op) (onFault : Data → Data)
    (onOk : State → α → State) : s.perform o m onFault onOk = s := by
  simp [State.perform, h]

/-! ### Operations on sequences -/

/-- An operation whose sequence an earlier one still works on. -/
theorem State.seqOp_held {s : State} {id opcode : Nat} {o : Op} {i : Inst} (h : s.Running id 0 opcode o i)
    (hh : s.seqHeld o = true) (body : State → Op → SeqEnd) : s.seqOp id opcode body = s := by
  simp [State.seqOp, h.work, hh]

/-- One that comes to a status, without a status address. -/
theorem State.seqOp_status {s t : State} {id opcode r v : Nat} {o : Op} {i : Inst} (h : s.Running id 0 opcode o i)
    (hh : s.seqHeld o = false) (ha : addrField o.desc 24 = 0) {body : State → Op → SeqEnd} (hb : body s o = .status t r v) :
    s.seqOp id opcode body = (if r = Seq.ok then t else t.bump Evt.seqStatus 1).finish id 0 0 0 := by
  simp [State.seqOp, h.work, hh, hb, State.endSeq, ha, h.id_eq]

/-- A context that was set. -/
theorem State.ctx_setCtx (s : State) (id k : Nat) (c : Ctx) :
    (s.setCtx id c).ctx k = if k = id then some c else s.ctx k := by
  simp only [State.ctx, State.setCtx_seq, find_tput]
  split <;> simp

/-- A context that was closed. -/
theorem State.ctx_dropCtx (s : State) (id k : Nat) : (s.dropCtx id).ctx k = if k = id then none else s.ctx k := by
  simp only [State.ctx, State.dropCtx_seq, find_tdel]
  split <;> simp

/-- Contexts are part of the sequence block. -/
theorem State.ctx_congr {s t : State} (h : t.seq.ctxs = s.seq.ctxs) (k : Nat) : t.ctx k = s.ctx k := by
  simp [State.ctx, h]

/-! ### Frames -/

/-- A frame that its port takes, of the type that the command handles. -/
theorem State.onFrame_taken {s : State} {p : Nat} {f : HwFrame} {type : BitVec 4} (h1 : s.receives p = true)
    (h2 : s.frameRefused p f = none) (h3 : f.type = type) (body : State → Nat → State) :
    s.onFrame p f type body = body s f.srcId.toNat := by
  simp [State.onFrame, h1, h2, h3]

/-- A port that takes no frames. -/
theorem State.onFrame_off {s : State} {p : Nat} (h : s.receives p = false) (f : HwFrame) (type : BitVec 4)
    (body : State → Nat → State) : s.onFrame p f type body = s := by
  simp [State.onFrame, h]

/-- A frame that is discarded. -/
theorem State.onFrame_refused {s : State} {p c : Nat} {f : HwFrame} (h1 : s.receives p = true)
    (h2 : s.frameRefused p f = some c) (type : BitVec 4) (body : State → Nat → State) :
    s.onFrame p f type body = s.bump c 1 := by
  simp [State.onFrame, h1, h2]

/-- The oldest frame in staging is placed. -/
theorem State.placeFrame_of {s t : State} {i p : Nat} {kind : BitVec 8} {f : HwFrame} (hi : i < 4096) (hp : p < 16)
    (h : s.front i p kind = some f) (hw : s.frameWaits f = false) {body : State → HwFrame → Option State}
    (hb : body s f = some t) : s.placeFrame i p kind body = .next (t.placed i p).hawserOn := by
  simp [State.placeFrame, onPath, guarded, hi, hp, h, hb, hw]

/-- A path after one was changed. -/
theorem State.path_updPath (s : State) (i p j k : Nat) (f : Path → Path) (hp : p < 16) (hk : k < 16) :
    (s.updPath i p f).path j k = if j = i ∧ k = p then f (s.path i p) else s.path j k := by
  have e : (s.updPath i p f).path j k = if 16 * j + k = 16 * i + p then f (s.path i p) else s.path j k :=
    tget_tupd _ _ _ _ _
  rw [e]
  by_cases h : j = i ∧ k = p
  · simp [h]
  · have : ¬ 16 * j + k = 16 * i + p := by omega
    simp [h, this]

/-- The same path. -/
@[simp] theorem State.path_updPath_same (s : State) (i p : Nat) (f : Path → Path) : (s.updPath i p f).path i p = f (s.path i p) :=
  tget_tupd_same _ _ _ _

/-- Paths are part of the Hawser block. -/
theorem State.path_congr {s t : State} (h : t.hw.paths = s.hw.paths) (i p : Nat) : t.path i p = s.path i p := by
  simp [State.path, h]

/-- A port after one was set. -/
theorem State.port_setPort (s : State) (p k : Nat) (x : Port) : (s.setPort p x).port k = if k = p then x else s.port k :=
  tget_tput _ _ _ _ _

/-- A peer after one was changed. -/
theorem State.peer_updPeer (s : State) (i k : Nat) (f : Peer → Peer) :
    (s.updPeer i f).peer k = if k = i then f (s.peer i) else s.peer k := tget_tupd _ _ _ _ _

/-- A group after one was changed. -/
theorem State.group_updGroup (s : State) (g k : Nat) (f : Group → Group) :
    (s.updGroup g f).group k = if k = g then f (s.group g) else s.group k := tget_tupd _ _ _ _ _

/-- A queue after one was changed. -/
theorem State.queue_updQueue (s : State) (q k : Nat) (f : Queue → Queue) :
    (s.updQueue q f).queue k = if k = q then f (s.queue q) else s.queue k := tget_tupd _ _ _ _ _

/-- A counter after one was signalled. -/
theorem State.counter_signal (s : State) (n k inc code : Nat) :
    (s.signal n inc code).counter k = if k = n then (s.counter n).signal inc code else s.counter k := by
  simp only [State.counter, State.signal]
  rw [tget_tupd]

/-- A lane after one was changed. -/
theorem State.lane_updLane (s : State) (l k : Nat) (f : Lane → Lane) :
    (s.updLane l f).lane k = if k = l then f (s.lane l) else s.lane k := tget_tupd _ _ _ _ _

/-- A die after one was changed. -/
theorem State.die_updDie (s : State) (d k : Nat) (f : Die → Die) :
    (s.updDie d f).die k = if k = d then f (s.die d) else s.die k := tget_tupd _ _ _ _ _

/-- A domain after one was changed. -/
theorem State.domain_updDom (s : State) (x k : Nat) (f : Domain → Domain) :
    (s.updDom x f).domain k = if k = x then f (s.domain x) else s.domain k := tget_tupd _ _ _ _ _

/-! ### Event counters -/

/-- What an event counter reads as after some events (03 R98). -/
theorem State.count_bump (s : State) (off n k : Nat) :
    (s.bump off n).count k = if k = off then s.count off + BitVec.ofNat 48 n else s.count k := by
  simp only [State.count, State.bump, Data.bump]
  by_cases hn : n = 0
  · subst hn
    by_cases h : k = off
    · simp [h]
    · simp [h]
  · simp only [hn, if_false]
    rw [tget_tupd]

/-- Counting changes the event counters alone. -/
theorem Data.bump_eq (d : Data) (off n : Nat) : d.bump off n = { d with evts := (d.bump off n).evts } := by
  unfold Data.bump
  split <;> rfl

/-- Memory among the rest. -/
@[simp] theorem Data.bump_cells (d : Data) (off n : Nat) : (d.bump off n).cells = d.cells := by
  rw [Data.bump_eq]

/-- Logging changes no memory. -/
@[simp] theorem Data.logEvent_cells (d : Data) (e : Env) (code src d0 d1 : Nat) : (d.logEvent e code src d0 d1).cells = d.cells := by
  simp only [Data.logEvent]
  split <;> rfl

/-- Neither does the capture of a translation fault. -/
@[simp] theorem Data.xlateFault_cells (d : Data) (q : Nat) (f : XfKind × Nat) : (d.xlateFault q f).cells = d.cells := by
  simp only [Data.xlateFault]
  split <;> simp

end Sys2Proof.Machine
end

