-- ==== Sys2Proof/Laws/Access.lean ====
section
/-!
SUPPORT. Accesses at module-private addresses of Ivorn: where every stack is on and no line is marked, none of them faults or waits.
-/

namespace Sys2Proof.Machine

set_option Elab.async false

/-- Every stack of an environment is on. -/
def Env.stacksOn (e : Env) : Prop := ∀ x, 16 ≤ x → x < 32 → e.dom x = .on

/-- The module-private address of a byte of Ivorn (08 R222). -/
def privOf (x : Nat) : Nat := 0xC00000000000000 + x

theorem domainGate_on {e : Env} {va l : Nat} (h : e.dom (lineDom l) = .on) (io : Io) : domainGate e va l io = (.ok (), io) := by
  unfold domainGate; rw [h]; rfl

theorem lineDom_stack {e : Env} (he : e.stacksOn) {x : Nat} (hx : x < 2 ^ 40) : e.dom (lineDom (x / 64)) = .on := by
  have h : x / 64 < berthBase := by simp only [berthBase]; omega
  simp only [lineDom, h, if_true]
  exact he _ (by omega) (by simp only [berthBase] at h; omega)

theorem privByte_privOf (absent : Nat → Bool) {x : Nat} (hx : x < 2 ^ 40) : privByte absent (privOf x) = .ok x := by
  have h1 : bits (privOf x) 57 48 = 0 := by simp [bits, privOf, Nat.shiftRight_eq_div_pow]; omega
  have h2 : bits (privOf x) 47 40 = 0 := by simp [bits, privOf, Nat.shiftRight_eq_div_pow]; omega
  have h3 : bits (privOf x) 39 0 = x := by simp [bits, privOf]; omega
  simp [privByte, h1, h2, h3]

/-- A module-private address of a stack that is on translates to its byte. -/
theorem translate_privOf {e : Env} (he : e.stacksOn) (a : Acc) (w : Bool) {x : Nat} (hx : x < 2 ^ 40) (io : Io) :
    translate e a w (privOf x) io = (.ok x, io) := by
  have h0 : bits (privOf x) 59 58 = 3 := by simp [bits, privOf, Nat.shiftRight_eq_div_pow]; omega
  unfold translate
  rw [h0]
  simp only [privByte_privOf e.absent hx]
  have := domainGate_on (va := privOf x) (lineDom_stack he hx) io
  simp only [bind, ExceptT.bind, ExceptT.mk, StateT.bind, this, ExceptT.bindCont, pure, ExceptT.pure, StateT.pure]

/-- Reading a line keeps the marks. -/
@[simp] theorem Data.logEvent_marks (d : Data) (e : Env) (a b c f : Nat) : (d.logEvent e a b c f).marks = d.marks := by
  unfold Data.logEvent; simp only []; split <;> rfl
@[simp] theorem Data.bump_marks (d : Data) (o n : Nat) : (d.bump o n).marks = d.marks := by
  unfold Data.bump; split <;> rfl
@[simp] theorem Data.countStackCe_marks (d : Data) (l : Nat) : (d.countStackCe l).marks = d.marks := by
  unfold Data.countStackCe; split <;> rfl
@[simp] theorem Data.storeLine_marks (d : Data) (l : Nat) (p s : List Byte) (b : Bool) : (d.storeLine l p s b).marks = d.marks := rfl
@[simp] theorem Data.readLine_marks (d : Data) (e : Env) (l : Nat) : (d.readLine e l).2.marks = d.marks := by
  unfold Data.readLine
  split
  · simp
  · simp only []; unfold Data.contain; split <;> simp
@[simp] theorem Data.readOver_marks (d : Data) (e : Env) (l : Nat) : (d.readOver e l).2.marks = d.marks := by
  have h : (d.nextTransfer l).2.marks = d.marks := by unfold Data.nextTransfer; split <;> rfl
  unfold Data.readOver
  simp only []
  split <;> simp [h]
/-- A write keeps the marks. -/
@[simp] theorem Data.writeLine_marks (d : Data) (e : Env) (w : Wr) : (d.writeLine e w).marks = d.marks := by
  unfold Data.writeLine
  split
  · split <;> simp
  · split
    · rfl
    · split <;> simp
  · split <;> simp
  · split
    · rfl
    · rfl
@[simp] theorem Data.write_marks (d : Data) (e : Env) (w : Wr) : (d.write e w).marks = d.marks := by
  unfold Data.write
  split <;> simp

/-- Ordinary writes with no line marked are all made. -/
theorem writeAll_ok (e : Env) (ws : List Wr) (d : Data) (b : Bool) (h : d.marks = []) :
    ∃ d', writeAll e ws ⟨d, b⟩ = (.ok (), ⟨d', b⟩) ∧ d'.marks = [] := by
  induction ws generalizing d with
  | nil => exact ⟨d, rfl, h⟩
  | cons w ws ih =>
    obtain ⟨d', h1, h2⟩ := ih (d.write e w) (by simpa using h)
    refine ⟨d', ?_, h2⟩
    rw [← h1]
    simp [writeAll, writeNow, markGate, M.ask, M.upd, h, bind, ExceptT.bind, ExceptT.mk, StateT.bind, ExceptT.bindCont, pure,
      ExceptT.pure, StateT.pure]

/-- The writes of bytes at a module-private address. -/
theorem writeBytes_ok {e : Env} (he : e.stacksOn) (a : Acc) (fuel : Nat) (bs : List Byte) (x : Nat) (hx : x + bs.length + 64 < 2 ^ 40)
    (io : Io) : ∃ ws, writeBytes e a (privOf x) fuel bs io = (.ok ws, io) := by
  induction fuel generalizing bs x with
  | zero => exact ⟨[], rfl⟩
  | succ n ih =>
    unfold writeBytes
    by_cases hb : bs = []
    · exact ⟨[], by simp [hb, pure, ExceptT.pure, ExceptT.mk, StateT.pure]⟩
    · have hm : privOf x + (64 - privOf x % 64) = privOf (x + (64 - privOf x % 64)) := by simp [privOf]; omega
      have hn : ∀ va io, writeBytes e a va n ([] : List Byte) io = (.ok [], io) := by
        intro va io; cases n <;> simp [writeBytes, pure, ExceptT.pure, ExceptT.mk, StateT.pure]
      have : ∃ ws, writeBytes e a (privOf (x + (64 - privOf x % 64))) n (bs.drop (64 - privOf x % 64)) io = (.ok ws, io) := by
        rcases Nat.lt_or_ge (64 - privOf x % 64) bs.length with hc | hc
        · exact ih _ _ (by rw [List.length_drop]; omega)
        · exact ⟨[], by rw [List.drop_eq_nil_of_le hc]; exact hn _ _⟩
      obtain ⟨ws, hw⟩ := this
      refine ⟨.part (x / 64) (x % 64) (bs.take (64 - privOf x % 64)) :: ws, ?_⟩
      simp only [hb, if_false, bind, ExceptT.bind, ExceptT.mk, StateT.bind, translate_privOf he a true (by omega : x < 2 ^ 40) io,
        ExceptT.bindCont, hm, hw, pure, ExceptT.pure, StateT.pure]

/-- Lines read at a module-private address; every answer is found, and no mark appears. -/
theorem openRead_ok {e : Env} (he : e.stacksOn) (a : Acc) (n : Nat) (x : Nat) (hx : x + 64 * n < 2 ^ 40) (d : Data) (b : Bool)
    (h : d.marks = []) : ∃ bs d', openRead e a (privOf x) n ⟨d, b⟩ = (.ok bs, ⟨d', b⟩) ∧ d'.marks = [] := by
  induction n generalizing x d with
  | zero => exact ⟨[], d, rfl, h⟩
  | succ n ih =>
    have hm : privOf x + 64 = privOf (x + 64) := by simp [privOf]; omega
    let r := d.readOver e (x / 64)
    let d1 : Data := if r.1.poison then { r.2 with free := r.2.free + 1 } else r.2
    have h1 : d1.marks = [] := by
      have hr : r.2.marks = [] := by simp [r, h]
      simp only [d1]; split <;> simp [hr]
    obtain ⟨bs, d', h2, h3⟩ := ih (x + 64) (by omega) d1 h1
    refine ⟨(if r.1.poison then openBytes r.2.free 64 else r.1.payload) ++ bs, d', ?_, h3⟩
    · simp only [openRead, readVirt, readPhys, markGate, M.ask, M.upd, bind, ExceptT.bind, ExceptT.mk, StateT.bind,
        translate_privOf he a false (by omega : x < 2 ^ 40), ExceptT.bindCont, h, List.find?_nil, Option.map_none, pure,
        ExceptT.pure, StateT.pure, hm]
      show (match openRead e a (privOf (x + 64)) n ⟨d1, b⟩ with | (a, s) => _) = _
      rw [h2]
      rfl

/-- Bytes written at a module-private address, as an operation's work. -/
theorem State.run_putBytes (s : State) {e : Env} (he : e.stacksOn) (a : Acc) (bs : List Byte) (x : Nat)
    (hx : x + bs.length + 64 < 2 ^ 40) (hm : s.dp.marks = []) :
    ∃ d, s.run (do
      let ws ← putBytes e a (privOf x) bs
      writeAll e ws) = some (.ok (), d) := by
  obtain ⟨ws, hw⟩ := writeBytes_ok he a bs.length bs x hx ⟨s.dp, false⟩
  obtain ⟨d, hd, -⟩ := writeAll_ok e ws s.dp false hm
  refine ⟨d, ?_⟩
  simp only [State.run, putBytes, bind, ExceptT.bind, ExceptT.mk, StateT.bind, hw, ExceptT.bindCont, hd]
  rfl

/-- Three runs of bytes written at module-private addresses, as an operation's work. -/
theorem State.run_putThree (s : State) {e : Env} (he : e.stacksOn) (a : Acc) (b1 b2 b3 : List Byte) (x1 x2 x3 : Nat)
    (h1 : x1 + b1.length + 64 < 2 ^ 40) (h2 : x2 + b2.length + 64 < 2 ^ 40) (h3 : x3 + b3.length + 64 < 2 ^ 40)
    (hm : s.dp.marks = []) :
    ∃ d, s.run (do
      let w1 ← putBytes e a (privOf x1) b1
      let w2 ← putBytes e a (privOf x2) b2
      let w3 ← putBytes e a (privOf x3) b3
      writeAll e (w1 ++ w2 ++ w3)) = some (.ok (), d) := by
  obtain ⟨w1, e1⟩ := writeBytes_ok he a b1.length b1 x1 h1 ⟨s.dp, false⟩
  obtain ⟨w2, e2⟩ := writeBytes_ok he a b2.length b2 x2 h2 ⟨s.dp, false⟩
  obtain ⟨w3, e3⟩ := writeBytes_ok he a b3.length b3 x3 h3 ⟨s.dp, false⟩
  obtain ⟨d, hd, -⟩ := writeAll_ok e (w1 ++ w2 ++ w3) s.dp false hm
  refine ⟨d, ?_⟩
  simp only [State.run, putBytes, bind, ExceptT.bind, ExceptT.mk, StateT.bind, e1, e2, e3, ExceptT.bindCont, hd]
  rfl

/-- Lines read at a module-private address, as an operation's work. -/
theorem State.run_openRead (s : State) {e : Env} (he : e.stacksOn) (a : Acc) (n x : Nat) (hx : x + 64 * n < 2 ^ 40)
    (hm : s.dp.marks = []) : ∃ bs d, s.run (openRead e a (privOf x) n) = some (.ok bs, d) := by
  obtain ⟨bs, d, hd, -⟩ := openRead_ok he a n x hx s.dp false hm
  exact ⟨bs, d, by simp [State.run, hd]⟩

end Sys2Proof.Machine
end

