-- ==== Sys2Proof/Laws/Bits.lean ====
section
/-!
SUPPORT. Bytes and fields: lengths and bounds.
-/

namespace Sys2Proof.Machine

set_option Elab.async false

/-- A slice has the length asked for. -/
@[simp] theorem slice_length (xs : List Byte) (off len : Nat) : (slice xs off len).length = len := by
  simp only [slice, List.length_append, List.length_replicate, List.length_take, List.length_drop]
  omega

/-- The bytes of a number have the length asked for. -/
@[simp] theorem natLE_length (n x : Nat) : (natLE n x).length = n := by
  induction n generalizing x with
  | zero => rfl
  | succ n ih => simp [natLE, ih]

/-- The number that bytes hold fits them. -/
theorem leNat_lt (bs : List Byte) : leNat bs < 256 ^ bs.length := by
  induction bs with
  | nil => simp [leNat]
  | cons b bs ih =>
    simp only [leNat, List.length_cons, Nat.pow_succ]
    have := b.isLt
    omega

/-- A field fits its bytes. -/
theorem field_lt (xs : List Byte) (off len : Nat) : field xs off len < 256 ^ len := by
  simpa [field] using leNat_lt (slice xs off len)

/-- The bytes of a number that fits hold it. -/
theorem leNat_natLE (n : Nat) : ∀ x : Nat, leNat (natLE n x) = x % 256 ^ n := by
  induction n with
  | zero => intro x; simp [natLE, leNat, Nat.mod_one]
  | succ n ih =>
    intro x
    simp only [natLE, leNat, ih, BitVec.toNat_ofNat]
    have h : (256 : Nat) ^ (n + 1) = 256 * 256 ^ n := by rw [Nat.pow_succ, Nat.mul_comm]
    rw [h, Nat.mod_mul]

end Sys2Proof.Machine
end

