-- ==== Sys2Proof/Laws/Images.lean ====
section
/-!
SUPPORT. The lengths of the images that SAVE and CTX_SAVE write (05 R153, 11 R371).
-/

namespace Sys2Proof.Machine

set_option Elab.async false

/-- Pieces of one length. -/
theorem length_flatMap_const {α β : Type} (f : α → List β) (n : Nat) (l : List α) (h : ∀ x, (f x).length = n) :
    (l.flatMap f).length = l.length * n := by
  induction l with
  | nil => simp
  | cons x l ih => simp [h, ih, Nat.add_mul, Nat.add_comm]

/-- The free-running image has 852,032 bytes (05 R153). -/
theorem State.freeImage_length (s : State) : s.freeImage.length = 852032 := by
  have h (pc : Nat) : ((List.range 128).flatMap fun l =>
      if s.enabled pc then natLE 8 (s.rng.counter pc l).toNat else List.replicate 8 0xFF).length = 1024 := by
    rw [length_flatMap_const _ 8]
    · simp only [List.length_range]
    · intro l; split <;> simp [natLE_length]
  unfold State.freeImage
  simp only [List.length_append, natLE_length, List.length_replicate]
  rw [length_flatMap_const _ 1024 _ h, List.length_range]

/-- Words filled up to a number of bytes. -/
theorem words8_length (n : Nat) (ws : List Nat) : (words8 n ws).length = n := by simp [words8, slice_length]

/-- A context image without its optional sections (11 R371). -/
theorem State.imageBase_length (s : State) (flags : Nat) : (s.imageBase flags).length = 0xB940 := by
  unfold State.imageBase
  simp only [List.length_append, words8_length, slice_length]
  rw [length_flatMap_const _ 8, length_flatMap_const _ 64, length_flatMap_const _ 32, length_flatMap_const _ 64, length_flatMap_const _ 64,
    length_flatMap_const _ 8, length_flatMap_const _ 64]
  · simp only [List.length_range]
  all_goals (intro x; simp only [List.length_append, words8_length, natLE_length])

end Sys2Proof.Machine
end

