-- ==== Sys2Proof/Laws/Kept.lean ====
section
/-!
SUPPORT. What most functions on the state leave alone: the queue of waiting commands, the anti-rollback counters and the
governor's dies. One lemma a function; those that change a die or a counter stand in Laws/Ranges.lean.
-/

namespace Sys2Proof.Machine

set_option Elab.async false

/-- What most commands leave alone. -/
def State.kept (s : State) : List Instr × Tab Word × Tab Die := (s.pending, s.boot.counters, s.pwr.dies)

/-- It is read field by field. -/
@[simp] theorem State.kept_mk pending tide dp ops nextOp que cnt hst pci out treble bass tun rng stw los seq hw mbx dic pwr boot :
    State.kept (State.mk pending tide dp ops nextOp que cnt hst pci out treble bass tun rng stw los seq hw mbx dic
      pwr boot) = (pending, boot.counters, pwr.dies) := rfl

/-- It is folded again. -/
@[simp] theorem State.kept_eta (s : State) : (s.pending, s.boot.counters, s.pwr.dies) = s.kept := rfl

/-- A fold of functions that leave it alone. -/
@[simp] theorem foldl_kept {α : Type} (f : State → α → State) (h : ∀ s x, (f s x).kept = s.kept) (l : List α) (s : State) :
    (l.foldl f s).kept = s.kept := by
  induction l generalizing s with
  | nil => rfl
  | cons x l ih => simp [ih, h]

@[simp] theorem State.bump_kept (s : State) (off n : Nat) : (State.bump s off n).kept = s.kept := rfl

@[simp] theorem State.logEvent_kept (s : State) (code src d0 d1 : Nat) : (State.logEvent s code src d0 d1).kept = s.kept := rfl

@[simp] theorem State.post_kept (s : State) (addr : Nat) (bytes : List Byte) : (State.post s addr bytes).kept = s.kept := rfl

@[simp] theorem State.signal_kept (s : State) (n inc code : Nat) : (State.signal s n inc code).kept = s.kept := rfl

@[simp] theorem State.updQueue_kept (s : State) (q : Nat) (f : Queue → Queue) : (State.updQueue s q f).kept = s.kept := rfl

@[simp] theorem State.updOp_kept (s : State) (id : Nat) (f : Op → Op) : (State.updOp s id f).kept = s.kept := rfl

@[simp] theorem State.updLane_kept (s : State) (l : Nat) (f : Lane → Lane) : (State.updLane s l f).kept = s.kept := rfl

@[simp] theorem State.dieWrite_kept (s : State) (x : Nat) (bs : List Byte) : (State.dieWrite s x bs).kept = s.kept := by
  unfold State.dieWrite
  split <;> rfl

@[simp] theorem State.setCtx_kept (s : State) (id : Nat) (c : Ctx) : (State.setCtx s id c).kept = s.kept := rfl

@[simp] theorem State.dropCtx_kept (s : State) (id : Nat) : (State.dropCtx s id).kept = s.kept := rfl

@[simp] theorem State.setSlots_kept (s : State) (x p : Nat) (us : List Nat) : (State.setSlots s x p us).kept = s.kept := rfl

@[simp] theorem State.setPort_kept (s : State) (p : Nat) (x : Port) : (State.setPort s p x).kept = s.kept := rfl

@[simp] theorem State.updPeer_kept (s : State) (i : Nat) (f : Peer → Peer) : (State.updPeer s i f).kept = s.kept := rfl

@[simp] theorem State.updPath_kept (s : State) (i p : Nat) (f : Path → Path) : (State.updPath s i p f).kept = s.kept := rfl

@[simp] theorem State.emit_kept (s : State) (p : Nat) (f : HwFrame) : (State.emit s p f).kept = s.kept := by
  unfold State.emit
  simp only []; (repeat' split) <;> rfl

@[simp] theorem State.updGroup_kept (s : State) (g : Nat) (f : Group → Group) : (State.updGroup s g f).kept = s.kept := rfl

@[simp] theorem State.updChan_kept (s : State) (c : Nat) (f : Chan → Chan) : (State.updChan s c f).kept = s.kept := rfl

@[simp] theorem State.deliver_kept (s : State) (n : Notice) : (State.deliver s n).kept = s.kept := rfl

@[simp] theorem State.faultedClear_kept (s : State) (n : Nat) : (State.faultedClear s n).kept = s.kept := rfl

@[simp] theorem State.updDom_kept (s : State) (x : Nat) (f : Domain → Domain) : (State.updDom s x f).kept = s.kept := rfl

@[simp] theorem State.runObject_kept (s : State) (kind : Nat) (o : List Byte) : (State.runObject s kind o).kept = s.kept := rfl

@[simp] theorem State.toStage_kept (s : State) (n : Nat) : (State.toStage s n).kept = s.kept := rfl

@[simp] theorem State.sendFrame_kept (s : State) (f : MgmtFrame) : (State.sendFrame s f).kept = s.kept := rfl

@[simp] theorem State.discardFrame_kept (s : State) : (State.discardFrame s).kept = s.kept := rfl

@[simp] theorem State.setCfg_kept (s : State) (f : DicCfg → DicCfg) : (State.setCfg s f).kept = s.kept := rfl

@[simp] theorem State.clearEvt_kept (s : State) (off : Nat) : (State.clearEvt s off).kept = s.kept := rfl

@[simp] theorem State.sendMsix_kept (s : State) (v : Nat) : (State.sendMsix s v).kept = s.kept := by
  unfold State.sendMsix
  simp only []; (repeat' split) <;> simp [*]

@[simp] theorem State.msix_kept (s : State) (v : Nat) : (State.msix s v).kept = s.kept := by
  unfold State.msix
  simp only []; (repeat' split) <;> simp [*]

@[simp] theorem State.causeRecord_kept (s : State) : (State.causeRecord s).kept = s.kept := by
  unfold State.causeRecord
  simp only []; (repeat' split) <;> simp [*]

@[simp] theorem State.causeStopped_kept (s : State) : (State.causeStopped s).kept = s.kept := by
  unfold State.causeStopped
  simp only []; (repeat' split) <;> simp [*]

@[simp] theorem State.causeLost_kept (s : State) : (State.causeLost s).kept = s.kept := by
  unfold State.causeLost
  simp only []; (repeat' split) <;> simp [*]

@[simp] theorem State.logFault_kept (s : State) (bytes : List Byte) : (State.logFault s bytes).kept = s.kept := by
  unfold State.logFault
  simp only []; (repeat' split) <;> simp [*]

@[simp] theorem State.faultRecord_kept (s : State) (bytes : List Byte) : (State.faultRecord s bytes).kept = s.kept := by
  unfold State.faultRecord
  simp only []; (repeat' split) <;> simp [*]

@[simp] theorem State.finish_kept (s : State) (id n fault va : Nat) : (State.finish s id n fault va).kept = s.kept := by
  rfl

@[simp] theorem State.settle_kept (s : State) (q : Nat) : (State.settle s q).kept = s.kept := by
  unfold State.settle
  simp only []; (repeat' split) <;> simp [*]

@[simp] theorem State.countFault_kept (s : State) (d : List Byte) : (State.countFault s d).kept = s.kept := by
  unfold State.countFault
  (repeat' split) <;> simp

@[simp] theorem State.discard_kept (s : State) : (State.discard s).kept = s.kept := by
  rfl

@[simp] theorem State.stopOnFault_kept (s : State) (q : Nat) : (State.stopOnFault s q).kept = s.kept := by
  unfold State.stopOnFault
  simp only []; (repeat' split) <;> simp [*]

@[simp] theorem State.opInterrupt_kept (s : State) (q : Nat) (d : List Byte) : (State.opInterrupt s q d).kept = s.kept := by
  unfold State.opInterrupt
  (repeat' split) <;> simp

@[simp] theorem State.reportFaultAt_kept (s : State) (at_ : Reg) (q : Nat) (index : Word) (d : List Byte) (inst sig code va : Nat) :
    (State.reportFaultAt s at_ q index d inst sig code va).kept = s.kept := by
  unfold State.reportFaultAt
  simp only []; (repeat' split) <;> simp [*]

@[simp] theorem State.reportFault_kept (s : State) (q : Nat) (index : Word) (d : List Byte) (inst sig code va : Nat) :
    (State.reportFault s q index d inst sig code va).kept = s.kept := by
  unfold State.reportFault
  try simp only []
  simp [*]

@[simp] theorem State.retire_kept (s : State) (id n : Nat) : (State.retire s id n).kept = s.kept := by
  rfl

@[simp] theorem State.complete_kept (s : State) (o : Op) (i : Inst) : (State.complete s o i).kept = s.kept := by
  unfold State.complete
  simp only []; (repeat' split) <;> simp [*]

@[simp] theorem State.perform_kept {α : Type} (s : State) (o : Op) (m : M α) (onFault : Data → Data) (onOk : State → α → State)
    (h : ∀ s x, (onOk s x).kept = s.kept) : (s.perform o m onFault onOk).kept = s.kept := by
  unfold State.perform
  split <;> simp [h]

@[simp] theorem State.setFabric_kept (s : State) (bass : Bool) (f : Fabric) : (State.setFabric s bass f).kept = s.kept := by
  unfold State.setFabric
  (repeat' split) <;> simp

@[simp] theorem State.contribute_kept (s : State) (x : Nat × Word) : (State.contribute s x).kept = s.kept := by
  unfold State.contribute
  simp only []; (repeat' split) <;> simp [*]

@[simp] theorem State.applyCourse_kept (s : State) (id : Nat) (eff : Effects) : (State.applyCourse s id eff).kept = s.kept := by
  unfold State.applyCourse
  simp only []; (repeat' split) <;> simp [*]

@[simp] theorem State.applyEffects_kept (s : State) (o : Op) (eff : Effects) : (State.applyEffects s o eff).kept = s.kept := by
  unfold State.applyEffects
  simp

@[simp] theorem State.applyLoss_kept (s : State) (eff : Effects) : (State.applyLoss s eff).kept = s.kept := by
  unfold State.applyLoss
  simp

@[simp] theorem State.workNow_kept (s : State) (o : Op) (n : Nat) (m : M Work) : (State.workNow s o n m).kept = s.kept := by
  unfold State.workNow
  simp only []; (repeat' split) <;> simp [*]

@[simp] theorem State.workAhead_kept (s : State) (o : Op) (n v : Nat) (m : M Work) :
    (State.workAhead s o n v m).kept = s.kept := by
  unfold State.workAhead
  simp only []; (repeat' split) <;> simp [*]

@[simp] theorem State.workOn_kept (s : State) (o : Op) (i : Inst) : (State.workOn s o i).kept = s.kept := by
  unfold State.workOn
  (repeat' split) <;> simp

@[simp] theorem State.work1_kept (s : State) (id n opcode : Nat) (ready : Op → Bool) (work : Op → M Work) :
    (State.work1 s id n opcode ready work).kept = s.kept := by
  unfold State.work1
  (repeat' split) <;> simp

@[simp] theorem State.switchCourses_kept (s : State) (bass : Bool) (code : BitVec 3) :
    (State.switchCourses s bass code).kept = s.kept := by
  unfold State.switchCourses
  simp

@[simp] theorem State.endDrain_kept (s : State) (bass : Bool) : (State.endDrain s bass).kept = s.kept := by
  unfold State.endDrain
  (repeat' split) <;> simp

@[simp] theorem State.endDrains_kept (s : State) : (State.endDrains s).kept = s.kept := by
  unfold State.endDrains
  simp

@[simp] theorem State.endStow_kept (s : State) (o : Op) (code : Nat) : (State.endStow s o code).kept = s.kept := by
  unfold State.endStow
  (repeat' split) <;> simp

@[simp] theorem State.gateDecides_kept (s : State) (o : Op) (n : Nat) : (State.gateDecides s o n).kept = s.kept := by
  unfold State.gateDecides
  (repeat' split) <;> simp

@[simp] theorem State.writeLane_kept (s : State) (l : Nat) (r : LaneReg) (v : Reg) :
    (State.writeLane s l r v).kept = s.kept := by
  unfold State.writeLane
  (repeat' split) <;> simp

@[simp] theorem State.watchSlip_kept (s : State) : (State.watchSlip s).kept = s.kept := by
  unfold State.watchSlip
  simp only []; (repeat' split) <;> simp [*]

@[simp] theorem State.postFor_kept (s : State) (o : Op) (addr : Nat) (bytes : List Byte) :
    (State.postFor s o addr bytes).kept = s.kept := by
  unfold State.postFor
  (repeat' split) <;> simp

@[simp] theorem State.landFails_kept (s : State) (o : Op) (code va : Nat) : (State.landFails s o code va).kept = s.kept := by
  unfold State.landFails
  (repeat' split) <;> simp

@[simp] theorem State.offAccess_kept (s : State) : (State.offAccess s).kept = s.kept := by
  rfl

@[simp] theorem State.writeSide_kept (s : State) (v mask : Reg) : (State.writeSide s v mask).kept = s.kept := by
  unfold State.writeSide
  simp only []; (repeat' split) <;> simp [*]

@[simp] theorem State.retrainStack_kept (s : State) (x : Nat) (ok : Bool) : (State.retrainStack s x ok).kept = s.kept := by
  unfold State.retrainStack
  simp only []; (repeat' split) <;> simp [*]

@[simp] theorem State.reseedStrings_kept (s : State) (xs : List (Nat × Nat)) : (State.reseedStrings s xs).kept = s.kept := by
  unfold State.reseedStrings
  simp only []; (repeat' split) <;> simp [*]

@[simp] theorem State.loadImage_kept (s : State) (img : List Byte) : (State.loadImage s img).kept = s.kept := by
  unfold State.loadImage
  simp

@[simp] theorem State.restoreImage_kept (s : State) (img : List Byte) : (State.restoreImage s img).kept = s.kept := by
  unfold State.restoreImage
  simp only []; (repeat' split) <;> simp [*]

@[simp] theorem State.noEntropyOp_kept (s : State) (id : Nat) : (State.noEntropyOp s id).kept = s.kept := by
  unfold State.noEntropyOp
  (repeat' split) <;> simp

@[simp] theorem State.setHeader_kept (s : State) (x p : Nat) (h : Header) : (State.setHeader s x p h).kept = s.kept := by
  unfold State.setHeader
  (repeat' split) <;> simp

@[simp] theorem State.updHeader_kept (s : State) (x p : Nat) (f : Header → Header) :
    (State.updHeader s x p f).kept = s.kept := by
  unfold State.updHeader
  simp

@[simp] theorem State.retirePage_kept (s : State) (x p : Nat) : (State.retirePage s x p).kept = s.kept := by
  unfold State.retirePage
  simp

@[simp] theorem State.unref_kept (s : State) (x p : Nat) : (State.unref s x p).kept = s.kept := by
  unfold State.unref
  simp only []; (repeat' split) <;> simp [*]

@[simp] theorem State.freeSlots_kept (s : State) (b n : Nat) : (State.freeSlots s b n).kept = s.kept := by
  unfold State.freeSlots
  simp only []; (repeat' split) <;> simp [*]

@[simp] theorem State.setEntry_kept (s : State) (t i v : Nat) : (State.setEntry s t i v).kept = s.kept := by
  unfold State.setEntry
  try simp only []
  simp [*]

@[simp] theorem State.clearLeaf_kept (s : State) (c : Ctx) (j : Nat) : (State.clearLeaf s c j).kept = s.kept := by
  unfold State.clearLeaf
  simp only []; (repeat' split) <;> simp [*]

@[simp] theorem State.unmap_kept (s : State) (c : Ctx) (j : Nat) : (State.unmap s c j).kept = s.kept := by
  unfold State.unmap
  simp only []; (repeat' split) <;> simp [*]

@[simp] theorem State.recount_kept (s : State) (id : Nat) (c : Ctx) : (State.recount s id c).kept = s.kept := by
  rfl

@[simp] theorem State.setNode_kept (s : State) (x i : Nat) (n : Node) : (State.setNode s x i n).kept = s.kept := by
  unfold State.setNode
  (repeat' split) <;> simp

@[simp] theorem Taking.page_kept (k : Taking) (id : Nat) : (k.page id).2.s.kept = k.s.kept := by
  simp only [Taking.page]
  (repeat' split) <;> simp [*]

@[simp] theorem Taking.claim_kept (k : Taking) (x p n i : Nat) : (k.claim x p n i).2.s.kept = k.s.kept := by
  simp [Taking.claim]

@[simp] theorem Taking.slots_kept (k : Taking) (id n : Nat) : (k.slots id n).2.s.kept = k.s.kept := by
  simp only [Taking.slots]
  (repeat' split) <;> simp [*]

@[simp] theorem Taking.table_kept (k : Taking) (id : Nat) (c : Ctx) (j : Nat) : (k.table id c j).2.s.kept = k.s.kept := by
  simp only [Taking.table]
  (repeat' split) <;> simp [*]

@[simp] theorem State.dropTree_kept (s : State) (x target : Nat) : (State.dropTree s x target).kept = s.kept := by
  unfold State.dropTree
  refine foldl_kept _ (fun s x => ?_) _ _
  simp only []
  (repeat' split) <;> simp

@[simp] theorem State.dropPages_kept (x target : Nat) (c : Ctx) : ∀ (l : List (Nat × Nat)) (s : State) (low : Option Nat),
    (s.dropPages x target c l low).1.kept = s.kept
  | [], s, low => rfl
  | (j, v) :: l, s, low => by
    unfold State.dropPages
    split
    · rfl
    · split
      · rfl
      · split
        · rfl
        · rw [State.dropPages_kept x target c l]
          simp only [State.bump_kept, State.unref_kept]
          split <;> simp

@[simp] theorem State.dropVictim_kept (s : State) (x target id : Nat) (c : Ctx) :
    (State.dropVictim s x target id c).kept = s.kept := by
  have h := State.dropPages_kept x target c ((s.leaves c).filter fun e => bit e.2 0).reverse s none
  unfold State.dropVictim
  revert h
  generalize State.dropPages _ _ _ _ _ _ = r
  obtain ⟨t, low⟩ := r
  intro h
  cases low with
  | none => exact h
  | some j => simpa using h

@[simp] theorem State.checkDrops_kept (s : State) (id : Nat) : (State.checkDrops s id).kept = s.kept := by
  simp only [State.checkDrops]
  split
  · rfl
  · refine (foldl_kept _ (fun s x => ?_) _ _).trans (by simp)
    split <;> simp

@[simp] theorem State.evict_kept (s : State) (c : Ctx) (k : Cand) : (State.evict s c k).kept = s.kept := by
  unfold State.evict
  simp only []; (repeat' split) <;> simp [*]

@[simp] theorem State.evictCtx_kept (s : State) (id : Nat) (c : Ctx) : (State.evictCtx s id c).kept = s.kept := by
  unfold State.evictCtx
  simp only []; (repeat' split) <;> simp [*]

@[simp] theorem State.evictStack_kept (s : State) (x : Nat) : (State.evictStack s x).kept = s.kept := by
  unfold State.evictStack
  refine foldl_kept _ (fun s x => ?_) _ _
  split <;> simp

@[simp] theorem State.initPool_kept (s : State) (x : Nat) : (State.initPool s x).kept = s.kept := by
  simp only [State.initPool]
  split
  · exact (foldl_kept _ (by intro s p; simp) _ _).trans ((foldl_kept _ (by intro s p; simp) _ _).trans rfl)
  · exact (foldl_kept _ (by intro s p; simp) _ _).trans rfl

@[simp] theorem State.writePool_kept (s : State) (x : Nat) (r : PoolReg) (v : Reg) :
    (State.writePool s x r v).kept = s.kept := by
  unfold State.writePool
  simp only []; (repeat' split) <;> simp [*]

@[simp] theorem State.writeKey_kept (s : State) (high : Bool) (v : Reg) : (State.writeKey s high v).kept = s.kept := by
  unfold State.writeKey
  repeat' (split <;> try simp)

@[simp] theorem State.freePage_kept (s : State) (x p : Nat) : (State.freePage s x p).kept = s.kept := by
  unfold State.freePage
  simp only []; (repeat' split) <;> simp [*]

@[simp] theorem State.seqFault_kept (s : State) (o : Op) (f : XfKind × Nat) : (State.seqFault s o f).kept = s.kept := by
  unfold State.seqFault
  simp

/-- What the body of an operation on a sequence leaves. -/
def SeqEnd.Keeps (s : State) : SeqEnd → Prop
  | .status t _ _ => t.kept = s.kept
  | .fault t _ => t.kept = s.kept
  | .waits => True

theorem State.endSeq_kept (s t : State) (o : Op) (r v : Nat) (h : s.endSeq o r v = some t) : t.kept = s.kept := by
  simp only [State.endSeq] at h
  repeat' split at h
  all_goals first | (cases h; done) | (cases h; simp)

theorem State.seqOp_kept (s : State) (id opcode : Nat) (body : State → Op → SeqEnd) (h : ∀ s o, (body s o).Keeps s) :
    (s.seqOp id opcode body).kept = s.kept := by
  unfold State.seqOp
  split
  · rfl
  · rename_i o i _
    have hb := h s o
    split
    · rfl
    · split
      · rfl
      · rename_i e
        rw [e] at hb
        simp only [State.seqFault_kept]
        exact hb
      · rename_i e
        rw [e] at hb
        cases e2 : State.endSeq _ o _ _ with
        | none => rfl
        | some u => exact (State.endSeq_kept _ _ _ _ _ e2).trans hb

@[simp] theorem State.afterTaking_kept (s old : State) (id : Nat) : (State.afterTaking s old id).kept = s.kept := by
  unfold State.afterTaking
  (repeat' split) <;> simp

@[simp] theorem State.unreserve_kept (s : State) (x n : Nat) : (State.unreserve s x n).kept = s.kept := by
  unfold State.unreserve
  simp

@[simp] theorem State.freeTables_kept (s : State) (c : Ctx) : (State.freeTables s c).kept = s.kept := by
  unfold State.freeTables
  extract_lets a
  have ha : a.kept = s.kept := by
    refine foldl_kept _ (fun s x => ?_) _ _
    extract_lets e2 t1 b
    split
    · rfl
    · rw [State.freeSlots_kept]
      refine foldl_kept _ (fun s x => ?_) _ _
      simp only []
      split <;> simp
  simpa using ha

@[simp] theorem State.newPage_kept (s : State) (c : Ctx) (x p : Nat) (tokens : Bool) :
    (State.newPage s c x p tokens).kept = s.kept := by
  unfold State.newPage
  simp only []; (repeat' split) <;> simp [*]

@[simp] theorem State.appendAt_kept (s : State) (c : Ctx) (y : Layout) (d : List Byte) (src : Sources) (i : Nat) :
    (State.appendAt s c y d src i).kept = s.kept := by
  simp only [State.appendAt]
  split
  · rfl
  · split
    · simp only [State.dieWrite_kept, State.updHeader_kept, State.bump_kept]
      exact foldl_kept _ (by intro s r; exact foldl_kept _ (by intro s l; rfl) _ _) _ _
    · simp only [State.dieWrite_kept, State.updHeader_kept, State.bump_kept]
      exact foldl_kept _ (by intro s r; exact foldl_kept _ (by intro s l; rfl) _ _) _ _

@[simp] theorem State.reservePages_kept (s : State) (x n : Nat) : (State.reservePages s x n).kept = s.kept := by
  unfold State.reservePages
  simp

@[simp] theorem State.attendTiles_kept (s : State) (o : Op) (bass : Bool) : (State.attendTiles s o bass).kept = s.kept := by
  unfold State.attendTiles
  simp

@[simp] theorem State.attendOp_kept (s : State) (id opcode : Nat) : (State.attendOp s id opcode).kept = s.kept := by
  unfold State.attendOp
  simp only []; (repeat' split) <;> simp [*]

@[simp] theorem State.unpause_kept (s : State) (p : Nat) : (State.unpause s p).kept = s.kept := by
  unfold State.unpause
  simp

@[simp] theorem State.sendAck_kept (s : State) (i p : Nat) : (State.sendAck s i p).kept = s.kept := by
  unfold State.sendAck
  try simp only []
  simp [*]

@[simp] theorem State.sendNak_kept (s : State) (i p : Nat) (kind : BitVec 8) (ackPsn : BitVec 24) (msg : Word) (addr : Reg) :
    (State.sendNak s i p kind ackPsn msg addr).kept = s.kept := by
  unfold State.sendNak
  simp [*]

@[simp] theorem State.sendSyncReq_kept (s : State) (i p k : Nat) : (State.sendSyncReq s i p k).kept = s.kept := by
  unfold State.sendSyncReq
  simp only []; (repeat' split) <;> simp [*]

@[simp] theorem State.transmit_kept (s : State) (i p : Nat) (f : HwFrame) : (State.transmit s i p f).kept = s.kept := by
  unfold State.transmit
  simp [*]

@[simp] theorem State.establish_kept (s : State) (i : Nat) : (State.establish s i).kept = s.kept := by
  simp only [State.establish]
  split
  · rfl
  · refine foldl_kept _ (fun s x => ?_) _ _
    split <;> simp

@[simp] theorem State.pumpN_kept (i : Nat) : ∀ (n : Nat) (s : State), (s.pumpN i n).kept = s.kept
  | 0, s => rfl
  | n + 1, s => by
    unfold State.pumpN
    split
    · rfl
    · simp only []
      split
      · rfl
      · rw [State.pumpN_kept i n]
        simp

@[simp] theorem State.pump_kept (s : State) (i : Nat) : (State.pump s i).kept = s.kept := by
  unfold State.pump
  simp

@[simp] theorem State.pumpAll_kept (s : State) : (State.pumpAll s).kept = s.kept := by
  unfold State.pumpAll
  simp

@[simp] theorem State.enqueue_kept (s : State) (i : Nat) (fs : List HwFrame) : (State.enqueue s i fs).kept = s.kept := by
  unfold State.enqueue
  simp

@[simp] theorem State.mark_kept (s : State) (id label v : Nat) : (State.mark s id label v).kept = s.kept := by
  rfl

@[simp] theorem State.losePeer_kept (s : State) (i : Nat) : (State.losePeer s i).kept = s.kept := by
  simp only [State.losePeer, State.bump_kept]
  refine (foldl_kept _ (fun s x => ?_) _ _).trans (by simp)
  split <;> simp

@[simp] theorem State.losePath_kept (s : State) (i p : Nat) : (State.losePath s i p).kept = s.kept := by
  unfold State.losePath
  simp only []; (repeat' split) <;> simp [*]

@[simp] theorem State.acknowledge_kept (s : State) (i p : Nat) (a : BitVec 24) : (State.acknowledge s i p a).kept = s.kept := by
  unfold State.acknowledge
  simp only []; (repeat' split) <;> simp [*]

@[simp] theorem State.resendAfter_kept (s : State) (i p : Nat) (a : BitVec 24) : (State.resendAfter s i p a).kept = s.kept := by
  simp only [State.resendAfter, State.bump_kept]
  exact foldl_kept _ (fun s x => by simp) _ _

@[simp] theorem State.resendAll_kept (s : State) (i p : Nat) : (State.resendAll s i p).kept = s.kept := by
  unfold State.resendAll
  (repeat' split) <;> simp

@[simp] theorem State.onFrame_kept (s : State) (p : Nat) (f : HwFrame) (type : BitVec 4) (body : State → Nat → State)
    (h : ∀ s i, (body s i).kept = s.kept) : (s.onFrame p f type body).kept = s.kept := by
  unfold State.onFrame
  split
  · rfl
  · split
    · simp
    · split <;> simp [h]

@[simp] theorem State.endHawser_kept (s : State) (o : Op) (code va : Nat) : (State.endHawser s o code va).kept = s.kept := by
  unfold State.endHawser
  (repeat' split) <;> simp

@[simp] theorem State.hawserXlate_kept (s : State) (o : Op) (f : XfKind × Nat) : (State.hawserXlate s o f).kept = s.kept := by
  unfold State.hawserXlate
  simp

@[simp] theorem State.settlePut_kept (s : State) (o : Op) : (State.settlePut s o).kept = s.kept := by
  unfold State.settlePut
  (repeat' split) <;> simp

@[simp] theorem State.message_kept (s : State) (i : Nat) (kind : BitVec 8) (base : HwFrame → HwFrame)
    (ps : List (Nat × List LineIn)) : (s.message i kind base ps).1.kept = s.kept := by
  simp [State.message]

@[simp] theorem State.sendColl_kept (s : State) (o : Op) (g : Nat) (r : List Byte) (rank : Nat) (kind : BitVec 8) (addr : Reg)
    (ps : List (Nat × List LineIn)) :
    (State.sendColl s o g r rank kind addr ps).kept = s.kept := by
  simp only [State.sendColl]
  split <;> simp

@[simp] theorem State.contributeStep_kept (s : State) (o : Op) (r : List Byte) :
    (State.contributeStep s o r).kept = s.kept := by
  simp only [State.contributeStep]
  split
  · rfl
  · simp
  · refine (foldl_kept _ (fun s x => ?_) _ _).trans (by simp)
    split
    · rfl
    · split <;> split <;> simp

@[simp] theorem State.stepDone_kept (s : State) (g : Nat) (n : Word) : (State.stepDone s g n).kept = s.kept := by
  rfl

@[simp] theorem State.discardContribs_kept (s : State) (cs : List Contrib) : (State.discardContribs s cs).kept = s.kept := rfl

@[simp] theorem State.applyClose_kept (s : State) (g : Nat) (r : List Byte) (c : CollStep) (k : Close) :
    (State.applyClose s g r c k).kept = s.kept := by
  have hd : ∀ (d : Data) (cs : List Contrib), (({ s with dp := d } : State).discardContribs cs).kept = s.kept := fun _ _ => rfl
  unfold State.applyClose
  simp only []
  (repeat' split) <;> simp [hd]

@[simp] theorem State.tryApply_kept (s : State) (g : Nat) (n : Word) : (State.tryApply s g n).kept = s.kept := by
  unfold State.tryApply
  (repeat' split) <;> simp

@[simp] theorem State.closeStep_kept (s : State) (g : Nat) (r : List Byte) (c : CollStep) :
    (State.closeStep s g r c).kept = s.kept := by
  simp only [State.closeStep, State.tryApply_kept]
  refine (foldl_kept _ (fun s x => ?_) _ _).trans (by simp)
  split <;> simp

@[simp] theorem State.tryClose_kept (s : State) (g : Nat) (n : Word) : (State.tryClose s g n).kept = s.kept := by
  unfold State.tryClose
  simp only []; (repeat' split) <;> simp [*]

@[simp] theorem State.addReady_kept (s : State) (g : Nat) (n : Word) (rank : Nat) :
    (State.addReady s g n rank).kept = s.kept := by
  unfold State.addReady
  simp

@[simp] theorem State.sendReady_kept (s : State) (o : Op) (r : List Byte) (g : Nat) (n : Word) :
    (State.sendReady s o r g n).kept = s.kept := by
  unfold State.sendReady
  simp only []; (repeat' split) <;> simp [*]

@[simp] theorem State.completeReduce_kept (s : State) (o : Op) (g : Nat) (c : CollStep) :
    (State.completeReduce s o g c).kept = s.kept := by
  unfold State.completeReduce
  simp only []; (repeat' split) <;> simp [*]

@[simp] theorem State.settleReduce_kept (s : State) (o : Op) : (State.settleReduce s o).kept = s.kept := by
  unfold State.settleReduce
  simp only []; (repeat' split) <;> simp [*]

theorem State.ferryFails_kept (s t : State) (o : Op) (code : Nat) (f : Option (XfKind × Nat)) (h : s.ferryFails o code f = some t) :
    t.kept = s.kept := by
  simp only [State.ferryFails] at h
  repeat' split at h
  all_goals first | (cases h; done) | (cases h; simp)

@[simp] theorem State.ferryFails_getD_kept (s : State) (o : Op) (code : Nat) (f : Option (XfKind × Nat)) :
    ((s.ferryFails o code f).getD s).kept = s.kept := by
  cases e : s.ferryFails o code f with
  | none => rfl
  | some t => exact State.ferryFails_kept _ _ _ _ _ e

@[simp] theorem State.sendFree_kept (s : State) (o : Op) (r : List Byte) (f : Ferry) (buf : Nat) :
    (State.sendFree s o r f buf).kept = s.kept := by
  unfold State.sendFree
  simp

@[simp] theorem State.setFerry_kept (s : State) (g : Nat) (f : Ferry) : (State.setFerry s g f).kept = s.kept := by
  rfl

theorem State.ferryEnds_kept (s t : State) (o : Op) (f : Ferry) (h : s.ferryEnds o f = some t) : t.kept = s.kept := by
  simp only [State.ferryEnds] at h
  split at h
  · cases h
  · exact (State.ferryFails_kept _ _ _ _ _ h).trans rfl
  · cases h
    simp

theorem State.ferryOne_kept (s t : State) (o : Op) (r : List Byte) (f : Ferry) (h : s.ferryOne o r f = some t) :
    t.kept = s.kept := by
  simp only [State.ferryOne] at h
  repeat' split at h
  all_goals first
    | (cases h; done)
    | exact State.ferryEnds_kept _ _ _ _ h
    | exact (State.ferryFails_kept _ _ _ _ _ h).trans rfl
    | (cases h; simp)

@[simp] theorem State.ferryRun_kept (o : Op) (r : List Byte) : ∀ (n : Nat) (s : State), (s.ferryRun o r n).kept = s.kept
  | 0, s => rfl
  | n + 1, s => by
    unfold State.ferryRun
    split
    · rfl
    · split
      · rfl
      · split
        · rfl
        · rename_i e
          exact (State.ferryRun_kept o r n _).trans (State.ferryOne_kept _ _ _ _ _ e)

@[simp] theorem State.settleFerry_kept (s : State) (o : Op) : (State.settleFerry s o).kept = s.kept := by
  simp only [State.settleFerry]
  (repeat' split) <;> simp

@[simp] theorem State.applyCloses_kept (s : State) (g : Nat) : (State.applyCloses s g).kept = s.kept :=
  foldl_kept _ (fun s x => by simp) _ _

@[simp] theorem State.settleHawser_kept (s : State) : (State.settleHawser s).kept = s.kept := by
  simp only [State.settleHawser]
  refine (foldl_kept _ (fun s x => ?_) _ _).trans (by simp)
  (repeat' split) <;> simp

@[simp] theorem State.hawserOn_kept (s : State) : (State.hawserOn s).kept = s.kept := by
  unfold State.hawserOn
  simp

@[simp] theorem State.stage_kept (s : State) (i p : Nat) (f : HwFrame) : (State.stage s i p f).kept = s.kept := by
  unfold State.stage
  simp only []; (repeat' split) <;> simp [*]

@[simp] theorem State.rxData_kept (s : State) (p : Nat) (f : HwFrame) (i : Nat) : (State.rxData s p f i).kept = s.kept := by
  unfold State.rxData
  simp only []; (repeat' split) <;> simp [*]

@[simp] theorem State.placed_kept (s : State) (i p : Nat) : (State.placed s i p).kept = s.kept := by
  unfold State.placed
  simp only []; (repeat' split) <;> simp [*]

@[simp] theorem State.closePut_kept (s : State) (i : Nat) (f : HwFrame) (refused : Bool) :
    (State.closePut s i f refused).kept = s.kept := by
  unfold State.closePut
  simp only []; (repeat' split) <;> simp [*]

@[simp] theorem State.dropContrib_kept (s : State) (i : Nat) (f : HwFrame) : (State.dropContrib s i f).kept = s.kept := by
  unfold State.dropContrib
  simp only []; (repeat' split) <;> simp [*]

@[simp] theorem State.rxNak_kept (s : State) (p : Nat) (f : HwFrame) (i : Nat) : (State.rxNak s p f i).kept = s.kept := by
  unfold State.rxNak
  (repeat' split) <;> simp

@[simp] theorem State.timeout_kept (s : State) (i p : Nat) : (State.timeout s i p).kept = s.kept := by
  unfold State.timeout
  simp only []; (repeat' split) <;> simp [*]

@[simp] theorem State.unstage_kept (s : State) (i : Nat) (is_ : HwFrame → Bool) : (State.unstage s i is_).kept = s.kept := by
  rfl

@[simp] theorem State.abandonPuts_kept (s : State) (i : Nat) : (State.abandonPuts s i).kept = s.kept := by
  unfold State.abandonPuts
  refine foldl_kept _ (fun s x => ?_) _ _
  simp only []
  split <;> simp

@[simp] theorem State.abandonContribs_kept (s : State) (i g : Nat) : (State.abandonContribs s i g).kept = s.kept := by
  unfold State.abandonContribs
  split
  · rfl
  · split
    · rfl
    · refine foldl_kept _ (fun s x => ?_) _ _
      extract_lets is_ a
      split
      · rfl
      · simp [a]

@[simp] theorem State.abandonBlocks_kept (s : State) (i g : Nat) : (State.abandonBlocks s i g).kept = s.kept := by
  unfold State.abandonBlocks
  split
  · split
    · refine foldl_kept _ (fun s x => ?_) _ _
      simp only []
      split <;> simp
    · rfl
  · rfl

@[simp] theorem State.abandon_kept (s : State) (i : Nat) : (State.abandon s i).kept = s.kept := by
  unfold State.abandon
  simp

@[simp] theorem State.rxSyncReq_kept (s : State) (p : Nat) (f : HwFrame) (i : Nat) :
    (State.rxSyncReq s p f i).kept = s.kept := by
  unfold State.rxSyncReq
  simp only []; (repeat' split) <;> simp [*]

@[simp] theorem State.established_kept (s : State) (i p : Nat) (epoch : Byte) :
    (State.established s i p epoch).kept = s.kept := by
  rfl

@[simp] theorem State.settleLost_kept (s : State) (i k : Nat) (a : BitVec 24) : (State.settleLost s i k a).kept = s.kept := by
  rfl

@[simp] theorem State.rxSyncRsp_kept (s : State) (p : Nat) (f : HwFrame) (i : Nat) :
    (State.rxSyncRsp s p f i).kept = s.kept := by
  unfold State.rxSyncRsp
  simp only []; (repeat' split) <;> simp [*]

@[simp] theorem State.peerReset_kept (s : State) (i : Nat) : (State.peerReset s i).kept = s.kept := by
  unfold State.peerReset
  (repeat' split) <;> simp

@[simp] theorem State.train_kept (s : State) (p : Nat) : (State.train s p).kept = s.kept := by
  rfl

@[simp] theorem State.losePaths_kept (s : State) (p : Nat) : (State.losePaths s p).kept = s.kept := by
  unfold State.losePaths
  simp

@[simp] theorem State.leave_kept (s : State) (p : Nat) (st : PortState) : (State.leave s p st).kept = s.kept := by
  unfold State.leave
  simp

@[simp] theorem State.portDown_kept (s : State) (p : Nat) : (State.portDown s p).kept = s.kept := by
  unfold State.portDown
  simp

@[simp] theorem State.portEnable_kept (s : State) (p : Nat) : (State.portEnable s p).kept = s.kept := by
  unfold State.portEnable
  simp only []; (repeat' split) <;> simp [*]

@[simp] theorem State.portDisable_kept (s : State) (p : Nat) : (State.portDisable s p).kept = s.kept := by
  unfold State.portDisable
  simp only []; (repeat' split) <;> simp [*]

@[simp] theorem State.portRetrain_kept (s : State) (p : Nat) : (State.portRetrain s p).kept = s.kept := by
  unfold State.portRetrain
  (repeat' split) <;> simp

@[simp] theorem State.writeHwCfg_kept (s : State) (v : Nat) : (State.writeHwCfg s v).kept = s.kept := by
  unfold State.writeHwCfg
  simp only []; (repeat' split) <;> simp [*]

@[simp] theorem State.writeHwTiming_kept (s : State) (v : Nat) : (State.writeHwTiming s v).kept = s.kept := by
  rfl

@[simp] theorem State.writeHwGroup_kept (s : State) (g v : Nat) : (State.writeHwGroup s g v).kept = s.kept := by
  unfold State.writeHwGroup
  simp only []; (repeat' split) <;> simp [*]

@[simp] theorem State.writePeerMac_kept (s : State) (i v : Nat) : (State.writePeerMac s i v).kept = s.kept := by
  unfold State.writePeerMac
  simp only []; (repeat' split) <;> simp [*]

@[simp] theorem State.writePeerCfg_kept (s : State) (i v : Nat) (reset : Bool) :
    (State.writePeerCfg s i v reset).kept = s.kept := by
  unfold State.writePeerCfg
  simp only []; (repeat' split) <;> simp [*]

@[simp] theorem State.writeHawser_kept (s : State) (off : Nat) (v mask : Reg) :
    (State.writeHawser s off v mask).kept = s.kept := by
  unfold State.writeHawser
  simp only []; (repeat' split) <;> simp [*]

@[simp] theorem State.writePortCtl_kept (s : State) (p : Nat) (v mask : Reg) :
    (State.writePortCtl s p v mask).kept = s.kept := by
  unfold State.writePortCtl
  simp only []; (repeat' split) <;> simp [*]

@[simp] theorem State.mbxReport_kept (s : State) (m : Byte) (c code : Nat) : (State.mbxReport s m c code).kept = s.kept := by
  unfold State.mbxReport
  simp only []; (repeat' split) <;> simp [*]

@[simp] theorem State.busError_kept (s : State) (m : Byte) : (State.busError s m).kept = s.kept := by
  unfold State.busError
  split <;> rfl

@[simp] theorem State.mbxOff_kept (s : State) (m : Byte) (c : Nat) : (State.mbxOff s m c).kept = s.kept := by
  unfold State.mbxOff
  try simp only []
  simp [*]

@[simp] theorem State.mbxReject_kept (s : State) (m : Byte) (c : Nat) : (State.mbxReject s m c).kept = s.kept := by
  unfold State.mbxReject
  try simp only []
  simp [*]

@[simp] theorem State.mbxDeny_kept (s : State) (m : Byte) : (State.mbxDeny s m).kept = s.kept := by
  unfold State.mbxDeny
  simp

@[simp] theorem State.notifyAgent_kept (s : State) (n : Notice) : (State.notifyAgent s n).kept = s.kept := by
  unfold State.notifyAgent
  simp only []; (repeat' split) <;> simp [*]

@[simp] theorem State.notifyParty_kept (s : State) (m : Byte) (c : Nat) (full : Bool) :
    (State.notifyParty s m c full).kept = s.kept := by
  unfold State.notifyParty
  simp only []; (repeat' split) <;> simp [*]

@[simp] theorem State.deliverWaiting_kept (s : State) (x : Nat) : (State.deliverWaiting s x).kept = s.kept := by
  simp only [State.deliverWaiting]
  refine (foldl_kept _ (fun s x => ?_) _ _).trans (by simp)
  simp

@[simp] theorem State.writeMsg_kept (s : State) (m : Byte) (c w : Nat) (v mask : Reg) :
    (State.writeMsg s m c w v mask).kept = s.kept := by
  unfold State.writeMsg
  (repeat' split) <;> simp

@[simp] theorem State.sendMsg_kept (s : State) (c : Nat) : (State.sendMsg s c).kept = s.kept := by
  unfold State.sendMsg
  simp

@[simp] theorem State.ackMsg_kept (s : State) (c : Nat) : (State.ackMsg s c).kept = s.kept := by
  unfold State.ackMsg
  simp

@[simp] theorem State.writeMbxCtl_kept (s : State) (m : Byte) (c : Nat) (v mask : Reg) :
    (State.writeMbxCtl s m c v mask).kept = s.kept := by
  unfold State.writeMbxCtl
  simp only []; (repeat' split) <;> simp [*]

@[simp] theorem State.acquire_kept (s : State) (m : Byte) (c : Nat) (peer : Byte) :
    (State.acquire s m c peer).kept = s.kept := by
  unfold State.acquire
  (repeat' split) <;> simp

@[simp] theorem State.unlock_kept (s : State) (m : Byte) (c : Nat) : (State.unlock s m c).kept = s.kept := by
  unfold State.unlock
  simp only []; (repeat' split) <;> simp [*]

@[simp] theorem State.bindChannels_kept (s : State) (bs : List (Nat × Bind)) : (State.bindChannels s bs).kept = s.kept := by
  simp only [State.bindChannels]
  have h : ∀ (l : List (Nat × Bind)) (s : State), (l.foldl (fun s x => s.updChan x.2.channel.toNat
      fun k => { k with sender := x.2.sender, receiver := x.2.receiver }) s).kept = s.kept :=
    fun l s => foldl_kept _ (fun s x => by simp) l s
  split <;> simp [h]

@[simp] theorem State.settleTuner_kept (s : State) : (State.settleTuner s).kept = s.kept := by
  unfold State.settleTuner
  simp only []; (repeat' split) <;> simp [*]

@[simp] theorem State.commitInst_kept (s : State) (o : Op) (i : Inst) : (State.commitInst s o i).kept = s.kept := by
  unfold State.commitInst
  simp only []; (repeat' split) <;> simp [*]

@[simp] theorem State.commitOp_kept (s : State) (o : Op) : (State.commitOp s o).kept = s.kept := by
  unfold State.commitOp
  simp

@[simp] theorem State.commitSlot_kept (s : State) (v : Nat) : (State.commitSlot s v).kept = s.kept := by
  unfold State.commitSlot
  simp

@[simp] theorem State.squashOp_kept (s : State) (o : Op) : (State.squashOp s o).kept = s.kept := by
  unfold State.squashOp
  simp only []; (repeat' split) <;> simp [*]

@[simp] theorem State.squashSlot_kept (s : State) (v : Nat) : (State.squashSlot s v).kept = s.kept := by
  unfold State.squashSlot
  simp

@[simp] theorem State.extraSignal_kept (s : State) (o : Op) (n inc : Nat) : (State.extraSignal s o n inc).kept = s.kept := by
  unfold State.extraSignal
  (repeat' split) <;> simp

@[simp] theorem State.giveVerdict_kept (s : State) (o : Op) (rerun : Bool) (why : Nat) :
    (State.giveVerdict s o rerun why).kept = s.kept := by
  unfold State.giveVerdict
  simp only []; (repeat' split) <;> simp [*]

@[simp] theorem State.writeTunerCtl_kept (s : State) (on : Bool) : (State.writeTunerCtl s on).kept = s.kept := by
  unfold State.writeTunerCtl
  simp only []; (repeat' split) <;> simp [*]

@[simp] theorem State.loadHost_kept (s : State) (q : Nat) (img : List Byte) : (State.loadHost s q img).kept = s.kept := by
  unfold State.loadHost
  simp

@[simp] theorem State.loadSingles_kept (s : State) (img : List Byte) : (State.loadSingles s img).kept = s.kept := by
  unfold State.loadSingles
  simp

@[simp] theorem State.loadBlocks_kept (s : State) (img : List Byte) : (State.loadBlocks s img).kept = s.kept := by
  unfold State.loadBlocks
  simp

@[simp] theorem State.rebuildSlots_kept (s : State) : (State.rebuildSlots s).kept = s.kept := by
  simp only [State.rebuildSlots]
  refine (foldl_kept _ (fun s x => ?_) _ _).trans (by simp)
  (repeat' split) <;> simp

@[simp] theorem State.loadSeq_kept (s : State) (img : List Byte) (off : Nat) : (State.loadSeq s img off).kept = s.kept := by
  rfl

@[simp] theorem State.headMoved_kept (s : State) (q : Nat) : (State.headMoved s q).kept = s.kept := by
  unfold State.headMoved
  simp only []; (repeat' split) <;> simp [*]

@[simp] theorem State.headsLoaded_kept (s old : State) : (State.headsLoaded s old).kept = s.kept := by
  unfold State.headsLoaded
  refine foldl_kept _ (fun s x => ?_) _ _
  split <;> simp

@[simp] theorem State.loadContext_kept (s : State) (q : Nat) (h img : List Byte) :
    (State.loadContext s q h img).kept = s.kept := by
  unfold State.loadContext
  simp only []; (repeat' split) <;> simp [*]

@[simp] theorem State.advance_kept (s : State) (q : Nat) : (State.advance s q).kept = s.kept := by
  unfold State.advance
  simp

@[simp] theorem State.doorbell_kept (s : State) (q : Nat) (t : Word) : (State.doorbell s q t).kept = s.kept := by
  unfold State.doorbell
  (repeat' split) <;> simp

@[simp] theorem State.fetchAbort_kept (s : State) (q : Nat) (index : Word) : (State.fetchAbort s q index).kept = s.kept := by
  unfold State.fetchAbort
  simp

@[simp] theorem State.refuseHead_kept (s : State) (q : Nat) (d : List Byte) (sig code : Nat) :
    (State.refuseHead s q d sig code).kept = s.kept := by
  unfold State.refuseHead
  simp

@[simp] theorem State.headerStep_kept (s : State) (q : Nat) : (State.headerStep s q).kept = s.kept := by
  unfold State.headerStep
  simp only []; (repeat' split) <;> simp [*]

@[simp] theorem State.arm_kept (s : State) (q : Nat) (d : List Byte) : (State.arm s q d).kept = s.kept := by
  rfl

@[simp] theorem State.armStep_kept (s : State) (q : Nat) : (State.armStep s q).kept = s.kept := by
  unfold State.armStep
  simp only []; (repeat' split) <;> simp [*]

@[simp] theorem State.serve_kept (s : State) (q : Nat) (d : List Byte) : (State.serve s q d).kept = s.kept := by
  unfold State.serve
  simp only []; (repeat' split) <;> simp [*]

@[simp] theorem State.takeHead_kept (s : State) (q : Nat) (h : Head) : (State.takeHead s q h).kept = s.kept := by
  unfold State.takeHead
  (repeat' split) <;> simp

@[simp] theorem State.refuseInsts_kept (s : State) (q : Nat) (h : Head) (p : Plan) :
    (State.refuseInsts s q h p).kept = s.kept := by
  unfold State.refuseInsts
  simp

@[simp] theorem State.start_kept (s : State) (q : Nat) (h : Head) (p : Plan) (ahead : Option Nat) :
    (State.start s q h p ahead).kept = s.kept := by
  unfold State.start
  simp only []; (repeat' split) <;> simp [*]

@[simp] theorem State.refuse_kept (s : State) (q : Nat) (h : Head) (code va : Nat) :
    (State.refuse s q h code va).kept = s.kept := by
  unfold State.refuse
  simp

theorem State.launch_kept (s t : State) (q : Nat) (h : Head) (e : s.launch q h = some t) : t.kept = s.kept := by
  simp only [State.launch] at e
  repeat' split at e
  all_goals first | (cases e; done) | (cases e; simp; done)

@[simp] theorem State.changeCourses_kept (s : State) (b : Bool) (code : BitVec 3) :
    (s.changeCourses b code).1.kept = s.kept := by
  simp only [State.changeCourses]
  (repeat' split) <;> simp

@[simp] theorem State.dispatchStep_kept (s : State) (q : Nat) : (State.dispatchStep s q).kept = s.kept := by
  unfold State.dispatchStep
  split
  · rfl
  · rename_i h _
    split
    · rfl
    · split
      · cases e : s.launch q h with
        | none => rfl
        | some t => exact State.launch_kept _ _ _ _ e
      · rename_i b code _
        have hc := State.changeCourses_kept s b code
        split
        · cases e : s.launch q h with
          | none => rfl
          | some t => exact State.launch_kept _ _ _ _ e
        · split
          · rename_i s' e
            rw [e] at hc
            cases e2 : s'.launch q h with
            | none => rfl
            | some t => exact (State.launch_kept _ _ _ _ e2).trans hc
          · rename_i s' e
            rw [e] at hc
            exact hc

theorem State.aheadLaunch_kept (s t : State) (q : Nat) (h : Head) (v : Nat) (e : s.aheadLaunch q h v = some t) :
    t.kept = s.kept := by
  simp only [State.aheadLaunch] at e
  repeat' split at e
  all_goals first | (cases e; done) | (cases e; simp; done)

@[simp] theorem State.aheadStep_kept (s : State) (q : Nat) : (State.aheadStep s q).kept = s.kept := by
  unfold State.aheadStep
  split
  · rfl
  · rename_i h _
    split
    · rfl
    · rename_i v _
      split
      · rfl
      · split
        · rfl
        · rename_i t e
          split
          · exact State.aheadLaunch_kept _ _ _ _ _ e
          · rename_i b code _
            have hc := State.changeCourses_kept s b code
            split
            · rename_i s' e1
              rw [e1] at hc
              cases e2 : s'.aheadLaunch q h v with
              | none => rfl
              | some t => exact (State.aheadLaunch_kept _ _ _ _ _ e2).trans hc
            · rename_i s' e1
              rw [e1] at hc
              exact hc

@[simp] theorem State.skipStep_kept (s : State) (q : Nat) : (State.skipStep s q).kept = s.kept := by
  unfold State.skipStep
  simp only []; (repeat' split) <;> simp [*]

@[simp] theorem State.afterOp_kept (s : State) : (State.afterOp s).kept = s.kept := by
  unfold State.afterOp
  simp

@[simp] theorem State.completionStep_kept (s : State) (id n : Nat) : (State.completionStep s id n).kept = s.kept := by
  unfold State.completionStep
  (repeat' split) <;> simp

@[simp] theorem State.cntAdd_kept (s : State) (n : Nat) (amount : Word) : (State.cntAdd s n amount).kept = s.kept := by
  unfold State.cntAdd
  simp

@[simp] theorem State.cntSet_kept (s : State) (n : Nat) (amount : Word) : (State.cntSet s n amount).kept = s.kept := by
  unfold State.cntSet
  simp

@[simp] theorem State.writeQCfg_kept (s : State) (q : Nat) (v mask : Reg) : (State.writeQCfg s q v mask).kept = s.kept := by
  unfold State.writeQCfg
  simp only []; (repeat' split) <;> simp [*]

@[simp] theorem State.writeQBase_kept (s : State) (q : Nat) (v mask : Reg) : (State.writeQBase s q v mask).kept = s.kept := by
  unfold State.writeQBase
  simp only []; (repeat' split) <;> simp [*]

@[simp] theorem State.writeQWb_kept (s : State) (q : Nat) (v mask : Reg) : (State.writeQWb s q v mask).kept = s.kept := by
  rfl

@[simp] theorem State.clusterOn_kept (s : State) (x : Nat) (seeds : Bool) : (State.clusterOn s x seeds).kept = s.kept := by
  unfold State.clusterOn
  simp only []; (repeat' split) <;> simp [*]

@[simp] theorem State.emptyLanes_kept (s : State) (x : Nat) : (State.emptyLanes s x).kept = s.kept := by
  unfold State.emptyLanes
  refine foldl_kept _ (fun s x => ?_) _ _
  simp only []
  split <;> simp

@[simp] theorem State.stackUp_kept (s : State) (x : Nat) : (State.stackUp s x).kept = s.kept := by
  unfold State.stackUp
  simp

@[simp] theorem State.comeOn_kept (s : State) (x : Nat) (seeds : Bool) : (State.comeOn s x seeds).kept = s.kept := by
  unfold State.comeOn
  simp only []; (repeat' split) <;> simp [*]

@[simp] theorem State.powerOff_kept (s : State) : (State.powerOff s).kept = s.kept := by
  rfl

@[simp] theorem State.shutdown_kept (s : State) (c : Shutdown) : (State.shutdown s c).kept = s.kept := by
  unfold State.shutdown
  simp only []; (repeat' split) <;> simp [*]

@[simp] theorem State.setCounts_kept (s : State) (c : Tab Word) : (State.setCounts s c).kept = s.kept := by
  rfl

@[simp] theorem State.countSupply_kept (s : State) (sub : Nat) : (State.countSupply s sub).kept = s.kept := by
  rfl

@[simp] theorem State.lastEvent_kept (s : State) (k : Nat) (start dur : Reg) (ext : Word) :
    (State.lastEvent s k start dur ext).kept = s.kept := by
  rfl

@[simp] theorem State.beginEvent_kept (s : State) (k : Nat) (ext : Word) : (State.beginEvent s k ext).kept = s.kept := by
  rfl

@[simp] theorem State.relog_kept (s : State) (c : Relog) : (State.relog s c).kept = s.kept := by
  unfold State.relog
  simp only []
  split <;> rfl

@[simp] theorem State.endEvent_kept (s : State) (k : Nat) : (State.endEvent s k).kept = s.kept := by
  unfold State.endEvent
  split
  · rfl
  · exact (State.relog_kept _ _).trans rfl

@[simp] theorem State.deepen_kept (s : State) (k : Nat) (f : Word → Word) : (State.deepen s k f).kept = s.kept := by
  unfold State.deepen
  simp only []; (repeat' split) <;> simp [*]

@[simp] theorem State.dipToDropout_kept (s : State) (e : SupplyEv) (mean : Word) :
    (State.dipToDropout s e mean).kept = s.kept := by
  exact (State.relog_kept _ _).trans rfl

@[simp] theorem State.inhibitBelow_kept (s : State) (mean : Word) :
    (State.inhibitBelow s mean).kept = s.kept := by
  unfold State.inhibitBelow
  simp only []; (repeat' split) <;> simp [*]

@[simp] theorem State.countDip_kept (s : State) (mean : Word) : (State.countDip s mean).kept = s.kept := by
  unfold State.countDip
  simp only []; (repeat' split) <;> simp [*]

@[simp] theorem State.noteMean_kept (s : State) (mean : Word) : (State.noteMean s mean).kept = s.kept := rfl

@[simp] theorem State.beginDip_kept (s : State) (mean : Word) : (State.beginDip s mean).kept = s.kept := by
  unfold State.beginDip
  simp only []; (repeat' split) <;> simp [*]

@[simp] theorem State.beginDropout_kept (s : State) (mean : Word) : (State.beginDropout s mean).kept = s.kept := by
  unfold State.beginDropout
  simp only []; (repeat' split) <;> simp [*]

@[simp] theorem State.beginSwell_kept (s : State) (mean : Word) : (State.beginSwell s mean).kept = s.kept := by
  unfold State.beginSwell
  (repeat' split) <;> simp

@[simp] theorem State.beginOverstress_kept (s : State) (mean : Word) : (State.beginOverstress s mean).kept = s.kept := by
  unfold State.beginOverstress
  simp only []; (repeat' split) <;> simp [*]

@[simp] theorem State.beginAuxLoss_kept (s : State) (mean : Word) : (State.beginAuxLoss s mean).kept = s.kept := by
  unfold State.beginAuxLoss
  simp only []; (repeat' split) <;> simp [*]

@[simp] theorem State.endSwell_kept (s : State) (mean : Word) : (State.endSwell s mean).kept = s.kept := by
  unfold State.endSwell
  (repeat' split) <;> simp

@[simp] theorem State.retarget_kept (s : State) : (State.retarget s).kept = s.kept := by
  unfold State.retarget
  simp only []; (repeat' split) <;> simp [*]

@[simp] theorem State.releaseDone_kept (s : State) : (State.releaseDone s).kept = s.kept := by
  unfold State.releaseDone
  simp only []; (repeat' split) <;> simp [*]

@[simp] theorem State.capsChanged_kept (s : State) : (State.capsChanged s).kept = s.kept := by
  unfold State.capsChanged
  simp only []; (repeat' split) <;> simp [*]

@[simp] theorem State.writePowerCap_kept (s : State) (v : Word) : (State.writePowerCap s v).kept = s.kept := by
  unfold State.writePowerCap
  simp

@[simp] theorem State.writeCapEnable_kept (s : State) (on : Bool) : (State.writeCapEnable s on).kept = s.kept := by
  unfold State.writeCapEnable
  simp only []; (repeat' split) <;> simp [*]

@[simp] theorem State.setLimits_kept (s : State) (mean : Word) (envelope : Bool) :
    (State.setLimits s mean envelope).kept = s.kept := by
  rfl

@[simp] theorem State.noteHigh_kept (s : State) (pIn : Word) : (State.noteHigh s pIn).kept = s.kept := by
  unfold State.noteHigh
  simp only []; (repeat' split) <;> simp [*]

@[simp] theorem State.rearm_kept (s : State) : (State.rearm s).kept = s.kept := by
  rfl

@[simp] theorem State.logThermal_kept (s : State) (die : Nat) (t : Word) : (State.logThermal s die t).kept = s.kept := by
  rfl

@[simp] theorem State.trip_kept (s : State) (die : Nat) (t : Word) : (State.trip s die t).kept = s.kept := by
  unfold State.trip
  (repeat' split) <;> simp

@[simp] theorem State.alarmOf_kept (s : State) (die : Nat) (t : Word) : (State.alarmOf s die t).kept = s.kept := by
  unfold State.alarmOf
  simp only []; (repeat' split) <;> simp [*]

@[simp] theorem State.setThrottle_kept (s : State) (v : BitVec 2) : (State.setThrottle s v).kept = s.kept := by
  rfl

@[simp] theorem State.wake_kept (s : State) (x : Nat) : (State.wake s x).kept = s.kept := by
  unfold State.wake
  simp

@[simp] theorem State.request_kept (s : State) (x : Nat) (req : BitVec 2) : (State.request s x req).kept = s.kept := by
  unfold State.request
  simp only []; (repeat' split) <;> simp [*]

@[simp] theorem State.requestOff_kept (s : State) (x : Nat) : (State.requestOff s x).kept = s.kept := by
  rfl

@[simp] theorem State.writeReq_kept (s : State) (x : Nat) (v : BitVec 2) : (State.writeReq s x v).kept = s.kept := by
  unfold State.writeReq
  simp only []; (repeat' split) <;> simp [*]

@[simp] theorem State.endDomWait_kept (s : State) (x : Nat) (seeds : Bool) : (State.endDomWait s x seeds).kept = s.kept := by
  unfold State.endDomWait
  simp only []; (repeat' split) <;> simp [*]

@[simp] theorem State.domainsOff_kept (s : State) : (State.domainsOff s).kept = s.kept := by
  rfl

@[simp] theorem State.halt_kept (s : State) (reason : Nat) : (State.halt s reason).kept = s.kept := by
  rfl

@[simp] theorem State.useManifest_kept (s : State) (m : List Byte) : (State.useManifest s m).kept = s.kept := by
  rfl

@[simp] theorem State.logInline_kept (s : State) (m : List Byte) : (State.logInline s m).kept = s.kept := by
  unfold State.logInline
  (repeat' split) <;> simp

@[simp] theorem State.logManifests_kept (s : State) : (State.logManifests s).kept = s.kept := by
  unfold State.logManifests
  simp only []; (repeat' split) <;> simp [*]

@[simp] theorem State.stackStage_kept (s : State) : (State.stackStage s).kept = s.kept := by
  unfold State.stackStage
  refine foldl_kept _ (fun s x => ?_) _ _
  split <;> simp

@[simp] theorem State.logApplied_kept (s : State) (e : List Byte) : (State.logApplied s e).kept = s.kept := by
  rfl

@[simp] theorem State.mapStage_kept (s : State) (bad : List Nat) : (State.mapStage s bad).kept = s.kept := by
  have h4 : ∀ (l1 : List (List Byte)) (l2 l3 : List (List Byte)) (l4 : List (Nat × Nat)) (s : State),
      (l4.foldl (fun s z => s.logEvent Log.clusterBistFail 0 (2 ^ 16 * (z.1 / 208) + z.1 % 208) z.2)
        (l3.foldl (fun s r => s.logEvent Log.repairRejected 0 (recordSeq r) Why.repair)
          (l2.foldl (fun s r => s.logApplied (recordEntry r)) (l1.foldl State.logApplied s)))).kept = s.kept := by
    intro l1 l2 l3 l4 s
    rw [foldl_kept _ (by intro s z; rfl), foldl_kept _ (by intro s z; rfl), foldl_kept _ (by intro s z; rfl),
      foldl_kept _ (by intro s z; rfl)]
  simp only [State.mapStage]
  split
  · rfl
  · exact h4 _ _ _ _ s

@[simp] theorem State.seedStage_kept (s : State) : (State.seedStage s).kept = s.kept := by
  unfold State.seedStage
  simp only []; (repeat' split) <;> simp [*]

@[simp] theorem State.noteRead_kept (s : State) (i k : Nat) : (State.noteRead s i k).kept = s.kept := by
  unfold State.noteRead
  simp only []; (repeat' split) <;> simp [*]

@[simp] theorem State.answer_kept (s : State) (f : MgmtFrame) (status : Nat) (data : List Byte) :
    (State.answer s f status data).kept = s.kept := by
  rfl

@[simp] theorem State.read_kept (s : State) (f : MgmtFrame) : (State.read s f).kept = s.kept := by
  unfold State.read
  simp only []; (repeat' split) <;> simp [*]

@[simp] theorem State.broadcastRead_kept (s : State) (f : MgmtFrame) : (State.broadcastRead s f).kept = s.kept := by
  unfold State.broadcastRead
  simp only []; (repeat' split) <;> simp [*]

@[simp] theorem State.wrote_kept (s : State) (src : BitVec 48) : (State.wrote s src).kept = s.kept := by
  unfold State.wrote
  simp only []; (repeat' split) <;> simp [*]

@[simp] theorem State.storeCmd_kept (s : State) : (State.storeCmd s).kept = s.kept := by
  unfold State.storeCmd
  simp only []; (repeat' split) <;> simp [*]

@[simp] theorem State.restoreDefaults_kept (s : State) : (State.restoreDefaults s).kept = s.kept := by
  unfold State.restoreDefaults
  simp

@[simp] theorem State.clearExtremes_kept (s : State) : (State.clearExtremes s).kept = s.kept := by
  rfl

@[simp] theorem State.ackLog_kept (s : State) (v : Nat) : (State.ackLog s v).kept = s.kept := by
  rfl

@[simp] theorem State.applyWrite_kept (s : State) (i k v : Nat) : (State.applyWrite s i k v).kept = s.kept := by
  unfold State.applyWrite
  simp only []; (repeat' split) <;> simp [*]

@[simp] theorem State.writeScalar_kept (s : State) (f : MgmtFrame) : (State.writeScalar s f).kept = s.kept := by
  unfold State.writeScalar
  simp only []; (repeat' split) <;> simp [*]

@[simp] theorem State.putXfer_kept (s : State) (t : Transfer) (x : DomainXfer) : (State.putXfer s t x).kept = s.kept := by
  unfold State.putXfer
  simp only []; (repeat' split) <;> simp [*]

@[simp] theorem State.endXfer_kept (s : State) (t : Transfer) (code : Nat) : (State.endXfer s t code).kept = s.kept := by
  unfold State.endXfer
  simp only []; (repeat' split) <;> simp [*]

@[simp] theorem State.received_kept (s : State) (t : Transfer) (x : DomainXfer) (f : MgmtFrame) :
    (State.received s t x f).kept = s.kept := by
  unfold State.received
  simp only []; (repeat' split) <;> simp [*]

@[simp] theorem State.segment_kept (s : State) (t : Transfer) (x : DomainXfer) (f : MgmtFrame) :
    (State.segment s t x f).kept = s.kept := by
  unfold State.segment
  simp only []; (repeat' split) <;> simp [*]

@[simp] theorem State.badSegment_kept (s : State) (t : Transfer) (f : MgmtFrame) : (State.badSegment s t f).kept = s.kept := by
  unfold State.badSegment
  (repeat' split) <;> simp

@[simp] theorem State.takeSegment_kept (s : State) (t : Transfer) (f : MgmtFrame) :
    (State.takeSegment s t f).kept = s.kept := by
  unfold State.takeSegment
  simp only []; (repeat' split) <;> simp [*]

@[simp] theorem State.write_kept (s : State) (f : MgmtFrame) : (State.write s f).kept = s.kept := by
  unfold State.write
  (repeat' split) <;> simp

@[simp] theorem State.resend_kept (s : State) (r : MgmtFrame) : (State.resend s r).kept = s.kept := rfl

@[simp] theorem State.request1_kept (s : State) (f : MgmtFrame) : (State.request1 s f).kept = s.kept := by
  unfold State.request1
  (repeat' split) <;> simp [*]

@[simp] theorem State.broadcastFrame_kept (s : State) (f : MgmtFrame) : (State.broadcastFrame s f).kept = s.kept := by
  unfold State.broadcastFrame
  try simp only []
  (repeat' split) <;> simp [*]

@[simp] theorem State.mgmtFrame_kept (s : State) (f : MgmtFrame) : (State.mgmtFrame s f).kept = s.kept := by
  unfold State.mgmtFrame
  (repeat' split) <;> simp

@[simp] theorem State.writeFrom_kept (s : State) (src : BitVec 48) (tid : BitVec 16) (i k : Nat) (data : List Byte) :
    (State.writeFrom s src tid i k data).kept = s.kept := by
  unfold State.writeFrom
  simp

@[simp] theorem State.activateImage_kept (s : State) : (State.activateImage s).kept = s.kept := by
  rfl

@[simp] theorem State.rejectImage_kept (s : State) (why : Nat) : (State.rejectImage s why).kept = s.kept := by
  rfl

@[simp] theorem State.storeRepair_kept (s : State) (r : List Byte) : (State.storeRepair s r).kept = s.kept := by
  rfl

@[simp] theorem State.endRepair_kept (s : State) (code : Nat) : (State.endRepair s code).kept = s.kept := by
  unfold State.endRepair
  simp only []; (repeat' split) <;> simp [*]

@[simp] theorem State.unmask_kept (s : State) (v : Nat) : (State.unmask s v).kept = s.kept := by
  unfold State.unmask
  simp only []; (repeat' split) <;> simp [*]

@[simp] theorem State.writeVec_kept (s : State) (v h : Nat) (x mask : Reg) : (State.writeVec s v h x mask).kept = s.kept := by
  unfold State.writeVec
  simp only []; (repeat' split) <;> simp [*]

@[simp] theorem State.writeQueue_kept (s : State) (q r : Nat) (v mask : Reg) :
    (State.writeQueue s q r v mask).kept = s.kept := by
  unfold State.writeQueue
  (repeat' split) <;> simp

@[simp] theorem State.writeCntAdd_kept (s : State) (n : Nat) (v mask : Reg) : (State.writeCntAdd s n v mask).kept = s.kept := by
  unfold State.writeCntAdd
  simp only []; (repeat' split) <;> simp [*]

@[simp] theorem State.writeFab_kept (s : State) (bass : Bool) (v mask : Reg) :
    (State.writeFab s bass v mask).kept = s.kept := by
  unfold State.writeFab
  simp

@[simp] theorem State.writeTuner_kept (s : State) (off : Nat) (v mask : Reg) :
    (State.writeTuner s off v mask).kept = s.kept := by
  unfold State.writeTuner
  simp only []; (repeat' split) <;> simp [*]

@[simp] theorem State.writeStow_kept (s : State) (off : Nat) (v mask : Reg) : (State.writeStow s off v mask).kept = s.kept := by
  unfold State.writeStow
  simp only []; (repeat' split) <;> simp [*]

@[simp] theorem State.writeMemory_kept (s : State) (off : Nat) (v mask : Reg) :
    (State.writeMemory s off v mask).kept = s.kept := by
  unfold State.writeMemory
  simp only []; (repeat' split) <;> simp [*]

@[simp] theorem State.writeMark_kept (s : State) (x w : Nat) : (State.writeMark s x w).kept = s.kept := by
  rfl

theorem ite_kept (c : Prop) [Decidable c] {a b s : State} (ha : a.kept = s.kept) (hb : b.kept = s.kept) :
    (if c then a else b).kept = s.kept := by
  split <;> assumption

@[simp] theorem State.writeSeq_kept (s : State) (off : Nat) (v mask : Reg) : (State.writeSeq s off v mask).kept = s.kept := by
  unfold State.writeSeq
  refine ite_kept _ rfl (ite_kept _ (Eq.trans (b := (s.pending, s.boot.counters, s.pwr.dies)) rfl rfl) (ite_kept _ (State.writeKey_kept _ _ _)
      (ite_kept _ (State.writeKey_kept _ _ _) ?_)))
  split
  · rfl
  · exact ite_kept _ (State.writePool_kept _ _ _ _) (ite_kept _ (State.writePool_kept _ _ _ _) (ite_kept _ rfl
      (ite_kept _ (State.writePool_kept _ _ _ _) (ite_kept _ (State.writePool_kept _ _ _ _) rfl))))

@[simp] theorem State.writePower_kept (s : State) (off : Nat) (v mask : Reg) :
    (State.writePower s off v mask).kept = s.kept := by
  unfold State.writePower
  simp only []; (repeat' split) <;> simp [*]

@[simp] theorem State.writeBar0_kept (s : State) (off : Nat) (v mask : Reg) : (State.writeBar0 s off v mask).kept = s.kept := by
  unfold State.writeBar0
  refine ite_kept _ (ite_kept _ (State.clearEvt_kept _ _) rfl) (ite_kept _ rfl ?_)
  split
  · exact State.writeQueue_kept _ _ _ _ _
  · exact State.writeVec_kept _ _ _ _ _
  · exact ite_kept _ (State.faultedClear_kept _ _) rfl
  · exact State.writeCntAdd_kept _ _ _ _
  · exact ite_kept _ (State.writeFab_kept _ _ _ _) (ite_kept _ (State.writeFab_kept _ _ _ _)
      (ite_kept _ (State.writeTuner_kept _ _ _ _) (ite_kept _ (ite_kept _ rfl rfl) (ite_kept _ rfl
        (ite_kept _ (State.writeStow_kept _ _ _ _) (ite_kept _ (State.writeMemory_kept _ _ _ _)
          (ite_kept _ (State.writeSeq_kept _ _ _ _) (ite_kept _ (ite_kept _ (State.writePortCtl_kept _ _ _ _) rfl)
            (ite_kept _ (State.writeHawser_kept _ _ _ _) (ite_kept _ (State.writePower_kept _ _ _ _) rfl))))))))))

@[simp] theorem State.writeLock_kept (s : State) (m : Byte) (c : Nat) (v mask : Reg) :
    (State.writeLock s m c v mask).kept = s.kept := by
  unfold State.writeLock
  simp only []; (repeat' split) <;> simp [*]

@[simp] theorem State.writeBar2_kept (s : State) (off : Nat) (v mask : Reg) : (State.writeBar2 s off v mask).kept = s.kept := by
  unfold State.writeBar2
  simp only []; (repeat' split) <;> simp [*]

@[simp] theorem State.hostReset_kept (s : State) (c : HostResetCause) : (State.hostReset s c).kept = s.kept := by
  unfold State.hostReset
  simp

@[simp] theorem State.flushHead_kept (s : State) (q : Nat) : (State.flushHead s q).kept = s.kept := by
  unfold State.flushHead
  (repeat' split) <;> simp

@[simp] theorem State.flushReq_kept (s : State) (r : HostReq) : (State.flushReq s r).kept = s.kept := by
  unfold State.flushReq
  (repeat' split) <;> simp

@[simp] theorem State.flushHost_kept (s : State) : (State.flushHost s).kept = s.kept := by
  unfold State.flushHost
  simp

@[simp] theorem State.doeAnswer_kept (s : State) (o : List Byte) : (State.doeAnswer s o).kept = s.kept := by
  unfold State.doeAnswer
  simp

@[simp] theorem State.answerSpdm_kept (s : State) (o : List Byte) : (State.answerSpdm s o).kept = s.kept := by
  unfold State.answerSpdm
  simp only []; (repeat' split) <;> simp [*]

@[simp] theorem State.takeObject_kept (s : State) (o : List Byte) : (State.takeObject s o).kept = s.kept := by
  unfold State.takeObject
  (repeat' split) <;> simp

@[simp] theorem State.doeWrite_kept (s : State) (bytes : List Byte) : (State.doeWrite s bytes).kept = s.kept := by
  unfold State.doeWrite
  simp only []; (repeat' split) <;> simp [*]

@[simp] theorem State.runStrings_kept (s : State) (x : Nat) : (State.runStrings s x).kept = s.kept := by
  unfold State.runStrings
  simp only []; (repeat' split) <;> simp [*]

@[simp] theorem State.countTime_kept (s : State) : (State.countTime s).kept = s.kept := by
  unfold State.countTime
  simp only []; (repeat' split) <;> simp [*]

@[simp] theorem State.sideValue_kept (s : State) : s.sideValue.2.kept = s.kept := by
  unfold State.sideValue
  simp only []; (repeat' split) <;> rfl

@[simp] theorem State.readSide_kept (s : State) : (State.readSide s).kept = s.kept :=
  (Eq.trans (b := s.sideValue.2.kept) rfl s.sideValue_kept)

@[simp] theorem State.readWindow_kept (s : State) (off len : Nat) : (State.readWindow s off len).kept = s.kept := by
  unfold State.readWindow
  simp only []; (repeat' split) <;> simp

@[simp] theorem State.writeWindow_kept (s : State) (off : Nat) (bytes : List Byte) (poisoned : Bool) :
    (State.writeWindow s off bytes poisoned).kept = s.kept := by
  unfold State.writeWindow
  simp only []; (repeat' split) <;> simp

@[simp] theorem State.writeConfig_kept (s : State) (off : Nat) (v mask : Reg) : (State.writeConfig s off v mask).kept = s.kept := by
  unfold State.writeConfig
  split <;> rfl

@[simp] theorem State.writeRegister_kept (s : State) (b : Bar) (off size : Nat) (v : Reg) :
    (State.writeRegister s b off size v).kept = s.kept := by
  unfold State.writeRegister
  refine ite_kept _ rfl (ite_kept _ rfl ?_)
  cases b with
  | bar0 => exact State.writeBar0_kept _ _ _ _
  | bar2 => exact State.writeBar2_kept _ _ _ _
  | config => exact State.writeConfig_kept _ _ _ _

@[simp] theorem State.readMirror_kept (s : State) : (State.readMirror s).kept = s.kept := by
  unfold State.readMirror
  simp

@[simp] theorem State.doAccess_kept (s : State) (a : HostAccess) : (State.doAccess s a).kept = s.kept := by
  cases a <;> simp [State.doAccess]

@[simp] theorem State.hold_kept (s : State) (a : HostAccess) : (State.hold s a).kept = s.kept := rfl

@[simp] theorem State.access_kept (s : State) (a : HostAccess) : (State.access s a).kept = s.kept := by
  unfold State.access
  split <;> simp

@[simp] theorem State.settleHeld_kept (s : State) : (State.settleHeld s).kept = s.kept := by
  unfold State.settleHeld
  simp

@[simp] theorem State.tick_kept (s : State) : (State.tick s).kept = s.kept := by
  unfold State.tick
  simp only []; (repeat' split) <;> simp [*]
end Sys2Proof.Machine
end

