-- ==== Sys2Proof/Laws/Memory.lean ====
section
/-!
SUPPORT. Memory: every operation on the cell list keeps its canonical form, and what a cell reads as after a store.
-/

namespace Sys2Proof.Machine

set_option Elab.async false

namespace Memory

/-- The canonical form, as propositions. -/
theorem wf_iff (m : List Host.Cell) :
    wf m = true ↔ m.Pairwise (fun a b => a.1 < b.1) ∧ ∀ c ∈ m, c.2 ≠ default c.1 := by
  simp [wf]

/-- Empty memory is canonical. -/
@[simp] theorem wf_nil : wf [] = true := rfl

/-- Part of a canonical list is canonical. -/
theorem wf_filter (m : List Host.Cell) (p : Host.Cell → Bool) (h : wf m = true) : wf (m.filter p) = true := by
  rw [wf_iff] at h ⊢
  exact ⟨h.1.filter p, fun c hc => h.2 c (List.mem_filter.1 hc).1⟩

/-- Returning cells to what unlisted cells read as keeps the canonical form. -/
theorem wf_erase (m : List Host.Cell) (lo hi : Nat) (h : wf m = true) : wf (erase m lo hi) = true := wf_filter m _ h

/-- Where the entries of stored bytes lie, and that none is listed needlessly. -/
theorem entries_mem (bs : List Byte) : ∀ (a : Nat) (c : Host.Cell), c ∈ entries a bs →
    a ≤ c.1 ∧ c.1 < a + bs.length ∧ c.2 ≠ default c.1 := by
  induction bs with
  | nil => intro a c h; simp [entries] at h
  | cons b bs ih =>
    intro a c h
    simp only [entries] at h
    split at h
    · have := ih (a + 1) c h
      simp only [List.length_cons]
      exact ⟨by omega, by omega, this.2.2⟩
    · rename_i hb
      rcases List.mem_cons.1 h with rfl | h
      · simp only [List.length_cons]
        exact ⟨Nat.le_refl _, by omega, hb⟩
      · have := ih (a + 1) c h
        simp only [List.length_cons]
        exact ⟨by omega, by omega, this.2.2⟩

/-- The entries of stored bytes rise. -/
theorem entries_pairwise (bs : List Byte) : ∀ a : Nat, (entries a bs).Pairwise fun x y => x.1 < y.1 := by
  induction bs with
  | nil => intro a; simp [entries]
  | cons b bs ih =>
    intro a
    simp only [entries]
    split
    · exact ih (a + 1)
    · refine List.pairwise_cons.2 ⟨fun c hc => ?_, ih (a + 1)⟩
      have := (entries_mem bs (a + 1) c hc).1
      simp only
      omega

/-- A store keeps the canonical form. -/
theorem wf_put (m : List Host.Cell) (a : Nat) (bs : List Byte) (h : wf m = true) : wf (put m a bs) = true := by
  rw [wf_iff] at h ⊢
  obtain ⟨hp, hd⟩ := h
  constructor
  · simp only [put]
    refine List.pairwise_append.2 ⟨List.pairwise_append.2 ⟨hp.filter _, entries_pairwise bs a, ?_⟩, hp.filter _, ?_⟩
    · intro x hx y hy
      have h1 := (List.mem_filter.1 hx).2
      have h2 := (entries_mem bs a y hy).1
      simp only [decide_eq_true_eq] at h1
      omega
    · intro x hx y hy
      have h2 := (List.mem_filter.1 hy).2
      simp only [decide_eq_true_eq] at h2
      rcases List.mem_append.1 hx with hx | hx
      · have h1 := (List.mem_filter.1 hx).2
        simp only [decide_eq_true_eq] at h1
        omega
      · have h1 := (entries_mem bs a x hx).2.1
        omega
  · intro c hc
    simp only [put] at hc
    rcases List.mem_append.1 hc with hc | hc
    · rcases List.mem_append.1 hc with hc | hc
      · exact hd c (List.mem_filter.1 hc).1
      · exact (entries_mem bs a c hc).2.2
    · exact hd c (List.mem_filter.1 hc).1

/-- The byte that a lookup gives. -/
def pick (a : Nat) : Option Host.Cell → Byte
  | some c => c.2
  | none => default a

/-- A read is a lookup. -/
theorem get_eq (m : List Host.Cell) (a : Nat) : get m a = pick a (m.find? fun c => c.1 == a) := by
  unfold get pick
  rfl

/-- Cells that a filter keeps at an address decide what it reads as. -/
theorem find_filter (m : List Host.Cell) (p : Host.Cell → Bool) (a : Nat) (h : ∀ c : Host.Cell, c.1 = a → p c = true) :
    (m.filter p).find? (fun c => c.1 == a) = m.find? fun c => c.1 == a := by
  induction m with
  | nil => rfl
  | cons c m ih =>
    by_cases hc : c.1 = a
    · simp [List.filter, List.find?, h c hc, hc]
    · have : (c.1 == a) = false := by simpa using hc
      by_cases hp : p c = true
      · simp [List.filter, List.find?, hp, this, ih]
      · have hp' : p c = false := by simpa using hp
        simp [List.filter, List.find?, hp', this, ih]

/-- Cells that a filter drops at an address are not found. -/
theorem find_filter_none (m : List Host.Cell) (p : Host.Cell → Bool) (a : Nat) (h : ∀ c : Host.Cell, c.1 = a → p c = false) :
    (m.filter p).find? (fun c => c.1 == a) = none := by
  rw [List.find?_eq_none]
  intro c hc heq
  have h1 := (List.mem_filter.1 hc).2
  have h2 := h c (by simpa using heq)
  simp [h1] at h2

/-- The entry of a stored byte. -/
theorem pick_entries (bs : List Byte) : ∀ (a k : Nat) (b : Byte), bs[k]? = some b →
    pick (a + k) ((entries a bs).find? fun c => c.1 == a + k) = b := by
  induction bs with
  | nil => intro a k b h; simp at h
  | cons x bs ih =>
    intro a k b h
    cases k with
    | zero =>
      simp only [List.getElem?_cons_zero, Option.some.injEq] at h
      subst h
      simp only [entries]
      split
      · rename_i hx
        have : (entries (a + 1) bs).find? (fun c => c.1 == a + 0) = none := by
          rw [List.find?_eq_none]
          intro c hc heq
          have := (entries_mem bs (a + 1) c hc).1
          simp at heq
          omega
        rw [this]
        simp [pick, hx]
      · simp [List.find?, pick]
    | succ k =>
      simp only [List.getElem?_cons_succ] at h
      have := ih (a + 1) k b h
      have e : a + (k + 1) = a + 1 + k := by omega
      rw [e]
      simp only [entries]
      split
      · exact this
      · have hne : (a == a + 1 + k) = false := by simp; omega
        simpa [List.find?, hne] using this

/-- A stored byte reads back. -/
theorem get_put_same (m : List Host.Cell) (a k : Nat) (bs : List Byte) (b : Byte) (h : bs[k]? = some b) :
    get (put m a bs) (a + k) = b := by
  have hk : k < bs.length := by
    have := List.getElem?_eq_some_iff.1 h
    exact this.1
  rw [get_eq]
  simp only [put, List.append_assoc, List.find?_append]
  rw [find_filter_none m _ (a + k) (by intro c hc; simp [hc])]
  rw [find_filter_none m _ (a + k) (by intro c hc; simp [hc]; omega)]
  simpa using pick_entries bs a k b h

/-- Every byte outside the stored ones reads as before. -/
theorem get_put_other (m : List Host.Cell) (a x : Nat) (bs : List Byte) (h : x < a ∨ a + bs.length ≤ x) :
    get (put m a bs) x = get m x := by
  rw [get_eq, get_eq]
  have he : (entries a bs).find? (fun c => c.1 == x) = none := by
    rw [List.find?_eq_none]
    intro c hc heq
    have h1 := entries_mem bs a c hc
    simp at heq
    omega
  simp only [put, List.append_assoc, List.find?_append, he]
  rcases h with h | h
  · rw [find_filter m _ x (by intro c hc; simp [hc]; omega)]
    rw [find_filter_none m _ x (by intro c hc; simp [hc]; omega)]
    simp
  · rw [find_filter_none m _ x (by intro c hc; simp [hc]; omega)]
    rw [find_filter m _ x (by intro c hc; simp [hc]; omega)]
    simp

/-- A byte that was returned reads as what an unlisted address reads as. -/
theorem get_erase (m : List Host.Cell) (lo hi x : Nat) :
    get (erase m lo hi) x = if lo ≤ x ∧ x < hi then default x else get m x := by
  rw [get_eq]
  split
  · rw [erase, find_filter_none m _ x (by intro c hc; simp [hc]; omega)]
    rfl
  · rw [erase, find_filter m _ x (by intro c hc; simp [hc]; omega), ← get_eq]

/-- A read of consecutive bytes gives the byte at each. -/
theorem read_eq (m : List Host.Cell) (a n : Nat) : read m a n = (List.range n).map fun k => get m (a + k) := by
  simp only [read]
  apply List.map_congr_left
  intro k hk
  have hk := List.mem_range.1 hk
  rw [get_eq, get_eq, find_filter m _ (a + k) (by intro c hc; simp [hc]; omega)]

/-- What was stored reads back as a whole. -/
theorem read_put_same (m : List Host.Cell) (a : Nat) (bs : List Byte) : read (put m a bs) a bs.length = bs := by
  rw [read_eq]
  apply List.ext_getElem?
  intro k
  by_cases h : k < bs.length
  · have hb : bs[k]? = some bs[k] := List.getElem?_eq_getElem h
    rw [hb]
    simp [List.getElem?_map, List.getElem?_range h, get_put_same m a k bs _ hb]
  · rw [List.getElem?_eq_none (by simpa using h), List.getElem?_eq_none (by simpa using h)]

/-- Bytes apart from the stored ones read as before. -/
theorem read_put_other (m : List Host.Cell) (a x n : Nat) (bs : List Byte) (h : x + n ≤ a ∨ a + bs.length ≤ x) :
    read (put m a bs) x n = read m x n := by
  rw [read_eq, read_eq]
  apply List.map_congr_left
  intro k hk
  have hk := List.mem_range.1 hk
  exact get_put_other m a (x + k) bs (by omega)

end Memory

end Sys2Proof.Machine
end

