-- ==== Sys2Proof/Laws/PerInstr.lean ====
section
/-!
SUPPORT. What a well-formed command names exists: a law over the syntax of the commands, one lemma for each constructor.
-/

namespace Sys2Proof.Laws.Bounds

set_option Elab.async false

/-- The submission queue that a command names. -/
def queueOf : Instr → Option Nat
  | .doorbellWrite q _ => some q
  | .descriptorFetch q _ _ => some q
  | .fetchAbort q _ => some q
  | .headerCheck q => some q
  | .dispatch q => some q
  | .queueEnable q _ => some q
  | .queueDisable q _ => some q
  | .resume q _ => some q
  | .descSkipped q => some q
  | .checkArm q => some q
  | .runAheadDispatch q => some q
  | _ => none

/-- The Hawser port that a command names. -/
def portOf : Instr → Option Nat
  | .putFrame _ p => some p
  | .contribFrame _ p => some p
  | .statsFrame _ p => some p
  | .readyFrame _ p => some p
  | .closeFrame _ p => some p
  | .ferryBlock _ p => some p
  | .ferryFree _ p => some p
  | .rxData p _ => some p
  | .ack p _ => some p
  | .ackTimer _ p => some p
  | .nak p _ => some p
  | .busyResend _ p => some p
  | .rtoExpiry _ p => some p
  | .syncReq p _ => some p
  | .syncRsp p _ => some p
  | .pause p _ _ => some p
  | .portEnable p => some p
  | .portDisable p => some p
  | .retrain p => some p
  | .trainingDone p => some p
  | .trainingTimeout p => some p
  | .downTimeout p => some p
  | .drainDone p => some p
  | .linkFailure p _ => some p
  | .degradedWindow p _ _ => some p
  | .pauseTimeExpiry p => some p
  | _ => none

/-- The peer that a command names. -/
def peerOf : Instr → Option Nat
  | .putFrame peer _ => some peer
  | .contribFrame peer _ => some peer
  | .statsFrame peer _ => some peer
  | .readyFrame peer _ => some peer
  | .closeFrame peer _ => some peer
  | .ferryBlock peer _ => some peer
  | .ferryFree peer _ => some peer
  | .ackTimer peer _ => some peer
  | .busyResend peer _ => some peer
  | .rtoExpiry peer _ => some peer
  | .peerReset peer => some peer
  | .firstEstablishmentTimeout peer => some peer
  | _ => none

/-- The stack that a command names. -/
def stackOf : Instr → Option Nat
  | .pageFree stack _ => some stack
  | .poolConfigWrite stack _ _ => some stack
  | .retrainInterface stack _ => some stack
  | _ => none

/-- The power domain that a command names. -/
def domainOf : Instr → Option Nat
  | .domainReqOn x => some x
  | .domainReqSlack x => some x
  | .domainReqOff x => some x
  | .slackEntry x => some x
  | .slackWake x => some x
  | .domainPowerRemoved x => some x
  | .domainPoweredUp x => some x
  | _ => none

/-- The mailbox channel that a command names. -/
def channelOf : Instr → Option Nat
  | .mbxWordWrite _ c _ _ => some c
  | .send _ c _ => some c
  | .ackMessage _ c _ => some c
  | .acquire _ c _ => some c
  | .lockRelease _ c => some c
  | _ => none

/-- A well-formed command names one of the 64 queues, 16 ports, 4,096 peer entries, 16 stacks, 32 power domains and 64 channels. -/
def Statement (i : Instr) : Prop :=
  i.wf = true →
    (∀ q, queueOf i = some q → q < 64) ∧ (∀ p, portOf i = some p → p < 16) ∧ (∀ n, peerOf i = some n → n < 4096) ∧
    (∀ k, stackOf i = some k → k < 16) ∧ (∀ x, domainOf i = some x → x < 32) ∧ (∀ c, channelOf i = some c → c < 64)

/-- Of one named thing. -/
theorem some_lt {n a : Nat} (h : decide (a < n) = true) : ∀ q, some a = some q → q < n :=
  fun _ e => Option.some.inj e ▸ of_decide_eq_true h

/-- Of nothing named. -/
theorem none_lt {n : Nat} : ∀ q, (none : Option Nat) = some q → q < n :=
  fun _ e => nomatch e

/-- The two halves of a check. -/
theorem left {a b : Bool} (h : (a && b) = true) : a = true := (Bool.and_eq_true_iff.mp h).1
theorem right {a b : Bool} (h : (a && b) = true) : b = true := (Bool.and_eq_true_iff.mp h).2

/-- A channel with a lock is a channel. -/
theorem lock_lt {c : Nat} (h : okLock c = true) : ∀ x, some c = some x → x < 64 := some_lt (right h)

theorem doorbellWrite (q : Nat) (t : Word) : Statement (.doorbellWrite q t) :=
  fun h => ⟨some_lt h, none_lt, none_lt, none_lt, none_lt, none_lt⟩
theorem descriptorFetch (q : Nat) (index : Word) (bytes : List Byte) : Statement (.descriptorFetch q index bytes) :=
  fun h => ⟨some_lt (left h), none_lt, none_lt, none_lt, none_lt, none_lt⟩
theorem fetchAbort (q : Nat) (index : Word) : Statement (.fetchAbort q index) :=
  fun h => ⟨some_lt h, none_lt, none_lt, none_lt, none_lt, none_lt⟩
theorem headerCheck (q : Nat) : Statement (.headerCheck q) :=
  fun h => ⟨some_lt h, none_lt, none_lt, none_lt, none_lt, none_lt⟩
theorem dispatch (q : Nat) : Statement (.dispatch q) :=
  fun h => ⟨some_lt h, none_lt, none_lt, none_lt, none_lt, none_lt⟩
theorem completionSignal (op : Nat) (inst : Nat) : Statement (.completionSignal op inst) :=
  fun _ => ⟨none_lt, none_lt, none_lt, none_lt, none_lt, none_lt⟩
theorem queueEnable (q : Nat) (v : Reg) : Statement (.queueEnable q v) :=
  fun h => ⟨some_lt h, none_lt, none_lt, none_lt, none_lt, none_lt⟩
theorem queueDisable (q : Nat) (v : Reg) : Statement (.queueDisable q v) :=
  fun h => ⟨some_lt h, none_lt, none_lt, none_lt, none_lt, none_lt⟩
theorem resume (q : Nat) (v : Reg) : Statement (.resume q v) :=
  fun h => ⟨some_lt h, none_lt, none_lt, none_lt, none_lt, none_lt⟩
theorem cntAdd (n : Nat) (amount : Word) : Statement (.cntAdd n amount) :=
  fun _ => ⟨none_lt, none_lt, none_lt, none_lt, none_lt, none_lt⟩
theorem cntSet (n : Nat) (amount : Word) : Statement (.cntSet n amount) :=
  fun _ => ⟨none_lt, none_lt, none_lt, none_lt, none_lt, none_lt⟩
theorem faultedClear (n : Nat) : Statement (.faultedClear n) :=
  fun _ => ⟨none_lt, none_lt, none_lt, none_lt, none_lt, none_lt⟩
theorem evtClear (off : Nat) : Statement (.evtClear off) :=
  fun _ => ⟨none_lt, none_lt, none_lt, none_lt, none_lt, none_lt⟩
theorem xfInfoClear : Statement (.xfInfoClear) :=
  fun _ => ⟨none_lt, none_lt, none_lt, none_lt, none_lt, none_lt⟩
theorem registerWrite (bar : Bar) (off : Nat) (size : Nat) (v : Reg) : Statement (.registerWrite bar off size v) :=
  fun _ => ⟨none_lt, none_lt, none_lt, none_lt, none_lt, none_lt⟩
theorem mirrorRead : Statement (.mirrorRead) :=
  fun _ => ⟨none_lt, none_lt, none_lt, none_lt, none_lt, none_lt⟩
theorem sweep (op : Nat) (inst : Nat) : Statement (.sweep op inst) :=
  fun _ => ⟨none_lt, none_lt, none_lt, none_lt, none_lt, none_lt⟩
theorem sweepInstanceFault (op : Nat) (inst : Nat) (cause : SweepFault) : Statement (.sweepInstanceFault op inst cause) :=
  fun _ => ⟨none_lt, none_lt, none_lt, none_lt, none_lt, none_lt⟩
theorem release (op : Nat) : Statement (.release op) :=
  fun _ => ⟨none_lt, none_lt, none_lt, none_lt, none_lt, none_lt⟩
theorem convert (op : Nat) : Statement (.convert op) :=
  fun _ => ⟨none_lt, none_lt, none_lt, none_lt, none_lt, none_lt⟩
theorem push (op : Nat) : Statement (.push op) :=
  fun _ => ⟨none_lt, none_lt, none_lt, none_lt, none_lt, none_lt⟩
theorem pop (op : Nat) : Statement (.pop op) :=
  fun _ => ⟨none_lt, none_lt, none_lt, none_lt, none_lt, none_lt⟩
theorem peek (op : Nat) : Statement (.peek op) :=
  fun _ => ⟨none_lt, none_lt, none_lt, none_lt, none_lt, none_lt⟩
theorem gate (op : Nat) : Statement (.gate op) :=
  fun _ => ⟨none_lt, none_lt, none_lt, none_lt, none_lt, none_lt⟩
theorem descSkipped (q : Nat) : Statement (.descSkipped q) :=
  fun h => ⟨some_lt h, none_lt, none_lt, none_lt, none_lt, none_lt⟩
theorem clear (op : Nat) : Statement (.clear op) :=
  fun _ => ⟨none_lt, none_lt, none_lt, none_lt, none_lt, none_lt⟩
theorem laneConfigWrite (l : Nat) (r : LaneReg) (v : Reg) : Statement (.laneConfigWrite l r v) :=
  fun _ => ⟨none_lt, none_lt, none_lt, none_lt, none_lt, none_lt⟩
theorem run (op : Nat) : Statement (.run op) :=
  fun _ => ⟨none_lt, none_lt, none_lt, none_lt, none_lt, none_lt⟩
theorem lossClear (slot : Nat) : Statement (.lossClear slot) :=
  fun _ => ⟨none_lt, none_lt, none_lt, none_lt, none_lt, none_lt⟩
theorem sample (op : Nat) : Statement (.sample op) :=
  fun _ => ⟨none_lt, none_lt, none_lt, none_lt, none_lt, none_lt⟩
theorem checkArm (q : Nat) : Statement (.checkArm q) :=
  fun h => ⟨some_lt h, none_lt, none_lt, none_lt, none_lt, none_lt⟩
theorem check (op : Nat) : Statement (.check op) :=
  fun _ => ⟨none_lt, none_lt, none_lt, none_lt, none_lt, none_lt⟩
theorem runAheadDispatch (q : Nat) : Statement (.runAheadDispatch q) :=
  fun h => ⟨some_lt h, none_lt, none_lt, none_lt, none_lt, none_lt⟩
theorem tunerEnable : Statement (.tunerEnable) :=
  fun _ => ⟨none_lt, none_lt, none_lt, none_lt, none_lt, none_lt⟩
theorem tunerDisable : Statement (.tunerDisable) :=
  fun _ => ⟨none_lt, none_lt, none_lt, none_lt, none_lt, none_lt⟩
theorem runaheadCfgWrite (n : Nat) (v : Reg) : Statement (.runaheadCfgWrite n v) :=
  fun _ => ⟨none_lt, none_lt, none_lt, none_lt, none_lt, none_lt⟩
theorem fill (op : Nat) : Statement (.fill op) :=
  fun _ => ⟨none_lt, none_lt, none_lt, none_lt, none_lt, none_lt⟩
theorem save (op : Nat) : Statement (.save op) :=
  fun _ => ⟨none_lt, none_lt, none_lt, none_lt, none_lt, none_lt⟩
theorem restore (op : Nat) : Statement (.restore op) :=
  fun _ => ⟨none_lt, none_lt, none_lt, none_lt, none_lt, none_lt⟩
theorem reseed (op : Nat) : Statement (.reseed op) :=
  fun _ => ⟨none_lt, none_lt, none_lt, none_lt, none_lt, none_lt⟩
theorem stringReseed (pc : Nat) (l : Nat) : Statement (.stringReseed pc l) :=
  fun _ => ⟨none_lt, none_lt, none_lt, none_lt, none_lt, none_lt⟩
theorem entropyHealthFail (repetition : Bool) (adaptive : Bool) : Statement (.entropyHealthFail repetition adaptive) :=
  fun _ => ⟨none_lt, none_lt, none_lt, none_lt, none_lt, none_lt⟩
theorem entropyReady : Statement (.entropyReady) :=
  fun _ => ⟨none_lt, none_lt, none_lt, none_lt, none_lt, none_lt⟩
theorem noEntropyTimeout (who : SeedWaiter) : Statement (.noEntropyTimeout who) :=
  fun _ => ⟨none_lt, none_lt, none_lt, none_lt, none_lt, none_lt⟩
theorem fence (op : Nat) : Statement (.fence op) :=
  fun _ => ⟨none_lt, none_lt, none_lt, none_lt, none_lt, none_lt⟩
theorem storePte (op : Nat) : Statement (.storePte op) :=
  fun _ => ⟨none_lt, none_lt, none_lt, none_lt, none_lt, none_lt⟩
theorem land (op : Nat) (reply : HostReply) : Statement (.land op reply) :=
  fun _ => ⟨none_lt, none_lt, none_lt, none_lt, none_lt, none_lt⟩
theorem exportShard (op : Nat) : Statement (.exportShard op) :=
  fun _ => ⟨none_lt, none_lt, none_lt, none_lt, none_lt, none_lt⟩
theorem openSeq (op : Nat) : Statement (.openSeq op) :=
  fun _ => ⟨none_lt, none_lt, none_lt, none_lt, none_lt, none_lt⟩
theorem closeSeq (op : Nat) : Statement (.closeSeq op) :=
  fun _ => ⟨none_lt, none_lt, none_lt, none_lt, none_lt, none_lt⟩
theorem append (op : Nat) : Statement (.append op) :=
  fun _ => ⟨none_lt, none_lt, none_lt, none_lt, none_lt, none_lt⟩
theorem truncate (op : Nat) : Statement (.truncate op) :=
  fun _ => ⟨none_lt, none_lt, none_lt, none_lt, none_lt, none_lt⟩
theorem reserve (op : Nat) : Statement (.reserve op) :=
  fun _ => ⟨none_lt, none_lt, none_lt, none_lt, none_lt, none_lt⟩
theorem matchPrefix (op : Nat) : Statement (.matchPrefix op) :=
  fun _ => ⟨none_lt, none_lt, none_lt, none_lt, none_lt, none_lt⟩
theorem publish (op : Nat) : Statement (.publish op) :=
  fun _ => ⟨none_lt, none_lt, none_lt, none_lt, none_lt, none_lt⟩
theorem attend (op : Nat) : Statement (.attend op) :=
  fun _ => ⟨none_lt, none_lt, none_lt, none_lt, none_lt, none_lt⟩
theorem attendGrad (op : Nat) : Statement (.attendGrad op) :=
  fun _ => ⟨none_lt, none_lt, none_lt, none_lt, none_lt, none_lt⟩
theorem query (op : Nat) : Statement (.query op) :=
  fun _ => ⟨none_lt, none_lt, none_lt, none_lt, none_lt, none_lt⟩
theorem pageFree (stack : Nat) (page : Nat) : Statement (.pageFree stack page) :=
  fun h => ⟨none_lt, none_lt, none_lt, some_lt h, none_lt, none_lt⟩
theorem poolConfigWrite (stack : Nat) (r : PoolReg) (v : Reg) : Statement (.poolConfigWrite stack r v) :=
  fun h => ⟨none_lt, none_lt, none_lt, some_lt h, none_lt, none_lt⟩
theorem prefixKeyWrite (high : Bool) (v : Reg) : Statement (.prefixKeyWrite high v) :=
  fun _ => ⟨none_lt, none_lt, none_lt, none_lt, none_lt, none_lt⟩
theorem put (op : Nat) : Statement (.put op) :=
  fun _ => ⟨none_lt, none_lt, none_lt, none_lt, none_lt, none_lt⟩
theorem allreduce (op : Nat) : Statement (.allreduce op) :=
  fun _ => ⟨none_lt, none_lt, none_lt, none_lt, none_lt, none_lt⟩
theorem ferry (op : Nat) : Statement (.ferry op) :=
  fun _ => ⟨none_lt, none_lt, none_lt, none_lt, none_lt, none_lt⟩
theorem regroup (op : Nat) : Statement (.regroup op) :=
  fun _ => ⟨none_lt, none_lt, none_lt, none_lt, none_lt, none_lt⟩
theorem putFrame (peer : Nat) (p : Nat) : Statement (.putFrame peer p) :=
  fun h => ⟨none_lt, some_lt (right h), some_lt (left h), none_lt, none_lt, none_lt⟩
theorem contribFrame (peer : Nat) (p : Nat) : Statement (.contribFrame peer p) :=
  fun h => ⟨none_lt, some_lt (right h), some_lt (left h), none_lt, none_lt, none_lt⟩
theorem statsFrame (peer : Nat) (p : Nat) : Statement (.statsFrame peer p) :=
  fun h => ⟨none_lt, some_lt (right h), some_lt (left h), none_lt, none_lt, none_lt⟩
theorem readyFrame (peer : Nat) (p : Nat) : Statement (.readyFrame peer p) :=
  fun h => ⟨none_lt, some_lt (right h), some_lt (left h), none_lt, none_lt, none_lt⟩
theorem closeFrame (peer : Nat) (p : Nat) : Statement (.closeFrame peer p) :=
  fun h => ⟨none_lt, some_lt (right h), some_lt (left h), none_lt, none_lt, none_lt⟩
theorem ferryBlock (peer : Nat) (p : Nat) : Statement (.ferryBlock peer p) :=
  fun h => ⟨none_lt, some_lt (right h), some_lt (left h), none_lt, none_lt, none_lt⟩
theorem ferryFree (peer : Nat) (p : Nat) : Statement (.ferryFree peer p) :=
  fun h => ⟨none_lt, some_lt (right h), some_lt (left h), none_lt, none_lt, none_lt⟩
theorem deadlineClose (g : Nat) : Statement (.deadlineClose g) :=
  fun _ => ⟨none_lt, none_lt, none_lt, none_lt, none_lt, none_lt⟩
theorem collTimeout (op : Nat) : Statement (.collTimeout op) :=
  fun _ => ⟨none_lt, none_lt, none_lt, none_lt, none_lt, none_lt⟩
theorem ferryWaitTimeout (op : Nat) : Statement (.ferryWaitTimeout op) :=
  fun _ => ⟨none_lt, none_lt, none_lt, none_lt, none_lt, none_lt⟩
theorem rxData (p : Nat) (f : HwFrame) : Statement (.rxData p f) :=
  fun h => ⟨none_lt, some_lt (left h), none_lt, none_lt, none_lt, none_lt⟩
theorem ack (p : Nat) (f : HwFrame) : Statement (.ack p f) :=
  fun h => ⟨none_lt, some_lt (left h), none_lt, none_lt, none_lt, none_lt⟩
theorem ackTimer (peer : Nat) (p : Nat) : Statement (.ackTimer peer p) :=
  fun h => ⟨none_lt, some_lt (right h), some_lt (left h), none_lt, none_lt, none_lt⟩
theorem nak (p : Nat) (f : HwFrame) : Statement (.nak p f) :=
  fun h => ⟨none_lt, some_lt (left h), none_lt, none_lt, none_lt, none_lt⟩
theorem busyResend (peer : Nat) (p : Nat) : Statement (.busyResend peer p) :=
  fun h => ⟨none_lt, some_lt (right h), some_lt (left h), none_lt, none_lt, none_lt⟩
theorem rtoExpiry (peer : Nat) (p : Nat) : Statement (.rtoExpiry peer p) :=
  fun h => ⟨none_lt, some_lt (right h), some_lt (left h), none_lt, none_lt, none_lt⟩
theorem syncReq (p : Nat) (f : HwFrame) : Statement (.syncReq p f) :=
  fun h => ⟨none_lt, some_lt (left h), none_lt, none_lt, none_lt, none_lt⟩
theorem syncRsp (p : Nat) (f : HwFrame) : Statement (.syncRsp p f) :=
  fun h => ⟨none_lt, some_lt (left h), none_lt, none_lt, none_lt, none_lt⟩
theorem pause (p : Nat) (priority : Option (BitVec 3)) (ns : Nat) : Statement (.pause p priority ns) :=
  fun h => ⟨none_lt, some_lt h, none_lt, none_lt, none_lt, none_lt⟩
theorem peerReset (peer : Nat) : Statement (.peerReset peer) :=
  fun h => ⟨none_lt, none_lt, some_lt h, none_lt, none_lt, none_lt⟩
theorem hawserConfigWrite (off : Nat) (v : Reg) : Statement (.hawserConfigWrite off v) :=
  fun _ => ⟨none_lt, none_lt, none_lt, none_lt, none_lt, none_lt⟩
theorem portEnable (p : Nat) : Statement (.portEnable p) :=
  fun h => ⟨none_lt, some_lt h, none_lt, none_lt, none_lt, none_lt⟩
theorem portDisable (p : Nat) : Statement (.portDisable p) :=
  fun h => ⟨none_lt, some_lt h, none_lt, none_lt, none_lt, none_lt⟩
theorem retrain (p : Nat) : Statement (.retrain p) :=
  fun h => ⟨none_lt, some_lt h, none_lt, none_lt, none_lt, none_lt⟩
theorem trainingDone (p : Nat) : Statement (.trainingDone p) :=
  fun h => ⟨none_lt, some_lt h, none_lt, none_lt, none_lt, none_lt⟩
theorem trainingTimeout (p : Nat) : Statement (.trainingTimeout p) :=
  fun h => ⟨none_lt, some_lt h, none_lt, none_lt, none_lt, none_lt⟩
theorem downTimeout (p : Nat) : Statement (.downTimeout p) :=
  fun h => ⟨none_lt, some_lt h, none_lt, none_lt, none_lt, none_lt⟩
theorem drainDone (p : Nat) : Statement (.drainDone p) :=
  fun h => ⟨none_lt, some_lt h, none_lt, none_lt, none_lt, none_lt⟩
theorem linkFailure (p : Nat) (codewords : Nat) : Statement (.linkFailure p codewords) :=
  fun h => ⟨none_lt, some_lt h, none_lt, none_lt, none_lt, none_lt⟩
theorem degradedWindow (p : Nat) (corrected : Nat) (received : Nat) : Statement (.degradedWindow p corrected received) :=
  fun h => ⟨none_lt, some_lt h, none_lt, none_lt, none_lt, none_lt⟩
theorem mbxWordWrite (m : BitVec 8) (c : Nat) (w : Nat) (v : Reg) : Statement (.mbxWordWrite m c w v) :=
  fun h => ⟨none_lt, none_lt, none_lt, none_lt, none_lt, some_lt (left h)⟩
theorem send (m : BitVec 8) (c : Nat) (v : Reg) : Statement (.send m c v) :=
  fun h => ⟨none_lt, none_lt, none_lt, none_lt, none_lt, some_lt h⟩
theorem ackMessage (m : BitVec 8) (c : Nat) (v : Reg) : Statement (.ackMessage m c v) :=
  fun h => ⟨none_lt, none_lt, none_lt, none_lt, none_lt, some_lt h⟩
theorem acquire (m : BitVec 8) (c : Nat) (peer : BitVec 8) : Statement (.acquire m c peer) :=
  fun h => ⟨none_lt, none_lt, none_lt, none_lt, none_lt, lock_lt h⟩
theorem lockRelease (m : BitVec 8) (c : Nat) : Statement (.lockRelease m c) :=
  fun h => ⟨none_lt, none_lt, none_lt, none_lt, none_lt, lock_lt h⟩
theorem nop (op : Nat) : Statement (.nop op) :=
  fun _ => ⟨none_lt, none_lt, none_lt, none_lt, none_lt, none_lt⟩
theorem notify (op : Nat) : Statement (.notify op) :=
  fun _ => ⟨none_lt, none_lt, none_lt, none_lt, none_lt, none_lt⟩
theorem ctxSave (op : Nat) : Statement (.ctxSave op) :=
  fun _ => ⟨none_lt, none_lt, none_lt, none_lt, none_lt, none_lt⟩
theorem ctxRestore (op : Nat) : Statement (.ctxRestore op) :=
  fun _ => ⟨none_lt, none_lt, none_lt, none_lt, none_lt, none_lt⟩
theorem bar4Read (off : Nat) (len : Nat) : Statement (.bar4Read off len) :=
  fun _ => ⟨none_lt, none_lt, none_lt, none_lt, none_lt, none_lt⟩
theorem bar4Write (off : Nat) (bytes : List Byte) (poisoned : Bool) : Statement (.bar4Write off bytes poisoned) :=
  fun _ => ⟨none_lt, none_lt, none_lt, none_lt, none_lt, none_lt⟩
theorem sideDataRead : Statement (.sideDataRead) :=
  fun _ => ⟨none_lt, none_lt, none_lt, none_lt, none_lt, none_lt⟩
theorem sideDataWrite (v : Reg) : Statement (.sideDataWrite v) :=
  fun _ => ⟨none_lt, none_lt, none_lt, none_lt, none_lt, none_lt⟩
theorem hostReset (cause : HostResetCause) : Statement (.hostReset cause) :=
  fun _ => ⟨none_lt, none_lt, none_lt, none_lt, none_lt, none_lt⟩
theorem functionStateChange (d3hot : Bool) (busMaster : Bool) : Statement (.functionStateChange d3hot busMaster) :=
  fun _ => ⟨none_lt, none_lt, none_lt, none_lt, none_lt, none_lt⟩
theorem msixUnmask (v : Nat) : Statement (.msixUnmask v) :=
  fun _ => ⟨none_lt, none_lt, none_lt, none_lt, none_lt, none_lt⟩
theorem spdmRequest (object : List Byte) : Statement (.spdmRequest object) :=
  fun _ => ⟨none_lt, none_lt, none_lt, none_lt, none_lt, none_lt⟩
theorem doeAbort : Statement (.doeAbort) :=
  fun _ => ⟨none_lt, none_lt, none_lt, none_lt, none_lt, none_lt⟩
theorem readReq (f : MgmtFrame) : Statement (.readReq f) :=
  fun _ => ⟨none_lt, none_lt, none_lt, none_lt, none_lt, none_lt⟩
theorem broadcastReadRsp : Statement (.broadcastReadRsp) :=
  fun _ => ⟨none_lt, none_lt, none_lt, none_lt, none_lt, none_lt⟩
theorem writeReq (f : MgmtFrame) : Statement (.writeReq f) :=
  fun _ => ⟨none_lt, none_lt, none_lt, none_lt, none_lt, none_lt⟩
theorem domainSegment (f : MgmtFrame) : Statement (.domainSegment f) :=
  fun _ => ⟨none_lt, none_lt, none_lt, none_lt, none_lt, none_lt⟩
theorem domainTimeout (t : Transfer) : Statement (.domainTimeout t) :=
  fun _ => ⟨none_lt, none_lt, none_lt, none_lt, none_lt, none_lt⟩
theorem store (src : BitVec 48) (tid : BitVec 16) (v : Byte) : Statement (.store src tid v) :=
  fun _ => ⟨none_lt, none_lt, none_lt, none_lt, none_lt, none_lt⟩
theorem restoreDefaults (src : BitVec 48) (tid : BitVec 16) (v : Byte) : Statement (.restoreDefaults src tid v) :=
  fun _ => ⟨none_lt, none_lt, none_lt, none_lt, none_lt, none_lt⟩
theorem clearExtremes (src : BitVec 48) (tid : BitVec 16) (v : Byte) : Statement (.clearExtremes src tid v) :=
  fun _ => ⟨none_lt, none_lt, none_lt, none_lt, none_lt, none_lt⟩
theorem logAck (src : BitVec 48) (tid : BitVec 16) (v : Word) : Statement (.logAck src tid v) :=
  fun _ => ⟨none_lt, none_lt, none_lt, none_lt, none_lt, none_lt⟩
theorem plcaWrite (src : BitVec 48) (tid : BitVec 16) (sub : BitVec 8) (v : Byte) : Statement (.plcaWrite src tid sub v) :=
  fun _ => ⟨none_lt, none_lt, none_lt, none_lt, none_lt, none_lt⟩
theorem capWrite (src : BitVec 48) (tid : BitVec 16) (sub : BitVec 8) (v : Word) : Statement (.capWrite src tid sub v) :=
  fun _ => ⟨none_lt, none_lt, none_lt, none_lt, none_lt, none_lt⟩
theorem capReleaseStep : Statement (.capReleaseStep) :=
  fun _ => ⟨none_lt, none_lt, none_lt, none_lt, none_lt, none_lt⟩
theorem repairRecord : Statement (.repairRecord) :=
  fun _ => ⟨none_lt, none_lt, none_lt, none_lt, none_lt, none_lt⟩
theorem targetWrite (src : BitVec 48) (tid : BitVec 16) (v : Byte) : Statement (.targetWrite src tid v) :=
  fun _ => ⟨none_lt, none_lt, none_lt, none_lt, none_lt, none_lt⟩
theorem activate (src : BitVec 48) (tid : BitVec 16) (v : Byte) : Statement (.activate src tid v) :=
  fun _ => ⟨none_lt, none_lt, none_lt, none_lt, none_lt, none_lt⟩
theorem verificationDone : Statement (.verificationDone) :=
  fun _ => ⟨none_lt, none_lt, none_lt, none_lt, none_lt, none_lt⟩
theorem energySave : Statement (.energySave) :=
  fun _ => ⟨none_lt, none_lt, none_lt, none_lt, none_lt, none_lt⟩
theorem supplyEventBegin (e : SupplyEvent) (mean : Word) : Statement (.supplyEventBegin e mean) :=
  fun _ => ⟨none_lt, none_lt, none_lt, none_lt, none_lt, none_lt⟩
theorem supplyEventEnd (e : SupplyEvent) (mean : Word) : Statement (.supplyEventEnd e mean) :=
  fun _ => ⟨none_lt, none_lt, none_lt, none_lt, none_lt, none_lt⟩
theorem rippleWindow (vpp : Word) : Statement (.rippleWindow vpp) :=
  fun _ => ⟨none_lt, none_lt, none_lt, none_lt, none_lt, none_lt⟩
theorem nvInhibitClear : Statement (.nvInhibitClear) :=
  fun _ => ⟨none_lt, none_lt, none_lt, none_lt, none_lt, none_lt⟩
theorem inputOvervoltage (mean : Word) : Statement (.inputOvervoltage mean) :=
  fun _ => ⟨none_lt, none_lt, none_lt, none_lt, none_lt, none_lt⟩
theorem overcurrent : Statement (.overcurrent) :=
  fun _ => ⟨none_lt, none_lt, none_lt, none_lt, none_lt, none_lt⟩
theorem supplyRestart : Statement (.supplyRestart) :=
  fun _ => ⟨none_lt, none_lt, none_lt, none_lt, none_lt, none_lt⟩
theorem referenceLoss : Statement (.referenceLoss) :=
  fun _ => ⟨none_lt, none_lt, none_lt, none_lt, none_lt, none_lt⟩
theorem referenceRestored : Statement (.referenceRestored) :=
  fun _ => ⟨none_lt, none_lt, none_lt, none_lt, none_lt, none_lt⟩
theorem governorFastStep (limit : FastLimit) (mean : Word) : Statement (.governorFastStep limit mean) :=
  fun _ => ⟨none_lt, none_lt, none_lt, none_lt, none_lt, none_lt⟩
theorem governorMsTick (m : MeterSample) : Statement (.governorMsTick m) :=
  fun _ => ⟨none_lt, none_lt, none_lt, none_lt, none_lt, none_lt⟩
theorem bursts (pIn : Word) : Statement (.bursts pIn) :=
  fun _ => ⟨none_lt, none_lt, none_lt, none_lt, none_lt, none_lt⟩
theorem burstEnd (pIn : Word) : Statement (.burstEnd pIn) :=
  fun _ => ⟨none_lt, none_lt, none_lt, none_lt, none_lt, none_lt⟩
theorem retune (die : Nat) (up : Bool) (mean : Word) : Statement (.retune die up mean) :=
  fun _ => ⟨none_lt, none_lt, none_lt, none_lt, none_lt, none_lt⟩
theorem marginShort (die : Nat) : Statement (.marginShort die) :=
  fun _ => ⟨none_lt, none_lt, none_lt, none_lt, none_lt, none_lt⟩
theorem thermalRead (t : Temperatures) : Statement (.thermalRead t) :=
  fun _ => ⟨none_lt, none_lt, none_lt, none_lt, none_lt, none_lt⟩
theorem thermalTrip (die : Nat) (temp : Word) : Statement (.thermalTrip die temp) :=
  fun _ => ⟨none_lt, none_lt, none_lt, none_lt, none_lt, none_lt⟩
theorem thermalKStep (die : Nat) : Statement (.thermalKStep die) :=
  fun _ => ⟨none_lt, none_lt, none_lt, none_lt, none_lt, none_lt⟩
theorem throttleChange (asserted : Bool) : Statement (.throttleChange asserted) :=
  fun _ => ⟨none_lt, none_lt, none_lt, none_lt, none_lt, none_lt⟩
theorem throttleHeld : Statement (.throttleHeld) :=
  fun _ => ⟨none_lt, none_lt, none_lt, none_lt, none_lt, none_lt⟩
theorem throttleChatter (edges : Nat) : Statement (.throttleChatter edges) :=
  fun _ => ⟨none_lt, none_lt, none_lt, none_lt, none_lt, none_lt⟩
theorem chatterClear : Statement (.chatterClear) :=
  fun _ => ⟨none_lt, none_lt, none_lt, none_lt, none_lt, none_lt⟩
theorem domainReqOn (x : Nat) : Statement (.domainReqOn x) :=
  fun h => ⟨none_lt, none_lt, none_lt, none_lt, some_lt h, none_lt⟩
theorem domainReqSlack (x : Nat) : Statement (.domainReqSlack x) :=
  fun h => ⟨none_lt, none_lt, none_lt, none_lt, some_lt h, none_lt⟩
theorem domainReqOff (x : Nat) : Statement (.domainReqOff x) :=
  fun h => ⟨none_lt, none_lt, none_lt, none_lt, some_lt h, none_lt⟩
theorem slackEntry (x : Nat) : Statement (.slackEntry x) :=
  fun h => ⟨none_lt, none_lt, none_lt, none_lt, some_lt h, none_lt⟩
theorem slackWake (x : Nat) : Statement (.slackWake x) :=
  fun h => ⟨none_lt, none_lt, none_lt, none_lt, some_lt h, none_lt⟩
theorem domainPowerRemoved (x : Nat) : Statement (.domainPowerRemoved x) :=
  fun h => ⟨none_lt, none_lt, none_lt, none_lt, some_lt h, none_lt⟩
theorem domainPoweredUp (x : Nat) : Statement (.domainPoweredUp x) :=
  fun h => ⟨none_lt, none_lt, none_lt, none_lt, some_lt h, none_lt⟩
theorem retrainInterface (stack : Nat) (ok : Bool) : Statement (.retrainInterface stack ok) :=
  fun h => ⟨none_lt, none_lt, none_lt, some_lt h, none_lt, none_lt⟩
theorem scrub (line : Nat) : Statement (.scrub line) :=
  fun _ => ⟨none_lt, none_lt, none_lt, none_lt, none_lt, none_lt⟩
theorem moduleReset (cause : ResetCause) : Statement (.moduleReset cause) :=
  fun _ => ⟨none_lt, none_lt, none_lt, none_lt, none_lt, none_lt⟩
theorem bootStageComplete (b : BootFindings) : Statement (.bootStageComplete b) :=
  fun _ => ⟨none_lt, none_lt, none_lt, none_lt, none_lt, none_lt⟩
theorem bootHalt (reason : Nat) : Statement (.bootHalt reason) :=
  fun _ => ⟨none_lt, none_lt, none_lt, none_lt, none_lt, none_lt⟩
theorem pauseTimeExpiry (p : Nat) : Statement (.pauseTimeExpiry p) :=
  fun h => ⟨none_lt, some_lt h, none_lt, none_lt, none_lt, none_lt⟩
theorem firstEstablishmentTimeout (peer : Nat) : Statement (.firstEstablishmentTimeout peer) :=
  fun h => ⟨none_lt, none_lt, some_lt h, none_lt, none_lt, none_lt⟩
theorem modRstNRelease : Statement (.modRstNRelease) :=
  fun _ => ⟨none_lt, none_lt, none_lt, none_lt, none_lt, none_lt⟩
theorem pcieLinkUp : Statement (.pcieLinkUp) :=
  fun _ => ⟨none_lt, none_lt, none_lt, none_lt, none_lt, none_lt⟩
theorem storeDone (ok : Bool) : Statement (.storeDone ok) :=
  fun _ => ⟨none_lt, none_lt, none_lt, none_lt, none_lt, none_lt⟩
theorem managementPowerLoss : Statement (.managementPowerLoss) :=
  fun _ => ⟨none_lt, none_lt, none_lt, none_lt, none_lt, none_lt⟩

end Sys2Proof.Laws.Bounds
end

