-- ==== Sys2Proof/Laws/Pool.lean ====
section
/-!
SUPPORT. Sequences and pools (chapter 09): every function of theirs changes the data plane and the sequence block alone.
-/

namespace Sys2Proof.Machine

set_option Elab.async false

/-- The module but for its data plane and its sequence block. -/
def State.outside (s : State) : State := { s with dp := .reset, seq := .reset }

/-- It is read field by field. -/
@[simp] theorem State.outside_mk pending tide dp ops nextOp que cnt hst pci out treble bass tun rng stw los seq hw mbx dic pwr boot :
    State.outside (State.mk pending tide dp ops nextOp que cnt hst pci out treble bass tun rng stw los seq hw mbx dic pwr boot) =
      State.mk pending tide .reset ops nextOp que cnt hst pci out treble bass tun rng stw los .reset hw mbx dic pwr boot := rfl

/-- It is folded again. -/
@[simp] theorem State.outside_eta (s : State) :
    State.mk s.pending s.tide .reset s.ops s.nextOp s.que s.cnt s.hst s.pci s.out s.treble s.bass s.tun s.rng s.stw s.los
      .reset s.hw s.mbx s.dic s.pwr s.boot = s.outside := rfl

/-- A fold of functions that leave it alone. -/
@[simp] theorem foldl_outside {α : Type} (f : State → α → State) (h : ∀ s x, (f s x).outside = s.outside) (l : List α) (s : State) :
    (l.foldl f s).outside = s.outside := by
  induction l generalizing s with
  | nil => rfl
  | cons x l ih => simp [ih, h]

@[simp] theorem State.bump_outside (s : State) (off n : Nat) : (State.bump s off n).outside = s.outside := rfl
@[simp] theorem State.dieWrite_outside (s : State) (x : Nat) (bs : List Byte) : (State.dieWrite s x bs).outside = s.outside := by
  unfold State.dieWrite
  split <;> rfl
@[simp] theorem State.setCtx_outside (s : State) (id : Nat) (c : Ctx) : (State.setCtx s id c).outside = s.outside := rfl
@[simp] theorem State.dropCtx_outside (s : State) (id : Nat) : (State.dropCtx s id).outside = s.outside := rfl
@[simp] theorem State.setSlots_outside (s : State) (x p : Nat) (us : List Nat) : (State.setSlots s x p us).outside = s.outside := rfl
@[simp] theorem State.setHeader_outside (s : State) (x p : Nat) (h : Header) : (State.setHeader s x p h).outside = s.outside := by
  unfold State.setHeader
  (repeat' split) <;> simp
@[simp] theorem State.updHeader_outside (s : State) (x p : Nat) (f : Header → Header) : (State.updHeader s x p f).outside = s.outside := by
  unfold State.updHeader
  simp
@[simp] theorem State.retirePage_outside (s : State) (x p : Nat) : (State.retirePage s x p).outside = s.outside := by
  unfold State.retirePage
  simp
@[simp] theorem State.unref_outside (s : State) (x p : Nat) : (State.unref s x p).outside = s.outside := by
  unfold State.unref
  simp only []; (repeat' split) <;> simp [*]
@[simp] theorem State.freeSlots_outside (s : State) (b n : Nat) : (State.freeSlots s b n).outside = s.outside := by
  unfold State.freeSlots
  simp only []; (repeat' split) <;> simp [*]
@[simp] theorem State.setEntry_outside (s : State) (t i v : Nat) : (State.setEntry s t i v).outside = s.outside := by
  simp [State.setEntry]
@[simp] theorem State.clearLeaf_outside (s : State) (c : Ctx) (j : Nat) : (State.clearLeaf s c j).outside = s.outside := by
  unfold State.clearLeaf
  simp only []; (repeat' split) <;> simp [*]
@[simp] theorem State.unmap_outside (s : State) (c : Ctx) (j : Nat) : (State.unmap s c j).outside = s.outside := by
  unfold State.unmap
  simp only []; (repeat' split) <;> simp [*]
@[simp] theorem State.recount_outside (s : State) (id : Nat) (c : Ctx) : (State.recount s id c).outside = s.outside := by
  rfl
@[simp] theorem State.setNode_outside (s : State) (x i : Nat) (n : Node) : (State.setNode s x i n).outside = s.outside := by
  unfold State.setNode
  (repeat' split) <;> simp
@[simp] theorem Taking.page_outside (k : Taking) (id : Nat) : (k.page id).2.s.outside = k.s.outside := by
  simp only [Taking.page]
  (repeat' split) <;> simp [*]
@[simp] theorem Taking.claim_outside (k : Taking) (x p n i : Nat) : (k.claim x p n i).2.s.outside = k.s.outside := by
  simp [Taking.claim]
@[simp] theorem Taking.slots_outside (k : Taking) (id n : Nat) : (k.slots id n).2.s.outside = k.s.outside := by
  simp only [Taking.slots]
  (repeat' split) <;> simp [*]
@[simp] theorem Taking.table_outside (k : Taking) (id : Nat) (c : Ctx) (j : Nat) : (k.table id c j).2.s.outside = k.s.outside := by
  simp only [Taking.table]
  (repeat' split) <;> simp [*]
@[simp] theorem State.dropTree_outside (s : State) (x target : Nat) : (State.dropTree s x target).outside = s.outside := by
  unfold State.dropTree
  refine foldl_outside _ (fun s x => ?_) _ _
  simp only []
  (repeat' split) <;> simp
@[simp] theorem State.dropPages_outside (x target : Nat) (c : Ctx) : ∀ (l : List (Nat × Nat)) (s : State) (low : Option Nat),
    (s.dropPages x target c l low).1.outside = s.outside
  | [], s, low => rfl
  | (j, v) :: l, s, low => by
    unfold State.dropPages
    split
    · rfl
    · split
      · rfl
      · split
        · rfl
        · rw [State.dropPages_outside x target c l]
          simp only [State.bump_outside, State.unref_outside]
          split <;> simp
@[simp] theorem State.dropVictim_outside (s : State) (x target id : Nat) (c : Ctx) : (State.dropVictim s x target id c).outside = s.outside := by
  have h := State.dropPages_outside x target c ((s.leaves c).filter fun e => bit e.2 0).reverse s none
  unfold State.dropVictim
  revert h
  generalize State.dropPages _ _ _ _ _ _ = r
  obtain ⟨t, low⟩ := r
  intro h
  cases low with
  | none => exact h
  | some j => simpa using h
@[simp] theorem State.checkDrops_outside (s : State) (id : Nat) : (State.checkDrops s id).outside = s.outside := by
  simp only [State.checkDrops]
  split
  · rfl
  · refine (foldl_outside _ (fun s x => ?_) _ _).trans (by simp)
    split <;> simp
@[simp] theorem State.evict_outside (s : State) (c : Ctx) (k : Cand) : (State.evict s c k).outside = s.outside := by
  unfold State.evict
  simp only []; (repeat' split) <;> simp [*]
@[simp] theorem State.evictCtx_outside (s : State) (id : Nat) (c : Ctx) : (State.evictCtx s id c).outside = s.outside := by
  unfold State.evictCtx
  simp only []; (repeat' split) <;> simp [*]
@[simp] theorem State.evictStack_outside (s : State) (x : Nat) : (State.evictStack s x).outside = s.outside := by
  unfold State.evictStack
  refine foldl_outside _ (fun s x => ?_) _ _
  split <;> simp
@[simp] theorem State.initPool_outside (s : State) (x : Nat) : (State.initPool s x).outside = s.outside := by
  simp only [State.initPool]
  split
  · exact (foldl_outside _ (by intro s p; simp) _ _).trans ((foldl_outside _ (by intro s p; simp) _ _).trans rfl)
  · exact (foldl_outside _ (by intro s p; simp) _ _).trans rfl
@[simp] theorem State.writePool_outside (s : State) (x : Nat) (r : PoolReg) (v : Reg) : (State.writePool s x r v).outside = s.outside := by
  unfold State.writePool
  simp only []; (repeat' split) <;> simp [*]
@[simp] theorem State.writeKey_outside (s : State) (high : Bool) (v : Reg) : (State.writeKey s high v).outside = s.outside := by
  unfold State.writeKey
  repeat' (split <;> try simp)
@[simp] theorem State.freePage_outside (s : State) (x p : Nat) : (State.freePage s x p).outside = s.outside := by
  unfold State.freePage
  simp only []; (repeat' split) <;> simp [*]
@[simp] theorem State.afterTaking_outside (s old : State) (id : Nat) : (State.afterTaking s old id).outside = s.outside := by
  unfold State.afterTaking
  (repeat' split) <;> simp
@[simp] theorem State.unreserve_outside (s : State) (x n : Nat) : (State.unreserve s x n).outside = s.outside := by
  unfold State.unreserve
  simp
@[simp] theorem State.freeTables_outside (s : State) (c : Ctx) : (State.freeTables s c).outside = s.outside := by
  unfold State.freeTables
  extract_lets a
  have ha : a.outside = s.outside := by
    refine foldl_outside _ (fun s x => ?_) _ _
    extract_lets e2 t1 b
    split
    · rfl
    · rw [State.freeSlots_outside]
      refine foldl_outside _ (fun s x => ?_) _ _
      simp only []
      split <;> simp
  simpa using ha
@[simp] theorem State.newPage_outside (s : State) (c : Ctx) (x p : Nat) (tokens : Bool) : (State.newPage s c x p tokens).outside = s.outside := by
  unfold State.newPage
  simp only []; (repeat' split) <;> simp [*]
@[simp] theorem State.appendAt_outside (s : State) (c : Ctx) (y : Layout) (d : List Byte) (src : Sources) (i : Nat) : (State.appendAt s c y d src i).outside = s.outside := by
  simp only [State.appendAt]
  split
  · rfl
  · split
    · simp only [State.dieWrite_outside, State.updHeader_outside, State.bump_outside]
      exact foldl_outside _ (by intro s r; exact foldl_outside _ (by intro s l; rfl) _ _) _ _
    · simp only [State.dieWrite_outside, State.updHeader_outside, State.bump_outside]
      exact foldl_outside _ (by intro s r; exact foldl_outside _ (by intro s l; rfl) _ _) _ _
@[simp] theorem State.reservePages_outside (s : State) (x n : Nat) : (State.reservePages s x n).outside = s.outside := by
  unfold State.reservePages
  simp
end Sys2Proof.Machine
end

