-- ==== Sys2Proof/Laws/Ranges.lean ====
section
/-!
SUPPORT. What every function on the state that changes a die or an anti-rollback counter does to them: counters do not fall, and
dies that are in range stay in range.
-/

namespace Sys2Proof.Machine

set_option Elab.async false

/-- Every compute die's k and operating point are in range. -/
def State.DiesOk (s : State) : Prop := ∀ d, 1 ≤ (s.die d).k.toNat ∧ (s.die d).k.toNat ≤ 16 ∧ (s.die d).point.toNat ≤ 5

/-- What any command does to the queue, the counters and the dies. -/
structure State.Goes (s t : State) : Prop where
  pending : t.pending = s.pending
  counters : ∀ k, (s.boot.counter k).toNat ≤ (t.boot.counter k).toNat
  dies : s.DiesOk → t.DiesOk

/-- A function that leaves them alone. -/
theorem State.Goes.of_kept {s t : State} (h : t.kept = s.kept) : s.Goes t := by
  simp only [State.kept, Prod.mk.injEq] at h
  obtain ⟨h1, h2, h3⟩ := h
  refine ⟨h1, fun k => ?_, fun hd d => ?_⟩
  · simp [Boot.counter, h2]
  · have := hd d
    simpa [State.die, h3] using this

theorem State.Goes.refl (s : State) : s.Goes s := .of_kept rfl

theorem State.Goes.trans {s t u : State} (h1 : s.Goes t) (h2 : t.Goes u) : s.Goes u :=
  ⟨h2.pending.trans h1.pending, fun k => Nat.le_trans (h1.counters k) (h2.counters k), fun h => h2.dies (h1.dies h)⟩

/-- And then one that leaves them alone. -/
theorem State.Goes.then_kept {s t u : State} (h1 : s.Goes t) (h2 : u.kept = t.kept) : s.Goes u := h1.trans (.of_kept h2)

/-- A fold. -/
theorem foldl_goes {α : Type} (f : State → α → State) (h : ∀ (s : State) (x : α), s.Goes (f s x)) (l : List α) (s : State) :
    s.Goes (l.foldl f s) := by
  induction l generalizing s with
  | nil => exact .refl s
  | cons x l ih => exact (h s x).trans (ih (f s x))

/-- A change of a die that keeps it in range. -/
theorem State.updDie_goes (s : State) (d : Nat) (f : Die → Die)
    (h : ∀ x : Die, 1 ≤ x.k.toNat → x.k.toNat ≤ 16 → x.point.toNat ≤ 5 →
      1 ≤ (f x).k.toNat ∧ (f x).k.toNat ≤ 16 ∧ (f x).point.toNat ≤ 5) : s.Goes (s.updDie d f) := by
  refine ⟨rfl, fun k => Nat.le_refl _, fun hd c => ?_⟩
  have e : (s.updDie d f).die c = if c = d then f (s.die d) else s.die c := tget_tupd _ _ _ _ _
  rw [e]
  split
  · exact h _ (hd d).1 (hd d).2.1 (hd d).2.2
  · exact hd c

/-- One arithmetic cycle less. -/
theorem Die.lower_range (x : Die) (h1 : 1 ≤ x.k.toNat) (h2 : x.k.toNat ≤ 16) (h3 : x.point.toNat ≤ 5) :
    1 ≤ x.lower.k.toNat ∧ x.lower.k.toNat ≤ 16 ∧ x.lower.point.toNat ≤ 5 := by
  simp only [Die.lower]
  refine ⟨?_, ?_, h3⟩ <;> (split <;> first | decide | bv_omega)

/-- One more. -/
theorem Die.raise_range (x : Die) (h1 : 1 ≤ x.k.toNat) (h2 : x.k.toNat ≤ 16) (h3 : x.point.toNat ≤ 5) :
    1 ≤ x.raise.k.toNat ∧ x.raise.k.toNat ≤ 16 ∧ x.raise.point.toNat ≤ 5 := by
  simp only [Die.raise]
  refine ⟨?_, ?_, h3⟩ <;> (split <;> first | decide | bv_omega)

theorem State.lowerAll_goes (s : State) : s.Goes s.lowerAll :=
  foldl_goes _ (fun s d => s.updDie_goes d _ Die.lower_range) _ _

theorem State.stepK_goes (s : State) (m : MeterSample) : s.Goes (s.stepK m) := by
  simp only [State.stepK]
  split
  · exact s.lowerAll_goes
  · split
    · refine foldl_goes _ (fun s d => ?_) _ _
      split
      · exact .refl s
      · exact s.updDie_goes d _ Die.raise_range
    · exact .refl s

theorem State.movePoint_goes (s : State) (d p : Nat) (h : p ≤ 5) : s.Goes (s.movePoint d p) := by
  have h1 : s.Goes (s.updDie d fun x => { x with point := BitVec.ofNat 3 p, mv := BitVec.ofNat 16 (s.marginMv d p) }) := by
    refine s.updDie_goes d _ fun x h1 h2 _ => ⟨h1, h2, ?_⟩
    simp
    omega
  exact h1.then_kept (State.bump_kept _ _ _)

theorem State.coolDie_goes (s : State) (d : Nat) (t : Word) : s.Goes (s.coolDie d t) := by
  unfold State.coolDie
  extract_lets u v
  have hu : s.Goes u := by
    have ha : ∀ b : Bool, s.Goes (s.updDie d fun x => { x with noRaise := b }) :=
      fun b => s.updDie_goes d _ fun x h1 h2 h3 => ⟨h1, h2, h3⟩
    simp only [u]
    split
    · exact ha true
    · split
      · exact ha false
      · exact .refl s
  have hv : s.Goes v := by
    simp only [v]
    split
    · exact hu
    · exact hu.trans (u.movePoint_goes d 5 (by omega))
  split
  · exact hv.trans (v.updDie_goes d _ fun x _ _ h3 => ⟨by simp, by simp, h3⟩)
  · exact hu

theorem State.readOne_goes (s : State) (r : Nat × Word) : s.Goes (s.readOne r) := by
  unfold State.readOne
  extract_lets u v
  have hu : s.Goes u := by
    simp only [u]
    split
    · exact s.coolDie_goes r.1 r.2
    · exact .refl s
  have hv : s.Goes v := hu.then_kept (State.alarmOf_kept _ _ _)
  split
  · exact hv.then_kept (State.trip_kept _ _ _)
  · exact hv

theorem State.raiseCounters_goes (s : State) : s.Goes s.raiseCounters := by
  unfold State.raiseCounters
  refine foldl_goes _ (fun s k => ?_) _ _
  split
  · exact .refl s
  · rename_i o _
    split
    · rename_i h
      refine State.Goes.then_kept (t := { s with boot := { s.boot with
        counters := tput s.boot.counters k (BitVec.ofNat 32 (objVersion o)) } }) ⟨rfl, fun j => ?_, fun hd => hd⟩
        (State.logEvent_kept _ _ _ _ _)
      simp only [Boot.counter, find_tput]
      by_cases hj : j = k
      · subst hj
        simp only [if_true]
        have hb : objVersion o < 2 ^ 32 := field_lt o 8 4
        have hc : (s.boot.counter j).toNat < objVersion o := h
        simp only [Boot.counter] at hc
        simp only [BitVec.toNat_ofNat, Nat.mod_eq_of_lt hb]
        exact Nat.le_of_lt hc
      · simp [hj]
    · exact .refl s

/-! ### Boot, resets, and the end of the inhibit -/

/-- What a reset leaves: the queue, the counters, and dies as they are at reset. -/
theorem State.Goes.of_reset {s t : State} (h1 : t.pending = s.pending) (h2 : t.boot.counters = s.boot.counters)
    (h3 : t.pwr.dies = []) : s.Goes t := by
  refine ⟨h1, fun k => ?_, fun _ d => ?_⟩
  · simp [Boot.counter, h2]
  · simp [State.die, h3, tget, Die.reset]

theorem State.moduleReset_goes (s : State) : s.Goes s.moduleReset := .of_reset rfl rfl rfl

theorem State.cold_goes (s : State) : s.Goes s.cold := .of_reset rfl rfl rfl

theorem State.restart_goes (s : State) : s.Goes s.restart := by
  exact s.moduleReset_goes.then_kept rfl

theorem State.powerUp_goes (s : State) : s.Goes s.powerUp := by
  unfold State.powerUp
  exact s.cold_goes.then_kept (by simp)

theorem State.lockRoot_goes (s : State) (d : Nat) : s.Goes (s.lockRoot d) := by
  unfold State.lockRoot
  exact s.updDie_goes d _ fun x h1 h2 h3 => ⟨h1, h2, h3⟩

theorem State.lockRoots_goes (s : State) (l : List Nat) : s.Goes (l.foldl State.lockRoot s) :=
  foldl_goes _ State.lockRoot_goes _ _

theorem State.clustersOn_kept (s : State) : s.clustersOn.kept = s.kept := foldl_kept _ (by intro s x; simp) _ _

theorem State.meshUp_kept (s : State) : s.meshUp.kept = s.kept := rfl

theorem State.powerStage_goes (s : State) : s.Goes s.powerStage :=
  ((State.Goes.of_kept s.clustersOn_kept).trans (s.clustersOn.lockRoots_goes _)).then_kept (State.meshUp_kept _)

theorem State.loadObject_kept (s : State) (kind : Nat) : (s.loadObject kind).1.kept = s.kept := by
  simp only [State.loadObject]
  split
  · rfl
  · split <;> simp

theorem State.loadStage_goes (s : State) (kind : Nat) (f : State → List Byte → State)
    (h : ∀ (s : State) (o : List Byte), s.Goes (f s o)) : s.Goes (s.loadStage kind f) := by
  have hk := s.loadObject_kept kind
  unfold State.loadStage
  split
  · rename_i u o e
    rw [e] at hk
    exact (State.Goes.of_kept hk).trans ((State.Goes.of_kept (State.runObject_kept u kind o)).trans (h _ _))
  · rename_i u why e
    rw [e] at hk
    exact (State.Goes.of_kept hk).then_kept (State.halt_kept _ _)

@[simp] theorem State.identityStage_kept (s : State) : s.identityStage.kept = s.kept := rfl

@[simp] theorem State.aliasStage_kept (s : State) : s.aliasStage.kept = s.kept := rfl

@[simp] theorem State.signChain_kept (s : State) : s.signChain.kept = s.kept := rfl

theorem State.readyStage_goes (s : State) : s.Goes s.readyStage := by
  simp only [State.readyStage]
  split
  · exact .of_kept rfl
  · refine State.Goes.trans ?_ (State.raiseCounters_goes _)
    exact .of_kept rfl

theorem State.fabricStage_goes (s : State) (bad : List Nat) : s.Goes (s.fabricStage bad) := by
  unfold State.fabricStage
  split
  · exact .of_kept rfl
  · refine s.loadStage_goes 4 _ fun s o => ?_
    exact (State.Goes.of_kept (by simp)).trans (State.readyStage_goes _)

theorem State.stageDone_goes (s : State) (b : BootFindings) : s.Goes (s.stageDone b) := by
  unfold State.stageDone
  split
  · split
    · exact .refl s
    · exact .of_kept (by simp)
  · split <;> exact .of_kept (by simp)
  · split
    · refine State.Goes.trans (State.Goes.of_kept (State.logManifests_kept s)) (State.loadStage_goes _ 1 _ fun s o => ?_)
      exact .of_kept rfl
    · exact .of_kept (State.halt_kept _ _)
  · exact s.loadStage_goes 3 _ fun s o => .of_kept (by simp)
  · exact s.loadStage_goes 2 _ fun s o => .of_kept (by simp)
  · split
    · exact s.powerStage_goes.then_kept (State.toStage_kept _ _)
    · exact .refl s
  · split
    · exact s.fabricStage_goes _
    · exact .refl s
  · exact .refl s

theorem State.flushFlash_goes (s : State) : s.Goes s.flushFlash := by
  unfold State.flushFlash
  extract_lets held d u1 c u2 d2 u3 u4 u5 u6 u7
  have h1 : u1.kept = s.kept := rfl
  have h2 : u2.kept = u1.kept := rfl
  have h3 : u3.kept = u2.kept := by simp only [u3]; split <;> rfl
  have h4 : u4.kept = u3.kept := by simp only [u4]; split <;> rfl
  have h5 : u5.kept = u4.kept := by simp only [u5]; split <;> simp
  have h6 : u6.kept = u5.kept := by simp only [u6]; split <;> simp
  have h7 : u7.kept = u6.kept := by simp only [u7]; split <;> simp
  have h : s.Goes u7 := .of_kept (h7.trans (h6.trans (h5.trans (h4.trans (h3.trans (h2.trans h1))))))
  split
  · refine State.Goes.trans ?_ (State.raiseCounters_goes _)
    exact h.then_kept (Eq.trans (b := (u7.pending, u7.boot.counters, u7.pwr.dies)) rfl rfl)
  · exact h

end Sys2Proof.Machine
end

