-- ==== Sys2Proof/Laws/Records.lean ====
section
/-!
SUPPORT. Records in memory: a run of lines stored clean reads back as it was stored, as bytes and as the record of a group.
-/

namespace Sys2Proof.Machine

set_option Elab.async false

/-- The 80 bytes of a clean line with a payload. -/
def storedLine (p : List Byte) : List Byte := p ++ zeros 8 ++ checkBytes (p ++ zeros 8) false

/-- A memory that holds consecutive clean lines from byte x of Ivorn on, and nothing else. -/
def recordCells (x : Nat) (ps : List (List Byte)) : List Host.Cell := Memory.put [] (80 * (x / 64)) (ps.flatMap storedLine)

/-- A payload that is stored in 80 bytes, which decode clean. -/
def StoresClean (correct : Bool) (p : List Byte) : Prop :=
  p.length = 64 ∧ (storedLine p).length = 80
    ∧ decodeLine correct ((storedLine p).take 72) ((storedLine p).drop 72) = .clean (p ++ zeros 8)

/-- Bytes of one entry of equal entries laid end to end. -/
theorem getElem?_flatMap_const {α : Type} (f : α → List Byte) (n : Nat) : ∀ (l : List α) (k : Nat) (a : α) (j : Nat),
    (∀ x ∈ l, (f x).length = n) → l[k]? = some a → j < n → (l.flatMap f)[n * k + j]? = (f a)[j]?
  | [], _, _, _, _, h, _ => by simp at h
  | b :: l, 0, a, j, hl, h, hj => by
    have : a = b := by simpa using h.symm
    have hb := hl b List.mem_cons_self
    subst this
    simp only [List.flatMap_cons, Nat.mul_zero, Nat.zero_add]
    exact List.getElem?_append_left (by omega)
  | b :: l, k + 1, a, j, hl, h, hj => by
    have hb := hl b List.mem_cons_self
    have := getElem?_flatMap_const f n l k a j (fun x hx => hl x (List.mem_cons_of_mem _ hx)) (by simpa using h) hj
    rw [List.flatMap_cons, List.getElem?_append_right (by rw [hb, Nat.mul_succ]; omega), hb, ← this]
    congr 1
    rw [Nat.mul_succ]; omega

/-- A line of the record as it is stored. -/
theorem stored_record (d : Data) (x : Nat) (ps : List (List Byte)) (hc : d.cells = recordCells x ps)
    (hl : ∀ p ∈ ps, (storedLine p).length = 80) (k : Nat) (p : List Byte) (hk : ps[k]? = some p) :
    d.stored (x / 64 + k) = storedLine p := by
  have hp : (storedLine p).length = 80 := hl p (List.mem_of_getElem? hk)
  simp only [Data.stored, hc, Memory.read_eq, recordCells]
  apply List.ext_getElem?
  intro j
  by_cases hj : j < 80
  · have hb := getElem?_flatMap_const storedLine 80 ps k p j hl hk hj
    obtain ⟨b, hb'⟩ : ∃ b, (storedLine p)[j]? = some b := ⟨_, List.getElem?_eq_getElem (by omega)⟩
    rw [hb'] at hb
    have := Memory.get_put_same [] (80 * (x / 64)) (80 * k + j) _ b hb
    have e : 80 * (x / 64 + k) + j = 80 * (x / 64) + (80 * k + j) := by omega
    simp only [List.getElem?_map, List.getElem?_range hj, Option.map_some, e, this, hb']
  · rw [List.getElem?_eq_none (by simp; omega), List.getElem?_eq_none (by omega)]

/-- A line of the record as it is read. -/
theorem readLine_record (d : Data) (e : Env) (x : Nat) (ps : List (List Byte)) (hc : d.cells = recordCells x ps)
    (hf : d.failed = []) (hl : ∀ p ∈ ps, StoresClean d.correct p) (k : Nat) (p : List Byte) (hk : ps[k]? = some p) :
    d.readLine e (x / 64 + k) = (⟨p, zeros 8, false⟩, d) := by
  have hp := hl p (List.mem_of_getElem? hk)
  have hp1 := hp.1
  have hi : d.isFailed (x / 64 + k) = false := by simp [Data.isFailed, hf]
  simp only [Data.readLine, hi, stored_record d x ps hc (fun q hq => (hl q hq).2.1) k p hk, hp.2.2, Data.contain, LineIn.of]
  have : (p ++ zeros 8).take 64 = p := by rw [List.take_append_of_le_length (by omega), List.take_of_length_le (by omega)]
  have h2 : ((p ++ zeros 8).drop 64).take 8 = zeros 8 := by
    rw [List.drop_append_of_le_length (by omega), List.drop_of_length_le (by omega)]; rfl
  simp only [this, h2, Bool.false_eq_true, if_false]

/-- With no transfer error to come, a read over the interface is a read. -/
theorem readOver_clean (d : Data) (e : Env) (l : Nat) (ht : d.transfers = []) : d.readOver e l = d.readLine e l := by
  have h : d.nextTransfer l = (0, d) := by
    unfold Data.nextTransfer
    split
    · cases d; simp_all
    · rfl
  have hb : d.bump Evt.linkRetry 0 = d := by simp [Data.bump]
  simp [Data.readOver, h, hb]

/-- Some lines of the record as they are read. -/
theorem readLines_record {e : Env} (he : e.stacksOn) (a : Acc) (d : Data) (b : Bool) (x : Nat) (ps : List (List Byte))
    (hc : d.cells = recordCells x ps) (hf : d.failed = []) (ht : d.transfers = []) (hm : d.marks = []) (hl : ∀ p ∈ ps, StoresClean d.correct p)
    (hx : x % 64 = 0) (hx' : x + 64 * ps.length < 2 ^ 40) : ∀ (n k : Nat), k + n = ps.length →
    readLines e a (privOf (x + 64 * k)) n ⟨d, b⟩ = (.ok ((ps.drop k).map fun p => ⟨p, zeros 8, false⟩), ⟨d, b⟩)
  | 0, k, h => by
    rw [List.drop_of_length_le (by omega)]; rfl
  | n + 1, k, h => by
    have hk : k < ps.length := by omega
    have hq : ps[k]? = some ps[k] := List.getElem?_eq_getElem hk
    have hd : ps.drop k = ps[k] :: ps.drop (k + 1) := List.drop_eq_getElem_cons hk
    have hi : (x + 64 * k) / 64 = x / 64 + k := by omega
    have hr := (readOver_clean d e _ ht).trans (readLine_record d e x ps hc hf hl k _ hq)
    have hn := readLines_record he a d b x ps hc hf ht hm hl hx hx' n (k + 1) (by omega)
    have hm' : privOf (x + 64 * k) + 64 = privOf (x + 64 * (k + 1)) := by simp only [privOf]; omega
    rw [hd]
    simp only [readLines, readVirt, readPhys, markGate, M.ask, bind, ExceptT.bind, ExceptT.mk, StateT.bind,
      translate_privOf he a false (by omega : x + 64 * k < 2 ^ 40), ExceptT.bindCont, hm, List.find?_nil, Option.map_none, pure,
      ExceptT.pure, StateT.pure, hm', hi, hr, hn, List.map_cons]

/-- All the bytes there are. -/
theorem slice_self (xs : List Byte) (n : Nat) (h : xs.length = n) : slice xs 0 n = xs := by
  simp [slice, ← h]

/-- The whole record as bytes. -/
theorem readBytes_record {e : Env} (he : e.stacksOn) (a : Acc) (d : Data) (b : Bool) (x : Nat) (ps : List (List Byte))
    (hc : d.cells = recordCells x ps) (hf : d.failed = []) (ht : d.transfers = []) (hm : d.marks = []) (hl : ∀ p ∈ ps, StoresClean d.correct p)
    (hx : x % 64 = 0) (hx' : x + 64 * ps.length < 2 ^ 40) :
    readBytes e a (privOf x) (64 * ps.length) ⟨d, b⟩ = (.ok (ps.flatten, false), ⟨d, b⟩) := by
  have h1 : privOf x / 64 * 64 = privOf x := by simp only [privOf]; omega
  have h2 : privOf x % 64 = 0 := by simp only [privOf]; omega
  have h3 : ceilDiv (64 * ps.length) 64 = ps.length := by simp only [ceilDiv]; omega
  have h4 := readLines_record he a d b x ps hc hf ht hm hl hx hx' ps.length 0 (by omega)
  have h5 : (ps.map fun p => (⟨p, zeros 8, false⟩ : LineIn)).flatMap (·.payload) = ps.flatten := by
    rw [List.flatMap_map]; exact List.flatMap_id
  have h6 : ps.flatten.length = 64 * ps.length := by
    clear h4 h5 h3 hc hx'
    induction ps with
    | nil => rfl
    | cons p ps ih =>
      have hp := (hl p List.mem_cons_self).1
      have := ih fun q hq => hl q (List.mem_cons_of_mem _ hq)
      simp only [List.flatten_cons, List.length_append, List.length_cons]; omega
  have h7 : (ps.any fun _ => false) = false := by simp
  simp only [Nat.mul_zero, Nat.add_zero, List.drop_zero] at h4
  simp only [readBytes, h1, h2, Nat.zero_add, h3, h4, bind, ExceptT.bind, ExceptT.mk, StateT.bind, ExceptT.bindCont, pure,
    ExceptT.pure, StateT.pure, h5, slice_self _ _ h6, List.any_map, Function.comp_def, h7]

/-- The record of a group whose address is that of the lines. -/
theorem readGroup_record (s : State) (g : Nat) (he : (s.groupEnv g).stacksOn) (x : Nat) (ps : List (List Byte))
    (ha : (s.group g).addr.toNat = privOf x) (hc : s.dp.cells = recordCells x ps) (hf : s.dp.failed = []) (ht : s.dp.transfers = []) (hm : s.dp.marks = [])
    (hl : ∀ p ∈ ps, StoresClean s.dp.correct p) (hx : x % 64 = 0) (hx' : x + 9280 < 2 ^ 40) (hn : ps.length = 145) :
    s.readGroup g = .record ps.flatten := by
  have h := readBytes_record he s.linkAcc s.dp false x ps hc hf ht hm hl hx (by omega)
  rw [hn] at h
  have h0 : privOf x ≠ 0 := by simp only [privOf]; omega
  have h' : readBytes (s.groupEnv g) s.linkAcc (privOf x) groupBytes ⟨s.dp, false⟩ = (.ok (ps.flatten, false), ⟨s.dp, false⟩) := h
  simp [State.readGroup, ha, h0, h']

/-- And so it can be read now. -/
theorem groupRecord_record (s : State) (g : Nat) (he : (s.groupEnv g).stacksOn) (x : Nat) (ps : List (List Byte))
    (ha : (s.group g).addr.toNat = privOf x) (hc : s.dp.cells = recordCells x ps) (hf : s.dp.failed = []) (ht : s.dp.transfers = []) (hm : s.dp.marks = [])
    (hl : ∀ p ∈ ps, StoresClean s.dp.correct p) (hx : x % 64 = 0) (hx' : x + 9280 < 2 ^ 40) (hn : ps.length = 145) :
    s.groupRecord g = some ps.flatten := by
  simp only [State.groupRecord, readGroup_record s g he x ps ha hc hf ht hm hl hx hx' hn]

end Sys2Proof.Machine
end

