-- ==== Sys2Proof/Tests/Slice0.lean ====
section
/-!
SUPPORT. The model's own tests: ill-formed commands, results that the spec states, and for each statement with hypotheses a
state and operands that meet them.
-/

namespace Sys2Proof.Tests

set_option Elab.async false

open Sys2Proof.Machine

/-! ### Helpers -/

/-- A module that is ready: every power domain on, the host free to be asked for memory. -/
def up : State := { State.reset with
  pwr := { Pwr.reset with
    doms := (List.range 32).map fun x => (x, ⟨1, .on, false, 0⟩), meshOn := true, hostOn := true, pwrOk := true }
  pci := { Pci.reset with down := false, busMaster := true }
  rng := { Rng.reset with entOk := true, seeded := true }
  boot := { Boot.reset with stage := 7, mgmtMac := 0x02A1B2C3D4E5, hwMac := 0x02A1B2C3D400 } }

/-- A module with one power domain in a state. -/
def upDom (x : Nat) (d : Domain) : State := { up with pwr := { up.pwr with doms := tput up.pwr.doms x d } }

/-- A descriptor of 64 bytes with some fields set: offset, length, value. -/
def desc (fs : List (Nat × Nat × Nat)) : List Byte :=
  fs.foldl (fun d f => splice d f.1 (natLE f.2.1 f.2.2)) (List.replicate 64 0)

/-- The one instance of an operation that still runs. -/
def inst : Inst := ⟨0, .running, [], Effects.none, 0, 0, 0⟩

/-- Operation 7 of queue 3. -/
def oper (d : List Byte) (recs : Tab (List Byte)) (nums : Tab Nat) : Op := ⟨7, 3, 0, d, 0, [inst], none, recs, nums, false, []⟩

/-- A state with operation 7 in flight. -/
def State.flying (s : State) (d : List Byte) (recs : Tab (List Byte)) (nums : Tab Nat) : State :=
  { s with ops := [oper d recs nums], nextOp := 8 }

/-- It runs. -/
theorem flying_runs (s : State) (d : List Byte) (recs : Tab (List Byte)) (nums : Tab Nat) :
    (State.flying s d recs nums).Running 7 0 (opcodeOf d) (oper d recs nums) inst := ⟨rfl, rfl, rfl, rfl⟩

/-- A module whose queue 63 runs with one descriptor, fetched and perhaps checked. -/
def queued (d : List Byte) (checked : Bool) : State := { up with
  que := [(63, { Queue.reset with enable := true, state := 1, tail := 1, fetched := [(0, d)], checked := checked })] }
/-- The descriptor of a NOP that signals counter 12 by 3, and counter 5 as its wait with value 1. -/
def nop : List Byte := desc [(0, 2, 0x0F01), (4, 2, 0xFFFF), (12, 2, 12), (14, 2, 3)]
/-- The state in which an operation is in flight on the ready module. -/
def fly (d : List Byte) : State := State.flying up d [] []

/-- Work that ends without a fault. -/
def fine {α : Type} : Option (Except (XfKind × Nat) α × Data) → Bool
  | some (.ok _, _) => true
  | _ => false

/-- Such work has a result. -/
theorem fine_has {α : Type} {x : Option (Except (XfKind × Nat) α × Data)} (h : fine x = true) :
    ∃ a d, x = some (.ok a, d) := by
  match x, h with
  | some (.ok a, d), _ => exact ⟨a, d, rfl⟩

/-- The address of byte x of stack 0. -/
def ivorn (x : Nat) : Nat := 0xC00000000000000 + x

/-- Every stack of the ready module is on. -/
theorem stacks_of {s : State} (hs : s.pwr = up.pwr) (mask : Nat) : (s.env mask).stacksOn := by
  have h : ∀ x : Fin 32, 16 ≤ x.val → (up.domain x.val).st = .on := by decide
  intro x h1 h2
  have h3 := h ⟨x, h2⟩ h1
  simp only [State.env, State.domain, hs] at h3 ⊢
  rw [h3]

/-- The result of a command. -/
def after (o : Host.Outcome State Fault Refusal) : State :=
  match o with
  | .next s => s
  | .fault _ => .reset
  | .refused _ => .reset

/-! ### Ill-formed commands are refused by the check -/

theorem test_wf_queue : (Instr.doorbellWrite 64 0).wf = false := by decide
theorem test_wf_counter : (Instr.cntAdd 4096 1).wf = false := by decide
theorem test_wf_event : (Instr.evtClear 0x1000).wf = false := by decide +kernel
theorem test_wf_cluster : (Instr.runaheadCfgWrite 800 0).wf = false := by decide
theorem test_wf_lane : (Instr.laneConfigWrite 16 .size 0).wf = false := by decide
theorem test_wf_string : (Instr.stringReseed 832 0).wf = false ∧ (Instr.stringReseed 0 128).wf = false := by decide
theorem test_wf_port : (Instr.portEnable 16).wf = false := by decide
theorem test_wf_peer : (Instr.peerReset 4096).wf = false := by decide
theorem test_wf_channel : (Instr.mbxWordWrite 1 64 0 0).wf = false ∧ (Instr.mbxWordWrite 1 0 8 0).wf = false := by decide
theorem test_wf_lock : (Instr.acquire 1 47 2).wf = false := by decide
theorem test_wf_vector : (Instr.msixUnmask 256).wf = false := by decide
theorem test_wf_domain : (Instr.domainReqOn 32).wf = false := by decide
theorem test_wf_die : (Instr.thermalKStep 4).wf = false := by decide
theorem test_wf_sensor : (Instr.thermalTrip 5 0).wf = false ∧ (Instr.thermalTrip 0x20 0).wf = false := by decide
theorem test_wf_descriptor : (Instr.descriptorFetch 0 0 (List.replicate 63 0)).wf = false := by decide
theorem test_wf_line : (Instr.scrub (2 ^ 34 + 800 * 2 ^ 15)).wf = false := by decide
theorem test_wf_offset : (Instr.registerWrite .bar0 (2 ^ 26) 8 0).wf = false ∧
    (Instr.registerWrite .bar2 (2 ^ 20) 8 0).wf = false := by decide

/-- An empty Hawser frame of a type. -/
def frame (t : BitVec 4) (kind : BitVec 8) : HwFrame :=
  { fcsOk := true, dstMac := 0x02A1B2C3D400, srcMac := 0x020000000001, vlan := none, etherType := 0x88B6, version := 1, type := t
    kind := kind, srcId := 5, srcPort := 0, dstId := 0, psn := 0, ackPsn := 0, epoch := 0, group := 0, revision := 0, msgId := 0
    lineOffset := 0, msgLines := 0, addr := 0, remoteCounter := 0, remoteIncrement := 0, poison := 0, lines := [] }

/-- A dictionary request to the module of `up`. -/
def request (service : BitVec 8) (index : BitVec 16) (sub : BitVec 8) (data : List Byte) : MgmtFrame :=
  { dst := 0x02A1B2C3D4E5, src := 0x020000000009, etherType := 0x88B5, tagged := false, version := 1, service := service, tid := 77
    index := index, sub := sub, status := 0, offset := 0, flags := 0, total := 0, reservedSet := false, length := data.length
    data := data }

theorem test_wf_frame : (Instr.rxData 0 { frame 0 0 with lines := [([], [])] }).wf = false := by decide
theorem test_wf_mgmt : (Instr.writeReq { request 3 0x1000 1 [] with length := 1 }).wf = false
    ∧ (Instr.readReq { request 1 0x1000 1 [] with length := 4 }).wf = true := by decide

/-! ### Registers, queues and dispatch (chapter 11) -/


/-- A CHECK on verdict slot 2 with gate counter 9. -/
def checkOp : List Byte := desc [(0, 2, 0x0A02), (4, 2, 0xFFFF), (49, 1, 2), (56, 2, 9), (58, 2, 1), (60, 2, 10)]
/-- A RELEASE that may run ahead: it waits for counter 9 to reach 1. -/
def aheadRelease : List Byte := desc [(0, 2, 0x0102), (2, 1, 1), (4, 2, 9), (8, 4, 1), (12, 2, 12)]
/-- A module whose verdict slot 2 is PENDING on counter 9. -/
def verdictPending (s : State) : State :=
  { s with tun := { s.tun with verdicts := [(2, { Verdict.reset with pending := true, gate := 9, target := 1 })] } }

/-- A host write of one line waits; the step makes it. -/
def writing : State := { up with pending := [.bar4Write 128 (List.replicate 64 0x5A) false] }

theorem witness_steps : State.reset.pending = [] ∧ (∃ t, exec .tunerDisable State.reset = .next t)
    ∧ (∃ t, Memory.wf State.reset.dp.cells = true ∧ step State.reset = .next t)
    ∧ (∀ d, 1 ≤ (State.reset.die d).k.toNat ∧ (State.reset.die d).k.toNat ≤ 16 ∧ (State.reset.die d).point.toNat ≤ 5) :=
  ⟨rfl, ⟨_, rfl⟩, ⟨_, by decide, rfl⟩, fun _ => ⟨by change 1 ≤ Die.reset.k.toNat; decide, by change Die.reset.k.toNat ≤ 16; decide,
    by change Die.reset.point.toNat ≤ 5; decide⟩⟩
theorem test_step_stores : Memory.wf (after (step writing)).dp.cells = true ∧ (after (step writing)).dp.stored 2 ≠ writing.dp.stored 2 := by
  decide +kernel
theorem witness_registerOffsets : ¬ ((4 = 4 ∨ 4 = 8) ∧ 0x1002 % 4 = 0) ∧ 2 ^ 26 ≤ 2 ^ 26 ∧ 63 < 64
    ∧ (up.queue 63).state = 0 ∧ (up.queue 63).headWb = 0 ∧ Evt.dbReject ∈ allEvents := by decide +kernel
theorem witness_doorbell : ((16 : Word) - (up.queue 63).head).toNat ≤ 2 ^ (up.queue 63).sizeLog2.toNat
    ∧ ((16 : Word) - (up.queue 63).tail).toNat < 2 ^ 31
    ∧ ¬ (((17 : Word) - (up.queue 63).head).toNat ≤ 2 ^ (up.queue 63).sizeLog2.toNat) := by decide +kernel
theorem test_doorbell : ((after (exec (.doorbellWrite 63 16) up)).queue 63).tail = 16
    ∧ (after (exec (.doorbellWrite 63 17) up)).count Evt.dbReject = 1 := by decide +kernel
theorem witness_wait : waitMet 0x7FFFFFFF 0 = true ∧ waitMet 0x80000000 0 = false ∧ waitIndex aheadRelease ≠ 0xFFFF
    ∧ ((0x7FFFFFFE : Word) - 0).toNat + 1 < 0x80000000 ∧ (3 : Word) ≠ 1 + 0x80000000 ∧ (3 : Word) ≠ 1 := by decide
theorem witness_fetch : up.mayIssue = true ∧ ((queued nop false).queue 63).enable = true ∧ ((queued nop false).queue 63).state = 1
    ∧ ((0 : Word) - ((queued nop false).queue 63).head).toNat
        < (((queued nop false).queue 63).tail - ((queued nop false).queue 63).head).toNat
    ∧ ((queued nop false).queue 63).checked = false := by decide +kernel
theorem witness_faultLog : let full := { up with hst := { Hst.reset with prod := 64 } }
    (full.hst.prod - full.hst.cons).toNat = 2 ^ full.hst.logSizeLog2.toNat
    ∧ (up.hst.prod - up.hst.cons).toNat ≠ 2 ^ up.hst.logSizeLog2.toNat := by decide
theorem witness_header : ((queued nop false).queue 63).front = some nop ∧ ((queued nop false).queue 63).checked = false
    ∧ ((queued nop false).queue 63).skip = 0 ∧ headerCheck nop = none
    ∧ headerCheck (desc [(0, 2, 0x0B01), (4, 2, 0xFFFF)]) = some (Code.badOpcode, 0)
    ∧ bits (flagsOf (desc [(2, 1, 16)])) 7 4 ≠ 0 ∧ signalIndex (desc [(0, 2, 0x0F01), (12, 2, 4096)]) ≥ 4096 := by decide +kernel
theorem witness_checkArm : (∃ h, ((queued checkOp true).queue 63).next = some h ∧ h.redo = false ∧ opcodeOf h.desc = 0x0A02
    ∧ checkCheck h.desc = none ∧ (queued checkOp true).armBlocked h.desc = false)
    ∧ ((queued checkOp true).queue 63).armed = none :=
  ⟨⟨⟨checkOp, 0, false⟩, by rfl, rfl, by decide +kernel, by decide +kernel, by decide +kernel⟩, by decide +kernel⟩
theorem test_checkArm : ((after (exec (.checkArm 63) (queued checkOp true))).verdict 2).pending = true := by decide +kernel

/-- The NOP at the head of queue 63. -/
def nopHead : Head := ⟨nop, 0, false⟩
/-- The RELEASE at the head of queue 63, and the plan of its checks. -/
def releaseHead : Head := ⟨aheadRelease, 0, false⟩
/-- The plan that some checks answer. -/
def planOf (r : Except (Nat × Nat) Plan × Io) : Plan := match r.1 with | .ok p => p | .error _ => Plan.one [] []
/-- They pass. -/
def passes (r : Except (Nat × Nat) Plan × Io) : Bool := match r.1 with | .ok _ => !r.2.wait | .error _ => false
/-- Checks that pass answer their plan. -/
theorem passes_plan {r : Except (Nat × Nat) Plan × Io} (h : passes r = true) : r = (.ok (planOf r), r.2) ∧ r.2.wait = false := by
  obtain ⟨x, io⟩ := r
  cases x with
  | error e => simp [passes] at h
  | ok p => simpa [passes, planOf] using h

theorem witness_dispatch : (queued nop true).ready 63 = some nopHead ∧ (queued nop true).wins 63 nop = true
    ∧ (queued nop true).needsCourses nop = none
    ∧ passes ((queued nop true).checks 63 nop ⟨(queued nop true).dp, false⟩) = true
    ∧ (queued nop true).drawBlocked nopHead (planOf ((queued nop true).checks 63 nop ⟨(queued nop true).dp, false⟩)) = false := by
  refine ⟨by rfl, ?_⟩; decide +kernel
theorem witness_dispatchFault : let bad := desc [(0, 2, 0x0F09), (4, 2, 0xFFFF)]
    (queued bad true).ready 63 = some ⟨bad, 0, false⟩
    ∧ ((queued bad true).checks 63 bad ⟨(queued bad true).dp, false⟩).1.toBool = false := by
  refine ⟨by rfl, ?_⟩; decide +kernel
theorem witness_runAhead : let s := verdictPending (queued aheadRelease true)
    s.candidate 63 = some releaseHead ∧ s.aheadSlot aheadRelease = some 2 ∧ s.wins 63 aheadRelease = true
    ∧ s.needsCourses aheadRelease = none ∧ (s.aheadLaunch 63 releaseHead 2).isSome = true := by
  refine ⟨by rfl, ?_⟩; decide +kernel
theorem test_runAhead : (after (exec (.runAheadDispatch 63) (verdictPending (queued aheadRelease true)))).ops.map (·.ahead)
    = [some 2] := by decide +kernel
theorem test_dispatch : (after (exec (.dispatch 63) (queued nop true))).ops.length = 1
    ∧ ((after (exec (.dispatch 63) (queued nop true))).queue 63).head = 1 := by decide +kernel
theorem witness_start : nopHead.redo = false ∧ (Plan.one [] []).insts = [(0, 0, 0)] := ⟨rfl, rfl⟩
/-- The queue of a GATE that skips. -/
def skipping : State := { up with que := [(63, { (queued nop false).queue 63 with skip := 2 })] }
theorem witness_skip : (skipping.queue 63).front = some nop ∧ (skipping.queue 63).skip ≠ 0 ∧ skipping.contextRuns = false
    ∧ (skipping.queue 63).headWb = 0 ∧ signalIndex nop < 4096 := by decide +kernel
theorem test_skip : (after (exec (.descSkipped 63) skipping)).cnt = [(12, ⟨3, 0, false⟩)] := by decide +kernel

/-- A NOP that has done its work, with a fault code. -/
def ended (code : Nat) : State := { up with ops := [{ oper nop [] [] with insts := [{ inst with phase := .done, fault := code }] }] }
theorem witness_completion (code : Nat) : ∃ o i, (ended code).findOp 7 = some o ∧ o.findInst 0 = some i ∧ i.phase = .done
    ∧ o.ahead = none ∧ o.orphan = false ∧ i.fault = code := ⟨_, _, rfl, rfl, rfl, rfl, rfl, rfl⟩
theorem test_completion : (after (exec (.completionSignal 7 0) (ended 0))).counter 12 = ⟨3, 0, false⟩
    ∧ (after (exec (.completionSignal 7 0) (ended 0x11))).counter 12 = ⟨3, 0x11, true⟩ := by decide +kernel
theorem witness_queues : (up.queue 63).state = 0 ∧ (∀ o ∈ up.ops, o.q = 63 → o.orphan = true)
    ∧ ({ Queue.reset with state := 3 } : Queue).state = 3 ∧ bit (1 : Reg).toNat 0 = true := by decide +kernel
theorem test_resume : ((after (exec (.resume 63 1) { up with que := [(63, { Queue.reset with enable := true, state := 3 })] })).queue 63).state
    = 1 := by decide +kernel

/-! ### Sweeps, conversions, programs, the tuner, stow (chapters 03, 04, 06) -/

/-- A sweep of one element on bass, binary32 by binary32, on lines of stack 0. -/
def sweepOp : List Byte := desc [(0, 2, 0x0101), (3, 1, 1), (12, 2, 12), (16, 8, ivorn 0x1000), (24, 8, ivorn 0x2000), (32, 8, ivorn 0x3000),
  (40, 3, 1), (43, 3, 1), (46, 3, 1), (49, 1, 0x24)]
/-- A conversion of one row of 32 binary32 elements to E4M3. -/
def convertOp : List Byte := desc [(0, 2, 0x0201), (16, 8, ivorn 0x3000), (24, 8, ivorn 0x1000), (54, 1, 0x0C), (58, 3, 1), (61, 3, 32)]
/-- A RUN over one element whose program is END. -/
def runOp : List Byte := desc [(0, 2, 0x0401), (32, 3, 1), (35, 3, 1)]

theorem witness_sweep : (fly sweepOp).Running 7 0 0x0101 (oper sweepOp [] []) inst ∧ ∃ w d, (fly sweepOp).run (do
      let w ← (fly sweepOp).workOf (oper sweepOp [] []) 0
      writeAll ((fly sweepOp).envOf (oper sweepOp [] [])) (w.writes ++ w.eff.recs)
      pure w) = some (.ok w, d) :=
  ⟨flying_runs up sweepOp [] [], fine_has (by decide +kernel)⟩
theorem witness_convert : (fly convertOp).Running 7 0 0x0201 (oper convertOp [] []) inst ∧ ∃ w d, (fly convertOp).run (do
      let w ← (fly convertOp).workOf (oper convertOp [] []) 0
      writeAll ((fly convertOp).envOf (oper convertOp [] [])) (w.writes ++ w.eff.recs)
      pure w) = some (.ok w, d) :=
  ⟨flying_runs up convertOp [] [], fine_has (by decide +kernel)⟩
theorem witness_run : (fly runOp).Running 7 0 0x0401 (oper runOp [] []) inst ∧ (fly runOp).lossBusy (oper runOp [] []) = false
    ∧ ∃ w d, (fly runOp).run (do
      let w ← (fly runOp).workOf (oper runOp [] []) 0
      writeAll ((fly runOp).envOf (oper runOp [] [])) (w.writes ++ w.eff.recs)
      pure w) = some (.ok w, d) :=
  ⟨flying_runs up runOp [] [], by decide +kernel, fine_has (by decide +kernel)⟩
theorem witness_instanceFault : ∃ w d, (fly sweepOp).run (do
      let w ← sweepPoison ((fly sweepOp).envOf (oper sweepOp [] [])) (oper sweepOp [] []).acc (oper sweepOp [] [])
        (sweepJob (oper sweepOp [] []) 0) Code.arrayErr 0 none
      writeAll ((fly sweepOp).envOf (oper sweepOp [] [])) (w.writes ++ w.eff.recs)
      pure w) = some (.ok w, d) := fine_has (by decide +kernel)
theorem test_instanceFault : let t := after (exec (.sweepInstanceFault 7 0 .meshErr) (fly sweepOp))
    t.bass.faulted = 1 ∧ t.treble.faulted = 0 ∧ t.count (Evt.fab true Evt.sweepFault) = 1 := by decide +kernel
/-- A RELEASE of bass course 0, whose tile is held. -/
def releaseOp : List Byte := desc [(0, 2, 0x0102), (3, 1, 1), (12, 2, 12)]
/-- The module with that tile. -/
def tiled : State := { fly releaseOp with bass := { Fabric.reset with tiles := [(0, ⟨9, 1, 1, .f32, true, [.zero]⟩)] } }
theorem witness_release : tiled.Running 7 0 0x0102 (oper releaseOp [] []) inst
    ∧ 0 ∈ coursesOf releaseOp (tiled.fabric (swBass releaseOp)).courses.toNat
    ∧ tget 0 (tiled.fabric (swBass releaseOp)).loaders 0 ≤ 7 := ⟨⟨rfl, by decide +kernel, rfl, rfl⟩, by decide +kernel⟩
theorem test_release : (after (exec (.release 7) tiled)).bass.tiles = [] := by decide +kernel
theorem test_tuner : (after (exec .tunerDisable (after (exec .tunerEnable up)))).tun = up.tun := by decide +kernel
/-- A state whose logical cluster 799 has a log of 16 lines in force, with one line in it. -/
def logging : State := { up with dp := { up.dp with
  raCfg := [(799, ⟨0, 16, 0, 16, 2⟩)], undo := [⟨2 ^ 34 + 799 * 2 ^ 15 + 100, 3, []⟩], marks := [(2 ^ 34 + 799 * 2 ^ 15 + 100, 3)] } }
theorem witness_runAheadCfg : up.dp.logUsed 799 = 0 ∧ logging.dp.logUsed 799 ≠ 0 := by decide +kernel
/-- A SAMPLE of one bfloat16 element. -/
def sampleOp : List Byte := desc [(0, 2, 0x0A01), (12, 2, 12), (16, 8, ivorn 0x1000), (24, 8, ivorn 0x2000), (32, 8, ivorn 0x3000),
  (48, 3, 1), (51, 3, 1), (54, 3, 1), (57, 2, 283), (60, 1, 8)]
theorem witness_sample : let o := oper sampleOp [] [(1, 0), (2, 0), (3, 0), (4, 1)]
    let s := State.flying up sampleOp [] [(1, 0), (2, 0), (3, 0), (4, 1)]
    s.Running 7 0 0x0A01 o inst ∧ o.num Lab.live ≠ 0 ∧ (oper sampleOp [] []).num Lab.live = 0
      ∧ ∃ r d, s.run (sampleWork (s.envOf o) o.acc o) = some (.ok r, d) :=
  ⟨⟨rfl, by decide +kernel, rfl, rfl⟩, by decide +kernel, by decide +kernel, fine_has (by decide +kernel)⟩
theorem witness_check : (fly checkOp).Running 7 0 0x0A02 (oper checkOp [] []) inst ∧ (oper checkOp [] []).orphan = false
    ∧ (∀ p ∈ (fly checkOp).ops, p.ahead ≠ some (bits (field checkOp 49 1) 3 0))
    ∧ ∃ r d, (fly checkOp).run (recordSums ((fly checkOp).envOf (oper checkOp [] [])) (oper checkOp [] []).acc checkOp) = some (.ok r, d) :=
  ⟨⟨rfl, by decide +kernel, rfl, rfl⟩, rfl, by decide +kernel, fine_has (by decide +kernel)⟩
theorem test_check : (after (exec (.check 7) (verdictPending (fly checkOp)))).counter 9 = ⟨1, 0, false⟩
    ∧ ((after (exec (.check 7) (verdictPending (fly checkOp)))).verdict 2).pending = false := by decide +kernel
theorem test_verdictReasons : reasons (desc [(50, 1, 3), (53, 3, 7)]) 8 1 ⟨0, 0, 0, 7, false⟩ = 8
    ∧ reasons (desc [(50, 1, 3), (53, 3, 7)]) 7 1 ⟨0, 0, 0, 6, false⟩ = 1 := by decide +kernel
theorem witness_runAheadWrite : ∃ d', logging.dp.writeAhead (logging.env 0) 3 (.part (2 ^ 34 + 799 * 2 ^ 15 + 101) 0 [1]) = .made d' :=
  ⟨_, by rfl⟩

/-- The lane of the stow tests: a table of four frames at 0x4000 and 64 lines of data at 0x8000 of stack 0, 8 of them kept for anchors. -/
def lane15 : Lane := { Lane.reset with hdrBase := BitVec.ofNat 60 (ivorn 0x4000), dataBase := BitVec.ofNat 60 (ivorn 0x8000)
                                       hdrCap := 4, dataLines := 64, reserve := 8 }
/-- The module with that lane 15; the host has written the frame table's first lines. -/
def stowing (s : State) : State :=
  { after (exec (.bar4Write 0x4000 (List.replicate 128 0) false) s) with stw := { Stow.reset with lanes := [(15, lane15)] } }
/-- A PUSH, POP or PEEK of two lines on lane 15. -/
def stowOp (o : Nat) : List Byte :=
  desc [(0, 2, 0x0300 + o), (12, 2, 12), (16, 8, ivorn 0x1000), (32, 4, if o = 1 then 2 else 0), (40, 1, 15), (42, 2, 5), (44, 2, 6), (46, 2, 7)]
/-- The module after a PUSH. -/
def pushed : State := after (exec (.push 7) (stowing (fly (stowOp 1))))
theorem witness_clear : (stowing (fly (desc [(0, 2, 0x0305), (16, 1, 15)]))).Running 7 0 0x0305 (oper (desc [(0, 2, 0x0305), (16, 1, 15)]) [] []) inst
    ∧ laneOf (desc [(0, 2, 0x0305), (16, 1, 15)]) = some 15 := ⟨by unfold State.Running; decide +kernel, by decide +kernel⟩
theorem witness_push : (stowing (fly (stowOp 1))).Running 7 0 0x0301 (oper (stowOp 1) [] []) inst ∧ laneOf (stowOp 1) = some 15
    ∧ ((stowing (fly (stowOp 1))).lane 15).depth ≠ ((stowing (fly (stowOp 1))).lane 15).hdrCap
    ∧ (fly (stowOp 1)).lane 15 = Lane.reset ∧ Lane.reset.depth = Lane.reset.hdrCap :=
  ⟨by unfold State.Running; decide +kernel, by decide +kernel⟩
theorem witness_pushWork : ∃ p d, (stowing (fly (stowOp 1))).run (pushWork ((stowing (fly (stowOp 1))).envOf (oper (stowOp 1) [] []))
    (oper (stowOp 1) [] []).acc (stowOp 1) lane15) = some (.ok p, d) := fine_has (by decide +kernel)
theorem test_push : (pushed.lane 15).depth = 1 ∧ (pushed.lane 15).dataTop = 2 ∧ (pushed.ops.map fun o => o.insts.map (·.fault)) = [[0]] := by
  decide +kernel
theorem test_pop : let t := after (exec (.pop 7) { pushed with ops := [oper (stowOp 2) [] []] })
    (t.lane 15).depth = 0 ∧ (t.lane 15).dataTop = 0 ∧ t.count Evt.framesPopped = 1 := by decide +kernel
theorem test_peek : let t := after (exec (.peek 7) { pushed with ops := [oper (stowOp 3) [] []] })
    t.stw = pushed.stw ∧ t.ops.map (fun o => o.insts.map (·.fault)) = [[0]] := by decide +kernel
theorem test_pushFits : (match (pushWork (up.env 0) ⟨none, 0⟩ (stowOp 1) { lane15 with dataTop := 54 } ⟨up.dp, false⟩).1 with
      | .ok p => p.frame.dropped | .error _ => true) = false
    ∧ (match (pushWork (up.env 0) ⟨none, 0⟩ (stowOp 1) { lane15 with dataTop := 55 } ⟨up.dp, false⟩).1 with
      | .ok p => p.frame.dropped | .error _ => false) = true := by decide +kernel
/-- A GATE on a status byte of 2, with three descriptors behind it. -/
def gateOp : List Byte := desc [(0, 2, 0x0304), (16, 8, ivorn 0x1000), (24, 1, 3)]
/-- The module with that GATE undecided. -/
def gating : State := { after (exec (.bar4Write 0x1000 (2 :: List.replicate 63 0) false) up) with
  ops := [oper gateOp [] []], que := [(3, { Queue.reset with enable := true, state := 1, gate := some 7 })] }
theorem witness_gate : gating.Running 7 0 0x0304 (oper gateOp [] []) inst ∧ (gating.queue 3).gate = some 7
    ∧ ∃ r d, gating.run (gateWork (gating.envOf (oper gateOp [] [])) (oper gateOp [] []).acc gateOp) = some (.ok r, d) :=
  ⟨⟨rfl, by decide +kernel, rfl, rfl⟩, by decide +kernel, fine_has (by decide +kernel)⟩
theorem test_gate : (after (exec (.gate 7) gating)).queue 3 = { gating.queue 3 with gate := none, skip := 0 } := by decide +kernel
theorem witness_lanes : ((stowing up).lane 15).depth = 0 ∧ (stowing up).laneBusy 15 = false ∧ (pushed.lane 15).depth ≠ 0
    ∧ (pushed.laneBusy 15) = true := by decide +kernel

/-! ### Random numbers, memory, the host (chapters 05, 07, 08, 11) -/

/-- An operation whose area begins at 0x1000 of stack 0. -/
def areaOp (code : Nat) : List Byte := desc [(0, 2, code), (12, 2, 12), (16, 8, privOf 0x1000)]

theorem witness_reseed : (fly (desc [(0, 2, 0x0704)])).Running 7 0 0x0704 (oper (desc [(0, 2, 0x0704)]) [] []) inst ∧ up.rng.entOk = true :=
  ⟨⟨rfl, by decide +kernel, rfl, rfl⟩, rfl⟩
/-- A module whose physical cluster 831 stands behind logical cluster 0. -/
def mapped : State := { up with boot := { up.boot with map := [(831, 0)] } }
/-- The last string of that cluster stands at 2^64 - 1. -/
def runOut : State := { mapped with rng := { mapped.rng with strs := [(128 * 831 + 127, ⟨BitVec.allOnes 64, 0⟩)] } }
theorem witness_string : runOut.rng.entOk = true ∧ (runOut.domain (physDom 831)).st = .on ∧ runOut.rng.runsOut 831 127 = true
    ∧ runOut.rng.runsOut 831 126 = false ∧ State.reset.rng.entOk = false ∧ ((upDom 0 ⟨2, .slack, false, 0⟩).domain (physDom 0)).st = .slack
    ∧ ((upDom 0 ⟨0, .off, false, 0⟩).domain (physDom 0)).st = .off := by decide +kernel
theorem test_string : (after (exec (.stringReseed 831 127) runOut)).count Evt.stringReseed = 1
    ∧ (after (exec (.stringReseed 831 126) runOut)).count Evt.stringReseed = 0 := by decide +kernel
theorem witness_entropy : (true || false) = true ∧ State.reset.rng.entOk = false ∧ State.reset.rng.domWait = []
    ∧ State.reset.rng.seedWait = false ∧ ({ State.reset with rng := { Rng.reset with seedWait := true } } : State).rng.seedWait = true := by
  decide
theorem test_health : (after (exec (.entropyHealthFail true true) up)).count Evt.healthFail = 2
    ∧ (after (exec (.entropyHealthFail true true) up)).rng.entOk = false := by decide +kernel
/-- A keyed FILL of 17 words. -/
def fillOp : List Byte := desc [(0, 2, 0x0701), (16, 8, privOf 0x1000), (24, 16, 5), (44, 8, 9), (52, 6, 17)]
theorem witness_fill : 31 < 16 * ceilDiv (field fillOp 52 6) 16 ∧ bit (field fillOp 58 1) 1 = false ∧ bit (field fillOp 58 1) 0 = false
    ∧ (fly fillOp).Running 7 0 0x0701 (oper fillOp [] []) inst := ⟨by decide +kernel, by decide +kernel, by decide +kernel,
      rfl, by decide +kernel, rfl, rfl⟩
theorem witness_fillWork : ∃ u d, (fly fillOp).run (do
    let ws ← putLines ((fly fillOp).envOf (oper fillOp [] [])) (oper fillOp [] []).acc (addrField fillOp 16)
      (fillLines (fly fillOp) (oper fillOp [] [])) false
    writeAll ((fly fillOp).envOf (oper fillOp [] [])) ws) = some (.ok u, d) := fine_has (by decide +kernel)
theorem test_fill : field ((after (exec (.fill 7) (fly fillOp))).dp.stored 65) 4 4 = 0
    ∧ field ((after (exec (.fill 7) (fly fillOp))).dp.stored 65) 0 4 = (keyedWord 5 0 25).toNat := by decide +kernel

theorem witness_save : (fly (areaOp 0x0702)).Running 7 0 0x0702 (oper (areaOp 0x0702) [] []) inst ∧ ∃ d, (fly (areaOp 0x0702)).run (do
    let ws ← putBytes ((fly (areaOp 0x0702)).envOf (oper (areaOp 0x0702) [] [])) (oper (areaOp 0x0702) [] []).acc
      (addrField (areaOp 0x0702) 16) (fly (areaOp 0x0702)).freeImage
    writeAll ((fly (areaOp 0x0702)).envOf (oper (areaOp 0x0702) [] [])) ws) = some (.ok (), d) := by
  refine ⟨⟨rfl, by decide +kernel, rfl, rfl⟩, ?_⟩
  rw [show addrField (areaOp 0x0702) 16 = privOf 0x1000 by decide +kernel]
  exact State.run_putBytes (fly (areaOp 0x0702)) (stacks_of rfl _) _ _ _ (by
    rw [State.freeImage_length]; omega) rfl
/-- The first line of an image: version 1 and a number of present clusters. -/
def imageLine (n : Nat) : List Byte := slice (natLE 2 1 ++ natLE 2 n) 0 64
theorem witness_restore (n : Nat) : let o := oper (areaOp 0x0703) [(1, imageLine n)] []
    let s := State.flying up (areaOp 0x0703) [(1, imageLine n)] []
    s.Running 7 0 0x0703 o inst ∧ (∃ bytes d, s.run (openRead (s.envOf o) o.acc (addrField o.desc 16 + 64) (imageLines - 1)) = some (.ok bytes, d))
      ∧ (∀ bytes, s.unsaved (o.record Lab.image ++ bytes) = []) ∧ s.rng.entOk = true := by
  refine ⟨⟨rfl, by show opcodeOf (areaOp 0x0703) = _; decide +kernel, rfl, rfl⟩, ?_, ?_, rfl⟩
  · rw [show addrField (oper (areaOp 0x0703) [(1, imageLine n)] []).desc 16 + 64 = privOf 0x1040 by
      show addrField (areaOp 0x0703) 16 + 64 = _; decide +kernel]
    exact State.run_openRead _ (stacks_of rfl _) _ _ _ (by decide) rfl
  · intro bytes
    have h : ∀ pc, (State.flying up (areaOp 0x0703) [(1, imageLine n)] []).enabled pc = false := by intro pc; rfl
    simp [State.unsaved, h]
theorem witness_restorePresent : up.present = 800 ∧ field (imageLine 800) 2 2 = 800 ∧ field (imageLine 799) 2 2 = 799
    ∧ (imageLine 800).length = 64 := by decide +kernel

theorem witness_fence : (fly (desc [(0, 2, 0x0801)])).Running 7 0 0x0801 (oper (desc [(0, 2, 0x0801)]) [] []) inst
    ∧ (∀ p ∈ (fly (desc [(0, 2, 0x0801)])).ops, ((fly (desc [(0, 2, 0x0801)])).dp.txGen + 1 - p.pin).toNat < 0x8000)
    ∧ ((({ up.dp with txGen := 0x7FFF } : Data).txGen + 1 - (0 : Half)).toNat ≥ 0x8000) :=
  ⟨⟨rfl, by decide +kernel, rfl, rfl⟩, by decide +kernel, by decide⟩
theorem test_fence : (after (exec (.fence 7) (fly (desc [(0, 2, 0x0801)])))).dp.txGen = 1
    ∧ (after (exec (.fence 7) { fly (desc [(0, 2, 0x0801)]) with dp := { up.dp with txGen := 0x7FFF } })).dp.txGen = 0x7FFF := by
  decide +kernel
/-- A STORE_PTE of 8 bytes. -/
def pteOp : List Byte := desc [(0, 2, 0x0802), (16, 8, privOf 0x1008), (24, 8, 0x1122334455667788)]
theorem witness_storePte : (fly pteOp).Running 7 0 0x0802 (oper pteOp [] []) inst
    ∧ ∃ u d, (fly pteOp).run (storePteWork ((fly pteOp).envOf (oper pteOp [] [])) (oper pteOp [] []).acc pteOp) = some (.ok u, d) :=
  ⟨⟨rfl, by decide +kernel, rfl, rfl⟩, fine_has (by decide +kernel)⟩
/-- A LAND of one bfloat16 row, and an EXPORT of one binary32 element. -/
def landOp : List Byte := desc [(0, 2, 0x0901), (16, 8, privOf 0x1000), (24, 8, 0x40), (40, 3, 1), (43, 3, 2), (46, 1, 3)]
def exportOp : List Byte := desc [(0, 2, 0x0902), (16, 8, 0x40000), (32, 3, 1), (35, 3, 1), (38, 1, 4)]
theorem witness_land : (fly landOp).Running 7 0 0x0901 (oper landOp [] []) inst ∧ (fly landOp).mayIssue = true
    ∧ ∃ n d, (fly landOp).run (landWork ((fly landOp).envOf (oper landOp [] [])) (oper landOp [] []).acc (oper landOp [] [])
        [0x80, 0x3F, 0, 0]) = some (.ok n, d) :=
  ⟨⟨rfl, by decide +kernel, rfl, rfl⟩, rfl, fine_has (by decide +kernel)⟩
/-- The record of the exported gradient: its matrix lies at 0x1000. -/
def exportRecs : Tab (List Byte) := [(Lab.landing, desc [(0, 8, privOf 0x1000)])]
/-- The sections of an EXPORT, when they are all read without a fault. -/
def sectionsFine (r : Option (Except (XfKind × Nat) (List Section × Nat) × Data)) : Bool :=
  match r with
  | some (.ok (ss, _), _) => ss.all fun x => x.got.fault.isNone
  | _ => false
theorem sectionsFine_has {r : Option (Except (XfKind × Nat) (List Section × Nat) × Data)} (h : sectionsFine r = true) :
    ∃ ss per d, r = some (.ok (ss, per), d) ∧ ∀ x ∈ ss, x.got.fault = none := by
  match r, h with
  | some (.ok (ss, per), d), h => exact ⟨ss, per, d, rfl, by simpa [sectionsFine] using h⟩
theorem witness_export : let o := oper exportOp exportRecs []
    let s := State.flying up exportOp exportRecs []
    s.Running 7 0 0x0902 o inst ∧ s.mayIssue = true ∧ o.orphan = false
      ∧ (∃ ss per d, s.run (exportSections (s.envOf o) o.acc o) = some (.ok (ss, per), d) ∧ ∀ x ∈ ss, x.got.fault = none)
      ∧ s.pci.d3hot = false ∧ State.reset.pci.busMaster = false :=
  ⟨⟨rfl, by decide +kernel, rfl, rfl⟩, rfl, rfl, sectionsFine_has (by decide +kernel), rfl, rfl⟩

/-! The bytes of a line, and the host's window. -/

theorem witness_lines : (List.replicate 64 (0x5A : Byte)).length = 64 ∧ (List.replicate 8 (0x5A : Byte)).length = 8
    ∧ up.dp.isFailed (2 ^ 34 + 800 * 2 ^ 15 - 1) = false ∧ up.dp.isFailed 0 = false := by decide +kernel
theorem witness_window : (64 % 64 = 0) ∧ (List.replicate 128 (1 : Byte)).length % 64 = 0 ∧ List.replicate 128 (1 : Byte) ≠ []
    ∧ (2 ^ 40 - 128) + (List.replicate 128 (1 : Byte)).length ≤ up.windowSize
    ∧ (∀ l ∈ coveredLines (2 ^ 40 - 128) 128, up.lineGo l = .goes) := by decide +kernel
theorem test_window : (after (exec (.bar4Read 130 2) (after (exec (.bar4Write 128 (List.replicate 64 0x5A) false) up)))).out
    = [.bar4 [(130, [0x5A, 0x5A], false)]] := by decide +kernel
theorem witness_off : let s := upDom 16 ⟨0, .off, false, 0⟩
    let z := upDom 16 ⟨2, .slack, false, 0⟩
    [(1 : Byte)] ≠ [] ∧ up.windowSize < 2 ^ 40 + 1 ∧ 0 + 1 ≤ s.windowSize
      ∧ (∀ l ∈ coveredLines 0 1, s.dp.isFailed l = true ∨ (s.domain (lineDom l)).st = .off)
      ∧ ∃ l ∈ coveredLines 0 1, z.dp.isFailed l = false ∧ (z.domain (lineDom l)).st = .slack :=
  ⟨by decide, by decide +kernel, by decide +kernel, by decide +kernel, 0, by decide +kernel, by decide +kernel, by decide +kernel⟩
theorem test_off : (after (exec (.bar4Read 0 2) (upDom 16 ⟨0, .off, false, 0⟩))).out = [.bar4 [(0, [0xFF, 0xFF], true)], .aer] := by
  decide +kernel
/-- Line 3 holds zeros, and the side window looks at it; line 4 has never been written and reads poisoned. -/
def siding (l : Nat) : State :=
  let s := after (exec (.bar4Write 192 (List.replicate 64 0) false) up)
  { s with dp := { s.dp with sideAddr := BitVec.ofNat 60 (privOf (64 * l)) } }
theorem witness_side : (siding 3).sideLine = some 3 ∧ (siding 3).lineGo 3 = .goes
    ∧ ((siding 3).dp.readLine ((siding 3).env 0) 3).1.poison = false
    ∧ (siding 4).sideLine = some 4 ∧ ((siding 4).dp.readLine ((siding 4).env 0) 4).1.poison = true := by decide +kernel
theorem witness_scrub : 3 < lineCount ∧ (siding 3).dp.scrubEn = true ∧ ((siding 3).domain (lineDom 3)).st = .on
    ∧ (siding 3).dp.isFailed 3 = false ∧ (siding 3).absent (lineCluster (2 ^ 34)) = false
    ∧ (match decodeLine true (((siding 3).dp.stored 3).take 72) (((siding 3).dp.stored 3).drop 72) with | .clean _ => true | _ => false) = true
    ∧ decodeLine true (List.replicate 72 0x11) (List.replicate 8 0) = .uncorrectable := by decide +kernel
theorem witness_retrain : ((up.domain (16 + 15)).st = .on) ∧ 15 ∉ up.dp.failed ∧ tget 0 up.dp.retrainFails 15 < 2
    ∧ tget 0 ({ up.dp with retrainFails := [(15, 2)] } : Data).retrainFails 15 = 2 := by decide +kernel

theorem witness_control : (fly nop).Running 7 0 0x0F01 (oper nop [] []) inst
    ∧ (fly (desc [(0, 2, 0x0F02), (16, 8, 0x40)])).Running 7 0 0x0F02 (oper (desc [(0, 2, 0x0F02), (16, 8, 0x40)]) [] []) inst
    ∧ (fly nop).mayIssue = true ∧ (fly nop).pci.d3hot = false ∧ State.reset.pci.busMaster = false :=
  ⟨⟨rfl, by decide +kernel, rfl, rfl⟩, ⟨rfl, by decide +kernel, rfl, rfl⟩, rfl, rfl, rfl⟩
theorem witness_ctxSave : (fly (areaOp 0x0F03)).Running 7 0 0x0F03 (oper (areaOp 0x0F03) [] []) inst ∧ ∃ d, (fly (areaOp 0x0F03)).run (do
    let ws ← putBytes ((fly (areaOp 0x0F03)).envOf (oper (areaOp 0x0F03) [] [])) (oper (areaOp 0x0F03) [] []).acc
      (addrField (areaOp 0x0F03) 16) ((fly (areaOp 0x0F03)).contextImage (bits (field (areaOp 0x0F03) 24 1) 1 0))
    writeAll ((fly (areaOp 0x0F03)).envOf (oper (areaOp 0x0F03) [] [])) ws) = some (.ok (), d) := by
  refine ⟨⟨rfl, by decide +kernel, rfl, rfl⟩, ?_⟩
  rw [show addrField (areaOp 0x0F03) 16 = privOf 0x1000 by decide +kernel,
    show bits (field (areaOp 0x0F03) 24 1) 1 0 = 0 by decide +kernel]
  exact State.run_putBytes (fly (areaOp 0x0F03)) (stacks_of rfl _) _ _ _ (by
    have h : (bit 0 1) = false ∧ (bit 0 0) = false := by decide
    simp only [State.contextImage, h.1, h.2, Bool.false_eq_true, if_false, List.append_nil, State.imageBase_length]; omega) rfl
theorem witness_ctxRestore : let o := oper (areaOp 0x0F04) [(1, imageLine 0)] []
    let s := State.flying up (areaOp 0x0F04) [(1, imageLine 0)] []
    s.Running 7 0 0x0F04 o inst ∧ addrField o.desc 24 = 0 ∧ field (o.record Lab.ctxHeader) 2 1 = 0
      ∧ (o.record Lab.ctxHeader).length = 64 ∧ o.q < 64
      ∧ ∃ bytes d, s.run (openRead (s.envOf o) o.acc (addrField o.desc 16 + 64) (imageBytes 0 / 64 - 1)) = some (.ok bytes, d) := by
  refine ⟨⟨rfl, by decide +kernel, rfl, rfl⟩, by decide +kernel, by decide +kernel, by decide +kernel, by decide, ?_⟩
  rw [show addrField (oper (areaOp 0x0F04) [(1, imageLine 0)] []).desc 16 + 64 = privOf 0x1040 by decide +kernel]
  exact State.run_openRead _ (stacks_of rfl _) _ _ _ (by decide +kernel) rfl

theorem witness_hostFunction : up.pwr.hostOn = true ∧ up.boot.stage = 7 ∧ up.pci.down = false
    ∧ (({ up with pci := { up.pci with msix := [(255, ⟨0, 0, true, true⟩)] } } : State).vec 255).pending = true ∧ up.mayIssue = true
    ∧ 5 ≤ up.boot.stage ∧ up.mgmtOn = true ∧ up.pci.doePart = [] ∧ (List.replicate 7 (0 : Byte)).length < 8
    ∧ doeLength (natLE 2 1 ++ [1, 0] ++ natLE 4 3 ++ [0x10, 0x84, 0, 0]) ≤ 12
    ∧ needsNonce (natLE 2 1 ++ [1, 0] ++ natLE 4 3 ++ [0x10, 0x84, 0, 0]) = false := by decide +kernel
theorem test_linkUp : (after (exec .pcieLinkUp { up with pci := Pci.reset })).pci.down = false := by decide
theorem test_hostReset : (after (exec (.hostReset .flr) (queued nop true))).que = [] ∧
    (after (exec (.hostReset .flr) (fly nop))).ops.map (·.orphan) = [true] := by decide +kernel

/-! ### Power domains, boot, mailboxes (chapters 12, 14, 15) -/

theorem witness_domains : (up.domain 31).st = .on ∧ ((upDom 31 ⟨0, .off, false, 0⟩).domain 31).st = .off ∧ up.powered = true
    ∧ ((upDom 31 ⟨0, .down, false, 0⟩).domain 31).st = .down ∧ ((upDom 0 ⟨2, .slack, false, 0⟩).domain 0).st = .slack
    ∧ ((upDom 31 ⟨2, .on, false, 0⟩).domain 31).req = 2 ∧ (upDom 31 ⟨2, .on, false, 0⟩).inUse 31 = false
    ∧ up.mbx.waiting = [] ∧ (upDom 31 ⟨0, .down, false, 0⟩).stillUsed 31 = false
    ∧ ((upDom 31 ⟨0, .down, true, 2⟩).domain 31).pending = true ∧ (upDom 31 ⟨0, .down, true, 2⟩).stillUsed 31 = false
    ∧ ((upDom 31 ⟨1, .up, false, 0⟩).domain 31).st = .up ∧ ((upDom 31 ⟨1, .up, false, 0⟩).domain 31).req ≠ 0
    ∧ up.pool 15 = .reset := by decide +kernel
theorem test_domainOff : ((after (exec (.domainReqOff 31) up)).domain 31).st = .down
    ∧ ((after (exec (.domainPowerRemoved 31) (upDom 31 ⟨0, .down, false, 0⟩))).domain 31).st = .off
    ∧ ((after (exec (.domainPoweredUp 31) (upDom 31 ⟨1, .up, false, 0⟩))).domain 31).st = .on := by decide +kernel

/-- A module at a boot stage. -/
def booting (n : Nat) : State := { State.reset with boot := { Boot.reset with stage := n } }
/-- A harbourmaster object of 64 body bytes, signature bytes aside. -/
def firmware : List Byte := slice (natLE 2 2 ++ natLE 2 1 ++ natLE 4 64) 0 (64 + 64 + 96 + 2668)
/-- A module whose flash holds that object for the fabric controller's predecessor stage, under accepting signatures. -/
theorem firmware_accepted (h1 : ∀ a b c, Config.ecdsaOk a b c = true) (h2 : ∀ a b c, Config.lmsOk a b c = true) :
    ({ Boot.reset with counters := [(2, 0)], slots := [(2, firmware)], active := [(2, 0)] } : Boot).rejects 2 firmware = none := by
  have ht : objTorn firmware = false := by decide +kernel
  have hv : ¬ objVersion firmware < (0 : Word).toNat := by decide +kernel
  simp only [Boot.rejects, Boot.objectFaults, ht, h1, h2, Bool.false_eq_true, if_false, if_true]
  decide +kernel
theorem witness_boot : (booting 0).boot.halted = false ∧ (booting 0).mgmtOn = true ∧ (booting 0).pwr.modRst = false
    ∧ (booting 1).boot.stage = 1 ∧ (booting 5).inputGood = true
    ∧ ({ booting 5 with pwr := { Pwr.reset with in54 := false } } : State).inputGood = false ∧ (booting 6).boot.stage < 7 := by decide
theorem test_boot : (after (exec (.bootStageComplete ⟨true, []⟩) (booting 0))).boot.stage = 1
    ∧ (after (exec (.bootStageComplete ⟨false, []⟩) (booting 1))).boot.halted = true
    ∧ (after (exec (.bootStageComplete ⟨true, []⟩) (booting 5))).boot.stage = 6 := by decide +kernel
theorem witness_bootObjects : ∃ t, exec (.bootStageComplete ⟨true, []⟩) (booting 0) = .next t := ⟨_, rfl⟩
theorem witness_moduleReset : 2 ^ 34 - 1 = (15 * 2 ^ 30 + (2 ^ 30 - 1)) ∧ (2 ^ 34 - 1) / 2 ^ 30 = 15 ∧ (up.domain (16 + 15)).st = .on
    ∧ ((upDom 31 ⟨0, .off, false, 0⟩).domain (16 + 15)).st = .off := by decide

/-- A user channel held by the service processor of stack 0 for the harbourmaster, FULL or not. -/
def channel (full : Bool) : State :=
  { up with mbx := { Mbx.reset with chans := [(63, { Chan.reset 63 with held := true, owner := 0x20, peer := 0x10, full := full, ackBy := 0x10 })] } }
theorem witness_mailbox : up.bufferOff 63 = false ∧ (channel false).mbxSender 63 = 0x20 ∧ ((channel false).chan 63).full = false
    ∧ ((channel true).chan 63).full = true ∧ (0x10 : Byte) ≠ (channel false).mbxSender 63
    ∧ (channel false).partyOff ((channel false).mbxReceiver 63) = false ∧ bit (0 : Reg).toNat 1 = false
    ∧ (0x10 : Byte) = (channel true).mbxAcker 63 ∧ (channel true).partyOff ((channel true).mbxSender 63) = false
    ∧ bit (2 : Reg).toNat 0 = false ∧ bit (2 : Reg).toNat 1 = true := by decide +kernel
theorem test_mailbox : ((after (exec (.send 0x20 63 1) (channel false))).chan 63).seq = 1
    ∧ ((after (exec (.ackMessage 0x10 63 2) (channel true))).chan 63).full = false
    ∧ (after (exec (.mbxWordWrite 0x10 63 7 5) (channel false))).count Evt.mbxDenied = 1 := by decide +kernel
theorem witness_conservation : ∃ t, exec (.send 0x20 63 1) (channel false) = .next t := ⟨_, rfl⟩
theorem witness_locks : up.pwr.meshOn = true ∧ (up.chan 48).held = false ∧ (0x10 : Byte) ≠ 0x20 ∧ ((channel false).chan 63).held = true
    ∧ ((channel true).chan 63).full = true ∧ (0x20 : Byte) = ((channel false).chan 63).owner := by decide +kernel
theorem test_locks : ((after (exec (.acquire 0x20 48 0x10) up)).chan 48).owner = 0x20
    ∧ (after (exec (.lockRelease 0x20 63) (channel true))).count Evt.lockRefused = 1 := by decide +kernel

/-! ### Supply, governor, temperatures (chapters 13, 14, 17) -/

/-- A module in a supply event of a type. -/
def inEvent (k : Nat) : State := { up with dic := { Dic.reset with active := [⟨k, 5, 0x42240000⟩] }, tide := 100 }
theorem witness_supply : up.mgmtOn = true ∧ up.dic.active = [] ∧ (numOf 0x42240000).lt (numOf up.dic.cfg.dipV) = true
    ∧ (numOf 0x42240000).lt (FV.ofNat 40) = false ∧ (numOf 0x42240000).lt (FV.ofNat 44) = true ∧ up.pwr.nvInhibit = false
    ∧ (numOf 0x421C0000).lt (FV.ofNat 40) = true ∧ up.pwr.shut = none
    ∧ (numOf up.dic.cfg.swellV).lt (numOf 0x42740000) = true ∧ (numOf up.dic.cfg.rippleVpp).lt (numOf 0x40200000) = true
    ∧ (inEvent 1).dic.find 1 = some ⟨1, 5, 0x42240000⟩ ∧ ((numOf up.dic.cfg.dipV).add (half 1)).le (numOf 0x42420000) = true
    ∧ (inEvent 2).dic.find 2 = some ⟨2, 5, 0x42240000⟩ ∧ (half 89).le (numOf 0x42320000) = true := by decide +kernel
theorem test_dip : let t := after (exec (.supplyEventBegin .dip 0x42240000) up)
    tget 0 t.dic.counts 1 = 1 ∧ t.pwr.nvInhibit = true := by decide +kernel
theorem test_dipEnd : (after (exec (.supplyEventEnd .dip 0x42420000) (inEvent 1))).dic.evDur = 95 := by decide +kernel
theorem witness_shutdown : up.pwr.shut = none ∧ up.pwr.inputOpen = false ∧ (FV.ofNat 60).lt (numOf 0x42740000) = true
    ∧ up.pwr.in54 = true ∧ up.pwr.ref = true ∧ up.boot.halted = false ∧ up.dic.find 2 = none
    ∧ ({ up.pwr with in54 := false } : Pwr).in54 = false := by decide +kernel
theorem test_overcurrent : let t := after (exec .overcurrent (fly nop))
    t.ops = [] ∧ t.pwr.shut = some .overcurrent ∧ (after (exec .supplyRestart t)).pwr.shut = some .overcurrent := by decide +kernel

/-- A module whose governor has lowered k, at P1, with a release running towards 2,500 W. -/
def governed : State := { up with
  pwr := { up.pwr with
    dies := [(3, ⟨5, 1, 700, false⟩)], releasing := true, capInUse := 0x44BB8000, armed := true, filtered := true, throttle := 1 }
  dic := { Dic.reset with cfg := DicCfg.default } }
theorem witness_cap : governed.pwr.releasing = true
    ∧ (numOf (BitVec.ofNat 32 (encode32 (f32Add (numOf governed.pwr.capInUse) (FV.ofNat 50))))).lt (numOf governed.dic.capTarget) = true
    ∧ (numOf (BitVec.ofNat 32 (encode32 (f32Add (numOf 0x451C4000) (FV.ofNat 50))))).lt (numOf governed.dic.capTarget) = false
    ∧ governed.dic.capPending = false := by decide +kernel
theorem witness_governor : up.exceeds .ceiling 0x45481000 = true ∧ governed.exceeds .throttle 0x45355000 = true
    ∧ (up.capLess 10).lt (numOf 0x45481000) = true ∧ (up.capLess 10).lt (numOf 0x45192000) = false
    ∧ (numOf 0x45192000).lt (up.capLess 60) = false ∧ up.mgmtOn = true := by decide +kernel
theorem test_governor : ((after (exec (.governorFastStep .ceiling 0x45481000) governed)).die 3).k = 4
    ∧ ((after (exec (.governorFastStep .ceiling 0x45481000) governed)).die 0).k = 15 := by decide +kernel
theorem witness_bursts : governed.pwr.armed = true ∧ governed.pwr.burst = false ∧ above 0x45355000 2900 = true ∧ above 0x4528C000 2900 = false := by
  decide +kernel
theorem witness_points : (governed.die 3).k.toNat < 16 ∧ (governed.die 3).point.toNat < 5
    ∧ ({ up with pwr := { up.pwr with dies := [(3, ⟨16, 1, 700, false⟩)] } } : State).mayRise 3 0 = true
    ∧ (up.die 3).mv.toNat + 5 ≤ (up.mvRange 3 (up.die 3).point.toNat).2 ∧ (up.mvRange 3 (up.die 3).point.toNat).2 < 65536 := by decide +kernel
theorem test_retune : ((after (exec (.retune 3 false 0) governed)).die 3).point = 2
    ∧ ((after (exec (.marginShort 3) up)).die 3).mv = (up.die 3).mv + 5 := by decide +kernel
theorem witness_thermal : up.mgmtOn = true ∧ hot 0x42CE0000 103 = true ∧ hot 0x42D20000 105 = true ∧ up.pwr.shut = none
    ∧ hot (tget 0 ({ Dic.reset with dieTemps := [(3, 0x42C80000)] } : Dic).dieTemps 3) 100 = true
    ∧ [(0 : Word), 0, 0, 0x42CE0000, 0][3]? = some 0x42CE0000 := by decide +kernel
theorem test_thermal : ((after (exec (.thermalRead ⟨[0, 0, 0, 0x42CE0000, 0], List.replicate 16 0, 0, 0⟩) up)).die 3).point = 5 := by
  decide +kernel
theorem witness_throttle : up.pwr.filtered ≠ true ∧ up.pwr.throttle ≠ 2 ∧ governed.pwr.filtered = true ∧ governed.pwr.heldLogged = false
    ∧ 10 < 11 ∧ ({ up.pwr with throttle := 2 } : Pwr).throttle = 2 := by decide
theorem test_throttle : (after (exec (.throttleChange true) up)).pwr.throttle = 1
    ∧ (after (exec (.throttleChatter 11) up)).pwr.throttle = 2 ∧ (after (exec (.throttleChatter 10) up)).pwr.throttle = 0 := by decide +kernel

/-! ### Sequences and pools (chapter 09) -/

/-- Cells from an address on. -/
def cellsAt (a : Nat) (bs : List Byte) : List Host.Cell := bs.zipIdx.map fun b => (a + b.2, b.1)
/-- A memory of eight lines: the ledger headers of pages 0, in use for tables, and 1, free; a layout record of one head of 64
E4M3 elements; a root table, a level-1 and an empty level-0 table in page 0. Each line has its check bytes. -/
def poolCells : List Host.Cell :=
  cellsAt 327752 (zeros 8) ++ cellsAt 327764 [2] ++ cellsAt 327832 [155, 75, 24, 113, 116, 150, 242, 171] ++ cellsAt 332872 (zeros 8)
    ++ cellsAt 332952 (zeros 8) ++ cellsAt 655362 [6, 9, 1, 254] ++ cellsAt 655432 [140, 137, 14, 52, 227, 53, 255, 230]
    ++ cellsAt 1310720 [1, 32, 16] ++ cellsAt 1310792 [163, 145, 39, 50, 86, 98, 146, 176] ++ cellsAt 1320960 [1, 48, 16]
    ++ cellsAt 1321032 [5, 55, 216, 114, 246, 157, 84, 134] ++ cellsAt 1326152 (zeros 8)
/-- Stack 0 has a pool of two pages at 0x100000 with its ledger at 0x40000, and the layout records at 0x80000. -/
def pooled : State := { up with
  dp := { up.dp with cells := poolCells }
  seq := { Seq.reset with
    layoutBase := BitVec.ofNat 60 (ivorn 0x80000)
    pools := [(0, ⟨BitVec.ofNat 60 (ivorn 0x100000), 2, 0, 0, BitVec.ofNat 60 (ivorn 0x40000), 0⟩)] } }
theorem test_poolCells : Memory.wf poolCells = true := by decide +kernel
/-- An operation of class 0x05 on sequence 0. -/
def seqOp (o : Nat) (fs : List (Nat × Nat × Nat)) : List Byte := desc ([(0, 2, 0x0500 + o), (12, 2, 12)] ++ fs)
/-- The module in which operation 7 works on sequence 0. -/
def inSeq (s : State) (o : Nat) (fs : List (Nat × Nat × Nat)) : State := { s with ops := [oper (seqOp o fs) [] []] }
/-- A context whose root table is that of the pool. -/
def ctx0 : Ctx := { openCtx (seqOp 1 []) with root := BitVec.ofNat 60 (privAddr 0x100000) }
/-- Sequence 0 is open with a context. -/
def holding (c : Ctx) : State := { pooled with seq := { pooled.seq with ctxs := [(0, c)] } }

theorem inSeq_runs (s : State) (o : Nat) (fs : List (Nat × Nat × Nat)) :
    (inSeq s o fs).Running 7 0 (opcodeOf (seqOp o fs)) (oper (seqOp o fs) [] []) inst := ⟨rfl, rfl, rfl, rfl⟩
theorem inSeq_free (s : State) (o : Nat) (fs : List (Nat × Nat × Nat)) :
    (inSeq s o fs).seqHeld (oper (seqOp o fs) [] []) = false := by
  simp [State.seqHeld, inSeq, oper]

theorem witness_open : opcodeOf (seqOp 1 []) = 0x0501 ∧ addrField (seqOp 1 []) 24 = 0 ∧ pooled.ctx 0 = none
    ∧ seqId (seqOp 1 []) = 0 ∧ ((Taking.mk (inSeq pooled 1 []) 0).slots 0 32).2.short = 0
    ∧ ((Taking.mk (inSeq up 1 []) 0).slots 0 32).2.short ≠ 0 ∧ (pooled.pool (homeOf 0)).low = 0 := by decide +kernel
theorem witness_onOpen : (holding ctx0).ctx 0 = some ctx0 ∧ (holding ctx0).ctx 1 = none ∧ ((holding ctx0).layoutFor ctx0).isSome = true
    ∧ opcodeOf (seqOp 2 []) = 0x0502 ∧ opcodeOf (seqOp 4 [(32, 6, 700)]) = 0x0504 ∧ opcodeOf (seqOp 5 [(32, 4, 1)]) = 0x0505
    ∧ opcodeOf (seqOp 10 []) = 0x050A ∧ opcodeOf (seqOp 7 []) = 0x0507 ∧ addrField (seqOp 10 []) 24 = 0 := by decide +kernel
theorem test_notOpen : (after (exec (.closeSeq 7) (inSeq pooled 2 []))).count Evt.seqStatus = 1 := by decide +kernel
theorem witness_held : let p := { oper (seqOp 2 []) [] [] with id := 6 }
    ({ pooled with ops := [p, oper (seqOp 4 []) [] []] } : State).seqHeld (oper (seqOp 4 []) [] []) = true := by decide +kernel
/-- An APPEND of two positions of binary32 elements, without tokens. -/
def appendOp : List (Nat × Nat × Nat) := [(32, 8, ivorn 0x200000), (40, 8, ivorn 0x240000), (56, 3, 2)]
theorem witness_append : (match (inSeq (holding ctx0) 3 appendOp).layoutFor ctx0 with
      | some y => !vSourceBad y (seqOp 3 appendOp) && y.per == 512
          && fine ((inSeq (holding ctx0) 3 appendOp).run (appendRead ((inSeq (holding ctx0) 3 appendOp).envOf (oper (seqOp 3 appendOp) [] []))
            ⟨none, 0⟩ (seqOp 3 appendOp) y))
      | none => false) = true := by decide +kernel
theorem witness_appendPages : ((Taking.mk (inSeq (holding ctx0) 3 appendOp) 0).pages 0 ctx0 false [0]).short = 0
    ∧ windowPages < windowPages + 1 ∧ homeOf (2 ^ 14) ≠ homeOf 0 := by decide +kernel
theorem witness_appendShort : let s := inSeq { holding ctx0 with seq := { (holding ctx0).seq with
      pools := [(0, { pooled.pool 0 with size := 1 })] } } 3 appendOp
    ((Taking.mk s 0).pages 0 ctx0 false [0]).short ≠ 0 := by decide +kernel
theorem witness_reserve : ctx0.reserved.toNat + (holding ctx0).countPages 0 Page.free = 1 ∧ 1 < field (seqOp 5 [(32, 4, 2)]) 32 4
    ∧ field (seqOp 5 [(32, 4, 1)]) 32 4 ≤ 1 ∧ ((holding ctx0).pool 0).low = 0 := by decide +kernel
theorem test_reserve : ((after (exec (.reserve 7) (inSeq (holding ctx0) 5 [(32, 4, 1)]))).ctx 0).map (·.reserved) = some 1
    ∧ ((after (exec (.reserve 7) (inSeq (holding ctx0) 5 [(32, 4, 2)]))).ctx 0).map (·.reserved) = some 0 := by decide +kernel
/-- A MATCH of one page of tokens. -/
def matchOp : List (Nat × Nat × Nat) := [(32, 8, ivorn 0x200000), (40, 6, 512)]
theorem witness_match : ctx0.length = 0 ∧ ({ ctx0 with length := 1 } : Ctx).length ≠ 0 ∧ opcodeOf (seqOp 6 matchOp) = 0x0506
    ∧ ∃ tok d, (inSeq (holding ctx0) 6 matchOp).run (openRead ((inSeq (holding ctx0) 6 matchOp).envOf (oper (seqOp 6 matchOp) [] []))
        ⟨none, 0⟩ (privOf 0x200000) (ceilDiv (1 * (4 * 512)) 64)) = some (.ok tok, d) :=
  ⟨rfl, by decide, by decide +kernel, by
    have h : (inSeq (holding ctx0) 6 matchOp).pwr = up.pwr := rfl
    have hm : (inSeq (holding ctx0) 6 matchOp).dp.marks = [] := rfl
    refine State.run_openRead _ (stacks_of h _) _ _ _ ?_ hm
    decide +kernel⟩
theorem witness_publish : ctx0.fill.toNat < 512 := by decide
theorem witness_query : ∃ d, (inSeq (holding ctx0) 10 [(32, 8, ivorn 0x200000)]).run (do
      let ws ← putBytes ((inSeq (holding ctx0) 10 [(32, 8, ivorn 0x200000)]).envOf (oper (seqOp 10 [(32, 8, ivorn 0x200000)]) [] []))
        ⟨none, 0⟩ (privOf 0x200000) (ctxRecord (some ctx0))
      writeAll ((inSeq (holding ctx0) 10 [(32, 8, ivorn 0x200000)]).envOf (oper (seqOp 10 [(32, 8, ivorn 0x200000)]) [] [])) ws) = some (.ok (), d) :=
  by
    have h : (inSeq (holding ctx0) 10 [(32, 8, ivorn 0x200000)]).pwr = up.pwr := rfl
    have hm : (inSeq (holding ctx0) 10 [(32, 8, ivorn 0x200000)]).dp.marks = [] := rfl
    refine State.run_putBytes _ (stacks_of h _) _ _ _ ?_ hm
    decide +kernel
/-- Work on a batch that has no fault of its own. -/
def batchFine (r : Option (Except (XfKind × Nat) (List EntryEnd × Option (XfKind × Nat)) × Data)) : Bool :=
  match r with
  | some (.ok (_, none), _) => true
  | _ => false
theorem batchFine_has {r : Option (Except (XfKind × Nat) (List EntryEnd × Option (XfKind × Nat)) × Data)} (h : batchFine r = true) :
    ∃ ends d, r = some (.ok (ends, none), d) := by
  match r, h with
  | some (.ok (ends, none), d), _ => exact ⟨ends, d, rfl⟩
/-- An ATTEND or ATTEND_GRAD of one entry, of sequence 0. -/
def attendFields : List (Nat × Nat × Nat) := [(16, 8, ivorn 0x200000), (24, 4, 1), (36, 1, 27), (38, 1, 1)]
theorem witness_attend (o : Nat) (h : o = 8 ∨ o = 9) : let s := inSeq (holding ctx0) o attendFields
    let p := oper (seqOp o attendFields) [] []
    bit (field p.desc 37 1) 1 = false ∧ s.seqHeld p = false ∧ ∃ ends d, s.run (do
      overwriteRegion s (s.envOf p) (operOf p.desc == 9)
      runBatch s p (s.envOf p) ⟨none, p.pin.toNat⟩ (field p.desc 24 4) []) = some (.ok (ends, none), d) := by
  rcases h with rfl | rfl
  · exact ⟨by decide +kernel, inSeq_free _ _ _, batchFine_has (by decide +kernel)⟩
  · exact ⟨by decide +kernel, inSeq_free _ _ _, batchFine_has (by decide +kernel)⟩

/-- A slice whose register is zero holds nothing. -/
theorem sliceEmpty_zero (s : State) (x : Nat) (h : (s.pool x).slice = 0) : s.sliceEmpty x = true := by
  have hb : ivornByte (s.pool x).slice.toNat = none := by rw [h]; decide
  have : ∀ i, s.node x i = none := by
    intro i; simp [State.node, State.nodeByte, hb]
  simp [State.sliceEmpty, this]
theorem witness_poolIdle : up.poolIdle 15 = true ∧ (holding ctx0).poolIdle 0 = false := by
  refine ⟨?_, ?_⟩
  · have h := sliceEmpty_zero up 15 (by decide +kernel)
    simp only [State.poolIdle, h, Bool.and_true]; decide +kernel
  · have h : ((holding ctx0).ctxsAt 0).isEmpty = false := by decide +kernel
    simp [State.poolIdle, h]
/-- A slice of stack 0 at 0x1000 whose first bucket holds a valid entry. -/
def sliced : State := { up with
  dp := { up.dp with cells := cellsAt 5139 [128] ++ cellsAt 5192 [184, 199, 100, 104, 209, 221, 192, 63] }
  seq := { Seq.reset with pools := [(15, { PoolRegs.reset with slice := BitVec.ofNat 60 (ivorn 0x1000) })] } }
theorem all_false {l : List Nat} {f : Nat → Bool} (x : Nat) (hx : x ∈ l) (h : f x = false) : l.all f = false := by
  simp only [List.all_eq_false]; exact ⟨x, hx, by simp [h]⟩
theorem witness_prefixKey : (List.range 16).all State.reset.sliceEmpty = true ∧ (List.range 16).all sliced.sliceEmpty = false := by
  constructor
  · simp only [List.all_eq_true]; intro x _; exact sliceEmpty_zero _ _ rfl
  · refine all_false 15 (by simp) ?_
    refine all_false 0 (by simp) ?_
    decide +kernel
/-- The pool's page 1 retires. -/
def retiring : State := pooled.setHeader 0 1 { Header.zero with state := Page.retiring }
theorem witness_pageFree : 1 < retiring.poolPages 0 ∧ (retiring.header 0 1).state = Page.retiring
    ∧ aheadOf (retiring.header 0 1).gen retiring.minPin.toNat = false := by decide +kernel
theorem test_pageFree : ((after (exec (.pageFree 0 1) retiring)).header 0 1).state = Page.free := by decide +kernel

/-! ### Hawser links (chapter 10) -/

/-- Port 0 is in a state. -/
def atPort (x : Port) : State := { up with hw := { Hw.reset with ports := [(0, x)] } }
/-- Port 0 is UP and module 5 is a peer of one path, which is in a state. -/
def linked (x : Path) : State := { up with hw := { Hw.reset with
  ports := [(0, { Port.reset with enable := true, st := .up })]
  peers := [(5, { Peer.reset with mac := 0x020000000001, paths := 1, credit := 1000, st := Peer.up })], paths := [(80, x)] } }
/-- An established path. -/
def path1 : Path := { Path.reset with est := true }
/-- The two lines of a group record that are not zero: members, own rank, leader and revision 7; the modules of the ranks. -/
def groupHead (members own leader : Nat) : List Byte := slice (natLE 2 members ++ natLE 2 own ++ natLE 2 leader ++ natLE 2 7) 0 64
def groupModules : List Byte := slice (natLE 2 0 ++ natLE 2 5) 0 64
/-- The lines of a group record. -/
def groupLines (members own leader : Nat) : List (List Byte) :=
  groupHead members own leader :: groupModules :: List.replicate 143 (zeros 64)
/-- Group 0 has its record at byte 0x8000 of Ivorn. -/
def grouped (s : State) (members own leader : Nat) : State := { s with
  dp := { s.dp with cells := recordCells 0x8000 (groupLines members own leader) }
  hw := { s.hw with groups := [(0, { Group.reset with addr := BitVec.ofNat 60 (ivorn 0x8000) })] } }

theorem groupHead_clean (members own leader : Nat) (h : (members, own, leader) ∈ [(2, 0, 0), (2, 0, 1), (2, 1, 1), (1, 0, 0)]) :
    StoresClean true (groupHead members own leader) := by
  simp only [List.mem_cons, Prod.mk.injEq, List.not_mem_nil, or_false] at h
  rcases h with ⟨rfl, rfl, rfl⟩ | ⟨rfl, rfl, rfl⟩ | ⟨rfl, rfl, rfl⟩ | ⟨rfl, rfl, rfl⟩ <;>
    exact ⟨by decide +kernel, by decide +kernel, by decide +kernel⟩
theorem groupLines_clean (members own leader : Nat) (h : (members, own, leader) ∈ [(2, 0, 0), (2, 0, 1), (2, 1, 1), (1, 0, 0)]) :
    ∀ p ∈ groupLines members own leader, StoresClean true p := by
  intro p hp
  simp only [groupLines, List.mem_cons, List.mem_replicate] at hp
  rcases hp with rfl | rfl | ⟨-, rfl⟩
  · exact groupHead_clean members own leader h
  · exact ⟨by decide +kernel, by decide +kernel, by decide +kernel⟩
  · exact ⟨by decide +kernel, by decide +kernel, by decide +kernel⟩
/-- The record that the module then has. -/
theorem record_of {s : State} {members own leader : Nat} (h : (members, own, leader) ∈ [(2, 0, 0), (2, 0, 1), (2, 1, 1), (1, 0, 0)])
    (hp : s.pwr = up.pwr) (hd : s.dp = { up.dp with cells := recordCells 0x8000 (groupLines members own leader) })
    (ha : (s.group 0).addr = BitVec.ofNat 60 (ivorn 0x8000)) : s.groupRecord 0 = some (groupLines members own leader).flatten := by
  refine groupRecord_record s 0 (stacks_of hp _) 0x8000 _ ?_ (by rw [hd]) (by rw [hd]; rfl) (by rw [hd]; rfl) (by rw [hd]; rfl) ?_ (by decide) (by decide) ?_
  · rw [ha]; decide +kernel
  · rw [hd]; exact groupLines_clean members own leader h
  · simp [groupLines]
/-- A collective frame from module 5 to group 0 for step or ferry 1. -/
def collective (kind : BitVec 8) : HwFrame := { frame 0 kind with revision := 7, addr := 1 }
/-- It is one of the group's revision. -/
theorem frameGroup_of {s : State} {members own leader : Nat} (h : (members, own, leader) ∈ [(2, 0, 0), (2, 0, 1), (2, 1, 1), (1, 0, 0)])
    (hp : s.pwr = up.pwr) (hd : s.dp = { up.dp with cells := recordCells 0x8000 (groupLines members own leader) })
    (ha : (s.group 0).addr = BitVec.ofNat 60 (ivorn 0x8000)) (f : HwFrame) (hf : f.group = 0) (hr : f.revision = 7) :
    s.frameGroup f = some (groupLines members own leader).flatten := by
  have hv : grRevision (groupLines members own leader).flatten = 7 := by
    simp only [List.mem_cons, Prod.mk.injEq, List.not_mem_nil, or_false] at h
    rcases h with ⟨rfl, rfl, rfl⟩ | ⟨rfl, rfl, rfl⟩ | ⟨rfl, rfl, rfl⟩ | ⟨rfl, rfl, rfl⟩ <;> decide +kernel
  simp only [State.frameGroup, hf, hr, show (0 : BitVec 4).toNat = 0 from rfl, record_of h hp hd ha, hv]
  rfl
/-- What the records say. -/
theorem test_records :
    (let r := (groupLines 2 0 0).flatten;
      grOwn r = grLeader r ∧ grRank r 5 = some 1 ∧ bit (grLost r) 1 = false ∧ grRank r 9 = none ∧ (grActive r).length = 2)
    ∧ (let r := (groupLines 2 0 1).flatten; grOwn r ≠ grLeader r ∧ grRank r 5 = some (grLeader r))
    ∧ (let r := (groupLines 2 1 1).flatten; grOwn r = grLeader r ∧ grRank r 0 = some 0)
    ∧ (grActive (groupLines 1 0 0).flatten).length ≤ 1 := by decide +kernel

theorem witness_foreign : (atPort Port.reset).receives 0 = false ∧ (linked path1).receives 0 = true
    ∧ { frame 0 0 with fcsOk := false }.fcsOk = false ∧ (frame 0 0).fcsOk = true
    ∧ { frame 0 0 with dstId := 1 }.dstId ≠ (linked path1).hw.moduleId := by decide +kernel
theorem witness_takes : (linked path1).Takes 0 (frame Ft.data 0) Ft.data ∧ (linked path1).Takes 0 (frame Ft.ack 0) Ft.ack
    ∧ (linked path1).Takes 0 (frame Ft.nak 1) Ft.nak ∧ (linked path1).Takes 0 (frame Ft.nak 2) Ft.nak
    ∧ (linked path1).Takes 0 (frame Ft.syncReq 0) Ft.syncReq ∧ (linked path1).Takes 0 (frame Ft.syncRsp 0) Ft.syncRsp := by
  unfold State.Takes; decide +kernel
/-- A module with the most open messages. -/
def crowded : State := { linked path1 with hw := { (linked path1).hw with msgs := List.replicate 4096 ⟨9, 9, 0, 1, false, true⟩ } }
theorem witness_data : (linked path1).path 5 0 = path1 ∧ (frame 0 0).epoch = path1.rxEpoch ∧ (frame 0 0).psn = path1.expected
    ∧ 6 < (frame 0 7).kind.toNat ∧ ((linked path1).acknowledge 5 0 0).hasRoom (frame 0 0) = true
    ∧ (crowded.acknowledge 5 0 0).hasRoom (frame 0 0) = false ∧ psnAfter path1.expected 0xFFFFFF = true
    ∧ psnAfter 5 path1.expected = true ∧ psnAfter path1.expected 5 = false ∧ path1.nakSent = false := by decide +kernel
theorem test_dataNoMore : crowded.Takes 0 (frame 0 0) Ft.data := by unfold State.Takes; decide +kernel
/-- A path whose oldest frame in staging is a frame. -/
def staged (f : HwFrame) : State := linked { path1 with staged := [f], expected := 1 }
theorem witness_placed (k : BitVec 8) (h : k ∈ [1, 2, 3, 4, 5, 6]) :
    (staged (collective k)).front 5 0 k = some (collective k) ∧ (staged (collective k)).frameGroup (collective k) = none := by
  simp only [List.mem_cons, List.not_mem_nil, or_false] at h
  rcases h with rfl | rfl | rfl | rfl | rfl | rfl <;> decide +kernel
/-- A PUT frame of some lines to an address. -/
def putTo (va n : Nat) : HwFrame := { frame 0 0 with
  addr := BitVec.ofNat 64 va, msgLines := BitVec.ofNat 32 n, lines := List.replicate n (zeros 64, zeros 8) }
theorem witness_put : (staged (putTo 0 0)).front 5 0 0 = some (putTo 0 0)
    ∧ (match (staged (putTo 0 0)).putLines (putTo 0 0) with | some (_, none) => true | _ => false) = true
    ∧ (match (staged (putTo (2 ^ 58) 1)).putLines (putTo (2 ^ 58) 1) with | some (_, some _) => true | _ => false) = true := by
  decide +kernel
theorem test_remoteCounter : let f := { putTo 0 0 with remoteCounter := 0x800C, remoteIncrement := 3 }
    let s := staged f
    ((after (exec (.putFrame 5 0) { s with hw := { s.hw with msgs := [⟨5, 0, 0, 0, false, true⟩] } })).counter 12).value = 3 := by decide +kernel
theorem witness_placedAck : 7 ≤ ({ path1 with sinceAck := 7 } : Path).sinceAck ∧ path1.sinceAck < 7 := by decide
theorem witness_contrib (k : BitVec 8) (h : k = 1 ∨ k = 2) : ∃ t, (staged (collective k)).placeContrib 5 (k == 2) (collective k) = some t := by
  rcases h with rfl | rfl <;> exact ⟨_, by rw [State.placeContrib, (witness_placed _ (by decide)).2]⟩
theorem witness_block : ∃ t, (staged (collective 5)).placeBlock 5 (collective 5) = some t :=
  ⟨_, by rw [State.placeBlock, (witness_placed _ (by decide)).2]⟩
theorem witness_ofGroup (k : BitVec 8) : (grouped (staged (collective k)) 2 0 0).frameGroup (collective k) = some (groupLines 2 0 0).flatten
    ∧ (grouped (staged (collective k)) 2 0 1).frameGroup (collective k) = some (groupLines 2 0 1).flatten
    ∧ (grouped (staged (collective k)) 2 1 1).frameGroup (collective k) = some (groupLines 2 1 1).flatten :=
  ⟨frameGroup_of (s := grouped (staged (collective k)) 2 0 0) (by decide) rfl rfl rfl _ rfl rfl,
    frameGroup_of (s := grouped (staged (collective k)) 2 0 1) (by decide) rfl rfl rfl _ rfl rfl,
    frameGroup_of (s := grouped (staged (collective k)) 2 1 1) (by decide) rfl rfl rfl _ rfl rfl⟩
theorem witness_unwanted : (grouped (staged (collective 1)) 2 0 0).unwanted 0 (groupLines 2 0 0).flatten 9 1 = true := by decide +kernel
theorem test_closeOfAnother : grRank (groupLines 2 1 1).flatten 0 ≠ some (grLeader (groupLines 2 1 1).flatten) := by decide +kernel
/-- A ferry of number 1. -/
def ferry1 : Ferry := ⟨7, 1, [0, 1], 0, 0, [], [], [], [0], 0, 0, none, []⟩
theorem witness_free : (collective 6).addr.setWidth 32 = ferry1.number
    ∧ ({ up with hw := { Hw.reset with groups := [(0, { Group.reset with ferry := some ferry1 })] } }.group 0).ferry = some ferry1 := by
  decide +kernel

theorem witness_acknowledge : path1.est = true ∧ psnAfter 0 (({ path1 with next := 1 } : Path).next - 1) = false
    ∧ psnAfter 3 (({ path1 with next := 1 } : Path).next - 1) = true ∧ (frame Ft.ack 0).epoch = path1.epoch := by decide
theorem test_acknowledge : ((after (exec (.ack 0 (frame Ft.ack 0)) (linked { path1 with next := 2, unacked :=
    [frame 0 0, { frame 0 0 with psn := 1 }] }))).path 5 0).unacked = [{ frame 0 0 with psn := 1 }] := by decide +kernel
theorem witness_ackTimer : 0 < ({ path1 with sinceAck := 1 } : Path).sinceAck ∧ path1.sinceAck = 0 := by decide
theorem witness_resend : (frame Ft.nak 1).kind = 1 ∧ ((linked path1).port 0).paused = false
    ∧ ((atPort { Port.reset with paused := true }).port 0).paused = true
    ∧ ((linked { path1 with busy := some 0 }).path 5 0).busy = some 0 := by decide +kernel
theorem witness_timeout : let x := { path1 with unacked := [frame 0 0] }
    ((linked x).path 5 0).unacked ≠ [] ∧ x.nakSent = false ∧ x.timeouts + 1 < (linked x).hw.retry.toNat
      ∧ (linked x).hw.retry.toNat ≤ ({ x with timeouts := 15 } : Path).timeouts + 1 := by decide +kernel
theorem test_lastTimeout : ((after (exec (.rtoExpiry 5 0) (linked { path1 with unacked := [frame 0 0], timeouts := 15 }))).peer 5).st
    = Peer.unreachable := by decide +kernel
theorem witness_sync : bit (frame Ft.syncReq 0).kind.toNat 0 = false ∧ ((linked path1).peer 5).st ≠ Peer.unreachable
    ∧ ((linked { path1 with lost := true }).path 5 0).lost = true ∧ (path1.lost = false)
    ∧ bits (frame Ft.syncRsp 0).addr.toNat 3 0 = 0 ∧ ({ path1 with syncing := true } : Path).syncing = true := by decide +kernel
theorem test_established : (after (exec (.syncRsp 0 { frame Ft.syncRsp 0 with epoch := 4 })
    (linked { path1 with est := false, syncing := true }))).path 5 0 = { path1 with epoch := 4 } := by decide +kernel
theorem witness_peer : (up.peer 5).st = Peer.idle
    ∧ (({ up with hw := { Hw.reset with paths := [(80, { Path.reset with syncing := true })] } }).path 5 0).syncing = true
    ∧ (({ up with hw := { Hw.reset with peers := [(5, { Peer.reset with st := Peer.unreachable })] } }).peer 5).st = Peer.unreachable
    ∧ ((linked path1).peer 5).st ≠ Peer.idle := by decide +kernel
theorem witness_ports : ∀ st ∈ [PortState.off, .training, .up, .down, .drain], ((atPort { Port.reset with st := st }).port 0).st = st
    ∧ ((atPort { Port.reset with st := st }).port 0).pending = false := by decide +kernel
theorem test_trains : ((after (exec (.portEnable 0) (atPort Port.reset))).port 0).st = .training := by decide +kernel
theorem witness_flow : (linked path1).receives 0 = true ∧ some up.hw.pcp = some 0 ∧ (1 : BitVec 3) ≠ up.hw.pcp := by decide +kernel
theorem witness_hawserRegisters : up.anyPeer = false ∧ (linked path1).anyPeer = true
    ∧ (fly (desc [(0, 2, 0x0602)])).groupRuns [0x0602, 0x0603, 0x0604] 0 = true
    ∧ up.groupRuns [0x0602, 0x0603, 0x0604] 0 = false := by decide +kernel
/-- A PUT of one line to module 5. -/
def putOp : List Byte := desc [(0, 2, 0x0601), (16, 8, ivorn 0x8000), (32, 4, 1), (36, 2, 5)]
theorem witness_putOp : opcodeOf putOp = 0x0601 ∧ putPeer putOp = 5 ∧ (oper putOp [] []).num Lab.sent ≠ 1
    ∧ (State.flying { up with hw := { Hw.reset with peers := [(5, { Peer.reset with st := Peer.unreachable })] } } putOp [] []
        |>.peer 5).st = Peer.unreachable
    ∧ fine ((State.flying (linked path1) putOp [] []).run (readLines ((State.flying (linked path1) putOp [] []).envOf (oper putOp [] []))
        ⟨none, 0⟩ (addrField putOp 16) 1)) = true := by decide +kernel
theorem test_put : ((after (exec (.put 7) (State.flying (linked { path1 with est := false, syncing := true }) putOp [] []))).peer 5).nextMsg = 1 := by decide +kernel
/-- An operation of class 0x06 on group 0. -/
def collOp (o : Nat) : List Byte := desc [(0, 2, 0x0600 + o), (20, 4, 1), (32, 8, ivorn 0x200000), (40, 4, 1026)]
/-- It is in flight in a group. -/
def inGroup (o members own leader : Nat) (recs : Tab (List Byte)) (nums : Tab Nat) : State :=
  State.flying (grouped (linked path1) members own leader) (collOp o) recs nums
theorem inGroup_record (own leader : Nat) (recs : Tab (List Byte)) (nums : Tab Nat)
    (h : (2, own, leader) ∈ [(2, 0, 0), (2, 0, 1), (2, 1, 1), (1, 0, 0)]) :
    (inGroup 2 2 own leader recs nums).groupRecord (collGroup (collOp 2)) = some (groupLines 2 own leader).flatten := by
  have : collGroup (collOp 2) = 0 := by decide +kernel
  rw [this]; exact record_of (s := inGroup 2 2 own leader recs nums) h rfl rfl rfl
theorem witness_reduce : opcodeOf (collOp 2) = 0x0602 ∧ (oper (collOp 2) [] []).num Lab.sent ≠ 1
    ∧ (inGroup 2 2 0 0 [] []).reduceHeld (oper (collOp 2) [] []) = false := by decide +kernel
theorem witness_ferrySent : opcodeOf (collOp 3) = 0x0603 ∧ (oper (collOp 3) [] [(Lab.sent, 1)]).num Lab.sent = 1 := by decide +kernel
/-- The record of a FERRY whose entry nothing has written. -/
def ferryRecord : Tab (List Byte) := [(Lab.hawser, desc [(0, 2, 0x0508), (16, 8, ivorn 0x300000)])]
theorem witness_ferry : let s := inGroup 3 1 0 0 ferryRecord []
    let o := oper (collOp 3) ferryRecord []
    o.num Lab.sent ≠ 1 ∧ fine (s.run (do
      let (b, poison) ← readBytes (s.envOf o) ⟨none, o.pin.toNat⟩ (addrField (o.record Lab.hawser) 16) 128
      let own := if poison || entryMalformed false b then none else s.ferryLocal { o with recs := tput o.recs Lab.entry b } b
      packBlock s (s.envOf o) ⟨none, o.pin.toNat⟩ o.desc (enId b) (grOwn (groupLines 1 0 0).flatten) own)) = true := by decide +kernel
theorem witness_ferryRecord : (inGroup 3 1 0 0 ferryRecord []).groupRecord 0 = some (groupLines 1 0 0).flatten :=
  record_of (by decide) rfl rfl rfl
theorem witness_ferryFree : (inGroup 3 1 0 0 ferryRecord []).seqHeld (oper (collOp 3) ferryRecord []) = false := by
  simp [State.seqHeld, inGroup, State.flying, oper]
theorem witness_regroup : opcodeOf (collOp 4) = 0x0604 ∧ (inGroup 4 2 0 0 [] []).groupBusy 0 = false
    ∧ ({ inGroup 4 2 0 0 [] [] with ops := [oper (collOp 2) [] [], oper (collOp 4) [] []] } : State).groupBusy 0 = true := by decide +kernel
theorem witness_regroupWrites : let s := inGroup 4 2 0 0 [] []
    let o := oper (collOp 4) [] []
    ∃ d, s.run (do
      let e := s.envOf o
      let a : Acc := ⟨none, o.pin.toNat⟩
      let va := (s.group (collGroup o.desc)).addr.toNat
      let src := o.record Lab.hawser
      let last := BitVec.ofNat 32 (field o.desc 32 4) - (1 : Word)
      let w1 ← putBytes e a va (slice src 0 8 ++ natLE 4 last.toNat)
      let w2 ← putBytes e a (va + 16) [0]
      let w3 ← putBytes e a (va + 64) (slice src 64 8192 ++ zeros 1024)
      writeAll e (w1 ++ w2 ++ w3)) = some (.ok (), d) := by
  intro s o
  have he : (s.envOf o).stacksOn := stacks_of (s := s) rfl _
  have hva : (s.group (collGroup o.desc)).addr.toNat = privOf 0x8000 := by decide +kernel
  have h16 : privOf 0x8000 + 16 = privOf 0x8010 := rfl
  have h64 : privOf 0x8000 + 64 = privOf 0x8040 := rfl
  simp only [hva, h16, h64]
  refine State.run_putThree s he ⟨none, o.pin.toNat⟩ _ _ _ _ _ _ ?_ ?_ ?_ rfl
  · simp only [List.length_append, slice_length, natLE_length]; decide
  · decide
  · simp only [List.length_append, slice_length, zeros, List.length_replicate]; decide

/-- A step of group 0. -/
def step1 : CollStep := ⟨1, 7, [], [0, 1], 0, 0, 0, false, none, false⟩
/-- The group has begun it. -/
def stepping (own leader : Nat) : State :=
  let s := inGroup 2 2 own leader [] [(Lab.sent, 1)]
  { s with hw := { s.hw with groups := [(0, { s.group 0 with steps := [step1] })] } }
theorem witness_deadline : ((stepping 0 0).group 0).steps.find? (fun c => !c.done && !(((stepping 0 0).group 0).closes.any
      fun x => x.1 == c.step)) = some step1
    ∧ ((stepping 0 1).group 0).step? (collNumber (collOp 2)) = some step1 ∧ step1.close = none ∧ step1.done = false := by decide +kernel
theorem witness_deadlineRecord : (stepping 0 0).groupRecord 0 = some (groupLines 2 0 0).flatten
    ∧ (stepping 0 1).groupRecord 0 = some (groupLines 2 0 1).flatten :=
  ⟨record_of (by decide) rfl rfl rfl, record_of (by decide) rfl rfl rfl⟩
theorem witness_settlePut : (oper putOp [] [(Lab.rejected, 1)]).num Lab.peerLost ≠ 1 ∧ (oper putOp [] []).num Lab.rejected ≠ 1
    ∧ (oper putOp [] [(Lab.rejected, 1)]).num Lab.rejected = 1
    ∧ (State.flying (linked path1) putOp [] []).outstanding (oper putOp [] []) [0] = false := by decide +kernel
/-! ### The object dictionary (chapter 13) -/

/-- A response sent before. -/
def answered : Answered := ⟨0x020000000009, 77, 0, request 2 0x1000 1 []⟩
/-- The module has answered it. -/
def repeated : State := { up with dic := { up.dic with recent := [answered] } }
/-- A write request. -/
def write (i : Nat) (k : Nat) (data : List Byte) : MgmtFrame := request 3 (BitVec.ofNat 16 i) (BitVec.ofNat 8 k) data

theorem witness_mgmt : up.mgmtOn = true ∧ ({ up with pwr := { up.pwr with in54 := false, in12 := false } } : State).mgmtOn = false
    ∧ { request 1 0x1000 1 [] with tagged := true }.tagged = true
    ∧ repeated.retryOf (request 1 0x1000 1 []) = some answered.response := by decide +kernel
theorem witness_hears (service : BitVec 8) (i : BitVec 16) (k : BitVec 8) (data : List Byte) : up.Hears (request service i k data) :=
  ⟨by decide, rfl, by show (0x02A1B2C3D4E5 : BitVec 48) ≠ broadcastMac; decide, rfl, rfl, rfl⟩
theorem witness_reads : up.readStatus (request 1 0x1000 1 []) = 0 ∧ badHeader { request 1 0x1000 1 [] with version := 2 } = true
    ∧ highestSub 0x0FFF = none ∧ highestSub 0x1000 = some 12 ∧ (entryOf 0x1000 1).isSome = true
    ∧ badHeader (request 1 0x1000 13 []) = false := by decide +kernel
theorem test_noSub : up.readStatus (request 1 0x1000 13 []) = 3 ∧ up.readStatus (request 1 0x0FFF 0 []) = 2 := by decide +kernel
theorem witness_broadcast : ({ up with dic := { up.dic with broadcast := [request 1 0x1000 1 []] } } : State).dic.broadcast
    = request 1 0x1000 1 [] :: [] := rfl
theorem witness_writes : (entryOf 0x2002 1).map (·.1) = some .f32 ∧ up.writeStatus (write 0x2002 1 (natLE 4 0x42440000)) = 0
    ∧ up.writeStatus (write 0x2002 1 [0]) ≠ 0 ∧ (entryOf 0x1000 1).map (·.2) = some .ro := by decide +kernel
theorem test_clamp : (after (exec (.writeReq (write 0x2002 1 (natLE 4 0x40000000))) up)).dic.cfg.dipV = 0x42300000 := by decide +kernel
theorem test_readOnly : up.writeStatus (write 0x1000 1 (natLE 4 0)) = 4 := by decide +kernel
theorem witness_writer : (0x020000000009 : BitVec 48) ≠ up.dic.lastWriter := by decide +kernel
theorem witness_serves : up.Serves 0x020000000009 77 := ⟨by decide, by decide, by decide, by intro a h; cases h⟩
theorem witness_commands : up.dic.storeStatus ≠ 1 ∧ up.dic.storeStatus ≠ 2 ∧ up.pwr.nvInhibit = false
    ∧ ({ up with pwr := { up.pwr with nvInhibit := true } } : State).pwr.nvInhibit = true ∧ (0 : Word).toNat ≤ up.dp.logCount.toNat
    ∧ up.dic.fwXfer = none ∧ ({ up with dic := { up.dic with fwStatus := 2 } } : State).dic.fwStatus = 2 := by decide +kernel
theorem test_store : (after (exec (.store 0x020000000009 77 0xA5) up)).dic.storeStatus = 2
    ∧ (after (exec (.store 0x020000000009 77 1) up)).dic.storeStatus = up.dic.storeStatus := by decide +kernel
theorem witness_caps : (decide (decode32 0x44BB8000).isNaN = false) ∧ up.pwr.releasing = false
    ∧ ({ up with pwr := { up.pwr with releasing := true } } : State).pwr.releasing = true := by decide +kernel
theorem test_cap : (after (exec (.capWrite 0x020000000009 77 1 0x45800000) up)).dic.cfg.powerCap = 0x451C4000 := by decide +kernel

/-- A segment of a transfer: whether it is the first and the last, its offset, the total, the data. -/
def segmentOf (i : Nat) (flags offset total : Nat) (data : List Byte) : MgmtFrame :=
  { write i 1 data with flags := BitVec.ofNat 8 flags, offset := BitVec.ofNat 32 offset, total := BitVec.ofNat 32 total }
/-- A transfer of two bytes of which one has come. -/
def open1 : DomainXfer := ⟨0x020000000009, 2, [1], 0, 0⟩
theorem witness_segments : let first := segmentOf 0x7000 1 0 2 [1]
    let later := segmentOf 0x7000 2 1 2 [2]
    up.dic.xfer .firmware = none ∧ up.dic.xfer .repair = none ∧ bit first.flags.toNat 0 = true ∧ firstOk first = true
      ∧ up.dic.verifying .firmware = false ∧ up.dic.verifying .repair = false ∧ badHeader first = false ∧ first.total.toNat ≤ 16773120 + 2828
      ∧ bit later.flags.toNat 0 = false ∧ laterOk open1 later = true ∧ laterOk open1 { later with offset := 0 } = false
      ∧ bit first.flags.toNat 1 = false ∧ bit later.flags.toNat 1 = true
      ∧ ({ up.dic with fwXfer := some open1, repairXfer := some open1 }.xfer .firmware) = some open1
      ∧ ({ up.dic with fwXfer := some open1, repairXfer := some open1 }.xfer .repair) = some open1 := by decide +kernel
theorem test_lastSegment : (after (exec (.domainSegment (segmentOf 0x7000 2 1 2 [2]))
    { up with dic := { up.dic with fwXfer := some open1 } })).dic.image = [1, 2] := by decide +kernel

/-- The staged image waits for the result of its verification. -/
def verifying (image : List Byte) : State := { up with
  boot := { up.boot with counters := [(2, 0)] }, dic := { up.dic with fwStatus := 3, image := image } }
theorem witness_verifying : (verifying []).dic.fwStatus = 3 ∧ (verifying []).boot.slotDue = false
    ∧ (verifying []).boot.rejects (targetKind 0) [] = some Why.reserved := by decide +kernel
theorem witness_verified (h1 : ∀ a b c, Config.ecdsaOk a b c = true) (h2 : ∀ a b c, Config.lmsOk a b c = true) :
    (verifying firmware).boot.rejects (targetKind (verifying firmware).dic.imageTarget.toNat) (verifying firmware).dic.image = none := by
  have hk : targetKind (verifying firmware).dic.imageTarget.toNat = 2 := by decide +kernel
  have ht : objTorn firmware = false := by decide +kernel
  rw [hk]
  simp only [verifying, Boot.rejects, Boot.objectFaults, ht, h1, h2, Bool.false_eq_true, if_false, if_true]
  decide +kernel
/-- A repair record for this unit: spare row 0 of stack 0's PC 0 for row 0. -/
def repair : List Byte :=
  slice (natLE 2 5 ++ natLE 2 1 ++ natLE 4 64 ++ natLE 8 0 ++ natLE 16 Machine.unitId.toNat ++ zeros 32 ++ [3]) 0 (64 + 64 + 96 + 2668)
/-- The module holds it. -/
def repairing : State := { up with dic := { up.dic with repairData := some repair } }
theorem witness_repair (h1 : ∀ a b c, Config.ecdsaOk a b c = true) (h2 : ∀ a b c, Config.lmsOk a b c = true) :
    repairing.repairRefused repair = none := by
  have ht : objTorn repair = false := by decide +kernel
  have hs : slice repair 16 16 = natLE 16 Machine.unitId.toNat := by rfl
  have hu : field repair 16 16 = Machine.unitId.toNat := by
    simp only [field, hs, leNat_natLE]
    exact Nat.mod_eq_of_lt (by have := Machine.unitId.isLt; omega)
  have hm : (match manifestMap repairing.boot.manifest with
      | .ok x => ((applyStored x repairing.boot.repairs).1.apply (recordEntry repair)).isNone
      | .error _ => true) = false := by decide +kernel
  have hj : repairing.boot.rejects 5 repair = none := by
    simp only [Boot.rejects, Boot.objectFaults, ht, h1, h2, hu, Bool.false_eq_true, if_false, if_true]
    decide +kernel
  have hl : ¬ (64 ≤ repairing.boot.repairs.length ∨
      repairing.boot.repairs.any (fun x => decide (recordSeq repair ≤ recordSeq x)) = true) := by decide +kernel
  simp only [State.repairRefused, hj, if_neg hl]
  revert hm
  cases manifestMap repairing.boot.manifest with
  | error i => intro h; cases h
  | ok x => intro h; simp only [h, Bool.false_eq_true, if_false]
theorem witness_repairRefused : ({ repairing with boot := { repairing.boot with repairs := List.replicate 64 [] } } : State).repairRefused []
    = some Why.reserved ∧ repairing.boot.repairDue = false := by decide +kernel
theorem witness_flash : ({ up with dic := { up.dic with storeStatus := 2 } } : State).dic.storeStatus = 2 ∧ up.mgmtOn = true
    ∧ ({ up with pwr := { up.pwr with nvInhibit := true } } : State).pwr.nvHeld = false
    ∧ ({ up with pwr := { up.pwr with nvInhibit := true, nvHeld := true } } : State).pwr.nvHeld = true := by decide +kernel

/-! ### Clauses with hypotheses of their own -/

/-- A module one of whose power domains has a state, where a posted write to its stack waits. -/
def holding1 : State := { upDom 16 ⟨2, .slack, false, 0⟩ with pci := { up.pci with held := [.write 0 [1] false] } }
theorem witness_heldAccess : holding1.writeHeld = true ∧ up.writeHeld = false ∧ holding1.pci.held = .write 0 [1] false :: []
    ∧ up.pci.held = [] ∧ ({ holding1 with pci := { holding1.pci with held := [] } } : State).accessWaits (.write 0 [1] false) = true
    ∧ ({ up with pci := { up.pci with held := [] } } : State).accessWaits (.write 0 [1] false) = false
    ∧ barSize .bar2 ≤ 2 ^ 20 ∧ ¬ barSize .bar0 ≤ 0x3FFFFF8 := by decide +kernel
theorem test_heldAccess : (after (exec (.doorbellWrite 63 1) holding1)).pci.held = [.write 0 [1] false, .doorbell 63 1]
    ∧ (after (step { up with pci := { up.pci with held := [.doorbell 63 1] } })).pci.held = []
    ∧ ((after (step { up with pci := { up.pci with held := [.doorbell 63 1] } })).queue 63).tail = 1 := by decide +kernel
theorem test_windowSize : (after (exec (.registerWrite .config 0x108 8 (256 * 10)) up)).windowSize = 2 ^ 30
    ∧ (after (exec (.registerWrite .config 0x108 8 (256 * 20)) up)).windowSize = 2 ^ 40 := by decide +kernel
theorem witness_noParty : up.bufferOff 63 = false ∧ up.mbxSender 63 ≠ 1 ∧ up.mbxReceiver 63 ≠ 1 ∧ up.mbxAcker 63 ≠ 1 := by decide +kernel
theorem test_noParty : (up.readRegister .bar2 0xFE000 8).1 = some (.data 0)
    ∧ (up.readRegister .bar0 0x1001 4).1 = some .unsupported := by decide +kernel
theorem witness_hostWorks : up.hostWorks = true ∧ ({ up with pwr := { up.pwr with hostOn := false } } : State).pwr.hostOn = false
    ∧ ({ up with pwr := { up.pwr with shut := some .trip } } : State).pwr.shut.isSome = true := by decide
theorem test_stopped : exec (.headerCheck 63) { queued nop false with pwr := { up.pwr with shut := some .input } }
    = .next { queued nop false with pwr := { up.pwr with shut := some .input } } := by rfl
/-- A sweep that no check lets pass: it names a course count that bass does not have, and K = 0. -/
def badSweep : List Byte := desc [(0, 2, 0x0101), (3, 1, 0x31), (4, 2, 0xFFFF), (12, 2, 12)]
theorem witness_refused : (queued badSweep true).ready 63 = some ⟨badSweep, 0, false⟩ ∧ (queued badSweep true).wins 63 badSweep = true
    ∧ (match (queued badSweep true).checks 63 badSweep ⟨(queued badSweep true).dp, false⟩ with
      | (.error (c, _), io) => !io.wait && c != Code.noEntropy | (.ok _, _) => false) = true := by
  refine ⟨by rfl, ?_⟩; decide +kernel
theorem test_refused : let t := after (exec (.dispatch 63) (queued badSweep true))
    t.bass = { up.bass with faulted := t.bass.faulted } ∧ t.ops = [] ∧ (t.queue 63).head = 1 := by decide +kernel

/-! #### Entropy, memory, the host's accesses -/

/-- An SPDM request of a nonce waits. -/
def nonceWaits : State := { up with rng := { up.rng with entOk := false }, pci := { up.pci with spdmWait := some [1] } }
theorem witness_nonceWaits : nonceWaits.rng.entOk = false ∧ nonceWaits.pci.spdmWait = some [1] ∧ nonceWaits.rng.domWait = []
    ∧ nonceWaits.rng.seedWait = false ∧ State.reset.pci.spdmWait = none := by decide
theorem test_nonceTimeout : (after (exec (.noEntropyTimeout .spdm) nonceWaits)).pci.spdmWait = none := by decide +kernel
theorem witness_pteHeld : (fly pteOp).pteHeld (oper pteOp [] []) = false
    ∧ ({ fly pteOp with ops := [{ oper pteOp [] [] with id := 6 }, oper pteOp [] []] } : State).pteHeld (oper pteOp [] []) = true := by
  decide +kernel
theorem witness_transfers : ({ up.dp with transfers := [8, 9] } : Data).transfers = 8 :: [9] ∧ 3 < berthBase ∧ berthBase ≤ 2 ^ 34 := by
  decide
theorem test_transfers : ((({ up.dp with transfers := [9] } : Data).readOver (up.env 0) 3).2.evts |> fun e => tget 0 e Evt.linkRetry) = 8 := by
  decide +kernel
theorem test_parts : joinParts 128 [(0, [1], false), (64, [0xFF], true), (128, [2], false)]
    = [(0, [1, 0xFF], true), (128, [2], false)] := by decide
theorem test_heldRead : (after (exec (.bar4Read 0 1) (upDom 16 ⟨2, .slack, false, 0⟩))).pci.held = [.read 0 1] := by decide +kernel
theorem witness_sideLines : up.sideLine = none
    ∧ (let s := { siding 3 with pwr := (upDom 16 ⟨2, .slack, false, 0⟩).pwr }; s.sideLine = some 3 ∧ s.lineGo 3 = .waits)
    ∧ (let s := { siding 3 with pwr := (upDom 16 ⟨0, .off, false, 0⟩).pwr }; s.sideLine = some 3 ∧ s.lineGo 3 = .refused) := by
  decide +kernel
theorem test_sideRefused : let s := { siding 3 with pwr := (upDom 16 ⟨0, .off, false, 0⟩).pwr }
    (after (exec .sideDataRead s)).out = .value (BitVec.allOnes 64) :: s.out := by decide +kernel
theorem test_retrained : tget 0 (after (exec (.retrainInterface 15 true)
    { up with dp := { up.dp with retrainFails := [(15, 2)] } })).dp.retrainFails 15 = 0 := by decide +kernel

/-- DOE objects: Discovery, an SPDM GET_VERSION, an SPDM CHALLENGE of slot 0, and a secured one. -/
def doeDiscovery : List Byte := natLE 2 1 ++ [0, 0] ++ natLE 4 3 ++ natLE 4 0
def doeChallenge : List Byte := natLE 2 1 ++ [1, 0] ++ natLE 4 11 ++ [0x11, 0x83, 0, 0] ++ zeros 32
def doeSecured : List Byte := natLE 2 1 ++ [2, 0] ++ natLE 4 3 ++ natLE 4 0
theorem witness_doe : 8 ≤ doeDiscovery.length ∧ doeLength doeDiscovery ≤ doeDiscovery.length ∧ field doeDiscovery 2 1 = 0
    ∧ doeLength doeChallenge ≤ doeChallenge.length ∧ field doeChallenge 2 1 = 1 ∧ needsNonce doeChallenge = true
    ∧ spdmSupported doeChallenge = true ∧ spdmSlot doeChallenge = 0 ∧ doeLength doeSecured ≤ doeSecured.length
    ∧ 1 < field doeSecured 2 1 ∧ (booting 4).boot.stage < 5 ∧ nonceWaits.pci.spdmWait.isSome = true
    ∧ (let s := { nonceWaits with pci := up.pci }; s.rng.entOk = false ∧ s.pci.spdmWait = none ∧ s.pci.down = false) := by decide +kernel
theorem test_discovery : (after (exec (.spdmRequest doeDiscovery) up)).out.head? = some (.doe (doeObject 0 [1, 0, 0, 1]))
    ∧ (after (exec (.spdmRequest doeSecured) up)).out = up.out := by decide +kernel
theorem test_d3hot : (after (exec (.functionStateChange true true) up)).count Evt.slackEntry = 1 := by decide +kernel

/-! #### Power, boot, supply -/

theorem witness_notRequested : ((upDom 31 ⟨0, .down, true, 2⟩).domain 31).pendReq = 2
    ∧ ((upDom 0 ⟨1, .up, false, 0⟩).domain 0).req ≠ 0 ∧ up.rng.entOk = true ∧ 831 ∈ List.range 832 := by decide +kernel
/-- A module at boot stage 2 whose partition stores a code. -/
def partition (m : List Byte) : State := { booting 2 with boot := { (booting 2).boot with partMac := some m } }
theorem witness_partition : (∃ m, (partition m).boot.partOk = false) ∧ ∃ m, (partition m).boot.partOk = true :=
  ⟨⟨(booting 2).boot.macOf ++ [0], by simp [Boot.partOk, Boot.storedMac, partition, Boot.macOf, Boot.partData, Boot.counter]⟩,
    ⟨(booting 2).boot.macOf, by simp [Boot.partOk, Boot.storedMac, partition, Boot.macOf, Boot.partData, Boot.counter]⟩⟩
theorem witness_stage4 (h1 : ∀ a b c, Config.ecdsaOk a b c = true) (h2 : ∀ a b c, Config.lmsOk a b c = true) :
    let s := { booting 4 with boot := { (booting 4).boot with counters := [(2, 0)], slots := [(2, firmware)], active := [(2, 0)] } }
    s.boot.stage = 4 ∧ s.boot.rejects 2 (s.boot.slot 2 (s.boot.activeSlot 2)) = none := by
  refine ⟨rfl, ?_⟩
  have ht : objTorn firmware = false := by decide +kernel
  show Boot.rejects _ 2 firmware = none
  simp only [Boot.rejects, Boot.objectFaults, ht, h1, h2, Bool.false_eq_true, if_false, if_true]
  decide +kernel
theorem witness_busMaster : (0x20 : Byte) ≠ 1 ∧ (1 : Byte) ≠ (channel true).mbxSender 63 ∧ (0x20 : Byte) = (channel true).mbxSender 63 := by
  decide +kernel
theorem test_mailboxErrors : (after (exec (.mbxWordWrite 0x20 63 7 5) (channel true))).out = [.busError 0x20]
    ∧ (after (exec (.mbxWordWrite 1 63 7 5) (channel true))).out = [] := by decide +kernel
theorem witness_supplyMore : (numOf 0x42340000).lt (numOf up.dic.cfg.dipV) = true ∧ (numOf 0x42340000).lt (FV.ofNat 44) = false
    ∧ belowTenths (numOf 0x41200000) 108 = true ∧ up.pwr.below44 = false ∧ up.pwr.in54 = true ∧ up.quietSecond = true
    ∧ (inEvent 1).quietSecond = false ∧ ({ inEvent 1 with pwr := { up.pwr with nvInhibit := true } } : State).pwr.nvInhibit = true := by
  decide +kernel
theorem test_supplyMore : tget 0 (after (exec (.supplyEventBegin .overstress 0x42740000) up)).dic.counts 4 = 1
    ∧ (after (exec (.supplyEventBegin .auxLoss 0x41200000) up)).pwr.in12 = false
    ∧ (after (exec (.rippleWindow 0x40200000) up)).dic.evType = 5 := by decide +kernel
theorem test_relog : (after (exec (.supplyEventEnd .dip 0x42420000)
    { inEvent 1 with pwr := { up.pwr with nvInhibit := true } })).dic.relogs = [⟨5, 1, 1, 95⟩] := by decide +kernel
theorem witness_restartable : up.Restartable ∧ up.pwr.in12 = true ∧ up.pwr.goodIn = true ∧ up.mgmtOn = true := by
  unfold State.Restartable; decide
theorem witness_restarts : let s := { up with pwr := { up.pwr with shut := some .trip, tripped := true } }
    s.pwr.shut.isSome = true ∧ s.pwr.tripped = true ∧ s.pwr.awaits = false ∧ s.pwr.ref = true
    ∧ ({ s with pwr := { s.pwr with shut := some .input, tripped := false, in54 := false } } : State).Restartable
    ∧ ({ s with pwr := { s.pwr with shut := some .overcurrent, overcurrent := true } } : State).pwr.overcurrent = true
    ∧ ({ up with pwr := { up.pwr with in54 := false, in12 := false } } : State).mgmtOn = false := by unfold State.Restartable; decide
theorem test_restarts : let s := { up with pwr := { up.pwr with shut := some .input, in54 := false } }
    (after (exec .supplyRestart s)).pwr.shut = none ∧ (after (exec (.moduleReset .modRstN) s)).pwr.shut = some .input
    ∧ (after (exec .supplyRestart { s with pwr := { s.pwr with tripped := true } })).pwr.shut = some .input := by decide +kernel
theorem test_tripLater : let t := after (exec (.thermalTrip 4 0x42D20000) { up with pwr := { up.pwr with shut := some .input } })
    t.pwr.tripped = true ∧ t.pwr.shut = some .input := by decide +kernel
theorem witness_sensors : (4 < 5) ∧ (0x10 ≤ 0x1F ∧ 0x1F < 0x20) ∧ up.pwr.tripped = false ∧ hot 0x42D20000 105 = true
    ∧ hot 0x42C80000 105 = false := by decide +kernel
theorem test_history : (({ up.dic.meters with history := List.replicate 1000 0 }).take up.boot ⟨List.replicate 1000 0x42580000, List.replicate 1000 0x41A00000, List.replicate 1000 0x41400000, List.replicate 1000 0, 0x42580000⟩).history.length
    = 1000 := by decide +kernel

/-! #### Sequences and Hawser -/

/-- Attention of rows that see positions 0 and 1, of pages of four positions, and a page of the positions from 8 on. -/
def attention : Attn := ⟨⟨false, 1, 64, .e4m3, .e4m3, false, 0, 0, 0, .e4m3, 0, 0, 1, 4⟩, false, 4, .zero, .zero, 1, .bf16, true, 0, 1, 1, 16, 16, 0⟩
def laterPage : KvPage := ⟨2, 15, [], []⟩
theorem witness_unseen : [laterPage] ≠ [] ∧ (∀ x ∈ [laterPage], ∀ t, attention.visible x 1 t = false)
    ∧ attention.visible ⟨0, 15, [], []⟩ 1 1 = true := by
  refine ⟨by simp, ?_, by decide⟩
  intro x hx t
  simp only [List.mem_singleton] at hx
  subst hx
  simp only [Attn.visible, Attn.reach, attention, laterPage, Bool.and_eq_false_iff, decide_eq_false_iff_not]
  right; simp; omega
/-- An ATTEND whose batch array no translation maps. -/
def unmappedFields : List (Nat × Nat × Nat) := [(16, 8, 0x1000), (24, 4, 1), (36, 1, 27), (38, 1, 1)]
/-- The fault of a batch. -/
def batchFault (r : Option (Except (XfKind × Nat) (List EntryEnd × Option (XfKind × Nat)) × Data)) : Option (XfKind × Nat) :=
  match r with
  | some (.ok (_, f), _) => f
  | _ => none
theorem witness_batchFault : let s := inSeq (holding ctx0) 8 unmappedFields
    let p := oper (seqOp 8 unmappedFields) [] []
    (batchFault (s.run (do
      overwriteRegion s (s.envOf p) (operOf p.desc == 9)
      runBatch s p (s.envOf p) ⟨none, p.pin.toNat⟩ (field p.desc 24 4) []))).isSome = true := by decide +kernel
theorem witness_attendHeld : let p := { oper (seqOp 4 []) [] [] with id := 6 }
    let o := oper (seqOp 8 attendFields) [(Lab.entry, zeros 128)] []
    ({ holding ctx0 with ops := [p, o] } : State).Running 7 0 0x0508 o inst := ⟨rfl, by decide +kernel, rfl, rfl⟩
theorem witness_opLayout : let s := inSeq (holding ctx0) 6 matchOp
    ((s.opLayout (oper (seqOp 6 matchOp) [] []) ctx0.layout.toNat).map (·.per)) = some 512 := by decide +kernel

/-- A record that is read does not wait. -/
theorem frameWaits_of {s : State} {f : HwFrame} {r : List Byte} (hg : f.group = 0) (h : s.groupRecord 0 = some r) : s.frameWaits f = false := by
  unfold State.groupRecord at h
  simp only [State.frameWaits, hg, show (0 : BitVec 4).toNat = 0 from rfl]
  revert h
  cases s.readGroup 0 <;> simp
theorem witness_frameGoes (k : BitVec 8) : (grouped (staged (collective k)) 2 0 0).frameWaits (collective k) = false :=
  frameWaits_of rfl (record_of (by decide) rfl rfl rfl)
/-- The first line of the group's record lies in a stack in slack, the others beyond the last stack. -/
def sleeping : State := { State.reset with
  pwr := { Pwr.reset with doms := [(31, ⟨2, .slack, false, 0⟩)] }
  hw := { Hw.reset with groups := [(0, { Group.reset with addr := BitVec.ofNat 60 (ivorn (2 ^ 40 - 64)) })] } }
theorem witness_frameWaits : sleeping.frameWaits (collective 1) = true ∧ (staged (collective 1)).frameWaits (collective 1) = false := by
  decide +kernel
/-- Module 5 has sent a first frame of a message. -/
def begun : State := { staged (collective 1) with hw := { (staged (collective 1)).hw with msgs := [⟨5, 0, 1, 3, false, false⟩] } }
theorem witness_findMsg : (begun.findMsg false 5 0).isNone = false ∧ ((staged (collective 1)).findMsg false 5 0).isNone = true := by
  decide +kernel
theorem test_dropOnce : (begun.dropContrib 5 (collective 1)).count Evt.collDropped = 0 := by decide +kernel
/-- A close that names rank 0 lost. -/
def losing : Close := { (closeOfFrame [] (frame 0 4)) with lost := 1 }
theorem witness_lostBefore : ((grouped (staged (collective 4)) 2 0 1).lostBefore 0 (groupLines 2 0 1).flatten 1 losing).isSome = true
    ∧ bit losing.lost (grOwn (groupLines 2 0 1).flatten) = true
    ∧ bit (closeOfFrame (groupLines 2 0 1).flatten (collective 4)).lost (grOwn (groupLines 2 0 1).flatten) = false := by decide +kernel
theorem witness_keptFree : (collective 6).addr.setWidth 32 = ((grouped (staged (collective 6)) 2 0 0).nextFerry 0 (groupLines 2 0 0).flatten)
    ∧ ({ collective 6 with addr := 3 } : HwFrame).addr.setWidth 32 ≠ ((grouped (staged (collective 6)) 2 0 0).nextFerry 0 (groupLines 2 0 0).flatten)
    ∧ ((grouped (staged (collective 6)) 2 0 0).group 0).ferry = none := by decide +kernel

/-- Port 0 is stopped by PAUSE, and holds a frame. -/
def stopped : State :=
  { linked path1 with hw := { (linked path1).hw with ports := [(0, { (linked path1).port 0 with paused := true, held := [frame Ft.ack 0] })] } }
theorem witness_stopped : (stopped.port 0).paused = true ∧ stopped.receives 0 = true ∧ stopped.Takes 0 (frame Ft.nak 1) Ft.nak := by
  unfold State.Takes; decide +kernel
theorem test_stopped2 : let t := after (exec (.ackTimer 5 0) { stopped with hw := { stopped.hw with paths := [(80, { path1 with sinceAck := 1 })] } })
    t.hw.tx = [] ∧ (t.port 0).held.length = 2 := by decide +kernel
theorem test_unpaused : (after (exec (.pauseTimeExpiry 0) stopped)).hw.tx = [(0, frame Ft.ack 0)]
    ∧ ((after (exec (.pause 0 (some 0) 5) (linked path1))).port 0).paused = true := by decide +kernel
theorem witness_waitingQueue : let s := { up with hw := { Hw.reset with peers := [(5, { Peer.reset with queue := [frame 0 0] })] } }
    (s.peer 5).st = Peer.idle ∧ (s.peer 5).queue ≠ [] ∧ (up.peer 5).queue = [] := by decide +kernel
theorem witness_pending : ((atPort { Port.reset with st := .drain, pending := true }).port 0).pending = true := by decide +kernel
theorem test_drained : ((after (exec (.drainDone 0) (atPort { Port.reset with st := .drain, pending := true }))).port 0).st = .training
    ∧ ((after (exec (.drainDone 0) (atPort { Port.reset with st := .drain }))).port 0).st = .off := by decide +kernel
theorem test_linkFailure : ((after (exec (.linkFailure 0 17) (linked path1))).port 0).st = .down
    ∧ ((after (exec (.linkFailure 0 0) (linked path1))).port 0).st = .down
    ∧ ((after (exec (.linkFailure 0 16) (linked path1))).port 0).st = .up := by decide +kernel
/-- The group's record lies at an address that no translation maps. -/
def unmappedGroup : State :=
  let s := State.flying (linked path1) (collOp 2) [] []
  { s with hw := { s.hw with groups := [(0, { Group.reset with addr := 0x1000 })] } }
theorem witness_groupFault : (match unmappedGroup.readGroup (collGroup (collOp 2)) with | .fault _ => true | _ => false) = true := by
  decide +kernel
theorem witness_ferryTimeout : fine ((inGroup 3 1 0 0 ferryRecord [(Lab.sent, 1)]).run (M.attempt
    (ferryPoison (inGroup 3 1 0 0 ferryRecord [(Lab.sent, 1)]) (oper (collOp 3) ferryRecord [(Lab.sent, 1)])))) = true := by decide +kernel

/-! #### The dictionary, and the bytes of frames -/

/-- A broadcast read that the module has answered waits again. -/
def askedTwice : State := { repeated with dic := { repeated.dic with broadcast := [request 1 0x1000 1 []] } }
theorem witness_broadcastRetry : askedTwice.retryOf (request 1 0x1000 1 []) = some answered.response
    ∧ ({ up with dic := { up.dic with broadcast := [request 1 0x1000 1 []] } } : State).retryOf (request 1 0x1000 1 []) = none := by
  decide +kernel
theorem test_broadcastRetry : (after (exec .broadcastReadRsp askedTwice)).dp.mgmtOut = [answered.response] := by decide +kernel
theorem witness_verifyingTransfer : ({ up.dic with repairData := some [] } : Dic).verifying .repair = true
    ∧ ({ up.dic with fwStatus := 3 } : Dic).verifying .firmware = true := by decide +kernel
theorem test_busy : ((after (exec (.domainSegment (segmentOf 0x4002 0 1 2 [2]))
    { up with dic := { up.dic with repairData := some [] } })).dp.mgmtOut.map (·.status)) = [0x09] := by decide +kernel
/-- A flash record of a dip waits for the inhibit's end. -/
def relogging : State := { inEvent 1 with
  pwr := { up.pwr with nvInhibit := true }, dic := { (inEvent 1).dic with relogs := [⟨5, 1, 1, 95⟩], energyDue := true } }
theorem test_inhibitEnds : (after (exec .nvInhibitClear relogging)).dic.relogs = []
    ∧ (after (exec .nvInhibitClear relogging)).dic.energyDue = false := by decide +kernel
/-- A tagged frame of one line, and one without. -/
def tagged : HwFrame := { frame 0 0 with vlan := some 0x6001, lines := [(List.replicate 64 0x5A, zeros 8)] }
theorem witness_wire : tagged.fcsOk = true ∧ tagged.lines.length ≤ 126 ∧ (∀ l ∈ tagged.lines, l.1.length = 64 ∧ l.2.length = 8)
    ∧ tagged.vlan ≠ none ∧ (frame 0 0).vlan = none ∧ (frame 0 0).etherType ≠ 0x8100
    ∧ (request 1 0x1000 1 []).length < 2 ^ 16 ∧ (request 1 0x1000 1 []).tagged = false ∧ (request 1 0x1000 1 []).etherType ≠ 0x8100 := by
  decide
/-- 10 R315: version and type in byte 0, kind, source with its port, destination; little-endian. -/
theorem test_hwHeader : (hwHeader { frame 2 1 with srcId := 0x123, srcPort := 4, dstId := 0x456, psn := 0x0A0B0C }).take 11
    = [0x21, 1, 0x23, 0x41, 0x56, 0x04, 0x0C, 0x0B, 0x0A, 0, 0] := by decide
/-- 00 R4: the Ethernet fields are in network order. -/
theorem test_ethernet : (ethernet 0x02A1B2C3D400 0x020000000001 none 0x88B6) =
    [0x02, 0xA1, 0xB2, 0xC3, 0xD4, 0, 0x02, 0, 0, 0, 0, 1, 0x88, 0xB6] := by decide

end Sys2Proof.Tests
end

