-- ==== Sys2Proof/Proofs/FabricWork.lean ====
section
/-!
PROOFS. The work of classes 0x01, 0x02 and 0x04: what its effects leave alone, the containment of an array or mesh error of a
sweep, and RELEASE.
-/

namespace Sys2Proof.Machine

/-! ### The commands -/

theorem exec_sweep (id n : Nat) (s : State) : exec (.sweep id n) s = .next (s.work1 id n 0x0101 (fun _ => true) fun o =>
    sweepWork (s.envOf o) o.acc o (sweepJob o n) (o.tileOf (sweepJob o n).course)) := rfl

theorem exec_sweepInstanceFault (id n : Nat) (cause : SweepFault) (s : State) :
    exec (.sweepInstanceFault id n cause) s = .next ((s.faultSweep id n cause).strikeAttend id n) := rfl

theorem exec_release (id : Nat) (s : State) :
    exec (.release id) s = .next (s.work1 id 0 0x0102 (fun _ => true) fun o => releaseWork s o) := rfl

theorem exec_convert (id : Nat) (s : State) :
    exec (.convert id) s = .next (s.work1 id 0 0x0201 (fun _ => true) fun o => convertWork (s.envOf o) o.acc o) := rfl

theorem exec_run (id : Nat) (s : State) : exec (.run id) s =
    .next (s.work1 id 0 0x0401 (fun o => !s.lossBusy o) fun o => runWork s (s.envOf o) o.acc o) := rfl

/-! ### Work on the data plane, taken apart -/

/-- Work in two parts that runs through: each part does. -/
theorem M.bind_ok {α β : Type} {m : M α} {f : α → M β} {io io' : Io} {b : β} (h : (m >>= f) io = (.ok b, io')) :
    ∃ a io₁, m io = (.ok a, io₁) ∧ f a io₁ = (.ok b, io') := by
  change (match m io with | (r, io₁) => ExceptT.bindCont f r io₁) = _ at h
  generalize m io = answer at h ⊢
  obtain ⟨r, io₁⟩ := answer
  cases r with
  | error e => cases h
  | ok a => exact ⟨a, io₁, rfl, h⟩

/-- Every answer that some work can come to has a property. -/
def M.Answers {α : Type} (m : M α) (P : α → Prop) : Prop := ∀ io b io', m io = (.ok b, io') → P b

namespace M.Answers

theorem pure {α : Type} {P : α → Prop} {a : α} (h : P a) : M.Answers (Pure.pure a) P := by
  intro io b io' hrun
  cases hrun
  exact h

theorem bind {α β : Type} {m : M α} {f : α → M β} {P : β → Prop} (h : ∀ a, (f a).Answers P) : M.Answers (m >>= f) P := by
  intro io b io' hrun
  obtain ⟨a, io₁, -, hf⟩ := M.bind_ok hrun
  exact h a io₁ b io' hf

theorem ite {α : Type} {c : Prop} [Decidable c] {m m' : M α} {P : α → Prop} (h : m.Answers P) (h' : m'.Answers P) :
    M.Answers (if c then m else m') P := by
  split
  · exact h
  · exact h'

end M.Answers

/-- Work that ran to an answer ran on the module's data plane. -/
theorem State.run_some {α : Type} {s : State} {m : M α} {r : Except (XfKind × Nat) α} {d : Data} (h : s.run m = some (r, d)) :
    ∃ io, m ⟨s.dp, false⟩ = (r, io) ∧ io.d = d := by
  simp only [State.run] at h
  split at h
  · cases h
  · simp only [Option.some.injEq, Prod.mk.injEq] at h
    exact ⟨_, Prod.ext h.1 rfl, h.2⟩

/-! ### Ordinary work -/

/-- The whole of an ordinary instance's work: its writes and its record writes follow it. -/
def M.withWrites (e : Env) (m : M Work) : M Work := do
  let w ← m
  writeAll e (w.writes ++ w.eff.recs)
  pure w

/-- The operation of a running instance has the opcode of its command. -/
theorem State.Running.opcode_eq {s : State} {id n opcode : Nat} {o : Op} {i : Inst} (h : s.Running id n opcode o i) :
    opcodeOf o.desc = opcode := by
  obtain ⟨-, hop, -⟩ := h
  exact hop

/-- A running instance that does not run ahead does ordinary work. -/
theorem State.work1_running {s : State} {id n opcode : Nat} {o : Op} {i : Inst} {ready : Op → Bool} (work : Op → M Work)
    (h : s.Running id n opcode o i) (ha : o.ahead = none) (hr : ready o = true) :
    s.work1 id n opcode ready work = s.workNow o n (work o) := by
  obtain ⟨hfind, hop, hinst, hphase⟩ := h
  simp [State.work1, hfind, hop, hinst, hphase, ha, hr]

/-- Ordinary work that runs through applies its effects and losses and ends its instance. -/
theorem State.workNow_ok {s : State} {o : Op} {n : Nat} {m : M Work} {w : Work} {d : Data}
    (h : s.run (M.withWrites (s.envOf o) m) = some (.ok w, d)) :
    s.workNow o n m = ((({ s with dp := d }).applyEffects o { w.eff with recs := [] }).applyLoss w.eff).finish o.id n
      w.fault w.va := by
  unfold M.withWrites at h
  simp only [State.workNow, h]

/-- The work answers what came before its writes. -/
theorem State.run_withWrites {s : State} {e : Env} {m : M Work} {w : Work} {d : Data}
    (h : s.run (M.withWrites e m) = some (.ok w, d)) : ∃ io, m ⟨s.dp, false⟩ = (.ok w, io) := by
  obtain ⟨io, hio, -⟩ := State.run_some h
  obtain ⟨w', io₁, hm, hrest⟩ := M.bind_ok hio
  obtain ⟨-, io₂, -, hpure⟩ := M.bind_ok hrest
  cases hpure
  exact ⟨io₁, hm⟩

/-! ### What effects leave alone -/

/-- From s to t only the data plane outside memory, the two fabrics and the loss slots may have changed. -/
def State.SameButEffects (s t : State) : Prop :=
  ∃ (d : Data) (treble bass : Fabric) (los : Tab Loss), d.cells = s.dp.cells
    ∧ t = { s with dp := d, treble := treble, bass := bass, los := los }

namespace State.SameButEffects

theorem refl (s : State) : s.SameButEffects s := ⟨s.dp, s.treble, s.bass, s.los, rfl, rfl⟩

theorem trans {s t u : State} (h : s.SameButEffects t) (h' : t.SameButEffects u) : s.SameButEffects u := by
  obtain ⟨d, treble, bass, los, hd, rfl⟩ := h
  obtain ⟨d', treble', bass', los', hd', rfl⟩ := h'
  exact ⟨d', treble', bass', los', hd'.trans hd, rfl⟩

theorem foldl {α : Type} {f : State → α → State} (hf : ∀ (s : State) x, s.SameButEffects (f s x)) (l : List α) (s : State) :
    s.SameButEffects (l.foldl f s) := by
  induction l generalizing s with
  | nil => exact refl s
  | cons x l ih => exact (hf s x).trans (ih (f s x))

theorem data (s : State) {d : Data} (h : d.cells = s.dp.cells) : s.SameButEffects { s with dp := d } :=
  ⟨d, s.treble, s.bass, s.los, h, rfl⟩

theorem setFabric (s : State) (bass : Bool) (f : Fabric) : s.SameButEffects (s.setFabric bass f) := by
  cases bass
  · exact ⟨s.dp, f, s.bass, s.los, rfl, rfl⟩
  · exact ⟨s.dp, s.treble, f, s.los, rfl, rfl⟩

theorem contribute (s : State) (x : Nat × Word) : s.SameButEffects (s.contribute x) := by
  have hlos : s.SameButEffects { s with los := tupd .reset s.los x.1 (·.contribute x.2) } :=
    ⟨s.dp, s.treble, s.bass, _, rfl, rfl⟩
  simp only [State.contribute]
  split
  · exact hlos.trans (data _ (Data.bump_cells _ _ _))
  · exact hlos

theorem applyLoss (s : State) (eff : Effects) : s.SameButEffects (s.applyLoss eff) := foldl contribute eff.loss s

theorem applyCourse (s : State) (id : Nat) (eff : Effects) : s.SameButEffects (s.applyCourse id eff) := by
  simp only [State.applyCourse]
  split
  · exact foldl (fun s x => setFabric s _ _) eff.tiles s
  · exact (foldl (fun s x => setFabric s _ _) eff.tiles s).trans (setFabric _ _ _)

end State.SameButEffects

/-- Counting events changes no memory. -/
theorem Data.foldl_bump_cells (l : List (Nat × Nat)) (d : Data) : (l.foldl (fun d x => d.bump x.1 x.2) d).cells = d.cells := by
  induction l generalizing d with
  | nil => rfl
  | cons x l ih => simp [ih]

/-- Effects without record writes leave memory, and all but the fabrics, alone. -/
theorem State.SameButEffects.applyEffects (s : State) (o : Op) {eff : Effects} (h : eff.recs = []) :
    s.SameButEffects (s.applyEffects o eff) := by
  simp only [State.applyEffects, h, List.foldl_nil]
  refine (State.SameButEffects.data s ?_).trans (State.SameButEffects.applyCourse _ _ _)
  split <;> simp [Data.foldl_bump_cells]

/-- Ordinary work of a running instance that meets no wait: its writes are made, its instance ends with what the work answers,
and but for the data plane, the fabrics and the loss slots nothing else changes. -/
theorem State.work1_completes {s : State} {id n opcode : Nat} {o : Op} {i : Inst} {ready : Op → Bool} {work : Op → M Work}
    {w : Work} {d : Data} (h : s.Running id n opcode o i) (ha : o.ahead = none) (hr : ready o = true)
    (hw : s.run (M.withWrites (s.envOf o) (work o)) = some (.ok w, d)) :
    let t := s.work1 id n opcode ready work
    s.Ended t id n w.fault w.va ∧ t.dp.cells = d.cells
      ∧ t = { s with dp := t.dp, ops := t.ops, treble := t.treble, bass := t.bass, los := t.los } := by
  have heff := (State.SameButEffects.applyEffects { s with dp := d } o (eff := { w.eff with recs := [] }) rfl).trans
    (State.SameButEffects.applyLoss _ w.eff)
  obtain ⟨d', treble, bass, los, hd', ht⟩ := heff
  intro t
  have htEq : t = ({ s with dp := d', treble := treble, bass := bass, los := los } : State).finish id n w.fault w.va := by
    rw [← h.id_eq, show t = _ from (State.work1_running work h ha hr).trans (State.workNow_ok hw), ht]
  rw [htEq]
  exact ⟨State.finish_ended_of rfl rfl _ _ _ _, hd', rfl⟩

/-- A SWEEP, CONVERT or RUN that meets no wait makes its writes and is done. -/
theorem ordinaryWorkCompletes : Claim.OrdinaryWorkCompletes := by
  intro s id n o i w d ha
  refine ⟨fun h hw => ?_, fun h hw => ?_, fun h hfree hw => ?_⟩
  all_goals have hop := h.opcode_eq
  · simp only [State.workOf, hop] at hw
    exact ⟨_, exec_sweep id n s, State.work1_completes h ha rfl hw⟩
  · simp only [State.workOf, hop] at hw
    exact ⟨_, exec_convert id s, State.work1_completes h ha rfl hw⟩
  · simp only [State.workOf, hop] at hw
    exact ⟨_, exec_run id s, State.work1_completes h ha (by simp [hfree]) hw⟩

/-! ### Fabrics -/

/-- A fabric after one was set. -/
theorem State.fabric_setFabric (s : State) (b c : Bool) (f : Fabric) :
    (s.setFabric b f).fabric c = if c = b then f else s.fabric c := by
  cases b <;> cases c <;> rfl

@[simp] theorem State.fabric_setFabric_same (s : State) (b : Bool) (f : Fabric) : (s.setFabric b f).fabric b = f := by
  simp [State.fabric_setFabric]

@[simp] theorem State.fabric_setFabric_not (s : State) (b : Bool) (f : Fabric) : (s.setFabric b f).fabric (!b) = s.fabric (!b) := by
  cases b <;> rfl

@[simp] theorem State.setFabric_ops (s : State) (b : Bool) (f : Fabric) : (s.setFabric b f).ops = s.ops := by cases b <;> rfl
@[simp] theorem State.setFabric_tide (s : State) (b : Bool) (f : Fabric) : (s.setFabric b f).tide = s.tide := by cases b <;> rfl
@[simp] theorem State.setFabric_dp (s : State) (b : Bool) (f : Fabric) : (s.setFabric b f).dp = s.dp := by cases b <;> rfl
@[simp] theorem State.setFabric_cnt (s : State) (b : Bool) (f : Fabric) : (s.setFabric b f).cnt = s.cnt := by cases b <;> rfl
@[simp] theorem State.setFabric_que (s : State) (b : Bool) (f : Fabric) : (s.setFabric b f).que = s.que := by cases b <;> rfl

@[simp] theorem State.setFabric_count (s : State) (b : Bool) (f : Fabric) (k : Nat) :
    (s.setFabric b f).count k = s.count k := by cases b <;> rfl

/-- Counting an event leaves the fabrics. -/
@[simp] theorem State.bump_fabric (s : State) (off n : Nat) (b : Bool) : (s.bump off n).fabric b = s.fabric b := rfl

/-- Ending an instance leaves the fabrics. -/
@[simp] theorem State.finish_fabric (s : State) (id n fault va : Nat) (b : Bool) :
    (s.finish id n fault va).fabric b = s.fabric b := rfl

/-- Ending an instance counts no event. -/
@[simp] theorem State.finish_count (s : State) (id n fault va k : Nat) : (s.finish id n fault va).count k = s.count k := rfl

@[simp] theorem State.setFabric_setFabric (s : State) (b : Bool) (f g : Fabric) :
    (s.setFabric b f).setFabric b g = s.setFabric b g := by
  cases b <;> rfl

@[simp] theorem State.setFabric_fabric (s : State) (b : Bool) : s.setFabric b (s.fabric b) = s := by
  cases b <;> rfl

/-- The number of a fabric names it. -/
@[simp] theorem b2n_eq_one (b : Bool) : decide (b2n b = 1) = b := by
  cases b <;> rfl

/-- A tile effect leaves the FAULTED bits. -/
@[simp] theorem Fabric.apply_faulted (f : Fabric) (id c : Nat) (t : Option Tile) : (f.apply id c t).faulted = f.faulted := by
  unfold Fabric.apply
  split <;> rfl

/-- A fault's bit in FAULTED, and the others (03 R91). -/
theorem getLsbD_or_course (x : Half) (k : Nat) {c : Nat} (hc : c < 16) :
    (x ||| BitVec.ofNat 16 (2 ^ k)).getLsbD c = (x.getLsbD c || c == k) := by
  rw [BitVec.getLsbD_or, BitVec.getLsbD_ofNat, Nat.testBit_two_pow]
  simp [hc, Bool.beq_eq_decide_eq, eq_comm]

/-! ### The containment of an array or mesh error -/

/-- The effects of the containment of an array or mesh error (03 R91). -/
def sweepFaultEffects (j : SweepJob) (xf : Option (XfKind × Nat)) : Effects :=
  { Effects.none with
    evts := [(Evt.fab j.bass Evt.sweepFault, 1)]
    tiles := [(b2n j.bass, j.course, none)]
    faulted := some (b2n j.bass, j.course)
    xf := xf }

/-- A containment answers its code, its address and its effects, whatever it could poison. -/
theorem sweepPoison_answers {e : Env} {a : Acc} {o : Op} {j : SweepJob} {code va : Nat} {xf : Option (XfKind × Nat)} :
    (sweepPoison e a o j code va xf).Answers fun w => w.fault = code ∧ w.va = va ∧ w.eff = sweepFaultEffects j xf := by
  have hend (ws : List Wr) : M.Answers (α := Work) (pure ⟨ws, sweepFaultEffects j xf, code, va⟩)
      fun w => w.fault = code ∧ w.va = va ∧ w.eff = sweepFaultEffects j xf := .pure ⟨rfl, rfl, rfl⟩
  unfold sweepPoison
  refine .bind fun _ => .ite (.bind fun ws => ?_) (.bind fun _ => .bind fun ws => ?_)
  all_goals exact .ite (.bind fun _ => .bind fun _ => .bind fun _ => hend _) (.bind fun _ => hend _)

/-- What those effects do to the module: one SWEEP_FAULT, and the course loses its tile and becomes FAULTED. -/
theorem State.applyEffects_sweepFault (s : State) (o : Op) (j : SweepJob) :
    s.applyEffects o (sweepFaultEffects j none) = (s.bump (Evt.fab j.bass Evt.sweepFault) 1).setFabric j.bass
      { (s.fabric j.bass).apply o.id j.course none with
        faulted := (s.fabric j.bass).faulted ||| BitVec.ofNat 16 (2 ^ j.course) } := by
  simp only [State.applyEffects, State.applyCourse, sweepFaultEffects, Effects.none, List.foldl_cons, List.foldl_nil,
    b2n_eq_one, State.fabric_setFabric_same, State.setFabric_setFabric, Fabric.apply_faulted]
  rfl

/-- An operation of the list after changes that keep the operations' numbers. -/
theorem find_map_of_id_eq {f : Op → Op} (hf : ∀ o, (f o).id = o.id) (ops : List Op) (id : Nat) :
    (ops.map f).find? (fun o => o.id == id) = (ops.find? fun o => o.id == id).map f := by
  simp only [List.find?_map, Function.comp_def, hf]

/-- An operation whose instance ended keeps its descriptor. -/
theorem State.Ended.findOp {s t : State} {id n fault va : Nat} {o : Op} (h : s.Ended t id n fault va)
    (hfind : s.findOp id = some o) : ∃ o', t.findOp id = some o' ∧ o'.desc = o.desc := by
  rw [State.findOp] at hfind
  rw [State.findOp, h, find_map_of_id_eq (fun o => by split <;> rfl), hfind]
  exact ⟨_, rfl, by dsimp only; split <;> rfl⟩

/-- Only an operation of that opcode has work of it. -/
theorem State.work_of_opcode_ne {s : State} {id opcode : Nat} {o : Op} (n : Nat) (hfind : s.findOp id = some o)
    (h : opcodeOf o.desc ≠ opcode) : s.work id n opcode = none := by
  simp [State.work, hfind, h]

/-- SWEEP_INSTANCE_FAULT on an operation other than attention strikes no attention entry. -/
theorem State.strikeAttend_of_opcode {s : State} {id : Nat} {o : Op} (n : Nat) (hfind : s.findOp id = some o)
    (h8 : opcodeOf o.desc ≠ 0x0508) (h9 : opcodeOf o.desc ≠ 0x0509) : s.strikeAttend id n = s := by
  simp [State.strikeAttend, State.work_of_opcode_ne 0 hfind h8, State.work_of_opcode_ne 0 hfind h9]

/-- Nor does it on a sweep whose instance has ended. -/
theorem State.Ended.strikeAttend_of_sweep {s t : State} {id n m fault va : Nat} {o : Op} {i : Inst} (h : s.Ended t id n fault va)
    (hrun : s.Running id n 0x0101 o i) : t.strikeAttend id m = t := by
  obtain ⟨hfind, hop, -, -⟩ := hrun
  obtain ⟨o', hfind', hdesc⟩ := h.findOp hfind
  exact State.strikeAttend_of_opcode m hfind' (by simp [hdesc, hop]) (by simp [hdesc, hop])

/-- The fault code of a cause (03 R91). -/
def sweepFaultCode : SweepFault → Nat
  | .arrayErr => Code.arrayErr
  | .meshErr => Code.meshErr

theorem State.faultSweep_eq (s : State) (id n : Nat) (cause : SweepFault) :
    s.faultSweep id n cause = s.work1 id n 0x0101 (fun _ => true) fun o =>
      sweepPoison (s.envOf o) o.acc o (sweepJob o n) (sweepFaultCode cause) 0 none := by
  cases cause <;> rfl

/-- An array or mesh error of a running instance: its containment makes its writes, one SWEEP_FAULT is counted, the course loses
its tile and becomes FAULTED, and the instance ends with the cause's code. -/
theorem State.faultSweep_ok {s : State} {id n : Nat} {cause : SweepFault} {o : Op} {i : Inst} {w : Work} {d : Data}
    (h : s.Running id n 0x0101 o i) (ha : o.ahead = none)
    (hw : s.run (M.withWrites (s.envOf o) (sweepPoison (s.envOf o) o.acc o (sweepJob o n) (sweepFaultCode cause) 0 none))
      = some (.ok w, d)) :
    s.faultSweep id n cause = ((({ s with dp := d }).bump (Evt.fab (swBass o.desc) Evt.sweepFault) 1).setFabric (swBass o.desc)
      { (s.fabric (swBass o.desc)).apply id (instCourse o.desc n) none with
        faulted := (s.fabric (swBass o.desc)).faulted ||| BitVec.ofNat 16 (2 ^ instCourse o.desc n) }).finish id n
          (sweepFaultCode cause) 0 := by
  obtain ⟨io, hpoison⟩ := State.run_withWrites hw
  obtain ⟨hfault, hva, heff⟩ := sweepPoison_answers _ _ _ hpoison
  rw [State.faultSweep_eq, State.work1_running _ h ha rfl, State.workNow_ok hw, hfault, hva, heff,
    show { sweepFaultEffects (sweepJob o n) none with recs := [] } = sweepFaultEffects (sweepJob o n) none from rfl,
    State.applyEffects_sweepFault, h.id_eq]
  rfl

/-- An array or mesh error stays with its instance and its course. -/
theorem instanceFaultIsContained : Claim.InstanceFaultIsContained := by
  intro s id n cause o i w d ha h hw
  replace hw : s.run (M.withWrites (s.envOf o)
      (sweepPoison (s.envOf o) o.acc o (sweepJob o n) (sweepFaultCode cause) 0 none)) = some (.ok w, d) := by
    cases cause <;> exact hw
  have ht := State.faultSweep_ok h ha hw
  have hended : s.Ended (s.faultSweep id n cause) id n (sweepFaultCode cause) 0 := by
    rw [ht]
    exact State.finish_ended_of (by simp) (by simp) _ _ _ _
  refine ⟨s.faultSweep id n cause, ?_, ?_, ?_, ?_, ?_, ?_, ?_⟩
  · rw [exec_sweepInstanceFault, hended.strikeAttend_of_sweep h]
  · cases cause <;> exact hended
  · intro c hc
    rw [ht, State.finish_fabric, State.fabric_setFabric_same]
    exact getLsbD_or_course _ _ hc
  · rw [ht, State.finish_fabric, State.fabric_setFabric_not]
    exact State.bump_fabric _ _ _ _
  · rw [ht, State.finish_count, State.setFabric_count, State.count_bump, if_pos rfl]
    rfl
  · rw [ht]
    exact State.setFabric_cnt _ _ _
  · rw [ht]
    exact State.setFabric_que _ _ _

/-! ### RELEASE -/

/-- A fabric after operation `id` invalidated the tiles of some courses. -/
def Fabric.dropTiles (f : Fabric) (id : Nat) (cs : List Nat) : Fabric := cs.foldl (fun f c => f.apply id c none) f

@[simp] theorem Fabric.dropTiles_faulted (f : Fabric) (id : Nat) (cs : List Nat) : (f.dropTiles id cs).faulted = f.faulted := by
  induction cs generalizing f with
  | nil => rfl
  | cons c cs ih => exact (ih (f.apply id c none)).trans (Fabric.apply_faulted f id c none)

/-- An operation becomes no course's loader above its own number. -/
theorem Fabric.apply_loader_le {f : Fabric} {id c : Nat} (a : Nat) (t : Option Tile) (h : tget 0 f.loaders c ≤ id) :
    tget 0 (f.apply id a t).loaders c ≤ id := by
  unfold Fabric.apply
  split
  · exact h
  · show tget 0 (tput f.loaders a id) c ≤ id
    rw [tget_tput]
    split
    · exact Nat.le_refl _
    · exact h

/-- A course that no later operation loaded loses its tile. -/
theorem Fabric.apply_none_drops {f : Fabric} {id c : Nat} (h : tget 0 f.loaders c ≤ id) :
    ∀ x ∈ (f.apply id c none).tiles, x.1 ≠ c := by
  intro x hx
  simp only [Fabric.apply, Nat.not_lt.mpr h, if_false, tdel, List.mem_filter, decide_eq_true_eq] at hx
  exact hx.2

/-- Dropping tiles adds none. -/
theorem Fabric.tiles_of_apply_none {f : Fabric} {id c : Nat} {x : Nat × Tile} (hx : x ∈ (f.apply id c none).tiles) :
    x ∈ f.tiles := by
  unfold Fabric.apply at hx
  split at hx
  · exact hx
  · exact (List.mem_filter.mp hx).1

theorem Fabric.tiles_of_dropTiles {id : Nat} {x : Nat × Tile} (cs : List Nat) {f : Fabric} (hx : x ∈ (f.dropTiles id cs).tiles) :
    x ∈ f.tiles := by
  induction cs generalizing f with
  | nil => exact hx
  | cons c cs ih => exact Fabric.tiles_of_apply_none (ih hx)

/-- Each course of the list that no later operation loaded loses its tile. -/
theorem Fabric.dropTiles_drops {id c : Nat} {cs : List Nat} {f : Fabric} (hc : c ∈ cs) (h : tget 0 f.loaders c ≤ id) :
    ∀ x ∈ (f.dropTiles id cs).tiles, x.1 ≠ c := by
  induction cs generalizing f with
  | nil => cases hc
  | cons a cs ih =>
    rcases List.mem_cons.mp hc with rfl | hcs
    · exact fun x hx => Fabric.apply_none_drops h x (Fabric.tiles_of_dropTiles cs hx)
    · exact ih hcs (Fabric.apply_loader_le a none h)

/-- Tile effects that empty some courses of one fabric change that fabric. -/
theorem State.foldl_dropTiles (id : Nat) (b : Bool) (cs : List Nat) (s : State) :
    (cs.map fun c => (b2n b, c, (none : Option Tile))).foldl
      (fun s x => s.setFabric (x.1 = 1) ((s.fabric (x.1 = 1)).apply id x.2.1 x.2.2)) s
      = s.setFabric b ((s.fabric b).dropTiles id cs) := by
  induction cs generalizing s with
  | nil => exact (State.setFabric_fabric s b).symm
  | cons c cs ih =>
    rw [List.map_cons, List.foldl_cons, ih]
    simp [Fabric.dropTiles]

/-- A RELEASE of a running operation empties the courses that it targets and ends. -/
theorem State.exec_release_running {s : State} {id : Nat} {o : Op} {i : Inst} (h : s.Running id 0 0x0102 o i)
    (ha : o.ahead = none) : exec (.release id) s = .next ((s.setFabric (swBass o.desc) ((s.fabric (swBass o.desc)).dropTiles id
      (coursesOf o.desc (s.fabric (swBass o.desc)).courses.toNat))).finish id 0 0 0) := by
  have hw : s.run (M.withWrites (s.envOf o) (releaseWork s o)) = some (.ok _, s.dp) := rfl
  rw [exec_release, State.work1_running _ h ha rfl, State.workNow_ok hw, h.id_eq]
  simp only [State.applyEffects, State.applyCourse, Effects.none, List.foldl_nil, h.id_eq]
  rw [State.foldl_dropTiles]
  rfl

/-- RELEASE drops the tiles of its courses and changes nothing else. -/
theorem releaseDropsTiles : Claim.ReleaseDropsTiles := by
  intro s id o i h ha
  refine ⟨_, State.exec_release_running h ha, ?_⟩
  generalize hf : (s.fabric (swBass o.desc)).dropTiles id _ = f
  refine ⟨State.finish_ended_of (by simp) (by simp) _ _ _ _, State.setFabric_dp _ _ _, ?_, by simp, by simp [← hf], ?_⟩
  · cases swBass o.desc <;> rfl
  · intro c hc hle
    simpa [← hf] using Fabric.dropTiles_drops hc hle

/-- Settles O18: ordinary work by the frame of its effects, an instance's fault by the answer of its containment, RELEASE by
induction on its courses. -/
theorem fabricWork : Obligations.FabricWork :=
  ⟨ordinaryWorkCompletes, instanceFaultIsContained, releaseDropsTiles⟩

end Sys2Proof.Machine
end

