-- ==== Sys2Proof/Proofs/TunerCommands.lean ====
section
/-!
PROOFS. The tuner's switch, RUNAHEAD_CFG_n and SAMPLE: what a write of a cluster's configuration leaves in its entry, and what a
SAMPLE adds to the counters of its slot.
-/

namespace Sys2Proof.Machine

/-! ### The commands -/

theorem exec_tunerEnable (s : State) : exec .tunerEnable s = .next { s with tun := { s.tun with
    enable := true, pending := !s.tun.enable && s.sampling || s.tun.pending } } := rfl

theorem exec_tunerDisable (s : State) :
    exec .tunerDisable s = .next { s with tun := { s.tun with enable := false, pending := false } } := rfl

/-- A cluster's configuration with the two values that RUNAHEAD_CFG_WRITE writes. -/
def RaCfg.written (c : RaCfg) (v : Reg) : RaCfg := { c with offset := v.setWidth 15, lines := (v >>> 16).setWidth 15 }

/-- The data plane after RUNAHEAD_CFG_WRITE on cluster n. -/
def Data.configureRa (d : Data) (n : Nat) (v : Reg) : Data :=
  { d with raCfg := tupd .reset d.raCfg n (·.written v) }.settleCfg

theorem exec_runaheadCfgWrite (n : Nat) (v : Reg) (s : State) :
    exec (.runaheadCfgWrite n v) s = guarded (n < 800) { s with dp := s.dp.configureRa n v } := rfl

/-- The module after a SAMPLE's counts were added to the counters of slot x. -/
def State.addSampled (s : State) (x : Nat) (r : Sampled) : State :=
  (((s.bump (Evt.tuner x 0) r.tiles).bump (Evt.tuner x 1) r.elems).bump (Evt.tuner x 2) r.disagree).bump (Evt.tuner x 3) r.nan

/-- A running SAMPLE that was dispatched while sampling was off skips its work. -/
theorem State.exec_sample_skipped {s : State} {id : Nat} {o : Op} {i : Inst} (h : s.Running id 0 0x0A01 o i)
    (hlive : o.num Lab.live = 0) : exec (.sample id) s = .next ((s.bump Evt.sampleSkipped 1).finish id 0 0 0) := by
  show execSample id s = _
  simp only [execSample, h.work, if_pos hlive]

/-- One that samples and whose work runs through adds its counts and ends. -/
theorem State.exec_sample_ok {s : State} {id : Nat} {o : Op} {i : Inst} {r : Sampled} {d : Data}
    (h : s.Running id 0 0x0A01 o i) (hlive : o.num Lab.live ≠ 0)
    (hw : s.run (sampleWork (s.envOf o) o.acc o) = some (.ok r, d)) : exec (.sample id) s
      = .next ((({ s with dp := d } : State).addSampled (bits (field o.desc 59 1) 3 0) r).finish id 0 0 0) := by
  show execSample id s = _
  simp only [execSample, h.work, if_neg hlive, State.perform_ok hw]
  rfl

/-! ### The switch -/

/-- An enable keeps a PENDING that stands and sets it while a SAMPLE of the last enabling runs; a disable clears it. -/
theorem tunerSwitch : Claim.TunerSwitch := by
  intro s
  refine ⟨?_, exec_tunerDisable s⟩
  rw [exec_tunerEnable, Bool.or_comm]

/-! ### RUNAHEAD_CFG_n -/

/-- A change of a table's values that keeps its keys commutes with setting an entry. -/
theorem map_tput {α β : Type} (f : Nat × α → β) (t : Tab α) (n : Nat) (x : α) :
    (tput t n x).map (fun e => (e.1, f e)) = tput (t.map fun e => (e.1, f e)) n (f (n, x)) := by
  induction t with
  | nil => rfl
  | cons e t ih =>
    simp only [tput, List.map_cons]
    split
    · rfl
    · split
      · rfl
      · rw [List.map_cons, ih]

/-- What settling makes of a cluster's configuration, by the lines of its log in use (04 R141). -/
def RaCfg.settled (c : RaCfg) (used : Nat) : RaCfg :=
  let c := { c with used := BitVec.ofNat 16 used }
  if used = 0 then { c with effOffset := c.offset, effLines := c.lines } else c

theorem RaCfg.settled_zero (c : RaCfg) :
    c.settled 0 = { c with used := 0, effOffset := c.offset, effLines := c.lines } := rfl

theorem RaCfg.settled_of_ne {used : Nat} (c : RaCfg) (h : used ≠ 0) :
    c.settled used = { c with used := BitVec.ofNat 16 used } := if_neg h

@[simp] theorem RaCfg.settled_offset (c : RaCfg) (used : Nat) : (c.settled used).offset = c.offset := by
  unfold RaCfg.settled
  split <;> rfl

@[simp] theorem RaCfg.settled_lines (c : RaCfg) (used : Nat) : (c.settled used).lines = c.lines := by
  unfold RaCfg.settled
  split <;> rfl

theorem Data.settleCfg_raCfg (d : Data) :
    d.settleCfg.raCfg = d.raCfg.map fun kv => (kv.1, kv.2.settled (d.logUsed kv.1)) := rfl

/-- A write of a cluster's configuration leaves the written values in its entry, settled by the cluster's own log. -/
theorem Data.ra_configureRa (d : Data) (n : Nat) (v : Reg) :
    (d.configureRa n v).ra n = ((d.ra n).written v).settled (d.logUsed n) := by
  rw [Data.ra, Data.configureRa, Data.settleCfg_raCfg]
  simp only [tupd]
  rw [map_tput, tget_tput_same]
  rfl

/-- RUNAHEAD_CFG_n reads as written at once, and is in effect as soon as no log is in use. -/
theorem runAheadConfiguration : Claim.RunAheadConfiguration := by
  intro s n v hn
  have hra := Data.ra_configureRa s.dp n v
  refine ⟨{ s with dp := s.dp.configureRa n v }, ?_, ?_, ?_, ?_, ?_, rfl, rfl⟩
  · rw [exec_runaheadCfgWrite, guarded_of hn]
  · rw [hra, RaCfg.settled_offset]
    rfl
  · rw [hra, RaCfg.settled_lines]
    rfl
  · intro hfree
    rw [hra, hfree, RaCfg.settled_zero]
    exact ⟨rfl, rfl⟩
  · intro hused
    rw [hra, RaCfg.settled_of_ne _ hused]
    exact ⟨rfl, rfl⟩

/-! ### SAMPLE -/

/-- Each of the slot's four counters grows by its own count. -/
theorem State.count_addSampled (s : State) (x : Nat) (r : Sampled) :
    (s.addSampled x r).count (Evt.tuner x 0) = s.count (Evt.tuner x 0) + BitVec.ofNat 48 r.tiles
      ∧ (s.addSampled x r).count (Evt.tuner x 1) = s.count (Evt.tuner x 1) + BitVec.ofNat 48 r.elems
      ∧ (s.addSampled x r).count (Evt.tuner x 2) = s.count (Evt.tuner x 2) + BitVec.ofNat 48 r.disagree
      ∧ (s.addSampled x r).count (Evt.tuner x 3) = s.count (Evt.tuner x 3) + BitVec.ofNat 48 r.nan := by
  simp [State.addSampled, State.count_bump]

/-- Adding a SAMPLE's counts changes no memory. -/
@[simp] theorem State.addSampled_cells (s : State) (x : Nat) (r : Sampled) : (s.addSampled x r).dp.cells = s.dp.cells := by
  simp [State.addSampled, State.bump]

/-- A SAMPLE counts in SAMPLE_SKIPPED, or adds its comparisons to its slot's counters. -/
theorem samplesCount : Claim.SamplesCount := by
  intro s id o i h
  refine ⟨fun hlive => ?_, fun r d hlive hw => ?_⟩
  · exact ⟨_, State.exec_sample_skipped h hlive, State.finish_ended_of rfl rfl _ _ _ _, State.finish_eq _ _ _ _ _⟩
  · refine ⟨_, State.exec_sample_ok h hlive hw, State.finish_ended_of rfl rfl _ _ _ _, State.addSampled_cells _ _ _, rfl, ?_⟩
    exact State.count_addSampled { s with dp := d } _ r

/-- Settles O19: the switch by its two equations, RUNAHEAD_CFG_n by the entry that a write settles, SAMPLE by its slot's four
counters. -/
theorem tunerCommands : Obligations.TunerCommands :=
  ⟨tunerSwitch, runAheadConfiguration, samplesCount⟩

end Sys2Proof.Machine
end

