-- ==== Sys2Proof/Proofs/RandomNumbers.lean ====
section
/-!
PROOFS. Random numbers (chapter 05): what seeding leaves in each string's free counter, the entropy source's health and those that
wait for it, and the work of class 0x07.
-/

namespace Sys2Proof.Machine

/-! ### The commands -/

/-- STRING_RESEED of a string that the module has. -/
theorem exec_stringReseed {pc l : Nat} (hpc : pc < 832) (hl : l < 128) (s : State) : exec (.stringReseed pc l) s = .next
    (if s.rng.entOk && s.stringsRun (physDom pc) && s.rng.runsOut pc l then s.reseedStrings [(pc, l)] else s) := by
  show execStringReseed pc l s = _
  simp [execStringReseed, guarded, hpc, hl]

/-- A running RESEED with the entropy source healthy reseeds, counts it and ends. -/
theorem exec_reseed_running {s : State} {id : Nat} {o : Op} {i : Inst} (h : s.Running id 0 0x0704 o i)
    (hent : s.rng.entOk = true) : exec (.reseed id) s
      = .next ((({ s with rng := s.rng.reseed } : State).bump Evt.freeReseed 1).finish id 0 0 0) := by
  show execReseed id s = _
  simp only [execReseed, h.work, if_pos hent]

/-- A running FILL whose work runs through ends with what the work leaves. -/
theorem exec_fill_ok {s : State} {id : Nat} {o : Op} {i : Inst} {u : Unit} {d : Data} (h : s.Running id 0 0x0701 o i)
    (hw : s.run (do
      let ws ← putLines (s.envOf o) o.acc (addrField o.desc 16) (fillLines s o) false
      writeAll (s.envOf o) ws) = some (.ok u, d)) :
    exec (.fill id) s = .next (({ s with dp := d } : State).finish id 0 0 0) := by
  show execFill id s = _
  simp only [execFill, h.work, hw]

/-- So does a running SAVE. -/
theorem exec_save_ok {s : State} {id : Nat} {o : Op} {i : Inst} {u : Unit} {d : Data} (h : s.Running id 0 0x0702 o i)
    (hw : s.run (do
      let ws ← putBytes (s.envOf o) o.acc (addrField o.desc 16) s.freeImage
      writeAll (s.envOf o) ws) = some (.ok u, d)) :
    exec (.save id) s = .next (({ s with dp := d } : State).finish id 0 0 0) := by
  show execSave id s = _
  simp only [execSave, h.work]
  exact congrArg Host.Outcome.next (State.perform_ok hw _ _ _)

/-- A running RESTORE that has read its image, and has the seeds that the image asks for, restores it and ends. -/
theorem exec_restore_ok {s : State} {id : Nat} {o : Op} {i : Inst} {bytes : List Byte} {d : Data}
    (h : s.Running id 0 0x0703 o i)
    (hw : s.run (openRead (s.envOf o) o.acc (addrField o.desc 16 + 64) (imageLines - 1)) = some (.ok bytes, d))
    (hseeds : s.restoreNeeds (o.record Lab.image ++ bytes) = false ∨ s.rng.entOk = true) : exec (.restore id) s
      = .next ((({ s with dp := d } : State).restoreImage (o.record Lab.image ++ bytes)).finish id 0 0 0) := by
  have hgo : (s.restoreNeeds (o.record Lab.image ++ bytes) && !s.rng.entOk) = false := by
    rcases hseeds with h | h <;> simp [h]
  show execRestore id s = _
  simp only [execRestore, h.work, hw, hgo, Bool.false_eq_true, if_false]

/-! ### Counting -/

/-- Counting events changes the event counters alone. -/
theorem State.bump_eq (s : State) (off n : Nat) : s.bump off n = { s with dp := { s.dp with evts := (s.bump off n).dp.evts } } :=
  congrArg (fun d => { s with dp := d }) (Data.bump_eq s.dp off n)

/-- A log record counts no event. -/
@[simp] theorem State.logEvent_count (s : State) (code src d0 d1 k : Nat) : (s.logEvent code src d0 d1).count k = s.count k := by
  simp only [State.count, State.logEvent, Data.logEvent]
  split <;> rfl

/-! ### The free counters of the strings -/

@[simp] theorem counterAfter_zero (c : Reg) : counterAfter c 0 = c := by
  have hc : min c.toNat (2 ^ 64 - 1) = c.toNat := by omega
  simp only [counterAfter, Nat.add_zero, hc, BitVec.ofNat_toNat, BitVec.setWidth_eq]

/-- The strings of every physical cluster belong to a cluster domain. -/
theorem physDom_mem_clusterDoms {pc : Nat} (h : pc < 832) : physDom pc ∈ clusterDoms := by
  have hkind : physKind (pc % 208) ≤ 2 := by
    unfold physKind
    split
    · omega
    · split <;> omega
  simp only [clusterDoms, physDom, List.mem_cons, List.not_mem_nil, or_false]
  omega

/-- A table that gives one value to each of some rising keys. -/
theorem tget_map_const {α : Type} (d v : α) {ks : List Nat} (hks : ks.Pairwise (· < ·)) {n : Nat} (hn : n ∈ ks) :
    tget d (ks.map fun k => (k, v)) n = v := by
  induction ks with
  | nil => cases hn
  | cons k ks ih =>
    obtain ⟨hlt, hks⟩ := List.pairwise_cons.mp hks
    simp only [List.map_cons, tget]
    rcases List.mem_cons.mp hn with rfl | hmem
    · exact if_pos rfl
    · have hkn := hlt n hmem
      rw [if_neg (by omega), if_neg (by omega), ih hks hmem]

/-- After a seeding of all strings each counter is what its counter key gives it (05 R149). -/
theorem Rng.counter_seedAll (r : Rng) (kc : BitVec 128) {pc : Nat} (l : Nat) (h : pc < 832) :
    (r.seedAll kc).counter pc l = seededCounter kc pc l := by
  have hdom : tget ⟨0, 0⟩ (clusterDoms.map fun x => (x, (⟨kc, 0⟩ : StrDom))) (physDom pc) = ⟨kc, 0⟩ :=
    tget_map_const _ _ (by decide) (physDom_mem_clusterDoms h)
  simp only [Rng.counter, Rng.seedAll, List.find?_nil, hdom, Nat.zero_div, counterAfter_zero]

/-- A reseed draws the root key first and seeds all strings from the second seed. -/
theorem Rng.counter_reseed (r : Rng) {pc : Nat} (l : Nat) (h : pc < 832) :
    r.reseed.counter pc l = seededCounter (Config.seed (r.drawn + 1)) pc l :=
  Rng.counter_seedAll { r with drawn := r.drawn + 2 } _ l h

/-- A string's counter reads as it was set. -/
theorem Rng.counter_setString_same (r : Rng) (pc l : Nat) (c : Reg) : (r.setString pc l c).counter pc l = c := by
  simp only [Rng.counter, Rng.setString, find_tput, if_pos, Nat.sub_self, Nat.zero_div, counterAfter_zero]

/-- Every other string's counter reads as before. -/
theorem Rng.counter_setString_other (r : Rng) {pc l pc' l' : Nat} (c : Reg) (h : 128 * pc' + l' ≠ 128 * pc + l) :
    (r.setString pc l c).counter pc' l' = r.counter pc' l' := by
  simp only [Rng.counter, Rng.setString, find_tput, if_neg h]

/-- Strings of different places have different keys. -/
theorem stringKey_ne {pc l pc' l' : Nat} (hl : l < 128) (hl' : l' < 128) (h : (pc', l') ≠ (pc, l)) :
    128 * pc' + l' ≠ 128 * pc + l := by
  intro he
  exact h (Prod.ext (show pc' = pc by omega) (show l' = l by omega))

/-! ### RESEED -/

/-- Settles O24, by what a reseed leaves in each string's counter. -/
theorem reseedSetsEveryString : Obligations.ReseedSetsEveryString := by
  intro s id o i h hent
  refine ⟨_, exec_reseed_running h hent, State.finish_ended_of rfl rfl _ _ _ _, rfl, ?_, rfl, rfl, ?_, ?_, ?_⟩
  · exact fun pc l hpc _ => Rng.counter_reseed s.rng l hpc
  · rw [State.finish_count, State.count_bump, if_pos rfl]
    rfl
  · intro k hk
    rw [State.finish_count, State.count_bump, if_neg hk]
    rfl
  · rw [State.bump_eq]
    rfl

/-! ### STRING_RESEED -/

/-- The strings of a domain in slack, or off, hold their counters. -/
theorem State.stringsRun_of_held {s : State} {x : Nat} (h : (s.domain x).st = .slack ∨ (s.domain x).st = .off) :
    s.stringsRun x = false := by
  rcases h with h | h <;> simp only [State.stringsRun, h]

/-- The reseed of one string draws one counter key and counts one STRING_RESEED. -/
theorem State.reseedStrings_single (s : State) (pc l : Nat) : s.reseedStrings [(pc, l)]
    = ({ s with rng := s.rng.draw.2.setString pc l (seededCounter (Config.seed s.rng.drawn) pc l) } : State).bump
        Evt.stringReseed 1 := rfl

/-- A string whose counter runs out is reseeded, and no other. -/
theorem stringReseedSetsOneString : Claim.StringReseedSetsOneString := by
  intro s pc l hpc hl
  rw [exec_stringReseed hpc hl]
  refine ⟨fun hholds => ?_, fun hent hon hout => ?_⟩
  · have hno : (s.rng.entOk && s.stringsRun (physDom pc) && s.rng.runsOut pc l) = false := by
      rcases hholds with h | h | h | h
      · simp [h]
      · simp [State.stringsRun_of_held (.inl h)]
      · simp [State.stringsRun_of_held (.inr h)]
      · simp [h]
    rw [hno, if_neg Bool.false_ne_true]
  · have hrun : s.stringsRun (physDom pc) = true := by simp only [State.stringsRun, hon]
    rw [hent, hrun, hout, if_pos (by rfl), State.reseedStrings_single]
    refine ⟨_, rfl, Rng.counter_setString_same _ _ _ _, ?_, rfl, rfl, ?_, Data.bump_cells _ _ _, State.bump_eq _ _ _⟩
    · exact fun pc' l' hl' hne => Rng.counter_setString_other s.rng.draw.2 _ (stringKey_ne hl hl' hne)
    · rw [State.count_bump, if_pos rfl]
      rfl

/-! ### The health of the entropy source -/

/-- Logs a health test that failed (05 R151). -/
def State.logTest (s : State) (failed : Bool) (test : Nat) : State :=
  if failed then s.logEvent Log.entropyHealth 0 test 0 else s

@[simp] theorem State.logTest_count (s : State) (failed : Bool) (test k : Nat) : (s.logTest failed test).count k = s.count k := by
  cases failed
  · rfl
  · exact State.logEvent_count _ _ _ _ _ _

@[simp] theorem State.logTest_cells (s : State) (failed : Bool) (test : Nat) : (s.logTest failed test).dp.cells = s.dp.cells := by
  cases failed
  · rfl
  · exact Data.logEvent_cells _ _ _ _ _ _

/-- Logging a test changes the data plane alone. -/
theorem State.logTest_eq (s : State) (failed : Bool) (test : Nat) :
    s.logTest failed test = { s with dp := (s.logTest failed test).dp } := by
  cases failed <;> rfl

/-- A failure of one test or both clears ENT_OK, counts the failed tests and logs each. -/
theorem exec_entropyHealthFail {rep adp : Bool} (h : (rep || adp) = true) (s : State) :
    exec (.entropyHealthFail rep adp) s = .next (((({ s with rng := { s.rng with entOk := false } } : State).bump Evt.healthFail
      (rep.toNat + adp.toNat)).logTest rep 0).logTest adp 1) := by
  cases rep
  · cases adp
    · cases h
    · rfl
  · cases adp <;> rfl

/-- The random block once the entropy source delivers: the seeding of boot, if it waits, takes place (05 R149). -/
def Rng.delivered (r : Rng) : Rng :=
  if r.seedWait then { ({ r with entOk := true } : Rng).reseed with seedWait := false } else { r with entOk := true }

theorem Rng.delivered_unawaited {r : Rng} (h : r.seedWait = false) : r.delivered = { r with entOk := true } := by
  simp [Rng.delivered, h]

theorem Rng.delivered_awaited {r : Rng} (h : r.seedWait = true) :
    r.delivered = { ({ r with entOk := true } : Rng).reseed with seedWait := false } := by
  simp [Rng.delivered, h]

/-- ENTROPY_READY with no domain and no SPDM request that waits. -/
theorem exec_entropyReady_quiet {s : State} (hent : s.rng.entOk = false) (hdom : s.rng.domWait = [])
    (hspdm : s.pci.spdmWait = none) : exec .entropyReady s = .next { s with rng := s.rng.delivered } := by
  show execEntropyReady s = _
  cases hseed : s.rng.seedWait
  · simp [execEntropyReady, hent, hdom, hspdm, hseed, Rng.delivered_unawaited hseed]
  · simp [execEntropyReady, hent, hdom, hspdm, hseed, Rng.delivered_awaited hseed, Rng.reseed, Rng.draw, Rng.seedAll]

/-- One that ends the wait of an SPDM request. -/
theorem exec_entropyReady_spdm {s : State} {o : List Byte} (hent : s.rng.entOk = false) (hdom : s.rng.domWait = [])
    (hseed : s.rng.seedWait = false) (hspdm : s.pci.spdmWait = some o) : exec .entropyReady s = .next
      (({ s with rng := { s.rng with entOk := true }, pci := { s.pci with spdmWait := none } } : State).answerSpdm o) := by
  show execEntropyReady s = _
  simp [execEntropyReady, hent, hdom, hspdm, hseed]

/-- A health failure, the source's recovery, and the ends of the waits of boot and of an SPDM request. -/
theorem entropyHealth : Claim.EntropyHealth := by
  intro s rep adp
  refine ⟨fun hfail => ?_, fun hent hdom => ?_, fun hent hseed => ?_, fun o hent hspdm => ?_⟩
  · refine ⟨_, exec_entropyHealthFail hfail s, ?_, ?_, ?_, ?_⟩
    · rw [State.logTest_eq, State.logTest_eq]
      rfl
    · rw [State.logTest_count, State.logTest_count, State.count_bump, if_pos rfl]
      rfl
    · rw [State.logTest_cells, State.logTest_cells]
      exact Data.bump_cells _ _ _
    · rw [State.logTest_eq, State.logTest_eq]
      rfl
  · refine ⟨fun hseed hspdm => ?_, fun o hseed hspdm => exec_entropyReady_spdm hent hdom hseed hspdm, fun hseed hspdm => ?_⟩
    · rw [exec_entropyReady_quiet hent hdom hspdm, Rng.delivered_unawaited hseed]
    · rw [exec_entropyReady_quiet hent hdom hspdm, Rng.delivered_awaited hseed]
      exact ⟨_, rfl, rfl, rfl, rfl, rfl, rfl⟩
  · show execNoEntropyTimeout .boot s = _
    simp [execNoEntropyTimeout, hent, hseed]
  · show execNoEntropyTimeout .spdm s = _
    simp [execNoEntropyTimeout, hent, hspdm]

/-- Settles O25: the reseed of one string by its key in the table of strings, the source's health by one equation a command. -/
theorem entropy : Obligations.Entropy := ⟨stringReseedSetsOneString, entropyHealth⟩

/-! ### The bytes of a packed line -/

/-- The bytes of a number are its shifts. -/
theorem natLE_eq_map (n x : Nat) : natLE n x = (List.range n).map fun i => BitVec.ofNat 8 (x >>> (8 * i)) := by
  induction n generalizing x with
  | zero => rfl
  | succ n ih =>
    have hshift (i : Nat) : (x / 256) >>> (8 * i) = x >>> (8 * (i + 1)) := by
      rw [show x / 256 = x >>> 8 from (Nat.shiftRight_eq_div_pow x 8).symm, ← Nat.shiftRight_add]
      congr 1
      omega
    rw [natLE, ih, List.range_succ_eq_map]
    simp [hshift, Function.comp_def]

/-- Some bytes of a list that is given byte by byte. -/
theorem slice_map_range (f : Nat → Byte) {n off len : Nat} (h : off + len ≤ n) :
    slice ((List.range n).map f) off len = (List.range len).map fun i => f (off + i) := by
  have htake : (((List.range n).map f).drop off).take len = (List.range len).map fun i => f (off + i) := by
    apply List.ext_getElem
    · simp only [List.length_take, List.length_drop, List.length_map, List.length_range]
      omega
    · intro i h1 h2
      simp
  simp [slice, htake]

/-- A word of a packed binary32 line is the low 32 bits of its element. -/
theorem field_pack_f32 (codes : List Nat) {k : Nat} (h : k < 16) :
    field (Fmt.f32.pack codes) (4 * k) 4 = codes.getD k 0 % 2 ^ 32 := by
  have hslice : slice (Fmt.f32.pack codes) (4 * k) 4 = natLE 4 (codes.getD k 0) := by
    rw [Fmt.pack, slice_map_range _ (by omega), natLE_eq_map]
    refine List.map_congr_left fun i hi => ?_
    have hi : i < 4 := List.mem_range.mp hi
    rw [show (4 * k + i) / 4 = k by omega, show (4 * k + i) % 4 = i by omega]
  exact (congrArg leNat hslice).trans (leNat_natLE 4 _)

/-! ### FILL -/

/-- Word i of a FILL in keyed mode (05 R145). -/
theorem fillWord_keyed (s : State) {o : Op} (h : bit (field o.desc 58 1) 1 = false) (i : Nat) :
    fillWord s o i = keyedWord (BitVec.ofNat 128 (field o.desc 24 16)) (BitVec.ofNat 32 (field o.desc 40 4))
      (BitVec.ofNat 64 (field o.desc 44 8 + i)) := by
  simp [fillWord, fillFree, h]

/-- Position i of the lines of a FILL without the float option: its word, or zero past the count (05 R158). -/
def fillUniform (s : State) (o : Op) (i : Nat) : Nat := if i < field o.desc 52 6 then (fillWord s o i).toNat else 0

/-- Such a FILL's lines. -/
theorem fillLines_uniform (s : State) {o : Op} (h : bit (field o.desc 58 1) 0 = false) : fillLines s o
    = (List.range (ceilDiv (field o.desc 52 6) 16)).map fun l =>
      ⟨Fmt.f32.pack ((List.range 16).map fun k => fillUniform s o (16 * l + k)),
        List.replicate 5 0 ++ sideId (field o.desc 59 1) (field o.desc 60 2)⟩ := by
  simp only [fillLines, fillUniform, h, Bool.false_eq_true, if_false, ← Nat.not_lt, ite_not]

theorem fillUniform_lt (s : State) (o : Op) (i : Nat) : fillUniform s o i < 2 ^ 32 := by
  unfold fillUniform
  split
  · exact (fillWord s o i).isLt
  · decide

/-- FILL's words lie sixteen a line, and its work that runs through ends it. -/
theorem fillWrites : Claim.FillWrites := by
  refine ⟨fun s o i hi hkeyed huniform => ?_, fun s id o i d h hw => ?_⟩
  · have hline : i / 16 < ceilDiv (field o.desc 52 6) 16 := by omega
    have hplace : 16 * (i / 16) + i % 16 = i := Nat.div_add_mod i 16
    have hpos : i % 16 < 16 := Nat.mod_lt _ (by decide)
    rw [fillLines_uniform s huniform, List.getElem?_map, List.getElem?_range hline]
    refine ⟨_, rfl, rfl, ?_⟩
    rw [field_pack_f32 _ hpos, List.getD_eq_getElem?_getD, List.getElem?_map, List.getElem?_range hpos, Option.map_some,
      Option.getD_some, hplace, Nat.mod_eq_of_lt (fillUniform_lt s o i), fillUniform, fillWord_keyed s hkeyed]
  · exact ⟨_, exec_fill_ok h hw, State.finish_ended_of rfl rfl _ _ _ _, rfl, rfl⟩

/-! ### SAVE and RESTORE -/

@[simp] theorem State.reseedStrings_nil (s : State) : s.reseedStrings [] = s := rfl

/-- Which strings an image leaves unsaved does not depend on the random block. -/
@[simp] theorem State.unsaved_rng (s : State) (r : Rng) (img : List Byte) :
    ({ s with rng := r } : State).unsaved img = s.unsaved img := rfl

/-- An image that agrees, and that gives every enabled string a counter, needs no seeds. -/
theorem State.restoreNeeds_of_saved {s : State} {img : List Byte} (hpresent : field img 2 2 = s.present)
    (hsaved : s.unsaved img = []) : s.restoreNeeds img = false := by
  simp [State.restoreNeeds, hpresent, hsaved]

/-- Such an image is loaded: the random block alone changes, with the image's root key, and is seeded. -/
theorem State.restoreImage_saved {s : State} {img : List Byte} (hpresent : field img 2 2 = s.present)
    (hsaved : s.unsaved img = []) : ∃ strs, s.restoreImage img
      = { s with rng := { s.rng with root := BitVec.ofNat 128 (field img 16 16), strs := strs, seeded := true } } := by
  rw [show s.restoreImage img = s.loadImage img from if_pos hpresent]
  simp only [State.loadImage, State.unsaved_rng, hsaved, State.reseedStrings_nil]
  exact ⟨_, rfl⟩

/-- An image of another number of present clusters is not loaded: a reseed takes its place. -/
theorem State.restoreImage_reseeds {s : State} {img : List Byte} (h : field img 2 2 ≠ s.present) : s.restoreImage img
    = ({ s with rng := { s.rng.reseed with reseeded := true } } : State).bump Evt.freeReseed 1 := if_neg h

/-- SAVE's work that runs through ends it; RESTORE loads an image that agrees and reseeds for another. -/
theorem saveAndRestore : Claim.SaveAndRestore := by
  intro s id o i d
  refine ⟨fun h hw => ?_, fun bytes h hw => ⟨fun hpresent hsaved => ?_, fun hother hent => ?_⟩⟩
  · exact ⟨_, exec_save_ok h hw, State.finish_ended_of rfl rfl _ _ _ _, rfl, rfl⟩
  · have hexec := exec_restore_ok h hw (.inl (State.restoreNeeds_of_saved hpresent hsaved))
    obtain ⟨strs, hload⟩ := State.restoreImage_saved (s := { s with dp := d }) hpresent hsaved
    rw [hload] at hexec
    exact ⟨_, hexec, State.finish_ended_of rfl rfl _ _ _ _, rfl, rfl, rfl, rfl⟩
  · have hexec := exec_restore_ok h hw (.inr hent)
    rw [State.restoreImage_reseeds (s := { s with dp := d }) hother] at hexec
    refine ⟨_, hexec, State.finish_ended_of rfl rfl _ _ _ _, rfl, rfl, ?_, Data.bump_cells _ _ _, rfl⟩
    rw [State.finish_count, State.count_bump, if_pos rfl]
    rfl

/-- Settles O26: FILL by the words of a packed line, SAVE and RESTORE by what an image that agrees, and one that does not, leave. -/
theorem randomOperations : Obligations.RandomOperations := ⟨fillWrites, saveAndRestore⟩

end Sys2Proof.Machine
end

