-- ==== Sys2Proof/Proofs/Stow.lean ====
section
/-!
PROOFS. The stow (chapter 06): CLEAR, PUSH, POP and PEEK of a lane by what each leaves in the lane and in the counters, the frame that
a PUSH answers, GATE, and the lane registers.
-/

namespace Sys2Proof.Machine

/-! ### Lanes and counters -/

@[simp] theorem State.bump_lane (s : State) (off n l : Nat) : (s.bump off n).lane l = s.lane l := rfl

@[simp] theorem State.finish_lane (s : State) (id n fault va l : Nat) : (s.finish id n fault va).lane l = s.lane l := rfl

@[simp] theorem State.updLane_count (s : State) (l : Nat) (f : Lane → Lane) (k : Nat) : (s.updLane l f).count k = s.count k := rfl

@[simp] theorem State.lane_updLane_same (s : State) (l : Nat) (f : Lane → Lane) : (s.updLane l f).lane l = f (s.lane l) := by
  rw [State.lane_updLane, if_pos rfl]

theorem State.lane_updLane_other (s : State) {l k : Nat} (f : Lane → Lane) (h : k ≠ l) : (s.updLane l f).lane k = s.lane k := by
  rw [State.lane_updLane, if_neg h]

/-- Counting an event leaves every other counter. -/
theorem State.count_bump_other (s : State) {off k : Nat} (n : Nat) (h : k ≠ off) : (s.bump off n).count k = s.count k := by
  rw [State.count_bump, if_neg h]

/-- Counting a class's fault changes the event counters alone. -/
theorem State.countFault_eq (s : State) (d : List Byte) :
    s.countFault d = { s with dp := { s.dp with evts := (s.countFault d).dp.evts } } := by
  unfold State.countFault
  split
  · exact State.bump_eq _ _ _
  · rfl

@[simp] theorem State.countFault_cells (s : State) (d : List Byte) : (s.countFault d).dp.cells = s.dp.cells := by
  rw [State.countFault_eq]

@[simp] theorem State.countFault_ops (s : State) (d : List Byte) : (s.countFault d).ops = s.ops := by
  rw [State.countFault_eq]

@[simp] theorem State.countFault_tide (s : State) (d : List Byte) : (s.countFault d).tide = s.tide := by
  rw [State.countFault_eq]

@[simp] theorem State.countFault_stw (s : State) (d : List Byte) : (s.countFault d).stw = s.stw := by
  rw [State.countFault_eq]

/-! ### CLEAR -/

/-- A lane without its frames. -/
def Lane.cleared (x : Lane) : Lane := { x with depth := 0, dataTop := 0 }

/-- A running CLEAR counts the lane's frames, empties the lane and ends. -/
theorem exec_clear_running {s : State} {id l : Nat} {o : Op} {i : Inst} (h : s.Running id 0 0x0305 o i)
    (hl : laneOf o.desc = some l) : exec (.clear id) s = .next
      (((s.bump Evt.framesCleared (s.lane l).depth.toNat).updLane l Lane.cleared).finish id 0 0 0) := by
  show execClear id s = _
  simp only [execClear, h.work, hl, Option.getD_some]
  rfl

/-- After a module reset every lane is as at reset. -/
@[simp] theorem State.moduleReset_lane (s : State) (l : Nat) : s.moduleReset.lane l = Lane.reset := rfl

/-- After a module reset every event counter is zero. -/
@[simp] theorem State.moduleReset_count (s : State) (k : Nat) : s.moduleReset.count k = 0 := rfl

/-- Settles O21, by the one equation of a running CLEAR and the reset values of lanes and counters. -/
theorem clearEmptiesTheLane : Obligations.ClearEmptiesTheLane := by
  refine ⟨fun s id l o i h hl => ?_, fun s l => ⟨?_, s.moduleReset_count _⟩⟩
  · refine ⟨_, exec_clear_running h hl, State.finish_ended_of rfl rfl _ _ _ _, ?_⟩
    rw [State.finish_lane, State.lane_updLane_same, State.bump_lane]
    refine ⟨rfl, rfl, rfl, fun k hk => ?_, ?_, fun k hk => ?_, ?_⟩
    · exact State.lane_updLane_other (s.bump _ _) _ hk
    · rw [State.finish_count, State.updLane_count, State.count_bump, if_pos rfl]
    · exact State.count_bump_other s _ hk
    · rw [State.bump_eq]
      rfl
  · rw [State.moduleReset_lane]
    rfl

/-! ### PUSH -/

/-- The counts of a frame that was pushed: FRAMES_PUSHED, and what it adds when it was dropped (06 R165). -/
def State.countPush (s : State) (f : Frame) : State :=
  ((s.bump Evt.framesPushed 1).bump Evt.framesDropped (b2n f.dropped)).bump Evt.anchorDrop (b2n (f.dropped && bit f.flags 1))

/-- An event that may be counted. -/
theorem State.ite_bump (s : State) (off : Nat) (c : Bool) : (if c then s.bump off 1 else s) = s.bump off (b2n c) := by
  cases c <;> rfl

@[simp] theorem State.countPush_lane (s : State) (f : Frame) (l : Nat) : (s.countPush f).lane l = s.lane l := rfl

@[simp] theorem State.countPush_cells (s : State) (f : Frame) : (s.countPush f).dp.cells = s.dp.cells := by
  simp [State.countPush, State.bump]

/-- Each push counts once in FRAMES_PUSHED, dropped or not. -/
theorem State.countPush_framesPushed (s : State) (f : Frame) :
    (s.countPush f).count Evt.framesPushed = s.count Evt.framesPushed + 1 := by
  rw [State.countPush, State.count_bump_other _ _ (by decide), State.count_bump_other _ _ (by decide), State.count_bump, if_pos rfl]
  rfl

/-- A running PUSH on a lane with room, whose work meets no fault, pushes its frame, counts it and ends. -/
theorem exec_push_ok {s : State} {id l : Nat} {o : Op} {i : Inst} {p : Pushed} {d : Data} (h : s.Running id 0 0x0301 o i)
    (hl : laneOf o.desc = some l) (hroom : (s.lane l).depth ≠ (s.lane l).hdrCap) (hfault : p.fault = none)
    (hw : s.run (pushWork (s.envOf o) o.acc o.desc (s.lane l)) = some (.ok p, d)) : exec (.push id) s
      = .next (((({ s with dp := d } : State).updLane l (·.push p.frame)).countPush p.frame).finish id 0 0 0) := by
  show execPush id s = _
  simp only [execPush, h.work, hl, Option.getD_some, if_neg hroom, State.perform_ok hw, State.ite_bump, hfault]
  rfl

/-- A running PUSH on a lane whose header table is full ends with STOW_DEPTH. -/
theorem exec_push_full {s : State} {id l : Nat} {o : Op} {i : Inst} (h : s.Running id 0 0x0301 o i)
    (hl : laneOf o.desc = some l) (hfull : (s.lane l).depth = (s.lane l).hdrCap) :
    exec (.push id) s = .next ((s.countFault o.desc).finish id 0 Code.stowDepth 0) := by
  show execPush id s = _
  simp only [execPush, h.work, hl, Option.getD_some, if_pos hfull]

theorem Lane.push_dataTop (x : Lane) (f : Frame) :
    (x.push f).dataTop = x.dataTop + (if f.dropped then 0 else BitVec.ofNat 32 (f.payload + f.list)) := by
  unfold Lane.push
  cases f.dropped
  · rfl
  · exact (BitVec.add_zero _).symm

/-! ### POP and PEEK -/

/-- A stow operation's end changes the operations and the event counters alone. -/
theorem State.endStow_eq (s : State) (o : Op) (code : Nat) : s.endStow o code
    = { s with ops := (s.endStow o code).ops, dp := { s.dp with evts := (s.endStow o code).dp.evts } } := by
  unfold State.endStow
  split
  · rfl
  · rw [State.countFault_eq]
    rfl

/-- Its instance has ended with the code. -/
theorem State.endStow_ended {s t : State} (h : t.ops = s.ops) (ht : t.tide = s.tide) (o : Op) (code : Nat) :
    s.Ended (t.endStow o code) o.id 0 code 0 := by
  unfold State.endStow
  split
  · exact State.finish_ended_of h ht _ _ _ _
  · exact State.finish_ended_of ((t.countFault_ops _).trans h) ((t.countFault_tide _).trans ht) _ _ _ _

/-- A running POP that finds its frame retained takes it off, counts it and ends. -/
theorem exec_pop_retained {s : State} {id l : Nat} {o : Op} {i : Inst} {f : Frame} {d : Data} (h : s.Running id 0 0x0302 o i)
    (hl : laneOf o.desc = some l)
    (hw : s.run (popWork (s.envOf o) o.acc o.desc (s.lane l)) = some (.ok (some f, .retained), d)) : exec (.pop id) s
      = .next (((({ s with dp := d } : State).updLane l (·.pop f)).bump Evt.framesPopped 1).finish id 0 0 0) := by
  show execPop id s = _
  simp only [execPop, h.work, hl, Option.getD_some, State.perform_ok hw, State.endStow, if_true, h.id_eq]

/-- A running PEEK whose work runs through ends with its outcome's code. -/
theorem exec_peek_ok {s : State} {id l : Nat} {o : Op} {i : Inst} {out : PopOut} {d : Data} (h : s.Running id 0 0x0303 o i)
    (hl : laneOf o.desc = some l)
    (hw : s.run (peekWork (s.envOf o) o.acc o.desc (s.lane l)) = some (.ok out, d)) :
    exec (.peek id) s = .next (({ s with dp := d } : State).endStow o out.code) := by
  show execPeek id s = _
  simp only [execPeek, h.work, hl, Option.getD_some, State.perform_ok hw]

/-- PUSH adds a frame or is refused, POP takes one off, PEEK leaves the lane. -/
theorem stowDepthFollowsItsCounters : Claim.StowDepthFollowsItsCounters := by
  intro s id l o i d hl
  refine ⟨fun p h hroom hfault hw => ?_, fun h hfull => ?_, fun f h hw => ?_, fun out h hw => ?_⟩
  · refine ⟨_, exec_push_ok h hl hroom hfault hw, State.finish_ended_of rfl rfl _ _ _ _, ?_⟩
    rw [State.finish_lane, State.countPush_lane, State.lane_updLane_same]
    refine ⟨rfl, rfl, Lane.push_dataTop _ _, fun k hk => ?_, State.countPush_cells _ _, ?_, rfl⟩
    · exact State.lane_updLane_other { s with dp := d } _ hk
    · exact State.countPush_framesPushed _ p.frame
  · exact ⟨_, exec_push_full h hl hfull, State.finish_ended_of (s.countFault_ops _) (s.countFault_tide _) _ _ _ _,
      s.countFault_stw _, s.countFault_cells _⟩
  · refine ⟨_, exec_pop_retained h hl hw, State.finish_ended_of rfl rfl _ _ _ _, ?_⟩
    rw [State.finish_lane, State.bump_lane, State.lane_updLane_same]
    refine ⟨rfl, rfl, fun k hk => ?_, Data.bump_cells _ _ _, ?_, rfl⟩
    · exact State.lane_updLane_other { s with dp := d } _ hk
    · rw [State.finish_count, State.count_bump, if_pos rfl]
      rfl
  · have hended := State.endStow_ended (s := s) (t := { s with dp := d }) rfl rfl o out.code
    rw [h.id_eq] at hended
    refine ⟨_, exec_peek_ok h hl hw, hended, ?_⟩
    rw [State.endStow_eq]
    exact ⟨rfl, rfl, rfl⟩

/-! ### The frame that a PUSH answers -/

/-- A PUSH of so many lines drops its frame: they do not fit, for a frame that is no anchor beside the lane's reserve (06 R165). -/
def Lane.drops (x : Lane) (anchor : Bool) (need : Nat) : Bool :=
  let free : Int := (x.dataLines.toNat : Int) - x.dataTop.toNat
  if anchor then decide (free < need) else decide (free - (x.reserve.toNat : Int) < need)

theorem Lane.drops_iff (x : Lane) (anchor : Bool) (need : Nat) : x.drops anchor need = true ↔
    x.dataLines.toNat < x.dataTop.toNat + need + (if anchor then 0 else x.reserve.toNat) := by
  cases anchor
  · simp only [Lane.drops, Bool.false_eq_true, if_false, decide_eq_true_eq]
    omega
  · simp only [Lane.drops, if_true, decide_eq_true_eq]
    omega

/-- The header of a PUSH without a list, whose copies met a fault or none (06 R163). -/
def pushHeader (d : List Byte) (lane : Lane) (f : Option (XfKind × Nat)) : Frame :=
  let anchor := bit (field d 40 1) 4
  let dropped := lane.drops anchor (field d 32 4)
  { layer := field d 42 2, micro := field d 44 2, tag := field d 46 2, segment := field d 41 1
    flags := b2n dropped + 2 * b2n anchor + 4 * b2n (!dropped && addrField d 24 != 0) + 8 * b2n f.isSome
    payload := field d 32 4, list := 0, off := lane.dataTop.toNat, seq := lane.seq.toNat }

/-- DROPPED is the lowest of a header's flags. -/
theorem bit_zero_flags (b : Bool) (x y z : Nat) : bit (b2n b + 2 * x + 4 * y + 8 * z) 0 = b := by
  cases b
  · simp [bit, b2n]
    omega
  · simp [bit, b2n]
    omega

/-- The header says whether the frame was dropped. -/
@[simp] theorem pushHeader_dropped (d : List Byte) (lane : Lane) (f : Option (XfKind × Nat)) :
    (pushHeader d lane f).dropped = lane.drops (bit (field d 40 1) 4) (field d 32 4) := bit_zero_flags _ _ _ _

/-- A PUSH without a list answers that header, whatever its copies met. -/
theorem pushWork_answers {e : Env} {a : Acc} {d : List Byte} {lane : Lane} (h : addrField d 24 = 0) :
    (pushWork e a d lane).Answers fun p => ∃ f, p.frame = pushHeader d lane f := by
  have hlist : listLines e a (addrField d 24) = pure (0, none) := if_pos h
  have hend (f : Option (XfKind × Nat)) : M.Answers (do
      writeFrame e lane lane.depth.toNat (pushHeader d lane f)
      pure ⟨pushHeader d lane f, f⟩) fun p : Pushed => ∃ f, p.frame = pushHeader d lane f := .bind fun _ => .pure ⟨f, rfl⟩
  simp only [pushWork, hlist, pure_bind, ite_self, Nat.add_zero]
  exact .ite (hend _) (.bind fun _ => .bind fun f => hend f)

/-- A PUSH without a list drops its frame by the lane's room alone. -/
theorem pushDropRule : Claim.PushDropRule := by
  intro e a d lane io io' p hlist hw
  obtain ⟨f, hframe⟩ := pushWork_answers hlist _ _ _ hw
  rw [hframe, pushHeader_dropped]
  exact ⟨Lane.drops_iff _ _ _, rfl, rfl, rfl, rfl, rfl, rfl⟩

/-- Settles O22: PUSH, POP and PEEK by one equation each, the drop rule by the header that a PUSH answers. -/
theorem stowLanes : Obligations.StowLanes := ⟨stowDepthFollowsItsCounters, pushDropRule⟩

/-! ### GATE -/

/-- A running GATE that has read its status byte decides and ends. -/
theorem exec_gate_ok {s : State} {id r : Nat} {o : Op} {i : Inst} {d : Data} (h : s.Running id 0 0x0304 o i)
    (hw : s.run (gateWork (s.envOf o) o.acc o.desc) = some (.ok r, d)) : exec (.gate id) s
      = .next ((({ s with dp := d } : State).gateDecides o (if r = 2 then 0 else field o.desc 24 1)).finish id 0 0 0) := by
  show execGate id s = _
  simp only [execGate, h.work, hw]

/-- The GATE that its queue waits for decides how many descriptors the queue skips. -/
theorem State.gateDecides_of {s : State} {o : Op} (h : (s.queue o.q).gate = some o.id) (n : Nat) :
    s.gateDecides o n = s.updQueue o.q fun k => { k with gate := none, skip := n } := if_pos h

@[simp] theorem State.finish_queue (s : State) (id n fault va q : Nat) : (s.finish id n fault va).queue q = s.queue q := rfl

/-- GATE by what its decision leaves in its own queue. -/
theorem gateDecides : Claim.GateDecides := by
  intro s id o i r d h hgate hw
  have hexec := exec_gate_ok h hw
  rw [State.gateDecides_of (s := { s with dp := d }) (hgate.trans (congrArg some h.id_eq.symm))] at hexec
  refine ⟨_, hexec, State.finish_ended_of rfl rfl _ _ _ _, ?_, fun q hq => ?_, rfl, rfl⟩
  · rw [State.finish_queue, State.queue_updQueue, if_pos rfl]
    rfl
  · rw [State.finish_queue, State.queue_updQueue, if_neg hq]
    rfl

/-! ### Lane registers -/

/-- A write to a register of a lane that the module has. -/
theorem exec_laneConfigWrite {l : Nat} (hl : l < 16) (r : LaneReg) (v : Reg) (s : State) :
    exec (.laneConfigWrite l r v) s = .next (s.writeLane l r v) := guarded_of hl _

/-- It is stored while the lane is empty and idle. -/
theorem State.writeLane_of {s : State} {l : Nat} (hempty : (s.lane l).depth = 0) (hidle : s.laneBusy l = false) (r : LaneReg)
    (v : Reg) : s.writeLane l r v = s.updLane l (·.config r v) := if_pos ⟨hempty, hidle⟩

/-- Else it is refused and counted. -/
theorem State.writeLane_not {s : State} {l : Nat} (h : (s.lane l).depth ≠ 0 ∨ s.laneBusy l = true) (r : LaneReg) (v : Reg) :
    s.writeLane l r v = s.bump Evt.stowCfgReject 1 := by
  refine if_neg fun ⟨hempty, hidle⟩ => ?_
  rcases h with hdepth | hbusy
  · exact hdepth hempty
  · exact Bool.false_ne_true (hidle.symm.trans hbusy)

/-- HDR_CAP as it is stored. -/
theorem clampCap_toNat (v : Reg) : (clampCap v).toNat = min 65536 (v.setWidth 17).toNat := by
  unfold clampCap
  split
  · next h => exact (Nat.min_eq_left (Nat.le_of_lt h)).symm
  · next h => exact (Nat.min_eq_right (Nat.le_of_not_lt h)).symm

/-- A lane register is stored or refused by the lane's state. -/
theorem laneConfiguration : Claim.LaneConfiguration := by
  intro s l v hl
  refine ⟨fun hempty hidle => ?_, fun r h => ?_⟩
  · simp only [exec_laneConfigWrite hl, State.writeLane_of hempty hidle]
    refine ⟨rfl, rfl, rfl, _, rfl, ?_⟩
    rw [State.lane_updLane_same]
    exact ⟨clampCap_toNat v, rfl⟩
  · rw [exec_laneConfigWrite hl, State.writeLane_not h]

/-- Settles O23: GATE by its decision on its queue, a lane register by the two answers of a write. -/
theorem gatesAndLanes : Obligations.GatesAndLanes := ⟨gateDecides, laneConfiguration⟩

end Sys2Proof.Machine
end

