-- ==== Sys2Proof/Proofs/SequenceBlock.lean ====
section
/-!
PROOFS. What each function on sequences and pools leaves of the sequence block: those that write pages and ledger entries leave it
whole, those that take or give back table slots change the slot table alone, and the rest change contexts besides.
-/

namespace Sys2Proof.Machine

/-- A fold of functions each of which keeps something keeps it. -/
theorem foldl_keeps {α β : Type} {g : State → β} {f : State → α → State} {l : List α} (h : ∀ x ∈ l, ∀ s, g (f s x) = g s)
    (s : State) : g (l.foldl f s) = g s :=
  List.foldlRecOn (motive := fun t => g t = g s) l f rfl fun t ht x hx => (h x hx t).trans ht

/-! ### Functions that leave the sequence block whole -/

@[simp] theorem State.setHeader_seq (s : State) (x p : Nat) (h : Header) : (s.setHeader x p h).seq = s.seq := by
  unfold State.setHeader
  split
  · rfl
  · exact State.dieWrite_seq _ _ _

@[simp] theorem State.updHeader_seq (s : State) (x p : Nat) (f : Header → Header) : (s.updHeader x p f).seq = s.seq :=
  State.setHeader_seq _ _ _ _

@[simp] theorem State.retirePage_seq (s : State) (x p : Nat) : (s.retirePage x p).seq = s.seq := by
  rw [State.retirePage, State.bump_seq, State.updHeader_seq]

@[simp] theorem State.unref_seq (s : State) (x p : Nat) : (s.unref x p).seq = s.seq := by
  simp only [State.unref]
  split
  · exact State.retirePage_seq _ _ _
  · exact State.setHeader_seq _ _ _ _

@[simp] theorem State.setEntry_seq (s : State) (t i v : Nat) : (s.setEntry t i v).seq = s.seq := State.dieWrite_seq _ _ _

@[simp] theorem State.setNode_seq (s : State) (x i : Nat) (n : Node) : (s.setNode x i n).seq = s.seq := by
  unfold State.setNode
  split
  · exact State.dieWrite_seq _ _ _
  · rfl

@[simp] theorem State.unreserve_seq (s : State) (x n : Nat) : (s.unreserve x n).seq = s.seq :=
  foldl_keeps (fun p _ s => State.retirePage_seq s x p) s

@[simp] theorem State.dropTree_seq (s : State) (x target : Nat) : (s.dropTree x target).seq = s.seq := by
  refine foldl_keeps (g := State.seq) (fun e _ s => ?_) s
  dsimp only
  split
  · rfl
  · split
    · simp
    · rfl

@[simp] theorem State.dropPages_seq (x target : Nat) (c : Ctx) (l : List (Nat × Nat)) (s : State) (low : Option Nat) :
    (s.dropPages x target c l low).1.seq = s.seq := by
  induction l generalizing s low with
  | nil => rfl
  | cons e l ih =>
    simp only [State.dropPages]
    split
    · rfl
    · split
      · rfl
      · split
        · rfl
        · rw [ih]
          split <;> simp

@[simp] theorem State.evict_seq (s : State) (c : Ctx) (k : Cand) : (s.evict c k).seq = s.seq := by
  simp only [State.evict]
  split
  · rfl
  · split
    · simp
    · split <;> simp

@[simp] theorem State.setFabric_seq (s : State) (b : Bool) (f : Fabric) : (s.setFabric b f).seq = s.seq := by cases b <;> rfl

/-! ### Functions that change the slot table alone -/

/-- The sequence block but for the slot table. -/
def State.seqKept (s : State) : Seq := { s.seq with slotUse := [] }

theorem State.seqKept_of_seq {s t : State} (h : t.seq = s.seq) : t.seqKept = s.seqKept := by rw [State.seqKept, State.seqKept, h]

theorem State.seqKept_ctx {s t : State} (h : t.seqKept = s.seqKept) (z : Nat) : t.ctx z = s.ctx z := by
  have hctxs : t.seqKept.ctxs = s.seqKept.ctxs := by rw [h]
  exact State.ctx_congr hctxs z

theorem State.seqKept_pool {s t : State} (h : t.seqKept = s.seqKept) (x : Nat) : t.pool x = s.pool x := by
  have hpools : t.seqKept.pools = s.seqKept.pools := by rw [h]
  exact congrArg (tget PoolRegs.reset · x) hpools

@[simp] theorem State.setSlots_seqKept (s : State) (x p : Nat) (us : List Nat) : (s.setSlots x p us).seqKept = s.seqKept := rfl

@[simp] theorem State.freeSlots_seqKept (s : State) (b n : Nat) : (s.freeSlots b n).seqKept = s.seqKept := by
  simp only [State.freeSlots]
  split
  · rfl
  · split
    · rw [State.seqKept_of_seq (State.retirePage_seq _ _ _)]
      rfl
    · rfl

@[simp] theorem State.freeTables_seqKept (s : State) (c : Ctx) : (s.freeTables c).seqKept = s.seqKept := by
  simp only [State.freeTables, State.freeSlots_seqKept]
  refine foldl_keeps (fun i2 _ s => ?_) s
  split
  · rfl
  · rw [State.freeSlots_seqKept]
    refine foldl_keeps (fun i1 _ s => ?_) s
    split
    · exact State.freeSlots_seqKept _ _ _
    · rfl

@[simp] theorem Taking.claim_seqKept (k : Taking) (x p n i : Nat) : (k.claim x p n i).2.s.seqKept = k.s.seqKept := by
  rw [Taking.claim, State.seqKept_of_seq (State.dieWrite_seq _ _ _), State.setSlots_seqKept]

@[simp] theorem State.initPool_seqKept (s : State) (x : Nat) : (s.initPool x).seqKept = s.seqKept := by
  simp only [State.initPool]
  split
  · rw [foldl_keeps fun i _ s => State.seqKept_of_seq (State.dieWrite_seq s _ _),
      foldl_keeps fun p _ s => State.seqKept_of_seq (State.setHeader_seq s x p _)]
    rfl
  · rw [foldl_keeps fun p _ s => State.seqKept_of_seq (State.setHeader_seq s x p _)]
    rfl

/-- A page for a sequence without a context comes from no reservation: no context changes. -/
theorem Taking.page_seq_of_closed {k : Taking} {id : Nat} (h : k.s.ctx id = none) : (k.page id).2.s.seq = k.s.seq := by
  simp only [Taking.page, h]
  split <;> rfl

/-- Neither does one for its table slots. -/
theorem Taking.slots_seqKept_of_closed {k : Taking} {id : Nat} (n : Nat) (h : k.s.ctx id = none) :
    (k.slots id n).2.s.seqKept = k.s.seqKept := by
  simp only [Taking.slots]
  split
  · exact Taking.claim_seqKept _ _ _ _ _
  · rw [Taking.claim_seqKept, State.seqKept_of_seq (State.setHeader_seq _ _ _ _),
      State.seqKept_of_seq (Taking.page_seq_of_closed h)]

/-! ### Functions that change contexts -/

/-- The registers of the sequence block: its key, its pools and its base addresses. -/
def State.seqRegs (s : State) : Seq := { s.seq with ctxs := [], slotUse := [] }

theorem State.seqRegs_of_seq {s t : State} (h : t.seq = s.seq) : t.seqRegs = s.seqRegs := by rw [State.seqRegs, State.seqRegs, h]

@[simp] theorem State.recount_seqRegs (s : State) (id : Nat) (c : Ctx) : (s.recount id c).seqRegs = s.seqRegs := rfl

@[simp] theorem State.evictCtx_seqRegs (s : State) (id : Nat) (c : Ctx) : (s.evictCtx id c).seqRegs = s.seqRegs := by
  simp only [State.evictCtx]
  split
  · rfl
  · split
    · rfl
    · rw [State.recount_seqRegs]
      exact State.seqRegs_of_seq (foldl_keeps (fun k _ s => State.evict_seq s c k) s)

@[simp] theorem State.evictStack_seqRegs (s : State) (x : Nat) : (s.evictStack x).seqRegs = s.seqRegs := by
  refine foldl_keeps (g := State.seqRegs) (fun e _ s => ?_) s
  split
  · exact State.evictCtx_seqRegs _ _ _
  · rfl

@[simp] theorem State.bump_ctx (s : State) (off n z : Nat) : (s.bump off n).ctx z = s.ctx z := rfl

/-- A context that was counted anew is the only one that changes. -/
theorem State.recount_ctx_other (s : State) {id z : Nat} (c : Ctx) (h : z ≠ id) : (s.recount id c).ctx z = s.ctx z := by
  rw [State.recount, State.ctx_setCtx, if_neg h]

/-- Drops from a victim change no other context. -/
theorem State.dropVictim_ctx_other (s : State) (x target : Nat) {id z : Nat} (c : Ctx) (h : z ≠ id) :
    (s.dropVictim x target id c).ctx z = s.ctx z := by
  have hpages := State.dropPages_seq x target c ((s.leaves c).filter fun e => bit e.2 0).reverse s none
  unfold State.dropVictim
  generalize s.dropPages x target c _ none = dropped at hpages ⊢
  obtain ⟨t, low⟩ := dropped
  have hctx : t.ctx z = s.ctx z := State.ctx_congr (congrArg Seq.ctxs (hpages : t.seq = s.seq)) z
  cases low with
  | none => exact hctx
  | some j => exact (State.recount_ctx_other t _ h).trans hctx

theorem mem_insertBy {α : Type} {before : α → α → Bool} {x a : α} {l : List α} (h : a ∈ insertBy before x l) :
    a = x ∨ a ∈ l := by
  induction l with
  | nil => exact .inl (List.mem_singleton.mp h)
  | cons y ys ih =>
    unfold insertBy at h
    split at h
    · exact List.mem_cons.mp h
    · rcases List.mem_cons.mp h with rfl | h
      · exact .inr List.mem_cons_self
      · exact (ih h).imp_right (List.mem_cons_of_mem _)

/-- Sorting adds no element. -/
theorem mem_sortBy {α : Type} {before : α → α → Bool} {a : α} {l : List α} (h : a ∈ sortBy before l) : a ∈ l := by
  revert h
  refine List.foldlRecOn (motive := fun acc => a ∈ acc → a ∈ l) l _ (fun h => nomatch h) fun acc ih x hx h => ?_
  rcases mem_insertBy h with rfl | h
  · exact hx
  · exact ih h

/-- The context that allocates is no victim of its own drops (R291). -/
theorem State.victims_ne {s : State} {x id : Nat} {v : Nat × Ctx} (h : v ∈ s.victims x id) : id ≠ v.1 := by
  have hv := (List.mem_filter.mp (List.mem_reverse.mp (mem_sortBy h))).2
  simp only [Bool.and_eq_true, decide_eq_true_eq] at hv
  exact Ne.symm hv.2

/-- The drops that follow an allocation leave the context that allocated. -/
theorem State.checkDrops_ctx_self (s : State) (id : Nat) : (s.checkDrops id).ctx id = s.ctx id := by
  simp only [State.checkDrops]
  split
  · rfl
  · refine (foldl_keeps (g := (State.ctx · id)) (fun v hv s => ?_) _).trans
      (State.ctx_congr (congrArg Seq.ctxs (State.dropTree_seq _ _ _)) id)
    split
    · rfl
    · exact State.dropVictim_ctx_other _ _ _ _ (State.victims_ne hv)

/-- A pool whose low mark is 0 asks for no drop. -/
theorem State.checkDrops_of_low {s : State} {id : Nat} (h : (s.pool (homeOf id)).low = 0) : s.checkDrops id = s := by
  simp [State.checkDrops, h]

theorem State.afterTaking_ctx_self (s old : State) (id : Nat) : (s.afterTaking old id).ctx id = s.ctx id := by
  unfold State.afterTaking
  split
  · rfl
  · exact State.checkDrops_ctx_self _ _

theorem State.afterTaking_of_low {s : State} {id : Nat} (old : State) (h : (s.pool (homeOf id)).low = 0) :
    s.afterTaking old id = s := by
  unfold State.afterTaking
  split
  · rfl
  · exact State.checkDrops_of_low h

/-! ### Ending an operation -/

@[simp] theorem State.finish_ctx (s : State) (id n fault va z : Nat) : (s.finish id n fault va).ctx z = s.ctx z := rfl

/-- An instance that ends after work outside which nothing changed. -/
theorem State.Ended.of_outside {s t : State} (h : t.outside = s.outside) (id n fault va : Nat) :
    s.Ended (t.finish id n fault va) id n fault va ∧ (t.finish id n fault va).cnt = s.cnt
      ∧ (t.finish id n fault va).que = s.que :=
  ⟨State.finish_ended_of (s := s) (t := t) (congrArg State.ops h :) (congrArg State.tide h :) _ _ _ _, (congrArg State.cnt h :),
    (congrArg State.que h :)⟩

end Sys2Proof.Machine
end

