-- ==== Sys2Proof/Proofs/SequenceCache.lean ====
section
/-!
PROOFS. The sequence cache (chapter 09): OPEN and CLOSE by what their bodies answer, the operations that need an open context by one
table, QUERY and the attention operations, the pool registers and the prefix key, and the registers, none of which shows a key.
-/

namespace Sys2Proof.Machine

/-! ### OPEN and CLOSE -/

theorem exec_openSeq (id : Nat) (s : State) : exec (.openSeq id) s = .next (s.seqOp id 0x0501 openBody) := rfl

theorem exec_closeSeq (id : Nat) (s : State) : exec (.closeSeq id) s = .next (s.seqOp id 0x0502 closeBody) := rfl

/-- An OPEN of an open sequence says ALREADY_OPEN. -/
theorem openBody_open {s : State} {o : Op} {c : Ctx} (h : s.ctx (seqId o.desc) = some c) :
    openBody s o = .status s Seq.alreadyOpen 0 := by
  simp only [openBody, h]

/-- One whose root table finds no page says NOSPACE. -/
theorem openBody_short {s : State} {o : Op} {b : Nat} {k : Taking} (h : s.ctx (seqId o.desc) = none)
    (hk : (Taking.mk s 0).slots (seqId o.desc) 32 = (b, k)) (hshort : k.short ≠ 0) :
    openBody s o = .status s Seq.nospace k.short := by
  simp only [openBody, h, hk, if_pos hshort]

/-- The module after an OPEN that took its root table. -/
def State.opened (s : State) (o : Op) (b : Nat) (k : Taking) : State :=
  (k.s.setCtx (seqId o.desc) { openCtx o.desc with root := BitVec.ofNat 60 (privAddr b) }).afterTaking s (seqId o.desc)

theorem openBody_ok {s : State} {o : Op} {b : Nat} {k : Taking} (h : s.ctx (seqId o.desc) = none)
    (hk : (Taking.mk s 0).slots (seqId o.desc) 32 = (b, k)) (hshort : k.short = 0) :
    openBody s o = .status (s.opened o b k) Seq.ok 0 := by
  simp only [openBody, h, hk, hshort, ne_eq, not_true_eq_false, if_false, State.opened]

/-- It has the new context. -/
theorem State.opened_ctx_self (s : State) (o : Op) (b : Nat) (k : Taking) :
    (s.opened o b k).ctx (seqId o.desc) = some { openCtx o.desc with root := BitVec.ofNat 60 (privAddr b) } := by
  rw [State.opened, State.afterTaking_ctx_self, State.ctx_setCtx, if_pos rfl]

/-- With a low mark of 0 nothing is dropped, and the other contexts are as they were. -/
theorem State.opened_sameContexts {s : State} {o : Op} {b : Nat} {k : Taking} (hk : k.s.seqKept = s.seqKept)
    (hlow : (s.pool (homeOf (seqId o.desc))).low = 0) : s.SameContexts (s.opened o b k) (seqId o.desc) := by
  intro z hz
  have hpool := State.seqKept_pool hk (homeOf (seqId o.desc))
  rw [State.opened, State.afterTaking_of_low, State.ctx_setCtx, if_neg hz]
  · exact State.seqKept_ctx hk z
  · exact (congrArg PoolRegs.low hpool :).trans hlow

/-- The module after a CLOSE of a context. -/
def State.closed (s : State) (id : Nat) (c : Ctx) : State :=
  (((((s.leaves c).filterMap fun e => s.leafPage e.2).foldl (fun s xp => s.unref xp.1 xp.2) s).freeTables c).unreserve
    (homeOf id) c.reserved.toNat).dropCtx id

theorem closeBody_open {s : State} {o : Op} {c : Ctx} (h : s.ctx (seqId o.desc) = some c) :
    closeBody s o = .status (s.closed (seqId o.desc) c) Seq.ok ((s.leaves c).filterMap fun e => s.leafPage e.2).length := by
  simp only [closeBody, State.onOpen, h, State.closed]

/-- A CLOSE gives pages and slots back and removes its context from the sequence block. -/
theorem State.closed_seqKept (s : State) (id : Nat) (c : Ctx) : (s.closed id c).seqKept = (s.dropCtx id).seqKept := by
  have hpages : (((s.leaves c).filterMap fun e => s.leafPage e.2).foldl (fun s xp => s.unref xp.1 xp.2) s).seqKept = s.seqKept :=
    foldl_keeps (fun xp _ s => State.seqKept_of_seq (State.unref_seq s xp.1 xp.2)) s
  have hgiven := ((State.seqKept_of_seq (State.unreserve_seq _ (homeOf id) c.reserved.toNat)).trans
    (State.freeTables_seqKept _ c)).trans hpages
  exact congrArg (fun q : Seq => { q with ctxs := tdel q.ctxs id }) hgiven

theorem State.closed_outside (s : State) (id : Nat) (c : Ctx) : (s.closed id c).outside = s.outside := by
  simp [State.closed]

/-- OPEN and CLOSE. -/
theorem sequencesOpenAndClose : Claim.SequencesOpenAndClose := by
  refine ⟨fun s id o i h hfree haddr => ⟨fun c hc => ?_, fun b k hc hk => ⟨fun hshort => ?_, fun hroom => ?_⟩⟩,
    fun d => ⟨rfl, rfl, rfl, rfl, rfl, rfl⟩, fun s id o i c h hfree haddr hc => ?_⟩
  · rw [exec_openSeq, State.seqOp_status h hfree haddr (openBody_open hc), if_neg (by decide)]
  · rw [exec_openSeq, State.seqOp_status h hfree haddr (openBody_short hc hk hshort), if_neg (by decide)]
  · have hslots : k.s = ((Taking.mk s 0).slots (seqId o.desc) 32).2.s := by rw [hk]
    have houtside : (s.opened o b k).outside = s.outside := by simp [State.opened, hslots]
    have hkept : k.s.seqKept = s.seqKept := by rw [hslots, Taking.slots_seqKept_of_closed 32 hc]
    rw [exec_openSeq, State.seqOp_status h hfree haddr (openBody_ok hc hk hroom), if_pos rfl]
    exact ⟨_, rfl, State.opened_ctx_self s o b k, State.opened_sameContexts hkept, State.Ended.of_outside houtside id 0 0 0⟩
  · have hkept := s.closed_seqKept (seqId o.desc) c
    rw [exec_closeSeq, State.seqOp_status h hfree haddr (closeBody_open hc), if_pos rfl]
    refine ⟨_, rfl, ?_, ?_, fun z hz => ?_, State.Ended.of_outside (s.closed_outside _ c) id 0 0 0⟩
    · rw [State.finish_ctx, State.seqKept_ctx hkept, State.ctx_dropCtx, if_pos rfl]
    · exact (congrArg Seq.pools hkept :)
    · rw [State.finish_ctx, State.seqKept_ctx hkept, State.ctx_dropCtx, if_neg hz]

/-! ### Operations that need an open context -/

/-- The operations that need an open context (R300): opcode, command, body. -/
def openCommands (id : Nat) : List (Nat × Instr × (State → Op → SeqEnd)) :=
  [(0x0502, .closeSeq id, closeBody), (0x0503, .append id, appendBody), (0x0504, .truncate id, truncateBody),
    (0x0505, .reserve id, reserveBody), (0x0506, .matchPrefix id, matchBody), (0x0507, .publish id, publishBody),
    (0x050A, .query id, queryBody)]

theorem exec_openCommand (id : Nat) (s : State) : ∀ e ∈ openCommands id, exec e.2.1 s = .next (s.seqOp id e.1 e.2.2) := by
  simp only [openCommands, List.forall_mem_cons]
  exact ⟨rfl, rfl, rfl, rfl, rfl, rfl, rfl, fun _ h => nomatch h⟩

theorem State.onOpen_closed {s : State} {o : Op} (h : s.ctx (seqId o.desc) = none) (body : Ctx → SeqEnd) :
    s.onOpen o body = .status s Seq.notOpen 0 := by
  simp only [State.onOpen, h]

/-- Each of them says NOT_OPEN of a sequence that is not open. -/
theorem openCommand_closed {s : State} {o : Op} (h : s.ctx (seqId o.desc) = none) (id : Nat) :
    ∀ e ∈ openCommands id, e.2.2 s o = .status s Seq.notOpen 0 := by
  have hclosed := State.onOpen_closed h
  simp only [openCommands, List.forall_mem_cons]
  exact ⟨hclosed _, hclosed _, hclosed _, hclosed _, hclosed _, hclosed _, hclosed _, fun _ h => nomatch h⟩

/-- An operation on a sequence waits for earlier ones, and needs an open context. -/
theorem sequencesMustBeOpen : Claim.SequencesMustBeOpen := by
  intro s id code cmd o i hcmd h
  replace hcmd : (code, cmd) ∈ (openCommands id).map fun e => (e.1, e.2.1) := hcmd
  obtain ⟨e, he, heq⟩ := List.mem_map.mp hcmd
  obtain ⟨rfl, rfl⟩ := Prod.mk.inj heq
  rw [exec_openCommand id s e he]
  refine ⟨fun hheld => ?_, fun hfree hc haddr => ?_⟩
  · rw [State.seqOp_held h hheld]
  · rw [State.seqOp_status h hfree haddr (openCommand_closed hc id e he), if_neg (by decide)]

/-- Settles O43: OPEN and CLOSE by the answers of their bodies and what those keep of the sequence block, the rest by the table of
the operations that need an open context. -/
theorem sequenceContexts : Obligations.SequenceContexts := ⟨sequencesOpenAndClose, sequencesMustBeOpen⟩

/-! ### QUERY -/

theorem exec_query (id : Nat) (s : State) : exec (.query id) s = .next (s.seqOp id 0x050A queryBody) := rfl

/-- A QUERY that writes its record comes to OK. -/
theorem queryBody_ok {s : State} {o : Op} {c : Ctx} {d : Data} (h : s.ctx (seqId o.desc) = some c)
    (hw : s.run (do
      let ws ← putBytes (s.envOf o) ⟨none, o.pin.toNat⟩ (addrField o.desc 32) (ctxRecord (some c))
      writeAll (s.envOf o) ws) = some (.ok (), d)) : queryBody s o = .status { s with dp := d } Seq.ok 0 := by
  simp only [queryBody, State.onOpen, h, hw]

theorem ctxRecord_length (c : Ctx) : (ctxRecord (some c)).length = 64 := by
  simp [ctxRecord]

/-- A field behind the first of two runs of bytes. -/
theorem field_append_left {xs : List Byte} (ys : List Byte) {off len : Nat} (h : off + len ≤ xs.length) :
    field (xs ++ ys) off len = field xs off len := by
  have htake : ((xs ++ ys).drop off).take len = (xs.drop off).take len := by
    rw [List.drop_append_of_le_length (by omega), List.take_append_of_le_length (by rw [List.length_drop]; omega)]
  simp only [field, slice, htake]

/-- The last field of some bytes. -/
theorem field_append_right {xs ys : List Byte} {off len : Nat} (hoff : xs.length = off) (hlen : ys.length = len) :
    field (xs ++ ys) off len = leNat ys := by
  subst hoff hlen
  simp [field, slice]

/-- LENGTH and FILL in the record. -/
theorem ctxRecord_fields (c : Ctx) : field (ctxRecord (some c)) 12 6 = c.length.toNat
    ∧ field (ctxRecord (some c)) 18 6 = c.fill.toNat := by
  have hnum (x : BitVec 48) : leNat (natLE 6 x.toNat) = x.toNat := by
    rw [leNat_natLE]
    exact Nat.mod_eq_of_lt x.isLt
  unfold ctxRecord
  constructor
  · iterate 9 rw [field_append_left _ (by simp)]
    rw [field_append_right (by simp) (by simp), hnum]
  · iterate 8 rw [field_append_left _ (by simp)]
    rw [field_append_right (by simp) (by simp), hnum]

/-- A running QUERY that writes its record ends, and changes the data plane alone. -/
theorem queryWrites {s : State} {id : Nat} {o : Op} {i : Inst} {c : Ctx} {d : Data} (h : s.Running id 0 0x050A o i)
    (hfree : s.seqHeld o = false) (haddr : addrField o.desc 24 = 0) (hc : s.ctx (seqId o.desc) = some c)
    (hw : s.run (do
      let ws ← putBytes (s.envOf o) ⟨none, o.pin.toNat⟩ (addrField o.desc 32) (ctxRecord (some c))
      writeAll (s.envOf o) ws) = some (.ok (), d)) : exec (.query id) s = .next (({ s with dp := d } : State).finish id 0 0 0) := by
  rw [exec_query, State.seqOp_status h hfree haddr (queryBody_ok hc hw), if_pos rfl]

/-! ### ATTEND and ATTEND_GRAD -/

/-- An attention command is the attention operation of its opcode. -/
theorem exec_attention {code id : Nat} {cmd : Instr} (h : (code, cmd) ∈ [(0x0508, Instr.attend id), (0x0509, .attendGrad id)])
    (s : State) : exec cmd s = .next (s.attendOp id code) := by
  rcases List.mem_cons.mp h with h | h
  · obtain ⟨rfl, rfl⟩ := Prod.mk.inj h
    rfl
  · obtain ⟨rfl, rfl⟩ := Prod.mk.inj (List.mem_singleton.mp h)
    rfl

/-- It waits for the earlier operations on its sequences. -/
theorem State.attendOp_held {s : State} {id code : Nat} {o : Op} {i : Inst} (h : s.Running id 0 code o i)
    (hh : s.seqHeld o = true) : s.attendOp id code = s := by
  simp only [State.attendOp, h.work, hh, if_true]

/-- The module after the batch of an attention operation: its courses lose their tiles and, with SCORE, contexts are evicted. -/
def State.attended (s : State) (o : Op) (ends : List EntryEnd) : State :=
  let s := s.attendTiles o (operOf o.desc == 9)
  if !(operOf o.desc == 9) && bit (field o.desc 37 1) 1 then
    ((ends.map fun r => homeOf r.id).eraseDups).foldl State.evictStack s
  else s

/-- The end of an attention operation whose batch array translated, or met a fault. -/
def State.endBatch (s : State) (o : Op) (fault : Option (XfKind × Nat)) : State :=
  match fault with
  | none => s.finish o.id 0 0 0
  | some f => s.seqFault o f

/-- A running attention operation whose batch ran through. -/
theorem State.attendOp_ok {s : State} {id code : Nat} {o : Op} {i : Inst} {ends : List EntryEnd}
    {fault : Option (XfKind × Nat)} {d : Data} (h : s.Running id 0 code o i) (hfree : s.seqHeld o = false)
    (hw : s.run (do
      overwriteRegion s (s.envOf o) (operOf o.desc == 9)
      runBatch s o (s.envOf o) ⟨none, o.pin.toNat⟩ (field o.desc 24 4) []) = some (.ok (ends, fault), d)) :
    s.attendOp id code = (({ s with dp := d } : State).attended o ends).endBatch o fault := by
  simp only [State.attendOp, h.work, hfree, hw, Bool.false_eq_true, if_false]
  cases fault
  · rw [State.endBatch, h.id_eq]
    rfl
  · rfl

/-- Without SCORE an attention operation changes no context. -/
theorem State.attended_of_noScore {s : State} {o : Op} (ends : List EntryEnd)
    (h : bit (field o.desc 37 1) 1 = false ∨ operOf o.desc = 9) : s.attended o ends = s.attendTiles o (operOf o.desc == 9) := by
  refine if_neg ?_
  rcases h with h | h <;> simp [h]

/-- It changes the fabrics, and with SCORE what evictions change. -/
theorem State.attended_keeps (s : State) (o : Op) (ends : List EntryEnd) : (s.attended o ends).ops = s.ops
    ∧ (s.attended o ends).tide = s.tide ∧ (s.attended o ends).cnt = s.cnt ∧ (s.attended o ends).que = s.que
    ∧ (s.attended o ends).seqRegs = s.seqRegs := by
  have htiles : ((s.attendTiles o (operOf o.desc == 9)).ops = s.ops ∧ (s.attendTiles o (operOf o.desc == 9)).tide = s.tide
      ∧ (s.attendTiles o (operOf o.desc == 9)).cnt = s.cnt ∧ (s.attendTiles o (operOf o.desc == 9)).que = s.que
      ∧ (s.attendTiles o (operOf o.desc == 9)).seq = s.seq) := by
    simp [State.attendTiles]
  obtain ⟨hops, htide, hcnt, hque, hseq⟩ := htiles
  simp only [State.attended]
  split
  · have hout := foldl_keeps (l := (ends.map fun r => homeOf r.id).eraseDups) (fun x _ s => State.evictStack_outside s x)
      (s.attendTiles o (operOf o.desc == 9))
    refine ⟨(congrArg State.ops hout :).trans hops, (congrArg State.tide hout :).trans htide,
      (congrArg State.cnt hout :).trans hcnt, (congrArg State.que hout :).trans hque, ?_⟩
    exact (foldl_keeps (fun x _ s => State.evictStack_seqRegs s x) _).trans (State.seqRegs_of_seq hseq)
  · exact ⟨hops, htide, hcnt, hque, State.seqRegs_of_seq hseq⟩

/-- But for the data plane, a translation fault does no more than end its operation. -/
theorem State.seqFault_eq (s : State) (o : Op) (f : XfKind × Nat) :
    s.seqFault o f = ({ s with dp := (s.seqFault o f).dp } : State).finish o.id 0 Code.xlateFault f.2 := by
  rw [State.seqFault, State.countFault_eq]
  rfl

/-- The end of the operation changes the operations alone, and with a fault the data plane. -/
theorem State.endBatch_keeps (s : State) (o : Op) (fault : Option (XfKind × Nat)) :
    (s.endBatch o fault).seq = s.seq ∧ (s.endBatch o fault).cnt = s.cnt ∧ (s.endBatch o fault).que = s.que := by
  cases fault with
  | none => exact ⟨rfl, rfl, rfl⟩
  | some f =>
    rw [State.endBatch, State.seqFault_eq]
    exact ⟨rfl, rfl, rfl⟩

theorem State.endBatch_fault_ended {s t : State} (h : t.ops = s.ops) (ht : t.tide = s.tide) (o : Op) (f : XfKind × Nat) :
    s.Ended (t.endBatch o (some f)) o.id 0 Code.xlateFault f.2 := by
  rw [State.endBatch, State.seqFault_eq]
  exact State.finish_ended_of h ht _ _ _ _

/-- The operation byte is the lower byte of the opcode. -/
theorem operOf_eq (d : List Byte) : operOf d = opcodeOf d % 256 := by
  match d with
  | [] => rfl
  | [a] => simp [operOf, opcodeOf, field, slice, leNat, Nat.mod_eq_of_lt a.isLt]
  | a :: b :: d => simp [operOf, opcodeOf, field, slice, leNat, Nat.mod_eq_of_lt a.isLt]

/-- A running attention operation whose batch ran through ends, with the batch array's fault or without. -/
theorem attentionWorks {s : State} {id code : Nat} {cmd : Instr} {o : Op} {i : Inst} {ends : List EntryEnd}
    {fault : Option (XfKind × Nat)} {d : Data} (hcmd : (code, cmd) ∈ [(0x0508, Instr.attend id), (0x0509, .attendGrad id)])
    (h : s.Running id 0 code o i) (hfree : s.seqHeld o = false)
    (hw : s.run (do
      overwriteRegion s (s.envOf o) (operOf o.desc == 9)
      runBatch s o (s.envOf o) ⟨none, o.pin.toNat⟩ (field o.desc 24 4) []) = some (.ok (ends, fault), d)) :
    ∃ t, exec cmd s = .next t ∧ t.cnt = s.cnt ∧ t.que = s.que
      ∧ (fault = none → s.Ended t id 0 0 0)
      ∧ (∀ f, fault = some f → s.Ended t id 0 Code.xlateFault f.2)
      ∧ (bit (field o.desc 37 1) 1 = false ∨ code = 0x0509 → t.seq = s.seq ∧ (fault = none → t.dp = d))
      ∧ t.seq.pools = s.seq.pools ∧ t.seq.key = s.seq.key := by
  obtain ⟨hops, htide, hcnt, hque, hregs⟩ := State.attended_keeps { s with dp := d } o ends
  obtain ⟨hseq', hcnt', hque'⟩ := State.endBatch_keeps (({ s with dp := d } : State).attended o ends) o fault
  have hexec := (exec_attention hcmd s).trans (congrArg _ (State.attendOp_ok h hfree hw))
  refine ⟨_, hexec, hcnt'.trans hcnt, hque'.trans hque, ?_, ?_, fun hscore => ?_, ?_, ?_⟩
  · rintro rfl
    rw [← h.id_eq]
    exact State.finish_ended_of hops htide _ _ _ _
  · rintro f rfl
    rw [← h.id_eq]
    exact State.endBatch_fault_ended hops htide o f
  · have hnone := State.attended_of_noScore (s := { s with dp := d }) ends (hscore.imp_right fun hcode => by
      rw [operOf_eq, h.opcode_eq, hcode])
    rw [hseq', hnone]
    refine ⟨State.setFabric_seq _ _ _, ?_⟩
    rintro rfl
    exact State.setFabric_dp _ _ _
  · rw [hseq']
    exact (congrArg Seq.pools hregs :)
  · rw [hseq']
    exact (congrArg Seq.key hregs :)

/-! ### A row that sees nothing -/

section
variable {a : Attn} {h qpos : Nat} {q : List FV}

/-- A page of which a row sees no position leaves its running values. -/
theorem attendPage_unseen {p : KvPage} (hp : ∀ t, a.visible p qpos t = false) (acc : RowAcc) :
    attendPage a h qpos q p acc = (acc, .zero) := by
  refine if_pos ?_
  simp [xRow, hp]

/-- So do pages of which it sees none. -/
theorem attendRow_unseen {ps : List KvPage} (hps : ∀ p ∈ ps, ∀ t, a.visible p qpos t = false) (acc : RowAcc) :
    (attendRow a h qpos q ps acc).1 = acc := by
  refine List.foldlRecOn (motive := fun r : RowAcc × ArithEv => r.1 = acc) ps _ rfl fun r hr p hp => ?_
  dsimp only
  rw [attendPage_unseen (hps p hp), hr]

end

/-- A row without a term has zero output and a log-sum-exp of minus infinity (R282). -/
theorem RowAcc.start_out (dim : Nat) : (RowAcc.start dim).out = (List.replicate dim .zero, .negInf) := by
  simp [RowAcc.out, RowAcc.start]

/-- Settles O46: QUERY by the answer of its body and the places in its record, attention by what its batch and its end leave, a row
that sees nothing by the pages that leave its running values. -/
theorem queriesAndAttention : Obligations.QueriesAndAttention := by
  refine ⟨fun s id o i c d h hfree haddr hc hw => ?_, fun s id code cmd o i ends fault d hcmd h hfree hw => ?_,
    fun s id code cmd o i hcmd h hheld => ?_, fun a h p n q ps hps => ?_⟩
  · exact ⟨queryWrites h hfree haddr hc hw, ctxRecord_length c, ctxRecord_fields c⟩
  · exact attentionWorks hcmd h hfree hw
  · rw [exec_attention hcmd, State.attendOp_held h hheld]
  · rw [attendRow_unseen hps, RowAcc.start_out]

/-! ### Pools and the prefix key -/

theorem exec_pageFree {x : Nat} (hx : x < 16) (p : Nat) (s : State) : exec (.pageFree x p) s = .next (s.freePage x p) :=
  guarded_of (by simpa using hx) _

theorem exec_poolConfigWrite {x : Nat} (hx : x < 16) (r : PoolReg) (v : Reg) (s : State) :
    exec (.poolConfigWrite x r v) s = .next (s.writePool x r v) := guarded_of (by simpa using hx) _

theorem exec_prefixKeyWrite (high : Bool) (v : Reg) (s : State) : exec (.prefixKeyWrite high v) s = .next (s.writeKey high v) := rfl

/-- A write to a pool register of an idle pool is stored, and the pool begins anew; no other register changes. -/
theorem State.writePool_idle {s : State} {x : Nat} (h : s.poolIdle x = true) (r : PoolReg) (v : Reg) :
    (s.writePool x r v).seqKept = { s.seqKept with pools := tupd .reset s.seq.pools x fun p => p.write r v } := by
  rw [State.writePool, if_pos h, State.initPool_seqKept]
  rfl

theorem State.writePool_busy {s : State} {x : Nat} (h : s.poolIdle x = false) (r : PoolReg) (v : Reg) :
    s.writePool x r v = s.bump Evt.seqCfgReject 1 := by
  rw [State.writePool, h]
  rfl

/-- The lower half of a 128-bit number replaced. -/
theorem setBits_lower (k v : Nat) : setBits k 63 0 v = k / 2 ^ 64 * 2 ^ 64 + v % 2 ^ 64 := by
  simp only [setBits, bits, Nat.shiftRight_zero]
  omega

/-- The upper half replaced. -/
theorem setBits_upper {k : Nat} (h : k < 2 ^ 128) (v : Nat) : setBits k 127 64 v = v % 2 ^ 64 * 2 ^ 64 + k % 2 ^ 64 := by
  simp only [setBits, bits, Nat.shiftRight_eq_div_pow]
  omega

/-- The prefix key after a write of one half. -/
def keyWith (k : BitVec 128) (high : Bool) (v : Reg) : BitVec 128 :=
  BitVec.ofNat 128 (if high then setBits k.toNat 127 64 v.toNat else setBits k.toNat 63 0 v.toNat)

/-- A write of the lower half leaves the upper one. -/
theorem keyWith_lower (k : BitVec 128) (v : Reg) :
    (keyWith k false v).setWidth 64 = v ∧ keyWith k false v >>> 64 = k >>> 64 := by
  have hk := k.isLt
  have hv := v.isLt
  constructor
  · apply BitVec.eq_of_toNat_eq
    simp [keyWith, setBits_lower]
    omega
  · apply BitVec.eq_of_toNat_eq
    simp [keyWith, setBits_lower, Nat.shiftRight_eq_div_pow]
    omega

/-- A write of the upper half leaves the lower one. -/
theorem keyWith_upper (k : BitVec 128) (v : Reg) :
    keyWith k true v >>> 64 = v.setWidth 128 ∧ (keyWith k true v).setWidth 64 = k.setWidth 64 := by
  have hk := k.isLt
  have hv := v.isLt
  constructor
  · apply BitVec.eq_of_toNat_eq
    simp [keyWith, setBits_upper hk, Nat.shiftRight_eq_div_pow]
    omega
  · apply BitVec.eq_of_toNat_eq
    simp [keyWith, setBits_upper hk]

theorem State.writeKey_stored {s : State} (h : (List.range 16).all s.sliceEmpty = true) (high : Bool) (v : Reg) :
    s.writeKey high v = { s with seq := { s.seq with key := keyWith s.seq.key high v } } := if_pos h

theorem State.writeKey_refused {s : State} (h : (List.range 16).all s.sliceEmpty = false) (high : Bool) (v : Reg) :
    s.writeKey high v = s.bump Evt.seqCfgReject 1 := if_neg (by simp [h])

/-- PAGES is stored as at most 2^20. -/
theorem PoolRegs.write_size (p : PoolRegs) (v : Reg) : (p.write .size v).size.toNat = min (v.toNat % 2 ^ 21) (2 ^ 20) := by
  simp only [PoolRegs.write, bits, Nat.shiftRight_zero, BitVec.toNat_ofNat]
  omega

/-- Settles O47: PAGE_FREE by its condition, a pool register and the prefix key by the two answers of a write. -/
theorem poolConfiguration : Obligations.PoolConfiguration := by
  refine ⟨fun s x p hx => ?_, fun s x r v hx => ⟨fun hbusy => ?_, fun hidle => ?_⟩,
    fun s high v => ⟨fun hused => ?_, fun hempty => ?_⟩, PoolRegs.write_size⟩
  · rw [exec_pageFree hx]
    exact ⟨fun hfree => congrArg _ (if_pos hfree), fun hkept => congrArg _ (if_neg hkept)⟩
  · rw [exec_poolConfigWrite hx, State.writePool_busy hbusy]
  · have hkept := State.writePool_idle hidle r v
    have hpools : (s.writePool x r v).seq.pools = tupd .reset s.seq.pools x fun p => p.write r v := (congrArg Seq.pools hkept :)
    refine ⟨_, exec_poolConfigWrite hx r v s, ?_, fun z hz => ?_, (congrArg Seq.ctxs hkept :), (congrArg Seq.key hkept :)⟩
    · rw [State.pool, hpools, tget_tupd_same]
      rfl
    · rw [State.pool, hpools, tget_tupd, if_neg hz]
      rfl
  · rw [exec_prefixKeyWrite, State.writeKey_refused hused]
  · rw [exec_prefixKeyWrite, State.writeKey_stored hempty]
    refine ⟨_, rfl, rfl, ?_, ?_⟩
    · rintro rfl
      exact keyWith_lower s.seq.key v
    · rintro rfl
      exact keyWith_upper s.seq.key v

/-! ### Keys -/

/-- The module with another prefix key and another root key of the strings. -/
def State.keyed (s : State) (k r : BitVec 128) : State :=
  { s with seq := { s.seq with key := k }, rng := { s.rng with root := r } }

/-- Two states whose blocks of registers in BAR0 read alike. -/
structure State.ReadsAlike (s t : State) : Prop where
  global : ∀ off, t.readGlobal off = s.readGlobal off
  queue : ∀ q off, t.readQueue q off = s.readQueue q off
  vec : ∀ v, t.vec v = s.vec v
  counter : ∀ n, t.counter n = s.counter n
  event : ∀ off, t.evtWord off = s.evtWord off
  fabric : ∀ bass, t.fabStatus bass = s.fabStatus bass
  tuner : ∀ off, t.readTuner off = s.readTuner off
  runAhead : ∀ n, t.dp.ra n = s.dp.ra n
  random : t.rngStatus = s.rngStatus
  stow : ∀ off, t.readStow off = s.readStow off
  memory : ∀ off, t.readMemory off = s.readMemory off
  sequence : ∀ off, t.readSeq off = s.readSeq off
  hawser : ∀ off, t.readHawser off = s.readHawser off
  power : ∀ off, t.readPower off = s.readPower off

/-- BAR0 is put together from its blocks. -/
theorem State.ReadsAlike.readBar0 {s t : State} (h : s.ReadsAlike t) (off : Nat) : t.readBar0 off = s.readBar0 off := by
  obtain ⟨hglobal, hqueue, hvec, hcounter, hevent, hfabric, htuner, hra, hrandom, hstow, hmemory, hseq, hhawser, hpower⟩ := h
  simp only [State.readBar0, hglobal, hqueue, hvec, hcounter, hevent, hfabric, htuner, hra, hrandom, hstow, hmemory, hseq,
    hhawser, hpower]

/-- What SIDE_DATA shows is in memory. -/
theorem State.keyed_sideValue (s : State) (k r : BitVec 128) : (s.keyed k r).sideValue.1 = s.sideValue.1 := by
  have hline : (s.keyed k r).sideLine = s.sideLine := rfl
  have hgo (l : Nat) : (s.keyed k r).lineGo l = s.lineGo l := rfl
  have hdp : (s.keyed k r).dp = s.dp := rfl
  have henv : (s.keyed k r).env 0 = s.env 0 := rfl
  simp only [State.sideValue, hline, hgo, hdp, henv]
  split
  · rfl
  · split <;> rfl

theorem State.keyed_readMemory (s : State) (k r : BitVec 128) (off : Nat) :
    (s.keyed k r).readMemory off = s.readMemory off := by
  have hdp : (s.keyed k r).dp = s.dp := rfl
  have htx : (s.keyed k r).txState = s.txState := rfl
  have hstack : (s.keyed k r).stackState = s.stackState := rfl
  simp only [State.readMemory, hdp, htx, hstack, State.keyed_sideValue]

/-- No block shows a key: but for SIDE_DATA each reads fields that the keys are not among. -/
theorem State.keyed_readsAlike (s : State) (k r : BitVec 128) : s.ReadsAlike (s.keyed k r) where
  global _ := rfl
  queue _ _ := rfl
  vec _ := rfl
  counter _ := rfl
  event _ := rfl
  fabric _ := rfl
  tuner _ := rfl
  runAhead _ := rfl
  random := rfl
  stow _ := rfl
  memory := s.keyed_readMemory k r
  sequence _ := rfl
  hawser _ := rfl
  power _ := rfl

/-- BAR2 shows mailbox channels alone. -/
theorem State.keyed_readBar2 (s : State) (k r : BitVec 128) (off : Nat) : (s.keyed k r).readBar2 off = s.readBar2 off := rfl

/-- Settles O8, block by block of the registers. -/
theorem keysCannotBeRead : Obligations.KeysCannotBeRead :=
  fun s k r off => ⟨(s.keyed_readsAlike k r).readBar0 off, s.keyed_readBar2 k r off⟩

end Sys2Proof.Machine
end

