-- ==== Sys2Proof/Proofs/FrameBytes.lean ====
section
/-!
PROOFS. The bytes of a Hawser frame and of a dictionary frame, read back field by field.
-/

namespace Sys2Proof.Machine

/-! ### Numbers as bytes -/

/-- A word read back from the bytes of its number. -/
theorem ofNat_leNat_natLE {w : Nat} (n : Nat) (x : BitVec w) (h : w ≤ 8 * n) : BitVec.ofNat w (leNat (natLE n x.toNat)) = x := by
  have hpow : (256 : Nat) ^ n = 2 ^ (8 * n) := by rw [Nat.pow_mul]
  have hx : x.toNat < 256 ^ n := hpow ▸ Nat.lt_of_lt_of_le x.isLt (Nat.pow_le_pow_right (by decide) h)
  rw [leNat_natLE, Nat.mod_eq_of_lt hx, BitVec.ofNat_toNat, BitVec.setWidth_eq]

@[simp] theorem natBE_length (n v : Nat) : (natBE n v).length = n := by simp [natBE]

/-- Bytes in network order, read in network order. -/
theorem beNat_natBE (n v : Nat) : beNat (natBE n v) = leNat (natLE n v) := by simp [beNat, natBE]

/-- The lower of two fields packed into one number. -/
theorem bits_low {a b k : Nat} (h : a < 2 ^ (k + 1)) : bits (a + at_ (k + 1) b) k 0 = a := by
  simp only [bits, at_, Nat.shiftRight_zero, Nat.sub_zero, Nat.add_mul_mod_self_right, Nat.mod_eq_of_lt h]

/-- The upper of two fields packed into one number. -/
theorem bits_high {a b lo hi : Nat} (ha : a < 2 ^ lo) (hb : b < 2 ^ (hi + 1 - lo)) : bits (a + at_ lo b) hi lo = b := by
  simp only [bits, at_, Nat.shiftRight_eq_div_pow]
  rw [Nat.add_mul_div_right _ _ (Nat.two_pow_pos lo), Nat.div_eq_of_lt ha, Nat.zero_add, Nat.mod_eq_of_lt hb]

/-! ### Slices of bytes laid end to end -/

/-- Bytes behind a run of bytes. -/
theorem slice_append_right {xs : List Byte} (ys : List Byte) {off : Nat} (len : Nat) (h : xs.length ≤ off) :
    slice (xs ++ ys) off len = slice ys (off - xs.length) len := by
  simp only [slice, List.drop_append, List.drop_of_length_le h, List.nil_append]

/-- Bytes within the first run. -/
theorem slice_append_left {xs : List Byte} (ys : List Byte) {off len : Nat} (h : off + len ≤ xs.length) :
    slice (xs ++ ys) off len = slice xs off len := by
  have htake : ((xs ++ ys).drop off).take len = (xs.drop off).take len := by
    rw [List.drop_append_of_le_length (by omega), List.take_append_of_le_length (by rw [List.length_drop]; omega)]
  simp only [slice, htake]

/-- The whole first run. -/
theorem slice_append_whole {xs : List Byte} (ys : List Byte) {len : Nat} (h : xs.length = len) :
    slice (xs ++ ys) 0 len = xs := by
  rw [slice_append_left ys (by omega), slice_self xs len h]

/-- A field behind a run of bytes. -/
theorem field_skip {xs : List Byte} (ys : List Byte) {off : Nat} (len : Nat) (h : xs.length ≤ off) :
    field (xs ++ ys) off len = field ys (off - xs.length) len := by
  rw [field, slice_append_right ys len h, field]

/-- A field that is the first run. -/
theorem field_first {xs : List Byte} (ys : List Byte) {len : Nat} (h : xs.length = len) : field (xs ++ ys) 0 len = leNat xs := by
  rw [field, slice_append_whole ys h]

/-- A field that is all the bytes. -/
theorem field_whole {xs : List Byte} {len : Nat} (h : xs.length = len) : field xs 0 len = leNat xs := by
  rw [field, slice_self xs len h]

/-- Pieces of one length, laid end to end, from one of them on. -/
theorem drop_flatMap_const {α : Type} (g : α → List Byte) (n : Nat) (l : List α) (i : Nat) (h : ∀ x ∈ l, (g x).length = n) :
    (l.flatMap g).drop (n * i) = (l.drop i).flatMap g := by
  induction i generalizing l with
  | zero => rfl
  | succ i ih =>
    cases l with
    | nil => simp
    | cons x l =>
      have hx := h x List.mem_cons_self
      rw [List.flatMap_cons, Nat.mul_succ, Nat.add_comm, ← List.drop_drop, ← hx, List.drop_left, hx, List.drop_succ_cons]
      exact ih l fun y hy => h y (List.mem_cons_of_mem x hy)

/-- Their length together. -/
theorem length_flatMap_of_mem {α : Type} {g : α → List Byte} {n : Nat} {l : List α} (h : ∀ x ∈ l, (g x).length = n) :
    (l.flatMap g).length = n * l.length := by
  induction l with
  | nil => rfl
  | cons x l ih =>
    rw [List.flatMap_cons, List.length_append, h x List.mem_cons_self, ih fun y hy => h y (List.mem_cons_of_mem x hy),
      List.length_cons, Nat.mul_succ, Nat.add_comm]

/-- Bytes of one of those pieces. -/
theorem slice_flatMap_const {α : Type} {g : α → List Byte} {n : Nat} {l : List α} (h : ∀ x ∈ l, (g x).length = n)
    (rest : List Byte) {i off len : Nat} (hi : i < l.length) (hoff : off + len ≤ n) :
    slice (l.flatMap g ++ rest) (n * i + off) len = slice (g l[i]) off len := by
  have hlen := length_flatMap_of_mem h
  have hle : n * i + n ≤ n * l.length := by
    rw [← Nat.mul_succ]
    exact Nat.mul_le_mul_left n hi
  have hget := h _ (List.getElem_mem hi)
  rw [slice_append_left rest (by omega)]
  calc slice (l.flatMap g) (n * i + off) len
      = slice ((l.drop i).flatMap g) off len := by simp only [slice, ← List.drop_drop, drop_flatMap_const g n l i h]
    _ = slice (g l[i]) off len := by
      rw [List.drop_eq_getElem_cons hi, List.flatMap_cons, slice_append_left _ (by omega)]

/-! ### Ethernet -/

@[simp] theorem fcs_length (bs : List Byte) : (fcs bs).length = 4 := by simp [fcs]

/-- Padding and check sequence stand behind the runs of bytes that are sealed. -/
theorem sealFrame_runs (xs ys zs : List Byte) : ∃ tail, sealFrame (xs ++ ys ++ zs) = xs ++ (ys ++ (zs ++ tail)) :=
  ⟨_, by simp only [sealFrame, List.append_assoc]; rfl⟩

/-- A sealed frame has a right check sequence. -/
theorem sealOk_sealFrame (bs : List Byte) : sealOk (sealFrame bs) = true := by
  simp only [sealFrame]
  generalize hp : bs ++ List.replicate (60 - bs.length) 0 = padded
  have hlen : 60 ≤ padded.length := by
    rw [← hp, List.length_append, List.length_replicate]
    omega
  have htake : (padded ++ fcs padded).length - 4 = padded.length := by simp
  have h64 : 64 ≤ (padded ++ fcs padded).length := by
    rw [List.length_append, fcs_length]
    omega
  simp only [sealOk, htake, List.drop_left, List.take_left, beq_self_eq_true, decide_eq_true h64, Bool.and_true]

/-- The bytes of an 802.1Q tag, where there is one. -/
def vlanBytes : Option (BitVec 16) → List Byte
  | some t => natBE 2 0x8100 ++ natBE 2 t.toNat
  | none => []

section Ethernet

variable (dst src : BitVec 48) (vlan : Option (BitVec 16)) (type : BitVec 16) (body : List Byte)

/-- The Ethernet fields as four runs of bytes. -/
theorem ethernet_append : ethernet dst src vlan type ++ body = natBE 6 dst.toNat ++ (natBE 6 src.toNat
    ++ (vlanBytes vlan ++ (natBE 2 type.toNat ++ body))) := by
  cases vlan <;> simp only [ethernet, vlanBytes, List.append_assoc]

theorem ethernet_length : (ethernet dst src vlan type).length = if vlan.isSome then 18 else 14 := by
  cases vlan <;> simp [ethernet]

theorem ethernet_dst : BitVec.ofNat 48 (beNat (slice (ethernet dst src vlan type ++ body) 0 6)) = dst := by
  rw [ethernet_append, slice_append_whole _ (natBE_length 6 _), beNat_natBE, ofNat_leNat_natLE 6 dst (by decide)]

theorem ethernet_src : BitVec.ofNat 48 (beNat (slice (ethernet dst src vlan type ++ body) 6 6)) = src := by
  rw [ethernet_append, slice_append_right _ _ (by simp), natBE_length, slice_append_whole _ (natBE_length 6 _), beNat_natBE,
    ofNat_leNat_natLE 6 src (by decide)]

/-- What follows the addresses: the tag, where there is one, and the EtherType. -/
theorem slice_ethernet (off len : Nat) : slice (ethernet dst src vlan type ++ body) (12 + off) len
    = slice (vlanBytes vlan ++ (natBE 2 type.toNat ++ body)) off len := by
  rw [ethernet_append, slice_append_right _ _ (by simp; omega), slice_append_right _ _ (by simp; omega), natBE_length, natBE_length,
    Nat.sub_sub, Nat.add_sub_cancel_left]

variable {vlan type}

/-- The tag is read where there is one, and no EtherType is taken for one. -/
theorem tagOf_ethernet (h : vlan = none → type ≠ 0x8100) : tagOf (ethernet dst src vlan type ++ body) = vlan := by
  have h12 := slice_ethernet dst src vlan type body 0 2
  have h14 := slice_ethernet dst src vlan type body 2 2
  simp only [Nat.reduceAdd] at h12 h14
  rw [tagOf, h12, h14]
  cases vlan with
  | none =>
    have htype : beNat (natBE 2 type.toNat) ≠ 0x8100 := by
      rw [beNat_natBE]
      intro he
      exact h rfl (by rw [← ofNat_leNat_natLE 2 type (by decide), he]; rfl)
    rw [vlanBytes, List.nil_append, slice_append_whole _ (natBE_length 2 _), if_neg htype]
  | some t =>
    have htag : beNat (natBE 2 0x8100) = 0x8100 := by decide
    rw [vlanBytes, List.append_assoc, slice_append_whole _ (natBE_length 2 _), if_pos htag, slice_append_right _ _ (by simp), natBE_length,
      slice_append_whole _ (natBE_length 2 _), beNat_natBE, ofNat_leNat_natLE 2 t (by decide)]

theorem bodyAt_ethernet (h : vlan = none → type ≠ 0x8100) :
    bodyAt (ethernet dst src vlan type ++ body) = (ethernet dst src vlan type).length := by
  rw [bodyAt, tagOf_ethernet dst src body h, ethernet_length]

theorem ethernet_type : BitVec.ofNat 16 (beNat (slice (ethernet dst src vlan type ++ body)
    ((ethernet dst src vlan type).length - 2) 2)) = type := by
  have hslice : slice (ethernet dst src vlan type ++ body) ((ethernet dst src vlan type).length - 2) 2 = natBE 2 type.toNat := by
    rw [ethernet_length]
    cases vlan with
    | none =>
      refine (slice_ethernet dst src none type body 0 2).trans ?_
      rw [vlanBytes, List.nil_append, slice_append_whole _ (natBE_length 2 _)]
    | some t =>
      refine (slice_ethernet dst src (some t) type body 4 2).trans ?_
      rw [vlanBytes, List.append_assoc, slice_append_right _ _ (by simp), slice_append_right _ _ (by simp), natBE_length, natBE_length,
        slice_append_whole _ (natBE_length 2 _)]
  rw [hslice, beNat_natBE, ofNat_leNat_natLE 2 type (by decide)]

end Ethernet

/-- Bytes behind a run of bytes, counted from its end. -/
theorem slice_add_append (xs ys : List Byte) (off len : Nat) : slice (xs ++ ys) (xs.length + off) len = slice ys off len := by
  rw [slice_append_right ys len (Nat.le_add_right _ _), Nat.add_sub_cancel_left]

/-! ### The header of a Hawser frame (10 R315) -/

theorem leNat_singleton (b : Byte) : leNat [b] = b.toNat := rfl

/-- The header as runs of bytes, one for each field that is read. -/
theorem hwHeader_runs (f : HwFrame) : hwHeader f = [BitVec.ofNat 8 (f.version.toNat + at_ 4 f.type.toNat)] ++ ([f.kind]
    ++ (natLE 2 (f.srcId.toNat + at_ 12 f.srcPort.toNat) ++ (natLE 2 f.dstId.toNat ++ (natLE 3 f.psn.toNat ++ (natLE 3 f.ackPsn.toNat
    ++ ([f.epoch] ++ (zeros 3 ++ ([BitVec.ofNat 8 f.lines.length] ++ ([BitVec.ofNat 8 f.group.toNat] ++ (natLE 2 f.revision.toNat
    ++ (natLE 4 f.msgId.toNat ++ (natLE 4 f.lineOffset.toNat ++ (natLE 4 f.msgLines.toNat ++ (natLE 8 f.addr.toNat
    ++ (natLE 2 f.remoteCounter.toNat ++ (natLE 2 f.remoteIncrement.toNat ++ (zeros 4 ++ natLE 16 f.poison.toNat))))))))))))))))) := by
  simp only [hwHeader, List.append_assoc]
  rfl

theorem hwHeader_length (f : HwFrame) : (hwHeader f).length = 64 := by simp [hwHeader, zeros]

/-- What a receiver reads in the header's first bytes: type, addresses and sequence numbers. -/
theorem hwHeader_transport (f : HwFrame) :
    BitVec.ofNat 4 (bits (field (hwHeader f) 0 1) 3 0) = f.version ∧ BitVec.ofNat 4 (bits (field (hwHeader f) 0 1) 7 4) = f.type
      ∧ BitVec.ofNat 8 (field (hwHeader f) 1 1) = f.kind ∧ BitVec.ofNat 12 (bits (field (hwHeader f) 2 2) 11 0) = f.srcId
      ∧ BitVec.ofNat 4 (bits (field (hwHeader f) 2 2) 15 12) = f.srcPort
      ∧ BitVec.ofNat 12 (bits (field (hwHeader f) 4 2) 11 0) = f.dstId ∧ BitVec.ofNat 24 (field (hwHeader f) 6 3) = f.psn
      ∧ BitVec.ofNat 24 (field (hwHeader f) 9 3) = f.ackPsn ∧ BitVec.ofNat 8 (field (hwHeader f) 12 1) = f.epoch := by
  have hversion := f.version.isLt
  have htype := f.type.isLt
  have hid := f.srcId.isLt
  have hport := f.srcPort.isLt
  have hdst := f.dstId.isLt
  have hbyte : (BitVec.ofNat 8 (f.version.toNat + at_ 4 f.type.toNat)).toNat = f.version.toNat + at_ 4 f.type.toNat := by
    simp only [BitVec.toNat_ofNat, at_]
    omega
  have hsource : leNat (natLE 2 (f.srcId.toNat + at_ 12 f.srcPort.toNat)) = f.srcId.toNat + at_ 12 f.srcPort.toNat := by
    rw [leNat_natLE, at_]
    omega
  have hdest : bits (leNat (natLE 2 f.dstId.toNat)) 11 0 = f.dstId.toNat := by
    rw [leNat_natLE, bits, Nat.shiftRight_zero]
    omega
  simp only [hwHeader_runs, field_skip, field_first, natLE_length, List.length_cons, List.length_nil, Nat.reduceAdd, Nat.reduceMul,
    Nat.reduceLeDiff, Nat.le_refl, Nat.reduceSub, leNat_singleton, hbyte, hsource, hdest, bits_low hversion,
    bits_high (hi := 7) hversion htype, bits_low hid, bits_high (hi := 15) hid hport, BitVec.ofNat_toNat, BitVec.setWidth_eq,
    ofNat_leNat_natLE, and_self]

/-- And in the others: the message, its lines and the group. -/
theorem hwHeader_message (f : HwFrame) (h : f.lines.length ≤ 126) :
    field (hwHeader f) 16 1 = f.lines.length ∧ BitVec.ofNat 4 (bits (field (hwHeader f) 17 1) 3 0) = f.group
      ∧ BitVec.ofNat 16 (field (hwHeader f) 18 2) = f.revision ∧ BitVec.ofNat 32 (field (hwHeader f) 20 4) = f.msgId
      ∧ BitVec.ofNat 32 (field (hwHeader f) 24 4) = f.lineOffset ∧ BitVec.ofNat 32 (field (hwHeader f) 28 4) = f.msgLines
      ∧ BitVec.ofNat 64 (field (hwHeader f) 32 8) = f.addr ∧ BitVec.ofNat 16 (field (hwHeader f) 40 2) = f.remoteCounter
      ∧ BitVec.ofNat 16 (field (hwHeader f) 42 2) = f.remoteIncrement ∧ BitVec.ofNat 128 (field (hwHeader f) 48 16) = f.poison := by
  have hgroup := f.group.isLt
  have hlines : (BitVec.ofNat 8 f.lines.length).toNat = f.lines.length := by
    rw [BitVec.toNat_ofNat]
    omega
  have hbits : bits (f.group.setWidth 8).toNat 3 0 = f.group.toNat := by
    rw [bits, Nat.shiftRight_zero, BitVec.toNat_setWidth]
    omega
  simp only [hwHeader_runs, field_skip, field_first, field_whole, natLE_length, zeros, List.length_replicate, List.length_cons,
    List.length_nil, Nat.reduceAdd, Nat.reduceMul, Nat.reduceLeDiff, Nat.le_refl, Nat.reduceSub, leNat_singleton, hlines, hbits,
    BitVec.ofNat_toNat, BitVec.setWidth_eq, ofNat_leNat_natLE, and_self]

/-! ### A Hawser frame (10 R314) -/

/-- A frame's bytes: the Ethernet fields, the header, the lines, and what seals them. -/
theorem hwBytes_runs (f : HwFrame) : ∃ tail, hwBytes f = ethernet f.dstMac f.srcMac f.vlan f.etherType
    ++ (hwHeader f ++ ((f.lines.flatMap fun l => l.1 ++ l.2) ++ tail)) := sealFrame_runs _ _ _

/-- The carried lines are read as they were sent. -/
theorem lines_readBack {ls : List (List Byte × List Byte)} (h : ∀ l ∈ ls, l.1.length = 64 ∧ l.2.length = 8) {before : List Byte}
    {k : Nat} (hk : before.length = k) (tail : List Byte) :
    (List.range ls.length).map (fun i => (slice (before ++ ((ls.flatMap fun l => l.1 ++ l.2) ++ tail)) (k + 72 * i) 64,
      slice (before ++ ((ls.flatMap fun l => l.1 ++ l.2) ++ tail)) (k + 64 + 72 * i) 8)) = ls := by
  have hlen : ∀ l ∈ ls, (l.1 ++ l.2).length = 72 := fun l hl => by rw [List.length_append, (h l hl).1, (h l hl).2]
  refine List.ext_getElem (by simp) fun i _ hi => ?_
  obtain ⟨hpayload, hside⟩ := h ls[i] (List.getElem_mem hi)
  have hlo : slice ((ls.flatMap fun l => l.1 ++ l.2) ++ tail) (72 * i) 64 = ls[i].1 :=
    (slice_flatMap_const hlen tail (off := 0) hi (by decide)).trans (slice_append_whole _ hpayload)
  have hhi : slice ((ls.flatMap fun l => l.1 ++ l.2) ++ tail) (72 * i + 64) 8 = ls[i].2 := by
    rw [slice_flatMap_const hlen tail hi (by decide), slice_append_right _ _ (by omega), hpayload, Nat.sub_self,
      slice_self _ _ hside]
  rw [List.getElem_map, List.getElem_range, ← hk, slice_add_append, Nat.add_assoc, Nat.add_comm 64, slice_add_append, hlo, hhi]

/-- A Hawser frame is read back as it was sent. -/
theorem hwFrameOf_hwBytes {f : HwFrame} (hfcs : f.fcsOk = true) (hcount : f.lines.length ≤ 126)
    (hlines : ∀ l ∈ f.lines, l.1.length = 64 ∧ l.2.length = 8) (htag : f.vlan = none → f.etherType ≠ 0x8100) :
    hwFrameOf (hwBytes f) = f := by
  obtain ⟨tail, hbytes⟩ := hwBytes_runs f
  have hseal : sealOk (hwBytes f) = f.fcsOk := by rw [hfcs, hwBytes, sealOk_sealFrame]
  generalize he : ethernet f.dstMac f.srcMac f.vlan f.etherType = e at hbytes
  have hdst : BitVec.ofNat 48 (beNat (slice (hwBytes f) 0 6)) = f.dstMac := by rw [hbytes, ← he, ethernet_dst]
  have hsrc : BitVec.ofNat 48 (beNat (slice (hwBytes f) 6 6)) = f.srcMac := by rw [hbytes, ← he, ethernet_src]
  have hvlan : tagOf (hwBytes f) = f.vlan := by rw [hbytes, ← he, tagOf_ethernet _ _ _ htag]
  have hbody : bodyAt (hwBytes f) = e.length := by rw [hbytes, ← he, bodyAt_ethernet _ _ _ htag]
  have htype : BitVec.ofNat 16 (beNat (slice (hwBytes f) (e.length - 2) 2)) = f.etherType := by rw [hbytes, ← he, ethernet_type]
  have hheader : slice (hwBytes f) e.length 64 = hwHeader f := by
    rw [hbytes, slice_append_right _ _ (Nat.le_refl _), Nat.sub_self, slice_append_whole _ (hwHeader_length f)]
  obtain ⟨hversion, hft, hkind, hid, hport, hdest, hpsn, hack, hepoch⟩ := hwHeader_transport f
  obtain ⟨hn, hgroup, hrev, hmsg, hoff, htotal, haddr, hcounter, hincr, hpoison⟩ := hwHeader_message f hcount
  have hread := lines_readBack hlines (before := e ++ hwHeader f) (k := e.length + 64) (by rw [List.length_append, hwHeader_length]) tail
  rw [List.append_assoc, ← hbytes] at hread
  simp only [hwFrameOf, hseal, hdst, hsrc, hvlan, hbody, htype, hheader, hversion, hft, hkind, hid, hport, hdest, hpsn, hack, hepoch,
    hn, hgroup, hrev, hmsg, hoff, htotal, haddr, hcounter, hincr, hpoison, hread]

/-! ### A dictionary frame (13 R391) -/

/-- The PDU header as runs of bytes, one for each field that is read. -/
theorem pduHeader_runs (f : MgmtFrame) : pduHeader f = [f.version] ++ ([f.service] ++ (natLE 2 f.tid.toNat
    ++ (natLE 2 f.index.toNat ++ ([f.sub] ++ ([f.status] ++ (natLE 4 f.offset.toNat ++ (natLE 2 f.length ++ ([f.flags]
    ++ ([if f.reservedSet then 1 else 0] ++ (natLE 4 f.total.toNat ++ zeros 4)))))))))) := by
  simp only [pduHeader, List.append_assoc]
  rfl

theorem pduHeader_length (f : MgmtFrame) : (pduHeader f).length = 24 := by simp [pduHeader, zeros]

/-- What a receiver reads in the PDU header. -/
theorem pduHeader_fields (f : MgmtFrame) (h : f.length < 2 ^ 16) :
    BitVec.ofNat 8 (field (pduHeader f) 0 1) = f.version ∧ field (pduHeader f) 1 1 = f.service.toNat
      ∧ BitVec.ofNat 16 (field (pduHeader f) 2 2) = f.tid ∧ BitVec.ofNat 16 (field (pduHeader f) 4 2) = f.index
      ∧ BitVec.ofNat 8 (field (pduHeader f) 6 1) = f.sub ∧ BitVec.ofNat 8 (field (pduHeader f) 7 1) = f.status
      ∧ BitVec.ofNat 32 (field (pduHeader f) 8 4) = f.offset ∧ field (pduHeader f) 12 2 = f.length
      ∧ BitVec.ofNat 8 (field (pduHeader f) 14 1) = f.flags ∧ BitVec.ofNat 32 (field (pduHeader f) 16 4) = f.total := by
  have hlength : leNat (natLE 2 f.length) = f.length := by
    rw [leNat_natLE]
    exact Nat.mod_eq_of_lt h
  simp only [pduHeader_runs, field_skip, field_first, natLE_length, List.length_cons, List.length_nil, Nat.reduceAdd, Nat.reduceMul,
    Nat.reduceLeDiff, Nat.le_refl, Nat.reduceSub, leNat_singleton, hlength, BitVec.ofNat_toNat, BitVec.setWidth_eq,
    ofNat_leNat_natLE, and_self]

/-- Its reserved bytes say whether a reserved field was set. -/
theorem pduHeader_reserved (f : MgmtFrame) : (anySet (pduHeader f) 15 1 || anySet (pduHeader f) 20 4) = f.reservedSet := by
  have h15 : slice (pduHeader f) 15 1 = [if f.reservedSet then 1 else 0] := by
    simp only [pduHeader_runs, slice_append_right, slice_append_whole, natLE_length, List.length_cons, List.length_nil,
      Nat.reduceAdd, Nat.reduceLeDiff, Nat.le_refl, Nat.reduceSub]
  have h20 : slice (pduHeader f) 20 4 = zeros 4 := by
    simp only [pduHeader_runs, slice_append_right, natLE_length, List.length_cons, List.length_nil, Nat.reduceAdd, Nat.reduceLeDiff,
      Nat.le_refl, Nat.reduceSub]
    exact slice_self _ _ rfl
  rw [anySet, anySet, h15, h20]
  cases f.reservedSet <;> rfl

/-- A frame's bytes: the Ethernet fields, the header, the data, and what seals them. -/
theorem mgmtBytes_runs (f : MgmtFrame) : ∃ tail, mgmtBytes f = ethernet f.dst f.src (if f.tagged then some 0 else none) f.etherType
    ++ (pduHeader f ++ (f.data ++ tail)) := sealFrame_runs _ _ _

/-- A dictionary frame is read back as it was sent. -/
theorem mgmtFrameOf_mgmtBytes {f : MgmtFrame} (hlength : f.length < 2 ^ 16) (hreq : f.service = 1 → f.data = [])
    (hdata : f.service ≠ 1 → f.data.length = f.length) (htag : f.tagged = false → f.etherType ≠ 0x8100) :
    mgmtFrameOf (mgmtBytes f) = f := by
  obtain ⟨tail, hbytes⟩ := mgmtBytes_runs f
  have hnone : (if f.tagged then some 0 else none : Option (BitVec 16)) = none → f.etherType ≠ 0x8100 := fun h =>
    htag (by simpa using h)
  generalize he : ethernet f.dst f.src (if f.tagged then some 0 else none) f.etherType = e at hbytes
  have hdst : BitVec.ofNat 48 (beNat (slice (mgmtBytes f) 0 6)) = f.dst := by rw [hbytes, ← he, ethernet_dst]
  have hsrc : BitVec.ofNat 48 (beNat (slice (mgmtBytes f) 6 6)) = f.src := by rw [hbytes, ← he, ethernet_src]
  have htagged : (tagOf (mgmtBytes f)).isSome = f.tagged := by
    rw [hbytes, ← he, tagOf_ethernet _ _ _ hnone]
    cases f.tagged <;> rfl
  have hbody : bodyAt (mgmtBytes f) = e.length := by rw [hbytes, ← he, bodyAt_ethernet _ _ _ hnone]
  have htype : BitVec.ofNat 16 (beNat (slice (mgmtBytes f) (e.length - 2) 2)) = f.etherType := by rw [hbytes, ← he, ethernet_type]
  have hheader : slice (mgmtBytes f) e.length 24 = pduHeader f := by
    rw [hbytes, slice_append_right _ _ (Nat.le_refl _), Nat.sub_self, slice_append_whole _ (pduHeader_length f)]
  obtain ⟨hversion, hservice, htid, hindex, hsub, hstatus, hoffset, hlen, hflags, htotal⟩ := pduHeader_fields f hlength
  have hread : (if f.service.toNat = 1 then [] else slice (mgmtBytes f) (e.length + 24) f.length) = f.data := by
    by_cases h1 : f.service = 1
    · rw [h1, hreq h1, if_pos (by decide)]
    · have hne : f.service.toNat ≠ 1 := fun h => h1 (BitVec.eq_of_toNat_eq h)
      have hheads : (e ++ pduHeader f).length = e.length + 24 := by rw [List.length_append, pduHeader_length]
      rw [if_neg hne, hbytes, ← List.append_assoc, ← hheads, slice_append_right _ _ (Nat.le_refl _), Nat.sub_self,
        slice_append_whole _ (hdata h1)]
  simp only [mgmtFrameOf, hdst, hsrc, htagged, hbody, htype, hheader, hversion, hservice, htid, hindex, hsub, hstatus, hoffset, hlen,
    hflags, htotal, pduHeader_reserved, hread, BitVec.ofNat_toNat, BitVec.setWidth_eq]

/-- Settles O60: each field is read from the run of bytes that carries it. -/
theorem frameBytesReadBack : Obligations.FrameBytesReadBack :=
  ⟨fun f hfcs hcount hlines htag => ⟨hwFrameOf_hwBytes hfcs hcount hlines htag, hwHeader_length f⟩,
    fun f hlength hreq hdata htag => ⟨mgmtFrameOf_mgmtBytes hlength hreq hdata htag, pduHeader_length f⟩⟩

end Sys2Proof.Machine
end

