-- ==== Sys2Proof/Proofs/HawserLinks.lean ====
section
/-!
PROOFS. The transport of the Hawser links: what sending a frame changes, frames that a port discards or takes, acknowledgements
and resending (10 R308, R313, R318 to R321).
-/

namespace Sys2Proof.Machine

/-! ### Frames out -/

/-- A stopped port holds what it would send (R313). -/
theorem State.emit_paused {s : State} {p : Nat} (h : (s.port p).paused = true) (f : HwFrame) :
    s.emit p f = s.setPort p { s.port p with held := (s.port p).held ++ [f] } := by
  simp only [State.emit, h, if_true]

/-- Any other sends it. -/
theorem State.emit_running {s : State} {p : Nat} (h : (s.port p).paused = false) (f : HwFrame) :
    s.emit p f = { s with hw := { s.hw with tx := (p, f) :: s.hw.tx } } := by
  simp only [State.emit, h, Bool.false_eq_true, if_false]

@[simp] theorem State.emit_path (s : State) (p : Nat) (f : HwFrame) (i k : Nat) : (s.emit p f).path i k = s.path i k := by
  cases h : (s.port p).paused
  · rw [State.emit_running h]; rfl
  · rw [State.emit_paused h]; rfl

theorem State.emit_port_running {s : State} {p : Nat} (h : (s.port p).paused = false) (f : HwFrame) (k : Nat) :
    (s.emit p f).port k = s.port k := by
  rw [State.emit_running h]; rfl

/-- A port that is not stopped sends some frames, each made from the state before it, in order. -/
theorem State.foldl_emit_running {p : Nat} {make : State → HwFrame → HwFrame}
    (hmake : ∀ s f f', make (s.emit p f) f' = make s f') (fs : List HwFrame) {s : State} (h : (s.port p).paused = false) :
    fs.foldl (fun s f => s.emit p (make s f)) s
      = { s with hw := { s.hw with tx := (fs.map fun f => (p, make s f)).reverse ++ s.hw.tx } } := by
  induction fs generalizing s with
  | nil => rfl
  | cons f fs ih =>
    rw [List.foldl_cons, ih (by rw [State.emit_port_running h, h])]
    simp only [hmake]
    rw [State.emit_running h, List.map_cons, List.reverse_cons, List.append_assoc, List.singleton_append]

/-! ### Frames in (R308) -/

theorem onPort_of {p : Nat} (h : p < 16) (s : State) : onPort p s = .next s := guarded_of h s

theorem onPath_of {i p : Nat} (hi : i < 4096) (hp : p < 16) (s : State) : onPath i p s = .next s := by
  simp [onPath, guarded, hi, hp]

/-- A frame with a bad check sequence. -/
theorem State.frameRefused_bad {f : HwFrame} (h : f.fcsOk = false) (s : State) (p : Nat) : s.frameRefused p f = some Evt.rxBad := by
  simp [State.frameRefused, h]

/-- A frame that is not for this module's port. -/
theorem State.frameRefused_foreign {s : State} {p : Nat} {f : HwFrame} (h : f.fcsOk = true)
    (hf : f.dstMac ≠ s.boot.hwMac + BitVec.ofNat 48 p ∨ f.etherType ≠ 0x88B6 ∨ f.version ≠ 1 ∨ f.dstId ≠ s.hw.moduleId) :
    s.frameRefused p f = some Evt.rxForeign := by
  simp only [State.frameRefused, h, Bool.not_true, Bool.false_eq_true, if_false]
  exact if_pos hf

/-- The commands of received frames handle a type of frame each. -/
theorem exec_frame {p : Nat} {f : HwFrame} {c : Instr}
    (h : c ∈ [Instr.rxData p f, .ack p f, .nak p f, .syncReq p f, .syncRsp p f]) (s : State) :
    ∃ type body, exec c s = onPort p (s.onFrame p f type body) := by
  simp only [List.mem_cons, List.not_mem_nil, or_false] at h
  rcases h with rfl | rfl | rfl | rfl | rfl <;> exact ⟨_, _, rfl⟩

/-- Frames that a port discards. -/
theorem foreignFrames : Claim.ForeignFrames := by
  intro s p f c hp hc
  obtain ⟨type, body, hexec⟩ := exec_frame hc s
  rw [hexec, onPort_of hp]
  refine ⟨fun h => ?_, fun h hbad => ?_, fun h hok hforeign => ?_⟩
  · rw [State.onFrame_off h]
  · rw [State.onFrame_refused h (State.frameRefused_bad hbad s p)]
  · rw [State.onFrame_refused h (State.frameRefused_foreign hok hforeign)]

/-- A frame that its port takes is handled. -/
theorem State.Takes.exec_onFrame {s : State} {p : Nat} {f : HwFrame} {type : BitVec 4} (h : s.Takes p f type)
    (body : State → Nat → State) : onPort p (s.onFrame p f type body) = .next (body s f.srcId.toNat) := by
  obtain ⟨hp, hreceives, htaken, htype⟩ := h
  rw [onPort_of hp, State.onFrame_taken hreceives htaken htype]

/-! ### Acknowledgements (R320) -/

/-- One beyond what was sent says nothing (log entry 32). -/
theorem State.acknowledge_beyond {s : State} {i p : Nat} {a : BitVec 24} (h : psnAfter a ((s.path i p).next - 1) = true) :
    s.acknowledge i p a = s := by
  simp only [State.acknowledge, h, Bool.or_true, if_true]

/-- What an acknowledgement leaves of a path: nothing changes but the frames that wait for it, and the count of timeouts. -/
theorem State.acknowledge_path (s : State) (i p : Nat) (a : BitVec 24) :
    ∃ left n, (s.acknowledge i p a).path i p = { s.path i p with unacked := left, timeouts := n } := by
  simp only [State.acknowledge]
  split
  · exact ⟨_, _, rfl⟩
  · split
    · exact ⟨_, _, rfl⟩
    · exact ⟨_, _, State.path_updPath_same _ _ _ _⟩

/-- The frames that it leaves. -/
theorem State.acknowledge_unacked {s : State} {i p : Nat} {a : BitVec 24} (hest : (s.path i p).est = true)
    (h : psnAfter a ((s.path i p).next - 1) = false) :
    ((s.acknowledge i p a).path i p).unacked = (s.path i p).unacked.filter fun f => psnAfter f.psn a := by
  simp only [State.acknowledge, hest, h, Bool.not_true, Bool.or_self, Bool.false_eq_true, if_false]
  split
  · rename_i hlen
    rw [List.length_filter_eq_length_iff] at hlen
    exact (List.filter_eq_self.mpr hlen).symm
  · rw [State.path_updPath_same]

/-! ### DATA frames (R318, R319) -/

theorem exec_rxData {s : State} {p : Nat} {f : HwFrame} (h : s.Takes p f Ft.data) :
    exec (.rxData p f) s = .next (s.rxData p f f.srcId.toNat).hawserOn :=
  h.exec_onFrame fun s i => (s.rxData p f i).hawserOn

/-- A frame of an unknown kind, with too many lines or of another epoch. -/
theorem State.rxData_ignored {s : State} {p i : Nat} {f : HwFrame}
    (h : 6 < f.kind.toNat ∨ 126 < f.lines.length ∨ f.epoch ≠ (s.path i p).rxEpoch) : s.rxData p f i = s := by
  simp [State.rxData, or_assoc, h]

/-- Any other: its acknowledgement counts, then its sequence number decides. -/
theorem State.rxData_inEpoch {s : State} {p i : Nat} {f : HwFrame} (hkind : f.kind.toNat ≤ 6) (hlines : f.lines.length ≤ 126)
    (hepoch : f.epoch = (s.path i p).rxEpoch) :
    s.rxData p f i =
      if f.psn = (s.path i p).expected then
        if (s.acknowledge i p f.ackPsn).hasRoom f then (s.acknowledge i p f.ackPsn).stage i p f
        else ((s.acknowledge i p f.ackPsn).sendNak i p 2 (s.path i p).accepted 0 0).bump Evt.rxBusy 1
      else if psnAfter (s.path i p).expected f.psn then ((s.acknowledge i p f.ackPsn).sendAck i p).bump Evt.rxDup 1
      else if (s.path i p).nakSent then s.acknowledge i p f.ackPsn
      else ((s.acknowledge i p f.ackPsn).sendNak i p 1 (s.path i p).expected 0 0).updPath i p fun x => { x with nakSent := true } := by
  have h : ¬ (6 < f.kind.toNat ∨ 126 < f.lines.length ∨ f.epoch ≠ (s.path i p).rxEpoch) := by
    simp only [hepoch, ne_eq, not_true, or_false]
    omega
  simp [State.rxData, or_assoc, h]

/-- A number does not come after itself (R318). -/
theorem psnAfter_ne {a b : BitVec 24} (h : psnAfter a b = true) : a ≠ b := by
  rintro rfl
  simp [psnAfter] at h

/-- A frame that is staged moves its path on. -/
theorem State.stage_path (s : State) (i p : Nat) (f : HwFrame) : (s.stage i p f).path i p
    = { s.path i p with expected := (s.path i p).expected + 1, staged := (s.path i p).staged ++ [f] } := by
  have hmoved := State.path_updPath_same s i p fun x => { x with expected := x.expected + 1, staged := x.staged ++ [f] }
  simp only [State.stage]
  split <;> exact hmoved

/-- DATA frames that their port takes. -/
theorem dataFrames : Claim.DataFrames := by
  intro s p f h i a
  rw [exec_rxData h]
  refine ⟨fun hignored => by rw [State.rxData_ignored hignored], fun hkind hlines hepoch => ?_⟩
  rw [State.rxData_inEpoch hkind hlines hepoch]
  obtain ⟨left, n, hpath⟩ := s.acknowledge_path i p f.ackPsn
  refine ⟨fun hpsn hroom => ?_, fun hpsn hroom => ?_, fun hold => ?_, fun hgap hnew => ?_⟩
  · rw [if_pos hpsn, if_pos hroom, State.stage_path, hpath]
    exact ⟨rfl, rfl, rfl⟩
  · rw [if_pos hpsn, if_neg (ne_true_of_eq_false hroom)]
  · rw [if_neg (psnAfter_ne hold).symm, if_pos hold]
  · rw [if_neg (psnAfter_ne hgap), if_neg (ne_true_of_eq_false hnew)]
    exact ⟨fun hsent => by rw [if_pos hsent], fun hfirst => by rw [if_neg (ne_true_of_eq_false hfirst)]⟩

/-- Settles O48: a frame is discarded, or its sequence number decides. -/
theorem hawserReception : Obligations.HawserReception := ⟨foreignFrames, dataFrames⟩

/-! ### The acknowledgement timer, NAK and timeouts (R320, R321) -/

/-- The timer sends an acknowledgement where frames wait for one; a stopped port holds it. -/
theorem ackTimer_sends {s : State} {i p : Nat} (hi : i < 4096) (hp : p < 16) (h : 0 < (s.path i p).sinceAck) :
    ∃ t, exec (.ackTimer i p) s = .next t ∧ (t.path i p).sinceAck = 0
      ∧ ((s.port p).paused = false → t.hw.tx = (p, s.blank i p Ft.ack 0) :: s.hw.tx)
      ∧ ((s.port p).paused = true → t.hw.tx = s.hw.tx ∧ (t.port p).held = (s.port p).held ++ [s.blank i p Ft.ack 0]) := by
  have hexec : exec (.ackTimer i p) s = .next (s.sendAck i p) := by
    show onPath i p (if 0 < (s.path i p).sinceAck then s.sendAck i p else s) = _
    rw [onPath_of hi hp, if_pos h]
  refine ⟨_, hexec, ?_, fun hrun => ?_, fun hstop => ?_⟩
  · rw [State.sendAck, State.path_updPath_same]
  · rw [State.sendAck, State.emit_running hrun]
    rfl
  · rw [State.sendAck, State.emit_paused hstop]
    refine ⟨rfl, ?_⟩
    show (((s.setPort p _).port p).held = _)
    rw [State.port_setPort, if_pos rfl]

theorem ackTimer_idle {s : State} {i p : Nat} (hi : i < 4096) (hp : p < 16) (h : (s.path i p).sinceAck = 0) :
    exec (.ackTimer i p) s = .next s := by
  show onPath i p (if 0 < (s.path i p).sinceAck then s.sendAck i p else s) = _
  rw [onPath_of hi hp, if_neg (by omega)]

/-- A NAK of the path's epoch. -/
theorem exec_nak {s : State} {p : Nat} {f : HwFrame} (h : s.Takes p f Ft.nak) (hepoch : f.epoch = (s.path f.srcId.toNat p).epoch)
    (hest : (s.path f.srcId.toNat p).est = true) :
    exec (.nak p f) s = .next (s.rxNak p f f.srcId.toNat).hawserOn := by
  refine (h.exec_onFrame fun s i => if f.epoch = (s.path i p).epoch && (s.path i p).est then (s.rxNak p f i).hawserOn else s).trans ?_
  simp [hepoch, hest]

/-- NAK SEQ resends at once. -/
theorem State.rxNak_seq {s : State} {p : Nat} {f : HwFrame} (hkind : f.kind = 1) (h : (s.port p).paused = false) (i : Nat) :
    s.rxNak p f i = s.resendAfter i p f.ackPsn := by
  simp [State.rxNak, hkind, h]

/-- NAK BUSY, and NAK SEQ on a stopped port, resend later: on a stopped port this is the model's choice (log entry 32). -/
theorem State.rxNak_later {s : State} {p : Nat} {f : HwFrame} (h : f.kind = 2 ∨ (f.kind = 1 ∧ (s.port p).paused = true)) (i : Nat) :
    s.rxNak p f i = s.updPath i p fun x => { x with busy := some f.ackPsn } := by
  rcases h with hkind | ⟨hkind, hstop⟩
  · simp [State.rxNak, hkind]
  · simp [State.rxNak, hkind, hstop]

theorem exec_busyResend {s : State} {i p : Nat} {a : BitVec 24} (hi : i < 4096) (hp : p < 16) (h : (s.path i p).busy = some a) :
    exec (.busyResend i p) s = .next (if (s.port p).paused then s
      else (s.resendAfter i p a).updPath i p fun x => { x with busy := none }) := by
  refine (onPath_of hi hp _).trans ?_
  rw [h]

/-- What is resent: each frame after the PSN that is not acknowledged, in order, with the acknowledgement of now. -/
theorem State.resendAfter_tx {s : State} {p : Nat} (h : (s.port p).paused = false) (i : Nat) (a : BitVec 24) :
    (s.resendAfter i p a).hw.tx = (((s.path i p).unacked.filter fun f => psnAfter f.psn a).map
      fun f => (p, { f with ackPsn := (s.path i p).accepted })).reverse ++ s.hw.tx := by
  have hfold := State.foldl_emit_running (p := p) (make := fun s f => { f with ackPsn := (s.path i p).accepted })
    (fun s f f' => by rw [State.emit_path]) ((s.path i p).unacked.filter fun f => psnAfter f.psn a) h
  rw [State.resendAfter, State.bump_hw, hfold]

theorem rtoExpiry_paused {s : State} {i p : Nat} (hi : i < 4096) (hp : p < 16) (h : (s.port p).paused = true) :
    exec (.rtoExpiry i p) s = .next s := by
  refine (onPath_of hi hp _).trans ?_
  rw [if_pos h]

/-- A timeout of an established path. -/
theorem exec_rtoExpiry {s : State} {i p : Nat} (hi : i < 4096) (hp : p < 16) (hrun : (s.port p).paused = false)
    (hnak : (s.path i p).nakSent = false) (hest : (s.path i p).est = true) :
    exec (.rtoExpiry i p) s = .next (s.timeout i p).hawserOn := by
  refine (onPath_of hi hp _).trans ?_
  simp [hrun, hnak, hest]

/-- Frames wait, and retries remain: all are resent. -/
theorem State.timeout_resends {s : State} {i p : Nat} (h : (s.path i p).unacked ≠ [])
    (hretry : (s.path i p).timeouts + 1 < s.hw.retry.toNat) :
    s.timeout i p = (s.resendAll i p).updPath i p fun x => { x with timeouts := x.timeouts + 1 } := by
  simp only [State.timeout, List.isEmpty_iff, h, if_false, Nat.not_le.mpr hretry]

/-- At the retry limit the path is lost. -/
theorem State.timeout_loses {s : State} {i p : Nat} (h : (s.path i p).unacked ≠ [])
    (hretry : s.hw.retry.toNat ≤ (s.path i p).timeouts + 1) : s.timeout i p = s.losePath i p := by
  simp only [State.timeout, List.isEmpty_iff, h, if_false, hretry, if_true]

/-- Settles O50, clause by clause from the lemmas above. -/
theorem acknowledgementsAndResends : Obligations.AcknowledgementsAndResends := by
  refine ⟨fun s p f h hepoch => ?_, fun s i p a hest h => State.acknowledge_unacked hest h, fun s i p a h => State.acknowledge_beyond h,
    fun s i p hi hp => ⟨ackTimer_sends hi hp, ackTimer_idle hi hp⟩, fun s p f h hepoch hest => ⟨fun hkind hrun => ?_, fun hlater => ?_⟩,
    fun s i p a hi hp hbusy => ⟨fun hstop => ?_, fun hrun => ?_⟩, fun s i p a hrun => State.resendAfter_tx hrun i a,
    fun s i p hi hp => ⟨rtoExpiry_paused hi hp, fun hrun hnak hest hwait => ⟨fun hretry => ?_, fun hlimit => ?_⟩⟩⟩
  · refine (h.exec_onFrame _).trans ?_
    rw [if_pos hepoch]
  · rw [exec_nak h hepoch hest, State.rxNak_seq hkind hrun]
  · rw [exec_nak h hepoch hest, State.rxNak_later hlater]
  · rw [exec_busyResend hi hp hbusy, if_pos hstop]
  · rw [exec_busyResend hi hp hbusy, if_neg (ne_true_of_eq_false hrun)]
  · rw [exec_rtoExpiry hi hp hrun hnak hest, State.timeout_resends hwait hretry]
  · rw [exec_rtoExpiry hi hp hrun hnak hest, State.timeout_loses hwait hlimit]

end Sys2Proof.Machine
end

