-- ==== Sys2Proof/Proofs/HawserPorts.lean ====
section
/-!
PROOFS. The ports of the Hawser block (10 R310 to R313, R322): what events of the block leave of a port, the states of a port, a port
that goes DOWN, and flow control.
-/

namespace Sys2Proof.Machine

/-! ### What the events of the block leave of a port

Of a port they change the frames that it holds, and nothing else. -/

/-- Ports but for the frames that they hold. -/
def barePorts (ports : Tab Port) : Nat → Port := fun p => { tget .reset ports p with held := [] }

/-- The module's ports but for the frames that they hold. -/
def State.bare (s : State) : Nat → Port := barePorts s.hw.ports

/-- They are read from the ports alone. -/
@[simp] theorem State.bare_mk pending tide dp ops nextOp que cnt hst pci out treble bass tun rng stw los seq hw mbx dic pwr boot :
    State.bare (State.mk pending tide dp ops nextOp que cnt hst pci out treble bass tun rng stw los seq hw mbx dic pwr boot)
      = barePorts hw.ports := rfl

/-- They are folded again. -/
@[simp] theorem State.bare_eta (s : State) : barePorts s.hw.ports = s.bare := rfl

/-- One of them. -/
theorem State.bare_apply (s : State) (p : Nat) : s.bare p = { s.port p with held := [] } := rfl

@[simp] theorem State.bump_bare (s : State) (off n : Nat) : (s.bump off n).bare = s.bare := rfl
@[simp] theorem State.finish_bare (s : State) (id n fault va : Nat) : (s.finish id n fault va).bare = s.bare := rfl
@[simp] theorem State.mark_bare (s : State) (id label v : Nat) : (s.mark id label v).bare = s.bare := rfl
@[simp] theorem State.updPath_bare (s : State) (i p : Nat) (f : Path → Path) : (s.updPath i p f).bare = s.bare := rfl
@[simp] theorem State.updPeer_bare (s : State) (i : Nat) (f : Peer → Peer) : (s.updPeer i f).bare = s.bare := rfl
@[simp] theorem State.updGroup_bare (s : State) (g : Nat) (f : Group → Group) : (s.updGroup g f).bare = s.bare := rfl
@[simp] theorem State.setFerry_bare (s : State) (g : Nat) (f : Ferry) : (s.setFerry g f).bare = s.bare := rfl
@[simp] theorem State.stepDone_bare (s : State) (g : Nat) (n : Word) : (s.stepDone g n).bare = s.bare := rfl

/-- A port that was set, among the others. -/
theorem State.setPort_bare (s : State) (p k : Nat) (x : Port) :
    (s.setPort p x).bare k = if k = p then { x with held := [] } else s.bare k := by
  simp only [State.bare_apply, State.port_setPort]
  split <;> rfl

/-- A frame that is sent or held. -/
@[simp] theorem State.emit_bare (s : State) (p : Nat) (f : HwFrame) : (s.emit p f).bare = s.bare := by
  cases h : (s.port p).paused
  · rw [State.emit_running h]
    rfl
  · rw [State.emit_paused h]
    funext k
    rw [State.setPort_bare]
    split
    · subst k; rfl
    · rfl

@[simp] theorem State.sendSyncReq_bare (s : State) (i p k : Nat) : (s.sendSyncReq i p k).bare = s.bare := State.emit_bare _ _ _

@[simp] theorem State.transmit_bare (s : State) (i p : Nat) (f : HwFrame) : (s.transmit i p f).bare = s.bare := by
  simp [State.transmit]

/-! Frames that wait are placed. -/

@[simp] theorem State.establish_bare (s : State) (i : Nat) : (s.establish i).bare = s.bare := by
  unfold State.establish
  split
  · rfl
  · refine foldl_keeps (fun p _ s => ?_) s
    dsimp only
    split <;> simp

@[simp] theorem State.pumpN_bare (i n : Nat) (s : State) : (s.pumpN i n).bare = s.bare := by
  induction n generalizing s with
  | zero => rfl
  | succ n ih =>
    unfold State.pumpN
    split
    · rfl
    · dsimp only
      split
      · rfl
      · simp [ih]

@[simp] theorem State.pump_bare (s : State) (i : Nat) : (s.pump i).bare = s.bare := by simp [State.pump]

@[simp] theorem State.pumpAll_bare (s : State) : s.pumpAll.bare = s.bare := foldl_keeps (fun i _ s => State.pump_bare s i) s

@[simp] theorem State.message_bare (s : State) (i : Nat) (kind : BitVec 8) (base : HwFrame → HwFrame)
    (pieces : List (Nat × List LineIn)) : (s.message i kind base pieces).1.bare = s.bare := by
  simp [State.message, State.enqueue]

@[simp] theorem State.sendColl_bare (s : State) (o : Op) (g : Nat) (r : List Byte) (rank : Nat) (kind : BitVec 8) (addr : Reg)
    (ps : List (Nat × List LineIn)) : (s.sendColl o g r rank kind addr ps).bare = s.bare := by
  unfold State.sendColl
  dsimp only
  split <;> simp

/-! Operations end. -/

@[simp] theorem State.countFault_bare (s : State) (d : List Byte) : (s.countFault d).bare = s.bare := by
  unfold State.countFault
  split <;> rfl

@[simp] theorem State.endHawser_bare (s : State) (o : Op) (code va : Nat) : (s.endHawser o code va).bare = s.bare := by
  unfold State.endHawser
  split <;> simp

@[simp] theorem State.hawserXlate_bare (s : State) (o : Op) (f : XfKind × Nat) : (s.hawserXlate o f).bare = s.bare := by
  simp [State.hawserXlate]

@[simp] theorem State.settlePut_bare (s : State) (o : Op) : (s.settlePut o).bare = s.bare := by
  unfold State.settlePut
  (repeat' split) <;> simp

/-! The steps of an ALLREDUCE. -/

@[simp] theorem State.applyClose_bare (s : State) (g : Nat) (r : List Byte) (c : CollStep) (k : Close) :
    (s.applyClose g r c k).bare = s.bare := by
  unfold State.applyClose
  dsimp only
  (repeat' split) <;> simp [State.discardContribs]

@[simp] theorem State.tryApply_bare (s : State) (g : Nat) (n : Word) : (s.tryApply g n).bare = s.bare := by
  unfold State.tryApply
  (repeat' split) <;> simp

@[simp] theorem State.closeStep_bare (s : State) (g : Nat) (r : List Byte) (c : CollStep) : (s.closeStep g r c).bare = s.bare := by
  unfold State.closeStep
  rw [State.tryApply_bare]
  refine (foldl_keeps (fun x _ s => ?_) _).trans (by simp)
  dsimp only
  split <;> simp

@[simp] theorem State.tryClose_bare (s : State) (g : Nat) (n : Word) : (s.tryClose g n).bare = s.bare := by
  unfold State.tryClose
  dsimp only
  (repeat' split) <;> simp

@[simp] theorem State.addReady_bare (s : State) (g : Nat) (n : Word) (rank : Nat) : (s.addReady g n rank).bare = s.bare := by
  simp [State.addReady]

@[simp] theorem State.sendReady_bare (s : State) (o : Op) (r : List Byte) (g : Nat) (n : Word) :
    (s.sendReady o r g n).bare = s.bare := by
  unfold State.sendReady
  dsimp only
  split <;> simp

@[simp] theorem State.completeReduce_bare (s : State) (o : Op) (g : Nat) (c : CollStep) :
    (s.completeReduce o g c).bare = s.bare := by
  unfold State.completeReduce
  dsimp only
  (repeat' split) <;> simp

@[simp] theorem State.settleReduce_bare (s : State) (o : Op) : (s.settleReduce o).bare = s.bare := by
  unfold State.settleReduce
  dsimp only
  (repeat' split) <;> simp

/-! The rounds of a FERRY. -/

theorem State.ferryFails_bare {s t : State} {o : Op} {code : Nat} {f : Option (XfKind × Nat)} (h : s.ferryFails o code f = some t) :
    t.bare = s.bare := by
  unfold State.ferryFails at h
  split at h
  · cases h
  · dsimp only at h
    split at h <;> (cases h; simp)

@[simp] theorem State.ferryFails_getD_bare (s : State) (o : Op) (code : Nat) (f : Option (XfKind × Nat)) :
    ((s.ferryFails o code f).getD s).bare = s.bare := by
  cases h : s.ferryFails o code f with
  | none => rfl
  | some t => exact State.ferryFails_bare h

@[simp] theorem State.sendFree_bare (s : State) (o : Op) (r : List Byte) (f : Ferry) (buf : Nat) :
    (s.sendFree o r f buf).bare = s.bare := State.sendColl_bare _ _ _ _ _ _ _ _

theorem State.ferryEnds_bare {s t : State} {o : Op} {f : Ferry} (h : s.ferryEnds o f = some t) : t.bare = s.bare := by
  unfold State.ferryEnds at h
  split at h
  · cases h
  · exact (State.ferryFails_bare h).trans rfl
  · cases h; simp

theorem State.ferryOne_bare {s t : State} {o : Op} {r : List Byte} {f : Ferry} (h : s.ferryOne o r f = some t) : t.bare = s.bare := by
  unfold State.ferryOne at h
  dsimp only at h
  split at h
  · split at h
    · cases h
    · exact (State.ferryFails_bare h).trans rfl
    · cases h; rfl
  · split at h
    · split at h
      · cases h
      · exact (State.ferryFails_bare h).trans rfl
      · cases h; simp
    · split at h
      · split at h <;> (cases h; simp)
      · split at h
        · exact State.ferryEnds_bare h
        · cases h

@[simp] theorem State.ferryRun_bare (o : Op) (r : List Byte) (n : Nat) (s : State) : (s.ferryRun o r n).bare = s.bare := by
  induction n generalizing s with
  | zero => rfl
  | succ n ih =>
    unfold State.ferryRun
    split
    · rfl
    · split
      · rfl
      · split
        · rfl
        · rename_i hone
          rw [ih, State.ferryOne_bare hone]

@[simp] theorem State.settleFerry_bare (s : State) (o : Op) : (s.settleFerry o).bare = s.bare := by
  unfold State.settleFerry
  (repeat' split) <;> simp

/-! The end of an event. -/

@[simp] theorem State.applyCloses_bare (s : State) (g : Nat) : (s.applyCloses g).bare = s.bare :=
  foldl_keeps (fun c _ s => State.tryApply_bare s g c.1) s

@[simp] theorem State.settleHawser_bare (s : State) : s.settleHawser.bare = s.bare := by
  unfold State.settleHawser
  dsimp only
  refine (foldl_keeps (fun o _ s => ?_) _).trans (foldl_keeps (fun g _ s => State.applyCloses_bare s g) s)
  (repeat' split) <;> simp

@[simp] theorem State.hawserOn_bare (s : State) : s.hawserOn.bare = s.bare := by simp [State.hawserOn]

/-- What a port is, but for the frames that it holds. -/
theorem State.port_of_bare {s : State} {p : Nat} {x : Port} (h : s.bare p = x) :
    (s.port p).st = x.st ∧ (s.port p).enable = x.enable ∧ (s.port p).pending = x.pending ∧ (s.port p).degraded = x.degraded
      ∧ (s.port p).lanes = x.lanes ∧ (s.port p).paused = x.paused := by
  subst h
  exact ⟨rfl, rfl, rfl, rfl, rfl, rfl⟩

/-- The end of an event changes no port's state. -/
theorem hawserEventsKeepPorts : Claim.HawserEventsKeepPorts := by
  intro s p
  obtain ⟨hst, henable, hpending, -⟩ := State.port_of_bare (congrFun (State.hawserOn_bare s) p)
  exact ⟨hst, henable, hpending⟩

/-! ### The loss of paths (R322) -/

@[simp] theorem State.losePeer_bare (s : State) (i : Nat) : (s.losePeer i).bare = s.bare := by
  unfold State.losePeer
  dsimp only
  rw [State.bump_bare]
  refine (foldl_keeps (fun p _ s => ?_) _).trans ((State.updPeer_bare _ _ _).trans (foldl_keeps (fun id _ s => State.mark_bare s id _ _) s))
  split <;> simp

@[simp] theorem State.losePath_bare (s : State) (i p : Nat) : (s.losePath i p).bare = s.bare := by
  unfold State.losePath
  dsimp only
  (repeat' split) <;> simp

@[simp] theorem State.losePaths_bare (s : State) (p : Nat) : (s.losePaths p).bare = s.bare :=
  foldl_keeps (fun i _ s => State.losePath_bare s i p) s

@[simp] theorem State.emit_count (s : State) (p : Nat) (f : HwFrame) (k : Nat) : (s.emit p f).count k = s.count k := by
  simp only [State.count, State.emit_dp]

@[simp] theorem State.updPeer_count (s : State) (i : Nat) (f : Peer → Peer) (k : Nat) : (s.updPeer i f).count k = s.count k := rfl
@[simp] theorem State.mark_count (s : State) (id label v k : Nat) : (s.mark id label v).count k = s.count k := rfl

/-- The loss of a peer counts in PEER_UNREACHABLE alone. -/
theorem State.losePeer_count (s : State) (i : Nat) {k : Nat} (h : k ≠ Evt.peerUnreachable) : (s.losePeer i).count k = s.count k := by
  unfold State.losePeer
  dsimp only
  rw [State.count_bump, if_neg h]
  refine (foldl_keeps (g := fun s => s.count k) (fun p _ s => ?_) _).trans ((State.updPeer_count _ _ _ _).trans
    (foldl_keeps (g := fun s => s.count k) (fun id _ s => State.mark_count s id _ _ k) s))
  split <;> rfl

/-- The loss of a path counts in PATH_LOST too. -/
theorem State.losePath_count (s : State) (i p : Nat) {k : Nat} (hpath : k ≠ Evt.pathLost) (hpeer : k ≠ Evt.peerUnreachable) :
    (s.losePath i p).count k = s.count k := by
  have hlost (u : State) : (u.bump Evt.pathLost 1).count k = u.count k := by rw [State.count_bump, if_neg hpath]
  unfold State.losePath
  dsimp only
  split
  · split <;> rfl
  · split
    · exact (State.emit_count _ _ _ _).trans (hlost _)
    · exact (State.losePeer_count _ _ hpeer).trans (hlost _)

/-- From s to t no path has become established. -/
def State.EstablishesNone (s t : State) : Prop := ∀ i p, (t.path i p).est = true → (s.path i p).est = true

namespace State.EstablishesNone

theorem refl (s : State) : s.EstablishesNone s := fun _ _ h => h

theorem trans {s t u : State} (h : s.EstablishesNone t) (h' : t.EstablishesNone u) : s.EstablishesNone u :=
  fun i p hu => h i p (h' i p hu)

theorem of_paths {s t : State} (h : t.hw.paths = s.hw.paths) : s.EstablishesNone t :=
  fun i p ht => State.path_congr h i p ▸ ht

theorem foldl {α : Type} {f : State → α → State} (hf : ∀ (s : State) x, s.EstablishesNone (f s x)) (l : List α) (s : State) :
    s.EstablishesNone (l.foldl f s) :=
  List.foldlRecOn (motive := fun t => s.EstablishesNone t) l f (refl s) fun t ht x _ => ht.trans (hf t x)

theorem updPath (s : State) (i p : Nat) {f : Path → Path} (hf : ∀ x, (f x).est = true → x.est = true) :
    s.EstablishesNone (s.updPath i p f) := by
  intro j k h
  by_cases hkey : 16 * j + k = 16 * i + p
  · have hpath : (s.updPath i p f).path j k = f (s.path j k) := by
      simp only [State.path, State.updPath, hkey, tget_tupd_same]
    exact hf _ (hpath ▸ h)
  · have hpath : (s.updPath i p f).path j k = s.path j k := by
      simp only [State.path, State.updPath, tget_tupd, if_neg hkey]
    exact hpath ▸ h

theorem emit (s : State) (p : Nat) (f : HwFrame) : s.EstablishesNone (s.emit p f) :=
  fun i k h => State.emit_path s p f i k ▸ h

theorem bump (s : State) (off n : Nat) : s.EstablishesNone (s.bump off n) := of_paths rfl

theorem updPeer (s : State) (i : Nat) (f : Peer → Peer) : s.EstablishesNone (s.updPeer i f) := of_paths rfl

theorem mark (s : State) (id label v : Nat) : s.EstablishesNone (s.mark id label v) := of_paths rfl

theorem losePeer (s : State) (i : Nat) : s.EstablishesNone (s.losePeer i) := by
  unfold State.losePeer
  dsimp only
  refine (foldl (fun s id => mark s id _ _) _ s).trans ((updPeer _ _ _).trans ((foldl (fun s p => ?_) _ _).trans (bump _ _ _)))
  split
  · exact updPath _ _ _ fun x h => by cases h
  · exact refl _

/-- After an update that leaves a path not established, it stays so. -/
theorem of_lost {s t : State} {i p : Nat} {f : Path → Path} (hf : ∀ x, (f x).est = false) (h : (s.updPath i p f).EstablishesNone t) :
    s.EstablishesNone t ∧ (t.path i p).est = false := by
  have hoff : ((s.updPath i p f).path i p).est = false := by rw [State.path_updPath_same, hf]
  refine ⟨(updPath s i p fun x hx => ?_).trans h, Bool.eq_false_iff.mpr fun ht => ?_⟩
  · rw [hf] at hx
    cases hx
  · exact Bool.false_ne_true (hoff.symm.trans (h i p ht))

end State.EstablishesNone

/-- A path that is lost is not established, and none becomes so. -/
theorem State.losePath_est (s : State) (i p : Nat) :
    s.EstablishesNone (s.losePath i p) ∧ ((s.losePath i p).path i p).est = false := by
  unfold State.losePath
  dsimp only
  cases hest : (s.path i p).est
  · rw [Bool.not_false, if_pos rfl]
    split
    · exact ⟨.updPath _ _ _ fun x h => h, by rw [State.path_updPath_same]; exact hest⟩
    · exact ⟨.refl s, hest⟩
  · rw [Bool.not_true, if_neg Bool.false_ne_true]
    split
    · exact State.EstablishesNone.of_lost (fun x => rfl) (.trans (.bump _ _ _) (.emit _ _ _))
    · exact State.EstablishesNone.of_lost (fun x => rfl) (.trans (.bump _ _ _) (.losePeer _ _))

/-- A table's entry that is not the default is in the table. -/
theorem exists_mem_of_tget_ne {α : Type} {d : α} {t : Tab α} {n : Nat} (h : tget d t n ≠ d) : ∃ v, (n, v) ∈ t := by
  induction t with
  | nil => exact absurd rfl h
  | cons e t ih =>
    obtain ⟨k, v⟩ := e
    simp only [tget] at h
    split at h
    · subst n
      exact ⟨v, List.mem_cons_self⟩
    · split at h
      · exact absurd rfl h
      · obtain ⟨w, hw⟩ := ih h
        exact ⟨w, List.mem_cons_of_mem _ hw⟩

/-- A peer with an established path through a port has used the port. -/
theorem State.mem_portPeers {s : State} {i p : Nat} (hp : p < 16) (h : (s.path i p).est = true) : i ∈ s.portPeers p := by
  have hne : tget Path.reset s.hw.paths (16 * i + p) ≠ Path.reset := fun he => by
    rw [State.path, he] at h
    cases h
  obtain ⟨v, hv⟩ := exists_mem_of_tget_ne hne
  refine List.mem_map.mpr ⟨_, List.mem_filter.mpr ⟨hv, ?_⟩, ?_⟩
  · simp only [decide_eq_true_eq]; omega
  · dsimp only; omega

/-- No path of the port stays established. -/
theorem State.losePaths_est (s : State) {p : Nat} (hp : p < 16) (i : Nat) : ((s.losePaths p).path i p).est = false := by
  have hlost (l : List Nat) (hi : i ∈ l) : ∀ s : State, ((l.foldl (fun s i => s.losePath i p) s).path i p).est = false := by
    induction l with
    | nil => cases hi
    | cons j l ih =>
      intro s
      rcases List.mem_cons.mp hi with rfl | hi
      · obtain ⟨-, hoff⟩ := s.losePath_est i p
        have hrest := State.EstablishesNone.foldl (fun s j => (State.losePath_est s j p).1) l (s.losePath i p)
        exact Bool.eq_false_iff.mpr fun h => Bool.false_ne_true (hoff.symm.trans (hrest i p h))
      · exact ih hi _
  by_cases hi : i ∈ s.portPeers p
  · exact hlost _ hi s
  · have hrest := State.EstablishesNone.foldl (fun s j => (State.losePath_est s j p).1) (s.portPeers p) s
    exact Bool.eq_false_iff.mpr fun h => hi (State.mem_portPeers hp (hrest i p h))

/-! ### A port that goes DOWN (R310, R311) -/

/-- A port that leaves UP or DRAIN: it has no lane, and holds nothing unless the loss of its paths sends anew. -/
theorem State.leave_bare (s : State) (p k : Nat) (st : PortState) : (s.leave p st).bare k =
    if k = p then { s.port p with st := st, degraded := false, lanes := 0, paused := false, held := [] } else s.bare k := by
  rw [State.leave, State.losePaths_bare, State.setPort_bare]

theorem State.portDown_bare (s : State) (p k : Nat) : (s.portDown p).bare k =
    if k = p then { s.port p with st := .down, degraded := false, lanes := 0, paused := false, held := [] } else s.bare k :=
  s.leave_bare p k .down

/-- What a port that goes DOWN leaves. -/
theorem portsGoDown : Claim.PortsGoDown := by
  intro s p hp
  obtain ⟨hst, henable, hpending, hdegraded, hlanes, hpaused⟩ := State.port_of_bare ((s.portDown_bare p p).trans (if_pos rfl))
  refine ⟨hst, hlanes, hdegraded, hpaused, henable, hpending, ?_, fun i => ?_, fun k hk => ?_⟩
  · have hkeep : (s.leave p .down).count Evt.portRetrain = s.count Evt.portRetrain :=
      foldl_keeps (g := fun s => s.count Evt.portRetrain) (fun i _ s => State.losePath_count s i p (by decide) (by decide)) _
    rw [State.portDown, State.count_bump, if_pos rfl, hkeep]
    rfl
  · exact State.losePaths_est _ hp i
  · obtain ⟨hst, henable, -⟩ := State.port_of_bare ((s.portDown_bare p k).trans (if_neg hk))
    exact ⟨hst, henable⟩

/-! ### The states of a port (R310 to R312) -/

/-- A port of which ENABLE is written 1. -/
def Port.enabled (x : Port) (mode : Byte) : Port :=
  match x.st with
  | .off => { x with enable := true, st := .training, mode := mode, trainings := x.trainings + 1 }
  | .drain => { x with enable := true, pending := true }
  | .training => { x with enable := true }
  | .up => { x with enable := true }
  | .down => { x with enable := true }

/-- A port of which ENABLE is written 0. -/
def Port.disabled (x : Port) : Port :=
  match x.st with
  | .off => { x with enable := false, pending := false }
  | .drain => { x with enable := false, pending := false }
  | .training => { x with enable := false, pending := false, st := .off }
  | .up => { x with enable := false, pending := false, st := .drain }
  | .down => { x with enable := false, pending := false, st := .off }

theorem State.portEnable_port (s : State) (p k : Nat) :
    (s.portEnable p).port k = if k = p then (s.port p).enabled (tget 0 s.dic.cfg.portModes p) else s.port k := by
  cases hst : (s.port p).st <;> by_cases hk : k = p <;>
    simp [State.portEnable, State.train, Port.enabled, State.port_setPort, hst, hk]

theorem State.portDisable_port (s : State) (p k : Nat) :
    (s.portDisable p).port k = if k = p then (s.port p).disabled else s.port k := by
  cases hst : (s.port p).st <;> by_cases hk : k = p <;>
    simp [State.portDisable, Port.disabled, State.port_setPort, hst, hk]

/-- They change the ports alone. -/
theorem State.portEnable_eq (s : State) (p : Nat) :
    s.portEnable p = { s with hw := { s.hw with ports := (s.portEnable p).hw.ports } } := by
  unfold State.portEnable
  dsimp only
  split <;> rfl

theorem State.portDisable_eq (s : State) (p : Nat) :
    s.portDisable p = { s with hw := { s.hw with ports := (s.portDisable p).hw.ports } } := by
  unfold State.portDisable
  dsimp only
  split <;> rfl

/-- ENABLE written 1, as a command. -/
theorem portEnable_states (s : State) {p : Nat} (hp : p < 16) :
    ∃ t, exec (.portEnable p) s = .next t ∧ (t.port p).enable = true ∧ (∀ k, k ≠ p → t.port k = s.port k)
      ∧ ((s.port p).st = .off → (t.port p).st = .training) ∧ ((s.port p).st ≠ .off → (t.port p).st = (s.port p).st)
      ∧ ((s.port p).st = .drain → (t.port p).pending = true) ∧ t.hw.peers = s.hw.peers ∧ t.dp = s.dp := by
  have hport := (s.portEnable_port p p).trans (if_pos rfl)
  refine ⟨_, onPort_of hp (s.portEnable p), ?_, fun k hk => (s.portEnable_port p k).trans (if_neg hk), ?_, ?_, ?_, ?_, ?_⟩
  · rw [hport, Port.enabled]
    split <;> rfl
  · intro h
    simp only [hport, Port.enabled, h]
  · intro h
    cases hst : (s.port p).st with
    | off => exact absurd hst h
    | training => simp only [hport, Port.enabled, hst]
    | up => simp only [hport, Port.enabled, hst]
    | drain => simp only [hport, Port.enabled, hst]
    | down => simp only [hport, Port.enabled, hst]
  · intro h
    simp only [hport, Port.enabled, h]
  · rw [State.portEnable_eq]
  · rw [State.portEnable_eq]

/-- ENABLE written 0, as a command. -/
theorem portDisable_states (s : State) {p : Nat} (hp : p < 16) :
    ∃ t, exec (.portDisable p) s = .next t ∧ (t.port p).enable = false ∧ (t.port p).pending = false
      ∧ (∀ k, k ≠ p → t.port k = s.port k) ∧ ((s.port p).st = .up → (t.port p).st = .drain)
      ∧ ((s.port p).st = .training ∨ (s.port p).st = .down → (t.port p).st = .off) ∧ t.hw.peers = s.hw.peers ∧ t.dp = s.dp := by
  have hport := (s.portDisable_port p p).trans (if_pos rfl)
  refine ⟨_, onPort_of hp (s.portDisable p), ?_, ?_, fun k hk => (s.portDisable_port p k).trans (if_neg hk), ?_, ?_, ?_, ?_⟩
  · rw [hport, Port.disabled]
    split <;> rfl
  · rw [hport, Port.disabled]
    split <;> rfl
  · intro h
    simp only [hport, Port.disabled, h]
  · rintro (h | h) <;> simp only [hport, Port.disabled, h]
  · rw [State.portDisable_eq]
  · rw [State.portDisable_eq]

/-- The end of training, or its timeout. -/
theorem training_ends {s : State} {p : Nat} (hp : p < 16) :
    ((s.port p).st = .training →
      exec (.trainingDone p) s = .next (s.setPort p { s.port p with st := .up, lanes := 0xF }).hawserOn
        ∧ exec (.trainingTimeout p) s = .next ((s.setPort p { s.port p with st := .down, lanes := 0 }).bump Evt.portRetrain 1))
      ∧ ((s.port p).st ≠ .training → exec (.trainingDone p) s = .next s ∧ exec (.trainingTimeout p) s = .next s) := by
  refine ⟨fun h => ⟨?_, ?_⟩, fun h => ⟨?_, ?_⟩⟩
  all_goals refine (onPort_of hp _).trans ?_
  · rw [if_pos h]
  · rw [if_pos h]
  · rw [if_neg h]
  · rw [if_neg h]

/-- A port that has been DOWN for its time trains again. -/
theorem downTimeout_trains {s : State} {p : Nat} (hp : p < 16) :
    ((s.port p).st = .down → exec (.downTimeout p) s = .next (s.train p) ∧ ((s.train p).port p).st = .training)
      ∧ ((s.port p).st ≠ .down → exec (.downTimeout p) s = .next s) := by
  refine ⟨fun h => ⟨?_, ?_⟩, fun h => ?_⟩
  · refine (onPort_of hp _).trans ?_
    rw [if_pos h]
  · rw [State.train, State.port_setPort, if_pos rfl]
  · refine (onPort_of hp _).trans ?_
    rw [if_neg h]

/-- Uncorrectable codewords, or none for a lost lane lock, on an UP port. -/
theorem exec_linkFailure {s : State} {p : Nat} (hp : p < 16) (h : (s.port p).st = .up) (n : Nat) :
    exec (.linkFailure p n) s =
      let t := (s.bump Evt.fecUncorr n).setPort p { s.port p with uncorrectable := (s.port p).uncorrectable + BitVec.ofNat 64 n }
      .next (if n = 0 ∨ 16 < n then (t.portDown p).hawserOn else t) := by
  refine (onPort_of hp _).trans ?_
  rw [if_pos h]
  rfl

/-- What an UP port meets. -/
theorem upPort_states {s : State} {p : Nat} (hp : p < 16) (h : (s.port p).st = .up) :
    exec (.retrain p) s = .next (s.portDown p).hawserOn
      ∧ (∀ n, n ≤ 16 → n ≠ 0 → ∃ t, exec (.linkFailure p n) s = .next t
        ∧ t.port p = { s.port p with uncorrectable := (s.port p).uncorrectable + BitVec.ofNat 64 n }
        ∧ t.count Evt.fecUncorr = s.count Evt.fecUncorr + BitVec.ofNat 48 n)
      ∧ (∀ n, n = 0 ∨ 16 < n → exec (.linkFailure p n) s = .next (((s.bump Evt.fecUncorr n).setPort p
        { s.port p with uncorrectable := (s.port p).uncorrectable + BitVec.ofNat 64 n }).portDown p).hawserOn)
      ∧ (∀ c r, exec (.degradedWindow p c r) s = .next (s.setPort p { s.port p with
        corrected := (s.port p).corrected + BitVec.ofNat 64 c, degraded := decide (r < c * 10 ^ 5) })) := by
  refine ⟨?_, fun n hle hne => ?_, fun n hfail => ?_, fun c r => ?_⟩
  · refine (onPort_of hp _).trans ?_
    rw [State.portRetrain, if_pos h]
  · refine ⟨_, (exec_linkFailure hp h n).trans (congrArg _ (if_neg (by omega))), ?_, ?_⟩
    · rw [State.port_setPort, if_pos rfl]
    · exact (State.count_bump s _ n _).trans (if_pos rfl)
  · exact (exec_linkFailure hp h n).trans (congrArg _ (if_pos hfail))
  · refine (onPort_of hp _).trans ?_
    exact congrArg _ (if_pos h)

/-- A port that is not UP meets none of it. -/
theorem notUpPort_states {s : State} {p : Nat} (hp : p < 16) (h : (s.port p).st ≠ .up) :
    exec (.retrain p) s = .next s ∧ (∀ n, exec (.linkFailure p n) s = .next s)
      ∧ ∀ c r, exec (.degradedWindow p c r) s = .next s := by
  refine ⟨?_, fun n => ?_, fun c r => ?_⟩
  all_goals refine (onPort_of hp _).trans ?_
  · rw [State.portRetrain, if_neg h]
  · rw [if_neg h]
  · exact congrArg _ (if_neg h)

/-- A drained port, its paths lost, waits for nothing more. -/
def State.drained (s : State) (p : Nat) : State :=
  let u := (s.leave p .off).hawserOn
  u.setPort p { u.port p with pending := false }

theorem State.drained_port (s : State) (p : Nat) : ((s.drained p).port p).st = .off ∧ ((s.drained p).port p).pending = false := by
  have hleft := (congrFun (State.hawserOn_bare (s.leave p .off)) p).trans ((s.leave_bare p p .off).trans (if_pos rfl))
  unfold State.drained
  dsimp only
  generalize (s.leave p .off).hawserOn = u at hleft ⊢
  obtain ⟨hst, -⟩ := State.port_of_bare hleft
  rw [State.port_setPort, if_pos rfl]
  exact ⟨hst, rfl⟩

/-- A drained port is OFF, and enabled again where that was pending. -/
theorem drainDone_states {s : State} {p : Nat} (hp : p < 16) (h : (s.port p).st = .drain) :
    ((s.port p).pending = false → exec (.drainDone p) s = .next (s.drained p) ∧ ((s.drained p).port p).st = .off)
      ∧ ((s.port p).pending = true → exec (.drainDone p) s = .next ((s.drained p).portEnable p)
        ∧ (((s.drained p).portEnable p).port p).st = .training ∧ (((s.drained p).portEnable p).port p).enable = true
        ∧ (((s.drained p).portEnable p).port p).pending = false) := by
  obtain ⟨hoff, hnone⟩ := s.drained_port p
  have hexec : exec (.drainDone p) s = .next (if (s.port p).pending then (s.drained p).portEnable p else s.drained p) :=
    (onPort_of hp _).trans (congrArg _ (if_pos h))
  refine ⟨fun hpending => ⟨?_, hoff⟩, fun hpending => ⟨?_, ?_⟩⟩
  · rw [hexec, if_neg (ne_true_of_eq_false hpending)]
  · rw [hexec, if_pos hpending]
  · rw [State.portEnable_port, if_pos rfl]
    simp only [Port.enabled, hoff, hnone, and_self]

theorem drainDone_idle {s : State} {p : Nat} (hp : p < 16) (h : (s.port p).st ≠ .drain) : exec (.drainDone p) s = .next s := by
  refine (onPort_of hp _).trans ?_
  rw [if_neg h]

/-- The states of a port. -/
theorem portStates : Claim.PortStates := by
  intro s p hp
  obtain ⟨htraining, hnotTraining⟩ := training_ends (s := s) hp
  obtain ⟨hdown, hnotDown⟩ := downTimeout_trains (s := s) hp
  exact ⟨portEnable_states s hp, portDisable_states s hp, htraining, hnotTraining, hdown, hnotDown, upPort_states hp,
    notUpPort_states hp, drainDone_states hp, drainDone_idle hp⟩

/-! ### Flow control (R313) -/

/-- PAUSE, and PFC of the port's priority. -/
theorem exec_pause {s : State} {p : Nat} {priority : Option (BitVec 3)} (hp : p < 16) (h : s.receives p = true)
    (hours : priority = none ∨ priority = some s.hw.pcp) (ns : Nat) : exec (.pause p priority ns) s =
      .next (if ns = 0 then (s.unpause p).hawserOn else (s.setPort p { s.port p with paused := true }).hawserOn) := by
  refine (onPort_of hp _).trans ?_
  rcases hours with rfl | rfl <;> simp [h]

/-- PFC of another priority. -/
theorem exec_pause_other {s : State} {p : Nat} {x : BitVec 3} (hp : p < 16) (hx : x ≠ s.hw.pcp) (ns : Nat) :
    exec (.pause p (some x) ns) s = .next s := by
  refine (onPort_of hp _).trans ?_
  simp [hx]

/-- A port that receives nothing is not stopped. -/
theorem exec_pause_off {s : State} {p : Nat} (hp : p < 16) (h : s.receives p = false) (priority : Option (BitVec 3)) (ns : Nat) :
    exec (.pause p priority ns) s = .next s := by
  refine (onPort_of hp _).trans ?_
  simp [h]

/-- At the end of a stop the port sends what it held, in order. -/
theorem State.unpause_eq (s : State) (p : Nat) :
    let t := s.setPort p { s.port p with paused := false, held := [] }
    s.unpause p = { t with hw := { t.hw with tx := ((s.port p).held.map fun f => (p, f)).reverse ++ t.hw.tx } } := by
  intro t
  have hrun : (t.port p).paused = false := by rw [State.port_setPort, if_pos rfl]
  exact State.foldl_emit_running (make := fun _ f => f) (fun _ _ _ => rfl) (s.port p).held hrun

/-- PAUSE_NS counts the ports that are stopped. -/
theorem State.countTime_pauseNs (s : State) : s.countTime.count Evt.pauseNs
    = s.count Evt.pauseNs + BitVec.ofNat 48 (s.hw.ports.filter fun x => x.2.paused).length := by
  have hother {off : Nat} (h : Evt.pauseNs ≠ off) (c : Bool) (u : State) :
      (if c then u.bump off 1 else u).count Evt.pauseNs = u.count Evt.pauseNs := by
    cases c
    · rfl
    · exact (State.count_bump u off 1 _).trans (if_neg h)
  have hports : (if s.stw.slip then s.bump Evt.slipNs 1 else s).hw = s.hw := by split <;> rfl
  unfold State.countTime
  dsimp only
  rw [hother (by decide), State.count_bump, if_pos rfl, hother (by decide), hports]

/-- Flow control. -/
theorem flowControl : Claim.FlowControl := by
  intro s p ns hp
  refine ⟨fun h priority hours => ⟨fun hns => ?_, ?_⟩, fun x hx => exec_pause_other hp hx ns,
    fun h priority => exec_pause_off hp h priority ns, onPort_of hp _, fun i hstop => ?_, fun f hstop => ?_, ?_, ?_, State.countTime_pauseNs s⟩
  · rw [exec_pause hp h hours, if_neg (by omega)]
  · rw [exec_pause hp h hours, if_pos rfl]
  · simp only [State.takesFrame, hstop, Bool.not_true, Bool.and_false, Bool.false_and]
  · rw [State.emit_paused hstop]
    exact ⟨rfl, by rw [State.port_setPort, if_pos rfl]⟩
  · rw [State.unpause_eq]
    rfl
  · rw [State.unpause_eq]
    exact (State.port_setPort s p p _).trans (if_pos rfl)

/-- Settles O52: the states of a port from the ports but for what they hold, which no other event of the block changes. -/
theorem hawserPorts : Obligations.HawserPorts := ⟨portStates, portsGoDown, hawserEventsKeepPorts, flowControl⟩

end Sys2Proof.Machine
end

