-- ==== Sys2Proof/Proofs/HawserWork.lean ====
section
/-!
PROOFS. The operations of class 0x06 and their deadlines (10 R325 to R346).
-/

namespace Sys2Proof.Machine

/-! ### Reading a group's record -/

/-- A record that can be read now. -/
theorem State.readGroup_of_groupRecord {s : State} {g : Nat} {r : List Byte} (h : s.groupRecord g = some r) :
    s.readGroup g = .record r := by
  unfold State.groupRecord at h
  split at h
  · rename_i hread
    cases h
    exact hread
  · cases h
  · cases h
  · cases h

/-! ### PUT (R325, R327) -/

/-- A PUT to an UNREACHABLE peer. -/
theorem exec_put_unreachable {s : State} {id : Nat} {o : Op} {i : Inst} (h : s.Running id 0 0x0601 o i) (hsent : o.num Lab.sent ≠ 1)
    (hpeer : (s.peer (putPeer o.desc)).st = Peer.unreachable) :
    exec (.put id) s = .next ((s.countFault o.desc).finish id 0 Code.peerLost 0) := by
  show execPut id s = _
  simp only [execPut, h.work, hsent, hpeer, if_false, if_true, State.endHawser, h.id_eq]
  rfl

/-- Any other sends its lines as one message. -/
theorem exec_put_sends {s : State} {id : Nat} {o : Op} {i : Inst} {ls : List LineIn} {d : Data} (h : s.Running id 0 0x0601 o i)
    (hsent : o.num Lab.sent ≠ 1) (hpeer : (s.peer (putPeer o.desc)).st ≠ Peer.unreachable)
    (hread : s.run (readLines (s.envOf o) ⟨none, o.pin.toNat⟩ (addrField o.desc 16) (field o.desc 32 4)) = some (.ok ls, d)) :
    exec (.put id) s = .next (((({ s with dp := d }).mark id Lab.sent 1).mark id Lab.msg
      (s.peer (putPeer o.desc)).nextMsg.toNat).message (putPeer o.desc) 0 (fun f => { f with
        addr := BitVec.ofNat 64 (addrField o.desc 24)
        remoteCounter := BitVec.ofNat 16 (field o.desc 38 2)
        remoteIncrement := BitVec.ofNat 16 (field o.desc 40 2) }) [(0, ls)]).1 := by
  show execPut id s = _
  simp only [execPut, h.work, hsent, hpeer, if_false, hread]
  rfl

/-- A PUT whose frames are all acknowledged. -/
theorem State.settlePut_acknowledged {s : State} {o : Op} (hlost : o.num Lab.peerLost ≠ 1) (hout : s.outstanding o [0] = false) :
    s.settlePut o = s.endHawser o (if o.num Lab.rejected = 1 then Code.remoteFault else 0) 0 := by
  simp only [State.settlePut, hlost, hout, Bool.false_eq_true, if_false]

/-! ### ALLREDUCE (R330, R346) -/

/-- An ALLREDUCE that has sent its contribution. -/
theorem exec_allreduce_sent {s : State} {id : Nat} {o : Op} {i : Inst} (h : s.Running id 0 0x0602 o i) (hsent : o.num Lab.sent = 1) :
    exec (.allreduce id) s = .next s.settleHawser := by
  show execAllreduce id s = _
  simp only [execAllreduce, h.work, hsent, if_true]

/-- One that has not, and that nothing holds, contributes. -/
theorem exec_allreduce_contributes {s : State} {id : Nat} {o : Op} {i : Inst} {r : List Byte} (h : s.Running id 0 0x0602 o i)
    (hsent : o.num Lab.sent ≠ 1) (hheld : s.reduceHeld o = false) (hrecord : s.groupRecord (collGroup o.desc) = some r) :
    exec (.allreduce id) s = .next (s.contributeStep o r).settleHawser := by
  show execAllreduce id s = _
  simp only [execAllreduce, h.work, hsent, hheld, Bool.false_eq_true, if_false, State.readGroup_of_groupRecord hrecord]

/-- Or it ends where its group record does not translate. -/
theorem exec_allreduce_faults {s : State} {id : Nat} {o : Op} {i : Inst} {f : XfKind × Nat} (h : s.Running id 0 0x0602 o i)
    (hsent : o.num Lab.sent ≠ 1) (hheld : s.reduceHeld o = false) (hread : s.readGroup (collGroup o.desc) = .fault f) :
    exec (.allreduce id) s = .next (s.hawserXlate o f) := by
  show execAllreduce id s = _
  simp only [execAllreduce, h.work, hsent, hheld, Bool.false_eq_true, if_false, hread]

/-! ### FERRY (R339, R340, R343) -/

theorem exec_ferry_sent {s : State} {id : Nat} {o : Op} {i : Inst} (h : s.Running id 0 0x0603 o i) (hsent : o.num Lab.sent = 1) :
    exec (.ferry id) s = .next s.settleHawser := by
  show execFerry id s = _
  simp only [execFerry, h.work, hsent, if_true]

/-- A FERRY without its neighbour's word ends, unless a domain has to wake first. -/
theorem exec_ferryWaitTimeout_ends {s t : State} {id : Nat} {o : Op} {i : Inst} (h : s.Running id 0 0x0603 o i)
    (hsent : o.num Lab.sent = 1) (hends : s.ferryFails o Code.collTimeout none = some t) :
    exec (.ferryWaitTimeout id) s = .next t.hawserOn := by
  show execFerryWaitTimeout id s = _
  simp only [execFerryWaitTimeout, h.work, hsent, if_true, hends]

theorem exec_ferryWaitTimeout_waits {s : State} {id : Nat} {o : Op} {i : Inst} (h : s.Running id 0 0x0603 o i)
    (hsent : o.num Lab.sent = 1) (hwaits : s.ferryFails o Code.collTimeout none = none) :
    exec (.ferryWaitTimeout id) s = .next s := by
  show execFerryWaitTimeout id s = _
  simp only [execFerryWaitTimeout, h.work, hsent, if_true, hwaits]

/-- A FERRY that can read its group record and its entry, and pack its block. -/
theorem exec_ferry_starts {s : State} {id : Nat} {o : Op} {i : Inst} {r b : List Byte} {poison bad : Bool} {d1 d : Data}
    (h : s.Running id 0 0x0603 o i) (hsent : o.num Lab.sent ≠ 1) (hheld : s.seqHeld o = false)
    (hrecord : s.groupRecord (collGroup o.desc) = some r)
    (hentry : s.run (readBytes (s.envOf o) ⟨none, o.pin.toNat⟩ (addrField (o.record Lab.hawser) 16) 128) = some (.ok (b, poison), d1))
    (hpack : ({ s with dp := d1 }).run (packBlock s (s.envOf o) ⟨none, o.pin.toNat⟩ o.desc (enId b) (grOwn r)
      (if poison || entryMalformed false b then none
        else s.ferryLocal { o with recs := tput o.recs Lab.entry b } b)) = some (.ok bad, d)) :
    exec (.ferry id) s = .next (((({ s with dp := d }).updOp id fun o => { o with recs := tput o.recs Lab.entry b }).mark
      id Lab.sent 1).startFerry { o with recs := tput o.recs Lab.entry b, nums := tput o.nums Lab.sent 1 } r) := by
  show execFerry id s = _
  simp only [execFerry, h.work, hsent, hheld, Bool.false_eq_true, if_false, State.readGroup_of_groupRecord hrecord, hentry]
  rw [hpack]

/-- The ring of a FERRY: the members that are not lost (R339). -/
theorem State.mem_newFerry_ring (s : State) (o : Op) (r : List Byte) (k : Nat) :
    k ∈ (s.newFerry o r).ring ↔ k < grMembers r ∧ s.lostRank (collGroup o.desc) r k = false := by
  simp only [State.newFerry, grActive, List.mem_filter, List.mem_range, State.lostRank, Bool.not_eq_true', Bool.or_eq_false_iff]
  exact ⟨fun ⟨⟨hmember, _⟩, hlost⟩ => ⟨hmember, hlost⟩, fun ⟨hmember, hlost⟩ => ⟨⟨hmember, hlost.1⟩, hlost⟩⟩

/-! ### REGROUP (R338) -/

theorem exec_regroup_held {s : State} {id : Nat} {o : Op} {i : Inst} (h : s.Running id 0 0x0604 o i)
    (hbusy : s.groupBusy (collGroup o.desc) = true) : exec (.regroup id) s = .next s := by
  show execRegroup id s = _
  simp only [execRegroup, h.work, hbusy, if_true]

/-- The record that a REGROUP writes: its own fields, READY, and the ranks, with the bitmaps empty. -/
def regroupWork (s : State) (o : Op) : M Unit := do
  let e := s.envOf o
  let a : Acc := ⟨none, o.pin.toNat⟩
  let va := (s.group (collGroup o.desc)).addr.toNat
  let src := o.record Lab.hawser
  let last := BitVec.ofNat 32 (field o.desc 32 4) - (1 : Word)
  let w1 ← putBytes e a va (slice src 0 8 ++ natLE 4 last.toNat)
  let w2 ← putBytes e a (va + 16) [0]
  let w3 ← putBytes e a (va + 64) (slice src 64 8192 ++ zeros 1024)
  writeAll e (w1 ++ w2 ++ w3)

/-- A group that is at rest again: of all it holds, its record's address stays. -/
def State.clearGroup (s : State) (g : Nat) : State :=
  s.updGroup g fun x => { x with steps := [], contribs := [], ready := [], closes := [], keptFree := [], ferry := none }

/-- A REGROUP of a group that rests writes its record, discards what the group holds, and ends. -/
theorem exec_regroup {s : State} {id : Nat} {o : Op} {i : Inst} {d : Data} (h : s.Running id 0 0x0604 o i)
    (hrest : s.groupBusy (collGroup o.desc) = false) (hwork : s.run (regroupWork s o) = some (.ok (), d)) :
    exec (.regroup id) s = .next (((({ s with dp := d }).discardContribs (s.group (collGroup o.desc)).contribs).clearGroup
      (collGroup o.desc)).finish id 0 0 0) := by
  unfold regroupWork at hwork
  show execRegroup id s = _
  simp only [execRegroup, h.work, hrest, Bool.false_eq_true, if_false, hwork, State.endHawser, h.id_eq]
  rfl

/-- A group that was cleared, among the others. -/
theorem State.group_clearGroup (s : State) (g k : Nat) : (s.clearGroup g).group k =
    if k = g then { Group.reset with addr := (s.group g).addr } else s.group k := State.group_updGroup s g k _

/-- Discarded contributions are counted (R334). -/
theorem State.discardContribs_count (s : State) (cs : List Contrib) : (s.discardContribs cs).count Evt.collDropped
    = s.count Evt.collDropped + BitVec.ofNat 48 cs.length :=
  (State.count_bump _ _ _ _).trans (if_pos rfl)

/-- What REGROUP leaves. -/
theorem regroup_ends {s : State} {id : Nat} {o : Op} {i : Inst} {d : Data} (h : s.Running id 0 0x0604 o i)
    (hrest : s.groupBusy (collGroup o.desc) = false) (hwork : s.run (regroupWork s o) = some (.ok (), d)) :
    ∃ t, exec (.regroup id) s = .next t ∧ s.Ended t id 0 0 0
      ∧ t.count Evt.collDropped = tget 0 d.evts Evt.collDropped + BitVec.ofNat 48 (s.group (collGroup o.desc)).contribs.length
      ∧ t.group (collGroup o.desc) = { Group.reset with addr := (s.group (collGroup o.desc)).addr }
      ∧ ∀ g, g ≠ collGroup o.desc → t.group g = s.group g := by
  refine ⟨_, exec_regroup h hrest hwork, State.finish_ended_of rfl rfl _ _ _ _, ?_, ?_, fun g hg => ?_⟩
  · exact State.discardContribs_count { s with dp := d } _
  · exact (State.group_clearGroup _ _ _).trans (if_pos rfl)
  · exact (State.group_clearGroup _ _ _).trans (if_neg hg)

/-- The operations of class 0x06. -/
theorem hawserOperations : Claim.HawserOperations := by
  refine ⟨fun s id o i h hsent => ⟨exec_put_unreachable h hsent, fun ls d hpeer hread => exec_put_sends h hsent hpeer hread⟩,
    fun s id o i r h hsent hheld hrecord => exec_allreduce_contributes h hsent hheld hrecord,
    fun s id o i h => ⟨exec_allreduce_sent h, fun f hsent hheld hread => exec_allreduce_faults h hsent hheld hread⟩,
    fun s id o i h hsent => ⟨exec_ferry_sent h hsent, fun t hends => exec_ferryWaitTimeout_ends h hsent hends,
      exec_ferryWaitTimeout_waits h hsent⟩,
    fun s id o i r b poison bad d1 d h hsent hheld hrecord hentry hpack => exec_ferry_starts h hsent hheld hrecord hentry hpack,
    fun s o r => ⟨rfl, rfl, rfl, State.mem_newFerry_ring s o r⟩,
    fun s id o i h => ⟨exec_regroup_held h, fun d hrest hwork => regroup_ends h hrest hwork⟩⟩

/-! ### Deadlines (R332, R336) -/

/-- The leader's deadline closes its oldest step that is not closed. -/
theorem exec_deadlineClose {s : State} {g : Nat} {r : List Byte} {c : CollStep} (hg : g < 16) (hrecord : s.groupRecord g = some r)
    (hleader : grOwn r = grLeader r)
    (hstep : ((s.group g).steps.find? fun c => c.close.isNone && !((s.group g).closes.any fun x => x.1 == c.step)) = some c) :
    exec (.deadlineClose g) s = .next (s.closeStep g r c).hawserOn := by
  refine (guarded_of hg _).trans ?_
  simp only [hrecord, hstep, hleader, if_true]

/-- The leader has no timeout. -/
theorem exec_collTimeout_leader {s : State} {id : Nat} {o : Op} {i : Inst} {r : List Byte} (h : s.Running id 0 0x0602 o i)
    (hrecord : s.groupRecord (collGroup o.desc) = some r) (hleader : grOwn r = grLeader r) : exec (.collTimeout id) s = .next s := by
  show execCollTimeout id s = _
  simp only [execCollTimeout, h.work, hrecord, hleader, if_true]

/-- A member whose close does not come poisons its results, stalls its group and ends. -/
theorem exec_collTimeout {s : State} {id : Nat} {o : Op} {i : Inst} {r : List Byte} {c : CollStep} {d : Data}
    (h : s.Running id 0 0x0602 o i) (hrecord : s.groupRecord (collGroup o.desc) = some r) (hmember : grOwn r ≠ grLeader r)
    (hstep : (s.group (collGroup o.desc)).step? (collNumber o.desc) = some c) (hopen : c.close = none) (hdone : c.done = false)
    (hwork : s.run (M.both (poisonResults s o c (grOwn r)) (groupPut s (collGroup o.desc) 16 [1])) = some (.ok (), d)) :
    exec (.collTimeout id) s = .next ((({ s with dp := d }).stepDone (collGroup o.desc)
      (collNumber o.desc)).endHawser o Code.collTimeout 0).hawserOn := by
  show execCollTimeout id s = _
  simp only [execCollTimeout, h.work, hrecord, hmember, hstep, hopen, hdone, Option.isSome_none, Bool.or_self, Bool.false_eq_true,
    if_false, hwork]

/-- The deadlines of a collective. -/
theorem collectiveDeadlines : Claim.CollectiveDeadlines := by
  refine ⟨fun s g r c hg hrecord hleader hstep => exec_deadlineClose hg hrecord hleader hstep,
    fun s id o i r c h hrecord => ⟨exec_collTimeout_leader h hrecord,
      fun d hmember hstep hopen hdone hwork => exec_collTimeout h hrecord hmember hstep hopen hdone hwork⟩,
    fun s o hlost hout => ⟨fun htaken => ?_, fun hrefused => ?_⟩⟩
  · rw [State.settlePut_acknowledged hlost hout, if_neg htaken]
    rfl
  · rw [State.settlePut_acknowledged hlost hout, if_pos hrefused]
    rfl

/-- Settles O54: each command by the branch that its hypotheses name. -/
theorem hawserWork : Obligations.HawserWork := ⟨hawserOperations, collectiveDeadlines⟩

end Sys2Proof.Machine
end

