-- ==== Sys2Proof/Proofs/Mailboxes.lean ====
section
/-!
PROOFS. The mailboxes (12 R377 to R386): what a refused access and a notification leave alone, what SEND and ACK leave, the balance of
messages, the commands of a channel and of its lock.
-/

namespace Sys2Proof.Machine

/-! ### The commands -/

/-- A guarded command that goes on names something the module has. -/
theorem next_of_guarded {c : Bool} {s t : State} (h : guarded c s = .next t) : c = true ∧ t = s := by
  cases c
  · cases h
  · cases h
    exact ⟨rfl, rfl⟩

theorem exec_mbxWordWrite {c w : Nat} (hc : c < 64) (hw : w < 8) (m : Byte) (v : Reg) (s : State) :
    exec (.mbxWordWrite m c w v) s = .next (s.writeMsg m c w v (BitVec.allOnes 64)) := by
  show execMbxWordWrite m c w v s = _
  simp [execMbxWordWrite, guarded, hc, hw]

theorem exec_send {c : Nat} (hc : c < 64) (m : Byte) (v : Reg) (s : State) :
    exec (.send m c v) s = .next (s.writeMbxCtl m c (v ||| 1) (BitVec.allOnes 64)) := guarded_of hc _

theorem exec_ackMessage {c : Nat} (hc : c < 64) (m : Byte) (v : Reg) (s : State) :
    exec (.ackMessage m c v) s = .next (s.writeMbxCtl m c (v ||| 2) (BitVec.allOnes 64)) := guarded_of hc _

theorem exec_acquire {c : Nat} (huser : 48 ≤ c) (hc : c < 64) (m peer : Byte) (s : State) :
    exec (.acquire m c peer) s = .next (s.acquire m c peer) := by
  show execAcquire m c peer s = _
  simp [execAcquire, guarded, huser, hc]

theorem exec_lockRelease {c : Nat} (huser : 48 ≤ c) (hc : c < 64) (m : Byte) (s : State) :
    exec (.lockRelease m c) s = .next (s.unlock m c) := by
  show execLockRelease m c s = _
  simp [execLockRelease, guarded, huser, hc]

/-! ### Channels -/

/-- A channel after one was changed. -/
theorem State.chan_updChan (s : State) (c k : Nat) (f : Chan → Chan) :
    (s.updChan c f).chan k = if k = c then f (s.chan c) else s.chan k := by
  by_cases h : k = c
  · subst h
    simp [State.chan]
  · rw [if_neg h]
    exact tget_tput_other _ _ _ _ _ h

@[simp] theorem State.updChan_count (s : State) (c k : Nat) (f : Chan → Chan) : (s.updChan c f).count k = s.count k := rfl

/-- The channels are read from the mailbox block's table. -/
theorem State.chan_congr {s t : State} (h : t.mbx.chans = s.mbx.chans) (c : Nat) : t.chan c = s.chan c := by
  rw [State.chan, State.chan, h]

/-! Setting the vector and the interrupt enables keeps the rest of a channel. -/

@[simp] theorem Chan.config_full (k : Chan) (m : Byte) (v mask : Reg) : (k.config m v mask).full = k.full := rfl
@[simp] theorem Chan.config_seq (k : Chan) (m : Byte) (v mask : Reg) : (k.config m v mask).seq = k.seq := rfl
@[simp] theorem Chan.config_words (k : Chan) (m : Byte) (v mask : Reg) : (k.config m v mask).words = k.words := rfl

/-- A write of all bits of a register stores the value. -/
@[simp] theorem mergeReg_allOnes (old v : Reg) : mergeReg old v (BitVec.allOnes 64) = v := by
  rw [mergeReg, BitVec.not_allOnes, BitVec.and_zero, BitVec.zero_or, BitVec.and_allOnes]

/-- A bit of a word. -/
theorem bit_toNat {n : Nat} (x : BitVec n) (i : Nat) : bit x.toNat i = x.getLsbD i := by
  rw [bit, BitVec.getLsbD, Nat.testBit_eq_decide_div_mod_eq, Nat.shiftRight_eq_div_pow]
  rfl

/-- A bit of the operand of SEND or ACK, with the command's own bits set. -/
theorem bit_or_toNat {n : Nat} (x y : BitVec n) (i : Nat) : bit (x ||| y).toNat i = (bit x.toNat i || bit y.toNat i) := by
  simp only [bit_toNat, BitVec.getLsbD_or]

/-! ### Refused accesses (R377, R382, R383) -/

@[simp] theorem State.busError_host (s : State) : s.busError 1 = s := if_pos rfl

/-- An internal master sees a bus error. -/
theorem State.busError_internal {m : Byte} (h : m ≠ 1) (s : State) : s.busError m = { s with out := .busError m :: s.out } := if_neg h

@[simp] theorem State.busError_mbx (s : State) (m : Byte) : (s.busError m).mbx = s.mbx := by
  unfold State.busError
  split <;> rfl

@[simp] theorem State.busError_count (s : State) (m : Byte) (k : Nat) : (s.busError m).count k = s.count k := by
  unfold State.busError
  split <;> rfl

/-- The report to the host: one advisory error. -/
theorem State.mbxReport_host (s : State) (c code : Nat) :
    s.mbxReport 1 c code = { s.logEvent code 1 c 1 with out := .aer :: s.out } := if_pos rfl

/-- Of an internal master nothing is reported. -/
theorem State.mbxReport_internal {m : Byte} (h : m ≠ 1) (s : State) (c code : Nat) : s.mbxReport m c code = s := if_neg h

@[simp] theorem State.mbxReport_mbx (s : State) (m : Byte) (c code : Nat) : (s.mbxReport m c code).mbx = s.mbx := by
  unfold State.mbxReport
  split <;> rfl

@[simp] theorem State.mbxReport_count (s : State) (m : Byte) (c code k : Nat) : (s.mbxReport m c code).count k = s.count k := by
  unfold State.mbxReport
  split
  · exact State.logEvent_count s code m.toNat c m.toNat k
  · rfl

/-- What the master of a rejected write sees. -/
theorem State.mbxReject_out (s : State) (m : Byte) (c : Nat) :
    (s.mbxReject m c).out = (if m = 1 then .aer else .busError m) :: s.out := by
  by_cases hhost : m = 1
  · subst hhost
    rw [State.mbxReject, State.busError_host, State.mbxReport_host, if_pos rfl]
    rfl
  · rw [State.mbxReject, State.mbxReport_internal hhost, State.busError_internal hhost, if_neg hhost]
    rfl

/-- A rejection is counted. -/
theorem State.mbxReject_count (s : State) (m : Byte) (c : Nat) :
    (s.mbxReject m c).count Evt.mbxRejectFull = s.count Evt.mbxRejectFull + 1 := by
  simp [State.mbxReject, State.count_bump]

/-! ### Message words (R380) -/

section
variable {s : State} {m : Byte} {c : Nat} (hon : s.bufferOff c = false)
include hon

/-- The sender of an EMPTY channel writes its words. -/
theorem State.writeMsg_empty (hparty : m ≠ 0#8) (hsender : m = s.mbxSender c) (hempty : (s.chan c).full = false) (w : Nat) (v : Reg) :
    s.writeMsg m c w v (BitVec.allOnes 64) = s.updChan c fun k => { k with words := k.words.set w v } := by
  simp [State.writeMsg, hon, ← hsender, hparty, hempty, -BitVec.reduceAllOnes]

/-- It is rejected while the channel is FULL. -/
theorem State.writeMsg_full (hparty : m ≠ 0#8) (hsender : m = s.mbxSender c) (hfull : (s.chan c).full = true) (w : Nat) (v mask : Reg) :
    s.writeMsg m c w v mask = s.mbxReject m c := by
  simp [State.writeMsg, hon, ← hsender, hparty, hfull]

/-- Any other master is denied. -/
theorem State.writeMsg_denied (hother : m ≠ s.mbxSender c) (w : Nat) (v mask : Reg) : s.writeMsg m c w v mask = s.mbxDeny m := by
  simp [State.writeMsg, hon, hother]

end

/-- Who writes a channel's words, and what any other write comes to. -/
theorem mailboxWords : Claim.MailboxWords := by
  intro s m c w v hc hw hon
  rw [exec_mbxWordWrite hc hw]
  refine ⟨fun hparty hsender hempty => ?_, fun hother => ?_, fun hparty hsender hfull => ?_⟩
  · rw [State.writeMsg_empty hon hparty hsender hempty]
  · rw [State.writeMsg_denied hon hother, State.mbxDeny]
    refine ⟨fun hhost => ?_, fun hinternal => ?_⟩
    · rw [hhost, State.busError_host]
    · rw [State.busError_internal hinternal]
      rfl
  · rw [State.writeMsg_full hon hparty hsender hfull]
    exact ⟨_, rfl, by simp [State.mbxReject], State.mbxReject_count s m c, State.mbxReject_out s m c⟩

/-! ### Notifications (R381) -/

/-- From s to t only the mailboxes, the event counters and what interrupts change have changed. -/
def State.SameButMailboxes (s t : State) : Prop :=
  ∃ mbx evts hst pci out, t = { s with mbx := mbx, dp := { s.dp with evts := evts }, hst := hst, pci := pci, out := out }

namespace State.SameButMailboxes

theorem refl (s : State) : s.SameButMailboxes s := ⟨s.mbx, s.dp.evts, s.hst, s.pci, s.out, rfl⟩

theorem trans {s t u : State} (h : s.SameButMailboxes t) (h' : t.SameButMailboxes u) : s.SameButMailboxes u := by
  obtain ⟨_, _, _, _, _, rfl⟩ := h
  obtain ⟨mbx, evts, hst, pci, out, rfl⟩ := h'
  exact ⟨mbx, evts, hst, pci, out, rfl⟩

theorem mbx (s : State) (b : Mbx) : s.SameButMailboxes { s with mbx := b } := ⟨b, s.dp.evts, s.hst, s.pci, s.out, rfl⟩

theorem updChan (s : State) (c : Nat) (f : Chan → Chan) : s.SameButMailboxes (s.updChan c f) := mbx s _

theorem bump (s : State) (off n : Nat) : s.SameButMailboxes (s.bump off n) :=
  ⟨s.mbx, (s.bump off n).dp.evts, s.hst, s.pci, s.out, State.bump_eq s off n⟩

theorem msix (s : State) (v : Nat) : s.SameButMailboxes (s.msix v) := by
  simp only [State.msix, State.sendMsix]
  split
  · split
    · exact ⟨s.mbx, s.dp.evts, s.hst, _, s.out, rfl⟩
    · exact ⟨s.mbx, s.dp.evts, s.hst, s.pci, _, rfl⟩
  · exact ⟨s.mbx, s.dp.evts, _, s.pci, s.out, rfl⟩

/-- The rest of the module is as it was. -/
theorem eq {s t : State} (h : s.SameButMailboxes t) :
    t = { s with mbx := t.mbx, dp := { s.dp with evts := t.dp.evts }, hst := t.hst, pci := t.pci, out := t.out } := by
  obtain ⟨_, _, _, _, _, rfl⟩ := h
  rfl

end State.SameButMailboxes

/-- What a notification leaves: the channels, and every counter but that of wakes. -/
structure State.Notified (s t : State) : Prop where
  chans : t.mbx.chans = s.mbx.chans
  counts : ∀ k, k ≠ Evt.mbxWake → t.count k = s.count k
  rest : s.SameButMailboxes t

namespace State.Notified

theorem refl (s : State) : s.Notified s := ⟨rfl, fun _ _ => rfl, .refl s⟩

theorem trans {s t u : State} (h : s.Notified t) (h' : t.Notified u) : s.Notified u :=
  ⟨h'.chans.trans h.chans, fun k hk => (h'.counts k hk).trans (h.counts k hk), h.rest.trans h'.rest⟩

theorem deliver (s : State) (n : Notice) : s.Notified (s.deliver n) := ⟨rfl, fun _ _ => rfl, .mbx s _⟩

theorem wait (s : State) (l : List Notice) : s.Notified { s with mbx := { s.mbx with waiting := l } } :=
  ⟨rfl, fun _ _ => rfl, .mbx s _⟩

theorem wake (s : State) : s.Notified (s.bump Evt.mbxWake 1) := ⟨rfl, fun _ hk => State.count_bump_other s 1 hk, .bump s _ _⟩

theorem msix (s : State) (v : Nat) : s.Notified (s.msix v) := by
  have hkept : (s.msix v).mbx = s.mbx ∧ (s.msix v).dp = s.dp := by
    simp only [State.msix, State.sendMsix]
    split
    · split <;> exact ⟨rfl, rfl⟩
    · exact ⟨rfl, rfl⟩
  obtain ⟨hmbx, hdp⟩ := hkept
  exact ⟨by rw [hmbx], fun k _ => by simp only [State.count, hdp], .msix s v⟩

/-- An agent whose domain is on or powers down is told now, one in slack or powering up later, and one that is off not at all. -/
theorem notifyAgent (s : State) (n : Notice) : s.Notified (s.notifyAgent n) := by
  unfold State.notifyAgent
  split
  · exact deliver s n
  · dsimp only
    split
    · exact deliver s n
    · exact deliver s n
    · exact refl s
    · exact wait s _
    · split
      · exact wait s _
      · exact (wake s).trans (wait _ _)

theorem notifyParty (s : State) (m : Byte) (c : Nat) (full : Bool) : s.Notified (s.notifyParty m c full) := by
  unfold State.notifyParty
  dsimp only
  split
  · generalize (if full then _ else _) = enabled
    split
    · exact msix s _
    · exact refl s
  · split
    · exact refl s
    · exact notifyAgent s _

end State.Notified

/-! ### SEND and ACK (R380) -/

/-- A channel whose message is posted to a party. -/
def Chan.posted (k : Chan) (party : Byte) : Chan := { k with full := true, seq := k.seq + 1, ackBy := party }

/-- A channel whose message is acknowledged. -/
def Chan.emptied (k : Chan) : Chan := { k with words := List.replicate 8 0, full := false, ackBy := 0 }

/-- SEND posts the message, counts it and notifies its receiver. -/
theorem State.sendMsg_notified (s : State) (c : Nat) :
    ((s.updChan c (·.posted (s.mbxReceiver c))).bump Evt.mbxSent 1).Notified (s.sendMsg c) := .notifyParty _ _ _ _

/-- ACK empties the channel, counts it and notifies the sender. -/
theorem State.ackMsg_notified (s : State) (c : Nat) :
    ((s.updChan c Chan.emptied).bump Evt.mbxAcked 1).Notified (s.ackMsg c) := .notifyParty _ _ _ _

/-- The channels after a change of one that is counted and notified. -/
theorem State.Notified.chan {s t : State} {c off : Nat} {f : Chan → Chan} (h : ((s.updChan c f).bump off 1).Notified t) (k : Nat) :
    t.chan k = if k = c then f (s.chan c) else s.chan k := by
  rw [State.chan_congr h.chans]
  exact State.chan_updChan s c k f

/-- The counter of the change. -/
theorem State.Notified.count_same {s t : State} {c off : Nat} {f : Chan → Chan} (h : ((s.updChan c f).bump off 1).Notified t)
    (hoff : off ≠ Evt.mbxWake) : t.count off = s.count off + 1 := by
  rw [h.counts off hoff, State.count_bump, if_pos rfl]
  rfl

/-- The other counters but that of wakes. -/
theorem State.Notified.count_other {s t : State} {c off k : Nat} {f : Chan → Chan} (h : ((s.updChan c f).bump off 1).Notified t)
    (hwake : k ≠ Evt.mbxWake) (hk : k ≠ off) : t.count k = s.count k :=
  (h.counts k hwake).trans (State.count_bump_other _ 1 hk)

/-- The rest of the module after it. -/
theorem State.Notified.sameButMailboxes {s t : State} {c off : Nat} {f : Chan → Chan}
    (h : ((s.updChan c f).bump off 1).Notified t) : s.SameButMailboxes t :=
  ((State.SameButMailboxes.updChan s c f).trans (.bump _ off 1)).trans h.rest

section
variable {s : State} {m : Byte} {c : Nat} {v mask : Reg} (hon : s.bufferOff c = false) (hparty : m ≠ 0#8)
include hon hparty

/-- A write of MBX_CTL_c by the sender that posts alone, of an EMPTY channel whose receiver is not off. -/
theorem State.writeMbxCtl_posts (hsender : m = s.mbxSender c) (hempty : (s.chan c).full = false)
    (hreceiver : s.partyOff (s.mbxReceiver c) = false) (hpost : bit (v &&& mask).toNat 0 = true)
    (hack : bit (v &&& mask).toNat 1 = false) : s.writeMbxCtl m c v mask = (s.updChan c (·.config m v mask)).sendMsg c := by
  simp [State.writeMbxCtl, hon, hparty, ← hsender, hempty, hreceiver, hpost, hack, -BitVec.toNat_and]

/-- One by the receiver that acknowledges alone, of a FULL channel whose sender is not off. -/
theorem State.writeMbxCtl_acks (hacker : m = s.mbxAcker c) (hfull : (s.chan c).full = true)
    (hsender : s.partyOff (s.mbxSender c) = false) (hpost : bit (v &&& mask).toNat 0 = false)
    (hack : bit (v &&& mask).toNat 1 = true) : s.writeMbxCtl m c v mask = (s.updChan c (·.config m v mask)).ackMsg c := by
  have hkept : ((s.updChan c (·.config m v mask)).chan c).full = true := by simp [State.chan_updChan, hfull]
  simp [State.writeMbxCtl, hon, hparty, ← hacker, hsender, hpost, hack, hkept, -BitVec.toNat_and]

end

/-- SEND and ACK change their channel, each with its counter. -/
theorem mailboxHandshake : Claim.MailboxHandshake := by
  intro s m c v hc hon hparty
  refine ⟨fun hsender hempty hreceiver hbit => ?_, fun hacker hfull hsender hbit => ?_⟩
  · have hpost : bit ((v ||| 1) &&& BitVec.allOnes 64).toNat 0 = true := by
      rw [BitVec.and_allOnes, bit_or_toNat]
      exact Bool.or_eq_true_iff.mpr (.inr rfl)
    have hack : bit ((v ||| 1) &&& BitVec.allOnes 64).toNat 1 = false := by
      rw [BitVec.and_allOnes, bit_or_toNat, hbit]
      rfl
    rw [exec_send hc, State.writeMbxCtl_posts hon hparty hsender hempty hreceiver hpost hack]
    generalize v ||| 1 = v, BitVec.allOnes 64 = mask
    have hnotified := (s.updChan c (·.config m v mask)).sendMsg_notified c
    refine ⟨_, rfl, ?_, ?_, ?_, fun k hk => ?_, ?_, ?_, ?_⟩
    · simp [hnotified.chan, Chan.posted]
    · simp [hnotified.chan, Chan.posted, State.chan_updChan]
    · simp [hnotified.chan, Chan.posted, State.chan_updChan]
    · simp [hnotified.chan, State.chan_updChan, hk]
    · exact hnotified.count_same (by decide)
    · exact hnotified.count_other (by decide) (by decide)
    · exact ((State.SameButMailboxes.updChan s c _).trans hnotified.sameButMailboxes).eq
  · have hpost : bit ((v ||| 2) &&& BitVec.allOnes 64).toNat 0 = false := by
      rw [BitVec.and_allOnes, bit_or_toNat, hbit]
      rfl
    have hack : bit ((v ||| 2) &&& BitVec.allOnes 64).toNat 1 = true := by
      rw [BitVec.and_allOnes, bit_or_toNat]
      exact Bool.or_eq_true_iff.mpr (.inr rfl)
    rw [exec_ackMessage hc, State.writeMbxCtl_acks hon hparty hacker hfull hsender hpost hack]
    generalize v ||| 2 = v, BitVec.allOnes 64 = mask
    have hnotified := (s.updChan c (·.config m v mask)).ackMsg_notified c
    refine ⟨_, rfl, ?_, ?_, ?_, fun k hk => ?_, ?_, ?_, ?_⟩
    · simp [hnotified.chan, Chan.emptied]
    · simp [hnotified.chan, Chan.emptied]
    · simp [hnotified.chan, Chan.emptied, State.chan_updChan]
    · simp [hnotified.chan, State.chan_updChan, hk]
    · exact hnotified.count_same (by decide)
    · exact hnotified.count_other (by decide) (by decide)
    · exact ((State.SameButMailboxes.updChan s c _).trans hnotified.sameButMailboxes).eq

/-! ### Locks (R386) -/

/-- A buffer is not off while the mesh is on. -/
theorem State.bufferOff_of_meshOn {s : State} (h : s.pwr.meshOn = true) (c : Nat) : s.bufferOff c = false := by
  simp [State.bufferOff, h]

/-- The lock of a user channel; that an ACQUIRE of a held lock contends for its holder too is log entry 43. -/
theorem locksChangeHands : Claim.LocksChangeHands := by
  intro s m peer c huser hc hmesh
  have hon := State.bufferOff_of_meshOn hmesh c
  rw [exec_acquire huser hc, exec_lockRelease huser hc]
  refine ⟨fun hfree hpeer => ?_, fun hheld => ?_, fun hempty hmay => ?_, fun hfull => ?_⟩
  · simp [State.acquire, hon, hfree, hpeer]
  · simp [State.acquire, hon, hheld]
  · rcases hmay with ⟨hheld, howner⟩ | hharbour
    · simp [State.unlock, hon, hempty, hheld, howner]
    · simp [State.unlock, hon, hempty, hharbour]
  · simp [State.unlock, hon, hfull]

/-- Settles O37: the words by the three answers of their write, the handshake by the change that SEND and ACK notify, the lock by the
branches of its two writes. -/
theorem mailboxes : Obligations.Mailboxes := ⟨mailboxWords, mailboxHandshake, locksChangeHands⟩

/-! ### The balance of messages (R385) -/

/-- MBX_SENT less MBX_ACKED less the number of FULL channels. -/
def State.balance (s : State) : BitVec 48 :=
  s.count Evt.mbxSent - s.count Evt.mbxAcked - BitVec.ofNat 48 (fullChannels s)

/-- It is read from the FULL flags and the two counters. -/
theorem State.balance_congr {s t : State} (hfull : ∀ k, (t.chan k).full = (s.chan k).full)
    (hsent : t.count Evt.mbxSent = s.count Evt.mbxSent) (hacked : t.count Evt.mbxAcked = s.count Evt.mbxAcked) :
    t.balance = s.balance := by
  simp only [State.balance, fullChannels, hfull, hsent, hacked]

/-- It stays when the mailbox block and the two counters stay. -/
theorem State.balance_of_mbx {s t : State} (hmbx : t.mbx = s.mbx) (hsent : t.count Evt.mbxSent = s.count Evt.mbxSent)
    (hacked : t.count Evt.mbxAcked = s.count Evt.mbxAcked) : t.balance = s.balance :=
  State.balance_congr (fun k => by rw [State.chan_congr (congrArg Mbx.chans hmbx)]) hsent hacked

/-- Another event. -/
theorem State.bump_balance (s : State) {off : Nat} (hsent : off ≠ Evt.mbxSent) (hacked : off ≠ Evt.mbxAcked) :
    (s.bump off 1).balance = s.balance :=
  State.balance_of_mbx rfl (State.count_bump_other s 1 hsent.symm) (State.count_bump_other s 1 hacked.symm)

@[simp] theorem State.busError_balance (s : State) (m : Byte) : (s.busError m).balance = s.balance :=
  State.balance_of_mbx (by simp) (by simp) (by simp)

@[simp] theorem State.mbxReport_balance (s : State) (m : Byte) (c code : Nat) : (s.mbxReport m c code).balance = s.balance :=
  State.balance_of_mbx (by simp) (by simp) (by simp)

/-! No refused access changes it. -/

@[simp] theorem State.mbxOff_balance (s : State) (m : Byte) (c : Nat) : (s.mbxOff m c).balance = s.balance := by
  rw [State.mbxOff, State.busError_balance, State.mbxReport_balance]
  exact s.bump_balance (by decide) (by decide)

@[simp] theorem State.mbxReject_balance (s : State) (m : Byte) (c : Nat) : (s.mbxReject m c).balance = s.balance := by
  rw [State.mbxReject, State.busError_balance, State.mbxReport_balance]
  exact s.bump_balance (by decide) (by decide)

@[simp] theorem State.mbxDeny_balance (s : State) (m : Byte) : (s.mbxDeny m).balance = s.balance := by
  rw [State.mbxDeny, State.busError_balance]
  exact s.bump_balance (by decide) (by decide)

/-- A change of a channel that keeps its FULL flag. -/
theorem State.updChan_balance (s : State) (c : Nat) {f : Chan → Chan} (hf : ∀ k, (f k).full = k.full) :
    (s.updChan c f).balance = s.balance := by
  refine State.balance_congr (fun k => ?_) rfl rfl
  rw [State.chan_updChan]
  split
  · subst k; exact hf _
  · rfl

/-- One number more of a range passes a test that differs from another at that number alone. -/
theorem length_filter_range_succ {p q : Nat → Bool} {c n : Nat} (hc : c < n) (hp : p c = false) (hq : q c = true)
    (hother : ∀ k, k ≠ c → q k = p k) : ((List.range n).filter q).length = ((List.range n).filter p).length + 1 := by
  induction n with
  | zero => exact absurd hc (Nat.not_lt_zero c)
  | succ n ih =>
    simp only [List.range_succ, List.filter_append, List.length_append]
    by_cases hlast : c = n
    · have hbelow : (List.range n).filter q = (List.range n).filter p :=
        List.filter_congr fun k hk => hother k (by have := List.mem_range.mp hk; omega)
      rw [hbelow]
      simp [← hlast, hp, hq]
    · have hrest := ih (by omega)
      simp only [List.filter, hother n (Ne.symm hlast)]
      omega

/-- A channel that is FULL in t and not in s makes one FULL channel more. -/
theorem fullChannels_succ {s t : State} {c : Nat} (hc : c < 64) (hempty : (s.chan c).full = false) (hfull : (t.chan c).full = true)
    (hother : ∀ k, k ≠ c → (t.chan k).full = (s.chan k).full) : fullChannels t = fullChannels s + 1 :=
  length_filter_range_succ hc hempty hfull hother

/-- A SEND on an EMPTY channel counts the message that fills it. -/
theorem State.sendMsg_balance {s : State} {c : Nat} (hc : c < 64) (hempty : (s.chan c).full = false) :
    (s.sendMsg c).balance = s.balance := by
  have hnotified := s.sendMsg_notified c
  have hfull : fullChannels (s.sendMsg c) = fullChannels s + 1 :=
    fullChannels_succ hc hempty (by simp [hnotified.chan, Chan.posted]) fun k hk => by simp [hnotified.chan, hk]
  have hsent : (s.sendMsg c).count Evt.mbxSent = s.count Evt.mbxSent + 1 := hnotified.count_same (by decide)
  have hacked : (s.sendMsg c).count Evt.mbxAcked = s.count Evt.mbxAcked :=
    hnotified.count_other (by decide) (by decide)
  simp only [State.balance, hfull, hsent, hacked, BitVec.ofNat_add]
  bv_omega

/-- An ACK of a FULL channel counts the message that leaves it. -/
theorem State.ackMsg_balance {s : State} {c : Nat} (hc : c < 64) (hfull : (s.chan c).full = true) :
    (s.ackMsg c).balance = s.balance := by
  have hnotified := s.ackMsg_notified c
  have hempty : fullChannels s = fullChannels (s.ackMsg c) + 1 :=
    fullChannels_succ hc (by simp [hnotified.chan, Chan.emptied]) hfull fun k hk => by simp [hnotified.chan, hk]
  have hsent : (s.ackMsg c).count Evt.mbxSent = s.count Evt.mbxSent :=
    hnotified.count_other (by decide) (by decide)
  have hacked : (s.ackMsg c).count Evt.mbxAcked = s.count Evt.mbxAcked + 1 := hnotified.count_same (by decide)
  simp only [State.balance, hempty, hsent, hacked, BitVec.ofNat_add]
  bv_omega

/-! The writes of a channel's page. -/

theorem State.writeMsg_balance (s : State) (m : Byte) (c w : Nat) (v mask : Reg) : (s.writeMsg m c w v mask).balance = s.balance := by
  unfold State.writeMsg
  split
  · exact State.mbxOff_balance s m c
  · split
    · exact State.mbxDeny_balance s m
    · split
      · exact State.mbxReject_balance s m c
      · exact State.updChan_balance s c fun _ => rfl

/-- SEND takes effect on an EMPTY channel alone, ACK on a FULL one. -/
theorem State.writeMbxCtl_balance (s : State) (m : Byte) {c : Nat} (hc : c < 64) (v mask : Reg) :
    (s.writeMbxCtl m c v mask).balance = s.balance := by
  have hconfig : (s.updChan c (·.config m v mask)).balance = s.balance := State.updChan_balance s c fun _ => rfl
  unfold State.writeMbxCtl
  dsimp only
  split
  · exact State.mbxOff_balance s m c
  · split
    · exact State.mbxDeny_balance s m
    · split
      · exact State.mbxOff_balance s m c
      · split
        · exact State.mbxReject_balance s m c
        · rename_i hgo
          split
          · rename_i hpost
            have hempty : (s.chan c).full = false := by simpa [hpost, -BitVec.toNat_and] using hgo
            exact (State.sendMsg_balance hc (by simp [State.chan_updChan, hempty])).trans hconfig
          · split
            · rename_i hack
              exact (State.ackMsg_balance hc (Bool.and_eq_true_iff.mp hack).2).trans hconfig
            · exact hconfig

theorem State.acquire_balance (s : State) (m : Byte) (c : Nat) (peer : Byte) : (s.acquire m c peer).balance = s.balance := by
  unfold State.acquire
  split
  · exact State.mbxOff_balance s m c
  · split
    · exact State.bump_balance s (by decide) (by decide)
    · split
      · exact State.bump_balance s (by decide) (by decide)
      · exact State.updChan_balance s c fun _ => rfl

theorem State.unlock_balance (s : State) (m : Byte) (c : Nat) : (s.unlock m c).balance = s.balance := by
  unfold State.unlock
  dsimp only
  split
  · exact State.mbxOff_balance s m c
  · split
    · exact State.bump_balance s (by decide) (by decide)
    · exact State.updChan_balance s c fun _ => rfl

/-- Settles O36: the balance of messages, write by write. -/
theorem mailboxConservation : Obligations.MailboxConservation := by
  intro s t m c w v peer h
  show t.balance = s.balance
  rcases h with hword | hsend | hack | hacquire | hrelease
  · obtain ⟨-, rfl⟩ := next_of_guarded hword
    exact s.writeMsg_balance m c w v _
  · obtain ⟨hc, rfl⟩ := next_of_guarded hsend
    exact s.writeMbxCtl_balance m (of_decide_eq_true hc) _ _
  · obtain ⟨hc, rfl⟩ := next_of_guarded hack
    exact s.writeMbxCtl_balance m (of_decide_eq_true hc) _ _
  · obtain ⟨-, rfl⟩ := next_of_guarded hacquire
    exact s.acquire_balance m c peer
  · obtain ⟨-, rfl⟩ := next_of_guarded hrelease
    exact s.unlock_balance m c

end Sys2Proof.Machine
end

