-- ==== Sys2Proof/Proofs/Dictionary.lean ====
section
/-!
PROOFS. The dictionary agent (13 R390 to R406): what the management port does with a frame, the status and the answer of a read
and of a write, the segments of a transfer.
-/

namespace Sys2Proof.Machine

/-! ### Frames at the port (R390, R391, R393) -/

/-- READ_REQ, WRITE_REQ and DOMAIN_SEGMENT are frames at the management port. -/
theorem exec_mgmtFrame {f : MgmtFrame} {c : Instr} (hc : c ∈ [Instr.readReq f, .writeReq f, .domainSegment f]) (s : State) :
    exec c s = .next (s.mgmtFrame f) := by
  simp only [List.mem_cons, List.not_mem_nil, or_false] at hc
  obtain rfl | rfl | rfl := hc <;> rfl

/-- What the port accepts. -/
theorem State.acceptsFrame_iff (s : State) (f : MgmtFrame) :
    s.acceptsFrame f = true ↔
      (f.dst = s.boot.mgmtMac ∨ f.dst = broadcastMac) ∧ f.etherType = 0x88B5 ∧ f.tagged = false := by
  simp only [State.acceptsFrame, Bool.and_eq_true, Bool.or_eq_true, beq_iff_eq, Bool.not_eq_true', and_assoc]

section
variable {s : State} {f : MgmtFrame}

theorem State.mgmtFrame_unpowered (hoff : s.mgmtOn = false) : s.mgmtFrame f = s := by
  simp [State.mgmtFrame, hoff]

theorem State.mgmtFrame_foreign (hon : s.mgmtOn = true) (hforeign : s.acceptsFrame f = false) : s.mgmtFrame f = s.discardFrame := by
  simp [State.mgmtFrame, hon, hforeign]

theorem State.mgmtFrame_broadcast (hon : s.mgmtOn = true) (hdst : f.dst = broadcastMac) (htype : f.etherType = 0x88B5)
    (htag : f.tagged = false) : s.mgmtFrame f = s.broadcastFrame f := by
  have haccepts : s.acceptsFrame f = true := (s.acceptsFrame_iff f).2 ⟨.inr hdst, htype, htag⟩
  simp [State.mgmtFrame, hon, haccepts, hdst]

theorem State.mgmtFrame_own (hon : s.mgmtOn = true) (hdst : f.dst = s.boot.mgmtMac) (hone : f.dst ≠ broadcastMac)
    (htype : f.etherType = 0x88B5) (htag : f.tagged = false) : s.mgmtFrame f = s.request1 f := by
  have haccepts : s.acceptsFrame f = true := (s.acceptsFrame_iff f).2 ⟨.inl hdst, htype, htag⟩
  simp only [State.mgmtFrame, hon, haccepts, Bool.not_true, Bool.false_eq_true, if_false]
  exact if_neg hone

/-- A request that was answered gets the stored response. -/
theorem State.request1_retry {r : MgmtFrame} (hretry : s.retryOf f = some r) : s.request1 f = s.resend r := by
  simp only [State.request1, hretry]

/-- A READ_REQ that the module hears is read. -/
theorem State.Hears.mgmtFrame_read (h : s.Hears f) (hservice : f.service = 1) : s.mgmtFrame f = s.read f := by
  obtain ⟨hon, hdst, hone, htype, htag, hnew⟩ := h
  rw [State.mgmtFrame_own hon hdst hone htype htag]
  simp [State.request1, hnew, hservice, knownService]

/-- A WRITE_REQ that it hears is written. -/
theorem State.Hears.mgmtFrame_write (h : s.Hears f) (hservice : f.service = 3) : s.mgmtFrame f = s.write f := by
  obtain ⟨hon, hdst, hone, htype, htag, hnew⟩ := h
  rw [State.mgmtFrame_own hon hdst hone htype htag]
  simp [State.request1, hnew, hservice, knownService]

end

/-- What the management port does with a frame that it does not serve. -/
theorem managementFrames : Claim.ManagementFrames := by
  intro s f c hc
  rw [exec_mgmtFrame hc]
  refine ⟨fun hoff => ?_, fun hon hforeign => ?_, fun r hon htype htag hdst hone hretry => ?_⟩
  · rw [State.mgmtFrame_unpowered hoff]
  · have hrefused : s.acceptsFrame f = false := by
      rw [Bool.eq_false_iff, Ne, State.acceptsFrame_iff]
      rintro ⟨hdst, htype, htag⟩
      obtain hother | htagged | ⟨hown, hall⟩ := hforeign
      · exact hother htype
      · exact absurd (htagged.symm.trans htag) (by decide)
      · exact hdst.elim hown hall
    rw [State.mgmtFrame_foreign hon hrefused]
    rfl
  · rw [State.mgmtFrame_own hon hdst hone htype htag, State.request1_retry hretry]
    rfl

/-! ### The lowest code that applies (R398) -/

/-- A code that does not apply is passed over. -/
theorem lowest_cons_false (n : Nat) (cs : List (Bool × Nat)) : lowest ((false, n) :: cs) = lowest cs := rfl

/-- The first code that applies is the answer, where none after it is lower. -/
theorem lowest_cons_true {n : Nat} {cs : List (Bool × Nat)} (h : (cs.map (·.2)).all (n ≤ ·) = true) :
    lowest ((true, n) :: cs) = n := by
  have hmin : (((true, n) :: cs).filter (·.1) |>.map (·.2)).min? = some n := by
    refine List.min?_eq_some_iff.2 ⟨by simp, fun m hm => ?_⟩
    obtain ⟨c, hc, rfl⟩ := List.mem_map.1 hm
    obtain rfl | hc := List.mem_cons.1 (List.mem_filter.1 hc).1
    · exact Nat.le_refl n
    · exact of_decide_eq_true (List.all_eq_true.1 h c.2 (List.mem_map_of_mem hc))
  rw [lowest, hmin, Option.getD_some]

/-! ### Entries of the catalogue (R395 to R397) -/

/-- An index outside the catalogue has no entry. -/
theorem entryOf_eq_none_of_index {i : Nat} (h : highestSub i = none) (k : Nat) : entryOf i k = none := by
  simp only [entryOf, h]

/-- Neither has a subindex beyond the highest one. -/
theorem entryOf_eq_none_of_sub {i k n : Nat} (h : highestSub i = some n) (hk : n < k) : entryOf i k = none := by
  simp only [entryOf, h, Nat.ne_of_gt (Nat.zero_lt_of_lt hk), Nat.not_le.2 hk, if_false]

/-- The index of an entry is in the catalogue. -/
theorem highestSub_isSome_of_entryOf {i k : Nat} {e : Ty × Access} (h : entryOf i k = some e) : (highestSub i).isSome = true := by
  cases hi : highestSub i with
  | none => rw [entryOf_eq_none_of_index hi] at h; cases h
  | some n => rfl

/-! ### Reads (R392, R398, R399) -/

section
variable (s : State) {f : MgmtFrame}

theorem State.readStatus_badHeader (hbad : badHeader f = true) : s.readStatus f = Abort.badFrame := by
  rw [State.readStatus, hbad]
  exact lowest_cons_true rfl

theorem State.readStatus_noEntry (hgood : badHeader f = false) (hindex : highestSub f.index.toNat = none) :
    s.readStatus f = Abort.noEntry := by
  simp only [State.readStatus, hgood, hindex, Option.isNone_none, lowest_cons_false]
  exact lowest_cons_true rfl

theorem State.readStatus_noSub {n : Nat} (hgood : badHeader f = false) (hindex : highestSub f.index.toNat = some n)
    (hsub : n < f.sub.toNat) : s.readStatus f = Abort.noSub := by
  simp only [State.readStatus, hgood, hindex, entryOf_eq_none_of_sub hindex hsub, Option.isNone_some, Option.isSome_some,
    Option.isNone_none, Bool.and_self, lowest_cons_false]
  exact lowest_cons_true rfl

end

/-- A measurement outside the model draws a free value and no more. -/
theorem State.noteRead_eq (s : State) (i k : Nat) : ∃ n, s.noteRead i k = { s with dp := { s.dp with free := n } } := by
  unfold State.noteRead
  split
  · exact ⟨_, rfl⟩
  · exact ⟨s.dp.free, rfl⟩

/-- A read is its answer, but for the free values drawn. -/
theorem State.read_eq (s : State) (f : MgmtFrame) :
    ∃ n, s.read f = { s.answer f (s.readStatus f) (if s.readStatus f = 0 then s.readData f else []) with
      dp := { (s.answer f (s.readStatus f) (if s.readStatus f = 0 then s.readData f else [])).dp with free := n } } := by
  unfold State.read
  dsimp only
  split
  · exact State.noteRead_eq _ _ _
  · exact ⟨s.dp.free, rfl⟩

/-- A broadcast read of an entry in 0x1000 to 0x10FF waits for its turn. -/
theorem State.broadcastFrame_read {s : State} {f : MgmtFrame} (hservice : f.service = 1) (hlow : 0x1000 ≤ f.index.toNat)
    (hhigh : f.index.toNat ≤ 0x10FF) (hentry : (entryOf f.index.toNat f.sub.toNat).isSome = true) :
    s.broadcastFrame f = { s with dic := { s.dic with broadcast := s.dic.broadcast ++ [f] } } := by
  simp [State.broadcastFrame, State.broadcastRead, hservice, hlow, hhigh, hentry]

section
variable {s : State} {f : MgmtFrame} {fs : List MgmtFrame} (hon : s.mgmtOn = true) (hdue : s.dic.broadcast = f :: fs)
include hon hdue

/-- The first read that waits is answered. -/
theorem exec_broadcastReadRsp_new (hnew : s.retryOf f = none) :
    exec .broadcastReadRsp s = .next (({ s with dic := { s.dic with broadcast := fs } } : State).read f) := by
  have hkept : ({ s with dic := { s.dic with broadcast := fs } } : State).retryOf f = none := hnew
  show execBroadcastReadRsp s = _
  simp only [execBroadcastReadRsp, hdue, hon, hkept, if_true]

/-- One that was answered before gets the stored response. -/
theorem exec_broadcastReadRsp_retry {r : MgmtFrame} (hretry : s.retryOf f = some r) :
    exec .broadcastReadRsp s = .next (({ s with dic := { s.dic with broadcast := fs } } : State).resend r) := by
  have hkept : ({ s with dic := { s.dic with broadcast := fs } } : State).retryOf f = some r := hretry
  show execBroadcastReadRsp s = _
  simp only [execBroadcastReadRsp, hdue, hon, hkept, if_true]

end

/-- What a read comes to, heard at once or broadcast. -/
theorem dictionaryReads : Claim.DictionaryReads := by
  refine ⟨fun s f hears hservice => ?_, fun s f hbad => s.readStatus_badHeader hbad,
    fun s f hgood hindex => s.readStatus_noEntry hgood hindex, fun s f n hgood hindex hsub => s.readStatus_noSub hgood hindex hsub,
    fun s f hon hdst htype htag hservice hlow hhigh hentry => ?_, fun s f fs hon hdue => ?_⟩
  · obtain ⟨n, hread⟩ := s.read_eq f
    rw [exec_mgmtFrame (f := f) (by simp), hears.mgmtFrame_read hservice, hread]
    exact ⟨_, rfl, rfl, rfl, rfl, rfl, rfl, rfl⟩
  · rw [exec_mgmtFrame (f := f) (by simp), State.mgmtFrame_broadcast hon hdst htype htag,
      State.broadcastFrame_read hservice hlow hhigh hentry]
  · exact ⟨exec_broadcastReadRsp_new hon hdue, fun r hretry => exec_broadcastReadRsp_retry hon hdue hretry⟩

/-- Settles O55, by the cases of a frame at the port, and of a read by its status and its answer. -/
theorem dictionaryRequests : Obligations.DictionaryRequests := ⟨managementFrames, dictionaryReads⟩

/-! ### Writers (R403) -/

/-- The writer that wrote last writes again. -/
@[simp] theorem State.wrote_lastWriter (s : State) : s.wrote s.dic.lastWriter = s := if_pos rfl

/-- Another writer becomes the last one and counts. -/
theorem State.wrote_other {s : State} {src : BitVec 48} (h : src ≠ s.dic.lastWriter) :
    (s.wrote src).dic.lastWriter = src ∧ (s.wrote src).dic.writerChanges = s.dic.writerChanges + 1 := by
  simp only [State.wrote, if_neg h]
  constructor <;> (repeat' split) <;> rfl

/-! ### Writes of an entry (R398, R399) -/

section
variable {s : State} {f : MgmtFrame}

/-- An entry that is no DOMAIN is written whole. -/
theorem State.write_scalar {t : Ty} {a : Access} (hentry : entryOf f.index.toNat f.sub.toNat = some (t, a)) (ht : t ≠ .domain) :
    s.write f = s.writeScalar f := by
  unfold State.write
  split
  · rename_i hdomain
    rw [hentry] at hdomain
    cases hdomain
    exact absurd rfl ht
  · rfl

theorem State.writeScalar_refused (hstatus : s.writeStatus f ≠ 0) : s.writeScalar f = s.answer f (s.writeStatus f) [] :=
  if_pos hstatus

/-- A write with status 0 is applied and recorded for its writer, and the answer shows the entry. -/
theorem State.writeScalar_applied (hstatus : s.writeStatus f = 0) :
    s.writeScalar f = (let t := (s.applyWrite f.index.toNat f.sub.toNat (leNat (f.data.take f.length))).wrote f.src
      t.answer f 0 ((t.dictValue f.index.toNat f.sub.toNat).getD [])) := if_neg (not_not_intro hstatus)

/-- A read-only entry takes no write. -/
theorem State.writeStatus_readOnly {t : Ty} (hgood : badHeader f = false)
    (hentry : entryOf f.index.toNat f.sub.toNat = some (t, .ro)) : s.writeStatus f = Abort.readOnly := by
  obtain ⟨n, hindex⟩ := Option.isSome_iff_exists.1 (highestSub_isSome_of_entryOf hentry)
  simp only [State.writeStatus, hgood, hentry, hindex, Option.isNone_some, Bool.and_false, beq_self_eq_true, lowest_cons_false]
  exact lowest_cons_true rfl

end

/-- Settles O56: a write by its status, the writer by the record of its source. -/
theorem dictionaryWrites : Obligations.DictionaryWrites := by
  refine ⟨fun s f hears hservice => ?_, fun s src hother => ?_⟩
  · rw [exec_mgmtFrame (f := f) (by simp), hears.mgmtFrame_write hservice]
    refine ⟨fun t a hentry ht hstatus => ?_, fun t a hentry ht hstatus => ?_,
      fun t hentry hgood => State.writeStatus_readOnly hgood hentry⟩
    · rw [State.write_scalar hentry ht, State.writeScalar_applied hstatus]
    · rw [State.write_scalar hentry ht, State.writeScalar_refused hstatus]
  · obtain ⟨hwriter, hcount⟩ := State.wrote_other hother
    exact ⟨hwriter, hcount, s.wrote_lastWriter⟩

/-! ### Segments (R400, R405; 15 R448) -/

/-- The two entries that take segments. -/
theorem transferOf_of_mem {i : BitVec 16} {k : BitVec 8} {t : Transfer}
    (h : (i, k, t) ∈ [((0x7000 : BitVec 16), (1 : BitVec 8), Transfer.firmware), (0x4002, 1, .repair)]) :
    entryOf i.toNat k.toNat = some (.domain, .wo) ∧ transferOf i.toNat = t := by
  simp only [List.mem_cons, List.not_mem_nil, or_false, Prod.mk.injEq] at h
  obtain ⟨rfl, rfl, rfl⟩ | ⟨rfl, rfl, rfl⟩ := h <;> decide

/-- A write of one of them is a segment of its transfer. -/
theorem State.write_segment {s : State} {f : MgmtFrame} {t : Transfer} (hgood : badHeader f = false)
    (h : (f.index, f.sub, t) ∈ [((0x7000 : BitVec 16), (1 : BitVec 8), Transfer.firmware), (0x4002, 1, .repair)]) :
    s.write f = s.takeSegment t f := by
  obtain ⟨hentry, htransfer⟩ := transferOf_of_mem h
  simp only [State.write, hentry, hgood, htransfer, Bool.false_eq_true, if_false]

/-- The harbourmaster's firmware serves every write (15 R440). -/
theorem State.notServed_of_running {s : State} (h : 4 < s.boot.stage) (i : Nat) : s.notServed i = false := by
  simp [State.notServed, Nat.not_le.2 h]

section
variable {s : State} {f : MgmtFrame} {t : Transfer} (hsize : t = .firmware → f.total.toNat ≤ 16773120 + 2828)
include hsize

/-- No segment of an allowed size is refused with RANGE. -/
theorem segment_inRange : (bit f.flags.toNat 0 && t == .firmware && decide (16773120 + 2828 < f.total.toNat)) = false := by
  cases t with
  | firmware => rw [decide_eq_false (Nat.not_lt.2 (hsize rfl)), Bool.and_false]
  | repair => simp

/-- While a verification runs a first segment waits, and any segment of a repair record. -/
theorem State.takeSegment_busy (hverifying : s.dic.verifying t = true) (hkind : bit f.flags.toNat 0 = true ∨ t = .repair) :
    s.takeSegment t f = s.answer f Abort.busy [] := by
  have hblocked : (bit f.flags.toNat 0 || t == .repair) = true := by
    obtain hfirst | rfl := hkind
    · simp [hfirst]
    · simp
  simp only [State.takeSegment, segment_inRange hsize, hverifying, hblocked, Bool.and_self, Bool.or_true,
    Bool.false_eq_true, if_false, if_true]

/-- Otherwise a first segment that keeps the rules opens the transfer anew for its source. -/
theorem State.takeSegment_first (hserved : 4 < s.boot.stage) (hfirst : bit f.flags.toNat 0 = true) (hok : firstOk f = true)
    (hidle : s.dic.verifying t = false) (howner : ∀ x, s.dic.xfer t = some x → x.src = f.src) :
    s.takeSegment t f = s.segment t ⟨f.src, f.total.toNat, f.data.take f.length, s.tide, s.dic.target⟩ f := by
  have hrange := segment_inRange (f := f) hsize
  rw [hfirst] at hrange
  cases hopen : s.dic.xfer t with
  | none =>
    simp only [State.takeSegment, hfirst, hrange, hopen, hidle, hok, State.notServed_of_running hserved, Bool.false_and,
      Bool.or_false, Bool.false_eq_true, if_false, if_true]
  | some x =>
    simp only [State.takeSegment, hfirst, hrange, hopen, howner x hopen, hidle, hok, State.notServed_of_running hserved,
      bne_self_eq_false, Bool.false_and, Bool.or_false, Bool.false_eq_true, if_false, if_true]

end

section
variable {s : State} {f : MgmtFrame} {t : Transfer} {x : DomainXfer}

/-- A later segment of the source that opened the transfer goes on with it, or ends it. -/
theorem State.takeSegment_later (hserved : 4 < s.boot.stage) (hlater : bit f.flags.toNat 0 = false)
    (hidle : t = .repair → s.dic.verifying t = false) (hopen : s.dic.xfer t = some x) (howner : x.src = f.src) :
    s.takeSegment t f = if laterOk x f then s.segment t { x with data := x.data ++ f.data.take f.length, last := s.tide } f
      else s.badSegment t f := by
  have hwait : (s.dic.verifying t && t == .repair) = false := by
    cases t with
    | firmware => exact Bool.and_false _
    | repair => rw [hidle rfl, Bool.false_and]
  simp [State.takeSegment, hlater, hopen, howner, hwait, State.notServed_of_running hserved]

/-- A segment out of sequence ends the open transfer. -/
theorem State.badSegment_open (hopen : s.dic.xfer t = some x) :
    s.badSegment t f = (s.endXfer t Abort.badSeq).answer f Abort.badSeq [] := by
  simp [State.badSegment, hopen]

/-- Segments that are not the last keep the transfer open. -/
theorem State.segment_open (hmore : bit f.flags.toNat 1 = false) (t : Transfer) :
    s.segment t x f = ((s.wrote f.src).putXfer t x).answer f 0 [] := by
  simp [State.segment, hmore]

/-- The last one ends it. -/
theorem State.segment_last (hlast : bit f.flags.toNat 1 = true) (t : Transfer) :
    s.segment t x f = ((s.wrote f.src).putXfer t x).received t x f := by
  simp [State.segment, hlast]

/-- A transfer that has ended is closed. -/
theorem State.endXfer_closes (s : State) (t : Transfer) (code : Nat) : (s.endXfer t code).dic.xfer t = none := by
  cases t <;> rfl

/-- DOMAIN_TIMEOUT ends an open transfer. -/
theorem exec_domainTimeout (hopen : s.dic.xfer t = some x) : exec (.domainTimeout t) s = .next (s.endXfer t Abort.timeout) := by
  show execDomainTimeout t s = _
  simp [execDomainTimeout, hopen]

end

/-- Settles O58: a segment by what its transfer waits for, and what an accepted one leaves by whether it is the last. -/
theorem domainTransfers : Obligations.DomainTransfers := by
  refine ⟨fun s f t hears hservice hgood hserved hmem hsize => ?_, fun s f x hmore => ?_, fun s f x hlast => ?_,
    fun s t x hopen => ⟨exec_domainTimeout hopen, s.endXfer_closes t _⟩⟩
  · rw [exec_mgmtFrame (f := f) (by simp), hears.mgmtFrame_write hservice, State.write_segment hgood hmem]
    refine ⟨fun hfirst hok hidle howner => ?_, fun hverifying hkind => ?_, fun x hlater hidle hopen howner hok => ?_,
      fun x hlater hidle hopen howner hbad => ?_⟩
    · rw [State.takeSegment_first hsize hserved hfirst hok hidle howner]
    · rw [State.takeSegment_busy hsize hverifying hkind]
    · rw [State.takeSegment_later hserved hlater hidle hopen howner, if_pos hok]
    · rw [State.takeSegment_later hserved hlater hidle hopen howner, if_neg (Bool.eq_false_iff.1 hbad),
        State.badSegment_open hopen]
  · rw [State.segment_open hmore, State.segment_open hmore]
    exact ⟨rfl, rfl⟩
  · rw [State.segment_last hlast, State.segment_last hlast]
    exact ⟨rfl, rfl, rfl, rfl, rfl⟩

end Sys2Proof.Machine
end

