-- ==== Sys2Proof/Proofs/SupplyEvents.lean ====
section
/-!
PROOFS. Supply events (13 R409; 14 R414 to R416): what the parts of an event's begin and end leave, and each event from them.
-/

namespace Sys2Proof.Machine

/-! ### The counts of 0x2001 -/

/-- An entry after one was counted. -/
theorem State.countSupply_counts (s : State) (k j : Nat) :
    tget 0#32 (s.countSupply k).dic.counts j = if j = k then tget 0#32 s.dic.counts k + 1 else tget 0#32 s.dic.counts j :=
  tget_tupd 0 s.dic.counts (· + 1) k j

@[simp] theorem State.countSupply_pwr (s : State) (k : Nat) : (s.countSupply k).pwr = s.pwr := rfl

/-! ### The begin of an event -/

/-- An entry of 0x2001 after an event has begun. -/
theorem State.beginEvent_counts (s : State) (k : Nat) (ext : Word) (j : Nat) :
    tget 0#32 (s.beginEvent k ext).dic.counts j = if j = k then tget 0#32 s.dic.counts k + 1 else tget 0#32 s.dic.counts j :=
  s.countSupply_counts k j

@[simp] theorem State.beginEvent_evStart (s : State) (k : Nat) (ext : Word) : (s.beginEvent k ext).dic.evStart = s.tide := rfl
@[simp] theorem State.beginEvent_pwr (s : State) (k : Nat) (ext : Word) : (s.beginEvent k ext).pwr = s.pwr := rfl
@[simp] theorem State.beginEvent_ops (s : State) (k : Nat) (ext : Word) : (s.beginEvent k ext).ops = s.ops := rfl
@[simp] theorem State.beginEvent_cells (s : State) (k : Nat) (ext : Word) : (s.beginEvent k ext).dp.cells = s.dp.cells :=
  Data.logEvent_cells _ _ _ _ _ _

/-- The events in progress, after one has begun. -/
theorem State.beginEvent_active (s : State) (k : Nat) (ext : Word) :
    (s.beginEvent k ext).dic.active = s.dic.active ++ [⟨k, s.tide, ext⟩] := rfl

/-- No event is found where none is in progress. -/
theorem Dic.find_of_none {d : Dic} (h : d.active = []) (k : Nat) : d.find k = none := by
  rw [Dic.find, h]
  rfl

/-- The only event in progress is the one that has begun. -/
theorem State.beginEvent_find {s : State} (h : s.dic.active = []) (k j : Nat) (ext : Word) :
    (s.beginEvent k ext).dic.find j = if k = j then some ⟨k, s.tide, ext⟩ else none := by
  rw [Dic.find, State.beginEvent_active, h]
  by_cases hk : k = j <;> simp [hk]

/-! ### Dip and dropout (14 R414 to R416) -/

/-! Noting a mean changes what the input shows and no more. -/

@[simp] theorem State.noteMean_tide (s : State) (mean : Word) : (s.noteMean mean).tide = s.tide := rfl
@[simp] theorem State.noteMean_dp (s : State) (mean : Word) : (s.noteMean mean).dp = s.dp := rfl
@[simp] theorem State.noteMean_ops (s : State) (mean : Word) : (s.noteMean mean).ops = s.ops := rfl
@[simp] theorem State.noteMean_dic (s : State) (mean : Word) : (s.noteMean mean).dic = s.dic := rfl
@[simp] theorem State.noteMean_shut (s : State) (mean : Word) : (s.noteMean mean).pwr.shut = s.pwr.shut := rfl
@[simp] theorem State.noteMean_nvInhibit (s : State) (mean : Word) : (s.noteMean mean).pwr.nvInhibit = s.pwr.nvInhibit := rfl

/-- A dip counts in the dictionary alone. -/
theorem State.countDip_eq (s : State) (mean : Word) :
    ∃ c flash due, s.countDip mean = { s with dic := { s.dic with counts := c, countsFlash := flash, flashDue := due } } := by
  unfold State.countDip
  dsimp only
  generalize (below44 mean && _) = counts
  cases counts
  · exact ⟨s.dic.counts, s.dic.countsFlash, s.dic.flashDue, rfl⟩
  · exact ⟨_, _, _, rfl⟩

@[simp] theorem State.countDip_tide (s : State) (mean : Word) : (s.countDip mean).tide = s.tide := by
  obtain ⟨_, _, _, h⟩ := s.countDip_eq mean
  rw [h]

@[simp] theorem State.countDip_dp (s : State) (mean : Word) : (s.countDip mean).dp = s.dp := by
  obtain ⟨_, _, _, h⟩ := s.countDip_eq mean
  rw [h]

@[simp] theorem State.countDip_ops (s : State) (mean : Word) : (s.countDip mean).ops = s.ops := by
  obtain ⟨_, _, _, h⟩ := s.countDip_eq mean
  rw [h]

@[simp] theorem State.countDip_pwr (s : State) (mean : Word) : (s.countDip mean).pwr = s.pwr := by
  obtain ⟨_, _, _, h⟩ := s.countDip_eq mean
  rw [h]

@[simp] theorem State.countDip_active (s : State) (mean : Word) : (s.countDip mean).dic.active = s.dic.active := by
  obtain ⟨_, _, _, h⟩ := s.countDip_eq mean
  rw [h]

/-- A dip that begins below 44.0 V counts NV_INHIBIT. -/
theorem State.countDip_counts {s : State} (hquiet : s.dic.active = []) (mean : Word) (j : Nat) :
    tget 0#32 (s.countDip mean).dic.counts j =
      if j = 7 ∧ below44 mean = true then tget 0#32 s.dic.counts 7 + 1 else tget 0#32 s.dic.counts j := by
  cases hlow : below44 mean <;> simp [State.countDip, Dic.find_of_none hquiet, hlow, State.countSupply_counts]

/-! The inhibit below 44.0 V asserts, and a STORE waits. -/

@[simp] theorem State.inhibitBelow_tide (s : State) (mean : Word) : (s.inhibitBelow mean).tide = s.tide := by
  unfold State.inhibitBelow
  split <;> rfl

@[simp] theorem State.inhibitBelow_dp (s : State) (mean : Word) : (s.inhibitBelow mean).dp = s.dp := by
  unfold State.inhibitBelow
  split <;> rfl

@[simp] theorem State.inhibitBelow_ops (s : State) (mean : Word) : (s.inhibitBelow mean).ops = s.ops := by
  unfold State.inhibitBelow
  split <;> rfl

@[simp] theorem State.inhibitBelow_shut (s : State) (mean : Word) : (s.inhibitBelow mean).pwr.shut = s.pwr.shut := by
  unfold State.inhibitBelow
  split <;> rfl

@[simp] theorem State.inhibitBelow_counts (s : State) (mean : Word) : (s.inhibitBelow mean).dic.counts = s.dic.counts := by
  unfold State.inhibitBelow
  split <;> rfl

@[simp] theorem State.inhibitBelow_active (s : State) (mean : Word) : (s.inhibitBelow mean).dic.active = s.dic.active := by
  unfold State.inhibitBelow
  split <;> rfl

@[simp] theorem State.inhibitBelow_nvInhibit (s : State) (mean : Word) :
    (s.inhibitBelow mean).pwr.nvInhibit = (s.pwr.nvInhibit || below44 mean) := by
  unfold State.inhibitBelow
  cases hinhibit : s.pwr.nvInhibit <;> cases hlow : below44 mean <;> simp [hinhibit]

section
variable {s : State} {mean : Word}

/-- A dip with no event in progress counts, may inhibit writes of flash, and begins. -/
theorem State.beginDip_of_quiet (hquiet : s.dic.active = []) (hdip : (numOf mean).lt (numOf s.dic.cfg.dipV) = true)
    (hinput : (numOf mean).lt (FV.ofNat 40) = false) :
    s.beginDip mean = ((s.countDip mean).inhibitBelow mean).beginEvent 1 mean := by
  have hactive : ((s.countDip mean).inhibitBelow mean).dic.active = [] := by
    rw [State.inhibitBelow_active, State.countDip_active, hquiet]
  simp [State.beginDip, hdip, hinput, Dic.find_of_none hquiet, Dic.find_of_none hactive]

/-- A dropout counts itself and one SHUTDOWN, and shuts the module down. -/
theorem State.beginDropout_of_quiet (hquiet : s.dic.active = []) (hdrop : (numOf mean).lt (FV.ofNat 40) = true) :
    s.beginDropout mean =
      ({ ((s.inhibitBelow mean).beginEvent 2 mean).countSupply 8 with
        pwr := { (s.inhibitBelow mean).pwr with in54 := false, awaits := true, goodIn := false } } : State).shutdown .input := by
  have hactive : (s.inhibitBelow mean).dic.active = [] := (s.inhibitBelow_active mean).trans hquiet
  simp [State.beginDropout, hdrop, Dic.find_of_none hquiet, Dic.find_of_none hactive]

@[simp] theorem Dic.holdStore_counts (d : Dic) : d.holdStore.counts = d.counts := rfl

/-- An orderly shutdown that begins. -/
theorem State.shutdown_of_none (hup : s.pwr.shut = none) (c : Shutdown) :
    s.shutdown c = { s.powerOff with
      pwr := { s.powerOff.pwr with shut := some c, pwrOk := false, nvInhibit := true, nvHeld := true }
      dic := s.dic.holdStore } := by
  simp only [State.shutdown, hup, Option.isSome_none, Bool.false_eq_true, if_false]
  rfl

/-! ### Swell, overstress and the auxiliary input -/

theorem State.beginSwell_of_quiet (hquiet : s.dic.active = []) (hswell : (numOf s.dic.cfg.swellV).lt (numOf mean) = true) :
    s.beginSwell mean = s.beginEvent 3 mean := by
  simp [State.beginSwell, hswell, Dic.find_of_none hquiet]

/-- Overstress begins with the swell whose extreme it has. -/
theorem State.beginOverstress_of_quiet (hquiet : s.dic.active = [])
    (hswell : (numOf s.dic.cfg.swellV).lt (numOf mean) = true) :
    s.beginOverstress mean = (s.beginEvent 3 mean).beginEvent 4 mean := by
  simp [State.beginOverstress, State.beginSwell_of_quiet hquiet hswell, State.beginEvent_find hquiet]

theorem State.beginAuxLoss_of_quiet (hquiet : s.dic.active = []) (hlow : belowTenths (numOf mean) 108 = true)
    (hinput : s.pwr.below44 = false) (hin : s.pwr.in54 = true) :
    s.beginAuxLoss mean = { s.beginEvent 6 mean with pwr := { s.pwr with in12 := false } } := by
  simp [State.beginAuxLoss, hlow, hinput, hin, Dic.find_of_none hquiet]

end

/-! ### The commands that begin an event -/

section
variable {s : State} {mean : Word} (hon : s.mgmtOn = true)
include hon

/-- With power SUPPLY_EVENT_BEGIN is the begin of its event. -/
theorem exec_supplyEventBegin :
    exec (.supplyEventBegin .dip mean) s = .next ((s.noteMean mean).beginDip mean)
      ∧ exec (.supplyEventBegin .dropout mean) s = .next ((s.noteMean mean).beginDropout mean)
      ∧ exec (.supplyEventBegin .swell mean) s = .next ((s.noteMean mean).beginSwell mean)
      ∧ exec (.supplyEventBegin .overstress mean) s = .next ((s.noteMean mean).beginOverstress mean)
      ∧ exec (.supplyEventBegin .auxLoss mean) s = .next (s.beginAuxLoss mean) := by
  have hbegin (e : SupplyEvent) : exec (.supplyEventBegin e mean) s = execSupplyEventBegin e mean s := rfl
  simp [hbegin, execSupplyEventBegin, hon]

theorem exec_rippleWindow (hquiet : s.quietSecond = true) {vpp : Word}
    (hripple : (numOf s.dic.cfg.rippleVpp).lt (numOf vpp) = true) :
    exec (.rippleWindow vpp) s = .next (((s.countSupply 5).lastEvent 5 (s.tide - 1000000000) 1000000000 vpp).logEvent
      Log.supplyEvent 0 5 (1000000000 : Reg).toNat) := by
  show execRippleWindow vpp s = _
  simp only [execRippleWindow, hon, hquiet, hripple, Bool.and_self, if_true]

end

/-- Ripple does not count in a second with another event. -/
theorem exec_rippleWindow_busy {s : State} (hbusy : s.quietSecond = false) (vpp : Word) :
    exec (.rippleWindow vpp) s = .next s := by
  show execRippleWindow vpp s = _
  simp [execRippleWindow, hbusy]

/-- Each event from the module without one. -/
theorem supplyEvents : Claim.SupplyEvents := by
  intro s mean hon hquiet
  have hnoted : (s.noteMean mean).dic.active = [] := hquiet
  obtain ⟨hdipIs, hdropoutIs, hswellIs, hoverstressIs, hauxIs⟩ := exec_supplyEventBegin (mean := mean) hon
  refine ⟨fun hdip hinput => ?_, fun hdrop hup => ?_, fun hswell => ?_, fun hswell => ?_, fun hlow hinput hin => ?_,
    fun vpp hsecond hripple => ?_, fun vpp hsecond => exec_rippleWindow_busy hsecond vpp⟩
  · rw [hdipIs, State.beginDip_of_quiet hnoted hdip hinput]
    refine ⟨_, rfl, by simp [State.beginEvent_counts, State.countDip_counts hnoted], rfl, by simp, rfl, by simp, by simp, by simp,
      fun hlow => ?_, fun hhigh => ?_⟩
    · simp [State.beginEvent_counts, State.countDip_counts hnoted, below44, hlow]
    · simp [State.beginEvent_counts, State.countDip_counts hnoted, below44, hhigh]
  · rw [hdropoutIs, State.beginDropout_of_quiet hnoted hdrop, State.shutdown_of_none]
    · refine ⟨_, rfl, ?_, ?_, rfl, rfl, rfl, rfl, rfl⟩
      · simp [State.countSupply_counts, State.beginEvent_counts]
      · simp [State.countSupply_counts, State.beginEvent_counts]
    · simp [hup]
  · rw [hswellIs, State.beginSwell_of_quiet hnoted hswell]
    exact ⟨_, rfl, State.beginEvent_counts _ 3 mean 3, rfl, by simp, rfl⟩
  · rw [hoverstressIs, State.beginOverstress_of_quiet hnoted hswell]
    refine ⟨_, rfl, ?_, ?_, rfl, rfl, by simp, rfl⟩
    · simp [State.beginEvent_counts]
    · simp [State.beginEvent_counts]
  · rw [hauxIs, State.beginAuxLoss_of_quiet hquiet hlow hinput hin]
    exact ⟨_, rfl, State.beginEvent_counts s 6 mean 6, rfl, by simp, rfl⟩
  · rw [exec_rippleWindow hon hsecond hripple]
    exact ⟨_, rfl, State.countSupply_counts s 5 5, rfl, rfl, Data.logEvent_cells _ _ _ _ _ _, rfl⟩

/-! ### The end of an event -/

/-- The record of a supply event changes in the log and in what waits for flash alone. -/
theorem State.relog_eq (s : State) (c : Relog) :
    ∃ held log relogs, s.relog c = { s with
        dp := { s.dp with logHeld := held, log := log }, dic := { s.dic with relogs := relogs } }
      ∧ (s.pwr.nvInhibit = true → log = s.dp.log ∧ relogs = s.dic.relogs ++ [c]) := by
  unfold State.relog
  dsimp only
  split
  · exact ⟨_, _, _, rfl, fun _ => ⟨rfl, rfl⟩⟩
  · rename_i hfree
    exact ⟨_, _, _, rfl, fun hinhibit => absurd hinhibit hfree⟩

/-- An event that ends: it is no longer in progress, its record has its duration, and flash follows when nothing inhibits it. -/
theorem State.endEvent_of_find {s : State} {k : Nat} {e : SupplyEv} (h : s.dic.find k = some e) :
    ∃ held log relogs, s.endEvent k = { s with
        dp := { s.dp with logHeld := held, log := log }
        dic := { s.dic with
          active := s.dic.active.filter fun x => x.kind ≠ k, evEnd := some s.tide
          evType := BitVec.ofNat 8 k, evStart := e.start, evDur := s.tide - e.start, evExt := e.extreme, relogs := relogs } }
      ∧ (s.pwr.nvInhibit = true → log = s.dp.log ∧ relogs = s.dic.relogs ++ [⟨e.start, k, k, s.tide - e.start⟩]) := by
  simp only [State.endEvent, h]
  exact State.relog_eq _ _

/-- An event that has ended is not found. -/
theorem find_filter_ne (es : List SupplyEv) (k : Nat) :
    (es.filter fun x => x.kind ≠ k).find? (fun e => e.kind == k) = none := by
  simp [List.find?_eq_none]

section
variable {s : State} {mean : Word}

theorem exec_supplyEventEnd_dip (hover : ((numOf s.dic.cfg.dipV).add (half 1)).le (numOf mean) = true) :
    exec (.supplyEventEnd .dip mean) s = .next ((s.noteMean mean).endEvent 1) := by
  show execSupplyEventEnd .dip mean s = _
  simp [execSupplyEventEnd, hover]

theorem exec_supplyEventEnd_dropout (hover : (half 89).le (numOf mean) = true) :
    exec (.supplyEventEnd .dropout mean) s = .next { (s.noteMean mean).endEvent 2 with
      pwr := { ((s.noteMean mean).endEvent 2).pwr with in54 := true } } := by
  show execSupplyEventEnd .dropout mean s = _
  simp [execSupplyEventEnd, hover]

end

/-- What the end of a dip and of a dropout leave. -/
theorem supplyEventsEnd : Claim.SupplyEventsEnd := by
  intro s mean e
  refine ⟨fun hfind hover => ?_, fun hfind hover => ?_⟩
  · obtain ⟨held, log, relogs, hend, hflash⟩ := State.endEvent_of_find (s := s.noteMean mean) hfind
    rw [exec_supplyEventEnd_dip hover, hend]
    exact ⟨_, rfl, find_filter_ne _ 1, rfl, rfl, rfl, rfl, rfl, rfl, hflash⟩
  · obtain ⟨held, log, relogs, hend, -⟩ := State.endEvent_of_find (s := s.noteMean mean) hfind
    rw [exec_supplyEventEnd_dropout hover, hend]
    exact ⟨_, rfl, find_filter_ne _ 2, rfl, rfl, rfl⟩

/-- Settles O38: the begin of each event from the quiet module, the end by what an ended event leaves. -/
theorem supplyEventsAndCounts : Obligations.SupplyEventsAndCounts := ⟨supplyEvents, supplyEventsEnd⟩

end Sys2Proof.Machine
end

