-- ==== Sys2Proof/Proofs/CommandsKeep.lean ====
section
/-!
PROOFS. Commands as a whole: what the work of each leaves of the queue, the anti-rollback counters and the governor's dies, from the
laws about the functions that it calls (Laws/Kept.lean, Laws/Ranges.lean).
-/

namespace Sys2Proof.Machine

/-! ### Outcomes -/

/-- Whatever next state an outcome answers, the queue, the counters and the dies went to it as they do in any command. -/
def Out.Goes (s : State) (r : Out) : Prop := ∀ t, r = .next t → s.Goes t

section
variable {s t : State}

theorem next_goes (h : s.Goes t) : Out.Goes s (.next t) := fun _ e => by cases e; exact h

theorem guarded_goes (h : s.Goes t) {c : Bool} : Out.Goes s (guarded c t) := by
  unfold guarded
  split
  · exact next_goes h
  · exact fun _ e => nomatch e

theorem next_of_kept (h : t.kept = s.kept) : Out.Goes s (.next t) := next_goes (.of_kept h)

theorem guarded_of_kept (h : t.kept = s.kept) {c : Bool} : Out.Goes s (guarded c t) := guarded_goes (.of_kept h)

end

@[simp] theorem kept_ite (c : Prop) [Decidable c] (a b : State) : (if c then a else b).kept = if c then a.kept else b.kept :=
  apply_ite State.kept c a b

/-! ### Fabrics, stow, random numbers -/

@[simp] theorem State.faultSweep_kept (s : State) (id n : Nat) (cause : SweepFault) : (s.faultSweep id n cause).kept = s.kept := by
  simp [State.faultSweep]

@[simp] theorem State.strikeAttend_kept (s : State) (id entry : Nat) : (s.strikeAttend id entry).kept = s.kept := by
  unfold State.strikeAttend
  (repeat' split) <;> simp

theorem execPush_goes (id : Nat) (s : State) : Out.Goes s (execPush id s) := by
  refine next_of_kept ?_
  split
  · rfl
  · dsimp only
    split
    · simp
    · exact State.perform_kept _ _ _ _ _ fun s p => by split <;> simp

theorem execPop_goes (id : Nat) (s : State) : Out.Goes s (execPop id s) := by
  refine next_of_kept ?_
  split
  · rfl
  · exact State.perform_kept _ _ _ _ _ fun s p => by split <;> simp

/-! ### Operations on sequences -/

theorem State.onOpen_keeps {s : State} {o : Op} {body : Ctx → SeqEnd} (h : ∀ c, (body c).Keeps s) :
    (s.onOpen o body).Keeps s := by
  unfold State.onOpen
  split
  · rfl
  · exact h _

theorem State.onLayout_keeps {s : State} {o : Op} {body : Ctx → Layout → SeqEnd} (h : ∀ c y, (body c y).Keeps s) :
    (s.onLayout o body).Keeps s := by
  refine State.onOpen_keeps fun c => ?_
  split
  · rfl
  · exact h _ _

theorem openBody_keeps (s : State) (o : Op) : (openBody s o).Keeps s := by
  unfold openBody
  dsimp only
  split
  · rfl
  · split <;> simp [SeqEnd.Keeps]

theorem closeBody_keeps (s : State) (o : Op) : (closeBody s o).Keeps s :=
  State.onOpen_keeps fun _ => by simp [SeqEnd.Keeps]

@[simp] theorem Taking.pages_kept (id : Nat) (c : Ctx) (tokens : Bool) (js : List Nat) (k : Taking) :
    (k.pages id c tokens js).s.kept = k.s.kept := by
  induction js generalizing k with
  | nil => rfl
  | cons j js ih =>
    unfold Taking.pages
    split
    · exact ih k
    · simp [ih]

theorem State.appendWith_keeps (s : State) (id : Nat) (d : List Byte) (c : Ctx) (y : Layout) (src : Sources) :
    (s.appendWith id d c y src).Keeps s := by
  unfold State.appendWith
  dsimp only
  (repeat' split) <;> simp [SeqEnd.Keeps]

theorem appendBody_keeps (s : State) (o : Op) : (appendBody s o).Keeps s := by
  refine State.onLayout_keeps fun c y => ?_
  split
  · rfl
  · split
    · trivial
    · rfl
    · exact State.appendWith_keeps _ _ _ _ _ _

@[simp] theorem State.trimPage_kept (s : State) (c : Ctx) (y : Layout) : (s.trimPage c y).1.kept = s.kept := by
  unfold State.trimPage
  dsimp only
  (repeat' split) <;> simp

@[simp] theorem State.freeEmptyTables_kept (s : State) (c : Ctx) : (s.freeEmptyTables c).kept = s.kept := by
  simp [State.freeEmptyTables]

theorem truncateBody_keeps (s : State) (o : Op) : (truncateBody s o).Keeps s :=
  State.onLayout_keeps fun _ _ => by simp [SeqEnd.Keeps]

theorem reserveBody_keeps (s : State) (o : Op) : (reserveBody s o).Keeps s := by
  refine State.onOpen_keeps fun c => ?_
  dsimp only
  split
  · rfl
  · simp [SeqEnd.Keeps]

@[simp] theorem matchPages_kept (id : Nat) (c : Ctx) (y : Layout) (toks : List (List Byte)) (i parent : Nat) (s : State) :
    (matchPages id c y toks i parent s).s.kept = s.kept := by
  induction toks generalizing i parent s with
  | nil => rfl
  | cons tok toks ih =>
    unfold matchPages
    dsimp only
    split
    · rfl
    · rfl
    · split
      · rfl
      · simp [ih]

theorem matchBody_keeps (s : State) (o : Op) : (matchBody s o).Keeps s := by
  refine State.onLayout_keeps fun c y => ?_
  split
  · rfl
  · dsimp only
    split
    · trivial
    · rfl
    · split <;> simp [SeqEnd.Keeps]

theorem State.insertNode_kept {s t : State} {h : Nat} {n : Node} (e : s.insertNode h n = some t) : t.kept = s.kept := by
  unfold State.insertNode at e
  split at e
  · cases e
  · cases e
    simp only [State.updHeader_kept, State.setNode_kept]
    split <;> simp

theorem publishPages_kept (c : Ctx) (y : Layout) (fuel i parent done : Nat) (s : State) :
    (publishPages c y fuel i parent done s).1.kept = s.kept := by
  induction fuel generalizing i parent done s with
  | zero => rfl
  | succ fuel ih =>
    unfold publishPages
    split
    · rfl
    · split
      · rfl
      · dsimp only
        split
        · rfl
        · split
          · exact ih ..
          · rfl
          · split
            · rfl
            · rename_i e
              exact (ih ..).trans (State.insertNode_kept e)

theorem publishBody_keeps (s : State) (o : Op) : (publishBody s o).Keeps s :=
  State.onLayout_keeps fun _ _ => publishPages_kept ..

theorem queryBody_keeps (s : State) (o : Op) : (queryBody s o).Keeps s := by
  refine State.onOpen_keeps fun c => ?_
  split
  · trivial
  · rfl
  · rfl

/-! ### Hawser: frames that are placed -/

theorem State.placeFrame_goes {s : State} {i p : Nat} {kind : BitVec 8} {body : State → HwFrame → Option State}
    (h : ∀ f t, body s f = some t → t.kept = s.kept) : Out.Goes s (s.placeFrame i p kind body) := by
  refine guarded_of_kept ?_
  split
  · rfl
  · split
    · rfl
    · rename_i f _ _ t e
      have ht : t.kept = s.kept := by
        split at e
        · cases e
        · exact h f t e
      simpa using ht

theorem State.putLines_kept {s t : State} {f : HwFrame} {k : Option XfKind} (e : s.putLines f = some (t, k)) :
    t.kept = s.kept := by
  unfold State.putLines at e
  dsimp only at e
  (repeat' split at e) <;> cases e <;> rfl

theorem State.placeContrib_kept {s t : State} {i : Nat} {stats : Bool} {f : HwFrame} (e : s.placeContrib i stats f = some t) :
    t.kept = s.kept := by
  unfold State.placeContrib at e
  dsimp only at e
  (repeat' split at e) <;> cases e <;> simp

theorem State.lostBefore_kept {s t : State} {g : Nat} {r : List Byte} {n : Word} {k : Close}
    (e : s.lostBefore g r n k = some t) : t.kept = s.kept := by
  unfold State.lostBefore at e
  (repeat' split at e) <;> cases e <;> rfl

theorem State.placeBlock_kept {s t : State} {i : Nat} {f : HwFrame} (e : s.placeBlock i f = some t) : t.kept = s.kept := by
  unfold State.placeBlock at e
  dsimp only at e
  (repeat' split at e)
  · cases e; rfl
  · cases e; rfl
  · cases e
  · exact (State.ferryFails_kept _ _ _ _ _ e).trans rfl
  · cases e; rfl
  · cases e; rfl
  · cases e; rfl

theorem execPutFrame_goes (i p : Nat) (s : State) : Out.Goes s (execPutFrame i p s) := by
  refine State.placeFrame_goes fun f t e => ?_
  split at e
  · cases e
  · rename_i eput
    cases e
    simpa using State.putLines_kept eput
  · rename_i eput
    cases e
    simpa using State.putLines_kept eput

theorem execContribFrame_goes (i p : Nat) (s : State) : Out.Goes s (execContribFrame i p s) :=
  State.placeFrame_goes fun _ _ => State.placeContrib_kept

theorem execStatsFrame_goes (i p : Nat) (s : State) : Out.Goes s (execStatsFrame i p s) :=
  State.placeFrame_goes fun _ _ => State.placeContrib_kept

theorem execFerryBlock_goes (i p : Nat) (s : State) : Out.Goes s (execFerryBlock i p s) :=
  State.placeFrame_goes fun _ _ => State.placeBlock_kept

theorem execReadyFrame_goes (i p : Nat) (s : State) : Out.Goes s (execReadyFrame i p s) := by
  refine State.placeFrame_goes fun f t e => ?_
  cases e
  (repeat' split) <;> simp

theorem execCloseFrame_goes (i p : Nat) (s : State) : Out.Goes s (execCloseFrame i p s) := by
  refine State.placeFrame_goes fun f t e => ?_
  dsimp only at e
  split at e
  · cases e; rfl
  · split at e
    · cases e; rfl
    · split at e
      · cases e
      · rename_i elost
        cases e
        simpa using State.lostBefore_kept elost

theorem execFerryFree_goes (i p : Nat) (s : State) : Out.Goes s (execFerryFree i p s) := by
  refine State.placeFrame_goes fun f t e => ?_
  cases e
  (repeat' split) <;> simp

/-! ### Hawser: operations and paths -/

@[simp] theorem State.startFerry_kept (s : State) (o : Op) (r : List Byte) : (s.startFerry o r).kept = s.kept := by
  simp [State.startFerry]

/-- A FERRY that fails after its memory accesses, or waits as before them. -/
theorem State.ferryFails_dp_kept (s : State) (d : Data) (o : Op) (code : Nat) (f : Option (XfKind × Nat)) :
    ((({ s with dp := d } : State).ferryFails o code f).getD s).kept = s.kept := by
  cases e : State.ferryFails { s with dp := d } o code f with
  | none => rfl
  | some t => exact (State.ferryFails_kept _ _ _ _ _ e).trans rfl

theorem execFerry_goes (id : Nat) (s : State) : Out.Goes s (execFerry id s) := by
  refine next_of_kept ?_
  dsimp only
  (repeat' split) <;> simp [State.ferryFails_dp_kept]

theorem execFerryWaitTimeout_goes (id : Nat) (s : State) : Out.Goes s (execFerryWaitTimeout id s) := by
  refine next_of_kept ?_
  split
  · rfl
  · split
    · split
      · rfl
      · rename_i efails
        simpa using State.ferryFails_kept _ _ _ _ _ efails
    · rfl

theorem execRtoExpiry_goes (i p : Nat) (s : State) : Out.Goes s (execRtoExpiry i p s) := by
  refine guarded_of_kept ?_
  split
  · rfl
  · extract_lets t x
    have ht : t.kept = s.kept := by simp [t]
    (repeat' split) <;> simp [ht]

/-! ### The host function, the dictionary, the supply -/

@[simp] theorem State.setD3hot_kept (s : State) (on : Bool) : (s.setD3hot on).kept = s.kept := by
  unfold State.setD3hot
  dsimp only
  (repeat' split) <;> rfl

theorem execBroadcastReadRsp_goes (s : State) : Out.Goes s (execBroadcastReadRsp s) := by
  refine next_of_kept ?_
  split
  · rfl
  · dsimp only
    (repeat' split) <;> simp

theorem execInputOvervoltage_goes (mean : Word) (s : State) : Out.Goes s (execInputOvervoltage mean s) := by
  refine next_of_kept ?_
  dsimp only
  (repeat' split) <;> simp [-State.countSupply_pwr, -State.beginEvent_pwr]

end Sys2Proof.Machine
end

