-- ==== Sys2Proof/Proofs/Governor.lean ====
section
/-!
PROOFS. The governor's ranges (14 R421 to R423): no command takes a die's k out of 1 to 16 or its point out of P0 to P5, and time
alone changes neither.
-/

namespace Sys2Proof.Machine

/-- A function after one that leaves alone what it reads. -/
theorem State.Goes.after_kept {s t u : State} (h : t.Goes u) (ht : t.kept = s.kept) : s.Goes u := (State.Goes.of_kept ht).trans h

/-! ### The governor's commands -/

/-- A move to a point that is in range wherever the dies are. -/
theorem State.movePoint_goes_of {s : State} {p : Nat} (h : s.DiesOk → p ≤ 5) (d : Nat) : s.Goes (s.movePoint d p) := by
  by_cases hp : p ≤ 5
  · exact s.movePoint_goes d p hp
  · exact ⟨rfl, fun _ => Nat.le_refl _, fun hdies => absurd (h hdies) hp⟩

theorem execGovernorFastStep_goes (l : FastLimit) (mean : Word) (s : State) : Out.Goes s (execGovernorFastStep l mean s) := by
  refine next_goes ?_
  dsimp only
  split
  · exact (State.lowerAll_goes _).after_kept (s.setLimits_kept _ _)
  · exact .of_kept (s.setLimits_kept _ _)

theorem execGovernorMsTick_goes (m : MeterSample) (s : State) : Out.Goes s (execGovernorMsTick m s) := by
  refine next_goes ?_
  split
  · exact .refl s
  · exact ((State.stepK_goes _ m).after_kept (by simp)).then_kept (State.rearm_kept _)

theorem execRetune_goes (d : Nat) (up : Bool) (mean : Word) (s : State) : Out.Goes s (execRetune d up mean s) := by
  refine guarded_goes ?_
  split
  · split
    · exact State.movePoint_goes_of (fun hdies => by have := (hdies d).2.2; omega) d
    · exact .refl s
  · split
    · rename_i hfall
      have hpoint : (s.die d).point.toNat < 5 := by
        simp only [State.mayFall, Bool.and_eq_true, decide_eq_true_eq] at hfall
        exact hfall.2
      exact s.movePoint_goes d _ hpoint
    · exact .refl s

theorem execMarginShort_goes (d : Nat) (s : State) : Out.Goes s (execMarginShort d s) := by
  refine guarded_goes ?_
  exact s.updDie_goes d _ fun _ hlow hhigh hpoint => ⟨hlow, hhigh, hpoint⟩

theorem execThermalRead_goes (r : Temperatures) (s : State) : Out.Goes s (execThermalRead r s) := by
  refine next_goes ?_
  split
  · exact .refl s
  · refine State.Goes.then_kept (State.Goes.after_kept (foldl_goes _ State.readOne_goes (readings r) _) ?_) rfl
    rfl

theorem execThermalKStep_goes (d : Nat) (s : State) : Out.Goes s (execThermalKStep d s) := by
  refine guarded_goes ?_
  split
  · exact s.updDie_goes d _ Die.lower_range
  · exact .refl s

/-! ### Resets, restarts, boot -/

theorem execModuleReset_goes (c : ResetCause) (s : State) : Out.Goes s (execModuleReset c s) := by
  refine next_goes ?_
  cases c with
  | powerUp => exact s.powerUp_goes
  | modRstN => exact (State.moduleReset_goes _).after_kept rfl
  | restart =>
    dsimp only
    split
    · exact s.restart_goes
    · exact .refl s

theorem execSupplyRestart_goes (s : State) : Out.Goes s (execSupplyRestart s) := by
  refine next_goes ?_
  split
  · exact s.restart_goes
  · exact .of_kept rfl

theorem execReferenceRestored_goes (s : State) : Out.Goes s (execReferenceRestored s) := by
  refine next_goes ?_
  split
  · exact .refl s
  · dsimp only
    split
    · exact (State.restart_goes _).after_kept rfl
    · exact .of_kept rfl

theorem execBootStageComplete_goes (b : BootFindings) (s : State) : Out.Goes s (execBootStageComplete b s) := by
  refine next_goes ?_
  split
  · exact .refl s
  · exact s.stageDone_goes b

theorem execManagementPowerLoss_goes (s : State) : Out.Goes s (execManagementPowerLoss s) :=
  next_goes (s.cold_goes.then_kept rfl)

theorem execNvInhibitClear_goes (s : State) : Out.Goes s (execNvInhibitClear s) := by
  refine next_goes ?_
  split
  · exact (State.flushFlash_goes _).after_kept rfl
  · exact .refl s

/-! ### Every command -/

/-- Any command: most call functions that leave the dies alone, the governor's commands move them within their range, and resets and
boot stages leave them as at reset or lock their roots. -/
theorem exec_goes (i : Instr) (s : State) : Out.Goes s (exec i s) := by
  cases i with
  | doorbellWrite | headerCheck | dispatch | queueEnable | queueDisable | resume | cntAdd | cntSet | faultedClear | evtClear
  | laneConfigWrite | lossClear | checkArm | runAheadDispatch | descSkipped | runaheadCfgWrite | pageFree | poolConfigWrite
  | peerReset | portEnable | portDisable | retrain | pauseTimeExpiry | mbxWordWrite | send | ackMessage | acquire | lockRelease
  | msixUnmask | domainReqOn | domainReqSlack | domainReqOff | retrainInterface
  | descriptorFetch | fetchAbort | stringReseed | rxData | ack | ackTimer | nak | syncReq | syncRsp | firstEstablishmentTimeout
  | trainingDone | trainingTimeout | downTimeout | degradedWindow | thermalTrip | slackEntry | slackWake
  | domainPowerRemoved | domainPoweredUp | scrub => exact guarded_of_kept (by simp)
  | completionSignal | xfInfoClear | registerWrite | mirrorRead | sweep | sweepInstanceFault | release | convert | run
  | attend | attendGrad | prefixKeyWrite | hawserConfigWrite | bar4Read | bar4Write | sideDataRead | sideDataWrite | hostReset
  | doeAbort | readReq | writeReq | domainSegment | store | restoreDefaults | clearExtremes | logAck | plcaWrite | capWrite
  | targetWrite | activate | tunerEnable | tunerDisable | modRstNRelease => exact next_of_kept (by simp)
  | gate | peek | clear | land | exportShard | fence | storePte | save | restore | reseed | entropyHealthFail | noEntropyTimeout
  | allreduce | sample | nop | notify | ctxSave | supplyEventBegin | supplyEventEnd | rippleWindow | overcurrent
  | referenceLoss | capReleaseStep | bursts | burstEnd | throttleChange | throttleHeld | throttleChatter | chatterClear
  | bootHalt | domainTimeout | storeDone | energySave | verificationDone | repairRecord | pcieLinkUp | functionStateChange
  | spdmRequest =>
    refine next_of_kept ?_
    (repeat' split) <;> simp
  | fill | entropyReady | put | regroup | collTimeout | check | ctxRestore =>
    refine next_of_kept ?_
    dsimp only
    (repeat' split) <;> simp
  | deadlineClose | busyResend | pause | drainDone | linkFailure =>
    refine guarded_of_kept ?_
    (repeat' split) <;> simp
  | push id => exact execPush_goes id s
  | pop id => exact execPop_goes id s
  | openSeq => exact next_of_kept (State.seqOp_kept _ _ _ _ openBody_keeps)
  | closeSeq => exact next_of_kept (State.seqOp_kept _ _ _ _ closeBody_keeps)
  | append => exact next_of_kept (State.seqOp_kept _ _ _ _ appendBody_keeps)
  | truncate => exact next_of_kept (State.seqOp_kept _ _ _ _ truncateBody_keeps)
  | reserve => exact next_of_kept (State.seqOp_kept _ _ _ _ reserveBody_keeps)
  | matchPrefix => exact next_of_kept (State.seqOp_kept _ _ _ _ matchBody_keeps)
  | publish => exact next_of_kept (State.seqOp_kept _ _ _ _ publishBody_keeps)
  | query => exact next_of_kept (State.seqOp_kept _ _ _ _ queryBody_keeps)
  | ferry id => exact execFerry_goes id s
  | ferryWaitTimeout id => exact execFerryWaitTimeout_goes id s
  | putFrame i p => exact execPutFrame_goes i p s
  | contribFrame i p => exact execContribFrame_goes i p s
  | statsFrame i p => exact execStatsFrame_goes i p s
  | readyFrame i p => exact execReadyFrame_goes i p s
  | closeFrame i p => exact execCloseFrame_goes i p s
  | ferryBlock i p => exact execFerryBlock_goes i p s
  | ferryFree i p => exact execFerryFree_goes i p s
  | rtoExpiry i p => exact execRtoExpiry_goes i p s
  | broadcastReadRsp => exact execBroadcastReadRsp_goes s
  | inputOvervoltage mean => exact execInputOvervoltage_goes mean s
  | nvInhibitClear => exact execNvInhibitClear_goes s
  | supplyRestart => exact execSupplyRestart_goes s
  | referenceRestored => exact execReferenceRestored_goes s
  | governorFastStep l mean => exact execGovernorFastStep_goes l mean s
  | governorMsTick m => exact execGovernorMsTick_goes m s
  | retune d up mean => exact execRetune_goes d up mean s
  | marginShort d => exact execMarginShort_goes d s
  | thermalRead r => exact execThermalRead_goes r s
  | thermalKStep d => exact execThermalKStep_goes d s
  | moduleReset c => exact execModuleReset_goes c s
  | bootStageComplete b => exact execBootStageComplete_goes b s
  | managementPowerLoss => exact execManagementPowerLoss_goes s

/-! ### The step -/

/-- A step from dies in range: a nanosecond leaves them alone, and the command at the front of the queue keeps them. -/
theorem step_keeps_diesOk {s t : State} (hdies : s.DiesOk) (hstep : step s = .next t) : t.DiesOk := by
  unfold step at hstep
  split at hstep
  · cases hstep
    exact (State.Goes.of_kept s.tick_kept).dies hdies
  · rename_i c rest _
    exact (exec_goes c { s with pending := rest } t hstep).dies hdies

/-- Settles O41: the hypothesis is `State.DiesOk`, which every step keeps by the cases of `exec_goes`. -/
theorem governorStaysInRange : Obligations.GovernorStaysInRange := fun _ _ => step_keeps_diesOk

end Sys2Proof.Machine
end

