-- ==== Sys2Proof/Proofs/Shutdowns.lean ====
section
/-!
PROOFS. Orderly shutdowns and restarts (14 R416 to R418, R426, R430; 17 R473, R477): each cause reaches the shutdown
through records that leave alone what a restart goes by; the shutdown leaves the module down, and a restart is a module reset.
-/

namespace Sys2Proof.Machine

/-! ### The records of a cause -/

/-- What a restart goes by and carries over: the time, the boot state, the meters, and the power state but for the inhibit. -/
def State.restartView (s : State) : Reg × Boot × Meters × Pwr :=
  (s.tide, s.boot, s.dic.meters, { s.pwr with nvInhibit := false })

@[simp] theorem State.countSupply_restartView (s : State) (k : Nat) : (s.countSupply k).restartView = s.restartView := rfl

@[simp] theorem State.beginEvent_restartView (s : State) (k : Nat) (ext : Word) :
    (s.beginEvent k ext).restartView = s.restartView := rfl

@[simp] theorem State.inhibitBelow_restartView (s : State) (mean : Word) : (s.inhibitBelow mean).restartView = s.restartView := by
  unfold State.inhibitBelow
  split <;> rfl

@[simp] theorem State.deepen_restartView (s : State) (k : Nat) (f : Word → Word) :
    (s.deepen k f).restartView = s.restartView := by
  unfold State.deepen
  dsimp only
  split
  · split <;> rfl
  · rfl

@[simp] theorem State.relog_restartView (s : State) (c : Relog) : (s.relog c).restartView = s.restartView := by
  unfold State.relog
  dsimp only
  split <;> rfl

@[simp] theorem State.dipToDropout_restartView (s : State) (e : SupplyEv) (mean : Word) :
    (s.dipToDropout e mean).restartView = s.restartView := by
  unfold State.dipToDropout
  exact State.relog_restartView _ _

/-- A module on its way down: it is as it was, but for its records and its power state, which is p whatever the inhibit. -/
structure State.Falls (s : State) (p : Pwr) (v : State) : Prop where
  tide : v.tide = s.tide
  boot : v.boot = s.boot
  meters : v.dic.meters = s.dic.meters
  pwr : ∃ nv, v.pwr = { p with nvInhibit := nv }

/-- Records, and then a change of the power state other than the inhibit's. -/
theorem State.Falls.of_records {s w : State} (h : w.restartView = s.restartView) (f : Pwr → Pwr)
    (hf : ∀ p nv, f { p with nvInhibit := nv } = { f p with nvInhibit := nv }) :
    s.Falls (f s.pwr) { w with pwr := f w.pwr } := by
  simp only [State.restartView, Prod.mk.injEq] at h
  obtain ⟨htide, hboot, hmeters, hpwr⟩ := h
  have hw : w.pwr = { s.pwr with nvInhibit := w.pwr.nvInhibit } :=
    congrArg (fun p : Pwr => { p with nvInhibit := w.pwr.nvInhibit }) hpwr
  refine ⟨htide, hboot, hmeters, w.pwr.nvInhibit, ?_⟩
  show f w.pwr = _
  rw [hw, hf]

theorem State.Falls.up {s v : State} {p : Pwr} (h : s.Falls p v) (hup : p.shut = none) : v.pwr.shut = none := by
  obtain ⟨nv, hpwr⟩ := h.pwr
  rw [hpwr]
  exact hup

/-! ### The shutdown (14 R416) -/

/-- An entry of a table with the keys 0 to n - 1. -/
theorem tget_map_range {α : Type} (d : α) (f : Nat → α) {n k : Nat} (h : k < n) :
    tget d ((List.range n).map fun x => (x, f x)) k = f k := by
  have hfrom : ∀ (m a : Nat), a ≤ k → k < a + m → tget d ((List.range' a m).map fun x => (x, f x)) k = f k := by
    intro m
    induction m with
    | zero => intro a ha hk; omega
    | succ m ih =>
      intro a ha hk
      rw [List.range'_succ, List.map_cons, tget]
      by_cases heq : k = a
      · simp [heq]
      · rw [if_neg heq, if_neg (by omega)]
        exact ih (a + 1) (by omega) (by omega)
  rw [List.range_eq_range']
  exact hfrom n 0 (Nat.zero_le k) (by omega)

/-- A shutdown that has begun completes, whatever comes. -/
theorem State.shutdown_of_some {s : State} (h : s.pwr.shut.isSome = true) (c : Shutdown) : s.shutdown c = s := by
  rw [State.shutdown, if_pos h]

theorem State.powerOff_domain (s : State) {x : Nat} (hx : x < 32) : (s.powerOff.domain x).st = .off := by
  show (tget Domain.reset ((List.range 32).map fun x => (x, { s.domain x with st := .off, pending := false, pendReq := 0 }))
    x).st = _
  rw [tget_map_range _ _ hx]

theorem State.shutdown_isDown {s : State} (hup : s.pwr.shut = none) (c : Shutdown) : (s.shutdown c).IsDown := by
  rw [State.shutdown_of_none hup]
  exact ⟨rfl, rfl, rfl, rfl, rfl, rfl, rfl, rfl, rfl, rfl, fun _ => s.powerOff_domain⟩

theorem State.shutdown_shut {s : State} (hup : s.pwr.shut = none) (c : Shutdown) : (s.shutdown c).pwr.shut = some c := by
  rw [State.shutdown_of_none hup]

/-! A shutdown leaves the inputs, the reference and what else a restart goes by. -/

section
variable (s : State) (c : Shutdown)

@[simp] theorem State.shutdown_tide : (s.shutdown c).tide = s.tide := by unfold State.shutdown; split <;> rfl
@[simp] theorem State.shutdown_boot : (s.shutdown c).boot = s.boot := by unfold State.shutdown; split <;> rfl
@[simp] theorem State.shutdown_meters : (s.shutdown c).dic.meters = s.dic.meters := by unfold State.shutdown; split <;> rfl
@[simp] theorem State.shutdown_ref : (s.shutdown c).pwr.ref = s.pwr.ref := by unfold State.shutdown; split <;> rfl
@[simp] theorem State.shutdown_tripped : (s.shutdown c).pwr.tripped = s.pwr.tripped := by unfold State.shutdown; split <;> rfl
@[simp] theorem State.shutdown_overcurrent : (s.shutdown c).pwr.overcurrent = s.pwr.overcurrent := by
  unfold State.shutdown; split <;> rfl
@[simp] theorem State.shutdown_in54 : (s.shutdown c).pwr.in54 = s.pwr.in54 := by unfold State.shutdown; split <;> rfl
@[simp] theorem State.shutdown_in12 : (s.shutdown c).pwr.in12 = s.pwr.in12 := by unfold State.shutdown; split <;> rfl
@[simp] theorem State.shutdown_inputOpen : (s.shutdown c).pwr.inputOpen = s.pwr.inputOpen := by
  unfold State.shutdown; split <;> rfl
@[simp] theorem State.shutdown_goodIn : (s.shutdown c).pwr.goodIn = s.pwr.goodIn := by unfold State.shutdown; split <;> rfl

end

/-! ### The restart (14 R418, R430; 17 R473) -/

section
variable {s t : State}

theorem State.restart_restarted (htide : t.tide = s.tide) (hmeters : t.dic.meters = s.dic.meters) : s.Restarted t.restart :=
  ⟨rfl, rfl, rfl, rfl, rfl, rfl, rfl, htide, hmeters⟩

theorem State.mayRestart_iff : s.mayRestart = true ↔ s.Restartable ∧ s.mgmtOn = true
    ∧ (s.pwr.shut.isSome = true ∨ s.pwr.in54 = false) := by
  simp only [State.mayRestart, State.Restartable, Pwr.held, Bool.and_eq_true, Bool.or_eq_true, Bool.not_eq_true',
    Bool.or_eq_false_iff]
  constructor
  · rintro ⟨⟨⟨⟨hon, href⟩, hrun⟩, htrip, hover⟩, hcause⟩
    exact ⟨⟨href, hrun, htrip, hover⟩, hon, hcause⟩
  · rintro ⟨⟨href, hrun, htrip, hover⟩, hon, hcause⟩
    exact ⟨⟨⟨⟨hon, href⟩, hrun⟩, htrip, hover⟩, hcause⟩

theorem exec_supplyRestart (h : s.mayRestart = true) : exec .supplyRestart s = .next s.restart := by
  show execSupplyRestart s = _
  rw [execSupplyRestart, if_pos h]

theorem exec_supplyRestart_held (h : ¬s.mayRestart = true) :
    exec .supplyRestart s = .next { s with pwr := { s.pwr with goodIn := s.mgmtOn, below44 := false } } := by
  show execSupplyRestart s = _
  rw [execSupplyRestart, if_neg h]

theorem exec_moduleReset_restart (s : State) :
    exec (.moduleReset .restart) s = .next (if s.mayRestart then s.restart else s) := rfl

/-- The reference's return restarts a module whose input is good and that nothing else keeps down. -/
theorem exec_referenceRestored (hlost : s.pwr.ref = false) (hrun : s.boot.halted = false) (htrip : s.pwr.tripped = false)
    (hover : s.pwr.overcurrent = false) (hin : s.pwr.in54 = true) (hgood : s.pwr.goodIn = true) :
    exec .referenceRestored s = .next ({ s with pwr := { s.pwr with ref := true } } : State).restart := by
  show execReferenceRestored s = _
  simp [execReferenceRestored, State.mgmtOn, Pwr.held, hlost, hrun, htrip, hover, hin, hgood]

end

/-- The supply restarts a module that fell with the reference there and nothing else to keep it down. -/
theorem State.Falls.restarts {s v : State} {p : Pwr} (h : s.Falls p v) (hup : p.shut = none) (c : Shutdown)
    (hrun : s.boot.halted = false) (href : p.ref = true) (htrip : p.tripped = false) (hover : p.overcurrent = false)
    (hon : p.in54 = true ∨ p.in12 = true) : ∃ u, exec .supplyRestart (v.shutdown c) = .next u ∧ s.Restarted u := by
  have hshut : (v.shutdown c).pwr.shut = some c := State.shutdown_shut (h.up hup) c
  obtain ⟨nv, hpwr⟩ := h.pwr
  have hmay : (v.shutdown c).mayRestart = true := by
    rw [State.mayRestart_iff]
    simp [State.Restartable, State.mgmtOn, hshut, h.boot, hpwr, hrun, href, htrip, hover, hon]
  exact ⟨_, exec_supplyRestart hmay, State.restart_restarted (by simp [h.tide]) (by simp [h.meters])⟩

/-! ### The causes (14 R416, R417, R426, R430; 17 R477) -/

section
variable {s : State} {mean : Word}

/-- A dropout that begins: its records, and then the shutdown with the 54 V input out of range. -/
theorem State.beginDropout_of_first (hfirst : s.dic.find 2 = none) (hdrop : (numOf mean).lt (FV.ofNat 40) = true) :
    ∃ v, s.Falls { s.pwr with in54 := false, awaits := true, goodIn := false } v
      ∧ s.beginDropout mean = v.shutdown .input := by
  have hfalls {w : State} (h : w.restartView = s.restartView) :=
    State.Falls.of_records h (fun p => { p with in54 := false, awaits := true, goodIn := false }) fun _ _ => rfl
  unfold State.beginDropout
  simp only [hdrop, hfirst, Option.isSome_none, Bool.not_true, Bool.false_eq_true, if_false]
  split
  · exact ⟨_, hfalls (by simp), rfl⟩
  · exact ⟨_, hfalls (by simp), rfl⟩

/-- An overvoltage: its records, and then the shutdown with the input open. -/
theorem exec_inputOvervoltage (hon : s.mgmtOn = true) (hclosed : s.pwr.inputOpen = false)
    (hover : (FV.ofNat 60).lt (numOf mean) = true) :
    ∃ v, s.Falls { s.pwr with inputOpen := true, awaits := true, goodIn := false } v
      ∧ exec (.inputOvervoltage mean) s = .next (v.shutdown .overstress) := by
  have hfalls {w : State} (h : w.restartView = s.restartView) :=
    State.Falls.of_records h (fun p => { p with inputOpen := true, awaits := true, goodIn := false }) fun _ _ => rfl
  have hexec : exec (.inputOvervoltage mean) s = execInputOvervoltage mean s := rfl
  rw [hexec]
  unfold execInputOvervoltage
  simp only [hon, hclosed, hover, Bool.not_true, Bool.or_self, Bool.false_eq_true, if_false]
  refine ⟨_, hfalls ?_, rfl⟩
  rw [State.countSupply_restartView]
  (repeat' split) <;> simp

theorem exec_overcurrent (hclosed : s.pwr.inputOpen = false) (hin : s.pwr.in54 = true) :
    ∃ v, s.Falls { s.pwr with inputOpen := true, overcurrent := true } v
      ∧ exec .overcurrent s = .next (v.shutdown .overcurrent) := by
  have hexec : exec .overcurrent s = execOvercurrent s := rfl
  rw [hexec, execOvercurrent, if_neg (by simp [hclosed, hin])]
  exact ⟨{ s with pwr := { s.pwr with inputOpen := true, overcurrent := true } }, ⟨rfl, rfl, rfl, _, rfl⟩, rfl⟩

theorem exec_referenceLoss (href : s.pwr.ref = true) :
    ∃ v, s.Falls { s.pwr with ref := false } v ∧ exec .referenceLoss s = .next (v.shutdown .reference) := by
  have hexec : exec .referenceLoss s = execReferenceLoss s := rfl
  rw [hexec, execReferenceLoss, if_pos href]
  exact ⟨{ s with pwr := { s.pwr with ref := false } }, ⟨rfl, rfl, rfl, _, rfl⟩, rfl⟩

theorem exec_thermalTrip {die : Nat} {c : Word} (hdie : die < 5 ∨ (0x10 ≤ die ∧ die < 0x20)) (hon : s.mgmtOn = true)
    (hfirst : s.pwr.tripped = false) (hhot : hot c 105 = true) :
    ∃ v, s.Falls s.pwr v ∧ exec (.thermalTrip die c) s =
      .next { v.shutdown .trip with pwr := { (v.shutdown .trip).pwr with tripped := true } } := by
  have hexec : exec (.thermalTrip die c) s = execThermalTrip die c s := rfl
  refine ⟨s.logThermal die c, ⟨rfl, rfl, rfl, _, rfl⟩, ?_⟩
  rw [hexec, execThermalTrip, if_pos hhot]
  simp [guarded, hdie, State.trip, hon, hfirst]

end

theorem shutdowns : Claim.Shutdowns := by
  intro s hup
  refine ⟨fun mean hon hfirst hdrop => ?_, fun mean hon hclosed hover => ?_, fun hclosed hin => ?_, fun href => ?_,
    fun die c hdie hon hfirst hhot => ?_⟩
  · obtain ⟨-, hdropoutIs, -⟩ := exec_supplyEventBegin (mean := mean) hon
    obtain ⟨v, hfalls, hbegin⟩ := State.beginDropout_of_first (s := s.noteMean mean) hfirst hdrop
    have hvup := hfalls.up hup
    obtain ⟨nv, hpwr⟩ := hfalls.pwr
    rw [hdropoutIs, hbegin]
    refine ⟨_, rfl, State.shutdown_isDown hvup _, State.shutdown_shut hvup _, by simp [hpwr], fun hfree hin => ?_⟩
    obtain ⟨href, hrun, htrip, hover⟩ := hfree
    exact hfalls.restarts hup _ hrun href htrip hover (.inr hin)
  · obtain ⟨v, hfalls, hexec⟩ := exec_inputOvervoltage hon hclosed hover
    have hvup := hfalls.up hup
    obtain ⟨nv, hpwr⟩ := hfalls.pwr
    rw [hexec]
    refine ⟨_, rfl, State.shutdown_isDown hvup _, State.shutdown_shut hvup _, by simp [hpwr], fun hfree => ?_⟩
    obtain ⟨href, hrun, htrip, hcurrent⟩ := hfree
    exact hfalls.restarts hup _ hrun href htrip hcurrent (by simpa [State.mgmtOn] using hon)
  · obtain ⟨v, hfalls, hexec⟩ := exec_overcurrent hclosed hin
    have hvup := hfalls.up hup
    obtain ⟨nv, hpwr⟩ := hfalls.pwr
    exact ⟨_, hexec, State.shutdown_isDown hvup _, State.shutdown_shut hvup _, by simp [hpwr], by simp [hpwr]⟩
  · obtain ⟨v, hfalls, hexec⟩ := exec_referenceLoss href
    have hvup := hfalls.up hup
    obtain ⟨nv, hpwr⟩ := hfalls.pwr
    refine ⟨_, hexec, State.shutdown_isDown hvup _, State.shutdown_shut hvup _, by simp [hpwr], fun hfree hin hgood => ?_⟩
    obtain ⟨-, hrun, htrip, hover⟩ := hfree
    exact ⟨_, exec_referenceRestored (by simp [hpwr]) (by simp [hfalls.boot, hrun]) (by simp [hpwr, htrip])
      (by simp [hpwr, hover]) (by simp [hpwr, hin]) (by simp [hpwr, hgood]),
      State.restart_restarted (by simp [hfalls.tide]) (by simp [hfalls.meters]), rfl⟩
  · obtain ⟨v, hfalls, hexec⟩ := exec_thermalTrip hdie hon hfirst hhot
    have hvup := hfalls.up hup
    exact ⟨_, hexec, State.shutdown_isDown hvup _, State.shutdown_shut hvup _, rfl⟩

/-! ### What follows a shutdown (14 R416, R418, R426; 17 R473, R477) -/

/-- MOD_RST_N ends a trip and an overcurrent disconnect whose input is good, and no other cause. -/
theorem Pwr.shutAfter_held {p : Pwr} (h : p.shut = some .trip ∨ p.shut = some .overcurrent) (hinput : p.awaits = false)
    (href : p.ref = true) : p.shutAfter = none := by
  rcases h with h | h <;> simp [Pwr.shutAfter, h, hinput, href]

theorem Pwr.shutAfter_other {p : Pwr} {c : Shutdown} (hc : c = .input ∨ c = .overstress ∨ c = .reference)
    (h : p.shut = some c) : p.shutAfter = some c := by
  rcases hc with rfl | rfl | rfl <;> simp [Pwr.shutAfter, h]

theorem restarts : Claim.Restarts := by
  refine ⟨fun s c h => State.shutdown_of_some h c, fun s hfree hon hcause => ?_, fun s hheld => ?_, fun s => ?_⟩
  · have hmay := State.mayRestart_iff.2 ⟨hfree, hon, hcause⟩
    refine ⟨_, exec_supplyRestart hmay, ?_, State.restart_restarted rfl rfl⟩
    rw [exec_moduleReset_restart, if_pos hmay]
  · have hmay : ¬s.mayRestart = true := by
      rw [State.mayRestart_iff]
      rintro ⟨⟨href, hrun, htrip, hover⟩, hon, hcause⟩
      rcases hheld with hoff | hlost | hhalted | htripped | hdisconnect | ⟨hup, hin⟩
      · simp [hoff] at hon
      · simp [hlost] at href
      · simp [hhalted] at hrun
      · simp [htripped] at htrip
      · simp [hdisconnect] at hover
      · simp [hup, hin] at hcause
    exact ⟨exec_supplyRestart_held hmay, by rw [exec_moduleReset_restart, if_neg hmay]⟩
  · exact ⟨_, rfl, rfl, rfl, Pwr.shutAfter_held (p := s.pwr), fun _ => Pwr.shutAfter_other (p := s.pwr)⟩

/-- Settles O39: each cause by the state in which it reaches the shutdown, the restarts by the condition of `State.mayRestart`. -/
theorem shutdownsAndRestarts : Obligations.ShutdownsAndRestarts := ⟨shutdowns, restarts⟩

end Sys2Proof.Machine
end

