-- ==== Sys2Proof/Proofs/EveryStep.lean ====
section
/-!
PROOFS. What every command and every step does: which stop, and what becomes of the queue and the anti-rollback counters, from what
`exec_goes` says of a command.
-/

namespace Sys2Proof.Machine

/-! ### The step -/

theorem step_cons (s : State) (c : Instr) (rest : List Instr) :
    step { s with pending := c :: rest } = exec c { s with pending := rest } := rfl

theorem step_nil {s : State} (h : s.pending = []) : step s = .next s.tick := by
  unfold step
  rw [h]

/-- Settles O1: each of its two cases is one of the step. -/
theorem stepRunsTheFrontCommand : Obligations.StepRunsTheFrontCommand :=
  fun s c rest => ⟨step_cons s c rest, step_nil⟩

/-- Settles O3, by what `exec_goes` says of the queue. -/
theorem commandsKeepTheQueue : Obligations.CommandsKeepTheQueue :=
  fun c s t h => (exec_goes c s t h).pending

/-- Any step, but for the command that it takes from the queue: a nanosecond leaves the counters and the dies alone, and the command
changes them as `exec_goes` says. -/
theorem step_goes {s t : State} (h : step s = .next t) : ∃ queue, State.Goes { s with pending := queue } t := by
  cases hqueue : s.pending with
  | nil =>
    rw [step_nil hqueue] at h
    cases h
    exact ⟨s.pending, .of_kept s.tick_kept⟩
  | cons c rest =>
    have hs : s = { s with pending := c :: rest } := by rw [← hqueue]
    rw [hs, step_cons] at h
    exact ⟨rest, exec_goes c _ t h⟩

/-- Settles O5, by what `step_goes` says of the counters. -/
theorem rollbackCountersNeverFall : Obligations.RollbackCountersNeverFall := by
  intro s t hstep
  obtain ⟨queue, hgoes⟩ := step_goes hstep
  exact hgoes.counters

/-! ### Stops -/

/-- An outcome of a command that may stop for want of a component only, and only where a check of its operands fails. -/
def Out.StopsUnless (ok : Bool) (r : Out) : Prop := (ok = true → Completes r) ∧ (Completes r ∨ r = .fault .noSuchComponent)

section
variable {ok c : Bool} {t : State}

theorem next_stopsUnless : Out.StopsUnless ok (.next t) := ⟨fun _ => ⟨t, rfl⟩, .inl ⟨t, rfl⟩⟩

/-- A guard that the check implies. -/
theorem guarded_stopsUnless (h : ok = true → c = true) : Out.StopsUnless ok (guarded c t) := by
  cases c with
  | true => exact next_stopsUnless
  | false => exact ⟨fun hok => (nomatch h hok), .inr rfl⟩

end

/-- Every command: most do something in every state, and those whose operand names a component are guarded by a part of the check of
a well-formed command. -/
theorem exec_stopsUnless (i : Instr) (s : State) : Out.StopsUnless i.wf (exec i s) := by
  cases i with
  | doorbellWrite | fetchAbort | headerCheck | dispatch | queueEnable | queueDisable | resume | cntAdd | cntSet | faultedClear
  | evtClear | descSkipped | laneConfigWrite | lossClear | checkArm | runAheadDispatch | runaheadCfgWrite | stringReseed
  | pageFree | poolConfigWrite | putFrame | contribFrame | statsFrame | readyFrame | closeFrame | ferryBlock | ferryFree
  | deadlineClose | ackTimer | busyResend | rtoExpiry | pause | peerReset | portEnable | portDisable | retrain | trainingDone
  | trainingTimeout | downTimeout | drainDone | linkFailure | degradedWindow | mbxWordWrite | send | ackMessage | acquire
  | lockRelease | msixUnmask | retune | marginShort | thermalTrip | thermalKStep | domainReqOn | domainReqSlack | domainReqOff
  | slackEntry | slackWake | domainPowerRemoved | domainPoweredUp | retrainInterface | scrub | pauseTimeExpiry
  | firstEstablishmentTimeout => exact guarded_stopsUnless id
  | descriptorFetch | rxData | ack | nak | syncReq | syncRsp => exact guarded_stopsUnless Laws.Bounds.left
  | _ => exact next_stopsUnless

/-- Settles O2, by the cases of `exec_stopsUnless`. -/
theorem onlyMissingComponentsStop : Obligations.OnlyMissingComponentsStop := fun c s => exec_stopsUnless c s

end Sys2Proof.Machine
end

