-- ==== Sys2Proof/Proofs/ResetRegisters.lean ====
section
/-!
PROOFS. What a register of BAR0 reads as by its place in the map, and what reset leaves in each.
-/

namespace Sys2Proof.Machine

/-! ### The map of BAR0 -/

/-- The register of an array that an offset names, by its number. -/
theorem within_of {base stride n i r off : Nat} (hoff : off = base + stride * i + r) (hi : i < n) (hr : r < stride) :
    within_ base stride n off = some (i, r) := by
  have hend : stride * i + r < stride * n := by
    have := Nat.mul_le_mul_left stride (Nat.succ_le_of_lt hi)
    rw [Nat.mul_succ] at this
    omega
  have hrest : off - base = stride * i + r := by omega
  rw [within_, if_pos (by omega), hrest, Nat.mul_add_div (by omega), Nat.div_eq_of_lt hr, Nat.mul_add_mod, Nat.mod_eq_of_lt hr,
    Nat.add_zero]

/-- An offset outside an array. -/
theorem within_none {base stride n off : Nat} (h : off < base ∨ base + stride * n ≤ off) : within_ base stride n off = none :=
  if_neg (by omega)

/-- Between the first page and the end of the counters no event counter lies. -/
theorem event_outside_arrays {off : Nat} (h : off ∈ allEvents) : off < 0x1000 ∨ 0xC000 ≤ off := by
  have hall : ∀ x ∈ allEvents, x < 0x1000 ∨ 0xC000 ≤ x := by decide +kernel
  exact hall off h

theorem not_event {off : Nat} (hlow : 0x1000 ≤ off) (hhigh : off < 0xC000) : allEvents.contains off = false := by
  rw [List.contains_eq_mem, decide_eq_false_iff_not]
  intro h
  rcases event_outside_arrays h with h | h <;> omega

section
variable (s : State)

theorem State.readBar0_event {off : Nat} (h : off ∈ allEvents) : s.readBar0 off = (s.count off).toNat := by
  rw [State.readBar0, if_pos (List.contains_iff_mem.mpr h)]
  rfl

theorem State.readBar0_global {off : Nat} (hoff : off < 0x1000) (h : allEvents.contains off = false) :
    s.readBar0 off = s.readGlobal off := by
  rw [State.readBar0, h, if_neg (by decide), if_pos hoff]

theorem State.readBar0_queue {q r off : Nat} (hoff : off = 0x1000 + 0x40 * q + r) (hq : q < 64) (hr : r < 0x40) :
    s.readBar0 off = s.readQueue q r := by
  rw [State.readBar0, not_event (by omega) (by omega), if_neg (by decide), if_neg (by omega), within_of hoff hq hr]

theorem State.readBar0_counter {n : Nat} (hn : n < 4096) : s.readBar0 (0x4000 + 8 * n) = (s.counter n).word := by
  rw [State.readBar0, not_event (by omega) (by omega), if_neg (by decide), if_neg (by omega), within_none (by omega),
    within_none (by omega), within_none (by omega), within_of (Nat.add_zero _).symm hn (by decide)]

/-- Beyond the counters lie the blocks of the chapters. -/
theorem State.readBar0_tuner {off : Nat} (hlow : 0x1003000 ≤ off) (hhigh : off < 0x1004000) (h : allEvents.contains off = false) :
    s.readBar0 off = s.readTuner (off - 0x1003000) := by
  rw [State.readBar0, h, if_neg (by decide), if_neg (by omega), within_none (by omega), within_none (by omega),
    within_none (by omega), within_none (by omega)]
  dsimp only
  rw [if_neg (by omega), if_neg (by omega), if_pos ⟨hlow, hhigh⟩]

/-- TUNER_SEL_s. -/
theorem State.readBar0_tunerSel {i : Nat} (hi : i < 16) : s.readBar0 (0x1003110 + 0x40 * i) = (s.tunerSlot i).selWord := by
  have hfree : allEvents.contains (0x1003110 + 0x40 * i) = false := by
    have hall : ∀ i < 16, allEvents.contains (0x1003110 + 0x40 * i) = false := by decide
    exact hall i hi
  rw [s.readBar0_tuner (by omega) (by omega) hfree, State.readTuner, if_neg (by omega),
    within_of (i := i) (r := 16) (by omega) hi (by decide)]
  rfl

end

/-! ### What reset leaves -/

theorem reset_queue (q : Nat) : State.reset.queue q = Queue.reset := rfl

theorem reset_counter (n : Nat) : State.reset.counter n = Cnt.reset := rfl

theorem reset_count (off : Nat) : State.reset.count off = 0 := rfl

theorem reset_tunerSlot (i : Nat) : State.reset.tunerSlot i = TunerSlot.reset := rfl

/-- The four registers of a queue. -/
theorem resetQueueRegisters {q : Nat} (hq : q < 64) :
    State.reset.readBar0 (0x1000 + 0x40 * q) = 0 ∧ State.reset.readBar0 (0x1008 + 0x40 * q) = 0x400
      ∧ State.reset.readBar0 (0x1010 + 0x40 * q) = 0 ∧ State.reset.readBar0 (0x1018 + 0x40 * q) = 0 := by
  rw [State.readBar0_queue _ (r := 0) (by omega) hq (by decide), State.readBar0_queue _ (r := 8) (by omega) hq (by decide),
    State.readBar0_queue _ (r := 16) (by omega) hq (by decide), State.readBar0_queue _ (r := 24) (by omega) hq (by decide)]
  simp only [State.readQueue, reset_queue]
  decide

/-- Settles O6, register by register: those of an array by their place in the map, the rest by their value at reset. -/
theorem resetRegisters : Obligations.ResetRegisters := by
  refine ⟨fun q => resetQueueRegisters, fun n hn => ?_, fun off hoff => ?_, ?_, fun i hi => ?_, ?_, ?_, fun d => ⟨rfl, rfl⟩,
    rfl, rfl, rfl⟩
  · rw [State.readBar0_counter _ hn, reset_counter]
    decide
  · rw [State.readBar0_event _ hoff, reset_count]
    rfl
  · rw [State.readBar0_global _ (by decide) (by decide)]
    decide
  · rw [State.readBar0_tunerSel _ hi, reset_tunerSlot]
    decide
  · decide
  · decide

end Sys2Proof.Machine
end

