-- ==== Sys2Proof/Proofs/BootAndResets.lean ====
section
/-!
PROOFS. Boot stages (15 R439, R440, R450, R451), what may run, and what a module reset and the loss of power leave (15 R437; 01 R25).
-/

namespace Sys2Proof.Machine

/-! ### Domains that come on (14 R435) -/

/-- What boot goes by: its own state and the state of the power domains. -/
def State.bootView (s : State) : Boot × Pwr := (s.boot, s.pwr)

theorem State.bootView_of_outside {s t : State} (h : t.outside = s.outside) : t.bootView = s.bootView :=
  (congrArg State.bootView h :)

@[simp] theorem State.deliverWaiting_bootView (s : State) (x : Nat) : (s.deliverWaiting x).bootView = s.bootView :=
  foldl_keeps (g := State.bootView) (fun _ _ _ => by rfl) _

@[simp] theorem State.emptyLanes_bootView (s : State) (x : Nat) : (s.emptyLanes x).bootView = s.bootView := by
  refine foldl_keeps (g := State.bootView) (fun l _ s => ?_) s
  dsimp only
  split <;> rfl

@[simp] theorem State.stackUp_bootView (s : State) (x : Nat) : (s.stackUp x).bootView = s.bootView := by
  rw [State.stackUp, State.emptyLanes_bootView, State.bootView_of_outside (State.initPool_outside _ _)]
  rfl

@[simp] theorem State.clusterOn_bootView (s : State) (x : Nat) (seeds : Bool) : (s.clusterOn x seeds).bootView = s.bootView := by
  unfold State.clusterOn
  dsimp only
  split
  · simp [State.bootView]
  · rfl

/-- A domain that has come on, or goes off again because its request went. -/
def Domain.cameOn (d : Domain) : Domain := { d with st := if d.req = 0 then .down else .on }

/-- Of what boot goes by, only the domain changes. -/
theorem State.comeOn_bootView (s : State) (x : Nat) (seeds : Bool) :
    (s.comeOn x seeds).bootView = (s.updDom x Domain.cameOn).bootView := by
  rw [State.comeOn, State.deliverWaiting_bootView]
  split
  · exact State.stackUp_bootView _ _
  · split
    · rfl
    · exact State.clusterOn_bootView _ _ _

section
variable (s : State)

@[simp] theorem State.comeOn_boot (x : Nat) (seeds : Bool) : (s.comeOn x seeds).boot = s.boot :=
  (congrArg Prod.fst (s.comeOn_bootView x seeds) :)

theorem State.comeOn_domain (x y : Nat) (seeds : Bool) :
    (s.comeOn x seeds).domain y = if y = x then (s.domain x).cameOn else s.domain y := by
  have hpwr : (s.comeOn x seeds).pwr = (s.updDom x Domain.cameOn).pwr := congrArg Prod.snd (s.comeOn_bootView x seeds)
  rw [State.domain, hpwr]
  exact State.domain_updDom s x y _

end

/-- Some domains come on, one after the other. -/
theorem State.foldl_comeOn_domain (l : List Nat) (s : State) (y : Nat) :
    (l.foldl (fun s x => s.comeOn x false) s).domain y = if y ∈ l then (s.domain y).cameOn else s.domain y := by
  induction l generalizing s with
  | nil => rfl
  | cons x l ih =>
    have htwice (d : Domain) : d.cameOn.cameOn = d.cameOn := rfl
    rw [List.foldl_cons, ih, State.comeOn_domain]
    by_cases hy : y = x
    · subst hy
      simp [htwice]
    · simp [hy]

/-! ### Halts (15 R440) -/

section
variable (s : State) (why : Nat)

@[simp] theorem State.halt_boot : (s.halt why).boot = { s.boot with halted := true, reason := why } := rfl

theorem State.halt_unpowered : (s.halt why).pwr.meshOn = false ∧ (s.halt why).pwr.hostOn = false := ⟨rfl, rfl⟩

/-- Only stack domains keep their power. -/
theorem State.halt_domain {x : Nat} (hx : x < 16) : ((s.halt why).domain x).st = .off := by
  have hdoms : (s.halt why).pwr.doms = (List.range 32).map fun x => (x,
      if 16 ≤ x ∧ ((s.domain x).st = .on ∨ (s.domain x).st = .slack) then s.domain x else { s.domain x with st := .off }) := rfl
  rw [State.domain, hdoms, tget_map_range _ _ (by omega), if_neg (by omega)]

end

/-! ### Loading an object (15 R451) -/

section
variable {s : State} {kind : Nat}

/-- The object that is loaded has passed the checks, and the search for it leaves the boot state alone. -/
theorem State.loadObject_ok {u : State} {o : List Byte} (h : s.loadObject kind = (u, .ok o)) :
    u.boot = s.boot ∧ s.boot.rejects kind o = none := by
  unfold State.loadObject at h
  dsimp only at h
  split at h
  · rename_i hactive
    cases h
    exact ⟨rfl, hactive⟩
  · split at h
    · rename_i hother
      cases h
      exact ⟨rfl, hother⟩
    · cases h

theorem State.loadObject_error {u : State} {why : Nat} (h : s.loadObject kind = (u, .error why)) : u.boot = s.boot := by
  unfold State.loadObject at h
  dsimp only at h
  split at h
  · cases h
  · split at h
    · cases h
    · cases h
      rfl

/-- A stage that loads an object goes on with one that passed, or halts. -/
theorem State.loadStage_cases (s : State) (kind : Nat) (f : State → List Byte → State) : ∃ u : State, u.boot = s.boot
    ∧ ((∃ o, s.boot.rejects kind o = none ∧ s.loadStage kind f = f (u.runObject kind o) o)
      ∨ ∃ why, s.loadStage kind f = u.halt why) := by
  unfold State.loadStage
  split
  · rename_i u o hload
    obtain ⟨hboot, hok⟩ := State.loadObject_ok hload
    exact ⟨u, hboot, .inl ⟨o, hok, rfl⟩⟩
  · rename_i u why hload
    exact ⟨u, State.loadObject_error hload, .inr ⟨why, rfl⟩⟩

/-- The active slot's object is taken when it passes. -/
theorem State.loadStage_active (h : s.boot.rejects kind (s.boot.slot kind (s.boot.activeSlot kind)) = none)
    (f : State → List Byte → State) :
    s.loadStage kind f = f (s.runObject kind (s.boot.slot kind (s.boot.activeSlot kind)))
      (s.boot.slot kind (s.boot.activeSlot kind)) := by
  have hload : s.loadObject kind = (s, .ok (s.boot.slot kind (s.boot.activeSlot kind))) := by
    unfold State.loadObject
    dsimp only
    rw [h]
  rw [State.loadStage, hload]

end

/-! ### The work of the stages (15 R439) -/

section
variable {s : State} (b : BootFindings)

theorem exec_bootStageComplete (hrun : s.boot.halted = false) (hon : s.mgmtOn = true) :
    exec (.bootStageComplete b) s = .next (s.stageDone b) := by
  show execBootStageComplete b s = _
  simp [execBootStageComplete, hrun, hon]

theorem State.stageDone_zero (h : s.boot.stage = 0) : s.stageDone b = if s.pwr.modRst then s else s.toStage 1 := by
  simp only [State.stageDone, h]

theorem State.stageDone_one (h : s.boot.stage = 1) :
    s.stageDone b = if b.pufOk then s.identityStage.toStage 2 else (s.logEvent Log.pufFail 0 0 0).halt 0 := by
  simp only [State.stageDone, h]

theorem State.stageDone_two (h : s.boot.stage = 2) :
    s.stageDone b = if s.boot.partOk then s.logManifests.loadStage 1 fun s m => (s.useManifest m).toStage 3
      else s.halt Why.partition := by
  simp only [State.stageDone, h]

theorem State.stageDone_four (h : s.boot.stage = 4) : s.stageDone b = s.loadStage 2 fun s _ => s.toStage 5 := by
  simp only [State.stageDone, h]

theorem State.stageDone_five (h : s.boot.stage = 5) :
    s.stageDone b = if s.inputGood then s.powerStage.toStage 6 else s := by
  simp only [State.stageDone, h]

end

/-- Locking the roots leaves the power domains. -/
theorem State.lockRoots_domain (l : List Nat) (s : State) (x : Nat) : (l.foldl State.lockRoot s).domain x = s.domain x :=
  foldl_keeps (g := fun s : State => s.domain x) (fun _ _ _ => by rfl) s

/-- Stage 5: the lock and cluster domains that are asked for are on. -/
theorem State.powerStage_domain {s : State} {x : Nat} (hx : x < 16) (hreq : (s.domain x).req ≠ 0) :
    (s.powerStage.domain x).st = .on := by
  have hmesh (t : State) : t.meshUp.domain x = t.domain x := rfl
  rw [State.powerStage, hmesh, State.lockRoots_domain, State.clustersOn, State.foldl_comeOn_domain,
    if_pos (List.mem_range.mpr hx), Domain.cameOn, if_neg hreq]

theorem State.toStage_domain (s : State) (n x : Nat) : (s.toStage n).domain x = s.domain x := rfl

theorem exec_bootHalt {s : State} (hrun : s.boot.halted = false) (hon : s.mgmtOn = true) (hstage : s.boot.stage < 7) (why : Nat) :
    exec (.bootHalt why) s = .next (s.halt why) := by
  show execBootHalt why s = _
  simp [execBootHalt, hrun, hon, Nat.not_le.mpr hstage]

theorem bootStages : Claim.BootStages := by
  intro s b hrun hon
  rw [exec_bootStageComplete b hrun hon]
  refine ⟨fun hstage hreset => ?_, fun hstage hpuf => ?_, fun hstage hpart => ?_, fun hstage hpuf => ?_,
    fun hstage hpass => ?_, fun hstage hin => ?_, fun hstage hin => ?_, fun hstage why => ?_⟩
  · rw [State.stageDone_zero b hstage, if_neg (by simp [hreset])]
    rfl
  · rw [State.stageDone_one b hstage, if_pos hpuf]
    rfl
  · rw [State.stageDone_two b hstage, if_neg (by simp [hpart])]
    exact ⟨_, rfl, rfl, rfl, hstage, s.halt_unpowered _⟩
  · rw [State.stageDone_one b hstage, if_neg (by simp [hpuf])]
    obtain ⟨hmesh, hhost⟩ := (s.logEvent Log.pufFail 0 0 0).halt_unpowered 0
    exact ⟨_, rfl, rfl, hstage, hmesh, hhost, fun x => State.halt_domain _ _⟩
  · rw [State.stageDone_four b hstage, State.loadStage_active hpass]
    rfl
  · rw [State.stageDone_five b hstage, if_pos hin]
    refine ⟨_, rfl, rfl, rfl, rfl, fun x hx hreq => ?_⟩
    rw [State.toStage_domain]
    exact State.powerStage_domain hx hreq
  · rw [State.stageDone_five b hstage, if_neg (by simp [hin])]
  · obtain ⟨hmesh, -⟩ := s.halt_unpowered why
    exact ⟨_, exec_bootHalt hrun hon hstage why, rfl, rfl, rfl, hmesh⟩

/-! ### What may run (15 R442, R450) -/

/-- Whatever object a kind runs in t, it ran in s already, or the checks of s accept it. -/
def State.RunsVerified (s t : State) : Prop :=
  ∀ k o, t.boot.runningObj k = some o → s.boot.runningObj k = some o ∨ s.boot.rejects k o = none

theorem State.RunsVerified.of_running {s t : State} (h : t.boot.running = s.boot.running) : s.RunsVerified t := by
  intro k o hrun
  rw [Boot.runningObj, h] at hrun
  exact .inl hrun

/-- It speaks of the boot state alone. -/
theorem State.RunsVerified.of_boot {s u t : State} (h : u.boot = s.boot) (ht : u.RunsVerified t) : s.RunsVerified t := by
  unfold State.RunsVerified at ht ⊢
  rwa [h] at ht

theorem State.runObject_runningObj (s : State) (kind k : Nat) (o : List Byte) :
    (s.runObject kind o).boot.runningObj k = if k = kind then some o else s.boot.runningObj k := by
  simp only [Boot.runningObj, State.runObject_boot, find_tput]
  split <;> rfl

/-- A stage that loads an object and then works on with what runs. -/
theorem State.loadStage_runsVerified (s : State) (kind : Nat) {f : State → List Byte → State}
    (hf : ∀ u o, (f u o).boot.running = u.boot.running) : s.RunsVerified (s.loadStage kind f) := by
  obtain ⟨u, hboot, ⟨o, hok, hload⟩ | ⟨why, hhalt⟩⟩ := s.loadStage_cases kind f
  · intro k p hrun
    rw [hload, Boot.runningObj, hf, ← Boot.runningObj, State.runObject_runningObj, hboot] at hrun
    split at hrun
    · rename_i hk
      cases hrun
      exact .inr (hk ▸ hok)
    · exact .inl hrun
  · rw [hhalt]
    exact .of_running (by rw [State.halt_boot, hboot])

/-! What the other work of the stages leaves of the boot state, or of what runs. -/

section
variable (s : State)

@[simp] theorem State.logInline_boot (m : List Byte) : (s.logInline m).boot = s.boot := by
  unfold State.logInline
  (repeat' split) <;> rfl

@[simp] theorem State.logManifests_boot : s.logManifests.boot = s.boot := by
  unfold State.logManifests
  dsimp only
  split
  · rw [State.logInline_boot, State.logInline_boot]
  · rw [State.logInline_boot]

@[simp] theorem State.bindChannels_boot (bs : List (Nat × Bind)) : (s.bindChannels bs).boot = s.boot := by
  have hchans {s : State} (t : List (Nat × Bind)) (f : Nat × Bind → Chan → Chan) :
      (t.foldl (fun s x => s.updChan x.2.channel.toNat (f x)) s).boot = s.boot :=
    foldl_keeps (g := State.boot) (fun _ _ _ => by rfl) s
  unfold State.bindChannels
  dsimp only
  split
  · exact hchans _ _
  · exact hchans _ _

@[simp] theorem State.lockRoots_boot (l : List Nat) : (l.foldl State.lockRoot s).boot = s.boot :=
  foldl_keeps (g := State.boot) (fun _ _ _ => by rfl) s

@[simp] theorem State.clustersOn_boot : s.clustersOn.boot = s.boot :=
  foldl_keeps (g := State.boot) (fun x _ s => s.comeOn_boot x false) s

@[simp] theorem State.powerStage_boot : s.powerStage.boot = s.boot := by
  have hmesh (t : State) : t.meshUp.boot = t.boot := rfl
  rw [State.powerStage, hmesh, State.lockRoots_boot, State.clustersOn_boot]

@[simp] theorem State.stackStage_boot : s.stackStage.boot = s.boot := by
  refine foldl_keeps (g := State.boot) (fun x _ s => ?_) s
  split
  · rfl
  · exact s.comeOn_boot _ _

@[simp] theorem State.seedStage_boot : s.seedStage.boot = s.boot := by
  unfold State.seedStage
  split <;> rfl

/-- Functions that only log, one after the other. -/
theorem foldl_logged_boot {α : Type} {log : State → α → State} (h : ∀ s x, (log s x).boot = s.boot) (l : List α) :
    (l.foldl log s).boot = s.boot :=
  foldl_keeps (g := State.boot) (fun x _ s => h s x) s

@[simp] theorem State.mapStage_running (bad : List Nat) : (s.mapStage bad).boot.running = s.boot.running := by
  unfold State.mapStage
  dsimp only
  split
  · rfl
  · dsimp only
    rw [foldl_logged_boot _ fun _ _ => by rfl, foldl_logged_boot _ fun _ _ => by rfl, foldl_logged_boot _ fun _ _ => by rfl,
      foldl_logged_boot _ fun _ _ => by rfl]

@[simp] theorem State.raiseCounters_running : s.raiseCounters.boot.running = s.boot.running := by
  refine foldl_keeps (g := fun s : State => s.boot.running) (fun k _ s => ?_) s
  split
  · rfl
  · split <;> rfl

@[simp] theorem State.readyStage_running : s.readyStage.boot.running = s.boot.running := by
  unfold State.readyStage
  dsimp only
  split
  · rfl
  · exact State.raiseCounters_running _

theorem State.fabricStage_runsVerified (bad : List Nat) : s.RunsVerified (s.fabricStage bad) := by
  unfold State.fabricStage
  split
  · exact .of_running rfl
  · refine s.loadStage_runsVerified 4 fun u o => ?_
    simp

theorem State.stageDone_runsVerified (b : BootFindings) : s.RunsVerified (s.stageDone b) := by
  unfold State.stageDone
  split
  · split <;> exact .of_running rfl
  · split <;> exact .of_running rfl
  · split
    · exact .of_boot s.logManifests_boot (State.loadStage_runsVerified _ 1 fun _ _ => rfl)
    · exact .of_running rfl
  · refine s.loadStage_runsVerified 3 fun u o => ?_
    simp [State.aliasStage]
  · exact s.loadStage_runsVerified 2 fun _ _ => rfl
  · split
    · exact .of_running (by simp)
    · exact .of_running rfl
  · split
    · exact s.fabricStage_runsVerified _
    · exact .of_running rfl
  · exact .of_running rfl

end

/-- No object runs that its checks reject. -/
theorem onlyVerifiedObjectsRun : Claim.OnlyVerifiedObjectsRun := by
  intro s t b hexec
  have hnext : .next (if s.boot.halted || !s.mgmtOn then s else s.stageDone b) = Host.Outcome.next t := hexec
  cases hnext
  split
  · exact fun _ _ => .inl
  · exact s.stageDone_runsVerified b

/-! ### Resets (15 R437; 08 R228; 01 R25) -/

namespace Memory

/-- Bytes at whose addresses a filter keeps every cell read as before. -/
theorem read_filter_keeps (m : List Host.Cell) {p : Host.Cell → Bool} {a n : Nat}
    (h : ∀ c : Host.Cell, a ≤ c.1 → c.1 < a + n → p c = true) : read (m.filter p) a n = read m a n := by
  rw [read_eq, read_eq]
  refine List.map_congr_left fun k hk => ?_
  have hk := List.mem_range.mp hk
  rw [get_eq, get_eq, find_filter m p (a + k) fun c hc => h c (by omega) (by omega)]

/-- Bytes at whose addresses it drops every cell read as in empty memory. -/
theorem read_filter_drops (m : List Host.Cell) {p : Host.Cell → Bool} {a n : Nat}
    (h : ∀ c : Host.Cell, a ≤ c.1 → c.1 < a + n → p c = false) : read (m.filter p) a n = read [] a n := by
  rw [read_eq, read_eq]
  refine List.map_congr_left fun k hk => ?_
  have hk := List.mem_range.mp hk
  rw [get_eq, get_eq, find_filter_none m p (a + k) fun c hc => h c (by omega) (by omega)]
  rfl

end Memory

/-- The stack in which a byte of a line lies. -/
theorem stack_of_line {l x c : Nat} (hline : l / 2 ^ 30 = x) (hlow : 80 * l ≤ c) (hhigh : c < 80 * l + 80) :
    c / (80 * 2 ^ 30) = x := by
  omega

section
variable {s : State} {l x : Nat}

theorem State.keptStacks_contains (s : State) (hx : x < 16) :
    s.keptStacks.contains x = ((s.domain (16 + x)).throughReset.st == .on) := by
  rw [Bool.eq_iff_iff, List.contains_iff_mem, State.keptStacks, List.mem_filter, List.mem_range]
  exact and_iff_right hx

/-- A line of a stack that is on goes through a module reset. -/
theorem State.moduleReset_stored_on (hx : x < 16) (hline : l / 2 ^ 30 = x) (hon : (s.domain (16 + x)).st = .on) :
    s.moduleReset.dp.stored l = s.dp.stored l := by
  refine Memory.read_filter_keeps s.dp.cells fun c hlow hhigh => ?_
  rw [stack_of_line hline hlow hhigh, s.keptStacks_contains hx, Domain.throughReset, hon]
  rfl

/-- One of a stack that is off reads as at reset. -/
theorem State.moduleReset_stored_off (hx : x < 16) (hline : l / 2 ^ 30 = x) (hoff : (s.domain (16 + x)).st = .off) :
    s.moduleReset.dp.stored l = State.reset.dp.stored l := by
  refine Memory.read_filter_drops s.dp.cells fun c hlow hhigh => ?_
  rw [stack_of_line hline hlow hhigh, s.keptStacks_contains hx, Domain.throughReset, hoff]
  rfl

end

theorem moduleResets : Claim.ModuleResets := by
  intro s
  refine ⟨⟨({ s with pwr := { s.pwr with modRst := true } } : State).moduleReset, rfl, rfl, rfl, rfl, rfl, rfl, rfl, rfl, rfl,
    rfl, rfl, rfl, rfl, rfl, rfl, rfl, rfl, rfl, rfl, ?_, ?_⟩, rfl, ⟨_, rfl, rfl, rfl, rfl, rfl, rfl, rfl, rfl, rfl⟩⟩
  · exact fun l x hx hline hon => State.moduleReset_stored_on hx hline hon
  · exact fun l x hx hline hoff => State.moduleReset_stored_off hx hline hoff

/-- Settles O35: the stages by one equation each, what runs by the cases of loading an object, the resets by what of memory goes
through them. -/
theorem bootAndResets : Obligations.BootAndResets := ⟨bootStages, onlyVerifiedObjectsRun, moduleResets⟩

end Sys2Proof.Machine
end

