-- ==== Sys2Proof/Proofs/Queues.lean ====
section
/-!
PROOFS. The submission queues (11 R354 to R365): doorbells, waits, fetches, the head of a queue before it dispatches, and completion
signals.
-/

namespace Sys2Proof.Machine

/-! ### Accesses of the host (R352) -/

/-- An access of the host that stands behind no posted write that waits, and need not wait itself, is made at once. -/
theorem State.access_now {s : State} {a : HostAccess} (hfree : s.writeHeld = false) (hgo : s.accessWaits a = false) :
    s.access a = s.doAccess a := by
  rw [State.access, hfree, hgo]
  rfl

/-- Behind such a write it is held. -/
theorem State.access_behind {s : State} (hheld : s.writeHeld = true) (a : HostAccess) : s.access a = s.hold a := by
  rw [State.access, hheld]
  rfl

/-- One that has to wait itself is held too. -/
theorem State.access_waits {s : State} {a : HostAccess} (hwaits : s.accessWaits a = true) : s.access a = s.hold a := by
  rw [State.access, hwaits, Bool.or_true]
  rfl

/-- An access that needs no line does not wait. -/
theorem State.accessWaits_of_noLines {s : State} {a : HostAccess} (h : s.accessLines a = []) : s.accessWaits a = false := by
  rw [State.accessWaits, h]
  rfl

/-! ### Doorbells (R354) -/

theorem Queue.accepts_iff (k : Queue) (t : Word) :
    k.accepts t = true ↔ (t - k.head).toNat ≤ 2 ^ k.sizeLog2.toNat ∧ (t - k.tail).toNat < 2 ^ 31 := by
  simp only [Queue.accepts, Bool.and_eq_true, decide_eq_true_eq]

theorem State.doorbell_accepted {s : State} {q : Nat} {t : Word} (h : (s.queue q).accepts t = true) :
    s.doorbell q t = ({ s with que := tput s.que q { s.queue q with tail := t } }).watchSlip := by
  rw [State.doorbell, if_pos h]
  rfl

theorem State.doorbell_refused {s : State} {q : Nat} {t : Word} (h : ¬ (s.queue q).accepts t = true) :
    s.doorbell q t = s.bump Evt.dbReject 1 := by
  rw [State.doorbell, if_neg h]

theorem exec_doorbellWrite {s : State} {q : Nat} (hq : q < 64) (t : Word) :
    exec (.doorbellWrite q t) s = .next (s.access (.doorbell q t)) := guarded_of (by simpa using hq) _

/-- Settles O10: a doorbell's acceptance is R354's two comparisons. -/
theorem doorbellAcceptance : Obligations.DoorbellAcceptance := by
  intro s q t hq
  rw [← Queue.accepts_iff, exec_doorbellWrite hq]
  refine ⟨State.doorbell_accepted, State.doorbell_refused, fun hfree => ?_, fun hheld => ?_⟩
  · rw [State.access_now hfree (State.accessWaits_of_noLines rfl)]
    rfl
  · rw [State.access_behind hheld]

/-! ### Waits (R363) -/

theorem waitMet_iff (value want : Word) : waitMet value want = true ↔ (value - want).toNat < 0x80000000 := by
  simp only [waitMet, decide_eq_true_eq]

/-- A wait stays met while its counter moves on within the window. -/
theorem waitMet_add {value want : Word} {k : Nat} (h : (value - want).toNat + k < 0x80000000) :
    waitMet (value + BitVec.ofNat 32 k) want = true := by
  rw [waitMet_iff]
  bv_omega

/-- Of two values that differ, and not by half the range, one is reached from the other. -/
theorem waitMet_swap {value want : Word} (hhalf : value ≠ want + 0x80000000) (hne : value ≠ want) :
    waitMet value want = true ↔ waitMet want value = false := by
  rw [← Bool.not_eq_true, waitMet_iff, waitMet_iff]
  bv_omega

theorem State.waits_of_index {s : State} {d : List Byte} (h : waitIndex d ≠ 0xFFFF) :
    s.waits d = !waitMet (s.counter (waitIndex d)).value (waitValue d) := by
  simp [State.waits, h]

/-- Settles O11: each of its parts is arithmetic modulo 2^32. -/
theorem waitWindow : Obligations.WaitWindow :=
  ⟨waitMet_iff, fun _ _ _ _ => waitMet_add, fun _ _ => waitMet_swap, fun _ _ => State.waits_of_index⟩

/-! ### What a report leaves (R365 to R367) -/

/-- From s to t something was reported to the host: interrupts and the fault log have changed, and one counter, that of lost records. -/
def State.Reported (s t : State) : Prop :=
  ∃ evts hst pci out, (∀ k, k ≠ Evt.faultLogLost → tget 0 evts k = s.count k)
    ∧ t = { s with dp := { s.dp with evts := evts }, hst := hst, pci := pci, out := out }

namespace State.Reported

theorem refl (s : State) : s.Reported s := ⟨s.dp.evts, s.hst, s.pci, s.out, fun _ _ => rfl, rfl⟩

theorem trans {s t u : State} (h : s.Reported t) (h' : t.Reported u) : s.Reported u := by
  obtain ⟨_, _, _, _, hcount, rfl⟩ := h
  obtain ⟨evts, hst, pci, out, hcount', rfl⟩ := h'
  exact ⟨evts, hst, pci, out, fun k hk => (hcount' k hk).trans (hcount k hk), rfl⟩

theorem host (s : State) (h : Hst) (p : Pci) (o : List HostOut) : s.Reported { s with hst := h, pci := p, out := o } :=
  ⟨s.dp.evts, h, p, o, fun _ _ => rfl, rfl⟩

theorem lost (s : State) : s.Reported (s.bump Evt.faultLogLost 1) :=
  ⟨(s.bump Evt.faultLogLost 1).dp.evts, s.hst, s.pci, s.out, fun _ hk => State.count_bump_other s 1 hk, State.bump_eq _ _ _⟩

theorem sendMsix (s : State) (v : Nat) : s.Reported (s.sendMsix v) := by
  unfold State.sendMsix
  dsimp only
  split
  · exact host s s.hst _ s.out
  · exact host s s.hst s.pci _

theorem msix (s : State) (v : Nat) : s.Reported (s.msix v) := by
  unfold State.msix
  split
  · exact sendMsix s v
  · exact host s _ s.pci s.out

/-- A cause that becomes set sends its message. -/
theorem cause (s : State) (set : Bool) (h : Hst) (v : Nat) :
    s.Reported (if set then s else ({ s with hst := h } : State).msix v) := by
  split
  · exact refl s
  · exact (host s h s.pci s.out).trans (msix _ v)

theorem causeRecord (s : State) : s.Reported s.causeRecord := cause s _ _ _
theorem causeStopped (s : State) : s.Reported s.causeStopped := cause s _ _ _
theorem causeLost (s : State) : s.Reported s.causeLost := cause s _ _ _

theorem logFault (s : State) (bytes : List Byte) : s.Reported (s.logFault bytes) := by
  unfold State.logFault
  dsimp only
  split
  · exact (lost s).trans (causeLost _)
  · exact (host s _ s.pci _).trans (causeRecord _)

theorem faultRecord (s : State) (bytes : List Byte) : s.Reported (s.faultRecord bytes) := by
  unfold State.faultRecord
  split
  · exact refl s
  · split
    · exact logFault s bytes
    · exact host s _ s.pci s.out

theorem opInterrupt (s : State) (q : Nat) (d : List Byte) : s.Reported (s.opInterrupt q d) := by
  unfold State.opInterrupt
  split
  · exact msix s _
  · exact refl s

/-- What a report leaves as it is. -/
theorem eq {s t : State} (h : s.Reported t) :
    t = { s with dp := { s.dp with evts := t.dp.evts }, hst := t.hst, pci := t.pci, out := t.out } := by
  obtain ⟨_, _, _, _, -, rfl⟩ := h
  rfl

theorem count {s t : State} (h : s.Reported t) {k : Nat} (hk : k ≠ Evt.faultLogLost) : t.count k = s.count k := by
  obtain ⟨_, _, _, _, hcount, rfl⟩ := h
  exact hcount k hk

end State.Reported

/-! ### Fetches (R355, R356) -/

theorem State.mayFetch_of {s : State} {q : Nat} {index : Word} (hissue : s.mayIssue = true) (henable : (s.queue q).enable = true)
    (hstate : (s.queue q).state = 1) (hbetween : (index - (s.queue q).head).toNat < ((s.queue q).tail - (s.queue q).head).toNat)
    (hhead : index = (s.queue q).head → (s.queue q).checked = false) : s.mayFetch q index = true := by
  have hfirst : (!(index == (s.queue q).head && (s.queue q).checked)) = true := by
    by_cases hindex : index = (s.queue q).head
    · simp [hhead hindex]
    · simp [hindex]
  simp only [State.mayFetch, hissue, henable, hstate, decide_eq_true hbetween, hfirst]
  rfl

@[simp] theorem State.sendMsix_causeStopped (s : State) (v : Nat) : (s.sendMsix v).hst.causeStopped = s.hst.causeStopped := by
  unfold State.sendMsix
  dsimp only
  split <;> rfl

@[simp] theorem State.msix_causeStopped (s : State) (v : Nat) : (s.msix v).hst.causeStopped = s.hst.causeStopped := by
  unfold State.msix
  split
  · exact s.sendMsix_causeStopped v
  · rfl

theorem State.causeStopped_set (s : State) : s.causeStopped.hst.causeStopped = true := by
  unfold State.causeStopped
  split
  · assumption
  · rw [State.msix_causeStopped]

/-- A failed read stops its queue and no other, and is reported. -/
theorem State.fetchAbort_leaves (s : State) (q : Nat) (index : Word) :
    ((s.bump Evt.fetchAbort 1).updQueue q fun k => { k with state := 3 }).Reported (s.fetchAbort q index) :=
  (State.Reported.faultRecord _ _).trans (.causeStopped _)

/-- Settles O12: the fetch by the conditions of R355, the abort by what a report leaves. -/
theorem fetchAndAbort : Obligations.FetchAndAbort := by
  intro s q index bytes hq hissue henable hstate hbetween hhead
  have hmay := State.mayFetch_of hissue henable hstate hbetween hhead
  have hleaves := s.fetchAbort_leaves q index
  have hrest := hleaves.eq
  have hqueue : (s.fetchAbort q index).que = tupd .reset s.que q fun k => { k with state := 3 } := by rw [hrest]; rfl
  refine ⟨?_, s.fetchAbort q index, ?_, ?_, fun p hp => ?_, ?_, ?_, ?_, ?_, ?_, ?_⟩
  · show guarded (q < 64) _ = _
    rw [guarded_of (by simpa using hq), if_pos hmay]
  · show guarded (q < 64) _ = _
    rw [guarded_of (by simpa using hq), if_pos hmay]
  · rw [State.queue, hqueue, tget_tupd_same]
    rfl
  · rw [State.queue, hqueue, tget_tupd, if_neg hp]
    rfl
  · exact State.causeStopped_set _
  · rw [hrest]; rfl
  · rw [hrest]; rfl
  · rw [hleaves.count (by decide)]
    exact (State.count_bump s Evt.fetchAbort 1 Evt.fetchAbort).trans (if_pos rfl)
  · rw [hleaves.count (by decide)]
    exact State.count_bump_other s 1 (by decide)
  · rw [hrest, State.updQueue_dp, State.bump_eq]

/-! ### The head of a queue (R359) -/

/-- HEAD is written back nowhere while no address is set. -/
theorem State.headMoved_noAddress {s : State} {q : Nat} (h : (s.queue q).headWb = 0) : s.headMoved q = s := if_pos h

theorem exec_headerCheck {s : State} {q : Nat} (hq : q < 64) : exec (.headerCheck q) s = .next (s.headerStep q) :=
  guarded_of (by simpa using hq) _

section
variable {s : State} {q : Nat} {d : List Byte} (hfront : (s.queue q).front = some d) (hchecked : (s.queue q).checked = false)
  (hskip : (s.queue q).skip = 0) (hworks : s.hostWorks = true)
include hfront hchecked hskip hworks

/-- A header check that nothing keeps from the descriptor at the head, and that passes it. -/
theorem State.headerStep_pass (hpass : headerCheck d = none) :
    s.headerStep q = (s.updQueue q fun k => { k with checked := true }).watchSlip := by
  simp [State.headerStep, hfront, hchecked, hskip, hworks, hpass]

/-- One that faults it. -/
theorem State.headerStep_fault {code sig : Nat} (hfault : headerCheck d = some (code, sig)) :
    s.headerStep q = s.refuseHead q d sig code := by
  simp [State.headerStep, hfront, hchecked, hskip, hworks, hfault]

end

/-- A reserved bit goes before every other row. -/
theorem headerCheck_reserved {d : List Byte} (h : headerReserved d = true) : (headerCheck d).map (·.1) = some Code.rsvdSet := by
  simp [headerCheck, h]

/-- A signal index out of range comes last, and signals nothing. -/
theorem headerCheck_badSignal {d : List Byte} (hsignal : 4096 ≤ signalIndex d) (hreserved : headerReserved d = false)
    (hclass : classOf d ∈ [1, 2, 3, 4, 5, 6, 7, 8, 9, 0xA, 0xF]) : headerCheck d = some (Code.badTarget, 0xFFFF) := by
  simp only [headerCheck, hreserved, List.contains_iff_mem.mpr hclass, hsignal, Bool.not_true, Bool.false_eq_true, or_true,
    if_false, if_true]

theorem headerReserved_iff (d : List Byte) :
    headerReserved d = true ↔ bits (flagsOf d) 7 4 ≠ 0 ∨ bit (targetOf d) 7 = true ∨ field d 6 2 ≠ 0 := by
  simp only [headerReserved, Bool.or_eq_true, bne_iff_ne, or_assoc]

theorem headerChecks : Claim.HeaderChecks := by
  intro s q d hq hfront hchecked hskip hworks
  rw [exec_headerCheck hq]
  refine ⟨fun hpass => ?_, fun code sig hfault => ?_, fun h => headerCheck_reserved ((headerReserved_iff d).mpr h),
    fun hsignal hflags htarget hfield hclass => headerCheck_badSignal hsignal ?_ hclass⟩
  · rw [State.headerStep_pass hfront hchecked hskip hworks hpass]
    rfl
  · rw [State.headerStep_fault hfront hchecked hskip hworks hfault]
    rfl
  · rw [← Bool.not_eq_true, headerReserved_iff]
    simp [hflags, htarget, hfield]

/-! ### CHECK (04 R133) -/

theorem exec_checkArm {s : State} {q : Nat} (hq : q < 64) : exec (.checkArm q) s = .next (s.armStep q) :=
  guarded_of (by simpa using hq) _

theorem checkArms : Claim.CheckArms := by
  intro s q h hq hnext hredo hop harmed hcheck hblocked hworks
  rw [exec_checkArm hq]
  simp only [State.armStep, hnext, hredo, hop, harmed, hcheck, hblocked, hworks, Bool.false_eq_true, Bool.true_eq_false, ne_eq,
    not_true, Option.isSome_none, or_self, if_false]
  rfl

/-! ### GATE skipping (06 R173) -/

theorem exec_descSkipped {s : State} {q : Nat} (hq : q < 64) : exec (.descSkipped q) s = .next (s.skipStep q) :=
  guarded_of (by simpa using hq) _

/-- HEAD moves on by one in the queue alone while no address is set for it. -/
theorem State.advance_noAddress {s : State} {q : Nat} (h : (s.queue q).headWb = 0) :
    s.advance q = s.updQueue q fun k =>
      { k with head := k.head + 1, fetched := tdel k.fetched k.head.toNat, checked := false, armed := none } := by
  refine State.headMoved_noAddress ?_
  rw [State.queue_updQueue, if_pos rfl]
  exact h

theorem gateSkips : Claim.GateSkips := by
  intro s q d hq hfront hskip hcontext hwb hsignal hworks queue
  have hadvance := State.advance_noAddress (s := s.signal (signalIndex d) (signalIncr d) 0) (q := q) hwb
  have hstep : s.skipStep q = ((((s.signal (signalIndex d) (signalIncr d) 0).advance q).updQueue q fun k =>
      { k with skip := k.skip - 1 }).bump Evt.descSkipped 1).watchSlip := by
    simp only [State.skipStep, hfront, hskip, hcontext, hworks, hsignal, Bool.false_eq_true, Bool.true_eq_false, or_self, if_false,
      if_true]
  rw [exec_descSkipped hq, hstep, hadvance]
  refine ⟨_, rfl, rfl, ?_, fun p hp => ?_, ?_, fun k hk => ?_⟩
  · rw [State.queue_updQueue, if_pos rfl, State.queue_updQueue, if_pos rfl]
    rfl
  · rw [State.queue_updQueue, if_neg hp, State.queue_updQueue, if_neg hp]
    rfl
  · exact (State.counter_signal s _ _ _ _).trans (if_pos rfl)
  · exact (State.counter_signal s _ _ _ _).trans (if_neg hk)

/-! ### Shutdowns (14 R416) -/

theorem State.hostWorks_of_stopped {s : State} (h : s.pwr.shut.isSome = true ∨ s.pwr.hostOn = false) : s.hostWorks = false := by
  rcases h with hshut | hoff
  · simp [State.hostWorks, Option.isNone_eq_false_iff.mpr hshut]
  · simp [State.hostWorks, hoff]

section
variable {s : State} {q : Nat} (hstopped : s.hostWorks = false)
include hstopped

theorem State.headerStep_stopped : s.headerStep q = s := by
  simp only [State.headerStep, hstopped, or_true, if_true]
  split <;> rfl

theorem State.armStep_stopped : s.armStep q = s := by
  simp only [State.armStep, hstopped, or_true, if_true]
  split <;> rfl

theorem State.skipStep_stopped : s.skipStep q = s := by
  simp only [State.skipStep, hstopped, or_true, if_true]
  split <;> rfl

theorem State.candidate_stopped : s.candidate q = none := by
  simp [State.candidate, hstopped]

theorem State.dispatchStep_stopped : s.dispatchStep q = s := by
  simp [State.dispatchStep, State.ready, State.candidate_stopped hstopped]

theorem State.aheadStep_stopped : s.aheadStep q = s := by
  simp [State.aheadStep, State.candidate_stopped hstopped]

end

theorem shutdownStopsQueues : Claim.ShutdownStopsQueues := by
  intro s q c hq h hc
  have hstopped := State.hostWorks_of_stopped h
  have hguard (t : State) : guarded (q < 64) t = .next t := guarded_of (by simpa using hq) t
  simp only [List.mem_cons, List.not_mem_nil, or_false] at hc
  rcases hc with rfl | rfl | rfl | rfl | rfl
  · exact (hguard _).trans (congrArg _ (State.headerStep_stopped hstopped))
  · exact (hguard _).trans (congrArg _ (State.armStep_stopped hstopped))
  · exact (hguard _).trans (congrArg _ (State.dispatchStep_stopped hstopped))
  · exact (hguard _).trans (congrArg _ (State.aheadStep_stopped hstopped))
  · exact (hguard _).trans (congrArg _ (State.skipStep_stopped hstopped))

/-- Settles O15: each command at the head by the branch that its descriptor takes. -/
theorem queueHeads : Obligations.QueueHeads := ⟨headerChecks, checkArms, gateSkips, shutdownStopsQueues⟩

/-! ### Completion (R362, R365) -/

/-- What a completion is told by: the completion counters, memory, the number of the next operation, and OPS_FAULTED. -/
def State.accounts (s : State) : Tab Cnt × List Host.Cell × Nat × BitVec 48 :=
  (s.cnt, s.dp.cells, s.nextOp, s.count Evt.opsFaulted)

theorem State.Reported.accounts {s t : State} (h : s.Reported t) : t.accounts = s.accounts := by
  rw [State.accounts, h.count (by decide), h.eq]
  rfl

@[simp] theorem State.updQueue_accounts (s : State) (q : Nat) (f : Queue → Queue) : (s.updQueue q f).accounts = s.accounts := rfl

@[simp] theorem State.retire_accounts (s : State) (id n : Nat) : (s.retire id n).accounts = s.accounts := rfl

theorem State.bump_accounts (s : State) {off : Nat} (n : Nat) (h : Evt.opsFaulted ≠ off) :
    (s.bump off n).accounts = s.accounts := by
  rw [State.accounts, State.count_bump_other s n h, State.bump_eq]
  rfl

@[simp] theorem State.settle_accounts (s : State) (q : Nat) : (s.settle q).accounts = s.accounts := by
  unfold State.settle
  dsimp only
  split <;> rfl

@[simp] theorem State.stopOnFault_accounts (s : State) (q : Nat) : (s.stopOnFault q).accounts = s.accounts := by
  unfold State.stopOnFault
  dsimp only
  split
  · exact (State.Reported.causeStopped _).accounts
  · rfl

@[simp] theorem State.watchSlip_accounts (s : State) : s.watchSlip.accounts = s.accounts := by
  unfold State.watchSlip
  dsimp only
  split
  · have hcounted := s.bump_accounts (off := Evt.interleaveSlip) 1 (by decide)
    split
    · exact hcounted
    · exact hcounted
  · split
    · rfl
    · rfl

@[simp] theorem State.switchCourses_accounts (s : State) (bass : Bool) (code : BitVec 3) :
    (s.switchCourses bass code).accounts = s.accounts := by
  refine (State.bump_accounts _ _ ?_).trans ?_ <;> cases bass
  · decide
  · decide
  · rfl
  · rfl

@[simp] theorem State.endDrain_accounts (s : State) (bass : Bool) : (s.endDrain bass).accounts = s.accounts := by
  unfold State.endDrain
  split
  · rfl
  · split
    · exact s.switchCourses_accounts bass _
    · rfl

@[simp] theorem State.settleTuner_accounts (s : State) : s.settleTuner.accounts = s.accounts := by
  unfold State.settleTuner
  split <;> rfl

@[simp] theorem State.afterOp_accounts (s : State) : s.afterOp.accounts = s.accounts := by
  simp [State.afterOp, State.endDrains]

/-- The signal of an instance that has ended, with the count of its fault. -/
def State.signalEnd (s : State) (sig inc fault : Nat) : State :=
  if fault = 0 then s.signal sig inc 0 else (if sig = 0xFFFF then s else s.signal sig inc fault).bump Evt.opsFaulted 1

/-- What a report of a fault leaves but its signal. -/
theorem State.reportFaultAt_accounts (s : State) (at_ : Reg) (q : Nat) (index : Word) (d : List Byte) (inst sig code va : Nat) :
    (s.reportFaultAt at_ q index d inst sig code va).accounts
      = ((if sig = 0xFFFF then s else s.signal sig (signalIncr d) code).bump Evt.opsFaulted 1).accounts := by
  obtain ⟨evts, hst, pci, out, hcount, hrecord⟩ :=
    State.Reported.faultRecord s (faultBytes at_ q inst code index (opcodeOf d) sig va)
  simp only [State.reportFaultAt, (State.Reported.opInterrupt _ q d).accounts, State.stopOnFault_accounts]
  rw [State.accounts, State.accounts, State.count_bump, State.count_bump, if_pos rfl, if_pos rfl, hrecord]
  have hfaulted := hcount Evt.opsFaulted (by decide)
  split <;> simpa [State.count] using hfaulted

/-- What a completion leaves but its signal. -/
theorem State.complete_accounts {s : State} {o : Op} {i : Inst} (h : o.orphan = false) :
    (s.complete o i).accounts = (s.signalEnd (signalIndex o.desc + i.n) (signalIncr o.desc) i.fault).accounts := by
  simp only [State.complete, h, State.settle_accounts, State.retire_accounts, State.signalEnd, sigOf, Bool.false_eq_true, if_false,
    ne_eq, ite_not]
  split
  · exact (State.Reported.opInterrupt _ _ _).accounts
  · exact State.reportFaultAt_accounts ..

theorem State.signalEnd_counter (s : State) (sig inc fault k : Nat) :
    (s.signalEnd sig inc fault).counter k =
      if k = sig then
        (if fault = 0 then (s.counter sig).signal inc 0
          else if sig = 0xFFFF then s.counter sig else (s.counter sig).signal inc fault)
      else s.counter k := by
  have hbump (t : State) : (t.bump Evt.opsFaulted 1).counter k = t.counter k := rfl
  unfold State.signalEnd
  split
  · exact s.counter_signal sig k inc 0
  · rw [hbump]
    split
    · by_cases hk : k = sig <;> simp [hk]
    · exact s.counter_signal sig k inc fault

theorem State.signalEnd_opsFaulted (s : State) (sig inc fault : Nat) :
    (s.signalEnd sig inc fault).count Evt.opsFaulted = s.count Evt.opsFaulted + (if fault = 0 then 0 else 1) := by
  have hsignal (code : Nat) : (s.signal sig inc code).count Evt.opsFaulted = s.count Evt.opsFaulted := rfl
  unfold State.signalEnd
  split
  · exact (hsignal 0).trans (BitVec.add_zero _).symm
  · rw [State.count_bump, if_pos rfl]
    split
    · rfl
    · rw [hsignal]
      rfl

theorem State.signalEnd_cells (s : State) (sig inc fault : Nat) : (s.signalEnd sig inc fault).dp.cells = s.dp.cells := by
  unfold State.signalEnd
  split
  · rfl
  · split <;> simp

theorem State.signalEnd_nextOp (s : State) (sig inc fault : Nat) : (s.signalEnd sig inc fault).nextOp = s.nextOp := by
  unfold State.signalEnd
  split
  · rfl
  · split <;> rfl

theorem exec_completionSignal {s : State} {id n : Nat} {o : Op} {i : Inst} (hop : s.findOp id = some o)
    (hinst : o.findInst n = some i) (hdone : i.phase = .done) (hahead : o.ahead = none) :
    exec (.completionSignal id n) s = .next (s.complete o i).afterOp := by
  show Host.Outcome.next (s.completionStep id n) = _
  simp [State.completionStep, hop, hinst, hdone, hahead]

/-- The rule of a counter's signal (R362): it moves on, and keeps the first fault. -/
theorem Cnt.signal_rule (c : Cnt) (inc code : Nat) :
    (c.signal inc code).value = c.value + BitVec.ofNat 32 inc
      ∧ (code = 0 → (c.signal inc code).faulted = c.faulted ∧ (c.signal inc code).code = c.code)
      ∧ (code ≠ 0 → (c.signal inc code).faulted = true)
      ∧ (code ≠ 0 → c.faulted = false → (c.signal inc code).code = BitVec.ofNat 16 code)
      ∧ (c.faulted = true → (c.signal inc code).code = c.code) := by
  refine ⟨rfl, ?_, ?_, ?_, ?_⟩
  · rintro rfl
    simp [Cnt.signal]
  all_goals intros; simp [Cnt.signal, *]

/-- Settles O16: a completion signals as `State.signalEnd` does, and leaves the rest of what it is told by. -/
theorem completionSignals : Obligations.CompletionSignals := by
  intro s id n o i hop hinst hdone hahead horphan
  have hn : i.n = n := by simpa using List.find?_some hinst
  have haccounts : ((s.complete o i).afterOp).accounts = _ := (State.afterOp_accounts _).trans (State.complete_accounts horphan)
  simp only [State.accounts, Prod.mk.injEq] at haccounts
  obtain ⟨hcnt, hcells, hnext, hfaulted⟩ := haccounts
  have hcounter (k : Nat) : ((s.complete o i).afterOp).counter k = _ := (congrArg (tget .reset · k) hcnt).trans
    (s.signalEnd_counter (signalIndex o.desc + i.n) (signalIncr o.desc) i.fault k)
  rw [hn] at hcounter
  refine ⟨⟨_, exec_completionSignal hop hinst hdone hahead, ?_, fun k hk => ?_, ?_, ?_, ?_⟩, Cnt.signal_rule⟩
  · rw [hcounter, if_pos rfl]
  · rw [hcounter, if_neg hk]
  · rw [hcells, State.signalEnd_cells]
  · rw [hnext, State.signalEnd_nextOp]
  · rw [hfaulted, State.signalEnd_opsFaulted]

end Sys2Proof.Machine
end

