-- ==== Sys2Proof/Proofs/HostRegisters.lean ====
section
/-!
PROOFS. The registers that the host reads and writes (11 R349, R351, R352, R374): the commands that change one, writes by size and
alignment, and what a read completes with.
-/

namespace Sys2Proof.Machine

/-! ### Counters and clears (R362; 03 R98) -/

theorem counterCommands : Claim.CounterCommands := by
  intro s n a hn
  have hguard (t : State) : guarded (n < 4096) t = .next t := guarded_of (by simpa using hn) t
  exact ⟨hguard _, hguard _, hguard _⟩

theorem clearCommands : Claim.ClearCommands :=
  ⟨fun _ _ hoff => if_pos (List.contains_iff_mem.mpr hoff), fun _ _ hi => guarded_of (by simpa using hi) _, fun _ => rfl⟩

/-! ### MIRROR_READ (R374) -/

/-- A read of the mirror draws at most a free value. -/
theorem State.readMirror_eq (s : State) :
    ∃ n, s.readMirror = { s with dp := { s.dp with free := n }, out := .value (BitVec.ofNat 64 s.mirrorData) :: s.out } := by
  obtain ⟨n, hnoted⟩ := s.noteRead_eq s.hst.mirrorIndex.toNat s.hst.mirrorSub.toNat
  exact ⟨n, by simp only [State.readMirror, hnoted]⟩

theorem mirrorReadAnswers : Claim.MirrorReadAnswers := by
  intro s
  refine ⟨fun hfree => ⟨s.readMirror, ?_, ?_⟩, fun hheld => ?_⟩
  · exact congrArg Host.Outcome.next (State.access_now hfree (State.accessWaits_of_noLines rfl))
  · obtain ⟨n, hread⟩ := s.readMirror_eq
    rw [hread]
    exact ⟨rfl, rfl⟩
  · exact congrArg Host.Outcome.next (State.access_behind hheld .mirrorRead)

/-! ### Register reads (R351; 12 R377) -/

theorem accessOk_iff {off size : Nat} : accessOk off size = true ↔ (size = 4 ∨ size = 8) ∧ off % size = 0 := by
  simp [accessOk]

section
variable {s : State} {off : Nat} (hbar : off < 2 ^ 26) (halign : off % 8 = 0) (hside : off ≠ 0x1009038)
include hbar halign hside

/-- A read of a register of BAR0 other than SIDE_DATA, whole or in part. -/
theorem State.readRegister_bar0 {at_ size : Nat} (hat : at_ / 8 * 8 = off) (hok : accessOk at_ size = true) :
    s.readRegister .bar0 at_ size = (some (.data (laneValue at_ size (BitVec.ofNat 64 (s.readBar0 off)))), s) := by
  have hin : ¬ barSize .bar0 ≤ at_ := by
    show ¬ 2 ^ 26 ≤ at_
    omega
  simp only [State.readRegister, hin, hok, hat, hside, Bool.not_true, Bool.false_eq_true, if_false]

end

/-- A read of a page of a channel of which the host is no party is denied. -/
theorem State.mbxRead_denied {s : State} {c r : Nat} (hr : r ≠ 0x48) (hon : s.bufferOff c = false) (hsender : s.mbxSender c ≠ 1)
    (hreceiver : s.mbxReceiver c ≠ 1) (hacker : s.mbxAcker c ≠ 1) (v : Reg) :
    s.mbxRead (BitVec.ofNat 8 Master.host) c r v = (.data 0, s.bump Evt.mbxDenied 1) := by
  have hparty : ¬ ((1 : Byte) = s.mbxSender c ∨ (1 : Byte) = s.mbxReceiver c ∨ (1 : Byte) = s.mbxAcker c) := by
    rintro (h | h | h)
    · exact hsender h.symm
    · exact hreceiver h.symm
    · exact hacker h.symm
  show s.mbxRead 1 c r v = _
  simp only [State.mbxRead, hon, hr, hparty, and_false, or_self, Bool.false_eq_true, if_false]
  rfl

theorem State.readRegister_denied {s : State} {c r : Nat} (hc : c < 64) (hr : r ≤ 8) (hon : s.bufferOff c = false)
    (hsender : s.mbxSender c ≠ 1) (hreceiver : s.mbxReceiver c ≠ 1) (hacker : s.mbxAcker c ≠ 1) :
    s.readRegister .bar2 (0x80000 + 0x2000 * c + 8 * r) 8 = (some (.data 0), s.bump Evt.mbxDenied 1) := by
  have hin : ¬ barSize .bar2 ≤ 0x80000 + 0x2000 * c + 8 * r := by
    show ¬ 2 ^ 20 ≤ _
    omega
  have hok : accessOk (0x80000 + 0x2000 * c + 8 * r) 8 = true := accessOk_iff.mpr ⟨.inr rfl, by omega⟩
  have hat : (0x80000 + 0x2000 * c + 8 * r) / 8 * 8 = 0x80000 + 0x2000 * c + 8 * r := by omega
  have hpage : within_ 0x80000 0x2000 64 (0x80000 + 0x2000 * c + 8 * r) = some (c, 8 * r) := within_of rfl hc (by omega)
  simp only [State.readRegister, hin, hok, hat, hpage, Bool.not_true, Bool.false_eq_true, if_false]
  rw [if_pos (.inl (by omega)), State.mbxRead_denied (by omega) hon hsender hreceiver hacker]

theorem registerReads : Claim.RegisterReads := by
  intro s
  refine ⟨fun b off size h => ?_, fun b off size hin hbad => ?_, fun off hbar halign hside => ⟨?_, ?_, ?_⟩,
    fun c r hc hr => State.readRegister_denied hc hr⟩
  · unfold State.readRegister
    rw [if_pos h]
  · rw [← accessOk_iff, Bool.not_eq_true] at hbad
    unfold State.readRegister
    rw [if_neg (by omega), hbad]
    rfl
  · rw [State.readRegister_bar0 hbar halign hside (by omega) (accessOk_iff.mpr ⟨.inr rfl, halign⟩)]
    rfl
  · rw [State.readRegister_bar0 hbar halign hside (by omega) (accessOk_iff.mpr ⟨.inl rfl, by omega⟩), laneValue,
      if_neg (by decide), if_pos halign]
  · rw [State.readRegister_bar0 hbar halign hside (by omega) (accessOk_iff.mpr ⟨.inl rfl, by omega⟩), laneValue,
      if_neg (by decide), if_neg (by omega)]

/-- Settles O9: the commands by their guards, the mirror by what it notes, a register's read by its place. -/
theorem registerCommands : Obligations.RegisterCommands := ⟨counterCommands, clearCommands, mirrorReadAnswers, registerReads⟩

/-! ### Register writes (R351, R352) -/

theorem exec_registerWrite (b : Bar) (off size : Nat) (v : Reg) (s : State) :
    exec (.registerWrite b off size v) s = .next (s.access (.register b off size v)) := rfl

/-- A write of a register other than SIDE_DATA waits for no line. -/
theorem exec_registerWrite_now {s : State} {b : Bar} {off size : Nat} (hfree : s.writeHeld = false)
    (hside : ¬ (b = .bar0 ∧ off / 8 * 8 = 0x1009038 ∧ accessOk off size = true)) (v : Reg) :
    exec (.registerWrite b off size v) s = .next (s.writeRegister b off size v) := by
  have hlines : s.accessLines (.register b off size v) = [] := by
    rw [State.accessLines]
    exact if_neg hside
  rw [exec_registerWrite, State.access_now hfree (State.accessWaits_of_noLines hlines)]
  rfl

/-- A write of a register of BAR0, whole or in part. -/
theorem State.writeRegister_bar0 {s : State} {off size : Nat} (hin : off < 2 ^ 26) (hok : accessOk off size = true) (v : Reg) :
    s.writeRegister .bar0 off size v = s.writeBar0 (off / 8 * 8) (laneBits off size v).1 (laneBits off size v).2 := by
  have hbar : ¬ barSize .bar0 ≤ off := by
    show ¬ 2 ^ 26 ≤ off
    omega
  simp only [State.writeRegister, hbar, hok, Bool.not_true, Bool.false_eq_true, if_false]

theorem exec_registerWrite_bar0 {s : State} {off size : Nat} (hfree : s.writeHeld = false) (hin : off < 2 ^ 26)
    (hok : accessOk off size = true) (hside : off / 8 * 8 ≠ 0x1009038) (v : Reg) :
    exec (.registerWrite .bar0 off size v) s
      = .next (s.writeBar0 (off / 8 * 8) (laneBits off size v).1 (laneBits off size v).2) := by
  rw [exec_registerWrite_now hfree (by simp [hside]), State.writeRegister_bar0 hin hok]

/-- The memory block's place in the map of BAR0. -/
theorem State.writeBar0_memory {s : State} {off : Nat} (hlow : 0x1009000 ≤ off) (hhigh : off < 0x100A000)
    (hevent : allEvents.contains off = false) (v mask : Reg) : s.writeBar0 off v mask = s.writeMemory (off - 0x1009000) v mask := by
  rw [State.writeBar0, hevent, if_neg (by decide), if_neg (by omega), within_none (by omega), within_none (by omega),
    within_none (by omega), within_none (by omega)]
  dsimp only
  rw [if_neg (by omega), if_neg (by omega), if_neg (by omega), if_neg (by omega), if_neg (by omega), if_neg (by omega),
    if_pos ⟨hlow, hhigh⟩]

/-- A queue's place. -/
theorem State.writeBar0_queue {s : State} {q r off : Nat} (hoff : off = 0x1000 + 0x40 * q + r) (hq : q < 64) (hr : r < 0x40)
    (v mask : Reg) : s.writeBar0 off v mask = s.writeQueue q r v mask := by
  rw [State.writeBar0, not_event (by omega) (by omega), if_neg (by decide), if_neg (by omega), within_of hoff hq hr]

@[simp] theorem merged_allOnes (old : Nat) (v : Reg) : merged old v (BitVec.allOnes 64) = v.toNat := by
  rw [merged, mergeReg_allOnes]

/-- The low bits of a register as a narrower one. -/
theorem ofNat_bits_low (w : Nat) (v : Reg) : BitVec.ofNat (w + 1) (bits v.toNat w 0) = v.setWidth (w + 1) := by
  apply BitVec.eq_of_toNat_eq
  simp [bits]

theorem registerWrite_genRoot {s : State} (hfree : s.writeHeld = false) (v : Reg) :
    exec (.registerWrite .bar0 0x1009000 8 v) s = .next { s with dp := { s.dp with rootWritten := v.setWidth 60 } } := by
  rw [exec_registerWrite_bar0 hfree (by decide) (by decide) (by decide),
    State.writeBar0_memory (by decide) (by decide) (by decide)]
  simp only [State.writeMemory, laneBits, if_true, merged_allOnes, ofNat_bits_low]

theorem registerWrite_sideAddr {s : State} (hfree : s.writeHeld = false) (v : Reg) :
    exec (.registerWrite .bar0 0x1009030 8 v) s = .next { s with dp := { s.dp with sideAddr := v.setWidth 60 } } := by
  rw [exec_registerWrite_bar0 hfree (by decide) (by decide) (by decide),
    State.writeBar0_memory (by decide) (by decide) (by decide)]
  simp only [State.writeMemory, laneBits, if_true, merged_allOnes, ofNat_bits_low]

/-- The mask of the upper half. -/
theorem upperHalf_eq : (0xFFFFFFFF00000000 : Reg) = BitVec.allOnes 64 <<< 32 := by decide

/-- A write of the upper half keeps the lower one. -/
theorem mergeReg_upperHalf (root : BitVec 60) (v : Reg) :
    (mergeReg (BitVec.ofNat 64 root.toNat) (v <<< 32) 0xFFFFFFFF00000000).setWidth 60 = v.setWidth 28 ++ root.setWidth 32 := by
  rw [upperHalf_eq]
  apply BitVec.eq_of_getLsbD_eq
  intro i hi
  simp only [mergeReg, BitVec.getLsbD_setWidth, BitVec.getLsbD_or, BitVec.getLsbD_and, BitVec.getLsbD_not, BitVec.getLsbD_shiftLeft,
    BitVec.getLsbD_allOnes, BitVec.getLsbD_append, BitVec.getLsbD_ofNat, BitVec.testBit_toNat]
  by_cases hlow : i < 32
  · simp [hlow, hi, show i < 64 by omega]
  · simp [hlow, hi, show i < 64 by omega, show i - 32 < 28 by omega, show i - 32 < 64 by omega]

theorem registerWrite_genRootHigh {s : State} (hfree : s.writeHeld = false) (v : Reg) :
    exec (.registerWrite .bar0 0x1009004 4 v) s
      = .next { s with dp := { s.dp with rootWritten := v.setWidth 28 ++ s.dp.rootWritten.setWidth 32 } } := by
  rw [exec_registerWrite_bar0 hfree (by decide) (by decide) (by decide),
    State.writeBar0_memory (by decide) (by decide) (by decide), ← mergeReg_upperHalf]
  exact congrArg (fun r => Host.Outcome.next { s with dp := { s.dp with rootWritten := r } }) (ofNat_bits_low 59 _)

/-- Noting slips leaves the queues. -/
@[simp] theorem State.watchSlip_que (s : State) : s.watchSlip.que = s.que := by
  unfold State.watchSlip
  dsimp only
  split <;> split <;> rfl

theorem State.queue_watchSlip (s : State) (q : Nat) : s.watchSlip.queue q = s.queue q := by
  rw [State.queue, State.watchSlip_que]
  rfl

/-- A write of the whole Q_BASE of a disabled queue, without an address for its HEAD. -/
theorem State.writeQBase_whole {s : State} {q : Nat} (hstate : (s.queue q).state = 0) (hwb : (s.queue q).headWb = 0) (v : Reg) :
    s.writeQBase q v (BitVec.allOnes 64) = if (v >>> 12).setWidth 52 ≠ (s.queue q).base
      then (s.updQueue q fun k => { k.newRing with base := (v >>> 12).setWidth 52 }).watchSlip else s := by
  have hbase : BitVec.ofNat 52 (bits v.toNat 63 12) = (v >>> 12).setWidth 52 := by
    apply BitVec.eq_of_toNat_eq
    simp [bits]
  have hmoved (b : BitVec 52) : (s.updQueue q fun k => { k.newRing with base := b }).headMoved q
      = s.updQueue q fun k => { k.newRing with base := b } := by
    refine State.headMoved_noAddress ?_
    rw [State.queue_updQueue, if_pos rfl]
    exact hwb
  simp only [State.writeQBase, hstate, mergeReg_allOnes, hbase, hmoved, true_and]

theorem registerWrite_queueBase {s : State} {q : Nat} (hfree : s.writeHeld = false) (hq : q < 64)
    (hstate : (s.queue q).state = 0) (hwb : (s.queue q).headWb = 0) (v : Reg) :
    ∃ t, exec (.registerWrite .bar0 (0x1000 + 0x40 * q) 8 v) s = .next t ∧ (t.queue q).base = (v >>> 12).setWidth 52
      ∧ ((v >>> 12).setWidth 52 ≠ (s.queue q).base → (t.queue q).head = 0 ∧ (t.queue q).tail = 0) := by
  have hwrite : s.writeQueue q 0 v (BitVec.allOnes 64) = _ := State.writeQBase_whole hstate hwb v
  refine ⟨s.writeQueue q 0 v (BitVec.allOnes 64), ?_, ?_⟩
  · rw [exec_registerWrite_bar0 hfree (by omega) (accessOk_iff.mpr ⟨.inr rfl, by omega⟩) (by omega),
      State.writeBar0_queue (r := 0) (by omega) hq (by decide)]
    rfl
  · rw [hwrite]
    by_cases hbase : (v >>> 12).setWidth 52 = (s.queue q).base
    · rw [if_neg (by simpa using hbase)]
      exact ⟨hbase.symm, fun hne => absurd hbase hne⟩
    · rw [if_pos hbase, State.queue_watchSlip, State.queue_updQueue, if_pos rfl]
      exact ⟨rfl, fun _ => ⟨rfl, rfl⟩⟩

/-- The Resizable BAR control (log entry 6). -/
theorem registerWrite_windowSize {s : State} {n : Nat} (hfree : s.writeHeld = false) (hmin : 30 ≤ n) (hmax : n ≤ 40) :
    exec (.registerWrite .config 0x108 8 (BitVec.ofNat 64 (256 * (n - 20)))) s
      = .next { s with pci := { s.pci with bar4Log2 := BitVec.ofNat 6 n } } := by
  have hsize : 20 + bits (BitVec.ofNat 64 (256 * (n - 20))).toNat 13 8 = n := by
    simp only [bits, BitVec.toNat_ofNat, Nat.shiftRight_eq_div_pow]
    omega
  have hresize : s.pci.resize n = { s.pci with bar4Log2 := BitVec.ofNat 6 n } := if_pos ⟨hmin, hmax⟩
  rw [exec_registerWrite_now hfree (by simp)]
  show Host.Outcome.next { s with pci := s.pci.resize (20 + bits (BitVec.ofNat 64 (256 * (n - 20))).toNat 13 8) } = _
  rw [hsize, hresize]

/-- Settles O7: a write is held, refused, not claimed, or reaches its register by its place in the map. -/
theorem registerWrites : Obligations.RegisterWrites := by
  refine ⟨fun s b off size v hheld => ?_, fun s b off size v hfree hin hbad => ?_, fun s b off size v hfree hout => ?_,
    fun s v hfree => registerWrite_genRoot hfree v, fun s v hfree => registerWrite_sideAddr hfree v, fun s v hfree => ?_,
    fun s q v hfree hq hstate hwb => registerWrite_queueBase hfree hq hstate hwb v, fun s n hfree hmin hmax => ?_⟩
  · rw [exec_registerWrite, State.access_behind hheld]
  · rw [← accessOk_iff, Bool.not_eq_true] at hbad
    rw [exec_registerWrite_now hfree (by simp [hbad])]
    unfold State.writeRegister
    rw [if_neg (by omega), hbad]
    rfl
  · rw [exec_registerWrite_now hfree]
    · unfold State.writeRegister
      rw [if_pos hout]
    · rintro ⟨rfl, hside, -⟩
      have hout : 2 ^ 26 ≤ off := hout
      omega
  · refine ⟨_, registerWrite_genRootHigh hfree v, ?_, rfl⟩
    exact BitVec.setWidth_append_eq_right
  · refine ⟨_, registerWrite_windowSize hfree hmin hmax, ?_, rfl⟩
    have : n % 64 = n := by omega
    simp [State.windowSize, this]

end Sys2Proof.Machine
end

