-- ==== Sys2Proof/Proofs/StoredLines.lean ====
section
/-!
PROOFS. Stored lines (08 R245 to R249): the check bytes of a line decode to what was stored, and a line reads back.
-/

namespace Sys2Proof.Machine

/-! ### Bytes of the check code (R245) -/

/-- Eight bytes, as the code computes them. -/
def IsRemainder (r : List Nat) : Prop := r.length = 8 ∧ ∀ c ∈ r, c < 256

theorem xor_lt_256 {a b : Nat} (ha : a < 256) (hb : b < 256) : a ^^^ b < 256 := Nat.xor_lt_two_pow (n := 8) ha hb

/-- One doubling in GF(2^8) stays a byte. -/
theorem gfDouble_lt {a : Nat} (h : a < 256) : (if 256 ≤ 2 * a then (2 * a) ^^^ 0x11D else 2 * a) < 256 := by
  split
  · have hhigh : ((2 * a) ^^^ 0x11D) >>> 8 = 0 := by
      rw [Nat.shiftRight_xor_distrib, show (2 * a) >>> 8 = 1 by rw [Nat.shiftRight_eq_div_pow]; omega]
      rfl
    rw [Nat.shiftRight_eq_div_pow] at hhigh
    omega
  · omega

theorem gfMulStep_lt (n a b acc : Nat) (ha : a < 256) (hacc : acc < 256) : gfMulStep n a b acc < 256 := by
  induction n generalizing a b acc with
  | zero => exact hacc
  | succ n ih =>
    refine ih _ _ _ (gfDouble_lt ha) ?_
    split
    · exact xor_lt_256 hacc ha
    · exact hacc

theorem gfMul_lt {a : Nat} (b : Nat) (ha : a < 256) : gfMul a b < 256 := by
  unfold gfMul
  split
  · decide
  · split
    · decide
    · exact gfMulStep_lt _ _ _ _ ha (by decide)

theorem mem_xorList_lt {xs ys : List Nat} (hx : ∀ c ∈ xs, c < 256) (hy : ∀ c ∈ ys, c < 256) :
    ∀ c ∈ List.zipWith (· ^^^ ·) xs ys, c < 256 := by
  intro c hc
  rw [← List.map_uncurry_zip_eq_zipWith, List.mem_map] at hc
  obtain ⟨⟨x, y⟩, hmem, rfl⟩ := hc
  exact xor_lt_256 (hx x (List.of_mem_zip hmem).1) (hy y (List.of_mem_zip hmem).2)

theorem rsStep_isRemainder {r : List Nat} {b : Nat} (hr : IsRemainder r) (hb : b < 256) : IsRemainder (rsStep r b) := by
  obtain ⟨hlen, hbytes⟩ := hr
  have htop : r.getD 7 0 < 256 := by
    rw [List.getD_eq_getElem _ _ (by omega)]
    exact hbytes _ (List.getElem_mem _)
  refine ⟨by simp [rsStep, rsLow, hlen], mem_xorList_lt (fun c hc => ?_) (fun c hc => ?_)⟩
  · rcases List.mem_cons.mp hc with rfl | hc
    · decide
    · exact hbytes c (List.mem_of_mem_take hc)
  · obtain ⟨x, -, rfl⟩ := List.mem_map.mp hc
    exact gfMul_lt x (xor_lt_256 htop hb)

theorem rsCheck_isRemainder (data : List Byte) : IsRemainder (rsCheck data) := by
  unfold rsCheck
  generalize data.reverse = bs
  have hzero : IsRemainder (List.replicate 8 0) := by simp [IsRemainder]
  generalize List.replicate 8 0 = r at hzero
  induction bs generalizing r with
  | nil => exact hzero
  | cons b bs ih => exact ih _ (rsStep_isRemainder hzero b.isLt)

theorem poisoned_isRemainder {r : List Nat} (hr : IsRemainder r) : IsRemainder (xorList r poisonPattern) :=
  ⟨by simp [xorList, poisonPattern, hr.1], mem_xorList_lt hr.2 (by simp [poisonPattern])⟩

/-- The poison pattern changes every remainder. -/
theorem poisoned_ne {r : List Nat} (hr : IsRemainder r) : xorList r poisonPattern ≠ r := by
  obtain ⟨hlen, hbytes⟩ := hr
  cases r with
  | nil => cases hlen
  | cons c r =>
    intro h
    have hc : c ^^^ 0xA5 = c := (List.cons.inj h).1
    have hzero : (0xA5 : Nat) = 0 := by
      calc (0xA5 : Nat) = c ^^^ (c ^^^ 0xA5) := by rw [← Nat.xor_assoc, Nat.xor_self, Nat.zero_xor]
        _ = 0 := by rw [hc, Nat.xor_self]
    exact absurd hzero (by decide)

/-- Bytes stored and taken back. -/
theorem toNat_ofNat_bytes {r : List Nat} (hr : IsRemainder r) : (r.map (BitVec.ofNat 8)).map (·.toNat) = r := by
  rw [List.map_map]
  refine (List.map_congr_left fun c hc => ?_).trans (List.map_id r)
  simpa using hr.2 c hc

theorem checkBytes_toNat (data : List Byte) (poison : Bool) :
    (checkBytes data poison).map (·.toNat) = if poison then xorList (rsCheck data) poisonPattern else rsCheck data := by
  have hcheck := rsCheck_isRemainder data
  cases poison
  · exact toNat_ofNat_bytes hcheck
  · exact toNat_ofNat_bytes (poisoned_isRemainder hcheck)

theorem checkBytes_length (data : List Byte) (poison : Bool) : (checkBytes data poison).length = 8 := by
  have hcheck := rsCheck_isRemainder data
  cases poison
  · simpa [checkBytes] using hcheck.1
  · simpa [checkBytes] using (poisoned_isRemainder hcheck).1

/-- A line with its own check bytes decodes as it was stored, whatever CORRECT is (R246, R247). -/
theorem decodeLine_checkBytes (correct : Bool) (data : List Byte) (poison : Bool) :
    decodeLine correct data (checkBytes data poison) = if poison then .poisoned else .clean data := by
  simp only [decodeLine, checkBytes_toNat]
  cases poison
  · simp
  · simp [poisoned_ne (rsCheck_isRemainder data)]

/-! ### Lines of memory -/

/-- The 80 bytes of a line with payload, side bytes and poison mark. -/
def lineBytes (payload side : List Byte) (poison : Bool) : List Byte := payload ++ side ++ checkBytes (payload ++ side) poison

section
variable {payload side : List Byte} (hpayload : payload.length = 64) (hside : side.length = 8)
include hpayload hside

theorem lineBytes_length (poison : Bool) : (lineBytes payload side poison).length = 80 := by
  simp [lineBytes, hpayload, hside, checkBytes_length]

theorem lineBytes_take (poison : Bool) : (lineBytes payload side poison).take 72 = payload ++ side :=
  List.take_left' (by simp [hpayload, hside])

theorem lineBytes_drop (poison : Bool) : (lineBytes payload side poison).drop 72 = checkBytes (payload ++ side) poison :=
  List.drop_left' (by simp [hpayload, hside])

/-- A reader receives payload and side bytes as they are. -/
theorem LineIn.of_append (poison : Bool) : LineIn.of (payload ++ side) poison = ⟨payload, side, poison⟩ := by
  rw [LineIn.of, List.take_left' hpayload, List.drop_left' hpayload, List.take_of_length_le (by omega)]

theorem Data.stored_storeLine_same (d : Data) (l : Nat) (poison : Bool) :
    (d.storeLine l payload side poison).stored l = lineBytes payload side poison := by
  have h := Memory.read_put_same d.cells (80 * l) (lineBytes payload side poison)
  rw [lineBytes_length hpayload hside] at h
  exact h

theorem Data.stored_storeLine_other (d : Data) {l k : Nat} (hk : k ≠ l) (poison : Bool) :
    (d.storeLine l payload side poison).stored k = d.stored k := by
  refine Memory.read_put_other d.cells (80 * l) (80 * k) 80 (lineBytes payload side poison) ?_
  rw [lineBytes_length hpayload hside]
  omega

/-- A line that is stored whole reads as it was stored; only a poisoned one counts an event. -/
theorem Data.readLine_lineBytes {d : Data} {l : Nat} {poison : Bool} (e : Env) (hfailed : d.isFailed l = false)
    (hstored : d.stored l = lineBytes payload side poison) :
    d.readLine e l = (⟨payload, side, poison⟩, if poison then d.bump Evt.poisonRead 1 else d) := by
  simp only [Data.readLine, hfailed, hstored, lineBytes_take hpayload hside, lineBytes_drop hpayload hside, decodeLine_checkBytes,
    Bool.false_eq_true, if_false]
  cases poison <;> simp [Data.contain, LineIn.of_append hpayload hside]

end

/-- Settles O28: a line's check bytes decode to what was stored, and a store reaches its own line alone. -/
theorem storedLinesReadBack : Obligations.StoredLinesReadBack := by
  intro d e l payload side poison hpayload hside hfailed
  have hread := Data.readLine_lineBytes hpayload hside e (d := d.storeLine l payload side poison) hfailed
    (Data.stored_storeLine_same hpayload hside d l poison)
  refine ⟨by rw [hread], ?_, fun k hk => Data.stored_storeLine_other hpayload hside d hk poison⟩
  rintro rfl
  rw [hread]
  rfl

/-! ### What any line decodes to -/

theorem applyErrors_length (es : List (Nat × Nat)) (c : List Nat) : (applyErrors c es).length = c.length := by
  induction es generalizing c with
  | nil => rfl
  | cons x es ih => exact (ih _).trans (List.length_set ..)

theorem tryCorrect_length {c s c' : List Nat} {v : Nat} (h : tryCorrect c s v = some c') : c'.length = c.length := by
  unfold tryCorrect at h
  split at h
  · cases h
  · dsimp only at h
    split at h
    · cases h
    · split at h
      · cases h
      · split at h
        · cases h
        · split at h
          · cases h
            exact applyErrors_length _ _
          · cases h

theorem correct4_length {c c' : List Nat} (h : correct4 c = some c') : c'.length = c.length := by
  obtain ⟨v, -, hv⟩ := List.exists_of_findSome?_eq_some h
  exact tryCorrect_length hv

/-- The 72 payload and side bytes that some outcomes carry. -/
def Decoded.Whole : Decoded → Prop
  | .clean data => data.length = 72
  | .corrected data => data.length = 72
  | .poisoned => True
  | .poisonedCorrected data => data.length = 72
  | .uncorrectable => True

theorem dataOf_length {c : List Nat} (h : c.length = 80) : (dataOf c).length = 72 := by simp [dataOf, h]

theorem decodeLine_whole {correct : Bool} {data chk : List Byte} (hdata : data.length = 72) (hchk : chk.length = 8) :
    (decodeLine correct data chk).Whole := by
  have hcoefficients {c : List Nat} {chk' : List Byte} (hlen : chk'.length = 8)
      (h : correct4 (coefficients data chk') = some c) : (dataOf c).length = 72 :=
    dataOf_length ((correct4_length h).trans (by simp [coefficients, hdata, hlen]))
  unfold decodeLine
  dsimp only
  split
  · exact hdata
  · split
    · trivial
    · split
      · trivial
      · split
        · rename_i hcorrected
          exact hcoefficients (by simp [xorList, poisonPattern, hchk]) hcorrected
        · split
          · rename_i hcorrected
            exact hcoefficients hchk hcorrected
          · trivial

theorem Data.stored_length (d : Data) (l : Nat) : (d.stored l).length = 80 := by
  rw [Data.stored, Memory.read_eq]
  simp

/-- The side bytes that a write of a payload keeps. -/
theorem Data.peekLine_side_length (d : Data) (l : Nat) : (d.peekLine l).side.length = 8 := by
  have hof {bs : List Byte} (h : bs.length = 72) (poison : Bool) : (LineIn.of bs poison).side.length = 8 := by
    simp [LineIn.of, h]
  have hraw : ((d.stored l).take 72).length = 72 := by simp [d.stored_length l]
  have hwhole := decodeLine_whole (correct := d.correct) hraw (chk := (d.stored l).drop 72) (by simp [d.stored_length l])
  unfold Data.peekLine
  dsimp only
  split
  · rfl
  · split <;> rename_i h <;> rw [h] at hwhole
    · exact hof hwhole false
    · exact hof hwhole false
    · exact hof hraw true
    · exact hof hwhole true
    · exact hof hraw true

end Sys2Proof.Machine
end

