-- ==== Sys2Proof/Proofs/HostWindow.lean ====
section
/-!
PROOFS. The host's view of memory through BAR4 and the side window (08 R225, R246 to R252; 11 R352, R353).
-/

namespace Sys2Proof.Machine

/-! ### Transfers over a stack's interface (R248) -/

theorem Data.bump_zero (d : Data) (off : Nat) : d.bump off 0 = d := rfl

theorem Data.evts_bump (d : Data) (off n k : Nat) :
    tget 0 (d.bump off n).evts k = if k = off then tget 0 d.evts off + BitVec.ofNat 48 n else tget 0 d.evts k := by
  unfold Data.bump
  split
  · rename_i hn
    subst hn
    by_cases h : k = off <;> simp [h]
  · dsimp only
    rw [tget_tupd]

@[simp] theorem Data.logEvent_evts (d : Data) (e : Env) (code src d0 d1 : Nat) : (d.logEvent e code src d0 d1).evts = d.evts := by
  simp only [Data.logEvent]
  split <;> rfl

/-- A read of a stack's line whose next transfers fail n times. -/
theorem Data.readOver_stack {d : Data} {l n : Nat} {rest : List Nat} (e : Env) (hstack : l < berthBase)
    (htransfers : d.transfers = n :: rest) :
    d.readOver e l = let d' := { d with transfers := rest }.bump Evt.linkRetry (min n 8)
      if 8 < n then (LineIn.bad, (d'.bump Evt.memUe 1).logEvent e Log.retryFail 0 (lineUnit l) (lineNumber l)) else d'.readLine e l := by
  simp only [Data.readOver, Data.nextTransfer, if_pos hstack, htransfers, List.headD_cons, List.drop_one, List.tail_cons]

/-- Berth memory has no interface. -/
theorem Data.readOver_berth {l : Nat} (d : Data) (e : Env) (hberth : berthBase ≤ l) : d.readOver e l = d.readLine e l := by
  simp only [Data.readOver, Data.nextTransfer, if_neg (Nat.not_lt.mpr hberth), Nat.zero_min, Data.bump_zero]
  exact if_neg (by decide)

theorem interfaceTransfers : Claim.InterfaceTransfers := by
  intro d e l n rest htransfers
  refine ⟨fun hstack hfew => ?_, fun hstack hmany => ?_, d.readOver_berth e⟩
  · rw [Data.readOver_stack e hstack htransfers, Nat.min_eq_left hfew]
    exact if_neg (by omega)
  · rw [Data.readOver_stack e hstack htransfers, Nat.min_eq_right (by omega)]
    dsimp only
    rw [if_pos hmany]
    refine ⟨rfl, by simp, ?_, ?_⟩
    · rw [Data.logEvent_evts, Data.evts_bump, if_pos rfl, Data.evts_bump, if_neg (by decide)]
      rfl
    · rw [Data.logEvent_evts, Data.evts_bump, if_neg (by decide), Data.evts_bump, if_pos rfl]
      rfl

/-! ### Completions (R251) -/

theorem bar4Lines_poisoned (e : Env) (x len : Nat) (ls : List Nat) (d : Data) :
    ∀ p ∈ (bar4Lines e x len ls d).1, p.2.2 = true → ∀ b ∈ p.2.1, b = 0xFF := by
  induction ls generalizing d with
  | nil => exact fun _ hp => nomatch hp
  | cons l ls ih =>
    intro p hp hbad b hb
    rcases List.mem_cons.mp hp with rfl | hp
    · dsimp only at hb hbad
      rw [if_pos hbad] at hb
      exact List.eq_of_mem_replicate hb
    · exact ih _ p hp hbad b hb

/-- Joining the parts of a read keeps its bytes and its poison. -/
theorem joinParts_keeps (n : Nat) (ps : List (Nat × List Byte × Bool)) :
    (joinParts n ps).flatMap (·.2.1) = ps.flatMap (·.2.1) ∧ (joinParts n ps).any (·.2.2) = ps.any (·.2.2) := by
  induction ps with
  | nil => exact ⟨rfl, rfl⟩
  | cons p ps ih =>
    obtain ⟨hbytes, hany⟩ := ih
    simp only [joinParts, List.flatMap_cons, List.any_cons, ← hbytes, ← hany]
    split
    · rename_i h
      simp [h]
    · rename_i h
      rw [h]
      split <;> simp [Bool.or_assoc]

theorem poisonedCompletions : Claim.PoisonedCompletions := by
  refine ⟨fun e x len ls d hgood => ?_, bar4Lines_poisoned, joinParts_keeps⟩
  have hany : (bar4Lines e x len ls d).1.any (·.2.2) = false := by
    rw [List.any_eq_false]
    intro p hp
    simp [hgood p hp]
  simp only [bar4Parts, hany, Bool.false_eq_true, if_false]

/-! ### Writes and reads of whole lines (R225, R249) -/

/-- Line l of what an access from byte x on brings. -/
def chunkOf (x : Nat) (bytes : List Byte) (l : Nat) : List Byte := slice bytes (64 * l - x) 64

/-- A line is stored clean with a payload, and with some side bytes. -/
def Data.Holds (d : Data) (l : Nat) (payload : List Byte) : Prop :=
  ∃ side : List Byte, side.length = 8 ∧ d.stored l = lineBytes payload side false

/-- From d to d' only memory has changed. -/
def Data.SameButCells (d d' : Data) : Prop := ∃ cells, d' = { d with cells := cells }

/-- An access of whole lines covers all of each. -/
theorem within_whole {x len l : Nat} (hlow : x ≤ 64 * l) (hhigh : 64 * l + 64 ≤ x + len) : within x len l = (0, 64) := by
  simp only [within, Prod.mk.injEq]
  omega

section
variable {e : Env} {x : Nat} {bytes : List Byte}

/-- A write of a whole line of a stack stores its payload and touches no other line. -/
theorem Data.bar4Line_whole (d : Data) {l : Nat} (hlow : x ≤ 64 * l) (hhigh : 64 * l + 64 ≤ x + bytes.length) (hstack : l < berthBase)
    (hfailed : d.isFailed l = false) :
    (d.bar4Line e x bytes false l).Holds l (chunkOf x bytes l)
      ∧ (∀ k, k ≠ l → (d.bar4Line e x bytes false l).stored k = d.stored k) ∧ d.SameButCells (d.bar4Line e x bytes false l) := by
  have hlog : d.inLog l = false := by simp [Data.inLog, Nat.not_le.mpr hstack]
  have hpayload : (chunkOf x bytes l).length = 64 := slice_length ..
  obtain ⟨side, hside, hwrite⟩ : ∃ side : List Byte, side.length = 8
      ∧ d.bar4Line e x bytes false l = d.storeLine l (chunkOf x bytes l) side false := by
    refine ⟨if (d.peekLine l).poison then List.replicate 8 0 else (d.peekLine l).side, ?_, ?_⟩
    · split
      · rfl
      · exact d.peekLine_side_length l
    · simp only [Data.bar4Line, within_whole hlow hhigh, Bool.false_eq_true, if_false, Data.write, Wr.line, hlog, Data.writeLine,
        hfailed, Nat.add_zero, Nat.sub_zero, slice_length, Nat.le_refl, and_self, if_true]
      rw [List.take_of_length_le (by simp)]
      rfl
  rw [hwrite]
  exact ⟨⟨side, hside, Data.stored_storeLine_same hpayload hside d l false⟩,
    fun k hk => Data.stored_storeLine_other hpayload hside d hk false, _, rfl⟩

/-- The lines of whole ones that an access covers, all in stacks that take it. -/
def Data.Takes (d : Data) (x len : Nat) (ls : List Nat) : Prop :=
  ∀ l ∈ ls, x ≤ 64 * l ∧ 64 * l + 64 ≤ x + len ∧ l < berthBase ∧ d.isFailed l = false

theorem Data.Takes.of_sameButCells {d d' : Data} {x len : Nat} {ls : List Nat} (h : d.Takes x len ls) (hd : d.SameButCells d') :
    d'.Takes x len ls := by
  obtain ⟨cells, rfl⟩ := hd
  exact h

/-- A write of whole lines, one after the other. -/
theorem Data.foldl_bar4Line {ls : List Nat} (d : Data) (hnodup : ls.Nodup) (htakes : d.Takes x bytes.length ls) :
    let d' := ls.foldl (fun d l => d.bar4Line e x bytes false l) d
    (∀ l ∈ ls, d'.Holds l (chunkOf x bytes l)) ∧ (∀ k, k ∉ ls → d'.stored k = d.stored k) ∧ d.SameButCells d' := by
  induction ls generalizing d with
  | nil => exact ⟨fun _ hl => (nomatch hl), fun _ _ => rfl, d.cells, rfl⟩
  | cons l ls ih =>
    obtain ⟨hl, hnodup⟩ := List.nodup_cons.mp hnodup
    obtain ⟨hlow, hhigh, hstack, hfailed⟩ := htakes l List.mem_cons_self
    obtain ⟨hholds, hother, hcells⟩ := d.bar4Line_whole (e := e) hlow hhigh hstack hfailed
    have htakes' : (d.bar4Line e x bytes false l).Takes x bytes.length ls :=
      Data.Takes.of_sameButCells (fun k hk => htakes k (List.mem_cons_of_mem _ hk)) hcells
    obtain ⟨ihHolds, ihOther, ihCells⟩ := ih _ hnodup htakes'
    refine ⟨fun k hk => ?_, fun k hk => ?_, ?_⟩
    · rcases List.mem_cons.mp hk with rfl | hk
      · obtain ⟨side, hside, hstored⟩ := hholds
        exact ⟨side, hside, (ihOther _ hl).trans hstored⟩
      · exact ihHolds k hk
    · obtain ⟨hne, hk⟩ := not_or.mp (fun h => hk (List.mem_cons.mpr h))
      exact (ihOther k hk).trans (hother k hne)
    · obtain ⟨cells, hcells⟩ := hcells
      obtain ⟨cells', hcells'⟩ := ihCells
      exact ⟨cells', hcells'.trans (by rw [hcells])⟩

/-- A read of whole lines that are stored clean. -/
theorem bar4Lines_holds {ls : List Nat} {d : Data} (htransfers : d.transfers = []) (htakes : d.Takes x bytes.length ls)
    (hholds : ∀ l ∈ ls, d.Holds l (chunkOf x bytes l)) :
    bar4Lines e x bytes.length ls d = (ls.map fun l => (64 * l, chunkOf x bytes l, false), d) := by
  induction ls with
  | nil => rfl
  | cons l ls ih =>
    obtain ⟨hlow, hhigh, -, hfailed⟩ := htakes l List.mem_cons_self
    obtain ⟨side, hside, hstored⟩ := hholds l List.mem_cons_self
    have hread := Data.readLine_lineBytes (slice_length ..) hside e hfailed hstored
    have hrest := ih (fun k hk => htakes k (List.mem_cons_of_mem _ hk)) fun k hk => hholds k (List.mem_cons_of_mem _ hk)
    simp only [bar4Lines, within_whole hlow hhigh, readOver_clean d e l htransfers, hread, Bool.false_eq_true, if_false, hrest,
      List.map_cons, Nat.add_zero, Nat.sub_zero]
    rw [slice_self _ 64 (slice_length ..)]
    rfl

end

/-- Bytes cut into lines and laid end to end again. -/
theorem flatMap_slice (bytes : List Byte) (k : Nat) (h : 64 * k ≤ bytes.length) :
    (List.range k).flatMap (fun i => slice bytes (64 * i) 64) = bytes.take (64 * k) := by
  induction k with
  | zero => rfl
  | succ k ih =>
    have hlast : slice bytes (64 * k) 64 = (bytes.drop (64 * k)).take 64 := by simp [slice]; omega
    rw [List.range_succ, List.flatMap_append, ih (by omega), List.flatMap_singleton, hlast, ← List.take_add]
    rfl

section
variable {x : Nat} {bytes : List Byte} (hx : x % 64 = 0) (hbytes : bytes.length % 64 = 0)
include hx hbytes

theorem coveredLines_whole : coveredLines x bytes.length = (List.range (bytes.length / 64)).map (x / 64 + ·) := by
  have hcount : ceilDiv (x % 64 + bytes.length) 64 = bytes.length / 64 := by
    simp only [ceilDiv, hx]
    omega
  rw [coveredLines, hcount]

theorem coveredLines_chunks : (coveredLines x bytes.length).flatMap (chunkOf x bytes) = bytes := by
  have hchunk (i : Nat) : chunkOf x bytes (x / 64 + i) = slice bytes (64 * i) 64 := by
    rw [chunkOf, show 64 * (x / 64 + i) - x = 64 * i by omega]
  rw [coveredLines_whole hx hbytes, List.flatMap_map]
  simp only [hchunk]
  rw [flatMap_slice bytes _ (by omega), List.take_of_length_le (by omega)]

theorem coveredLines_nodup : (coveredLines x bytes.length).Nodup := by
  rw [coveredLines_whole hx hbytes]
  exact List.nodup_range.map fun a b h => Nat.add_left_cancel h

theorem coveredLines_within (hsize : x + bytes.length ≤ 2 ^ 40) {l : Nat} (hl : l ∈ coveredLines x bytes.length) :
    x ≤ 64 * l ∧ 64 * l + 64 ≤ x + bytes.length ∧ l < berthBase := by
  rw [coveredLines_whole hx hbytes, List.mem_map] at hl
  obtain ⟨i, hi, rfl⟩ := hl
  have := List.mem_range.mp hi
  simp only [berthBase]
  omega

end

/-! ### Accesses of the host to the window (R225; 11 R353) -/

theorem exec_bar4Read (off len : Nat) (s : State) : exec (.bar4Read off len) s = .next (s.access (.read off len)) := rfl

theorem exec_bar4Write (off : Nat) (bytes : List Byte) (poisoned : Bool) (s : State) :
    exec (.bar4Write off bytes poisoned) s = .next (s.access (.write off bytes poisoned)) := rfl

section
variable {s : State} {off : Nat} {bytes : List Byte}

/-- An access within the window needs the lines that it covers. -/
theorem State.accessLines_inside (hsome : bytes ≠ []) (hin : off + bytes.length ≤ s.windowSize) :
    s.accessLines (.read off bytes.length) = coveredLines off bytes.length
      ∧ ∀ p, s.accessLines (.write off bytes p) = coveredLines off bytes.length := by
  have hlen : bytes.length ≠ 0 := by simpa using hsome
  exact ⟨if_neg (by omega), fun p => if_neg (by rintro (h | h); exacts [by omega, hsome h])⟩

/-- One beyond it needs none. -/
theorem State.accessLines_outside (hout : s.windowSize < off + bytes.length) :
    s.accessLines (.read off bytes.length) = [] ∧ ∀ p, s.accessLines (.write off bytes p) = [] :=
  ⟨if_pos (.inl hout), fun _ => if_pos (.inl hout)⟩

/-- An access none of whose lines waits does not. -/
theorem State.accessWaits_of_lines {a : HostAccess} (h : ∀ l ∈ s.accessLines a, s.lineGo l ≠ .waits) : s.accessWaits a = false := by
  rw [State.accessWaits, List.any_eq_false]
  exact fun l hl => by simpa using h l hl

end

section
variable {s : State} {l : Nat}

/-- A line that an access reaches lies in no failed stack. -/
theorem State.notFailed_of_goes (h : s.lineGo l = .goes) : s.dp.isFailed l = false := by
  cases hfailed : s.dp.isFailed l with
  | false => rfl
  | true => simp [State.lineGo, hfailed] at h

end

/-- An access of the host within the window, all of whose lines are reached, is made at once. -/
theorem State.window_now {s : State} {off : Nat} {bytes : List Byte} (hfree : s.writeHeld = false) (hsome : bytes ≠ [])
    (hin : off + bytes.length ≤ s.windowSize) (hready : ∀ l ∈ coveredLines off bytes.length, s.lineGo l ≠ .waits) :
    exec (.bar4Read off bytes.length) s = .next (s.readWindow off bytes.length)
      ∧ ∀ p, exec (.bar4Write off bytes p) s = .next (s.writeWindow off bytes p) := by
  have hlines := State.accessLines_inside hsome hin
  refine ⟨?_, fun p => ?_⟩
  · rw [exec_bar4Read, State.access_now hfree (State.accessWaits_of_lines (hlines.1 ▸ hready))]
    rfl
  · rw [exec_bar4Write, State.access_now hfree (State.accessWaits_of_lines (hlines.2 p ▸ hready))]
    rfl

section
variable {s : State} {off : Nat} {bytes : List Byte} (halign : off % 64 = 0) (hlen : bytes.length % 64 = 0) (hsome : bytes ≠ [])
  (hin : off + bytes.length ≤ s.windowSize) (hsize : off + bytes.length ≤ 2 ^ 40)
  (hgoes : ∀ l ∈ coveredLines off bytes.length, s.lineGo l = .goes)
include halign hlen hsize hgoes

theorem State.takes_of_goes : s.dp.Takes off bytes.length (coveredLines off bytes.length) := fun l hl =>
  have ⟨hlow, hhigh, hstack⟩ := coveredLines_within halign hlen hsize hl
  ⟨hlow, hhigh, hstack, State.notFailed_of_goes (hgoes l hl)⟩

include hsome hin

/-- Whole lines written through the window. -/
theorem State.writeWindow_whole : ∃ cells, s.writeWindow off bytes false = { s with dp := { s.dp with cells := cells } }
    ∧ (∀ l ∈ coveredLines off bytes.length, Data.Holds { s.dp with cells := cells } l (chunkOf off bytes l))
    ∧ ∀ l, l ∉ coveredLines off bytes.length → Data.stored { s.dp with cells := cells } l = s.dp.stored l := by
  obtain ⟨hholds, hother, cells, hcells⟩ := s.dp.foldl_bar4Line (e := s.env 0) (coveredLines_nodup halign hlen)
    (State.takes_of_goes halign hlen hsize hgoes)
  rw [hcells] at hholds hother
  have hinside : ¬ (s.windowSize < off + bytes.length ∨ bytes = []) := not_or.mpr ⟨by omega, hsome⟩
  have hrefused : (coveredLines off bytes.length).any (fun l => s.lineGo l = .refused) = false :=
    List.any_eq_false.mpr fun l hl => by simp [hgoes l hl]
  have hall : (coveredLines off bytes.length).filter (fun l => s.lineGo l = .goes) = coveredLines off bytes.length :=
    List.filter_eq_self.mpr fun l hl => by simp [hgoes l hl]
  refine ⟨cells, ?_, hholds, hother⟩
  simp only [State.writeWindow, hinside, hrefused, hall, hcells, if_false, Bool.false_eq_true]

/-- Whole lines read back through the window. -/
theorem State.readWindow_whole (htransfers : s.dp.transfers = [])
    (hholds : ∀ l ∈ coveredLines off bytes.length, s.dp.Holds l (chunkOf off bytes l)) :
    s.readWindow off bytes.length = { s with out := .bar4 [(off, bytes, false)] :: s.out } := by
  have hlines := bar4Lines_holds (e := s.env 0) htransfers (State.takes_of_goes halign hlen hsize hgoes) hholds
  have hparts : bar4Parts (s.env 0) off bytes.length (coveredLines off bytes.length) s.dp = ([(off, bytes, false)], s.dp) := by
    rw [poisonedCompletions.1 _ _ _ _ _ (by rw [hlines]; simp), hlines, List.flatMap_map]
    exact congrArg (fun b => ([(off, b, false)], s.dp)) (coveredLines_chunks halign hlen)
  have hinside : ¬ (s.windowSize < off + bytes.length ∨ bytes.length = 0) :=
    not_or.mpr ⟨by omega, fun h => hsome (List.length_eq_zero_iff.mp h)⟩
  have hrefused : (coveredLines off bytes.length).any (fun l => s.lineGo l = .refused) = false :=
    List.any_eq_false.mpr fun l hl => by simp [hgoes l hl]
  simp only [State.readWindow, hinside, hrefused, hparts, if_false, Bool.false_eq_true]

end

theorem hostMemory : Claim.HostMemory := by
  intro s off bytes halign hlen hsome hfree htransfers hin hsize hgoes
  have hready : ∀ l ∈ coveredLines off bytes.length, s.lineGo l ≠ .waits := fun l hl => by simp [hgoes l hl]
  obtain ⟨cells, hwrite, hholds, hother⟩ := State.writeWindow_whole halign hlen hsome hin hsize hgoes
  refine ⟨s.writeWindow off bytes false, (State.window_now hfree hsome hin hready).2 false, by rw [hwrite], by rwa [hwrite],
    (s.writeWindow off bytes false).readWindow off bytes.length, [(off, bytes, false)], ?_, ?_⟩
  · rw [hwrite]
    exact (State.window_now (s := { s with dp := { s.dp with cells := cells } }) hfree hsome hin hready).1
  · rw [hwrite, State.readWindow_whole (s := { s with dp := { s.dp with cells := cells } }) halign hlen hsome hin hsize hgoes
      htransfers hholds]
    exact ⟨rfl, by simp, by simp, rfl⟩

/-- Settles O29: whole lines by what a store leaves of each, the transfers and the completions by their cases. -/
theorem hostMemoryHolds : Obligations.HostMemoryHolds := ⟨hostMemory, interfaceTransfers, poisonedCompletions⟩

/-! ### Stacks that are off, failed or in slack (R353) -/

/-- An access to lines that some domain off, or a failed stack, does not take. -/
theorem State.lineGo_refused {s : State} {l : Nat} (h : s.dp.isFailed l = true ∨ (s.domain (lineDom l)).st = .off) :
    s.lineGo l = .refused := by
  unfold State.lineGo
  split
  · rfl
  · rename_i hfailed
    rw [h.resolve_left hfailed]

theorem State.lineGo_slack {s : State} {l : Nat} (hfailed : s.dp.isFailed l = false) (hslack : (s.domain (lineDom l)).st = .slack) :
    s.lineGo l = .waits := by
  unfold State.lineGo
  rw [hfailed, hslack]
  rfl

/-- An access of some bytes covers some line. -/
theorem coveredLines_ne_nil {x len : Nat} (h : len ≠ 0) : coveredLines x len ≠ [] := by
  simp only [coveredLines, ceilDiv, ne_eq, List.map_eq_nil_iff, List.range_eq_nil]
  omega

section
variable {s : State} {off : Nat} {bytes : List Byte}

/-- An access beyond the window is not claimed. -/
theorem State.window_outside (hfree : s.writeHeld = false) (hout : s.windowSize < off + bytes.length) :
    exec (.bar4Read off bytes.length) s = .next s ∧ ∀ p, exec (.bar4Write off bytes p) s = .next s := by
  have hlines := State.accessLines_outside hout
  refine ⟨?_, fun p => ?_⟩
  · rw [exec_bar4Read, State.access_now hfree (State.accessWaits_of_noLines hlines.1)]
    exact congrArg Host.Outcome.next (if_pos (.inl hout))
  · rw [exec_bar4Write, State.access_now hfree (State.accessWaits_of_noLines (hlines.2 p))]
    exact congrArg Host.Outcome.next (if_pos (.inl hout))

/-- One that no line takes is refused. -/
theorem State.any_refused (hsome : bytes ≠ []) (hrefused : ∀ l ∈ coveredLines off bytes.length, s.lineGo l = .refused) :
    (coveredLines off bytes.length).any (fun l => s.lineGo l = .refused) = true := by
  have hlen : bytes.length ≠ 0 := fun h => hsome (List.length_eq_zero_iff.mp h)
  obtain ⟨l, hl⟩ := List.exists_mem_of_ne_nil _ (coveredLines_ne_nil (x := off) hlen)
  exact List.any_eq_true.mpr ⟨l, hl, by simp [hrefused l hl]⟩

variable (hsome : bytes ≠ []) (hin : off + bytes.length ≤ s.windowSize)
include hsome hin

/-- An access one of whose lines waits is held. -/
theorem State.window_held (hwaits : ∃ l ∈ coveredLines off bytes.length, s.lineGo l = .waits) :
    exec (.bar4Read off bytes.length) s = .next (s.hold (.read off bytes.length))
      ∧ ∀ p, exec (.bar4Write off bytes p) s = .next (s.hold (.write off bytes p)) := by
  obtain ⟨l, hl, hwaits⟩ := hwaits
  have hlines := State.accessLines_inside hsome hin
  have hany {a : HostAccess} (h : s.accessLines a = coveredLines off bytes.length) : s.accessWaits a = true :=
    List.any_eq_true.mpr ⟨l, h ▸ hl, by simp [hwaits]⟩
  exact ⟨congrArg Host.Outcome.next (State.access_waits (hany hlines.1)),
    fun p => congrArg Host.Outcome.next (State.access_waits (hany (hlines.2 p)))⟩

variable (hrefused : ∀ l ∈ coveredLines off bytes.length, s.lineGo l = .refused)
include hrefused

theorem State.readWindow_refused : s.readWindow off bytes.length =
    { s.offAccess with out := .bar4 [(off, List.replicate bytes.length 0xFF, true)] :: s.offAccess.out } := by
  have hinside : ¬ (s.windowSize < off + bytes.length ∨ bytes.length = 0) :=
    not_or.mpr ⟨by omega, fun h => hsome (List.length_eq_zero_iff.mp h)⟩
  simp only [State.readWindow, hinside, State.any_refused hsome hrefused, if_false, if_true]

theorem State.writeWindow_refused (p : Bool) : s.writeWindow off bytes p = s.offAccess := by
  have hinside : ¬ (s.windowSize < off + bytes.length ∨ bytes = []) := not_or.mpr ⟨by omega, hsome⟩
  have hnone : (coveredLines off bytes.length).filter (fun l => s.lineGo l = .goes) = [] :=
    List.filter_eq_nil_iff.mpr fun l hl => by simp [hrefused l hl]
  simp only [State.writeWindow, hinside, State.any_refused hsome hrefused, hnone, if_false, if_true, List.foldl_nil]

end

/-- What an access that is refused leaves: one count and one advisory error. -/
theorem State.offAccess_leaves (s : State) : s.offAccess.out = .aer :: s.out ∧ s.offAccess.dp.cells = s.dp.cells
    ∧ s.offAccess.count Evt.hostOffAccess = s.count Evt.hostOffAccess + 1 := by
  refine ⟨rfl, Data.bump_cells .., ?_⟩
  exact (State.count_bump s Evt.hostOffAccess 1 Evt.hostOffAccess).trans (if_pos rfl)

theorem offAccessesToWindow : Claim.OffAccesses := by
  intro s off bytes hsome
  refine ⟨State.window_outside, fun hin hslack => ?_, fun hfree hin hoff => ?_⟩
  · obtain ⟨l, hl, hfailed, hslack⟩ := hslack
    exact State.window_held hsome hin ⟨l, hl, State.lineGo_slack hfailed hslack⟩
  · have hrefused : ∀ l ∈ coveredLines off bytes.length, s.lineGo l = .refused := fun l hl => State.lineGo_refused (hoff l hl)
    obtain ⟨hread, hwrite⟩ := State.window_now hfree hsome hin fun l hl => by simp [hrefused l hl]
    obtain ⟨hout, hcells, hcount⟩ := s.offAccess_leaves
    refine ⟨⟨_, hread, ?_⟩, fun p => ⟨_, hwrite p, ?_⟩⟩
    · rw [State.readWindow_refused hsome hin hrefused]
      exact ⟨by rw [hout], hcells, hcount⟩
    · rw [State.writeWindow_refused hsome hin hrefused]
      exact ⟨hout, hcells, hcount⟩

/-! ### Held accesses (R352) -/

theorem heldAccesses : Claim.HeldAccesses := by
  refine ⟨fun s hnone => ?_, fun s a as hheld => ?_, fun s a hwrite => State.access_behind hwrite a⟩
  · cases s
    rename_i pci _ _ _ _ _ _ _ _ _ _ _ _ _
    cases pci
    subst hnone
    rfl
  · have hsettle : s.settleHeld = as.foldl State.access (State.access { s with pci := { s.pci with held := [] } } a) := by
      rw [State.settleHeld, hheld]
      rfl
    dsimp only
    rw [hsettle]
    exact ⟨fun hgo => by rw [State.access_now rfl hgo], fun hwaits => by rw [State.access_waits hwaits]⟩

/-- Settles O30: an access by what its lines meet, the held ones by the fold that settles them. -/
theorem offAccesses : Obligations.OffAccesses := ⟨offAccessesToWindow, heldAccesses⟩

/-! ### Retraining (R227) -/

/-- A state with a stack that is on and a table of failed retrainings whose keys do not rise: stack 3's entry stands after stack 5's. -/
def unsortedFails : State :=
  { State.reset with
    pwr := { Pwr.reset with doms := [(21, ⟨1, .on, false, 0⟩)] }
    dp := { Data.reset with retrainFails := [(5, 1), (3, 1)] } }

/-- The failed retrainings of a stack after a command. -/
def Out.failsOf (x : Nat) : Out → Nat
  | .next t => tget 0 t.dp.retrainFails x
  | .fault _ => 0
  | .refused _ => 0

/-- Refutes O31, in its claim about retraining: a table of the state is a list, and one whose keys do not rise hides an entry behind a
larger key. Stack 5's success removes its entry, and the count of stack 3 that it hid then reads 1 in place of 0. -/
theorem not_sideScrubRetrain : ¬ Obligations.SideScrubRetrain := by
  unfold Obligations.SideScrubRetrain
  rintro ⟨-, -, hretrain⟩
  obtain ⟨⟨t, hexec, -, -, hothers, -, -⟩, -⟩ := hretrain unsortedFails 5 (by decide) (by decide) (by decide)
  have hafter : tget 0 t.dp.retrainFails 3 = 1 := by
    have hfails : Out.failsOf 3 (exec (.retrainInterface 5 true) unsortedFails) = 1 := by decide
    rwa [hexec] at hfails
  have hbefore : tget 0 unsortedFails.dp.retrainFails 3 = 0 := by decide
  have hsame := hothers 3 (by decide)
  rw [hafter, hbefore] at hsame
  cases hsame

end Sys2Proof.Machine
end

