-- ==== Sys2Proof/Proofs/MemoryOperations.lean ====
section
/-!
PROOFS. FENCE, STORE_PTE, LAND and EXPORT (08 R239 to R244; 07 R201, R213, R218).
-/

namespace Sys2Proof.Machine

/-! ### FENCE (R239, R241) -/

/-- The pin window is shut by a pin that lies half the range behind. -/
theorem State.windowShut_iff (s : State) : s.windowShut = true ↔ ∃ p ∈ s.ops, 0x8000 ≤ (s.dp.txGen + 1 - p.pin).toNat := by
  simp only [State.windowShut, List.any_eq_true, decide_eq_true_eq]

section
variable {s : State} {id : Nat} {o : Op} {i : Inst} (h : s.Running id 0 0x0801 o i)
include h

theorem exec_fence_open (hopen : s.windowShut = false) : exec (.fence id) s = .next
    ((({ s with dp := { s.dp with txGen := s.dp.txGen + 1, root := s.dp.rootWritten } }).bump Evt.fences 1).finish id 0 0 0) := by
  show execFence id s = _
  simp only [execFence, h.work, hopen, Bool.false_eq_true, if_false]

theorem exec_fence_shut (hshut : s.windowShut = true) (hfirst : o.num Lab.waited = 0) : exec (.fence id) s = .next
    ((s.bump Evt.fenceWindowWait 1).updOp id fun o => { o with nums := tput o.nums Lab.waited 1 }) := by
  show execFence id s = _
  simp only [execFence, h.work, hshut, hfirst, if_true, Nat.zero_ne_one, if_false]

end

theorem fenceAdvancesTheGeneration : Claim.FenceAdvancesTheGeneration := by
  intro s id o i h
  refine ⟨fun hpins => ?_, fun hpin hfirst => ?_⟩
  · have hopen : s.windowShut = false := by
      rw [← Bool.not_eq_true, State.windowShut_iff]
      rintro ⟨p, hp, hfar⟩
      have := hpins p hp
      omega
    refine ⟨_, exec_fence_open h hopen, State.finish_ended_of rfl rfl _ _ _ _, ?_, ?_, ?_, fun k hk => ?_, ?_⟩
    · rw [State.finish_eq, State.bump_eq]
    · rw [State.finish_eq, State.bump_eq]
    · exact (State.count_bump ..).trans (if_pos rfl)
    · exact State.count_bump_other _ 1 hk
    · rw [State.finish_eq, State.bump_eq]
  · refine ⟨_, exec_fence_shut h ((State.windowShut_iff s).mpr hpin) hfirst, ?_, ?_⟩
    · rw [State.updOp_dp, State.bump_eq]
    · exact (State.count_bump ..).trans (if_pos rfl)

/-! ### Requests to host memory (16 R462) -/

theorem State.hostGo_goes {s : State} (h : s.mayIssue = true) : s.hostGo = .goes := by
  simp only [State.mayIssue, Bool.and_eq_true, Bool.not_eq_true'] at h
  obtain ⟨⟨hd0, hmaster⟩, hup⟩ := h
  simp [State.hostGo, hd0, hmaster, hup]

theorem State.hostGo_refused {s : State} (hd0 : s.pci.d3hot = false) (hmaster : s.pci.busMaster = false) : s.hostGo = .refused := by
  simp [State.hostGo, hd0, hmaster]

theorem State.postFor_post {s : State} {o : Op} (h : o.orphan = false) (addr : Nat) (bytes : List Byte) :
    s.postFor o addr bytes = s.post addr bytes := by
  rw [State.postFor, h]
  rfl

/-! ### STORE_PTE (R243) -/

section
variable {s : State} {id : Nat} {o : Op} {i : Inst} (h : s.Running id 0 0x0802 o i)
include h

theorem exec_storePte_held (hheld : s.pteHeld o = true) : exec (.storePte id) s = .next s := by
  show execStorePte id s = _
  simp only [execStorePte, h.work, hheld, if_true]

theorem exec_storePte_stores {d : Data} (hfirst : s.pteHeld o = false)
    (hrun : s.run (storePteWork (s.envOf o) o.acc o.desc) = some (.ok (), d)) :
    exec (.storePte id) s = .next (({ s with dp := d } : State).finish id 0 0 0) := by
  show execStorePte id s = _
  simp only [execStorePte, h.work, hfirst, Bool.false_eq_true, if_false, State.perform_ok hrun]

end

/-! ### LAND (07 R213) -/

theorem exec_land_data {s : State} {id n : Nat} {o : Op} {i : Inst} {d : Data} {bytes : List Byte} (h : s.Running id 0 0x0901 o i)
    (hissue : s.mayIssue = true) (hrun : s.run (landWork (s.envOf o) o.acc o bytes) = some (.ok n, d)) :
    exec (.land id (.data bytes)) s = .next ((({ s with dp := d } : State).bump Evt.landedLines n).finish id 0 0 0) := by
  show execLand id (.data bytes) s = _
  simp only [execLand, h.work, State.hostGo_goes hissue, hrun]

/-! ### EXPORT (07 R201, R205) -/

/-- The writes of an image's sections change what goes out alone. -/
theorem foldl_postFor {o : Op} (horphan : o.orphan = false) (host : Nat) (ss : List Section) (s : State) :
    ∃ out, ss.foldl (fun s x => if x.got.bytes.isEmpty then s else s.postFor o (host + x.off) (x.got.bytes.take x.len)) s
      = { s with out := out } := by
  induction ss generalizing s with
  | nil => exact ⟨s.out, rfl⟩
  | cons x ss ih =>
    rw [List.foldl_cons]
    split
    · exact ih s
    · obtain ⟨out, hout⟩ := ih (s.post (host + x.off) (x.got.bytes.take x.len))
      exact ⟨out, by rw [State.postFor_post horphan, hout]; rfl⟩

/-- Sections that met no fault. -/
theorem findSome_fault_none {ss : List Section} (h : ∀ x ∈ ss, x.got.fault = none) : (ss.findSome? fun x => x.got.fault) = none :=
  List.findSome?_eq_none_iff.mpr h

section
variable {s : State} {id : Nat} {o : Op} {i : Inst} (h : s.Running id 0 0x0902 o i)
include h

/-- An EXPORT whose sections are all read counts their lines and posts its header last. -/
theorem exec_exportShard_writes {d : Data} {ss : List Section} {per : Nat} (hissue : s.mayIssue = true) (horphan : o.orphan = false)
    (hrun : s.run (exportSections (s.envOf o) o.acc o) = some (.ok (ss, per), d)) (hgood : ∀ x ∈ ss, x.got.fault = none) :
    ∃ out lines poisoned, exec (.exportShard id) s = .next
      ((((({ s with dp := d, out := out } : State).bump Evt.exportedLines lines).bump Evt.exportPoison poisoned).post
        (field o.desc 16 8) (exportHeader 1 o.desc per ss)).finish id 0 0 0) := by
  obtain ⟨out, hout⟩ := foldl_postFor horphan (field o.desc 16 8) ss { s with dp := d }
  refine ⟨out, (ss.map (·.got.lines)).sum, (ss.map (·.got.poisoned)).sum, ?_⟩
  show execExportShard id s = _
  simp only [execExportShard, h.work, State.hostGo_goes hissue, hrun, findSome_fault_none hgood, State.postFor_post horphan]
  simp only [State.postFor_post horphan] at hout
  rw [hout]

theorem exec_exportShard_refused (hd0 : s.pci.d3hot = false) (hmaster : s.pci.busMaster = false) :
    exec (.exportShard id) s = .next ((s.countFault o.desc).finish id 0 Code.hostAbort 0) := by
  show execExportShard id s = _
  simp only [execExportShard, h.work, State.hostGo_refused hd0 hmaster]

end

theorem memoryOperationsComplete : Claim.MemoryOperationsComplete := by
  intro s id o i d
  refine ⟨fun h => exec_storePte_held h, fun h hfirst hrun => ?_, fun bytes n h hissue hrun => ?_,
    fun ss per h hissue horphan hrun hgood => ?_, fun h hd0 hmaster => ?_⟩
  · exact ⟨_, exec_storePte_stores h hfirst hrun, State.finish_ended_of rfl rfl _ _ _ _, rfl, rfl⟩
  · refine ⟨_, exec_land_data h hissue hrun, State.finish_ended_of rfl rfl _ _ _ _, Data.bump_cells .., ?_, ?_⟩
    · exact (State.count_bump ..).trans (if_pos rfl)
    · rw [State.finish_eq, State.bump_eq]
  · obtain ⟨out, lines, poisoned, hexec⟩ := exec_exportShard_writes h hissue horphan hrun hgood
    exact ⟨_, hexec, State.finish_ended_of rfl rfl _ _ _ _, (Data.bump_cells ..).trans (Data.bump_cells ..), rfl, rfl⟩
  · refine ⟨_, exec_exportShard_refused h hd0 hmaster, State.finish_ended_of ?_ ?_ _ _ _ _, ?_, ?_⟩
    all_goals rw [State.countFault_eq]
    · rfl
    · rfl

/-- Settles O27: each operation by the branch that its run takes, and what the end of an instance leaves. -/
theorem memoryOperations : Obligations.MemoryOperations := ⟨fenceAdvancesTheGeneration, memoryOperationsComplete⟩

end Sys2Proof.Machine
end

