-- ==== Sys2Proof/Proofs/ControlOperations.lean ====
section
/-!
PROOFS. NOP, NOTIFY, CTX_SAVE and CTX_RESTORE (11 R368, R370 to R372).
-/

namespace Sys2Proof.Machine

/-! ### NOP, NOTIFY and CTX_SAVE -/

theorem exec_nop_ends {s : State} {id : Nat} {o : Op} {i : Inst} (h : s.Running id 0 0x0F01 o i) :
    exec (.nop id) s = .next (s.finish id 0 0 0) := by
  show execNop id s = _
  simp only [execNop, h.work]

section
variable {s : State} {id : Nat} {o : Op} {i : Inst} (h : s.Running id 0 0x0F02 o i)
include h

theorem exec_notify_posts (horphan : o.orphan = false) (hissue : s.mayIssue = true) :
    exec (.notify id) s = .next ((s.post (field o.desc 16 8) (slice o.desc 24 8)).finish id 0 0 0) := by
  show execNotify id s = _
  simp only [execNotify, h.work, State.hostGo_goes hissue, State.postFor_post horphan]

theorem exec_notify_refused (hd0 : s.pci.d3hot = false) (hmaster : s.pci.busMaster = false) :
    exec (.notify id) s = .next (s.finish id 0 Code.hostAbort 0) := by
  show execNotify id s = _
  simp only [execNotify, h.work, State.hostGo_refused hd0 hmaster]

end

theorem exec_ctxSave_writes {s : State} {id : Nat} {o : Op} {i : Inst} {d : Data} (h : s.Running id 0 0x0F03 o i)
    (hrun : s.run (do
      let ws ← putBytes (s.envOf o) o.acc (addrField o.desc 16) (s.contextImage (bits (field o.desc 24 1) 1 0))
      writeAll (s.envOf o) ws) = some (.ok (), d)) :
    exec (.ctxSave id) s = .next (({ s with dp := d } : State).finish id 0 0 0) := by
  show execCtxSave id s = _
  simp only [execCtxSave, h.work, State.perform_ok hrun]

/-! ### The counters of an image (R371) -/

theorem leNat_take (bs : List Byte) (k : Nat) : leNat (bs.take k) = leNat bs % 256 ^ k := by
  induction k generalizing bs with
  | zero => simp [leNat, Nat.mod_one]
  | succ k ih =>
    cases bs with
    | nil => simp [leNat]
    | cons b bs =>
      have hb : b.toNat < 256 := b.isLt
      have hmod : (b.toNat + 256 * leNat bs) % 256 = b.toNat := by omega
      have hdiv : (b.toNat + 256 * leNat bs) / 256 = leNat bs := by omega
      rw [List.take_succ_cons, leNat, leNat, ih, Nat.pow_succ', Nat.mod_mul, hmod, hdiv]

/-- The low bytes of a field are the shorter field. -/
theorem field_low (xs : List Byte) (off : Nat) {k n : Nat} (h : k ≤ n) : field xs off n % 256 ^ k = field xs off k := by
  rw [field, field, ← leNat_take]
  congr 1
  simp only [slice, List.take_append, List.take_take, List.length_take, List.length_drop, List.take_replicate]
  rw [Nat.min_eq_left h]
  congr 2
  omega

theorem Cnt.ofWord_value (img : List Byte) (n : Nat) :
    (Cnt.ofWord (word8 img 0x40 n)).value = BitVec.ofNat 32 (field img (0x40 + 8 * n) 4) := by
  apply BitVec.eq_of_toNat_eq
  show (word8 img 0x40 n >>> 0 % 2 ^ 32) % 2 ^ 32 = field img (0x40 + 8 * n) 4 % 2 ^ 32
  rw [← field_low img (0x40 + 8 * n) (show 4 ≤ 8 by omega)]
  simp [word8]

/-! ### What loading an image leaves (R372) -/

@[simp] theorem State.headMoved_cnt (s : State) (q : Nat) : (s.headMoved q).cnt = s.cnt := by
  simp only [State.headMoved]
  repeat' split
  all_goals rfl

@[simp] theorem State.headMoved_dp (s : State) (q : Nat) : (s.headMoved q).dp = s.dp := by
  simp only [State.headMoved]
  repeat' split
  all_goals rfl

@[simp] theorem State.headMoved_tide (s : State) (q : Nat) : (s.headMoved q).tide = s.tide := by
  simp only [State.headMoved]
  repeat' split
  all_goals rfl

@[simp] theorem State.headMoved_ops (s : State) (q : Nat) : (s.headMoved q).ops = s.ops := by
  simp only [State.headMoved]
  repeat' split
  all_goals rfl

/-- A write-back of HEAD concerns one queue, and what it is about there alone. -/
theorem State.queue_headMoved (s : State) (q k : Nat) :
    ∃ due, (s.headMoved q).queue k = if k = q then { s.queue k with wbDue := due } else s.queue k := by
  by_cases haddr : (s.queue q).headWb = 0
  · exact ⟨(s.queue k).wbDue, by simp [State.headMoved, haddr]⟩
  · refine ⟨!s.mayIssue, ?_⟩
    simp only [State.headMoved, haddr, if_false]
    cases s.mayIssue
    all_goals
      simp only [Bool.false_eq_true, if_false, if_true, State.queue, State.updQueue_que, State.post_que, tget_tupd]
      split
      case isTrue heq => rw [heq]; rfl
      case isFalse => rfl

section
variable (s old : State)

/-- One step of the write-backs after a restore. -/
def State.headLoaded (t : State) (k : Nat) : State := if (t.queue k).head = (old.queue k).head then t else t.headMoved k

/-- What the write-backs leave of a state: everything but what goes out and the queues' marks; a queue whose HEAD is as it was is as it
was. -/
structure State.HeadsKept (t : State) : Prop where
  ops : t.ops = s.ops
  tide : t.tide = s.tide
  cnt : t.cnt = s.cnt
  dp : t.dp = s.dp
  queue : ∀ k, ∃ due, t.queue k = { s.queue k with wbDue := due }
  same : ∀ k, (s.queue k).head = (old.queue k).head → t.queue k = s.queue k

variable {s old}

theorem State.HeadsKept.counter {t : State} (h : s.HeadsKept old t) (n : Nat) : t.counter n = s.counter n := by
  rw [State.counter, State.counter, h.cnt]

theorem State.HeadsKept.step {t : State} (h : s.HeadsKept old t) (k : Nat) : s.HeadsKept old (old.headLoaded t k) := by
  unfold State.headLoaded
  split
  case isTrue => exact h
  case isFalse hmoved =>
    refine ⟨by simp [h.ops], by simp [h.tide], by simp [h.cnt], by simp [h.dp], fun n => ?_, fun n hn => ?_⟩
    · obtain ⟨due, hdue⟩ := h.queue n
      obtain ⟨due', hdue'⟩ := t.queue_headMoved k n
      rw [hdue', hdue]
      split
      · exact ⟨due', rfl⟩
      · exact ⟨due, rfl⟩
    · obtain ⟨due, hdue⟩ := t.queue_headMoved k n
      have hother : n ≠ k := by
        rintro rfl
        exact hmoved (h.same n hn ▸ hn)
      rw [hdue, if_neg hother]
      exact h.same n hn

theorem State.headsLoaded_keeps : s.HeadsKept old (s.headsLoaded old) :=
  List.foldlRecOn (motive := s.HeadsKept old) (List.range 64) old.headLoaded
    ⟨rfl, rfl, rfl, rfl, fun k => ⟨(s.queue k).wbDue, rfl⟩, fun _ _ => rfl⟩ fun _ ht k _ => ht.step k

end

/-- What a restore does not load after the queues and counters. -/
structure State.HostKept (s t : State) : Prop where
  ops : t.ops = s.ops
  tide : t.tide = s.tide
  cnt : t.cnt = s.cnt
  que : t.que = s.que
  cells : t.dp.cells = s.dp.cells

theorem State.HostKept.trans {s t u : State} (h : s.HostKept t) (h' : t.HostKept u) : s.HostKept u :=
  ⟨h'.ops.trans h.ops, h'.tide.trans h.tide, h'.cnt.trans h.cnt, h'.que.trans h.que, h'.cells.trans h.cells⟩

theorem State.HostKept.queue {s t : State} (h : s.HostKept t) (k : Nat) : t.queue k = s.queue k := by
  rw [State.queue, State.queue, h.que]

theorem State.HostKept.counter {s t : State} (h : s.HostKept t) (n : Nat) : t.counter n = s.counter n := by
  rw [State.counter, State.counter, h.cnt]

theorem State.loadSingles_keeps (s : State) (img : List Byte) : s.HostKept (s.loadSingles img) := by
  simp only [State.loadSingles, State.writeTunerCtl]
  split
  · exact ⟨rfl, rfl, rfl, rfl, rfl⟩
  · exact ⟨rfl, rfl, rfl, rfl, rfl⟩

theorem State.loadBlocks_keeps (s : State) (img : List Byte) : s.HostKept (s.loadBlocks img) := by
  have hcells (ns : List Nat) (w : Nat → Nat) : (ns.foldl (fun d n => d.writeRa n (w n)) s.dp).cells = s.dp.cells :=
    List.foldlRecOn (motive := fun d : Data => d.cells = s.dp.cells) ns _ rfl fun _ hd _ _ => hd
  rw [State.loadBlocks]
  exact ⟨rfl, rfl, rfl, rfl, hcells _ _⟩

theorem State.rebuildSlots_keeps (s : State) : s.HostKept s.rebuildSlots := by
  refine List.foldlRecOn (motive := s.HostKept) _ _ ⟨rfl, rfl, rfl, rfl, rfl⟩ fun t ht r _ => ht.trans ?_
  split
  · exact ⟨rfl, rfl, rfl, rfl, rfl⟩
  · exact ⟨rfl, rfl, rfl, rfl, rfl⟩

/-- An image without optional sections. -/
theorem State.loadContext_plain (s : State) (q : Nat) {h : List Byte} (img : List Byte) (hflags : field h 2 1 = 0) :
    ((s.loadHost q img).headsLoaded s).HostKept (s.loadContext q h img) := by
  simp only [State.loadContext, hflags, bit, Nat.zero_shiftRight, Nat.zero_mod, beq_iff_eq, Nat.zero_ne_one, if_false]
  exact ((State.loadSingles_keeps _ img).trans (State.loadBlocks_keeps _ img)).trans (State.rebuildSlots_keeps _)

theorem State.loadHost_counter (s : State) (q : Nat) (img : List Byte) {n : Nat} (h : n < 4096) :
    (s.loadHost q img).counter n = Cnt.ofWord (word8 img 0x40 n) := by
  simp only [State.counter, State.loadHost]
  exact tget_map_range _ _ h

@[simp] theorem State.loadHost_cells (s : State) (q : Nat) (img : List Byte) : (s.loadHost q img).dp.cells = s.dp.cells := by
  rw [State.loadHost]

theorem State.loadHost_queue_own (s : State) {q : Nat} (img : List Byte) (h : q < 64) : (s.loadHost q img).queue q = s.queue q := by
  simp only [State.queue, State.loadHost]
  rw [tget_map_range _ _ h, if_pos rfl]

theorem State.loadHost_queue_other (s : State) {q k : Nat} (img : List Byte) (h : k < 64) (hk : k ≠ q) :
    ((s.loadHost q img).queue k).enable = false ∧ ((s.loadHost q img).queue k).state = 0 := by
  simp only [State.queue, State.loadHost]
  rw [tget_map_range _ _ h, if_neg hk]
  exact ⟨rfl, rfl⟩

/-! ### CTX_RESTORE (R372) -/

/-- Work that ends in an answer made from what its one part read. -/
theorem State.run_map {α β : Type} {s : State} {m : M α} {a : α} {d : Data} (f : α → β) (h : s.run m = some (.ok a, d)) :
    s.run (m >>= fun x => pure (f x)) = some (.ok (f a), d) := by
  have hbind : (m >>= fun x => pure (f x)) ⟨s.dp, false⟩ = ((m ⟨s.dp, false⟩).1.map f, (m ⟨s.dp, false⟩).2) := by
    change ((match m ⟨s.dp, false⟩ with | (r, io) => ExceptT.bindCont (fun x => (pure (f x) : M β)) r io) : Except _ β × Io) = _
    generalize m ⟨s.dp, false⟩ = answer
    obtain ⟨r, io⟩ := answer
    cases r <;> rfl
  simp only [State.run] at h ⊢
  rw [hbind]
  split at h
  case isTrue => cases h
  case isFalse hgo =>
    simp only [Option.some.injEq, Prod.mk.injEq] at h
    rw [if_neg hgo, h.1, h.2]
    rfl

section
variable {s : State} {id : Nat} {o : Op} {i : Inst} {d : Data} {bytes : List Byte}

/-- An image without optional sections, and without a status address, is loaded when its lines are read. -/
theorem exec_ctxRestore_loads (h : s.Running id 0 0x0F04 o i) (hst : addrField o.desc 24 = 0)
    (hflags : field (o.record Lab.ctxHeader) 2 1 = 0)
    (hrun : s.run (openRead (s.envOf o) o.acc (addrField o.desc 16 + 64) (imageBytes 0 / 64 - 1)) = some (.ok bytes, d)) :
    exec (.ctxRestore id) s = .next ((({ s with dp := d } : State).loadContext o.q (o.record Lab.ctxHeader)
      (o.record Lab.ctxHeader ++ bytes)).finish id 0 0 0) := by
  have hwork := State.run_map (fun rest => o.record Lab.ctxHeader ++ rest) hrun
  show execCtxRestore id s = _
  simp only [execCtxRestore, h.work, hst, hflags, if_true, hwork]
  rfl

end

/-- Settles O32: each operation by the branch that its run takes; what a restore loads stands through the sections that follow it. -/
theorem controlOperations : Obligations.ControlOperations := by
  intro s id o i d
  refine ⟨fun h => ?_, fun h horphan hissue => ?_, fun h hd0 hmaster => ?_, fun h hrun => ?_, fun bytes h hst hflags _ hq hrun => ?_⟩
  · exact ⟨_, exec_nop_ends h, State.finish_ended _ _ _ _ _, rfl⟩
  · exact ⟨_, exec_notify_posts h horphan hissue, State.finish_ended_of rfl rfl _ _ _ _, rfl⟩
  · exact ⟨_, exec_notify_refused h hd0 hmaster, State.finish_ended _ _ _ _ _, rfl⟩
  · exact ⟨_, exec_ctxSave_writes h hrun, State.finish_ended_of rfl rfl _ _ _ _, rfl, rfl⟩
  · let v : State := { s with dp := d }
    generalize himg : o.record Lab.ctxHeader ++ bytes = img
    have hexec := exec_ctxRestore_loads h hst hflags hrun
    rw [himg] at hexec
    have hheads : (v.loadHost o.q img).HeadsKept v ((v.loadHost o.q img).headsLoaded v) := State.headsLoaded_keeps
    have hrest := v.loadContext_plain o.q img hflags
    have hown := v.loadHost_queue_own img hq
    have hops : (v.loadContext o.q (o.record Lab.ctxHeader) img).ops = s.ops := hrest.ops.trans hheads.ops
    have htide : (v.loadContext o.q (o.record Lab.ctxHeader) img).tide = s.tide := hrest.tide.trans hheads.tide
    have hcells : (v.loadContext o.q (o.record Lab.ctxHeader) img).dp.cells = d.cells :=
      hrest.cells.trans ((congrArg Data.cells hheads.dp).trans (v.loadHost_cells o.q img))
    refine ⟨_, hexec, State.finish_ended_of hops htide _ _ _ _, fun n hn => ?_, ?_, fun k hk hne => ?_, hcells⟩
    · rw [← Cnt.ofWord_value, ← v.loadHost_counter o.q img hn, ← hheads.counter, ← hrest.counter]
      rfl
    · exact (hrest.queue o.q).trans ((hheads.same o.q (congrArg Queue.head hown)).trans hown)
    · obtain ⟨due, hdue⟩ := hheads.queue k
      have hload := (hrest.queue k).trans hdue
      have hcold := v.loadHost_queue_other img hk hne
      exact ⟨(congrArg Queue.enable hload).trans hcold.1, (congrArg Queue.state hload).trans hcold.2⟩

end Sys2Proof.Machine
end

