-- ==== Sys2Proof/Proofs/HostFunction.lean ====
section
/-!
PROOFS. What the host does to the function: resets, power states, masks, DOE objects (11 R350, R367, R375; 16 R462; 15 R453).
-/

namespace Sys2Proof.Machine

/-! ### Host reset (R350) -/

/-- Noting the interleave slip changes its mark and the event counters. -/
theorem State.watchSlip_eq (s : State) :
    s.watchSlip = { s with dp := { s.dp with evts := s.watchSlip.dp.evts }, stw := { s.stw with slip := s.slipExists } } := by
  unfold State.watchSlip
  dsimp only
  split
  all_goals split
  case isTrue.isTrue hnew hsame => simp [hsame] at hnew
  case isTrue.isFalse => exact congrArg (fun t : State => { t with stw := { s.stw with slip := s.slipExists } }) (s.bump_eq _ _)
  case isFalse.isTrue hsame => rw [hsame]
  case isFalse.isFalse => rfl

/-- It counts nothing but the slip. -/
theorem State.count_watchSlip (s : State) {k : Nat} (h : k ≠ Evt.interleaveSlip) : s.watchSlip.count k = s.count k := by
  unfold State.watchSlip
  dsimp only
  split
  all_goals split
  case isTrue.isTrue => exact State.count_bump_other s 1 h
  case isTrue.isFalse => exact State.count_bump_other s 1 h
  case isFalse.isTrue => rfl
  case isFalse.isFalse => rfl

theorem hostEvents_cleared (evts : Tab (BitVec 48)) :
    tget 0 (hostEvents.foldl (fun t off => tput t off 0) evts) Evt.hostResetDiscard = 0 := by
  simp [hostEvents, tget_tput]

/-- The registers and counters that a host reset clears, before its own counts. -/
def State.hostCleared (s : State) (c : HostResetCause) : State :=
  { s with
    que := [], cnt := [], hst := .reset, pci := s.pci.hostReset c, mbx := s.mbx.hostReset
    ops := s.ops.map fun (o : Op) => { o with orphan := true }
    dp := { s.dp with evts := hostEvents.foldl (fun t off => tput t off 0) s.dp.evts } }

theorem State.bump_bump_eq (s : State) (off n off' n' : Nat) : (s.bump off n).bump off' n'
    = { s with dp := { s.dp with evts := ((s.bump off n).bump off' n').dp.evts } } := by
  unfold State.bump Data.bump
  dsimp only
  split
  all_goals split
  all_goals rfl

/-- What a host reset comes to. -/
theorem State.hostReset_eq (s : State) (c : HostResetCause) : ∃ evts slip,
    s.hostReset c = { s.hostCleared c with dp := { s.dp with evts := evts }, stw := { s.stw with slip := slip } }
      ∧ tget 0 evts Evt.hostResetDiscard = BitVec.ofNat 48 s.hst.deferred.length := by
  let u := ((s.hostCleared c).bump Evt.hostResetDiscard s.hst.deferred.length).bump Evt.slackWake (b2n (s.hostState == .slack))
  refine ⟨u.watchSlip.dp.evts, u.slipExists, ?_, ?_⟩
  · refine u.watchSlip_eq.trans ?_
    rw [show u = _ from State.bump_bump_eq _ _ _ _ _]
    rfl
  · calc u.watchSlip.count Evt.hostResetDiscard
      _ = u.count Evt.hostResetDiscard := State.count_watchSlip u (by decide)
      _ = ((s.hostCleared c).bump Evt.hostResetDiscard s.hst.deferred.length).count Evt.hostResetDiscard :=
        State.count_bump_other _ _ (by decide)
      _ = (s.hostCleared c).count Evt.hostResetDiscard + BitVec.ofNat 48 s.hst.deferred.length :=
        (State.count_bump ..).trans (if_pos rfl)
      _ = BitVec.ofNat 48 s.hst.deferred.length := by
        rw [show (s.hostCleared c).count Evt.hostResetDiscard = 0 from hostEvents_cleared _]
        exact BitVec.zero_add _

theorem hostResetClears : Claim.HostResetClears := by
  intro s c
  obtain ⟨evts, slip, heq, hdiscard⟩ := s.hostReset_eq c
  refine ⟨s.hostReset c, rfl, ?_⟩
  rw [heq]
  exact ⟨fun _ => rfl, fun _ => rfl, rfl, rfl, rfl, rfl, rfl, rfl, hdiscard, rfl, rfl, rfl, rfl, rfl, rfl, rfl, rfl, rfl⟩

/-! ### Power states and masks (16 R462; 14 R431) -/

theorem State.setD3hot_eq (s : State) (on : Bool) :
    s.setD3hot on = { s with pci := { s.pci with d3hot := on }, dp := { s.dp with evts := (s.setD3hot on).dp.evts } } := by
  unfold State.setD3hot
  dsimp only
  split
  · exact State.bump_eq _ _ _
  · split
    · exact State.bump_eq _ _ _
    · rfl

theorem State.setD3hot_entries (s : State) (on : Bool) : (s.setD3hot on).count Evt.slackEntry
    = s.count Evt.slackEntry + (if s.pwr.hostOn && !s.pci.d3hot && on then 1 else 0) := by
  cases hon : s.pwr.hostOn
  all_goals cases hd3 : s.pci.d3hot
  all_goals cases on
  all_goals simp [State.setD3hot, State.hostState, hon, hd3, State.count_bump]
  all_goals rfl

theorem State.setD3hot_wakes (s : State) (on : Bool) : (s.setD3hot on).count Evt.slackWake
    = s.count Evt.slackWake + (if s.pwr.hostOn && s.pci.d3hot && !on then 1 else 0) := by
  cases hon : s.pwr.hostOn
  all_goals cases hd3 : s.pci.d3hot
  all_goals cases on
  all_goals simp [State.setD3hot, State.hostState, hon, hd3, State.count_bump]
  all_goals rfl

/-- A function that may not issue requests lets nothing go out. -/
theorem exec_functionStateChange_quiet {s : State} {d3 bm : Bool} (hup : s.pci.down = false) (hquiet : d3 = true ∨ bm = false) :
    exec (.functionStateChange d3 bm) s
      = .next { s.setD3hot d3 with pci := { (s.setD3hot d3).pci with busMaster := bm } } := by
  show execFunctionStateChange d3 bm s = _
  have hissue : State.mayIssue { s.setD3hot d3 with pci := { (s.setD3hot d3).pci with busMaster := bm } } = false := by
    rw [State.mayIssue, State.setD3hot_eq]
    rcases hquiet with rfl | rfl
    · rfl
    · simp
  simp only [execFunctionStateChange, hup, Bool.false_eq_true, if_false, hissue]

theorem State.unmask_sends {s : State} {v : Nat} (hpending : (s.vec v).pending = true) (hissue : s.mayIssue = true) :
    s.unmask v = { s with
      pci := { s.pci with msix := tput s.pci.msix v { s.vec v with masked := false, pending := false } }
      out := .msix v (s.vec v).addr (s.vec v).data :: s.out } := by
  have hgo (m : Tab Msix) : State.mayIssue { s with pci := { s.pci with msix := m } } = true := hissue
  simp only [State.unmask, hpending, if_true, State.msix, hgo, State.sendMsix, tget_tput_same, Bool.false_eq_true, if_false]

/-! ### DOE objects (R375; 15 R453) -/

/-- An answer to the host: it goes out, and an interrupt may follow it; the object in progress, the data plane, the counters and the
entropy source stay. -/
structure State.Answers (s : State) (reply : List Byte) (t : State) : Prop where
  out : ∃ rest, t.out = rest ++ .doe reply :: s.out
  doePart : t.pci.doePart = s.pci.doePart
  dp : t.dp = s.dp
  cnt : t.cnt = s.cnt
  rng : t.rng = s.rng

theorem State.doeAnswer_answers (s : State) (reply : List Byte) : s.Answers reply (s.doeAnswer reply) := by
  simp only [State.doeAnswer, State.msix, State.sendMsix]
  split
  · split
    · exact ⟨⟨[], rfl⟩, rfl, rfl, rfl, rfl⟩
    · exact ⟨⟨[_], rfl⟩, rfl, rfl, rfl, rfl⟩
  · exact ⟨⟨[], rfl⟩, rfl, rfl, rfl, rfl⟩

theorem exec_spdmRequest_ignored {s : State}
    (h : s.pci.down = true ∨ s.boot.stage < 5 ∨ s.mgmtOn = false ∨ s.pci.spdmWait.isSome = true) (bytes : List Byte) :
    exec (.spdmRequest bytes) s = .next s := by
  show execSpdmRequest bytes s = _
  have hshut : (s.pci.down || decide (s.boot.stage < 5) || !s.mgmtOn || s.pci.spdmWait.isSome) = true := by
    simpa [or_assoc] using h
  rw [execSpdmRequest, if_pos hshut]

section
variable {s : State} (hup : s.pci.down = false) (hstage : 5 ≤ s.boot.stage) (hmgmt : s.mgmtOn = true) (hfree : s.pci.spdmWait = none)
include hup hstage hmgmt hfree

/-- A mailbox that is open and empty takes what arrives. -/
theorem exec_spdmRequest_write (bytes : List Byte) : exec (.spdmRequest bytes) s = .next (s.doeWrite bytes) := by
  show execSpdmRequest bytes s = _
  have hopen : ¬s.boot.stage < 5 := Nat.not_lt.mpr hstage
  simp [execSpdmRequest, hup, hopen, hmgmt, hfree]

variable (hpart : s.pci.doePart = [])
include hpart

theorem exec_spdmRequest_part {bytes : List Byte} (h : bytes.length < 8) :
    exec (.spdmRequest bytes) s = .next { s with pci := { s.pci with doePart := bytes } } := by
  rw [exec_spdmRequest_write hup hstage hmgmt hfree, State.doeWrite, hpart, List.nil_append]
  have hshort : ¬(16384 < bytes.length ∨ 8 ≤ bytes.length ∧ 16384 < doeLength bytes) := by omega
  rw [if_neg hshort, if_pos (.inl h)]

theorem exec_spdmRequest_whole {bytes : List Byte} (h : 8 ≤ bytes.length) (hlen : doeLength bytes ≤ bytes.length)
    (hfit : bytes.length ≤ 16384) : exec (.spdmRequest bytes) s = .next (s.takeObject bytes) := by
  rw [exec_spdmRequest_write hup hstage hmgmt hfree, State.doeWrite, hpart, List.nil_append]
  have hfits : ¬(16384 < bytes.length ∨ 8 ≤ bytes.length ∧ 16384 < doeLength bytes) := by omega
  have hwhole : ¬(bytes.length < 8 ∨ bytes.length < doeLength bytes) := by omega
  rw [if_neg hfits, if_neg hwhole, ← hpart]

end

section
variable {s : State} {o : List Byte}

theorem State.takeObject_spdm (hvendor : field o 0 2 = 1) (htype : field o 2 1 = 1) : s.takeObject o = s.answerSpdm o := by
  simp only [State.takeObject, if_neg (not_not.mpr hvendor), htype]

theorem State.takeObject_discovery (hvendor : field o 0 2 = 1) (htype : field o 2 1 = 0) :
    s.takeObject o = s.doeAnswer (discovery o) := by
  simp only [State.takeObject, if_neg (not_not.mpr hvendor), htype]

theorem State.takeObject_other (h : field o 0 2 ≠ 1 ∨ 1 < field o 2 1) : s.takeObject o = s := by
  rw [State.takeObject]
  split
  case isTrue => rfl
  case isFalse hvendor =>
    split
    · omega
    · omega
    · rfl

theorem State.answerSpdm_now (h : needsNonce o = false ∨ spdmSupported o = false ∨ spdmSlot o ≠ 0) :
    s.answerSpdm o = s.doeAnswer (doeWrap (s.boot.spdmReply o 0)) := by
  rw [State.answerSpdm, if_neg]
  rcases h with h | h | h
  all_goals simp [h]

theorem State.answerSpdm_nonce (hneeds : needsNonce o = true) (hsup : spdmSupported o = true) (hslot : spdmSlot o = 0) :
    s.answerSpdm o = if s.rng.entOk then
      ({ s with rng := { s.rng with drawn := s.rng.drawn + 1 } } : State).doeAnswer
        (doeWrap (s.boot.spdmReply o (Config.seed s.rng.drawn)))
    else { s with pci := { s.pci with spdmWait := some o } } := by
  rw [State.answerSpdm, if_pos (by simp [hneeds, hsup, hslot])]
  rfl

end

theorem hostFunction : Claim.HostFunction := by
  intro s
  refine ⟨fun hon hready => ?_, fun d3 bm hup hquiet => ?_, fun v hv hpending hissue => ?_, rfl,
    fun bytes h => exec_spdmRequest_ignored h bytes, fun bytes hup hstage hmgmt hpart hfree =>
    ⟨fun hshort => exec_spdmRequest_part hup hstage hmgmt hfree hpart hshort, fun h8 hlen hfit => ?_⟩⟩
  · show execPcieLinkUp s = _
    simp [execPcieLinkUp, hon, hready]
  · refine ⟨_, exec_functionStateChange_quiet hup hquiet, ?_, s.setD3hot_entries d3, s.setD3hot_wakes d3⟩
    rw [State.setD3hot_eq]
  · have hexec : exec (.msixUnmask v) s = .next (s.unmask v) := by
      show guarded _ _ = _
      simp [guarded, hv]
    refine ⟨s.unmask v, hexec, ?_⟩
    rw [State.unmask_sends hpending hissue]
    exact ⟨rfl, tget_tput_same _ _ _ _, rfl⟩
  · rw [exec_spdmRequest_whole hup hstage hmgmt hfree hpart h8 hlen hfit]
    refine ⟨fun hvendor htype => ?_, fun hvendor htype => ?_, fun hother => by rw [State.takeObject_other hother]⟩
    · rw [State.takeObject_spdm hvendor htype]
      refine ⟨fun hnow => ?_, fun hneeds hsup hslot => ?_⟩
      · rw [State.answerSpdm_now hnow]
        obtain ⟨hout, hdoe, hdp, hcnt, -⟩ := s.doeAnswer_answers (doeWrap (s.boot.spdmReply bytes 0))
        exact ⟨_, rfl, hout, hdoe.trans hpart, hdp, hcnt⟩
      · rw [State.answerSpdm_nonce hneeds hsup hslot]
        refine ⟨fun hent => by rw [hent]; rfl, fun hent => ?_⟩
        obtain ⟨hout, -, hdp, hcnt, hrng⟩ := State.doeAnswer_answers { s with rng := { s.rng with drawn := s.rng.drawn + 1 } }
          (doeWrap (s.boot.spdmReply bytes (Config.seed s.rng.drawn)))
        exact ⟨_, congrArg Host.Outcome.next (if_pos hent), hout, congrArg Rng.drawn hrng, hdp, hcnt⟩
    · rw [State.takeObject_discovery hvendor htype]
      obtain ⟨hout, -, hdp, hcnt, -⟩ := s.doeAnswer_answers (discovery bytes)
      exact ⟨_, rfl, hout, hdp, hcnt⟩

/-- Settles O33: what each host event leaves, by the branch that its state takes. -/
theorem hostEventsHold : Obligations.HostEvents := ⟨hostResetClears, hostFunction⟩

end Sys2Proof.Machine
end

