-- ==== Sys2Proof/Proofs/WorkKeepsMemory.lean ====
section
/-!
PROOFS. Memory stays in its canonical form through the accesses of operations: lines, the work of each family, the checks of descriptors.
-/

namespace Sys2Proof.Machine

/-! ### Lines -/

section
variable {d : Data} (h : Memory.wf d.cells)
include h

theorem Data.store_wf (l : Nat) (bs : List Byte) : Memory.wf (d.store l bs).cells := Memory.wf_put _ _ _ h

theorem Data.storeLine_wf (l : Nat) (payload side : List Byte) (poison : Bool) : Memory.wf (d.storeLine l payload side poison).cells :=
  d.store_wf h _ _

end

@[simp] theorem Data.countStackCe_cells (d : Data) (l : Nat) : (d.countStackCe l).cells = d.cells := by
  unfold Data.countStackCe
  split <;> rfl

@[simp] theorem Data.settleCfg_cells (d : Data) : d.settleCfg.cells = d.cells := rfl

@[simp] theorem Data.nextTransfer_cells (d : Data) (l : Nat) : (d.nextTransfer l).2.cells = d.cells := by
  unfold Data.nextTransfer
  split <;> rfl

section
variable {d : Data} (h : Memory.wf d.cells)
include h

theorem Data.contain_wf (e : Env) (l : Nat) (raw : List Byte) (r : Decoded) : Memory.wf (d.contain e l raw r).2.cells := by
  cases r with
  | clean bs => exact h
  | corrected bs => simpa [Data.contain] using d.storeLine_wf h ..
  | poisoned => simpa [Data.contain] using h
  | poisonedCorrected bs => simpa [Data.contain] using d.storeLine_wf h ..
  | uncorrectable => simpa [Data.contain] using h

theorem Data.readLine_wf (e : Env) (l : Nat) : Memory.wf (d.readLine e l).2.cells := by
  unfold Data.readLine
  split
  · simpa using h
  · exact d.contain_wf h ..

theorem Data.readOver_wf (e : Env) (l : Nat) : Memory.wf (d.readOver e l).2.cells := by
  have hnext : Memory.wf ((d.nextTransfer l).2.bump Evt.linkRetry (min (d.nextTransfer l).1 8)).cells := by simpa using h
  simp only [Data.readOver]
  split
  · simpa using hnext
  · exact Data.readLine_wf hnext e l

theorem Data.writeLine_wf (e : Env) (w : Wr) : Memory.wf (d.writeLine e w).cells := by
  cases w with
  | whole l out poison =>
    simp only [Data.writeLine]
    split
    · exact h
    · exact d.storeLine_wf h ..
  | part l off bytes =>
    simp only [Data.writeLine]
    split
    · exact h
    · split
      · exact d.storeLine_wf h ..
      · exact Data.storeLine_wf (d.readLine_wf h e l) ..
  | count l off n =>
    simp only [Data.writeLine]
    split
    · exact h
    · exact Data.storeLine_wf (d.readLine_wf h e l) ..
  | scratch l =>
    simp only [Data.writeLine]
    split
    · exact h
    · exact d.storeLine_wf h ..

theorem Data.write_wf (e : Env) (w : Wr) : Memory.wf (d.write e w).cells := by
  unfold Data.write
  split
  · exact d.writeLine_wf h ..
  · exact d.writeLine_wf h ..

/-- Functions on the data plane that each keep memory canonical, one after the other. -/
theorem Data.foldl_wf {α : Type} {f : Data → α → Data} (hf : ∀ d x, Memory.wf d.cells → Memory.wf (f d x).cells) (l : List α) :
    Memory.wf (l.foldl f d).cells :=
  List.foldlRecOn (motive := fun d : Data => Memory.wf d.cells) l f h fun d hd x _ => hf d x hd

end

theorem Data.dieWrite_wf {d : Data} (h : Memory.wf d.cells) (e : Env) (x : Nat) (bs : List Byte) :
    Memory.wf (d.dieWrite e x bs).cells :=
  d.foldl_wf h (fun _ w hd => Data.write_wf hd e w) _

/-! ### Work -/

/-- Work that keeps memory canonical, whatever it comes to. -/
structure KeepsMemory {ε α : Type} (m : ExceptT ε (StateM Io) α) : Prop where
  wf : ∀ io : Io, Memory.wf io.d.cells → Memory.wf (m io).2.d.cells

namespace KeepsMemory

section
variable {ε α β : Type}

theorem pure (a : α) : KeepsMemory (Pure.pure a : ExceptT ε (StateM Io) α) := ⟨fun _ h => h⟩

theorem bind {m : ExceptT ε (StateM Io) α} {f : α → ExceptT ε (StateM Io) β} (hm : KeepsMemory m) (hf : ∀ a, KeepsMemory (f a)) :
    KeepsMemory (m >>= f) := by
  refine ⟨fun io h => ?_⟩
  have hfirst := hm.wf io h
  change Memory.wf (match m io with | (r, io₁) => ExceptT.bindCont f r io₁ : Except ε β × Io).2.d.cells
  generalize m io = answer at hfirst
  obtain ⟨r, io₁⟩ := answer
  cases r with
  | error e => exact hfirst
  | ok a => exact (hf a).wf io₁ hfirst

theorem ite {c : Prop} [Decidable c] {m m' : ExceptT ε (StateM Io) α} (h : KeepsMemory m) (h' : KeepsMemory m') :
    KeepsMemory (if c then m else m') := by
  split
  · exact h
  · exact h'

/-- A part that is done in one of two ways, and what follows it. -/
theorem iteBind {c : Prop} [Decidable c] {m m' : ExceptT ε (StateM Io) α} {f : α → ExceptT ε (StateM Io) β} (h : KeepsMemory m)
    (h' : KeepsMemory m') (hf : ∀ a, KeepsMemory (f a)) : KeepsMemory (if c then m >>= f else m' >>= f) :=
  .ite (.bind h hf) (.bind h' hf)

theorem mapM {f : α → ExceptT ε (StateM Io) β} (hf : ∀ a, KeepsMemory (f a)) (l : List α) : KeepsMemory (l.mapM f) := by
  induction l with
  | nil => exact .pure _
  | cons x l ih =>
    rw [List.mapM_cons]
    exact .bind (hf x) fun _ => .bind ih fun _ => .pure _

theorem forM {f : α → ExceptT ε (StateM Io) PUnit} (hf : ∀ a, KeepsMemory (f a)) (l : List α) : KeepsMemory (l.forM f) := by
  induction l with
  | nil => exact .pure _
  | cons x l ih => exact .bind (hf x) fun _ => ih

theorem foldlM {f : β → α → ExceptT ε (StateM Io) β} (hf : ∀ b a, KeepsMemory (f b a)) (l : List α) (b : β) :
    KeepsMemory (l.foldlM f b) := by
  induction l generalizing b with
  | nil => exact .pure _
  | cons x l ih =>
    rw [List.foldlM_cons]
    exact .bind (hf b x) fun _ => ih _

end

theorem ask {α : Type} (f : Data → α) : KeepsMemory (M.ask f) := ⟨fun _ h => h⟩

theorem upd {f : Data → Data} (hf : ∀ d, Memory.wf d.cells → Memory.wf (f d).cells) : KeepsMemory (M.upd f) :=
  ⟨fun io h => hf io.d h⟩

theorem updCells {f : Data → Data} (hf : ∀ d, (f d).cells = d.cells) : KeepsMemory (M.upd f) :=
  .upd fun d h => (hf d).symm ▸ h

/-- Events that some work counts. -/
theorem counts (l : List (Nat × Nat)) : KeepsMemory (M.upd fun d => l.foldl (fun d x => d.bump x.1 x.2) d) :=
  .updCells (Data.foldl_bump_cells l)

theorem block : KeepsMemory M.block := ⟨fun _ h => h⟩

theorem fault {α : Type} (k : XfKind) (va : Nat) : KeepsMemory (M.fault k va : M α) := ⟨fun _ h => h⟩

theorem attempt {α : Type} {m : M α} (h : KeepsMemory m) : KeepsMemory (M.attempt m) := ⟨h.wf⟩

theorem row (c : Bool) (code : Nat) : KeepsMemory (Chk.row c code) := by
  refine ⟨fun io h => ?_⟩
  unfold Chk.row
  split <;> exact h

/-- A row of a check table before other checks. -/
theorem check {α : Type} {c : Bool} {code : Nat} {m : Chk α} (h : KeepsMemory m) : KeepsMemory (Chk.row c code >>= fun _ => m) :=
  .bind (.row c code) fun _ => h

theorem wait (c : Bool) : KeepsMemory (Chk.block c) := by
  refine ⟨fun io h => ?_⟩
  unfold Chk.block
  split <;> exact h

theorem access {α : Type} {q : Nat} {m : M α} (hm : KeepsMemory m) : KeepsMemory (Chk.access q m) := by
  refine ⟨fun io h => ?_⟩
  have hanswer := hm.wf io h
  unfold Chk.access
  split
  case h_1 heq => rwa [heq] at hanswer
  case h_2 heq =>
    rw [heq] at hanswer
    simpa using hanswer

theorem try_ {α : Type} {m : Chk α} (h : KeepsMemory m) : KeepsMemory (Chk.attempt m) := ⟨h.wf⟩

theorem probe {α : Type} (m : M α) : KeepsMemory (Chk.probe m) := by
  refine ⟨fun io h => ?_⟩
  unfold Chk.probe
  split <;> exact h

/-- Work on an entry, whose own errors are answers of the work. -/
theorem bindEntry {α β : Type} {m : EntryM α} {f : α → EntryM β} (hm : KeepsMemory m.run) (hf : ∀ a, KeepsMemory (f a).run) :
    KeepsMemory (m >>= f).run :=
  .bind hm fun r => by
    cases r with
    | error x => exact .pure _
    | ok a => exact hf a

end KeepsMemory

/-! ### Accesses (08) -/

theorem domainGate_keeps (e : Env) (va l : Nat) : KeepsMemory (domainGate e va l) := by
  unfold domainGate
  split
  · exact .pure _
  · exact .block
  · exact .block
  · exact .fault ..
  · exact .fault ..

theorem leafByte_keeps (e : Env) (a : Acc) (write : Bool) (lvl pte va : Nat) : KeepsMemory (leafByte e a write lvl pte va) :=
  .ite (.fault ..) (.ite (.fault ..) (.ite (.fault ..) (.bind (domainGate_keeps ..) fun _ => .pure _)))

theorem walk_keeps (e : Env) (a : Acc) (write seq : Bool) (va lvl table : Nat) : KeepsMemory (walk e a write seq va lvl table) := by
  induction lvl generalizing table with
  | zero =>
    exact .bind (domainGate_keeps ..) fun _ => .bind ⟨fun io h => io.d.readOver_wf h e _⟩ fun _ =>
      .ite (.fault ..) (.ite (.fault ..) (.ite (.fault ..) (.ite (leafByte_keeps ..) (.fault ..))))
  | succ lvl ih =>
    exact .bind (domainGate_keeps ..) fun _ => .bind ⟨fun io h => io.d.readOver_wf h e _⟩ fun _ =>
      .ite (.fault ..) (.ite (.fault ..) (.ite (.fault ..) (.ite (leafByte_keeps ..) (ih _))))

theorem translate_keeps (e : Env) (a : Acc) (write : Bool) (va : Nat) : KeepsMemory (translate e a write va) := by
  unfold translate
  split
  · refine .bind (.ask _) fun _ => ?_
    split
    · exact .fault ..
    · exact walk_keeps ..
  · exact .fault ..
  · split
    · exact .fault ..
    · exact walk_keeps ..
  · split
    · exact .fault ..
    · exact .bind (domainGate_keeps ..) fun _ => .pure _

theorem markGate_keeps (slot : Option Nat) (l : Nat) : KeepsMemory (markGate slot l) :=
  .bind (.ask _) fun _ => by
    split
    · exact .pure _
    · exact .ite (.pure _) (.block)

theorem readPhys_keeps (e : Env) (a : Acc) (l : Nat) : KeepsMemory (readPhys e a l) :=
  .bind (markGate_keeps ..) fun _ => ⟨fun io h => io.d.readOver_wf h e l⟩

theorem readVirt_keeps (e : Env) (a : Acc) (va : Nat) : KeepsMemory (readVirt e a va) :=
  .bind (translate_keeps ..) fun _ => readPhys_keeps ..

theorem readLines_keeps (e : Env) (a : Acc) (va n : Nat) : KeepsMemory (readLines e a va n) := by
  induction n generalizing va with
  | zero => exact .pure _
  | succ n ih => exact .bind (readVirt_keeps ..) fun _ => .bind (ih _) fun _ => .pure _

theorem writeTargets_keeps (e : Env) (a : Acc) (va n : Nat) : KeepsMemory (writeTargets e a va n) := by
  induction n generalizing va with
  | zero => exact .pure _
  | succ n ih => exact .bind (translate_keeps ..) fun _ => .bind (ih _) fun _ => .pure _

theorem writeNow_keeps (e : Env) (w : Wr) : KeepsMemory (writeNow e w) :=
  .bind (markGate_keeps ..) fun _ => .upd fun d h => d.write_wf h e w

theorem writeAll_keeps (e : Env) (ws : List Wr) : KeepsMemory (writeAll e ws) := by
  induction ws with
  | nil => exact .pure _
  | cons w ws ih => exact .bind (writeNow_keeps ..) fun _ => ih

theorem writeBytes_keeps (e : Env) (a : Acc) (va fuel : Nat) (bs : List Byte) : KeepsMemory (writeBytes e a va fuel bs) := by
  induction fuel generalizing va bs with
  | zero => exact .pure _
  | succ fuel ih => exact .ite (.pure _) (.bind (translate_keeps ..) fun _ => .bind (ih ..) fun _ => .pure _)

theorem readBytes_keeps (e : Env) (a : Acc) (va n : Nat) : KeepsMemory (readBytes e a va n) := .bind (readLines_keeps ..) fun _ => .pure _

/-! ### Operands -/

theorem Chk.record_keeps (q : Nat) (e : Env) (a : Acc) (va n : Nat) : KeepsMemory (Chk.record q e a va n) :=
  .bind (.access (readBytes_keeps ..)) fun _ => .check <| .pure _

theorem serviceRow_keeps (e : Env) (offRow : Bool) : KeepsMemory (serviceRow e offRow) := .check <| .check <| .wait _

theorem putBytes_keeps (e : Env) (a : Acc) (va : Nat) (bs : List Byte) : KeepsMemory (putBytes e a va bs) := writeBytes_keeps ..

theorem putLines_keeps (e : Env) (a : Acc) (va : Nat) (ls : List LineOut) (poison : Bool) : KeepsMemory (putLines e a va ls poison) :=
  .bind (writeTargets_keeps ..) fun _ => .pure _

theorem readList_keeps (e : Env) (a : Acc) (addr : Nat) : KeepsMemory (readList e a addr) := .bind (readVirt_keeps ..) fun _ => .pure _

theorem readRow_keeps (e : Env) (a : Acc) (m : Mat) (row : Nat) (need : Nat → Bool) : KeepsMemory (readRow e a m row need) :=
  .mapM (fun _ => .ite (.bind (readVirt_keeps ..) fun _ => .pure _) (.pure _)) _

theorem readInto_keeps (e : Env) (a : Acc) (vas : List Nat) (t : Tab LineIn) : KeepsMemory (readInto e a vas t) := by
  induction vas generalizing t with
  | nil => exact .pure _
  | cons va rest ih => exact .ite (ih _) (.bind (readVirt_keeps ..) fun _ => ih _)

theorem readMatFrom_keeps (e : Env) (a : Acc) (m : Mat) (row0 : Nat) (need : Nat → Nat → Bool) :
    KeepsMemory (readMatFrom e a m row0 need) :=
  .iteBind (.pure _) (.bind (readList_keeps ..) fun _ => .pure _) fun _ => .bind (.mapM (fun _ => readRow_keeps ..) _) fun _ => by
    split
    · exact .bind (.pure _) fun _ => .pure _
    · exact .bind (readInto_keeps ..) fun _ => .pure _

theorem readMat_keeps (e : Env) (a : Acc) (m : Mat) (need : Nat → Nat → Bool) : KeepsMemory (readMat e a m need) := readMatFrom_keeps ..

theorem matEvents_keeps (e : Env) (a : Acc) (x : MatIn) : KeepsMemory (matEvents e a x) :=
  .ite (.pure _) (.ite (.pure _) (.bind (translate_keeps ..) fun _ => .pure _))

/-! ### RANDOM (05) -/

theorem checkRandom_keeps (s : State) (q : Nat) (e : Env) (a : Acc) (d : List Byte) : KeepsMemory (checkRandom s q e a d) :=
  .check <| .check <| .check <| .iteBind (Chk.record_keeps ..) (.pure _) fun _ => .check <| .check <|
    .ite (.bind (serviceRow_keeps ..) fun _ => .pure _) (.pure _)

theorem poisonZero_keeps (e : Env) (a : Acc) (addr n : Nat) : KeepsMemory (poisonZero e a addr n) :=
  .bind (.mapM (fun _ => .bind (.attempt (translate_keeps ..)) fun _ => by
    split
    · exact .pure _
    · exact .pure _) _) fun _ => .pure _

/-! ### CONVERT (04) -/

theorem ConvJob.predicted_keeps (e : Env) (a : Acc) (j : ConvJob) (draw row : Nat) : KeepsMemory (ConvJob.predicted e a j draw row) :=
  .ite (.pure _) (.bind (readLines_keeps ..) fun _ => .pure _)

theorem slotWrites_keeps (e : Env) (a : Acc) (j : ConvJob) (row : Nat) (entries : List (Option (Nat × Nat))) :
    KeepsMemory (slotWrites e a j row entries) :=
  .ite (.pure _) (putBytes_keeps ..)

theorem tapWrites_keeps (e : Env) (a : Acc) (j : ConvJob) (row : Nat) (xs : List FV) : KeepsMemory (tapWrites e a j row xs) :=
  .ite (.pure _) (putLines_keeps ..)

theorem rowWrites_keeps (e : Env) (a : Acc) (j : ConvJob) (row : Nat) (r : RowOut) : KeepsMemory (rowWrites e a j row r) :=
  .bind (putLines_keeps ..) fun _ => .bind (slotWrites_keeps ..) fun _ => .iteBind (.pure _) (putBytes_keeps ..) fun _ => .pure _

theorem convRow_keeps (e : Env) (a : Acc) (j : ConvJob) (rand : Nat → Option Nat) (draw row : Nat) (r : RowIn) :
    KeepsMemory (convRow e a j rand draw row r) := by
  cases r with
  | skip => exact .pure _
  | zero => exact .bind (rowWrites_keeps ..) fun ⟨_, _⟩ => .pure _
  | vals xs =>
    exact .bind (ConvJob.predicted_keeps ..) fun _ => .bind (rowWrites_keeps ..) fun ⟨_, _⟩ =>
      .bind (tapWrites_keeps ..) fun _ => .pure _

theorem headerWrites_keeps (e : Env) (a : Acc) (j : ConvJob) : KeepsMemory (headerWrites e a j) :=
  .ite (.pure _) (.bind (putBytes_keeps ..) fun _ => .bind (putBytes_keeps ..) fun _ => .pure _)

theorem countWrites_keeps (e : Env) (a : Acc) (record : Nat) (c : Counts) : KeepsMemory (countWrites e a record c) :=
  .bind (translate_keeps ..) fun _ => .bind (translate_keeps ..) fun _ => .pure _

theorem convRows_keeps (e : Env) (a : Acc) (j : ConvJob) (rand : Nat → Option Nat) (lock : Bool) (rows : List RowIn) :
    KeepsMemory (convRows e a j rand lock rows) :=
  .bind (.ask _) fun _ => .bind (.updCells fun _ => rfl) fun _ => .bind (.mapM (fun _ => convRow_keeps ..) _) fun _ =>
    .iteBind (.pure _) (headerWrites_keeps ..) fun _ => .bind (countWrites_keeps ..) fun _ => .pure _

theorem poisonRows_keeps (e : Env) (a : Acc) (f : Fmt) (dest pitch len : Nat) (rows : List Nat) :
    KeepsMemory (poisonRows e a f dest pitch len rows) :=
  .bind (.mapM (fun _ => .mapM (fun _ => .bind (.attempt (translate_keeps ..)) fun _ => by
    split
    · exact .pure _
    · exact .pure _) _) _) fun _ => .pure _

theorem lockChecks_keeps (q : Nat) (e : Env) (a : Acc) (d : List Byte) (handoff : Option (Nat × Nat)) :
    KeepsMemory (lockChecks q e a d handoff) :=
  .check <| .check <| .check <| .check <| .check <|
    .check <| .iteBind (.pure _) (.bind (Chk.record_keeps ..) fun _ => .pure _) fun hdr => by
    cases hdr with
    | none => exact .check <| .bind (Chk.record_keeps ..) fun _ => .pure _
    | some h =>
      exact .check <| .check <| .check <| .bind (Chk.record_keeps ..) fun _ => .pure _

theorem convertWork_keeps (e : Env) (a : Acc) (o : Op) : KeepsMemory (convertWork e a o) :=
  .bind (.attempt (.bind (readMat_keeps ..) fun _ => .bind (matEvents_keeps ..) fun ⟨_, _⟩ => .bind (convRows_keeps ..) fun ⟨_, _, _⟩ =>
    .pure _)) fun _ => by
    split
    · exact .pure _
    · exact .bind (poisonRows_keeps ..) fun _ => .pure _

theorem checkConvert_keeps (s : State) (q : Nat) (e : Env) (a : Acc) (d : List Byte) : KeepsMemory (checkConvert s q e a d) :=
  .bind (lockChecks_keeps ..) fun ⟨_, _⟩ => .check <| .bind (.wait _) fun _ => .pure _

/-! ### SWEEP (03) -/

theorem Chk.recordIf_keeps (q : Nat) (e : Env) (a : Acc) (cond : Bool) (va n : Nat) : KeepsMemory (Chk.recordIf q e a cond va n) :=
  .ite (Chk.record_keeps ..) (.pure _)

theorem checkInstance_keeps (s : State) (q : Nat) (e : Env) (a : Acc) (d x : List Byte) (hits i : Nat) :
    KeepsMemory (checkInstance s q e a d x hits i) :=
  .check <| .check <| .bind (.wait _) fun _ => .ite (.bind (Chk.record_keeps ..) fun _ => .bind (lockChecks_keeps ..) fun ⟨_, _⟩ =>
    .check <| .bind (.wait _) fun _ => .pure _) (.pure _)

theorem checkInstances_keeps (s : State) (q : Nat) (e : Env) (a : Acc) (d x : List Byte) (hits : Nat) (is : List Nat) :
    KeepsMemory (checkInstances s q e a d x hits is) := by
  induction is with
  | nil => exact .pure _
  | cons i is ih =>
    refine .bind (.try_ (checkInstance_keeps ..)) fun r => .bind ih fun ⟨_, _, _⟩ => ?_
    cases r with
    | error c => exact .pure _
    | ok r => exact .pure _

theorem checkSweep_keeps (s : State) (q : Nat) (e : Env) (a : Acc) (d : List Byte) : KeepsMemory (checkSweep s q e a d) :=
  .ite (.check <| .check <| .pure _) (.bind (Chk.recordIf_keeps ..) fun _ => .bind (Chk.recordIf_keeps ..) fun _ => .check <| .check <|
    .check <| .check <| .check <| .iteBind (.probe _) (.pure _) fun _ => .check <| .check <|
    .bind (checkInstances_keeps ..) fun ⟨_, _, _⟩ => .pure _)

theorem readMask_keeps (e : Env) (a : Acc) (j : SweepJob) : KeepsMemory (readMask e a j) :=
  .ite (.pure _) (.bind (readLines_keeps ..) fun _ => .pure _)

theorem maskOr_keeps (e : Env) (a : Acc) (j : SweepJob) : KeepsMemory (maskOr e a j) :=
  .bind (.attempt (readMask_keeps ..)) fun _ => by
    split
    · exact .pure _
    · exact .pure _

theorem readA_keeps (e : Env) (a : Acc) (j : SweepJob) (mask : List Bool) : KeepsMemory (readA e a j mask) :=
  .bind (readMat_keeps ..) fun _ => .pure _

theorem statWrites_keeps (e : Env) (a : Acc) (j : SweepJob) (acc : List (Option (List FV))) : KeepsMemory (statWrites e a j acc) :=
  .ite (.pure _) (.bind (.ite (.bind (readMat_keeps ..) fun _ => .pure _) (.pure _)) fun _ =>
    .bind (.ite (.bind (readMat_keeps ..) fun _ => .pure _) (.pure _)) fun _ => .bind (putLines_keeps ..) fun _ =>
    .bind (putLines_keeps ..) fun _ => .pure _)

theorem outputWrites_keeps (e : Env) (a : Acc) (o : Op) (j : SweepJob) (acc : List (Option (List FV))) :
    KeepsMemory (outputWrites e a o j acc) :=
  .ite (convRows_keeps ..) (.bind (.mapM (fun _ => by
    split
    · exact putLines_keeps ..
    · exact .ite (putLines_keeps ..) (.pure _)) _) fun _ => .pure _)

theorem sweepCompute_keeps (e : Env) (a : Acc) (o : Op) (j : SweepJob) (tile : Option Tile) : KeepsMemory (sweepCompute e a o j tile) := by
  unfold sweepCompute
  extract_lets d
  refine .bind (readMask_keeps ..) fun mask => .bind (readA_keeps ..) fun p => ?_
  split
  extract_lets live rest
  have hrest (p : List (List FV) × List (Nat × Nat) × List Wr) : KeepsMemory (rest p) :=
    .bind (matEvents_keeps ..) fun ⟨_, _⟩ => .iteBind (.bind (readMat_keeps ..) fun _ => .pure _) (.pure _) fun _ =>
      .ite
        (.bind (readMat_keeps ..) fun _ => .bind (readMat_keeps ..) fun _ => .bind (matEvents_keeps ..) fun ⟨_, _⟩ =>
          .bind (matEvents_keeps ..) fun ⟨_, _⟩ => .bind (.pure _) fun ⟨_, _, _⟩ => .bind (outputWrites_keeps ..) fun ⟨_, _, _⟩ =>
            .bind (statWrites_keeps ..) fun _ => .pure _)
        (.bind (.pure _) fun ⟨_, _, _⟩ => .bind (outputWrites_keeps ..) fun ⟨_, _, _⟩ => .bind (statWrites_keeps ..) fun _ => .pure _)
  split
  · exact .bind (.pure _) hrest
  · exact .bind (readMat_keeps ..) fun _ => .bind (matEvents_keeps ..) fun ⟨_, _⟩ => .bind (.pure _) hrest

theorem poisonWide_keeps (e : Env) (a : Acc) (f : Fmt) (addr n : Nat) : KeepsMemory (poisonWide e a f addr n) :=
  .bind (.mapM (fun _ => .bind (.attempt (translate_keeps ..)) fun _ => by
    split
    · exact .pure _
    · exact .pure _) _) fun _ => .pure _

theorem sweepPoison_keeps (e : Env) (a : Acc) (o : Op) (j : SweepJob) (code va : Nat) (xf : Option (XfKind × Nat)) :
    KeepsMemory (sweepPoison e a o j code va xf) :=
  .bind (maskOr_keeps ..) fun _ => .ite (.bind (poisonRows_keeps ..) fun _ => .ite (.bind (poisonWide_keeps ..) fun _ =>
    .bind (poisonWide_keeps ..) fun _ => .bind (.pure _) fun _ => .pure _) (.bind (.pure _) fun _ => .pure _)) (.bind (.mapM (fun _ =>
    poisonWide_keeps ..) _) fun _ => .bind (.pure _) fun _ => .ite (.bind (poisonWide_keeps ..) fun _ =>
    .bind (poisonWide_keeps ..) fun _ => .bind (.pure _) fun _ => .pure _) (.bind (.pure _) fun _ => .pure _))

theorem sweepWork_keeps (e : Env) (a : Acc) (o : Op) (j : SweepJob) (tile : Option Tile) : KeepsMemory (sweepWork e a o j tile) :=
  .bind (.attempt (sweepCompute_keeps ..)) fun _ => by
    split
    · exact .pure _
    · exact sweepPoison_keeps ..

/-! ### RUN (05) -/

theorem readProgram_keeps (q : Nat) (e : Env) (a : Acc) (va n : Nat) (acc : List Byte) : KeepsMemory (readProgram q e a va n acc) := by
  induction n generalizing acc with
  | zero => exact .pure _
  | succ n ih => exact .bind (Chk.record_keeps ..) fun _ => .ite (.pure _) (ih _)

theorem readTable_keeps (q : Nat) (e : Env) (a : Acc) (va : Nat) : KeepsMemory (readTable q e a va) :=
  .bind (.access (readLines_keeps ..)) fun _ => .pure _

theorem checkRun_keeps (s : State) (q : Nat) (e : Env) (a : Acc) (d : List Byte) : KeepsMemory (checkRun s q e a d) :=
  .bind (Chk.record_keeps ..) fun _ => .check <| .check <| .check <| .check <| .iteBind (.pure _) (readTable_keeps ..) fun _ => .check <|
    .bind (readProgram_keeps ..) fun _ => .check <| .check <| .check <| .check <| .check <| .bind (.wait _) fun _ => .check <| .pure _

theorem readInput_keeps (e : Env) (a : Acc) (o : Op) (i : Nat) : KeepsMemory (readInput e a o i) :=
  .ite (.pure _) (.bind (readMat_keeps ..) fun _ => .bind (matEvents_keeps ..) fun ⟨_, _⟩ => .pure _)

theorem outWrites_keeps (e : Env) (a : Acc) (o : Op) (k : Nat) (rows : List (Option (List FV))) : KeepsMemory (outWrites e a o k rows) :=
  .ite (.pure _) (.bind (.mapM (fun _ => putLines_keeps ..) _) fun _ => .pure _)

theorem runCompute_keeps (s : State) (e : Env) (a : Acc) (o : Op) : KeepsMemory (runCompute s e a o) :=
  .bind (readInput_keeps ..) fun ⟨_, _, _⟩ => .bind (readInput_keeps ..) fun ⟨_, _, _⟩ => .bind (readInput_keeps ..) fun ⟨_, _, _⟩ =>
    .iteBind (.pure _) (.bind (readMat_keeps ..) fun _ => .pure _) fun _ => .bind (outWrites_keeps ..) fun _ =>
    .bind (outWrites_keeps ..) fun _ => .iteBind (.pure _) (putLines_keeps ..) fun _ => .pure _

theorem runPoison_keeps (e : Env) (a : Acc) (o : Op) : KeepsMemory (runPoison e a o) :=
  .bind (.ite (.pure _) (poisonWide_keeps ..)) fun _ => .bind (.ite (.pure _) (poisonWide_keeps ..)) fun _ =>
    .iteBind (.pure _) (poisonWide_keeps ..) fun _ => .pure _

theorem runWork_keeps (s : State) (e : Env) (a : Acc) (o : Op) : KeepsMemory (runWork s e a o) :=
  .bind (.attempt (runCompute_keeps ..)) fun _ => by
    split
    · exact .pure _
    · exact .bind (runPoison_keeps ..) fun _ => .pure _

/-! ### The work of an instance -/

theorem releaseWork_keeps (s : State) (o : Op) : KeepsMemory (releaseWork s o) := .pure _

/-! ### Stow (06) -/

theorem laneByte_keeps (e : Env) (va : Nat) : KeepsMemory (laneByte e va) := by
  unfold laneByte
  split
  · exact .fault ..
  · exact .bind (domainGate_keeps ..) fun _ => .pure _

theorem laneRead_keeps (e : Env) (a : Acc) (va : Nat) : KeepsMemory (laneRead e a va) :=
  .bind (laneByte_keeps ..) fun _ => readPhys_keeps ..

theorem laneWrite_keeps (e : Env) (va : Nat) (l : LineIn) : KeepsMemory (laneWrite e va l) :=
  .bind (laneByte_keeps ..) fun _ => writeNow_keeps ..

theorem readFrame_keeps (e : Env) (a : Acc) (lane : Lane) (i : Nat) : KeepsMemory (readFrame e a lane i) :=
  .bind (laneRead_keeps ..) fun _ => .ite (.bind (.ask _) fun _ => .bind (.updCells fun _ => rfl) fun _ => .pure _) (.pure _)

theorem writeFrame_keeps (e : Env) (lane : Lane) (i : Nat) (f : Frame) : KeepsMemory (writeFrame e lane i f) :=
  .bind (laneByte_keeps ..) fun _ => writeNow_keeps ..

theorem checkStow_keeps (s : State) (e : Env) (d : List Byte) : KeepsMemory (checkStow s e d) :=
  .check <| .check <| .check <| .check <| .check <| .check <| .bind (.wait _) fun _ => .pure _

theorem copyLine_keeps (e : Env) (a : Acc) (va : Nat) : KeepsMemory (copyLine e a va) :=
  .bind (.attempt (readVirt_keeps ..)) fun _ => by
    split
    · exact .pure _
    · exact .pure _

theorem copyIn_keeps (e : Env) (a : Acc) (src dst n : Nat) (f : Option (XfKind × Nat)) : KeepsMemory (copyIn e a src dst n f) := by
  induction n generalizing src dst f with
  | zero => exact .pure _
  | succ n ih => exact .bind (copyLine_keeps ..) fun ⟨_, _⟩ => .bind (.attempt (laneWrite_keeps ..)) fun _ => ih ..

theorem listLines_keeps (e : Env) (a : Acc) (va : Nat) : KeepsMemory (listLines e a va) :=
  .ite (.pure _) (.bind (copyLine_keeps ..) fun ⟨_, _⟩ => .ite (.pure _) (.pure _))

theorem pushWork_keeps (e : Env) (a : Acc) (d : List Byte) (lane : Lane) : KeepsMemory (pushWork e a d lane) :=
  .bind (listLines_keeps ..) fun ⟨_, _⟩ => .ite (.bind (.pure _) fun _ => .bind (writeFrame_keeps ..) fun _ =>
    .pure _) (.bind (copyIn_keeps ..) fun _ => .bind (copyIn_keeps ..) fun _ => .bind (writeFrame_keeps ..) fun _ => .pure _)

theorem poisonDest_keeps (e : Env) (xs : List Nat) : KeepsMemory (poisonDest e xs) := writeAll_keeps ..

theorem copyOut_keeps (e : Env) (a : Acc) (src : Nat) (xs : List Nat) : KeepsMemory (copyOut e a src xs) := by
  induction xs generalizing src with
  | nil => exact .pure _
  | cons x xs ih => exact .bind (laneRead_keeps ..) fun _ => .bind (writeNow_keeps ..) fun _ => ih _

theorem popLines_keeps (e : Env) (a : Acc) (d : List Byte) (lane : Lane) (f : Option Frame) (out : PopOut) :
    KeepsMemory (popLines e a d lane f out) :=
  .bind (writeTargets_keeps ..) fun _ => .iteBind (.pure _) (writeTargets_keeps ..) fun _ =>
    .iteBind (.pure _) (putBytes_keeps ..) fun _ => by
    split
    · exact .bind (copyOut_keeps ..) fun _ => .ite (.bind (copyOut_keeps ..) fun _ => writeAll_keeps ..) (writeAll_keeps ..)
    · exact .bind (poisonDest_keeps ..) fun _ => writeAll_keeps ..
    · exact writeAll_keeps ..

theorem findFrame_keeps (e : Env) (a : Acc) (d : List Byte) (lane : Lane) (n : Nat) : KeepsMemory (findFrame e a d lane n) := by
  induction n with
  | zero => exact .pure _
  | succ n ih => exact .bind (readFrame_keeps ..) fun _ => .ite (.pure _) ih

theorem popWork_keeps (e : Env) (a : Acc) (d : List Byte) (lane : Lane) : KeepsMemory (popWork e a d lane) :=
  .iteBind (.pure _) (.bind (readFrame_keeps ..) fun _ => .pure _) fun _ => .bind (popLines_keeps ..) fun _ => .pure _

theorem peekWork_keeps (e : Env) (a : Acc) (d : List Byte) (lane : Lane) : KeepsMemory (peekWork e a d lane) :=
  .bind (findFrame_keeps ..) fun _ => .bind (popLines_keeps ..) fun _ => .pure _

theorem gateWork_keeps (e : Env) (a : Acc) (d : List Byte) : KeepsMemory (gateWork e a d) :=
  .bind (readBytes_keeps ..) fun ⟨_, _⟩ => .pure _

/-! ### Landing and export (07) -/

theorem checkLand_keeps (s : State) (q : Nat) (e : Env) (a : Acc) (d : List Byte) : KeepsMemory (checkLand s q e a d) :=
  .bind (Chk.record_keeps ..) fun _ => .check <| .check <| .check <|
    .iteBind (.pure _) (Chk.record_keeps ..) fun _ => .check <| .check <| .bind (.probe _) fun x => by
    cases x with
    | none => exact .iteBind (Chk.record_keeps ..) (.pure _) fun _ => .pure _
    | some x =>
      exact .check <| .bind (.wait _) fun _ => .iteBind (Chk.record_keeps ..) (.pure _) fun _ => .pure _

theorem checkExport_keeps (q : Nat) (e : Env) (a : Acc) (d : List Byte) : KeepsMemory (checkExport q e a d) :=
  .bind (Chk.record_keeps ..) fun _ => .check <| .check <| .check <| .check <| .pure _

theorem checkLanding_keeps (s : State) (q : Nat) (e : Env) (a : Acc) (d : List Byte) : KeepsMemory (checkLanding s q e a d) :=
  .ite (checkLand_keeps ..) (.ite (checkExport_keeps ..) (.check <| .pure _))

theorem landWork_keeps (e : Env) (a : Acc) (o : Op) (data : List Byte) : KeepsMemory (landWork e a o data) :=
  .ite (.bind (convRows_keeps ..) fun ⟨_, _, _⟩ => .bind (writeAll_keeps ..) fun _ => .bind (.counts _) fun _ =>
    .pure _) (.bind (.mapM (fun _ => putLines_keeps ..) _) fun _ => .bind (writeAll_keeps ..) fun _ => .pure _)

theorem landPoison_keeps (e : Env) (a : Acc) (o : Op) : KeepsMemory (landPoison e a o) :=
  .iteBind (poisonRows_keeps ..) (poisonWide_keeps ..) fun _ => writeAll_keeps ..

theorem exportLines_keeps (e : Env) (a : Acc) (f : LineIn → List Byte) (va n : Nat) : KeepsMemory (exportLines e a f va n) := by
  induction n generalizing va with
  | zero => exact .pure _
  | succ n ih =>
    refine .bind (.attempt (readVirt_keeps ..)) fun _ => ?_
    split
    · exact .pure _
    · exact .bind (ih _) fun _ => .pure _

theorem exportSections_keeps (e : Env) (a : Acc) (o : Op) : KeepsMemory (exportSections e a o) :=
  .bind (.ask _) fun _ => .bind (.updCells fun _ => rfl) fun _ => .bind (exportLines_keeps ..) fun _ =>
    .iteBind (.pure _) (exportLines_keeps ..) fun _ => .iteBind (.pure _) (exportLines_keeps ..) fun _ =>
    .iteBind (.pure _) (exportLines_keeps ..) fun _ => .iteBind (.pure _) (exportLines_keeps ..) fun _ => .pure _

/-! ### STORE_PTE and the translation checks (08) -/

theorem checkTranslation_keeps (d : List Byte) : KeepsMemory (checkTranslation d) := .check <| .check <| .check <| .check <| .pure _

theorem storePteWork_keeps (e : Env) (a : Acc) (d : List Byte) : KeepsMemory (storePteWork e a d) :=
  .bind (translate_keeps ..) fun _ => .iteBind (.pure _) (translate_keeps ..) fun _ => .bind (readPhys_keeps ..) fun _ =>
    .ite (.bind (writeNow_keeps ..) fun _ => .ite (.pure _) (writeNow_keeps ..)) (.ite (.pure _) (writeNow_keeps ..))

/-! ### Images (05, 11) -/

theorem openRead_keeps (e : Env) (a : Acc) (va n : Nat) : KeepsMemory (openRead e a va n) := by
  induction n generalizing va with
  | zero => exact .pure _
  | succ n ih =>
    refine .bind (readVirt_keeps ..) fun _ => .bind (.ask _) fun _ => .bind (.updCells fun d => ?_) fun _ => .bind (ih _) fun _ => .pure _
    split
    · rfl
    · rfl

/-! ### Sequences (09) -/

theorem checkSeq_keeps (s : State) (e : Env) (d : List Byte) : KeepsMemory (checkSeq s e d) :=
  .check <| .check <| .check <| .check <| .check <| .check <| .check <| .check <| .check <| .bind (.wait _) fun _ => .pure _

theorem appendRead_keeps (e : Env) (a : Acc) (d : List Byte) (y : Layout) : KeepsMemory (appendRead e a d y) :=
  .bind (readMat_keeps ..) fun _ => .iteBind (.pure _) (.bind (readMat_keeps ..) fun _ => .pure _) fun _ =>
    .iteBind (.pure _) (openRead_keeps ..) fun _ => .pure _

/-! ### ATTEND (09) -/

theorem own_keeps {α : Type} {m : M α} (h : KeepsMemory m) : KeepsMemory (own m).run :=
  .bind (.attempt h) fun _ => by
    split
    · exact .pure _
    · exact .pure _

theorem rowsOf_keeps (e : Env) (a : Acc) (x : Mat) : KeepsMemory (rowsOf e a x) :=
  .bind (readMat_keeps ..) fun _ => .bind (matEvents_keeps ..) fun ⟨_, _⟩ => .bind (.counts _) fun _ =>
    .bind (writeAll_keeps ..) fun _ => .pure _

theorem pageRows_keeps (e : Env) (acc : Acc) (a : Attn) (va : Nat) (up : List (List FV) × List (List FV)) :
    KeepsMemory (pageRows e acc a va up) :=
  .ite (.bind (rowsOf_keeps ..) fun _ => .pure _) (.bind (.mapM (fun _ => rowsOf_keeps ..) _) fun _ => .bind (.mapM (fun _ =>
    rowsOf_keeps ..) _) fun _ => .pure _)

theorem readUp_keeps (e : Env) (acc : Acc) (y : Layout) : KeepsMemory (readUp e acc y) :=
  .ite (.bind (rowsOf_keeps ..) fun _ => .bind (rowsOf_keeps ..) fun _ => .pure _) (.pure _)

theorem readPages_keeps (s : State) (e : Env) (acc : Acc) (id : Nat) (c : Ctx) (a : Attn) (up : List (List FV) × List (List FV))
    (js : List Nat) : KeepsMemory (readPages s e acc id c a up js).run := by
  induction js with
  | nil => exact .pure _
  | cons j js ih =>
    refine .ite ih (.bindEntry (.bind (.attempt (translate_keeps ..)) fun _ => .pure _) fun r => ?_)
    cases r with
    | error f => exact .ite ih (.pure _)
    | ok x =>
      refine .bindEntry (.bind (.attempt (pageRows_keeps ..)) fun r => ?_) fun ⟨_, _, _⟩ => .bindEntry ih fun ⟨_, _⟩ => .pure _
      cases r with
      | error f => exact .pure _
      | ok rows => exact .pure _

theorem putRows_keeps (e : Env) (acc : Acc) (va : Nat) (f : Fmt) (sat : Bool) (len : Nat) (rows : List (List FV)) :
    KeepsMemory (putRows e acc va f sat len rows) :=
  .bind (.mapM (fun _ => putLines_keeps ..) _) fun _ => .pure _

theorem entryPoison_keeps (e : Env) (acc : Acc) (d b : List Byte) (a : Attn) : KeepsMemory (entryPoison e acc d b a) :=
  .ite (.bind (poisonWide_keeps ..) fun _ => .bind (poisonWide_keeps ..) fun _ => .bind (poisonWide_keeps ..) fun _ =>
    .bind (.pure _) fun _ => writeAll_keeps ..) (.bind (poisonWide_keeps ..) fun _ => .iteBind (.pure _) (poisonWide_keeps ..) fun _ =>
    .bind (.pure _) fun _ => writeAll_keeps ..)

theorem countArith_keeps (bass : Bool) (ev : ArithEv) : KeepsMemory (countArith bass ev) := .counts _

theorem writeScores_keeps (s : State) (e : Env) (c : Ctx) (a : Attn) (qs : List (List FV)) (lse : List FV) (ps : List KvPage) :
    KeepsMemory (writeScores s e c a qs lse ps) := by
  refine .forM (fun p => ?_) ps
  split
  · exact .pure _
  · refine .forM (fun ct => ?_) _
    split
    · exact .pure _
    · exact .upd fun d h => d.dieWrite_wf h ..

theorem attendEntry_keeps (s : State) (e : Env) (acc : Acc) (d b : List Byte) (c : Ctx) (a : Attn) :
    KeepsMemory (attendEntry s e acc d b c a).run :=
  .bindEntry (own_keeps (rowsOf_keeps ..)) fun _ => .bindEntry (own_keeps (readUp_keeps ..)) fun _ =>
    .bindEntry (readPages_keeps ..) fun ⟨_, _⟩ => .bindEntry (own_keeps (.bind (putRows_keeps ..) fun _ =>
      .iteBind (.pure _) (putRows_keeps ..) fun _ => .bind (writeAll_keeps ..) fun _ => .bind (countArith_keeps ..) fun _ =>
        .ite (writeScores_keeps ..) (.pure _))) fun _ => .pure _

theorem gradEntry_keeps (s : State) (e : Env) (acc : Acc) (d b : List Byte) (c : Ctx) (a : Attn) :
    KeepsMemory (gradEntry s e acc d b c a).run :=
  .bindEntry (own_keeps (rowsOf_keeps ..)) fun _ => .bindEntry (own_keeps (rowsOf_keeps ..)) fun _ =>
    .bindEntry (own_keeps (rowsOf_keeps ..)) fun _ => .bindEntry (own_keeps (rowsOf_keeps ..)) fun _ =>
      .bindEntry (own_keeps (readUp_keeps ..)) fun _ => .bindEntry (readPages_keeps ..) fun ⟨_, _⟩ =>
        .bindEntry (own_keeps (.bind (putRows_keeps ..) fun _ => .bind (putRows_keeps ..) fun _ => .bind (putRows_keeps ..) fun _ =>
          .bind (writeAll_keeps ..) fun _ => countArith_keeps ..)) fun _ => .pure _

theorem endEntry_keeps (q : Nat) (e : Env) (b : List Byte) (target : Option Nat) (r : Except EntryBad Nat) :
    KeepsMemory (endEntry q e b target r) := by
  have hcount : KeepsMemory (M.upd fun d => d.bump Evt.seqStatus 1) := .updCells fun d => d.bump_cells _ _
  unfold endEntry
  extract_lets word ok answer count write
  have hcounted (u : Unit) : KeepsMemory (count u) := .ite (.pure _) (.bind hcount fun _ => .pure _)
  have hwritten (u : Unit) : KeepsMemory (write u) := by
    cases target with
    | none => exact hcounted ()
    | some x => exact .bind (writeNow_keeps ..) hcounted
  split
  · exact .bind (.updCells fun d => d.xlateFault_cells q _) hwritten
  · exact hwritten ()

theorem workEntry_keeps (s : State) (q : Nat) (e : Env) (acc : Acc) (d b : List Byte) (c : Ctx) (y : Layout) (target : Option Nat)
    (late : Option (XfKind × Nat)) (struck : Bool) : KeepsMemory (workEntry s q e acc d b c y target late struck) := by
  unfold workEntry
  extract_lets a done m
  have hdone (r : Except EntryBad Nat) : KeepsMemory (done r) := by
    cases r with
    | error x => exact .bind (entryPoison_keeps ..) fun _ => endEntry_keeps ..
    | ok n => exact .ite (.bind (entryPoison_keeps ..) fun _ => endEntry_keeps ..) (endEntry_keeps ..)
  have hwork : KeepsMemory (if struck then m.dry else m).run :=
    .ite ⟨fun _ h => h⟩ (.ite (gradEntry_keeps ..) (attendEntry_keeps ..))
  refine .ite (.bind (.pure _) hdone) ?_
  cases late with
  | some f => exact .bind (.pure _) hdone
  | none => exact .ite (.bind (.pure _) hdone) (.bind hwork hdone)

theorem runEntry_keeps (s : State) (o : Op) (e : Env) (acc : Acc) (i : Nat) (b : List Byte) (poison : Bool) :
    KeepsMemory (runEntry s o e acc i b poison) := by
  refine .iteBind (.attempt (translate_keeps ..)) (.pure _) fun _ => .ite (endEntry_keeps ..) ?_
  dsimp only
  split
  · exact endEntry_keeps ..
  · split
    · exact endEntry_keeps ..
    · exact workEntry_keeps ..

theorem runBatch_keeps (s : State) (o : Op) (e : Env) (acc : Acc) (n : Nat) (done : List EntryEnd) :
    KeepsMemory (runBatch s o e acc n done) := by
  induction n generalizing done with
  | zero => exact .pure _
  | succ n ih =>
    refine .bind (.attempt (readLines_keeps ..)) fun _ => ?_
    split
    · exact .pure _
    · exact .bind (runEntry_keeps ..) fun _ => ih _

theorem overwriteRegion_keeps (s : State) (e : Env) (bass : Bool) : KeepsMemory (overwriteRegion s e bass) :=
  .forM (fun _ => .forM (fun _ => writeNow_keeps ..) _) _

/-! ### Collectives (10) -/

theorem M.both_keeps {x y : M Unit} (hx : KeepsMemory x) (hy : KeepsMemory y) : KeepsMemory (M.both x y) :=
  .bind (.attempt hx) fun _ => .bind (.attempt hy) fun _ => by
    split
    · exact .fault ..
    · exact .fault ..
    · exact .pure _

theorem putReceived_keeps (e : Env) (a : Acc) (va : Nat) (ls : List (LineOut × Bool)) : KeepsMemory (putReceived e a va ls) :=
  .bind (writeTargets_keeps ..) fun _ => writeAll_keeps ..

theorem groupPut_keeps (s : State) (g off : Nat) (bs : List Byte) : KeepsMemory (groupPut s g off bs) :=
  .bind (putBytes_keeps ..) fun _ => writeAll_keeps ..

theorem checkGroup_keeps (s : State) (q : Nat) (e : Env) (a : Acc) (d : List Byte) : KeepsMemory (checkGroup s q e a d) :=
  .check <| .ite (.pure _) (Chk.record_keeps ..)

theorem reduceGroups_keeps (q : Nat) (e : Env) (a : Acc) (r : List Byte) : KeepsMemory (reduceGroups q e a r) :=
  .ite (.pure _) (.bind (Chk.record_keeps ..) fun _ => .pure _)

theorem ferryPer_keeps (s : State) (e : Env) (a : Acc) (r : List Byte) : KeepsMemory (ferryPer s e a r) :=
  .bind (.probe _) fun _ => by
    split
    · exact .pure _
    · split
      · exact .pure _
      · exact .pure _

theorem checkHawser_keeps (s : State) (q : Nat) (e : Env) (a : Acc) (d : List Byte) : KeepsMemory (checkHawser s q e a d) :=
  .bind (.wait _) fun _ => .iteBind (Chk.record_keeps ..) (.pure _) fun _ => .check <| .check <| .check <|
    .iteBind (.pure _) (checkGroup_keeps ..) fun _ => .check <| .check <| .iteBind (reduceGroups_keeps ..) (.pure _) fun _ =>
    .iteBind (ferryPer_keeps ..) (.pure _) fun _ => .check <| .check <| .check <| .check <| .check <|
    .bind (serviceRow_keeps ..) fun _ => .pure _

theorem shardList_keeps (e : Env) (a : Acc) (r : List Byte) (gr lo hi : Nat) : KeepsMemory (shardList e a r gr lo hi) :=
  .ite (.pure _) (.bind (readVirt_keeps ..) fun _ => .bind (readLines_keeps ..) fun _ => .pure _)

theorem contribution_keeps (e : Env) (a : Acc) (r : List Byte) (gr n k : Nat) : KeepsMemory (contribution e a r gr n k) := by
  unfold contribution
  split
  · exact .bind (readLines_keeps ..) fun _ => .bind (shardList_keeps ..) fun _ => .pure _

theorem statistics_keeps (e : Env) (a : Acc) (r : List Byte) (gr n : Nat) : KeepsMemory (statistics e a r gr n) :=
  .bind (readLines_keeps ..) fun _ => .bind (readLines_keeps ..) fun _ => .pure _

theorem putSlot_keeps (e : Env) (a : Acc) (base : Nat) (y : SlotLayout) (at_ : Nat) (ls : List (LineOut × Bool)) :
    KeepsMemory (putSlot e a base y at_ ls) :=
  .bind (writeTargets_keeps ..) fun _ => writeAll_keeps ..

theorem putPieces_keeps (e : Env) (a : Acc) (base : Nat) (y : SlotLayout) (ps : List (Nat × List LineIn)) :
    KeepsMemory (putPieces e a base y ps) :=
  .forM (fun _ => putSlot_keeps ..) _

theorem reduceReads_keeps (e : Env) (a : Acc) (r : List Byte) (gr : Nat) (active : List Nat) :
    KeepsMemory (reduceReads e a r gr active) :=
  .bind (.mapM (fun _ => .bind (contribution_keeps ..) fun _ => .pure _) _) fun _ => .bind (statistics_keeps ..) fun _ => .pure _

theorem readValue_keeps (e : Env) (a : Acc) (c : CollStep) (members : Nat) (rank place : Nat) :
    KeepsMemory (readValue e a c members rank place) := by
  refine .bind (readMatFrom_keeps ..) fun _ => .bind (.attempt (matEvents_keeps ..)) fun r => ?_
  cases r with
  | error f =>
    exact .bind (.bind (readMat_keeps ..) fun _ => .pure _) fun _ => .bind (.bind (readMat_keeps ..) fun _ => .pure _) fun _ => .pure _
  | ok r =>
    exact .bind (.counts _) fun _ => .bind (writeAll_keeps ..) fun _ => .bind (.bind (readMat_keeps ..) fun _ => .pure _) fun _ =>
      .bind (.bind (readMat_keeps ..) fun _ => .pure _) fun _ => .pure _

theorem putResults_keeps (e : Env) (a : Acc) (c : CollStep) (place : Nat) (v : Option Value) :
    KeepsMemory (putResults e a c place v) := by
  cases v with
  | none =>
    exact .bind (poisonWide_keeps ..) fun _ => .bind (poisonWide_keeps ..) fun _ => .bind (poisonWide_keeps ..) fun _ =>
      .bind (.pure _) fun _ => writeAll_keeps ..
  | some v =>
    exact .bind (putRows_keeps ..) fun _ => .bind (putRows_keeps ..) fun _ => .bind (putRows_keeps ..) fun _ =>
      .bind (.pure _) fun _ => writeAll_keeps ..

theorem poisonResults_keeps (s : State) (o : Op) (c : CollStep) (own : Nat) : KeepsMemory (poisonResults s o c own) := putResults_keeps ..

theorem readSum_keeps (e : Env) (a : Acc) (g : Group) (c : CollStep) (members place : Nat) (k : Close) :
    KeepsMemory (readSum e a g c members place k) :=
  .bind (.mapM (fun _ => readValue_keeps ..) _) fun _ => by
    split
    · exact .bind (.pure _) fun _ => .pure _
    · exact .bind (.mapM (fun _ => readValue_keeps ..) _) fun _ => .pure _

theorem closeWork_keeps (s : State) (o : Op) (g : Nat) (r : List Byte) (c : CollStep) (k : Close) (dropped : Nat) :
    KeepsMemory (closeWork s o g r c k dropped) :=
  .ite (poisonResults_keeps ..) (.bind (readSum_keeps ..) fun _ => .bind (putResults_keeps ..) fun _ =>
    .bind (putBytes_keeps ..) fun _ => writeAll_keeps ..)

theorem closeRecord_keeps (s : State) (g : Nat) (r : List Byte) (k : Close) : KeepsMemory (closeRecord s g r k) :=
  M.both_keeps (groupPut_keeps ..) (.ite (groupPut_keeps ..) (.pure _))

theorem packPage_keeps (s : State) (e : Env) (a : Acc) (id : Nat) (c : Ctx) (buf j : Nat) : KeepsMemory (packPage s e a id c buf j) :=
  .bind (writeTargets_keeps ..) fun _ => .ite (.bind (writeAll_keeps ..) fun _ => .pure _) (.bind (translate_keeps ..) fun _ =>
    .bind (readLines_keeps ..) fun _ => .bind (writeAll_keeps ..) fun _ => .pure _)

theorem packBlock_keeps (s : State) (e : Env) (a : Acc) (d : List Byte) (id own : Nat) (local_ : Option (Ctx × Layout)) :
    KeepsMemory (packBlock s e a d id own local_) := by
  unfold packBlock
  split
  · exact .bind (.bind (putBytes_keeps ..) fun _ => writeAll_keeps ..) fun _ => .pure _
  · exact .ite (.bind (.bind (putBytes_keeps ..) fun _ => writeAll_keeps ..) fun _ => .pure _) (.bind (.bind (putBytes_keeps ..) fun _ =>
      writeAll_keeps ..) fun _ => .bind (.mapM (fun _ => packPage_keeps ..) _) fun _ =>
      .ite (.pure _) (.bind (.bind (putBytes_keeps ..) fun _ => writeAll_keeps ..) fun _ => .pure _))

theorem blockPages_keeps (e : Env) (a : Acc) (at_ : Attn) (buf : Nat) (b : Block) : KeepsMemory (blockPages e a at_ buf b) := by
  refine .bind (readBytes_keeps ..) fun ⟨_, _⟩ => .bind (readUp_keeps ..) fun _ => .bind (.ask _) fun _ =>
    .bind (.updCells fun _ => rfl) fun _ => .bind (.mapM (fun _ => ?_) _) fun _ => .pure _
  exact .ite (.pure _) (.bind (pageRows_keeps ..) fun ⟨_, _, _⟩ => .pure _)

theorem ferryRound_keeps (s : State) (e : Env) (a : Acc) (o : Op) (b : List Byte) (buf : Nat) (state : List (Word × List Word)) :
    KeepsMemory (ferryRound s e a o b buf state) := by
  refine .bind (readVirt_keeps ..) fun _ => ?_
  dsimp only
  split
  · exact .pure _
  · exact .pure _
  · exact .bind (rowsOf_keeps ..) fun _ => .bind (blockPages_keeps ..) fun ⟨_, _⟩ => .bind (countArith_keeps ..) fun _ =>
      .bind (putRows_keeps ..) fun _ => .bind (writeAll_keeps ..) fun _ => .pure _

theorem ferryPoison_keeps (s : State) (o : Op) : KeepsMemory (ferryPoison s o) :=
  .ite (.pure _) (by
    split
    · exact .pure _
    · exact entryPoison_keeps ..)

theorem ferryEndWork_keeps (s : State) (o : Op) (f : Ferry) : KeepsMemory (ferryEndWork s o f) := by
  unfold ferryEndWork
  split
  · exact .bind (ferryPoison_keeps ..) fun _ => .bind (.ite (.pure _) (.bind (putBytes_keeps ..) fun _ => writeAll_keeps ..)) fun _ =>
      groupPut_keeps ..
  · exact .bind (putRows_keeps ..) fun _ => .iteBind (.pure _) (putRows_keeps ..) fun _ => .bind (writeAll_keeps ..) fun _ =>
      .bind (.ite (.pure _) (.bind (putBytes_keeps ..) fun _ => writeAll_keeps ..)) fun _ => groupPut_keeps ..

/-! ### SAMPLE and CHECK (04) -/

theorem checkSample_keeps (s : State) (e : Env) (d : List Byte) : KeepsMemory (checkSample s e d) :=
  .check <| .check <| .check <| .check <| .bind (serviceRow_keeps ..) fun _ => .pure _

theorem checkTuner_keeps (s : State) (e : Env) (d : List Byte) : KeepsMemory (checkTuner s e d) :=
  .ite (checkSample_keeps ..) (.check <| .pure _)

theorem sampleWork_keeps (e : Env) (a : Acc) (o : Op) : KeepsMemory (sampleWork e a o) :=
  .ite (.pure _) (.bind (readMat_keeps ..) fun _ => .bind (readMat_keeps ..) fun _ => .bind (readMat_keeps ..) fun _ =>
    .bind (matEvents_keeps ..) fun ⟨_, _⟩ => .bind (.counts _) fun _ => .bind (writeAll_keeps ..) fun _ => .pure _)

theorem readOpen_keeps (e : Env) (a : Acc) (va : Nat) : KeepsMemory (readOpen e a va) :=
  .bind (translate_keeps ..) fun _ => ⟨fun io h => io.d.readOver_wf h e _⟩

theorem addRecord_keeps (e : Env) (a : Acc) (t : RecordSums) (va : Nat) : KeepsMemory (addRecord e a t va) :=
  .ite (.pure _) (.bind (readOpen_keeps ..) fun _ => .bind (readOpen_keeps ..) fun _ => .ite (.pure _) (.pure _))

theorem recordSums_keeps (e : Env) (a : Acc) (d : List Byte) : KeepsMemory (recordSums e a d) :=
  .foldlM (fun _ _ => addRecord_keeps ..) _ _

/-! ### Control (11) -/

theorem checkControl_keeps (s : State) (q : Nat) (e : Env) (a : Acc) (d : List Byte) : KeepsMemory (checkControl s q e a d) :=
  .check <| .check <| .check <| .check <| .iteBind (Chk.record_keeps ..) (.pure _) fun _ => .check <| .pure _

/-! ### Dispatch -/

theorem State.checks_keeps (s : State) (q : Nat) (d : List Byte) : KeepsMemory (State.checks s q d) := by
  unfold State.checks
  split
  · exact checkSweep_keeps ..
  · exact checkConvert_keeps ..
  · exact checkStow_keeps ..
  · exact checkRun_keeps ..
  · exact checkSeq_keeps ..
  · exact checkHawser_keeps ..
  · exact checkRandom_keeps ..
  · exact checkTranslation_keeps ..
  · exact checkLanding_keeps ..
  · exact checkTuner_keeps ..
  · exact checkControl_keeps ..
  · exact .check <| .pure _

end Sys2Proof.Machine
end

