-- ==== Sys2Proof/Proofs/CellsLeftAlone.lean ====
section
/-!
PROOFS. The functions of the model that leave every cell of memory alone: hosts' records, queues, ports and paths, groups, meters,
domains, boot.
-/

namespace Sys2Proof.Machine

@[simp] theorem foldl_cells {α : Type} (f : State → α → State) (h : ∀ s x, (f s x).dp.cells = s.dp.cells) (l : List α)
    (s : State) : (l.foldl f s).dp.cells = s.dp.cells := by
  induction l generalizing s with
  | nil => rfl
  | cons x l ih => simp [ih, h]

@[simp] theorem cells_ite (c : Prop) [Decidable c] (a b : State) :
    (if c then a else b).dp.cells = if c then a.dp.cells else b.dp.cells := by
  split
  · rfl
  · rfl

@[simp] theorem Data.writeEcc_cells (d : Data) (v : Nat) : (d.writeEcc v).cells = d.cells := rfl

/-! ### Records, interrupts and completions -/

@[simp] theorem State.sendMsix_cells (s : State) (v : Nat) : (s.sendMsix v).dp.cells = s.dp.cells := by
  unfold State.sendMsix
  dsimp only
  split <;> simp

@[simp] theorem State.msix_cells (s : State) (v : Nat) : (s.msix v).dp.cells = s.dp.cells := by
  unfold State.msix
  split <;> simp

@[simp] theorem State.causeRecord_cells (s : State) : s.causeRecord.dp.cells = s.dp.cells := by
  unfold State.causeRecord
  split <;> simp

@[simp] theorem State.causeStopped_cells (s : State) : s.causeStopped.dp.cells = s.dp.cells := by
  unfold State.causeStopped
  split <;> simp

@[simp] theorem State.causeLost_cells (s : State) : s.causeLost.dp.cells = s.dp.cells := by
  unfold State.causeLost
  split <;> simp

@[simp] theorem State.logFault_cells (s : State) (bytes : List Byte) : (s.logFault bytes).dp.cells = s.dp.cells := by
  unfold State.logFault
  dsimp only
  split <;> simp

@[simp] theorem State.faultRecord_cells (s : State) (bytes : List Byte) : (s.faultRecord bytes).dp.cells = s.dp.cells := by
  unfold State.faultRecord
  split <;> simp

@[simp] theorem State.finish_cells (s : State) (id n fault va : Nat) : (s.finish id n fault va).dp.cells = s.dp.cells := rfl

@[simp] theorem State.settle_cells (s : State) (q : Nat) : (s.settle q).dp.cells = s.dp.cells := by
  unfold State.settle
  dsimp only
  split <;> simp

@[simp] theorem State.discard_cells (s : State) : s.discard.dp.cells = s.dp.cells := rfl

@[simp] theorem State.stopOnFault_cells (s : State) (q : Nat) : (s.stopOnFault q).dp.cells = s.dp.cells := by
  unfold State.stopOnFault
  dsimp only
  split <;> simp

@[simp] theorem State.opInterrupt_cells (s : State) (q : Nat) (d : List Byte) : (s.opInterrupt q d).dp.cells = s.dp.cells := by
  unfold State.opInterrupt
  (repeat' split) <;> simp

@[simp] theorem State.reportFaultAt_cells (s : State) (at_ : Reg) (q : Nat) (index : Word) (d : List Byte) (inst sig code va : Nat) :
    (s.reportFaultAt at_ q index d inst sig code va).dp.cells = s.dp.cells := by
  unfold State.reportFaultAt
  split <;> simp

@[simp] theorem State.reportFault_cells (s : State) (q : Nat) (index : Word) (d : List Byte) (inst sig code va : Nat) :
    (s.reportFault q index d inst sig code va).dp.cells = s.dp.cells := by
  unfold State.reportFault
  simp

@[simp] theorem State.retire_cells (s : State) (id n : Nat) : (s.retire id n).dp.cells = s.dp.cells := rfl

@[simp] theorem State.complete_cells (s : State) (o : Op) (i : Inst) : (s.complete o i).dp.cells = s.dp.cells := by
  unfold State.complete
  split <;> simp

@[simp] theorem State.contribute_cells (s : State) (x : Nat × Word) : (s.contribute x).dp.cells = s.dp.cells := by
  unfold State.contribute
  split <;> simp

@[simp] theorem State.applyCourse_cells (s : State) (id : Nat) (eff : Effects) : (s.applyCourse id eff).dp.cells = s.dp.cells := by
  unfold State.applyCourse
  split <;> simp

@[simp] theorem State.applyLoss_cells (s : State) (eff : Effects) : (s.applyLoss eff).dp.cells = s.dp.cells := by
  unfold State.applyLoss
  simp

/-! ### Courses, stow, memory, random numbers -/

@[simp] theorem State.switchCourses_cells (s : State) (bass : Bool) (code : BitVec 3) :
    (s.switchCourses bass code).dp.cells = s.dp.cells := by
  unfold State.switchCourses
  simp

@[simp] theorem State.endDrain_cells (s : State) (bass : Bool) : (s.endDrain bass).dp.cells = s.dp.cells := by
  unfold State.endDrain
  (repeat' split) <;> simp

@[simp] theorem State.endDrains_cells (s : State) : s.endDrains.dp.cells = s.dp.cells := by
  unfold State.endDrains
  simp

@[simp] theorem State.endStow_cells (s : State) (o : Op) (code : Nat) : (s.endStow o code).dp.cells = s.dp.cells := by
  unfold State.endStow
  (repeat' split) <;> simp

@[simp] theorem State.gateDecides_cells (s : State) (o : Op) (n : Nat) : (s.gateDecides o n).dp.cells = s.dp.cells := by
  unfold State.gateDecides
  (repeat' split) <;> simp

@[simp] theorem State.writeLane_cells (s : State) (l : Nat) (r : LaneReg) (v : Reg) :
    (s.writeLane l r v).dp.cells = s.dp.cells := by
  unfold State.writeLane
  (repeat' split) <;> simp

@[simp] theorem State.watchSlip_cells (s : State) : s.watchSlip.dp.cells = s.dp.cells := by
  unfold State.watchSlip
  dsimp only
  (repeat' split) <;> simp

@[simp] theorem State.postFor_cells (s : State) (o : Op) (addr : Nat) (bytes : List Byte) :
    (s.postFor o addr bytes).dp.cells = s.dp.cells := by
  unfold State.postFor
  (repeat' split) <;> simp

@[simp] theorem State.offAccess_cells (s : State) : s.offAccess.dp.cells = s.dp.cells := rfl

@[simp] theorem State.retrainStack_cells (s : State) (x : Nat) (ok : Bool) : (s.retrainStack x ok).dp.cells = s.dp.cells := by
  unfold State.retrainStack
  split <;> simp

@[simp] theorem State.reseedStrings_cells (s : State) (xs : List (Nat × Nat)) : (s.reseedStrings xs).dp.cells = s.dp.cells := by
  unfold State.reseedStrings
  split <;> simp

@[simp] theorem State.loadImage_cells (s : State) (img : List Byte) : (s.loadImage img).dp.cells = s.dp.cells := by
  unfold State.loadImage
  simp

@[simp] theorem State.restoreImage_cells (s : State) (img : List Byte) : (s.restoreImage img).dp.cells = s.dp.cells := by
  unfold State.restoreImage
  split <;> simp

/-! ### Pages and sequences -/

@[simp] theorem State.recount_cells (s : State) (id : Nat) (c : Ctx) : (s.recount id c).dp.cells = s.dp.cells := rfl

@[simp] theorem Taking.page_cells (k : Taking) (id : Nat) : (k.page id).2.s.dp.cells = k.s.dp.cells := by
  simp only [Taking.page]
  (repeat' split) <;> simp

@[simp] theorem State.writeKey_cells (s : State) (high : Bool) (v : Reg) : (s.writeKey high v).dp.cells = s.dp.cells := by
  unfold State.writeKey
  (repeat' split) <;> simp

@[simp] theorem State.seqFault_cells (s : State) (o : Op) (f : XfKind × Nat) : (s.seqFault o f).dp.cells = s.dp.cells := by
  unfold State.seqFault
  simp

@[simp] theorem State.attendTiles_cells (s : State) (o : Op) (bass : Bool) : (s.attendTiles o bass).dp.cells = s.dp.cells := by
  unfold State.attendTiles
  simp

/-! ### Hawser -/

@[simp] theorem State.unpause_cells (s : State) (p : Nat) : (s.unpause p).dp.cells = s.dp.cells := by
  unfold State.unpause
  simp

@[simp] theorem State.sendAck_cells (s : State) (i p : Nat) : (s.sendAck i p).dp.cells = s.dp.cells := by
  unfold State.sendAck
  simp

@[simp] theorem State.sendNak_cells (s : State) (i p : Nat) (kind : BitVec 8) (ackPsn : BitVec 24) (msg : Word) (addr : Reg) :
    (s.sendNak i p kind ackPsn msg addr).dp.cells = s.dp.cells := by
  unfold State.sendNak
  simp

@[simp] theorem State.sendSyncReq_cells (s : State) (i p k : Nat) : (s.sendSyncReq i p k).dp.cells = s.dp.cells := by
  unfold State.sendSyncReq
  split <;> simp

@[simp] theorem State.transmit_cells (s : State) (i p : Nat) (f : HwFrame) : (s.transmit i p f).dp.cells = s.dp.cells := by
  unfold State.transmit
  simp

@[simp] theorem State.establish_cells (s : State) (i : Nat) : (s.establish i).dp.cells = s.dp.cells := by
  simp only [State.establish]
  split
  · rfl
  · refine foldl_cells _ (fun s x => ?_) _ _
    split <;> simp

@[simp] theorem State.pumpN_cells (i : Nat) : ∀ (n : Nat) (s : State), (s.pumpN i n).dp.cells = s.dp.cells
  | 0, s => rfl
  | n + 1, s => by
    unfold State.pumpN
    split
    · rfl
    · dsimp only
      split
      · rfl
      · rw [State.pumpN_cells i n]
        simp

@[simp] theorem State.pump_cells (s : State) (i : Nat) : (s.pump i).dp.cells = s.dp.cells := by
  unfold State.pump
  simp

@[simp] theorem State.pumpAll_cells (s : State) : s.pumpAll.dp.cells = s.dp.cells := by
  unfold State.pumpAll
  simp

@[simp] theorem State.enqueue_cells (s : State) (i : Nat) (fs : List HwFrame) : (s.enqueue i fs).dp.cells = s.dp.cells := by
  unfold State.enqueue
  simp

@[simp] theorem State.mark_cells (s : State) (id label v : Nat) : (s.mark id label v).dp.cells = s.dp.cells := rfl

@[simp] theorem State.losePeer_cells (s : State) (i : Nat) : (s.losePeer i).dp.cells = s.dp.cells := by
  simp only [State.losePeer, State.bump_dp, Data.bump_cells]
  refine (foldl_cells _ (fun s x => ?_) _ _).trans (foldl_cells _ (fun s id => s.mark_cells id Lab.peerLost 1) _ _)
  split <;> simp

@[simp] theorem State.losePath_cells (s : State) (i p : Nat) : (s.losePath i p).dp.cells = s.dp.cells := by
  unfold State.losePath
  dsimp only
  (repeat' split) <;> simp

@[simp] theorem State.acknowledge_cells (s : State) (i p : Nat) (a : BitVec 24) : (s.acknowledge i p a).dp.cells = s.dp.cells := by
  unfold State.acknowledge
  dsimp only
  split <;> simp

@[simp] theorem State.resendAfter_cells (s : State) (i p : Nat) (a : BitVec 24) : (s.resendAfter i p a).dp.cells = s.dp.cells := by
  simp [State.resendAfter]

@[simp] theorem State.resendAll_cells (s : State) (i p : Nat) : (s.resendAll i p).dp.cells = s.dp.cells := by
  unfold State.resendAll
  (repeat' split) <;> simp

@[simp] theorem State.endHawser_cells (s : State) (o : Op) (code va : Nat) : (s.endHawser o code va).dp.cells = s.dp.cells := by
  unfold State.endHawser
  (repeat' split) <;> simp

@[simp] theorem State.hawserXlate_cells (s : State) (o : Op) (f : XfKind × Nat) : (s.hawserXlate o f).dp.cells = s.dp.cells := by
  unfold State.hawserXlate
  simp

@[simp] theorem State.settlePut_cells (s : State) (o : Op) : (s.settlePut o).dp.cells = s.dp.cells := by
  unfold State.settlePut
  (repeat' split) <;> simp

@[simp] theorem State.message_cells (s : State) (i : Nat) (kind : BitVec 8) (base : HwFrame → HwFrame) (ps : List (Nat × List LineIn)) :
    (s.message i kind base ps).1.dp.cells = s.dp.cells := by
  simp [State.message]

@[simp] theorem State.sendColl_cells (s : State) (o : Op) (g : Nat) (r : List Byte) (rank : Nat) (kind : BitVec 8) (addr : Reg)
    (ps : List (Nat × List LineIn)) : (s.sendColl o g r rank kind addr ps).dp.cells = s.dp.cells := by
  simp only [State.sendColl]
  split <;> simp

@[simp] theorem State.stepDone_cells (s : State) (g : Nat) (n : Word) : (s.stepDone g n).dp.cells = s.dp.cells := rfl

@[simp] theorem State.discardContribs_cells (s : State) (cs : List Contrib) : (s.discardContribs cs).dp.cells = s.dp.cells := by
  simp [State.discardContribs]

@[simp] theorem State.sendFree_cells (s : State) (o : Op) (r : List Byte) (f : Ferry) (buf : Nat) :
    (s.sendFree o r f buf).dp.cells = s.dp.cells := by
  unfold State.sendFree
  simp

@[simp] theorem State.setFerry_cells (s : State) (g : Nat) (f : Ferry) : (s.setFerry g f).dp.cells = s.dp.cells := rfl

@[simp] theorem State.stage_cells (s : State) (i p : Nat) (f : HwFrame) : (s.stage i p f).dp.cells = s.dp.cells := by
  unfold State.stage
  dsimp only
  split <;> simp

@[simp] theorem State.placed_cells (s : State) (i p : Nat) : (s.placed i p).dp.cells = s.dp.cells := by
  unfold State.placed
  dsimp only
  split <;> simp

@[simp] theorem State.closePut_cells (s : State) (i : Nat) (f : HwFrame) (refused : Bool) :
    (s.closePut i f refused).dp.cells = s.dp.cells := by
  unfold State.closePut
  split <;> simp

@[simp] theorem State.dropContrib_cells (s : State) (i : Nat) (f : HwFrame) : (s.dropContrib i f).dp.cells = s.dp.cells := by
  unfold State.dropContrib
  dsimp only
  split <;> simp

@[simp] theorem State.rxNak_cells (s : State) (p : Nat) (f : HwFrame) (i : Nat) : (s.rxNak p f i).dp.cells = s.dp.cells := by
  unfold State.rxNak
  (repeat' split) <;> simp

@[simp] theorem State.timeout_cells (s : State) (i p : Nat) : (s.timeout i p).dp.cells = s.dp.cells := by
  unfold State.timeout
  dsimp only
  split <;> simp

@[simp] theorem State.unstage_cells (s : State) (i : Nat) (is_ : HwFrame → Bool) : (s.unstage i is_).dp.cells = s.dp.cells := rfl

@[simp] theorem State.abandonPuts_cells (s : State) (i : Nat) : (s.abandonPuts i).dp.cells = s.dp.cells := by
  unfold State.abandonPuts
  refine foldl_cells _ (fun s x => ?_) _ _
  dsimp only
  split <;> simp

@[simp] theorem State.established_cells (s : State) (i p : Nat) (epoch : Byte) :
    (s.established i p epoch).dp.cells = s.dp.cells := rfl

@[simp] theorem State.settleLost_cells (s : State) (i k : Nat) (a : BitVec 24) : (s.settleLost i k a).dp.cells = s.dp.cells := rfl

@[simp] theorem State.rxSyncRsp_cells (s : State) (p : Nat) (f : HwFrame) (i : Nat) :
    (s.rxSyncRsp p f i).dp.cells = s.dp.cells := by
  unfold State.rxSyncRsp
  split <;> simp

@[simp] theorem State.peerReset_cells (s : State) (i : Nat) : (s.peerReset i).dp.cells = s.dp.cells := by
  unfold State.peerReset
  (repeat' split) <;> simp

@[simp] theorem State.train_cells (s : State) (p : Nat) : (s.train p).dp.cells = s.dp.cells := rfl

@[simp] theorem State.losePaths_cells (s : State) (p : Nat) : (s.losePaths p).dp.cells = s.dp.cells := by
  unfold State.losePaths
  simp

@[simp] theorem State.leave_cells (s : State) (p : Nat) (st : PortState) : (s.leave p st).dp.cells = s.dp.cells := by
  unfold State.leave
  simp

@[simp] theorem State.portDown_cells (s : State) (p : Nat) : (s.portDown p).dp.cells = s.dp.cells := by
  unfold State.portDown
  simp

@[simp] theorem State.portEnable_cells (s : State) (p : Nat) : (s.portEnable p).dp.cells = s.dp.cells := by
  unfold State.portEnable
  dsimp only
  split <;> simp

@[simp] theorem State.portDisable_cells (s : State) (p : Nat) : (s.portDisable p).dp.cells = s.dp.cells := by
  unfold State.portDisable
  dsimp only
  split <;> simp

@[simp] theorem State.writeHwCfg_cells (s : State) (v : Nat) : (s.writeHwCfg v).dp.cells = s.dp.cells := by
  unfold State.writeHwCfg
  dsimp only
  split <;> simp

@[simp] theorem State.writeHwTiming_cells (s : State) (v : Nat) : (s.writeHwTiming v).dp.cells = s.dp.cells := rfl

@[simp] theorem State.writeHwGroup_cells (s : State) (g v : Nat) : (s.writeHwGroup g v).dp.cells = s.dp.cells := by
  unfold State.writeHwGroup
  split <;> simp

@[simp] theorem State.writePeerMac_cells (s : State) (i v : Nat) : (s.writePeerMac i v).dp.cells = s.dp.cells := by
  unfold State.writePeerMac
  split <;> simp

@[simp] theorem State.writePeerCfg_cells (s : State) (i v : Nat) (reset : Bool) :
    (s.writePeerCfg i v reset).dp.cells = s.dp.cells := by
  unfold State.writePeerCfg
  split <;> simp

@[simp] theorem State.writeHawser_cells (s : State) (off : Nat) (v mask : Reg) :
    (s.writeHawser off v mask).dp.cells = s.dp.cells := by
  unfold State.writeHawser
  split <;> simp

/-! ### Mailboxes -/

@[simp] theorem State.mbxReport_cells (s : State) (m : Byte) (c code : Nat) : (s.mbxReport m c code).dp.cells = s.dp.cells := by
  unfold State.mbxReport
  split <;> simp

@[simp] theorem State.busError_cells (s : State) (m : Byte) : (s.busError m).dp.cells = s.dp.cells := by
  unfold State.busError
  split <;> rfl

@[simp] theorem State.mbxOff_cells (s : State) (m : Byte) (c : Nat) : (s.mbxOff m c).dp.cells = s.dp.cells := by
  unfold State.mbxOff
  simp

@[simp] theorem State.mbxReject_cells (s : State) (m : Byte) (c : Nat) : (s.mbxReject m c).dp.cells = s.dp.cells := by
  unfold State.mbxReject
  simp

@[simp] theorem State.mbxDeny_cells (s : State) (m : Byte) : (s.mbxDeny m).dp.cells = s.dp.cells := by
  unfold State.mbxDeny
  simp

@[simp] theorem State.notifyAgent_cells (s : State) (n : Notice) : (s.notifyAgent n).dp.cells = s.dp.cells := by
  unfold State.notifyAgent
  (repeat' split) <;> simp

@[simp] theorem State.notifyParty_cells (s : State) (m : Byte) (c : Nat) (full : Bool) :
    (s.notifyParty m c full).dp.cells = s.dp.cells := by
  unfold State.notifyParty
  split <;> simp

@[simp] theorem State.deliverWaiting_cells (s : State) (x : Nat) : (s.deliverWaiting x).dp.cells = s.dp.cells := by
  simp only [State.deliverWaiting]
  refine (foldl_cells _ (fun s x => ?_) _ _).trans (by simp)
  simp

@[simp] theorem State.writeMsg_cells (s : State) (m : Byte) (c w : Nat) (v mask : Reg) :
    (s.writeMsg m c w v mask).dp.cells = s.dp.cells := by
  unfold State.writeMsg
  (repeat' split) <;> simp

@[simp] theorem State.sendMsg_cells (s : State) (c : Nat) : (s.sendMsg c).dp.cells = s.dp.cells := by
  unfold State.sendMsg
  simp

@[simp] theorem State.ackMsg_cells (s : State) (c : Nat) : (s.ackMsg c).dp.cells = s.dp.cells := by
  unfold State.ackMsg
  simp

@[simp] theorem State.writeMbxCtl_cells (s : State) (m : Byte) (c : Nat) (v mask : Reg) :
    (s.writeMbxCtl m c v mask).dp.cells = s.dp.cells := by
  unfold State.writeMbxCtl
  dsimp only
  split <;> simp

@[simp] theorem State.acquire_cells (s : State) (m : Byte) (c : Nat) (peer : Byte) :
    (s.acquire m c peer).dp.cells = s.dp.cells := by
  unfold State.acquire
  (repeat' split) <;> simp

@[simp] theorem State.unlock_cells (s : State) (m : Byte) (c : Nat) : (s.unlock m c).dp.cells = s.dp.cells := by
  unfold State.unlock
  split <;> simp

@[simp] theorem State.bindChannels_cells (s : State) (bs : List (Nat × Bind)) : (s.bindChannels bs).dp.cells = s.dp.cells := by
  simp only [State.bindChannels]
  have h : ∀ (l : List (Nat × Bind)) (s : State), (l.foldl (fun s x => s.updChan x.2.channel.toNat
      fun k => { k with sender := x.2.sender, receiver := x.2.receiver }) s).dp.cells = s.dp.cells :=
    fun l s => foldl_cells _ (fun s x => by simp) l s
  split <;> simp [h]

/-! ### Run-ahead and contexts -/

@[simp] theorem State.settleTuner_cells (s : State) : s.settleTuner.dp.cells = s.dp.cells := by
  unfold State.settleTuner
  split <;> simp

@[simp] theorem State.squashOp_cells (s : State) (o : Op) : (s.squashOp o).dp.cells = s.dp.cells := by
  unfold State.squashOp
  split <;> simp

@[simp] theorem State.extraSignal_cells (s : State) (o : Op) (n inc : Nat) : (s.extraSignal o n inc).dp.cells = s.dp.cells := by
  unfold State.extraSignal
  (repeat' split) <;> simp

@[simp] theorem State.writeTunerCtl_cells (s : State) (on : Bool) : (s.writeTunerCtl on).dp.cells = s.dp.cells := by
  unfold State.writeTunerCtl
  split <;> simp

@[simp] theorem State.loadSingles_cells (s : State) (img : List Byte) : (s.loadSingles img).dp.cells = s.dp.cells := by
  unfold State.loadSingles
  simp

@[simp] theorem State.loadBlocks_cells (s : State) (img : List Byte) : (s.loadBlocks img).dp.cells = s.dp.cells :=
  (s.loadBlocks_keeps img).cells

@[simp] theorem State.rebuildSlots_cells (s : State) : s.rebuildSlots.dp.cells = s.dp.cells := by
  simp only [State.rebuildSlots]
  refine (foldl_cells _ (fun s x => ?_) _ _).trans (by simp)
  (repeat' split) <;> simp

@[simp] theorem State.loadSeq_cells (s : State) (img : List Byte) (off : Nat) : (s.loadSeq img off).dp.cells = s.dp.cells := rfl

@[simp] theorem State.headsLoaded_cells (s old : State) : (s.headsLoaded old).dp.cells = s.dp.cells := by
  unfold State.headsLoaded
  refine foldl_cells _ (fun s x => ?_) _ _
  split <;> simp

@[simp] theorem State.loadContext_cells (s : State) (q : Nat) (h img : List Byte) :
    (s.loadContext q h img).dp.cells = s.dp.cells := by
  unfold State.loadContext
  dsimp only
  split <;> simp

/-! ### Queues -/

@[simp] theorem State.advance_cells (s : State) (q : Nat) : (s.advance q).dp.cells = s.dp.cells := by
  unfold State.advance
  simp

@[simp] theorem State.doorbell_cells (s : State) (q : Nat) (t : Word) : (s.doorbell q t).dp.cells = s.dp.cells := by
  unfold State.doorbell
  (repeat' split) <;> simp

@[simp] theorem State.fetchAbort_cells (s : State) (q : Nat) (index : Word) : (s.fetchAbort q index).dp.cells = s.dp.cells := by
  unfold State.fetchAbort
  simp

@[simp] theorem State.refuseHead_cells (s : State) (q : Nat) (d : List Byte) (sig code : Nat) :
    (s.refuseHead q d sig code).dp.cells = s.dp.cells := by
  unfold State.refuseHead
  simp

@[simp] theorem State.headerStep_cells (s : State) (q : Nat) : (s.headerStep q).dp.cells = s.dp.cells := by
  unfold State.headerStep
  dsimp only
  (repeat' split) <;> simp

@[simp] theorem State.arm_cells (s : State) (q : Nat) (d : List Byte) : (s.arm q d).dp.cells = s.dp.cells := rfl

@[simp] theorem State.armStep_cells (s : State) (q : Nat) : (s.armStep q).dp.cells = s.dp.cells := by
  unfold State.armStep
  dsimp only
  (repeat' split) <;> simp

@[simp] theorem State.serve_cells (s : State) (q : Nat) (d : List Byte) : (s.serve q d).dp.cells = s.dp.cells := by
  unfold State.serve
  split
  · rfl
  · rfl

@[simp] theorem State.takeHead_cells (s : State) (q : Nat) (h : Head) : (s.takeHead q h).dp.cells = s.dp.cells := by
  unfold State.takeHead
  (repeat' split) <;> simp

@[simp] theorem State.refuseInsts_cells (s : State) (q : Nat) (h : Head) (p : Plan) :
    (s.refuseInsts q h p).dp.cells = s.dp.cells := by
  unfold State.refuseInsts
  simp

@[simp] theorem State.start_cells (s : State) (q : Nat) (h : Head) (p : Plan) (ahead : Option Nat) :
    (s.start q h p ahead).dp.cells = s.dp.cells := by
  unfold State.start
  split <;> simp

@[simp] theorem State.refuse_cells (s : State) (q : Nat) (h : Head) (code va : Nat) :
    (s.refuse q h code va).dp.cells = s.dp.cells := by
  unfold State.refuse
  simp

@[simp] theorem State.changeCourses_cells (s : State) (b : Bool) (code : BitVec 3) :
    (s.changeCourses b code).1.dp.cells = s.dp.cells := by
  simp only [State.changeCourses]
  (repeat' split) <;> simp

@[simp] theorem State.skipStep_cells (s : State) (q : Nat) : (s.skipStep q).dp.cells = s.dp.cells := by
  unfold State.skipStep
  dsimp only
  split <;> simp

@[simp] theorem State.afterOp_cells (s : State) : s.afterOp.dp.cells = s.dp.cells := by
  unfold State.afterOp
  simp

@[simp] theorem State.completionStep_cells (s : State) (id n : Nat) : (s.completionStep id n).dp.cells = s.dp.cells := by
  unfold State.completionStep
  (repeat' split) <;> simp

@[simp] theorem State.cntAdd_cells (s : State) (n : Nat) (amount : Word) : (s.cntAdd n amount).dp.cells = s.dp.cells := by
  unfold State.cntAdd
  simp

@[simp] theorem State.cntSet_cells (s : State) (n : Nat) (amount : Word) : (s.cntSet n amount).dp.cells = s.dp.cells := by
  unfold State.cntSet
  simp

@[simp] theorem State.writeQCfg_cells (s : State) (q : Nat) (v mask : Reg) : (s.writeQCfg q v mask).dp.cells = s.dp.cells := by
  unfold State.writeQCfg
  dsimp only
  split <;> simp

@[simp] theorem State.writeQBase_cells (s : State) (q : Nat) (v mask : Reg) : (s.writeQBase q v mask).dp.cells = s.dp.cells := by
  unfold State.writeQBase
  dsimp only
  split <;> simp

@[simp] theorem State.writeQWb_cells (s : State) (q : Nat) (v mask : Reg) : (s.writeQWb q v mask).dp.cells = s.dp.cells := rfl

/-! ### Supply, power and heat -/

@[simp] theorem State.emptyLanes_cells (s : State) (x : Nat) : (s.emptyLanes x).dp.cells = s.dp.cells := by
  unfold State.emptyLanes
  refine foldl_cells _ (fun s x => ?_) _ _
  dsimp only
  split <;> simp

@[simp] theorem State.countSupply_cells (s : State) (sub : Nat) : (s.countSupply sub).dp.cells = s.dp.cells := rfl

@[simp] theorem State.lastEvent_cells (s : State) (k : Nat) (start dur : Reg) (ext : Word) :
    (s.lastEvent k start dur ext).dp.cells = s.dp.cells := rfl

@[simp] theorem State.relog_cells (s : State) (c : Relog) : (s.relog c).dp.cells = s.dp.cells := by
  unfold State.relog
  dsimp only
  split <;> rfl

@[simp] theorem State.endEvent_cells (s : State) (k : Nat) : (s.endEvent k).dp.cells = s.dp.cells := by
  unfold State.endEvent
  split
  · rfl
  · exact (State.relog_cells _ _).trans rfl

@[simp] theorem State.deepen_cells (s : State) (k : Nat) (f : Word → Word) : (s.deepen k f).dp.cells = s.dp.cells := by
  unfold State.deepen
  dsimp only
  split <;> simp

@[simp] theorem State.dipToDropout_cells (s : State) (e : SupplyEv) (mean : Word) :
    (s.dipToDropout e mean).dp.cells = s.dp.cells := by
  exact (State.relog_cells _ _).trans rfl

@[simp] theorem State.beginDip_cells (s : State) (mean : Word) : (s.beginDip mean).dp.cells = s.dp.cells := by
  unfold State.beginDip
  split <;> simp

@[simp] theorem State.beginSwell_cells (s : State) (mean : Word) : (s.beginSwell mean).dp.cells = s.dp.cells := by
  unfold State.beginSwell
  (repeat' split) <;> simp

@[simp] theorem State.beginOverstress_cells (s : State) (mean : Word) : (s.beginOverstress mean).dp.cells = s.dp.cells := by
  unfold State.beginOverstress
  dsimp only
  split <;> simp

@[simp] theorem State.beginAuxLoss_cells (s : State) (mean : Word) : (s.beginAuxLoss mean).dp.cells = s.dp.cells := by
  unfold State.beginAuxLoss
  split <;> simp

@[simp] theorem State.endSwell_cells (s : State) (mean : Word) : (s.endSwell mean).dp.cells = s.dp.cells := by
  unfold State.endSwell
  (repeat' split) <;> simp

@[simp] theorem State.retarget_cells (s : State) : s.retarget.dp.cells = s.dp.cells := by
  unfold State.retarget
  dsimp only
  split <;> simp

@[simp] theorem State.releaseDone_cells (s : State) : s.releaseDone.dp.cells = s.dp.cells := by
  unfold State.releaseDone
  dsimp only
  split <;> simp

@[simp] theorem State.capsChanged_cells (s : State) : s.capsChanged.dp.cells = s.dp.cells := by
  unfold State.capsChanged
  dsimp only
  split <;> simp

@[simp] theorem State.writePowerCap_cells (s : State) (v : Word) : (s.writePowerCap v).dp.cells = s.dp.cells := by
  unfold State.writePowerCap
  simp

@[simp] theorem State.writeCapEnable_cells (s : State) (on : Bool) : (s.writeCapEnable on).dp.cells = s.dp.cells := by
  unfold State.writeCapEnable
  split <;> simp

@[simp] theorem State.setLimits_cells (s : State) (mean : Word) (envelope : Bool) :
    (s.setLimits mean envelope).dp.cells = s.dp.cells := rfl

@[simp] theorem State.noteHigh_cells (s : State) (pIn : Word) : (s.noteHigh pIn).dp.cells = s.dp.cells := by
  unfold State.noteHigh
  split <;> simp

@[simp] theorem State.rearm_cells (s : State) : s.rearm.dp.cells = s.dp.cells := rfl

@[simp] theorem State.logThermal_cells (s : State) (die : Nat) (t : Word) : (s.logThermal die t).dp.cells = s.dp.cells := by
  simp [State.logThermal]

@[simp] theorem State.alarmOf_cells (s : State) (die : Nat) (t : Word) : (s.alarmOf die t).dp.cells = s.dp.cells := by
  unfold State.alarmOf
  split <;> simp

@[simp] theorem State.setThrottle_cells (s : State) (v : BitVec 2) : (s.setThrottle v).dp.cells = s.dp.cells := rfl

@[simp] theorem State.wake_cells (s : State) (x : Nat) : (s.wake x).dp.cells = s.dp.cells := by
  unfold State.wake
  simp

@[simp] theorem State.request_cells (s : State) (x : Nat) (req : BitVec 2) : (s.request x req).dp.cells = s.dp.cells := by
  unfold State.request
  split <;> simp

@[simp] theorem State.requestOff_cells (s : State) (x : Nat) : (s.requestOff x).dp.cells = s.dp.cells := rfl

@[simp] theorem State.writeReq_cells (s : State) (x : Nat) (v : BitVec 2) : (s.writeReq x v).dp.cells = s.dp.cells := by
  unfold State.writeReq
  dsimp only
  split <;> simp

@[simp] theorem State.domainsOff_cells (s : State) : s.domainsOff.dp.cells = s.dp.cells := rfl

/-! ### Boot -/

@[simp] theorem State.halt_cells (s : State) (reason : Nat) : (s.halt reason).dp.cells = s.dp.cells := by
  simp [State.halt]

@[simp] theorem State.useManifest_cells (s : State) (m : List Byte) : (s.useManifest m).dp.cells = s.dp.cells := rfl

@[simp] theorem State.logInline_cells (s : State) (m : List Byte) : (s.logInline m).dp.cells = s.dp.cells := by
  unfold State.logInline
  (repeat' split) <;> simp

@[simp] theorem State.logManifests_cells (s : State) : s.logManifests.dp.cells = s.dp.cells := by
  unfold State.logManifests
  dsimp only
  split <;> simp

@[simp] theorem State.logApplied_cells (s : State) (e : List Byte) : (s.logApplied e).dp.cells = s.dp.cells := by
  simp [State.logApplied]

@[simp] theorem State.mapStage_cells (s : State) (bad : List Nat) : (s.mapStage bad).dp.cells = s.dp.cells := by
  simp only [State.mapStage]
  split <;> simp

@[simp] theorem State.seedStage_cells (s : State) : s.seedStage.dp.cells = s.dp.cells := by
  unfold State.seedStage
  split <;> simp

/-! ### The object dictionary -/

@[simp] theorem State.noteRead_cells (s : State) (i k : Nat) : (s.noteRead i k).dp.cells = s.dp.cells := by
  unfold State.noteRead
  split <;> simp

@[simp] theorem State.answer_cells (s : State) (f : MgmtFrame) (status : Nat) (data : List Byte) :
    (s.answer f status data).dp.cells = s.dp.cells := rfl

@[simp] theorem State.read_cells (s : State) (f : MgmtFrame) : (s.read f).dp.cells = s.dp.cells := by
  unfold State.read
  dsimp only
  split <;> simp

@[simp] theorem State.broadcastRead_cells (s : State) (f : MgmtFrame) : (s.broadcastRead f).dp.cells = s.dp.cells := by
  unfold State.broadcastRead
  dsimp only
  split <;> simp

@[simp] theorem State.wrote_cells (s : State) (src : BitVec 48) : (s.wrote src).dp.cells = s.dp.cells := by
  unfold State.wrote
  dsimp only
  split <;> simp

@[simp] theorem State.storeCmd_cells (s : State) : s.storeCmd.dp.cells = s.dp.cells := by
  unfold State.storeCmd
  split <;> simp

@[simp] theorem State.restoreDefaults_cells (s : State) : s.restoreDefaults.dp.cells = s.dp.cells := by
  unfold State.restoreDefaults
  simp

@[simp] theorem State.clearExtremes_cells (s : State) : s.clearExtremes.dp.cells = s.dp.cells := rfl

@[simp] theorem State.ackLog_cells (s : State) (v : Nat) : (s.ackLog v).dp.cells = s.dp.cells := rfl

@[simp] theorem State.applyWrite_cells (s : State) (i k v : Nat) : (s.applyWrite i k v).dp.cells = s.dp.cells := by
  unfold State.applyWrite
  dsimp only
  split <;> simp

@[simp] theorem State.writeScalar_cells (s : State) (f : MgmtFrame) : (s.writeScalar f).dp.cells = s.dp.cells := by
  unfold State.writeScalar
  dsimp only
  split <;> simp

@[simp] theorem State.putXfer_cells (s : State) (t : Transfer) (x : DomainXfer) : (s.putXfer t x).dp.cells = s.dp.cells := by
  unfold State.putXfer
  split <;> simp

@[simp] theorem State.endXfer_cells (s : State) (t : Transfer) (code : Nat) : (s.endXfer t code).dp.cells = s.dp.cells := by
  unfold State.endXfer
  split <;> simp

@[simp] theorem State.received_cells (s : State) (t : Transfer) (x : DomainXfer) (f : MgmtFrame) :
    (s.received t x f).dp.cells = s.dp.cells := by
  unfold State.received
  split <;> simp

@[simp] theorem State.segment_cells (s : State) (t : Transfer) (x : DomainXfer) (f : MgmtFrame) :
    (s.segment t x f).dp.cells = s.dp.cells := by
  unfold State.segment
  split <;> simp

@[simp] theorem State.badSegment_cells (s : State) (t : Transfer) (f : MgmtFrame) : (s.badSegment t f).dp.cells = s.dp.cells := by
  unfold State.badSegment
  (repeat' split) <;> simp

@[simp] theorem State.takeSegment_cells (s : State) (t : Transfer) (f : MgmtFrame) :
    (s.takeSegment t f).dp.cells = s.dp.cells := by
  unfold State.takeSegment
  (repeat' split) <;> simp

@[simp] theorem State.write_cells (s : State) (f : MgmtFrame) : (s.write f).dp.cells = s.dp.cells := by
  unfold State.write
  (repeat' split) <;> simp

@[simp] theorem State.resend_cells (s : State) (r : MgmtFrame) : (s.resend r).dp.cells = s.dp.cells := rfl

@[simp] theorem State.request1_cells (s : State) (f : MgmtFrame) : (s.request1 f).dp.cells = s.dp.cells := by
  unfold State.request1
  (repeat' split) <;> simp

@[simp] theorem State.broadcastFrame_cells (s : State) (f : MgmtFrame) : (s.broadcastFrame f).dp.cells = s.dp.cells := by
  unfold State.broadcastFrame
  (repeat' split) <;> simp

@[simp] theorem State.mgmtFrame_cells (s : State) (f : MgmtFrame) : (s.mgmtFrame f).dp.cells = s.dp.cells := by
  unfold State.mgmtFrame
  (repeat' split) <;> simp

@[simp] theorem State.writeFrom_cells (s : State) (src : BitVec 48) (tid : BitVec 16) (i k : Nat) (data : List Byte) :
    (s.writeFrom src tid i k data).dp.cells = s.dp.cells := by
  unfold State.writeFrom
  simp

@[simp] theorem State.activateImage_cells (s : State) : s.activateImage.dp.cells = s.dp.cells := by
  simp [State.activateImage]

@[simp] theorem State.rejectImage_cells (s : State) (why : Nat) : (s.rejectImage why).dp.cells = s.dp.cells := by
  simp [State.rejectImage]

@[simp] theorem State.storeRepair_cells (s : State) (r : List Byte) : (s.storeRepair r).dp.cells = s.dp.cells := rfl

@[simp] theorem State.endRepair_cells (s : State) (code : Nat) : (s.endRepair code).dp.cells = s.dp.cells := by
  unfold State.endRepair
  dsimp only
  split <;> simp

/-! ### Registers and the host function -/

@[simp] theorem State.unmask_cells (s : State) (v : Nat) : (s.unmask v).dp.cells = s.dp.cells := by
  unfold State.unmask
  dsimp only
  split <;> simp

@[simp] theorem State.writeVec_cells (s : State) (v h : Nat) (x mask : Reg) : (s.writeVec v h x mask).dp.cells = s.dp.cells := by
  unfold State.writeVec
  split <;> simp

@[simp] theorem State.writeQueue_cells (s : State) (q r : Nat) (v mask : Reg) :
    (s.writeQueue q r v mask).dp.cells = s.dp.cells := by
  unfold State.writeQueue
  (repeat' split) <;> simp

@[simp] theorem State.writeCntAdd_cells (s : State) (n : Nat) (v mask : Reg) : (s.writeCntAdd n v mask).dp.cells = s.dp.cells := by
  unfold State.writeCntAdd
  split <;> simp

@[simp] theorem State.writeFab_cells (s : State) (bass : Bool) (v mask : Reg) :
    (s.writeFab bass v mask).dp.cells = s.dp.cells := by
  unfold State.writeFab
  simp

@[simp] theorem State.writeTuner_cells (s : State) (off : Nat) (v mask : Reg) :
    (s.writeTuner off v mask).dp.cells = s.dp.cells := by
  unfold State.writeTuner
  (repeat' split) <;> simp

@[simp] theorem State.writeStow_cells (s : State) (off : Nat) (v mask : Reg) : (s.writeStow off v mask).dp.cells = s.dp.cells := by
  unfold State.writeStow
  (repeat' split) <;> simp

@[simp] theorem State.writeMark_cells (s : State) (x w : Nat) : (s.writeMark x w).dp.cells = s.dp.cells := rfl

@[simp] theorem State.writePower_cells (s : State) (off : Nat) (v mask : Reg) :
    (s.writePower off v mask).dp.cells = s.dp.cells := by
  unfold State.writePower
  (repeat' split) <;> simp

@[simp] theorem State.writeLock_cells (s : State) (m : Byte) (c : Nat) (v mask : Reg) :
    (s.writeLock m c v mask).dp.cells = s.dp.cells := by
  unfold State.writeLock
  split <;> simp

@[simp] theorem State.writeBar2_cells (s : State) (off : Nat) (v mask : Reg) : (s.writeBar2 off v mask).dp.cells = s.dp.cells := by
  unfold State.writeBar2
  split <;> simp

@[simp] theorem State.hostReset_cells (s : State) (c : HostResetCause) : (s.hostReset c).dp.cells = s.dp.cells := by
  unfold State.hostReset
  simp

@[simp] theorem State.flushHead_cells (s : State) (q : Nat) : (s.flushHead q).dp.cells = s.dp.cells := by
  unfold State.flushHead
  (repeat' split) <;> simp

@[simp] theorem State.flushReq_cells (s : State) (r : HostReq) : (s.flushReq r).dp.cells = s.dp.cells := by
  unfold State.flushReq
  (repeat' split) <;> simp

@[simp] theorem State.flushHost_cells (s : State) : s.flushHost.dp.cells = s.dp.cells := by
  unfold State.flushHost
  simp

@[simp] theorem State.doeAnswer_cells (s : State) (o : List Byte) : (s.doeAnswer o).dp.cells = s.dp.cells := by
  unfold State.doeAnswer
  simp

@[simp] theorem State.answerSpdm_cells (s : State) (o : List Byte) : (s.answerSpdm o).dp.cells = s.dp.cells := by
  unfold State.answerSpdm
  split <;> simp

@[simp] theorem State.takeObject_cells (s : State) (o : List Byte) : (s.takeObject o).dp.cells = s.dp.cells := by
  unfold State.takeObject
  (repeat' split) <;> simp

@[simp] theorem State.doeWrite_cells (s : State) (bytes : List Byte) : (s.doeWrite bytes).dp.cells = s.dp.cells := by
  unfold State.doeWrite
  dsimp only
  split <;> simp

@[simp] theorem State.runStrings_cells (s : State) (x : Nat) : (s.runStrings x).dp.cells = s.dp.cells := by
  unfold State.runStrings
  split <;> simp

@[simp] theorem State.countTime_cells (s : State) : s.countTime.dp.cells = s.dp.cells := by
  unfold State.countTime
  dsimp only
  (repeat' split) <;> simp

@[simp] theorem State.writeConfig_cells (s : State) (off : Nat) (v mask : Reg) : (s.writeConfig off v mask).dp.cells = s.dp.cells := by
  unfold State.writeConfig
  split <;> rfl

@[simp] theorem State.readMirror_cells (s : State) : s.readMirror.dp.cells = s.dp.cells := by
  unfold State.readMirror
  simp
@[simp] theorem State.strikeAttend_cells (s : State) (id entry : Nat) : (s.strikeAttend id entry).dp.cells = s.dp.cells := by
  unfold State.strikeAttend
  (repeat' split) <;> simp

/-! ### The governor, the host function, records that wait -/

@[simp] theorem State.lowerAll_cells (s : State) : s.lowerAll.dp.cells = s.dp.cells :=
  foldl_cells _ (fun s d => by simp) _ _

@[simp] theorem State.stepK_cells (s : State) (m : MeterSample) : (s.stepK m).dp.cells = s.dp.cells := by
  have hraise : ((List.range 4).foldl (fun s d => if (s.die d).noRaise then s else s.updDie d Die.raise) s).dp.cells = s.dp.cells :=
    foldl_cells _ (fun s d => by split <;> simp) _ _
  unfold State.stepK
  dsimp only
  (repeat' split) <;> simp [hraise]

@[simp] theorem State.movePoint_cells (s : State) (d p : Nat) : (s.movePoint d p).dp.cells = s.dp.cells := by
  simp [State.movePoint]

@[simp] theorem State.coolDie_cells (s : State) (d : Nat) (t : Word) : (s.coolDie d t).dp.cells = s.dp.cells := by
  unfold State.coolDie
  dsimp only
  (repeat' split) <;> simp

@[simp] theorem State.lockRoot_cells (s : State) (d : Nat) : (s.lockRoot d).dp.cells = s.dp.cells := by
  simp [State.lockRoot]

@[simp] theorem State.setD3hot_cells (s : State) (on : Bool) : (s.setD3hot on).dp.cells = s.dp.cells := by
  unfold State.setD3hot
  dsimp only
  (repeat' split) <;> rfl

@[simp] theorem Data.clearTuner_cells (d : Data) (slot : Nat) : (d.clearTuner slot).cells = d.cells := rfl

@[simp] theorem Data.relog_cells (d : Data) (c : Relog) : (d.relog c).cells = d.cells := rfl

@[simp] theorem Data.writeLog_cells (d : Data) (dest mac : BitVec 48) (r : LogRec) : (d.writeLog dest mac r).cells = d.cells := rfl

theorem Data.foldl_cells {α : Type} (d : Data) (f : Data → α → Data) (h : ∀ d x, (f d x).cells = d.cells) (l : List α) :
    (l.foldl f d).cells = d.cells := by
  induction l generalizing d with
  | nil => rfl
  | cons x l ih => simp [ih, h]

@[simp] theorem State.raiseCounters_cells (s : State) : s.raiseCounters.dp.cells = s.dp.cells := by
  refine foldl_cells _ (fun s k => ?_) _ _
  (repeat' split) <;> simp

@[simp] theorem Data.relogs_cells (d : Data) (l : List Relog) : (l.foldl Data.relog d).cells = d.cells :=
  d.foldl_cells Data.relog Data.relog_cells l

@[simp] theorem Data.writeLogs_cells (d : Data) (dest mac : BitVec 48) (l : List LogRec) :
    (l.foldl (fun d r => d.writeLog dest mac r) d).cells = d.cells :=
  d.foldl_cells _ (fun d r => d.writeLog_cells dest mac r) l

@[simp] theorem State.flushFlash_cells (s : State) : s.flushFlash.dp.cells = s.dp.cells := by
  simp [State.flushFlash]

/-! ### Stages of boot -/

@[simp] theorem State.cold_cells (s : State) : s.cold.dp.cells = [] := rfl

@[simp] theorem State.powerUp_cells (s : State) : s.powerUp.dp.cells = [] := by
  simp [State.powerUp]

@[simp] theorem State.meshUp_cells (s : State) : s.meshUp.dp.cells = s.dp.cells := rfl

@[simp] theorem State.aliasStage_cells (s : State) : s.aliasStage.dp.cells = s.dp.cells := rfl

@[simp] theorem State.loadObject_cells (s : State) (kind : Nat) : (s.loadObject kind).1.dp.cells = s.dp.cells := by
  unfold State.loadObject
  dsimp only
  (repeat' split) <;> simp

@[simp] theorem State.readyStage_cells (s : State) : s.readyStage.dp.cells = s.dp.cells := by
  unfold State.readyStage
  dsimp only
  split <;> simp

end Sys2Proof.Machine
end

