-- ==== Sys2Proof/Proofs/OperationsKeepMemory.lean ====
section
/-!
PROOFS. Memory stays in its canonical form when operations end, run ahead, commit and roll back, and through the pools of pages.
-/

namespace Sys2Proof.Machine

/-! ### Work that ends -/

/-- Work that ran through left memory canonical. -/
theorem State.run_wf {s : State} (h : Memory.wf s.dp.cells) {α : Type} {m : M α} (hm : KeepsMemory m)
    {r : Except (XfKind × Nat) α} {d : Data} (hrun : s.run m = some (r, d)) : Memory.wf d.cells := by
  obtain ⟨io, hio, rfl⟩ := State.run_some hrun
  simpa [hio] using hm.wf ⟨s.dp, false⟩ h

/-- Functions on the state that each keep memory canonical, one after the other. -/
theorem State.foldl_wf {s : State} (h : Memory.wf s.dp.cells) {α : Type} {f : State → α → State}
    (hf : ∀ s x, Memory.wf s.dp.cells → Memory.wf (f s x).dp.cells) (l : List α) : Memory.wf (l.foldl f s).dp.cells :=
  List.foldlRecOn (motive := fun s : State => Memory.wf s.dp.cells) l f h fun s hs x _ => hf s x hs

section
variable {s : State} (h : Memory.wf s.dp.cells)
include h

/-- Work that ends an operation in one way if it ran through, and in the common one if it met a translation fault. -/
theorem State.perform_wf {α : Type} {m : M α} (hm : KeepsMemory m) (o : Op) {onOk : State → α → State}
    (hok : ∀ s x, Memory.wf s.dp.cells → Memory.wf (onOk s x).dp.cells) :
    Memory.wf (s.perform o m (fun d => d) onOk).dp.cells := by
  unfold State.perform
  split
  next => exact h
  next heq => exact hok _ _ (State.run_wf h hm heq)
  next heq => simpa using State.run_wf h hm heq

theorem State.applyEffects_wf (o : Op) (eff : Effects) : Memory.wf (s.applyEffects o eff).dp.cells := by
  have hrecs : Memory.wf (eff.recs.foldl (fun d w => d.write (s.envOf o) w)
      (eff.evts.foldl (fun d x => d.bump x.1 x.2) s.dp)).cells :=
    Data.foldl_wf ((Data.foldl_bump_cells ..).symm ▸ h) (fun _ w hd => Data.write_wf hd (s.envOf o) w) _
  unfold State.applyEffects
  dsimp only
  split <;> simpa using hrecs

theorem State.workNow_wf (o : Op) (n : Nat) {m : M Work} (hm : KeepsMemory m) : Memory.wf (s.workNow o n m).dp.cells := by
  unfold State.workNow
  dsimp only
  split
  next => exact h
  next => exact h
  next heq =>
    have hd := State.run_wf h (.bind hm fun _ => .bind (writeAll_keeps ..) fun _ => .pure _) heq
    simpa using State.applyEffects_wf hd o _

end

theorem Data.markLine_wf {d : Data} (h : Memory.wf d.cells) (e : Env) (v l : Nat) : Memory.wf (d.markLine e v l).cells := by
  refine Data.foldl_wf (by simpa using h) (fun d k hd => ?_) _
  split
  · exact Data.write_wf hd ..
  · exact hd

theorem Data.rollBack_wf {d : Data} (h : Memory.wf d.cells) (v : Nat) : Memory.wf (d.rollBack v).cells := by
  refine Data.foldl_wf h (fun d u hd => ?_) _
  split
  · exact hd
  · exact Data.store_wf hd ..

theorem Data.writeAhead_wf {d d' : Data} (h : Memory.wf d.cells) {e : Env} {v : Nat} {w : Wr} (heq : d.writeAhead e v w = .made d') :
    Memory.wf d'.cells := by
  unfold Data.writeAhead at heq
  (repeat' split at heq) <;> cases heq
  · exact Data.write_wf h ..
  · exact Data.write_wf (Data.markLine_wf h ..) ..

theorem Data.writesAhead_wf {d : Data} (h : Memory.wf d.cells) (e : Env) (v : Nat) (ws : List Wr) :
    Memory.wf (d.writesAhead e v ws).1.cells := by
  induction ws generalizing d with
  | nil => exact h
  | cons w ws ih =>
    unfold Data.writesAhead
    split
    next heq => exact ih (Data.writeAhead_wf h heq)
    next => exact h
    next => exact h

section
variable {s : State} (h : Memory.wf s.dp.cells)
include h

theorem State.workAhead_wf (o : Op) (n v : Nat) {m : M Work} (hm : KeepsMemory m) : Memory.wf (s.workAhead o n v m).dp.cells := by
  unfold State.workAhead
  split
  next => exact h
  next => exact h
  next w d heq =>
    have hd := Data.writesAhead_wf (State.run_wf h hm heq) (s.envOf o) v w.writes
    dsimp only
    (repeat' split) <;> simp [h, hd]

theorem State.workOn_wf (o : Op) (i : Inst) : Memory.wf (s.workOn o i).dp.cells := by
  unfold State.workOn
  split
  next => exact h
  next => exact h
  next heq => simpa using State.run_wf h (writeAll_keeps ..) heq

theorem State.work1_wf (id n opcode : Nat) (ready : Op → Bool) {work : Op → M Work} (hm : ∀ o, KeepsMemory (work o)) :
    Memory.wf (s.work1 id n opcode ready work).dp.cells := by
  unfold State.work1
  split
  · exact h
  · split
    · exact h
    · split
      · exact h
      · split
        · exact h
        · exact h
        · exact State.workOn_wf h ..
        · split
          · exact State.workNow_wf h _ _ (hm _)
          · exact h
        · split
          · exact State.workAhead_wf h _ _ _ (hm _)
          · exact h

end

/-! ### Pages and tables (09) -/

section
variable {s : State} (h : Memory.wf s.dp.cells)
include h

@[simp] theorem State.dieWrite_wf (x : Nat) (bs : List Byte) : Memory.wf (s.dieWrite x bs).dp.cells := by
  unfold State.dieWrite
  split
  · exact h
  · exact Data.dieWrite_wf h ..

@[simp] theorem State.setHeader_wf (x p : Nat) (hd : Header) : Memory.wf (s.setHeader x p hd).dp.cells := by
  unfold State.setHeader
  split <;> simp [h]

@[simp] theorem State.updHeader_wf (x p : Nat) (f : Header → Header) : Memory.wf (s.updHeader x p f).dp.cells := by
  simp [State.updHeader, h]

@[simp] theorem State.retirePage_wf (x p : Nat) : Memory.wf (s.retirePage x p).dp.cells := by
  simp [State.retirePage, h]

@[simp] theorem State.unref_wf (x p : Nat) : Memory.wf (s.unref x p).dp.cells := by
  unfold State.unref
  dsimp only
  split <;> simp [h]

@[simp] theorem State.freeSlots_wf (b n : Nat) : Memory.wf (s.freeSlots b n).dp.cells := by
  unfold State.freeSlots
  split
  · exact h
  · dsimp only
    split <;> simp [h]

@[simp] theorem State.setEntry_wf (t i v : Nat) : Memory.wf (s.setEntry t i v).dp.cells := by
  simp [State.setEntry, h]

/-- A table that its entry no longer points to, given back. -/
@[simp] theorem State.cutTable_wf (t i v b n : Nat) : Memory.wf ((s.setEntry t i v).freeSlots b n).dp.cells := by
  simp [h]

@[simp] theorem State.clearLeaf_wf (c : Ctx) (j : Nat) : Memory.wf (s.clearLeaf c j).dp.cells := by
  unfold State.clearLeaf
  split
  · exact h
  · dsimp only
    split
    · simp [h]
    · split
      · exact State.cutTable_wf (State.setEntry_wf h ..) ..
      · exact State.cutTable_wf (State.cutTable_wf (State.setEntry_wf h ..) ..) ..

/-- The empty tables that one table of the level above points to, given back. -/
theorem State.freeEmptyLevel_wf (t : Nat) (slots : List Nat) : Memory.wf (slots.foldl (fun s i =>
    let e := s.entry t i
    if bit e 0 && !s.tableUsed (entryByte e) 32 then (s.setEntry t i 0).freeSlots (entryByte e) 1 else s) s).dp.cells := by
  refine State.foldl_wf h (fun s i h => ?_) _
  dsimp only
  split
  · exact State.cutTable_wf h ..
  · exact h

@[simp] theorem State.freeEmptyTables_wf (c : Ctx) : Memory.wf (s.freeEmptyTables c).dp.cells := by
  unfold State.freeEmptyTables
  refine State.foldl_wf h (fun s i h => ?_) _
  have hlevel (t : Nat) := State.freeEmptyLevel_wf h t (List.range 512)
  dsimp only at hlevel ⊢
  split
  · exact h
  · split
    · exact hlevel _
    · exact State.cutTable_wf (hlevel _) ..

@[simp] theorem State.unmap_wf (c : Ctx) (j : Nat) : Memory.wf (s.unmap c j).dp.cells := by
  unfold State.unmap
  dsimp only
  split <;> simp [h]

@[simp] theorem State.setNode_wf (x i : Nat) (n : Node) : Memory.wf (s.setNode x i n).dp.cells := by
  unfold State.setNode
  split <;> simp [h]

theorem State.dropTree_wf (x target : Nat) : Memory.wf (s.dropTree x target).dp.cells := by
  unfold State.dropTree
  refine State.foldl_wf h (fun s e h => ?_) _
  dsimp only
  (repeat' split) <;> simp [h]

theorem State.dropPages_wf (x target : Nat) (c : Ctx) (es : List (Nat × Nat)) (low : Option Nat) :
    Memory.wf (s.dropPages x target c es low).1.dp.cells := by
  induction es generalizing s low with
  | nil => exact h
  | cons e es ih =>
    unfold State.dropPages
    dsimp only
    (repeat' split)
    · exact h
    · exact h
    · exact h
    · exact ih (by simp [h]) _
    · exact ih (by simp [h]) _

theorem State.dropVictim_wf (x target id : Nat) (c : Ctx) : Memory.wf (s.dropVictim x target id c).dp.cells := by
  unfold State.dropVictim
  dsimp only
  split <;> simp [State.dropPages_wf h]

@[simp] theorem State.checkDrops_wf (id : Nat) : Memory.wf (s.checkDrops id).dp.cells := by
  unfold State.checkDrops
  dsimp only
  split
  · exact h
  · refine State.foldl_wf (State.dropTree_wf h ..) (fun s v h => ?_) _
    split
    · exact h
    · exact State.dropVictim_wf h ..

theorem State.evict_wf (c : Ctx) (k : Cand) : Memory.wf (s.evict c k).dp.cells := by
  unfold State.evict
  split
  · exact h
  · extract_lets t
    have hmask : Memory.wf t.dp.cells := by simp [t, h]
    (repeat' split) <;> simp [hmask]

theorem State.evictCtx_wf (id : Nat) (c : Ctx) : Memory.wf (s.evictCtx id c).dp.cells := by
  unfold State.evictCtx
  split
  · exact h
  · split
    · exact h
    · simpa using State.foldl_wf h (fun _ k h => State.evict_wf h c k) _

@[simp] theorem State.evictStack_wf (x : Nat) : Memory.wf (s.evictStack x).dp.cells := by
  refine State.foldl_wf h (fun s e h => ?_) _
  split
  · exact State.evictCtx_wf h ..
  · exact h

@[simp] theorem State.initPool_wf (x : Nat) : Memory.wf (s.initPool x).dp.cells := by
  unfold State.initPool
  extract_lets _ t u
  have hheaders : Memory.wf u.dp.cells := State.foldl_wf (s := t) h (fun _ p h => State.setHeader_wf h x p _) _
  split
  · exact State.foldl_wf hheaders (fun _ i h => State.dieWrite_wf h _ _) _
  · exact hheaders

theorem State.writePool_wf (x : Nat) (r : PoolReg) (v : Reg) : Memory.wf (s.writePool x r v).dp.cells := by
  unfold State.writePool
  split <;> simp [h]

theorem State.freePage_wf (x p : Nat) : Memory.wf (s.freePage x p).dp.cells := by
  unfold State.freePage
  dsimp only
  split <;> simp [h]

@[simp] theorem State.unreserve_wf (x n : Nat) : Memory.wf (s.unreserve x n).dp.cells :=
  State.foldl_wf h (fun _ p h => State.retirePage_wf h x p) _

@[simp] theorem State.freeTables_wf (c : Ctx) : Memory.wf (s.freeTables c).dp.cells := by
  unfold State.freeTables
  refine State.freeSlots_wf (State.foldl_wf h (fun s i2 h => ?_) _) ..
  extract_lets e2
  split
  · exact h
  · exact State.freeSlots_wf (State.foldl_wf h (fun s i1 h => by dsimp only; split <;> simp [h]) _) ..

@[simp] theorem State.newPage_wf (c : Ctx) (x p : Nat) (tokens : Bool) : Memory.wf (s.newPage c x p tokens).dp.cells := by
  unfold State.newPage
  split <;> simp [h]

@[simp] theorem State.reservePages_wf (x n : Nat) : Memory.wf (s.reservePages x n).dp.cells :=
  State.foldl_wf h (fun s p h => by simp [h]) _

@[simp] theorem State.trimPage_wf (c : Ctx) (y : Layout) : Memory.wf (s.trimPage c y).1.dp.cells := by
  unfold State.trimPage
  dsimp only
  (repeat' split) <;> simp [h]

@[simp] theorem State.afterTaking_wf (old : State) (id : Nat) : Memory.wf (s.afterTaking old id).dp.cells := by
  unfold State.afterTaking
  split <;> simp [h]

end

/-! ### Operations on sequences (09) -/

/-- An operation on a sequence whose next state, where it has one, holds memory in its canonical form. -/
def SeqEnd.Wf : SeqEnd → Prop
  | .waits => True
  | .fault s _ => Memory.wf s.dp.cells
  | .status s _ _ => Memory.wf s.dp.cells

section
variable {s : State} (h : Memory.wf s.dp.cells)
include h

theorem State.endSeq_wf {t : State} {o : Op} {result value : Nat} (heq : s.endSeq o result value = some t) :
    Memory.wf t.dp.cells := by
  unfold State.endSeq at heq
  extract_lets u st at heq
  have hcount : Memory.wf u.dp.cells := by
    unfold u
    split <;> simpa using h
  have hkeeps (n : Nat) : KeepsMemory (do
      let ws ← putBytes (u.envOf o) ⟨none, o.pin.toNat⟩ st (seqStatus result n value)
      writeAll (u.envOf o) ws) := .bind (putBytes_keeps ..) fun _ => writeAll_keeps ..
  split at heq
  · cases heq
    exact hcount
  · split at heq
    next => cases heq
    next hrun =>
      cases heq
      exact State.run_wf hcount (hkeeps 0) hrun
    next hrun =>
      cases heq
      simpa using State.run_wf hcount (hkeeps 0) hrun

theorem State.seqOp_wf (id opcode : Nat) {body : State → Op → SeqEnd} (hbody : ∀ o, (body s o).Wf) :
    Memory.wf (s.seqOp id opcode body).dp.cells := by
  unfold State.seqOp
  split
  next => exact h
  next o _ _ =>
    split
    · exact h
    · split
      next => exact h
      next heq =>
        have hfault : SeqEnd.Wf (.fault _ _) := heq ▸ hbody _
        simpa [SeqEnd.Wf] using hfault
      next s' r v heq =>
        have hstatus : SeqEnd.Wf (.status s' r v) := heq ▸ hbody _
        cases hend : s'.endSeq o r v with
        | none => exact h
        | some t => exact State.endSeq_wf hstatus hend

theorem State.onOpen_wf {o : Op} {body : Ctx → SeqEnd} (hbody : ∀ c, (body c).Wf) : (s.onOpen o body).Wf := by
  unfold State.onOpen
  split
  · exact h
  · exact hbody _

theorem State.onLayout_wf {o : Op} {body : Ctx → Layout → SeqEnd} (hbody : ∀ c y, (body c y).Wf) : (s.onLayout o body).Wf := by
  refine State.onOpen_wf h fun c => ?_
  split
  · exact h
  · exact hbody _ _

end

section
variable {k : Taking} (h : Memory.wf k.s.dp.cells)
include h

@[simp] theorem Taking.claim_wf (x p n i : Nat) : Memory.wf (k.claim x p n i).2.s.dp.cells := by
  simp [Taking.claim, h]

@[simp] theorem Taking.slots_wf (id n : Nat) : Memory.wf (k.slots id n).2.s.dp.cells := by
  unfold Taking.slots
  dsimp only
  split
  · exact Taking.claim_wf h ..
  · exact Taking.claim_wf (State.setHeader_wf (by simpa using h) ..) ..

@[simp] theorem Taking.table_wf (id : Nat) (c : Ctx) (j : Nat) : Memory.wf (k.table id c j).2.s.dp.cells := by
  have hlink {k : Taking} (h : Memory.wf k.s.dp.cells) (n t i v : Nat) :
      Memory.wf ((k.slots id n).2.s.setEntry t i v).dp.cells := State.setEntry_wf (Taking.slots_wf h ..) ..
  simp only [Taking.table]
  (repeat' split)
  · exact h
  · exact hlink h ..
  · exact hlink h ..
  · dsimp only
    refine hlink (k := ⟨_, _⟩) ?_ ..
    exact hlink h ..

theorem Taking.pages_wf (id : Nat) (c : Ctx) (tokens : Bool) (js : List Nat) : Memory.wf (k.pages id c tokens js).s.dp.cells := by
  induction js generalizing k with
  | nil => exact h
  | cons j js ih =>
    unfold Taking.pages
    split
    · exact ih h
    · have hpage : Memory.wf ((k.table id c j).2.page id).2.s.dp.cells := by simp [h]
      have hentry (x p t i v : Nat) := State.setEntry_wf (State.newPage_wf hpage c x p tokens) t i v
      simp [ih, hentry]

end

section
variable {s : State} (h : Memory.wf s.dp.cells)
include h

theorem openBody_wf (o : Op) : (openBody s o).Wf := by
  unfold openBody
  dsimp only
  split
  · exact h
  · split <;> simp [SeqEnd.Wf, h]

theorem closeBody_wf (o : Op) : (closeBody s o).Wf := by
  refine State.onOpen_wf h fun c => ?_
  have hpages (l : List (Nat × Nat)) : Memory.wf (l.foldl (fun s xp => s.unref xp.1 xp.2) s).dp.cells :=
    State.foldl_wf h (fun _ (xp : Nat × Nat) h => State.unref_wf h xp.1 xp.2) l
  simp [SeqEnd.Wf, hpages]

theorem State.appendAt_wf (c : Ctx) (y : Layout) (d : List Byte) (src : Sources) (i : Nat) :
    Memory.wf (s.appendAt c y d src i).dp.cells := by
  unfold State.appendAt
  extract_lets pos t rows tok
  split
  · exact h
  · extract_lets first u v w
    have hrows : Memory.wf u.dp.cells := by
      refine State.foldl_wf h (fun s r h => State.foldl_wf h (fun s l h => ?_) _) _
      exact Data.write_wf h ..
    have hheader : Memory.wf w.dp.cells := State.updHeader_wf (s := v) (by simpa [v] using hrows) ..
    split
    · exact State.dieWrite_wf (State.dieWrite_wf hheader ..) ..
    · exact State.dieWrite_wf hheader ..

theorem State.appendWith_wf (id : Nat) (d : List Byte) (c : Ctx) (y : Layout) (src : Sources) : (s.appendWith id d c y src).Wf := by
  unfold State.appendWith
  extract_lets t first end_
  split
  next => exact h
  next k u _ v _ =>
    have hpages : Memory.wf k.s.dp.cells := Taking.pages_wf (k := .mk s 0) h ..
    have hrows : Memory.wf u.dp.cells := State.foldl_wf hpages (fun _ i h => State.appendAt_wf h c y d src i) _
    have hset : Memory.wf v.dp.cells := hrows
    split
    · exact h
    · exact State.evictStack_wf (State.afterTaking_wf hset ..) _

theorem appendBody_wf (o : Op) : (appendBody s o).Wf := by
  refine State.onLayout_wf h fun c y => ?_
  split
  · exact h
  · split
    next => trivial
    next heq => exact State.run_wf h (appendRead_keeps ..) heq
    next heq => exact State.appendWith_wf (s := { s with dp := _ }) (State.run_wf h (appendRead_keeps ..) heq) ..

theorem truncateBody_wf (o : Op) : (truncateBody s o).Wf := by
  unfold truncateBody
  refine State.onLayout_wf h fun c y => ?_
  extract_lets fill length c' gone t
  have hgone : Memory.wf t.dp.cells := by
    unfold t
    exact State.foldl_wf h (fun _ (e : Nat × Nat) h => State.unmap_wf h c' e.1) _
  have htrim := State.trimPage_wf hgone c' y
  generalize t.trimPage c' y = trimmed at htrim ⊢
  obtain ⟨u, c''⟩ := trimmed
  change Memory.wf ((u.freeEmptyTables c'').recount (seqId o.desc) c'').dp.cells
  rw [State.recount_cells]
  exact State.freeEmptyTables_wf (s := u) htrim c''

theorem reserveBody_wf (o : Op) : (reserveBody s o).Wf := by
  refine State.onOpen_wf h fun c => ?_
  dsimp only
  split
  · exact h
  · refine State.afterTaking_wf ?_ ..
    split <;> simp [h]

theorem matchPages_wf (id : Nat) (c : Ctx) (y : Layout) (toks : List (List Byte)) (i parent : Nat) :
    Memory.wf (matchPages id c y toks i parent s).s.dp.cells := by
  induction toks generalizing i parent s with
  | nil => exact h
  | cons tok toks ih =>
    unfold matchPages
    dsimp only
    split
    next => simpa using h
    next => simpa using h
    next =>
      have htable := Taking.table_wf (k := .mk s 0) h id c i
      split
      · exact h
      · exact ih (by simpa using State.setNode_wf (State.updHeader_wf (State.setEntry_wf htable ..) ..) ..) _ _

theorem matchBody_wf (o : Op) : (matchBody s o).Wf := by
  refine State.onLayout_wf h fun c y => ?_
  split
  · exact h
  · dsimp only
    split
    next => trivial
    next heq => exact State.run_wf h (openRead_keeps ..) heq
    next d heq =>
      have hmatch (toks : List (List Byte)) : Memory.wf (matchPages (seqId o.desc) c y toks 0 0 { s with dp := d }).s.dp.cells :=
        matchPages_wf (s := { s with dp := d }) (State.run_wf h (openRead_keeps ..) heq) ..
      split
      · exact State.afterTaking_wf (by simpa using hmatch _) ..
      · exact State.afterTaking_wf (by simpa using hmatch _) ..

theorem State.insertNode_wf {t : State} {x : Nat} {n : Node} (heq : s.insertNode x n = some t) : Memory.wf t.dp.cells := by
  unfold State.insertNode at heq
  split at heq
  · cases heq
  · cases heq
    refine State.updHeader_wf (State.setNode_wf ?_ ..) ..
    split <;> simp [h]

theorem publishPages_wf (c : Ctx) (y : Layout) (fuel i parent done : Nat) :
    Memory.wf (publishPages c y fuel i parent done s).1.dp.cells := by
  induction fuel generalizing i parent done s with
  | zero => exact h
  | succ fuel ih =>
    unfold publishPages
    split
    · exact h
    · split
      · exact h
      · dsimp only
        split
        · exact h
        · split
          next => exact ih h ..
          next => exact h
          next =>
            split
            next => exact h
            next heq => exact ih (State.insertNode_wf h heq) ..

theorem publishBody_wf (o : Op) : (publishBody s o).Wf := State.onLayout_wf h fun c y => publishPages_wf h c y ..

theorem queryBody_wf (o : Op) : (queryBody s o).Wf := by
  refine State.onOpen_wf h fun c => ?_
  have hkeeps (e : Env) (a : Acc) (va : Nat) : KeepsMemory (do
      let ws ← putBytes e a va (ctxRecord (some c))
      writeAll e ws) := .bind (putBytes_keeps ..) fun _ => writeAll_keeps ..
  split
  next => trivial
  next heq => exact State.run_wf h (hkeeps ..) heq
  next heq => exact State.run_wf h (hkeeps ..) heq

theorem State.attendOp_wf (id opcode : Nat) : Memory.wf (s.attendOp id opcode).dp.cells := by
  unfold State.attendOp
  split
  · exact h
  · extract_lets d bass
    split
    · exact h
    · split
      next => exact h
      next => exact h
      next r fault dp heq =>
        extract_lets t homes u
        have htiles : Memory.wf t.dp.cells := by
          simpa [t] using State.run_wf h (.bind (overwriteRegion_keeps ..) fun _ => runBatch_keeps ..) heq
        have hevicted : Memory.wf u.dp.cells := by
          unfold u
          split
          · exact State.foldl_wf htiles (fun _ x h => State.evictStack_wf h x) _
          · exact htiles
        split <;> simpa using hevicted

end

end Sys2Proof.Machine
end

