-- ==== Sys2Proof/Proofs/HawserKeepsMemory.lean ====
section
/-!
PROOFS. Memory stays in its canonical form through Hawser: groups, steps, ferries, frames that are placed, paths.
-/

namespace Sys2Proof.Machine

section
variable {s : State} (h : Memory.wf s.dp.cells)
include h

/-! ### Steps of a group -/

theorem State.contributeStep_wf (o : Op) (r : List Byte) : Memory.wf (s.contributeStep o r).dp.cells := by
  unfold State.contributeStep
  dsimp only
  split
  next => exact h
  next heq =>
    simpa using State.run_wf h (.bind (reduceReads_keeps ..) fun _ => .bind (putPieces_keeps ..) fun _ => .pure _) heq
  next heq =>
    have hd := State.run_wf h (.bind (reduceReads_keeps ..) fun _ => .bind (putPieces_keeps ..) fun _ => .pure _) heq
    refine State.foldl_wf (by simpa using hd) (fun s c h => ?_) _
    (repeat' split) <;> simp [h]

theorem State.applyClose_wf (g : Nat) (r : List Byte) (c : CollStep) (k : Close) : Memory.wf (s.applyClose g r c k).dp.cells := by
  have hwork (dropped : Nat) : KeepsMemory (M.both (closeRecord s g r k)
      (match s.stepOp c with | none => pure () | some o => closeWork s o g r c k dropped)) := by
    refine M.both_keeps (closeRecord_keeps ..) ?_
    split
    · exact .pure _
    · exact closeWork_keeps ..
  unfold State.applyClose
  extract_lets out dropped
  split
  next => exact h
  next heq =>
    have hd := State.run_wf h (hwork _) heq
    dsimp only
    (repeat' split) <;> simpa using hd

@[simp] theorem State.tryApply_wf (g : Nat) (n : Word) : Memory.wf (s.tryApply g n).dp.cells := by
  unfold State.tryApply
  split
  · split
    · exact h
    · exact State.applyClose_wf h ..
  · exact h

theorem State.applyCloses_wf (g : Nat) : Memory.wf (s.applyCloses g).dp.cells :=
  State.foldl_wf h (fun _ c h => State.tryApply_wf h g c.1) _

@[simp] theorem State.closeStep_wf (g : Nat) (r : List Byte) (c : CollStep) : Memory.wf (s.closeStep g r c).dp.cells := by
  refine State.tryApply_wf (State.foldl_wf (by simpa using h) (fun s x h => ?_) _) ..
  dsimp only
  split <;> simp [h]

@[simp] theorem State.tryClose_wf (g : Nat) (n : Word) : Memory.wf (s.tryClose g n).dp.cells := by
  unfold State.tryClose
  dsimp only
  (repeat' split) <;> simp [h]

@[simp] theorem State.addReady_wf (g : Nat) (n : Word) (rank : Nat) : Memory.wf (s.addReady g n rank).dp.cells := by
  simp [State.addReady, h]

@[simp] theorem State.sendReady_wf (o : Op) (r : List Byte) (g : Nat) (n : Word) : Memory.wf (s.sendReady o r g n).dp.cells := by
  unfold State.sendReady
  dsimp only
  split <;> simp [h]

@[simp] theorem State.completeReduce_wf (o : Op) (g : Nat) (c : CollStep) : Memory.wf (s.completeReduce o g c).dp.cells := by
  unfold State.completeReduce
  split
  · exact h
  · dsimp only
    split
    next => exact h
    next heq => simpa using State.run_wf h (M.both_keeps (groupPut_keeps ..) (groupPut_keeps ..)) heq
    next heq => simpa using State.run_wf h (M.both_keeps (groupPut_keeps ..) (groupPut_keeps ..)) heq

@[simp] theorem State.settleReduce_wf (o : Op) : Memory.wf (s.settleReduce o).dp.cells := by
  unfold State.settleReduce
  extract_lets g n
  split
  · simpa using h
  · split
    next => exact h
    next => exact h
    next => simpa using h
    next r _ =>
      split
      next => exact h
      next =>
        extract_lets t u
        have hready : Memory.wf t.dp.cells := by
          unfold t
          split <;> simp [h]
        have happly : Memory.wf u.dp.cells := State.tryApply_wf hready ..
        split
        · split <;> simp [happly]
        · exact happly

/-! ### Ferries -/

theorem State.ferryFails_wf {t : State} {o : Op} {code : Nat} {f : Option (XfKind × Nat)} (heq : s.ferryFails o code f = some t) :
    Memory.wf t.dp.cells := by
  unfold State.ferryFails at heq
  split at heq
  next => cases heq
  next hrun =>
    have hd := State.run_wf h (.attempt (ferryPoison_keeps ..)) hrun
    cases heq
    split <;> simpa using hd

/-- A ferry that fails, or waits. -/
@[simp] theorem State.ferryFails_getD_wf {u : State} (hu : Memory.wf u.dp.cells) (o : Op) (code : Nat) (f : Option (XfKind × Nat)) :
    Memory.wf ((s.ferryFails o code f).getD u).dp.cells := by
  cases heq : s.ferryFails o code f with
  | none => exact hu
  | some t => exact State.ferryFails_wf h heq

theorem State.ferryEnds_wf {t : State} {o : Op} {f : Ferry} (heq : s.ferryEnds o f = some t) : Memory.wf t.dp.cells := by
  unfold State.ferryEnds at heq
  split at heq
  next => cases heq
  next hrun => exact State.ferryFails_wf (s := { s with dp := _ }) (State.run_wf h (ferryEndWork_keeps ..) hrun) heq
  next hrun =>
    cases heq
    simpa using State.run_wf h (ferryEndWork_keeps ..) hrun

theorem State.ferryOne_wf {t : State} {o : Op} {r : List Byte} {f : Ferry} (heq : s.ferryOne o r f = some t) :
    Memory.wf t.dp.cells := by
  have hread (e : Env) (a : Acc) (buf : Nat) : KeepsMemory (do
      let l ← readVirt e a buf
      readLines e a buf (Block.of l).lines) := .bind (readVirt_keeps ..) fun _ => readLines_keeps ..
  unfold State.ferryOne at heq
  dsimp only at heq
  split at heq
  · split at heq
    next => cases heq
    next hrun => exact State.ferryFails_wf (s := { s with dp := _ }) (State.run_wf h (ferryRound_keeps ..) hrun) heq
    next hrun =>
      cases heq
      simpa using State.run_wf h (ferryRound_keeps ..) hrun
  · split at heq
    · split at heq
      next => cases heq
      next hrun => exact State.ferryFails_wf (s := { s with dp := _ }) (State.run_wf h (hread ..) hrun) heq
      next hrun =>
        cases heq
        simpa using State.run_wf h (hread ..) hrun
    · split at heq
      · cases heq
        split <;> simpa using h
      · split at heq
        · exact State.ferryEnds_wf h heq
        · cases heq

theorem State.ferryRun_wf (o : Op) (r : List Byte) (fuel : Nat) : Memory.wf (s.ferryRun o r fuel).dp.cells := by
  induction fuel generalizing s with
  | zero => exact h
  | succ fuel ih =>
    unfold State.ferryRun
    split
    · exact h
    · split
      · exact h
      · split
        next => exact h
        next heq => exact ih (State.ferryOne_wf h heq)

@[simp] theorem State.settleFerry_wf (o : Op) : Memory.wf (s.settleFerry o).dp.cells := by
  unfold State.settleFerry
  split
  · exact State.ferryFails_getD_wf h h ..
  · split
    next => exact h
    next => exact h
    next => exact State.ferryFails_getD_wf h h ..
    next =>
      split
      · exact State.ferryFails_getD_wf h h ..
      · exact State.ferryRun_wf h ..

@[simp] theorem State.settleHawser_wf : Memory.wf s.settleHawser.dp.cells := by
  unfold State.settleHawser
  refine State.foldl_wf (State.foldl_wf h (fun _ g h => State.applyCloses_wf h g) _) (fun s o h => ?_) _
  (repeat' split) <;> simp [h]

@[simp] theorem State.startFerry_wf (o : Op) (r : List Byte) : Memory.wf (s.startFerry o r).dp.cells := by
  unfold State.startFerry
  refine State.settleHawser_wf ?_
  split <;> simpa using h

/-! ### Paths and frames -/

@[simp] theorem State.hawserOn_wf : Memory.wf s.hawserOn.dp.cells := by
  simp [State.hawserOn, h]

end

@[simp] theorem State.rxData_cells (s : State) (p : Nat) (f : HwFrame) (i : Nat) : (s.rxData p f i).dp.cells = s.dp.cells := by
  unfold State.rxData
  dsimp only
  (repeat' split) <;> simp

@[simp] theorem State.abandonContribs_cells (s : State) (i g : Nat) : (s.abandonContribs i g).dp.cells = s.dp.cells := by
  unfold State.abandonContribs
  split
  · rfl
  · split
    · rfl
    · refine foldl_cells _ (fun s c => ?_) _ _
      dsimp only
      split <;> simp

@[simp] theorem State.abandonBlocks_cells (s : State) (i g : Nat) : (s.abandonBlocks i g).dp.cells = s.dp.cells := by
  unfold State.abandonBlocks
  split
  · split
    · refine foldl_cells _ (fun s w => ?_) _ _
      dsimp only
      split <;> simp
    · rfl
  · rfl

@[simp] theorem State.abandon_cells (s : State) (i : Nat) : (s.abandon i).dp.cells = s.dp.cells := by
  simp [State.abandon]

@[simp] theorem State.rxSyncReq_cells (s : State) (p : Nat) (f : HwFrame) (i : Nat) : (s.rxSyncReq p f i).dp.cells = s.dp.cells := by
  unfold State.rxSyncReq
  dsimp only
  split <;> simp

section
variable {s : State} (h : Memory.wf s.dp.cells)
include h

@[simp] theorem State.portRetrain_wf (p : Nat) : Memory.wf (s.portRetrain p).dp.cells := by
  unfold State.portRetrain
  split <;> simp [h]

@[simp] theorem State.writePortCtl_wf (p : Nat) (v mask : Reg) : Memory.wf (s.writePortCtl p v mask).dp.cells := by
  unfold State.writePortCtl
  extract_lets t
  have henable : Memory.wf t.dp.cells := by
    unfold t
    (repeat' split) <;> simpa using h
  split <;> simp [henable]

theorem State.putLines_wf {t : State} {f : HwFrame} {k : Option XfKind} (heq : s.putLines f = some (t, k)) :
    Memory.wf t.dp.cells := by
  have hput (e : Env) (va : Nat) : KeepsMemory (M.attempt (putReceived e s.linkAcc va (receivedLines f))) :=
    .attempt (putReceived_keeps ..)
  unfold State.putLines at heq
  dsimp only at heq
  split at heq
  · cases heq
    exact h
  · split at heq
    next => cases heq
    next hrun => cases heq; exact State.run_wf h (hput ..) hrun
    next hrun => cases heq; exact State.run_wf h (hput ..) hrun
    next hrun => cases heq; exact State.run_wf h (hput ..) hrun

theorem State.placeContrib_wf {t : State} {i : Nat} {stats : Bool} {f : HwFrame} (heq : s.placeContrib i stats f = some t) :
    Memory.wf t.dp.cells := by
  unfold State.placeContrib at heq
  dsimp only at heq
  split at heq
  · cases heq
    simpa using h
  · split at heq
    · split at heq
      · cases heq
        simpa using h
      · split at heq
        next => cases heq
        next hrun =>
          cases heq
          simpa using State.run_wf h (putSlot_keeps ..) hrun
        next hrun =>
          have hd := State.run_wf h (putSlot_keeps ..) hrun
          cases heq
          split <;> simpa using hd
    · cases heq
      simpa using h

theorem State.lostBefore_wf {t : State} {g : Nat} {r : List Byte} {n : Word} {k : Close} (heq : s.lostBefore g r n k = some t) :
    Memory.wf t.dp.cells := by
  unfold State.lostBefore at heq
  split at heq
  · cases heq
    exact h
  · split at heq
    next => cases heq
    next hrun =>
      cases heq
      exact State.run_wf h (groupPut_keeps ..) hrun

theorem State.placeBlock_wf {t : State} {i : Nat} {f : HwFrame} (heq : s.placeBlock i f = some t) : Memory.wf t.dp.cells := by
  unfold State.placeBlock at heq
  dsimp only at heq
  split at heq
  · split at heq
    · cases heq
      simpa using h
    · split at heq
      · cases heq
        simpa using h
      · split at heq
        next => cases heq
        next hrun => exact State.ferryFails_wf (s := { s with dp := _ }) (State.run_wf h (putReceived_keeps ..) hrun) heq
        next hrun =>
          cases heq
          simpa using State.run_wf h (putReceived_keeps ..) hrun
  · cases heq
    simpa using h

end

end Sys2Proof.Machine
end

