-- ==== Sys2Proof/Proofs/PowerKeepsMemory.lean ====
section
/-!
PROOFS. Memory stays in its canonical form when descriptors are checked, run-ahead slots settle, domains come and go, the module
boots, restarts or goes down, and the host reaches memory; and while time passes.
-/

namespace Sys2Proof.Machine

theorem ite_wf {c : Prop} [Decidable c] {a b : State} (ha : Memory.wf a.dp.cells) (hb : Memory.wf b.dp.cells) :
    Memory.wf (if c then a else b).dp.cells := by
  split
  · exact ha
  · exact hb

/-! ### Launches and verdicts -/

section
variable {s : State} (h : Memory.wf s.dp.cells)
include h

theorem State.launch_wf {t : State} {q : Nat} {hd : Head} (heq : s.launch q hd = some t) : Memory.wf t.dp.cells := by
  have hchecks := (State.checks_keeps s q hd.desc).wf ⟨s.dp, false⟩ h
  unfold State.launch at heq
  generalize s.checks q hd.desc ⟨s.dp, false⟩ = answer at heq hchecks
  obtain ⟨r, io⟩ := answer
  dsimp only at heq hchecks
  split at heq
  · cases heq
  · split at heq
    · split at heq
      · cases heq
      · cases heq
        simpa using hchecks
    · split at heq
      · cases heq
      · cases heq
        simpa using hchecks

@[simp] theorem State.launch_getD_wf {u : State} (hu : Memory.wf u.dp.cells) (q : Nat) (hd : Head) :
    Memory.wf ((s.launch q hd).getD u).dp.cells := by
  cases heq : s.launch q hd with
  | none => exact hu
  | some t => exact State.launch_wf h heq

theorem State.aheadLaunch_wf {t : State} {q : Nat} {hd : Head} {v : Nat} (heq : s.aheadLaunch q hd v = some t) :
    Memory.wf t.dp.cells := by
  have hchecks := (State.checks_keeps s q hd.desc).wf ⟨s.dp, false⟩ h
  unfold State.aheadLaunch at heq
  split at heq
  next hrun =>
    rw [hrun] at hchecks
    split at heq
    · cases heq
    · cases heq
      simpa using hchecks
  next => cases heq

theorem State.dispatchStep_wf (q : Nat) : Memory.wf (s.dispatchStep q).dp.cells := by
  unfold State.dispatchStep
  split
  · exact h
  next hd _ =>
    split
    · exact h
    · split
      next => exact State.launch_getD_wf h h ..
      next b code _ =>
        split
        · exact State.launch_getD_wf h h ..
        · have hcourses : Memory.wf (s.changeCourses b code).1.dp.cells := by simpa using h
          split
          next heq =>
            rw [heq] at hcourses
            exact State.launch_getD_wf hcourses h ..
          next heq =>
            rw [heq] at hcourses
            exact hcourses

theorem State.aheadStep_wf (q : Nat) : Memory.wf (s.aheadStep q).dp.cells := by
  unfold State.aheadStep
  split
  · exact h
  next hd _ =>
    split
    · exact h
    next v _ =>
      split
      · exact h
      · split
        next => exact h
        next heq =>
          split
          next => exact State.aheadLaunch_wf h heq
          next b code _ =>
            have hcourses : Memory.wf (s.changeCourses b code).1.dp.cells := by simpa using h
            split
            next s' hchange =>
              rw [hchange] at hcourses
              cases hlaunch : s'.aheadLaunch q hd v with
              | none => exact h
              | some t => exact State.aheadLaunch_wf hcourses hlaunch
            next hchange =>
              rw [hchange] at hcourses
              exact hcourses

theorem State.commitInst_wf (o : Op) (i : Inst) : Memory.wf (s.commitInst o i).dp.cells := by
  unfold State.commitInst
  split <;> simp [h, State.applyEffects_wf h]

theorem State.commitOp_wf (o : Op) : Memory.wf (s.commitOp o).dp.cells :=
  State.foldl_wf (by simpa using h) (fun _ i h => State.commitInst_wf h o i) _

theorem State.commitSlot_wf (v : Nat) : Memory.wf (s.commitSlot v).dp.cells := by
  have hfold (d : Data) (hd : Memory.wf d.cells) (l : List Op) : Memory.wf (l.foldl State.commitOp { s with dp := d }).dp.cells :=
    State.foldl_wf hd (fun _ o h => State.commitOp_wf h o) l
  simp [State.commitSlot, hfold (s.dp.unmark v) h]

theorem State.squashSlot_wf (v : Nat) : Memory.wf (s.squashSlot v).dp.cells := by
  simp [State.squashSlot, Data.rollBack_wf h]

@[simp] theorem State.giveVerdict_wf (o : Op) (rerun : Bool) (why : Nat) : Memory.wf (s.giveVerdict o rerun why).dp.cells := by
  unfold State.giveVerdict
  dsimp only
  split <;> simp [State.squashSlot_wf h, State.commitSlot_wf h]

end

/-! ### Domains -/

theorem Data.clusterOn_wf {d : Data} (h : Memory.wf d.cells) (x : Nat) : Memory.wf (d.clusterOn x).cells :=
  Data.foldl_wf h (fun _ _ hd => Memory.wf_erase _ _ _ hd) _

section
variable {s : State} (h : Memory.wf s.dp.cells)
include h

theorem State.clusterOn_wf (x : Nat) (seeds : Bool) : Memory.wf (s.clusterOn x seeds).dp.cells := by
  unfold State.clusterOn
  dsimp only
  split <;> simpa using Data.clusterOn_wf h x

theorem State.stackUp_wf (x : Nat) : Memory.wf (s.stackUp x).dp.cells := by
  unfold State.stackUp
  rw [State.emptyLanes_cells]
  exact State.initPool_wf (Memory.wf_erase _ _ _ h) x

@[simp] theorem State.comeOn_wf (x : Nat) (seeds : Bool) : Memory.wf (s.comeOn x seeds).dp.cells := by
  have hdom {f : Domain → Domain} : Memory.wf (s.updDom x f).dp.cells := by simpa using h
  unfold State.comeOn
  rw [State.deliverWaiting_cells]
  split
  · exact State.stackUp_wf hdom _
  · split
    · exact hdom
    · exact State.clusterOn_wf hdom ..

@[simp] theorem State.endDomWait_wf (x : Nat) (seeds : Bool) : Memory.wf (s.endDomWait x seeds).dp.cells := by
  unfold State.endDomWait
  dsimp only
  split <;> simp [h]

@[simp] theorem State.noEntropyOp_wf (id : Nat) : Memory.wf (s.noEntropyOp id).dp.cells := by
  unfold State.noEntropyOp
  (repeat' split) <;> simp [h]

/-! ### The module as a whole -/

@[simp] theorem State.shutdown_wf (c : Shutdown) : Memory.wf (s.shutdown c).dp.cells := by
  unfold State.shutdown
  split
  · exact h
  · rfl

@[simp] theorem State.moduleReset_wf : Memory.wf s.moduleReset.dp.cells := Memory.wf_filter _ _ h

@[simp] theorem State.restart_wf : Memory.wf s.restart.dp.cells := State.moduleReset_wf h

@[simp] theorem State.beginDropout_wf (mean : Word) : Memory.wf (s.beginDropout mean).dp.cells := by
  unfold State.beginDropout
  split
  · exact h
  · split
    · simpa using h
    · refine State.shutdown_wf ?_ _
      dsimp only
      split <;> simpa using h

@[simp] theorem State.trip_wf (die : Nat) (t : Word) : Memory.wf (s.trip die t).dp.cells := by
  unfold State.trip
  split <;> simp [h]

theorem State.readOne_wf (r : Nat × Word) : Memory.wf (s.readOne r).dp.cells := by
  unfold State.readOne
  dsimp only
  (repeat' split) <;> simp [h]

/-! ### Stages of boot -/

theorem State.clustersOn_wf : Memory.wf s.clustersOn.dp.cells := by
  unfold State.clustersOn
  exact State.foldl_wf h (fun _ x h => State.comeOn_wf h x false) _

theorem State.powerStage_wf : Memory.wf s.powerStage.dp.cells := by
  unfold State.powerStage
  rw [State.meshUp_cells, foldl_cells _ State.lockRoot_cells]
  exact State.clustersOn_wf h

theorem State.stackStage_wf : Memory.wf s.stackStage.dp.cells := by
  unfold State.stackStage
  refine State.foldl_wf h (fun s x h => ?_) _
  split <;> simp [h]

theorem State.loadStage_wf (kind : Nat) {f : State → List Byte → State}
    (hf : ∀ s o, Memory.wf s.dp.cells → Memory.wf (f s o).dp.cells) : Memory.wf (s.loadStage kind f).dp.cells := by
  have hload : Memory.wf (s.loadObject kind).1.dp.cells := by simpa using h
  unfold State.loadStage
  split
  next heq =>
    rw [heq] at hload
    exact hf _ _ (by simpa using hload)
  next heq =>
    rw [heq] at hload
    simpa using hload

theorem State.fabricStage_wf (bad : List Nat) : Memory.wf (s.fabricStage bad).dp.cells := by
  unfold State.fabricStage
  split
  · exact h
  · exact State.loadStage_wf h _ fun s _ h => by simpa using State.stackStage_wf h

theorem State.stageDone_wf (b : BootFindings) : Memory.wf (s.stageDone b).dp.cells := by
  unfold State.stageDone
  split
  next => split <;> simpa using h
  next => split <;> simpa using h
  next =>
    split
    · exact State.loadStage_wf (by simpa using h) _ fun _ _ h => by simpa using h
    · simpa using h
  next => exact State.loadStage_wf h _ fun _ _ h => by simpa using h
  next => exact State.loadStage_wf h _ fun _ _ h => by simpa using h
  next =>
    split
    · simpa using State.powerStage_wf h
    · exact h
  next =>
    split
    · exact State.fabricStage_wf h _
    · exact h
  next => exact h

/-! ### Accesses of the host -/

end

theorem bar4Lines_wf {d : Data} (h : Memory.wf d.cells) (e : Env) (x len : Nat) (ls : List Nat) :
    Memory.wf (bar4Lines e x len ls d).2.cells := by
  induction ls generalizing d with
  | nil => exact h
  | cons l ls ih => exact ih (Data.readOver_wf h e l)

theorem Data.bar4Line_wf {d : Data} (h : Memory.wf d.cells) (e : Env) (x : Nat) (bytes : List Byte) (poisoned : Bool) (l : Nat) :
    Memory.wf (d.bar4Line e x bytes poisoned l).cells := by
  unfold Data.bar4Line
  dsimp only
  split <;> exact Data.write_wf h ..

section
variable {s : State} (h : Memory.wf s.dp.cells)
include h

theorem State.readWindow_wf (off len : Nat) : Memory.wf (s.readWindow off len).dp.cells := by
  unfold State.readWindow
  dsimp only
  split
  · exact h
  · split
    · simpa using h
    · exact bar4Lines_wf h ..

theorem State.writeWindow_wf (off : Nat) (bytes : List Byte) (poisoned : Bool) :
    Memory.wf (s.writeWindow off bytes poisoned).dp.cells := by
  have hlines (ls : List Nat) : Memory.wf (ls.foldl (fun d l => d.bar4Line (s.env 0) off bytes poisoned l) s.dp).cells :=
    Data.foldl_wf h (fun _ l hd => Data.bar4Line_wf hd _ off bytes poisoned l) ls
  unfold State.writeWindow
  dsimp only
  (repeat' split) <;> simp [h, hlines]

theorem State.readSide_wf : Memory.wf s.readSide.dp.cells := by
  unfold State.readSide State.sideValue
  split
  · exact h
  · split
    · exact h
    · exact Data.readOver_wf h ..

@[simp] theorem State.writeSide_wf (v mask : Reg) : Memory.wf (s.writeSide v mask).dp.cells := by
  unfold State.writeSide
  split
  · exact h
  · split
    next => exact h
    next => simpa using h
    next =>
      have hread (l : Nat) := Data.readLine_wf h (s.env 0) l
      dsimp only
      split
      · simpa using hread _
      · exact Data.storeLine_wf (hread _) ..

theorem State.writeMemory_wf (off : Nat) (v mask : Reg) : Memory.wf (s.writeMemory off v mask).dp.cells := by
  unfold State.writeMemory
  (repeat' split) <;> simp [h]

theorem State.writeSeq_wf (off : Nat) (v mask : Reg) : Memory.wf (s.writeSeq off v mask).dp.cells := by
  unfold State.writeSeq
  dsimp only
  (repeat' split) <;> simp [h, State.writePool_wf h]

theorem State.writeBar0_wf (off : Nat) (v mask : Reg) : Memory.wf (s.writeBar0 off v mask).dp.cells := by
  unfold State.writeBar0
  refine ite_wf (ite_wf (by simpa using h) h) (ite_wf h ?_)
  split
  · simpa using h
  · simpa using h
  · exact ite_wf (by simpa using h) h
  · simpa using h
  · exact ite_wf (by simpa using h) (ite_wf (by simpa using h) (ite_wf (by simpa using h) (ite_wf (ite_wf h h) (ite_wf h
      (ite_wf (by simpa using h) (ite_wf (State.writeMemory_wf h ..) (ite_wf (State.writeSeq_wf h ..)
        (ite_wf (ite_wf (State.writePortCtl_wf h ..) h) (ite_wf (by simpa using h) (ite_wf (by simpa using h) h))))))))))

theorem State.writeRegister_wf (b : Bar) (off size : Nat) (v : Reg) : Memory.wf (s.writeRegister b off size v).dp.cells := by
  unfold State.writeRegister
  dsimp only
  (repeat' split) <;> simp [h, State.writeBar0_wf h]

theorem State.doAccess_wf (a : HostAccess) : Memory.wf (s.doAccess a).dp.cells := by
  cases a with
  | read off len => exact State.readWindow_wf h off len
  | write off bytes poisoned => exact State.writeWindow_wf h off bytes poisoned
  | sideRead => exact State.readSide_wf h
  | register b off size v => exact State.writeRegister_wf h b off size v
  | doorbell q t => simpa [State.doAccess] using h
  | mirrorRead => simpa [State.doAccess] using h

@[simp] theorem State.access_wf (a : HostAccess) : Memory.wf (s.access a).dp.cells := by
  unfold State.access
  split
  · simpa using h
  · exact State.doAccess_wf h a

theorem State.settleHeld_wf : Memory.wf s.settleHeld.dp.cells := by
  unfold State.settleHeld
  refine State.foldl_wf ?_ (fun _ a h => State.access_wf h a) _
  exact h

/-! ### Time -/

theorem State.tick_wf : Memory.wf s.tick.dp.cells := by
  unfold State.tick
  split
  · exact h
  · dsimp only
    rw [State.watchSlip_cells]
    refine State.settleHeld_wf ?_
    simpa using h

end

end Sys2Proof.Machine
end

