-- ==== Sys2Proof/Proofs/CommandsKeepMemory.lean ====
section
/-!
PROOFS. Every command, and every nanosecond, leaves memory in its canonical form (08 R245, R247).
-/

namespace Sys2Proof.Machine

/-- Whatever next state an outcome answers, its memory is canonical. -/
def Out.Wf (r : Out) : Prop := ∀ t, r = .next t → Memory.wf t.dp.cells

theorem next_wf {t : State} (h : Memory.wf t.dp.cells) : Out.Wf (.next t) := fun _ e => by cases e; exact h

theorem guarded_wf {t : State} (h : Memory.wf t.dp.cells) {c : Bool} : Out.Wf (guarded c t) := by
  unfold guarded
  split
  · exact next_wf h
  · exact fun _ e => nomatch e

theorem Data.scrubLine_wf {d : Data} (h : Memory.wf d.cells) (e : Env) (l : Nat) : Memory.wf (d.scrubLine e l).cells := by
  unfold Data.scrubLine
  dsimp only
  split
  · simpa using Data.storeLine_wf h ..
  · exact Data.contain_wf h ..

section
variable {s : State} (h : Memory.wf s.dp.cells)
include h

/-! ### Fabrics, stow, memory, random numbers, context -/

@[simp] theorem State.faultSweep_wf (id n : Nat) (cause : SweepFault) : Memory.wf (s.faultSweep id n cause).dp.cells :=
  State.work1_wf h _ _ _ _ fun _ => sweepPoison_keeps ..

theorem execPush_wf (id : Nat) : Out.Wf (execPush id s) := by
  refine next_wf ?_
  split
  · exact h
  · dsimp only
    split
    · simpa using h
    · refine State.perform_wf h (pushWork_keeps ..) _ fun s p h => ?_
      (repeat' split) <;> simpa using h

theorem execPop_wf (id : Nat) : Out.Wf (execPop id s) := by
  refine next_wf ?_
  split
  · exact h
  · refine State.perform_wf h (popWork_keeps ..) _ fun s p h => ?_
    split <;> simpa using h

theorem execPeek_wf (id : Nat) : Out.Wf (execPeek id s) := by
  refine next_wf ?_
  split
  · exact h
  · exact State.perform_wf h (peekWork_keeps ..) _ fun s p h => by simpa using h

theorem execGate_wf (id : Nat) : Out.Wf (execGate id s) := by
  refine next_wf ?_
  split
  · exact h
  · dsimp only
    split
    next => exact h
    next heq => simpa using State.run_wf h (gateWork_keeps ..) heq
    next heq => simpa using State.run_wf h (gateWork_keeps ..) heq

theorem State.landFails_wf (o : Op) (code va : Nat) : Memory.wf (s.landFails o code va).dp.cells := by
  unfold State.landFails
  split
  next => exact h
  next heq => simpa using State.run_wf h (landPoison_keeps ..) heq

theorem execLand_wf (id : Nat) (reply : HostReply) : Out.Wf (execLand id reply s) := by
  refine next_wf ?_
  split
  next => exact h
  next =>
    split
    next => exact h
    next => exact State.landFails_wf h ..
    next =>
      split
      next => exact h
      next heq => simpa using State.run_wf h (landWork_keeps ..) heq
      next heq =>
        have hd := State.run_wf h (landWork_keeps ..) heq
        split
        next => exact h
        next hpoison => simpa using State.run_wf (by simpa using hd) (landPoison_keeps ..) hpoison
    next => exact State.landFails_wf h ..
    next => exact State.landFails_wf h ..
    next => exact State.landFails_wf h ..
    next => exact State.landFails_wf h ..

theorem execExportShard_wf (id : Nat) : Out.Wf (execExportShard id s) := by
  refine next_wf ?_
  split
  next => exact h
  next =>
    split
    next => exact h
    next => simpa using h
    next =>
      split
      next => exact h
      next heq => simpa using State.run_wf h (exportSections_keeps ..) heq
      next heq =>
        have hd := State.run_wf h (exportSections_keeps ..) heq
        dsimp only
        split <;> simpa using hd

theorem execStorePte_wf (id : Nat) : Out.Wf (execStorePte id s) := by
  refine next_wf ?_
  split
  · exact h
  · split
    · exact h
    · exact State.perform_wf h (storePteWork_keeps ..) _ fun s _ h => by simpa using h

theorem execFill_wf (id : Nat) : Out.Wf (execFill id s) := by
  have hfill (e : Env) (a : Acc) (va : Nat) (ls : List LineOut) : KeepsMemory (do
      let ws ← putLines e a va ls false
      writeAll e ws) := .bind (putLines_keeps ..) fun _ => writeAll_keeps ..
  have hpoison (e : Env) (a : Acc) (va n : Nat) : KeepsMemory (do
      let ws ← poisonZero e a va n
      writeAll e ws) := .bind (poisonZero_keeps ..) fun _ => writeAll_keeps ..
  refine next_wf ?_
  split
  next => exact h
  next =>
    dsimp only
    split
    next => exact h
    next heq => simpa using State.run_wf h (hfill ..) heq
    next heq =>
      have hd := State.run_wf h (hfill ..) heq
      split
      next => exact h
      next hp => simpa using State.run_wf (by simpa using hd) (hpoison ..) hp

theorem execScrub_wf (l : Nat) : Out.Wf (execScrub l s) := by
  refine guarded_wf ?_
  split
  · exact Data.scrubLine_wf h ..
  · exact h

theorem execSave_wf (id : Nat) : Out.Wf (execSave id s) := by
  refine next_wf ?_
  split
  · exact h
  · exact State.perform_wf h (.bind (putBytes_keeps ..) fun _ => writeAll_keeps ..) _ fun s _ h => by simpa using h

theorem execRestore_wf (id : Nat) : Out.Wf (execRestore id s) := by
  refine next_wf ?_
  split
  next => exact h
  next =>
    split
    next => exact h
    next heq => simpa using State.run_wf h (openRead_keeps ..) heq
    next heq =>
      have hd := State.run_wf h (openRead_keeps ..) heq
      dsimp only
      split <;> simp [h, hd]

theorem execCtxSave_wf (id : Nat) : Out.Wf (execCtxSave id s) := by
  have hkeeps (e : Env) (a : Acc) (va : Nat) (bs : List Byte) : KeepsMemory (do
      let ws ← putBytes e a va bs
      writeAll e ws) := .bind (putBytes_keeps ..) fun _ => writeAll_keeps ..
  refine next_wf ?_
  split
  · exact h
  · dsimp only
    refine State.perform_wf h ?_ _ ?_
    · exact hkeeps ..
    · exact fun s _ h => by simpa using h

theorem execCtxRestore_wf (id : Nat) : Out.Wf (execCtxRestore id s) := by
  have hkeeps (e : Env) (a : Acc) (va n st : Nat) (hd : List Byte) (status : List Byte → List Byte) : KeepsMemory (do
      let rest ← openRead e a va n
      if st = 0 then pure () else do
        let ws ← putBytes e a st (status rest)
        writeAll e ws
      pure (hd ++ rest)) :=
    .bind (openRead_keeps ..) fun _ =>
      .ite (.pure _) (.bind (putBytes_keeps ..) fun _ => .bind (writeAll_keeps ..) fun _ => .pure _)
  refine next_wf ?_
  split
  next => exact h
  next =>
    dsimp only
    split
    next => exact h
    next heq => simpa using State.run_wf h (hkeeps ..) heq
    next heq =>
      have hd := State.run_wf h (hkeeps ..) heq
      split <;> simp [h, hd]

theorem execSample_wf (id : Nat) : Out.Wf (execSample id s) := by
  refine next_wf ?_
  split
  · exact h
  · split
    · simpa using h
    · exact State.perform_wf h (sampleWork_keeps ..) _ fun s _ h => by simpa using h

theorem execCheck_wf (id : Nat) : Out.Wf (execCheck id s) := by
  refine next_wf ?_
  split
  next => exact h
  next =>
    dsimp only
    split
    next => exact h
    next heq =>
      have hd := State.run_wf h (recordSums_keeps ..) heq
      simp [hd]
    next heq =>
      have hd := State.run_wf h (recordSums_keeps ..) heq
      split <;> simp [hd]

/-! ### Hawser -/

theorem execPut_wf (id : Nat) : Out.Wf (execPut id s) := by
  refine next_wf ?_
  split
  next => exact h
  next =>
    split
    · exact h
    · dsimp only
      split
      · simpa using h
      · split
        next => exact h
        next heq => simpa using State.run_wf h (readLines_keeps ..) heq
        next heq => simpa using State.run_wf h (readLines_keeps ..) heq

theorem execAllreduce_wf (id : Nat) : Out.Wf (execAllreduce id s) := by
  refine next_wf ?_
  (repeat' split) <;> simp [h, State.contributeStep_wf h]

theorem execFerry_wf (id : Nat) : Out.Wf (execFerry id s) := by
  refine next_wf ?_
  split
  next => exact h
  next =>
    split
    · simp [h]
    · split
      · exact h
      · split
        next => exact h
        next => exact h
        next => exact State.ferryFails_getD_wf h h ..
        next =>
          dsimp only
          split
          next => exact h
          next heq => exact State.ferryFails_getD_wf (s := { s with dp := _ }) (State.run_wf h (readBytes_keeps ..) heq) h ..
          next heq =>
            have hd := State.run_wf h (readBytes_keeps ..) heq
            split
            next => exact h
            next hpack =>
              have hpacked := State.run_wf (s := { s with dp := _ }) hd (packBlock_keeps ..) hpack
              exact State.ferryFails_getD_wf (s := { s with dp := _ }) hpacked h ..
            next hpack =>
              simp [State.run_wf (s := { s with dp := _ }) hd (packBlock_keeps ..) hpack]

theorem execRegroup_wf (id : Nat) : Out.Wf (execRegroup id s) := by
  refine next_wf ?_
  split
  next => exact h
  next =>
    dsimp only
    split
    · exact h
    · have hkeeps (e : Env) (a : Acc) (v1 v2 v3 : Nat) (b1 b2 b3 : List Byte) : KeepsMemory (do
          let w1 ← putBytes e a v1 b1
          let w2 ← putBytes e a v2 b2
          let w3 ← putBytes e a v3 b3
          writeAll e (w1 ++ w2 ++ w3)) :=
        .bind (putBytes_keeps ..) fun _ => .bind (putBytes_keeps ..) fun _ => .bind (putBytes_keeps ..) fun _ => writeAll_keeps ..
      split
      next => exact h
      next heq => simpa using State.run_wf h (hkeeps ..) heq
      next heq => simpa using State.run_wf h (hkeeps ..) heq

theorem State.placeFrame_wf {i p : Nat} {kind : BitVec 8} {body : State → HwFrame → Option State}
    (hbody : ∀ f t, body s f = some t → Memory.wf t.dp.cells) : Out.Wf (s.placeFrame i p kind body) := by
  refine guarded_wf ?_
  split
  · exact h
  · split
    · exact h
    · rename_i f _ _ t e
      have ht : Memory.wf t.dp.cells := by
        split at e
        · cases e
        · exact hbody f t e
      simp [ht]

theorem State.onFrame_wf {p : Nat} {f : HwFrame} {type : BitVec 4} {body : State → Nat → State}
    (hbody : ∀ s i, Memory.wf s.dp.cells → Memory.wf (body s i).dp.cells) : Memory.wf (s.onFrame p f type body).dp.cells := by
  unfold State.onFrame
  (repeat' split) <;> simp [h, hbody]

theorem execPutFrame_wf (i p : Nat) : Out.Wf (execPutFrame i p s) := by
  refine State.placeFrame_wf h fun f t e => ?_
  split at e
  · cases e
  · rename_i eput
    cases e
    simpa using State.putLines_wf h eput
  · rename_i eput
    cases e
    simpa using State.putLines_wf h eput

theorem execContribFrame_wf (i p : Nat) : Out.Wf (execContribFrame i p s) :=
  State.placeFrame_wf h fun _ _ => State.placeContrib_wf h

theorem execStatsFrame_wf (i p : Nat) : Out.Wf (execStatsFrame i p s) :=
  State.placeFrame_wf h fun _ _ => State.placeContrib_wf h

theorem execFerryBlock_wf (i p : Nat) : Out.Wf (execFerryBlock i p s) :=
  State.placeFrame_wf h fun _ _ => State.placeBlock_wf h

theorem execReadyFrame_wf (i p : Nat) : Out.Wf (execReadyFrame i p s) := by
  refine State.placeFrame_wf h fun f t e => ?_
  cases e
  (repeat' split) <;> simp [h]

theorem execCloseFrame_wf (i p : Nat) : Out.Wf (execCloseFrame i p s) := by
  refine State.placeFrame_wf h fun f t e => ?_
  dsimp only at e
  split at e
  · cases e
    simpa using h
  · split at e
    · cases e
      exact h
    · split at e
      · cases e
      · rename_i elost
        cases e
        exact State.tryApply_wf (by simpa using State.lostBefore_wf h elost) ..

theorem execFerryFree_wf (i p : Nat) : Out.Wf (execFerryFree i p s) := by
  refine State.placeFrame_wf h fun f t e => ?_
  cases e
  (repeat' split) <;> simp [h]

theorem execCollTimeout_wf (id : Nat) : Out.Wf (execCollTimeout id s) := by
  refine next_wf ?_
  split
  next => exact h
  next =>
    dsimp only
    split
    next => exact h
    next =>
      split
      · exact h
      · split
        next => exact h
        next =>
          split
          · exact h
          · split
            next => exact h
            next heq => simp [State.run_wf h (M.both_keeps (poisonResults_keeps ..) (groupPut_keeps ..)) heq]
            next heq => simp [State.run_wf h (M.both_keeps (poisonResults_keeps ..) (groupPut_keeps ..)) heq]

theorem execFerryWaitTimeout_wf (id : Nat) : Out.Wf (execFerryWaitTimeout id s) := by
  refine next_wf ?_
  split
  next => exact h
  next =>
    split
    · split
      next => exact h
      next heq => exact State.hawserOn_wf (State.ferryFails_wf h heq)
    · exact h

theorem execRtoExpiry_wf (i p : Nat) : Out.Wf (execRtoExpiry i p s) := by
  refine guarded_wf ?_
  split
  · exact h
  · extract_lets t x
    have ht : Memory.wf t.dp.cells := by
      unfold t
      split <;> simpa using h
    (repeat' split) <;> simp [ht]

/-! ### The module -/

theorem execEntropyReady_wf : Out.Wf (execEntropyReady s) := by
  refine next_wf ?_
  split
  · exact h
  · have hdomains (t : State) (ht : t.dp.cells = s.dp.cells) (l : List Nat) :
        Memory.wf (l.foldl (fun s x => s.endDomWait x true) t).dp.cells :=
      State.foldl_wf (ht.symm ▸ h) (fun _ x h => State.endDomWait_wf h x true) l
    dsimp only
    split
    next => rw [State.answerSpdm_cells]; exact hdomains _ (by split <;> rfl) _
    next => exact hdomains _ (by split <;> rfl) _

theorem execInputOvervoltage_wf (mean : Word) : Out.Wf (execInputOvervoltage mean s) := by
  refine next_wf ?_
  dsimp only
  split
  · exact h
  · refine State.shutdown_wf ?_ _
    (repeat' split) <;> simpa using h

theorem execThermalRead_wf (t : Temperatures) : Out.Wf (execThermalRead t s) := by
  refine next_wf ?_
  split
  · exact h
  · extract_lets _ t u
    exact State.foldl_wf (s := t) h (fun _ r h => State.readOne_wf h r) _

theorem execPause_wf (p : Nat) (priority : Option (BitVec 3)) (ns : Nat) : Out.Wf (execPause p priority ns s) := by
  refine guarded_wf ?_
  dsimp only
  (repeat' split) <;> simp [h]

theorem execBroadcastReadRsp_wf : Out.Wf (execBroadcastReadRsp s) := by
  refine next_wf ?_
  dsimp only
  (repeat' split) <;> simp [h]

theorem execReferenceRestored_wf : Out.Wf (execReferenceRestored s) := by
  refine next_wf ?_
  dsimp only
  split
  · exact h
  · split
    · exact State.restart_wf h
    · exact h

theorem execSupplyRestart_wf : Out.Wf (execSupplyRestart s) := by
  refine next_wf ?_
  split
  · exact State.restart_wf h
  · exact h

theorem execModuleReset_wf (c : ResetCause) : Out.Wf (execModuleReset c s) := by
  refine next_wf ?_
  cases c with
  | powerUp => simp [Memory.wf]
  | modRstN => exact State.moduleReset_wf h
  | restart =>
    dsimp only
    split
    · exact State.restart_wf h
    · exact h

theorem execBootStageComplete_wf (b : BootFindings) : Out.Wf (execBootStageComplete b s) := by
  refine next_wf ?_
  split
  · exact h
  · exact State.stageDone_wf h b

/-! ### Every command -/

/-- Any command: most reach no cell or store lines; operations end as their work does; domains, shutdowns and resets take cells away. -/
theorem exec_wf (i : Instr) : Out.Wf (exec i s) := by
  cases i with
  | doorbellWrite | headerCheck | queueEnable | queueDisable | resume | cntAdd | cntSet | faultedClear | evtClear
  | laneConfigWrite | lossClear | checkArm | descSkipped | runaheadCfgWrite
  | peerReset | portEnable | portDisable | retrain | pauseTimeExpiry | mbxWordWrite | send | ackMessage | acquire | lockRelease
  | msixUnmask | domainReqOn | domainReqSlack | domainReqOff | retrainInterface
  | descriptorFetch | fetchAbort | stringReseed | ackTimer | firstEstablishmentTimeout
  | trainingDone | trainingTimeout | downTimeout | degradedWindow | thermalTrip | slackEntry | slackWake
  | domainPowerRemoved | domainPoweredUp | deadlineClose | busyResend | drainDone | linkFailure
  | retune | marginShort | thermalKStep =>
    refine guarded_wf ?_
    (repeat' split) <;> simp [h]
  | completionSignal | xfInfoClear | registerWrite | mirrorRead
  | prefixKeyWrite | hawserConfigWrite | bar4Read | bar4Write | sideDataRead | sideDataWrite | hostReset
  | doeAbort | readReq | writeReq | domainSegment | store | restoreDefaults | clearExtremes | logAck | plcaWrite | capWrite
  | targetWrite | activate | tunerEnable | tunerDisable | modRstNRelease
  | clear | fence | reseed | entropyHealthFail | noEntropyTimeout
  | nop | notify | supplyEventBegin | supplyEventEnd | rippleWindow | overcurrent
  | referenceLoss | capReleaseStep | bursts | burstEnd | throttleChange | throttleHeld | throttleChatter | chatterClear
  | bootHalt | domainTimeout | storeDone | energySave | verificationDone | repairRecord | pcieLinkUp | functionStateChange
  | spdmRequest | nvInhibitClear | governorFastStep | governorMsTick =>
    refine next_wf ?_
    (repeat' split) <;> simp [h]
  | dispatch q => exact guarded_wf (State.dispatchStep_wf h q)
  | runAheadDispatch q => exact guarded_wf (State.aheadStep_wf h q)
  | pageFree x p => exact guarded_wf (State.freePage_wf h x p)
  | poolConfigWrite x r v => exact guarded_wf (State.writePool_wf h x r v)
  | scrub l => exact execScrub_wf h l
  | sweep => exact next_wf (State.work1_wf h _ _ _ _ fun _ => sweepWork_keeps ..)
  | sweepInstanceFault => exact next_wf (by simp [h])
  | release => exact next_wf (State.work1_wf h _ _ _ _ fun _ => releaseWork_keeps ..)
  | convert => exact next_wf (State.work1_wf h _ _ _ _ fun _ => convertWork_keeps ..)
  | run => exact next_wf (State.work1_wf h _ _ _ _ fun _ => runWork_keeps ..)
  | push id => exact execPush_wf h id
  | pop id => exact execPop_wf h id
  | peek id => exact execPeek_wf h id
  | gate id => exact execGate_wf h id
  | fill id => exact execFill_wf h id
  | save id => exact execSave_wf h id
  | restore id => exact execRestore_wf h id
  | storePte id => exact execStorePte_wf h id
  | land id reply => exact execLand_wf h id reply
  | exportShard id => exact execExportShard_wf h id
  | sample id => exact execSample_wf h id
  | check id => exact execCheck_wf h id
  | ctxSave id => exact execCtxSave_wf h id
  | ctxRestore id => exact execCtxRestore_wf h id
  | openSeq => exact next_wf (State.seqOp_wf h _ _ (openBody_wf h))
  | closeSeq => exact next_wf (State.seqOp_wf h _ _ (closeBody_wf h))
  | append => exact next_wf (State.seqOp_wf h _ _ (appendBody_wf h))
  | truncate => exact next_wf (State.seqOp_wf h _ _ (truncateBody_wf h))
  | reserve => exact next_wf (State.seqOp_wf h _ _ (reserveBody_wf h))
  | matchPrefix => exact next_wf (State.seqOp_wf h _ _ (matchBody_wf h))
  | publish => exact next_wf (State.seqOp_wf h _ _ (publishBody_wf h))
  | query => exact next_wf (State.seqOp_wf h _ _ (queryBody_wf h))
  | attend => exact next_wf (State.attendOp_wf h _ _)
  | attendGrad => exact next_wf (State.attendOp_wf h _ _)
  | put id => exact execPut_wf h id
  | allreduce id => exact execAllreduce_wf h id
  | ferry id => exact execFerry_wf h id
  | regroup id => exact execRegroup_wf h id
  | collTimeout id => exact execCollTimeout_wf h id
  | ferryWaitTimeout id => exact execFerryWaitTimeout_wf h id
  | putFrame i p => exact execPutFrame_wf h i p
  | contribFrame i p => exact execContribFrame_wf h i p
  | statsFrame i p => exact execStatsFrame_wf h i p
  | readyFrame i p => exact execReadyFrame_wf h i p
  | closeFrame i p => exact execCloseFrame_wf h i p
  | ferryBlock i p => exact execFerryBlock_wf h i p
  | ferryFree i p => exact execFerryFree_wf h i p
  | rxData => exact guarded_wf (State.onFrame_wf h fun _ _ h => by simp [h])
  | ack | nak =>
    refine guarded_wf (State.onFrame_wf h fun _ _ h => ?_)
    split <;> simp [h]
  | syncReq => exact guarded_wf (State.onFrame_wf h fun _ _ h => by simp [h])
  | syncRsp => exact guarded_wf (State.onFrame_wf h fun _ _ h => by simp [h])
  | rtoExpiry i p => exact execRtoExpiry_wf h i p
  | pause p priority ns => exact execPause_wf h p priority ns
  | broadcastReadRsp => exact execBroadcastReadRsp_wf h
  | entropyReady => exact execEntropyReady_wf h
  | inputOvervoltage mean => exact execInputOvervoltage_wf h mean
  | supplyRestart => exact execSupplyRestart_wf h
  | referenceRestored => exact execReferenceRestored_wf h
  | thermalRead t => exact execThermalRead_wf h t
  | moduleReset c => exact execModuleReset_wf h c
  | bootStageComplete b => exact execBootStageComplete_wf h b
  | managementPowerLoss => exact next_wf rfl

end

/-- Settles O4: a command keeps memory canonical by the cases of `exec_wf`, and a nanosecond by `State.tick_wf`. -/
theorem stepsKeepMemoryCanonical : Obligations.StepsKeepMemoryCanonical := by
  intro s t h hstep
  unfold step at hstep
  split at hstep
  next =>
    cases hstep
    exact State.tick_wf h
  next c rest _ => exact exec_wf (s := { s with pending := rest }) h c t hstep

end Sys2Proof.Machine
end
